-- ==== Sys2Proof/Word.lean ====
section
/-! DEFINITION. The word types of the Dexdel D4 and their plainest arithmetic. -/

namespace Sys2Proof

/-- One byte. -/
abbrev Byte := BitVec 8
/-- One text word (R73), and one 32-bit lane. -/
abbrev Word := BitVec 32
/-- One 64-bit value. -/
abbrev DWord := BitVec 64
/-- A 5-bit operand code (R90). -/
abbrev Code := BitVec 5
/-- A global tile core index, 0 to 191 (R15). -/
abbrev Core := Fin 192

/-- The five engines of a tile core (R29). -/
inductive Eng where
  | c | a | v | m | x
deriving DecidableEq, Repr

/-- The engine tag of R30. -/
def Eng.tag : Eng → BitVec 3
  | .c => 0 | .a => 1 | .v => 2 | .m => 3 | .x => 4

/-- The part of its strand that an engine is: its tag as a number. -/
def Eng.part (e : Eng) : Nat := e.tag.toNat

/-- The engine of a tag of R30, none for the strand-wide and reserved tags. -/
def Eng.ofTag (t : BitVec 3) : Option Eng :=
  if t = 0 then some .c else if t = 1 then some .a else if t = 2 then some .v
  else if t = 3 then some .m else if t = 4 then some .x else none

/-- All engines, in tag order. -/
def Eng.all : List Eng := [.c, .a, .v, .m, .x]

@[simp] theorem Eng.ofTag_tag (e : Eng) : Eng.ofTag e.tag = some e := by cases e <;> rfl

end Sys2Proof
end

