-- ==== Sys2Proof/Machine/Numbers.lean ====
section
/-! DEFINITION. Number formats, exact values, rounding, quantisation and the special functions (R119 to R147). -/

namespace Sys2Proof.Machine

/-- Sign extension of the low `n` bits to 64 bits (R124). -/
def signExt (v : Nat) (n : Nat) : DWord := ((BitVec.ofNat n v).toInt |> BitVec.ofInt 64)

/-- The floating formats of R119. -/
inductive Fmt where
  | fp32 | bf16 | fp16 | e4m3 | e5m2 | e2m1
deriving DecidableEq, Repr

/-- Rounding modes (R87). -/
inductive Rm where
  | rne | rz | rd | ru | rs
deriving DecidableEq, Repr

/-- The rounding code of R87; none is reserved. -/
def Rm.ofBits (b : BitVec 3) : Option Rm :=
  match b.toNat with
  | 0 => some .rne | 1 => some .rz | 2 => some .rd | 3 => some .ru | 4 => some .rs | _ => none

namespace Fmt
/-- Fraction bits. -/
def frac : Fmt → Nat
  | fp32 => 23 | bf16 => 7 | fp16 => 10 | e4m3 => 3 | e5m2 => 2 | e2m1 => 1
/-- Exponent bits. -/
def expBits : Fmt → Nat
  | fp32 => 8 | bf16 => 8 | fp16 => 5 | e4m3 => 4 | e5m2 => 5 | e2m1 => 2
/-- Exponent bias. -/
def bias : Fmt → Nat
  | fp32 => 127 | bf16 => 127 | fp16 => 15 | e4m3 => 7 | e5m2 => 15 | e2m1 => 1
/-- Bits of a code. -/
def width (f : Fmt) : Nat := 1 + f.expBits + f.frac
/-- Exponent of the smallest subnormal (R120). -/
def minUlp (f : Fmt) : Int := 1 - (f.bias : Int) - (f.frac : Int)
/-- The largest finite magnitude, as a mantissa and an exponent (R120). -/
def maxFin : Fmt → Nat × Int
  | fp32 => (0xFFFFFF, 104) | bf16 => (0xFF, 120) | fp16 => (0x7FF, 5)
  | e4m3 => (7, 6) | e5m2 => (7, 13) | e2m1 => (3, 1)
/-- The canonical NaN (R121); E2M1 has none, and its code here is never used. -/
def nanCode : Fmt → Word
  | fp32 => 0x7FC00000 | bf16 => 0x7FC0 | fp16 => 0x7E00 | e4m3 => 0x7F | e5m2 => 0x7E | e2m1 => 0
/-- The code of positive infinity where the format has one. -/
def infCode : Fmt → Word
  | fp32 => 0x7F800000 | bf16 => 0x7F80 | fp16 => 0x7C00 | e5m2 => 0x7C | e4m3 => 0x7F | e2m1 => 0x7
/-- The sign bit of a code. -/
def signBit (f : Fmt) : Word := BitVec.ofNat 32 (2 ^ (f.expBits + f.frac))
/-- Top(F) of R333 and R385 (E2M1 stands for MXFP4). -/
def top : Fmt → Int
  | e2m1 => 3 | e4m3 => 8 | e5m2 => 15 | fp16 => 15 | bf16 => 127 | fp32 => 127
/-- Element bytes of a narrow format (R220). -/
def bytes : Fmt → Nat
  | fp32 => 4 | bf16 => 2 | fp16 => 2 | e4m3 => 1 | e5m2 => 1 | e2m1 => 1
end Fmt

/-- An exact value: `fin neg m e` is (−1)^neg × m × 2^e, zero being signed (R119, R122). -/
inductive Num where
  | nan
  | inf (neg : Bool)
  | fin (neg : Bool) (m : Nat) (e : Int)
deriving DecidableEq, Repr

namespace Num
def zero : Num := .fin false 0 0
def isZero : Num → Bool
  | .fin _ m _ => m == 0
  | _ => false
def isNan : Num → Bool
  | .nan => true
  | _ => false
def isInf : Num → Bool
  | .inf _ => true
  | _ => false
def sign : Num → Bool
  | .nan => false | .inf s => s | .fin s _ _ => s
def neg : Num → Num
  | .nan => .nan | .inf s => .inf (!s) | .fin s m e => .fin (!s) m e
def abs : Num → Num
  | .nan => .nan | .inf _ => .inf false | .fin _ m e => .fin false m e
/-- Exact scaling by a power of two (R126). -/
def scale (x : Num) (k : Int) : Num :=
  match x with
  | .fin s m e => .fin s m (e + k)
  | y => y
/-- ⌊log2 |x|⌋ of a finite non-zero value. -/
def lg : Num → Int
  | .fin _ m e => (Nat.log2 m : Int) + e
  | _ => 0
/-- The value of a finite number in units of 2^u, for u at most its exponent. -/
def units (x : Num) (u : Int) : Int :=
  match x with
  | .fin s m e => let k : Int := (m * 2 ^ (e - u).toNat : Nat); if s then -k else k
  | _ => 0
def expo : Num → Int
  | .fin _ _ e => e
  | _ => 0
/-- a < b for values that are not NaN. -/
def lt (a b : Num) : Bool :=
  match a, b with
  | .nan, _ => false
  | _, .nan => false
  | .inf s, .inf t => s && !t
  | .inf s, _ => s
  | _, .inf t => !t
  | x, y => let u := min x.expo y.expo; decide (x.units u < y.units u)
def eq (a b : Num) : Bool :=
  match a, b with
  | .nan, _ => false
  | _, .nan => false
  | .inf s, .inf t => s == t
  | .inf _, _ => false
  | _, .inf _ => false
  | x, y => let u := min x.expo y.expo; decide (x.units u = y.units u)
/-- Exact product (R136). -/
def mul (a b : Num) : Num :=
  match a, b with
  | .nan, _ => .nan
  | _, .nan => .nan
  | .inf s, .inf t => .inf (s != t)
  | .inf s, .fin t m _ => if m == 0 then .nan else .inf (s != t)
  | .fin t m _, .inf s => if m == 0 then .nan else .inf (s != t)
  | .fin s m e, .fin t n f => .fin (s != t) (m * n) (e + f)
/-- Exact sum; an exact zero of opposite signs is +0, or −0 where `dn` (R136). -/
def add (dn : Bool) (a b : Num) : Num :=
  match a, b with
  | .nan, _ => .nan
  | _, .nan => .nan
  | .inf s, .inf t => if s == t then .inf s else .nan
  | .inf s, _ => .inf s
  | _, .inf t => .inf t
  | .fin s m e, .fin t n f =>
    let u := min e f
    let k := (Num.fin s m e).units u + (Num.fin t n f).units u
    if k == 0 then
      if m == 0 && n == 0 && s == t then .fin s 0 0 else .fin dn 0 0
    else .fin (decide (k < 0)) k.natAbs u
end Num

/-- The value of a code (R119). -/
def Fmt.decode (f : Fmt) (code : Word) : Num :=
  let c := code.toNat % 2 ^ f.width
  let s := c / 2 ^ (f.expBits + f.frac) == 1
  let ex := c / 2 ^ f.frac % 2 ^ f.expBits
  let fr := c % 2 ^ f.frac
  let all := 2 ^ f.expBits - 1
  let normal := Num.fin s (2 ^ f.frac + fr) ((ex : Int) - f.bias - f.frac)
  if ex == 0 then .fin s fr f.minUlp
  else if ex == all then
    match f with
    | .e2m1 => normal
    | .e4m3 => if fr == 7 then .nan else normal
    | _ => if fr == 0 then .inf s else .nan
  else normal

/-- The code of a representable finite magnitude m × 2^e with a sign. -/
def Fmt.encodeFin (f : Fmt) (s : Bool) (m : Nat) (e : Int) : Word :=
  let sb := if s then f.signBit else 0
  if m == 0 then sb
  else
    let l : Int := (Nat.log2 m : Int) + e
    if l < 1 - (f.bias : Int) then sb ||| BitVec.ofNat 32 (m * 2 ^ (e - f.minUlp).toNat / 2 ^ (f.minUlp - e).toNat)
    else
      let k := Nat.log2 m
      let mant := if k ≤ f.frac then m * 2 ^ (f.frac - k) else m / 2 ^ (k - f.frac)
      sb ||| BitVec.ofNat 32 ((l + f.bias).toNat * 2 ^ f.frac + (mant - 2 ^ f.frac))

/-- Whether a magnitude that lies `rem`/`full` of the way from `lo` to `lo` + 1 rounds up in magnitude (R128). -/
def roundsUp (rm : Rm) (s : Bool) (lo rem full u : Nat) : Bool :=
  if rem == 0 then false
  else match rm with
    | .rne => decide (2 * rem > full) || (decide (2 * rem = full) && lo % 2 == 1)
    | .rz => false
    | .rd => s
    | .ru => !s
    | .rs =>
      if s then !decide (u < (full - rem) * 2 ^ 24 / full)
      else decide (u < rem * 2 ^ 24 / full)

/-- m × 2^e on the grid of spacing 2^ulp: the rounded multiple of the spacing. -/
def roundTo (rm : Rm) (s : Bool) (m : Nat) (e ulp : Int) (u : Nat) : Nat :=
  if ulp ≤ e then m * 2 ^ (e - ulp).toNat
  else
    let full := 2 ^ (ulp - e).toNat
    let lo := m / full
    if roundsUp rm s lo (m % full) full u then lo + 1 else lo

/-- The grid spacing of a format at a non-zero magnitude, unbounded above, subnormal below (R128). -/
def Fmt.ulpAt (f : Fmt) (m : Nat) (e : Int) : Int :=
  max ((Nat.log2 m : Int) + e - f.frac) f.minUlp

/-- GridRound of R128: (multiple, spacing exponent). -/
def gridRound (f : Fmt) (rm : Rm) (s : Bool) (m : Nat) (e : Int) (u : Nat) : Nat × Int :=
  let ulp := f.ulpAt m e
  (roundTo rm s m e ulp u, ulp)

/-- q × 2^k exceeds the largest finite magnitude of a format. -/
def Fmt.overflows (f : Fmt) (q : Nat) (k : Int) : Bool :=
  Num.lt (.fin false f.maxFin.1 f.maxFin.2) (.fin false q k)

/-- Round(v, F, rm) of R128. -/
def round (f : Fmt) (rm : Rm) (v : Num) : Word :=
  match v with
  | .nan => f.nanCode
  | .inf s => f.infCode ||| (if s then f.signBit else 0)
  | .fin s m e =>
    if m == 0 then f.encodeFin s 0 0
    else
      let (q, k) := gridRound f rm s m e 0
      if f.overflows q k then
        let toInf := match rm with
          | .rne => true | .rz => false | .ru => !s | .rd => s | .rs => true
        if toInf then f.infCode ||| (if s then f.signBit else 0)
        else f.encodeFin s f.maxFin.1 f.maxFin.2
      else f.encodeFin s q k

/-- The hash of R129, 24 bits. -/
def srHash (ri ei ph : Nat) : Nat :=
  let w : DWord := (BitVec.ofNat 64 (ri % 2 ^ 24) <<< 40) ||| BitVec.ofNat 64 (ei % 2 ^ 40)
  let z := w ^^^ (BitVec.ofNat 64 (ph % 2 ^ 32) * 0x9E3779B97F4A7C15)
  let z := (z ^^^ (z >>> 30)) * 0xBF58476D1CE4E5B9
  let z := (z ^^^ (z >>> 27)) * 0x94D049BB133111EB
  let z := z ^^^ (z >>> 31)
  z.toNat / 2 ^ 40

/-- Classes of a quantising conversion (R132). -/
inductive Cls where
  | value | overflow | underflow | nan | zero
deriving DecidableEq, Repr

/-- Quantise of R132 with the draw U given: the code and the class. -/
def quantiseU (x : Num) (f : Fmt) (s : Int) (rm : Rm) (u : Nat) : Word × Cls :=
  match x with
  | .nan => (f.nanCode, .nan)
  | .inf g => (f.encodeFin g f.maxFin.1 f.maxFin.2, .overflow)
  | .fin g m e =>
    if m == 0 then (f.encodeFin g 0 0, .zero)
    else
      let e' := e - s
      if Num.lt (.fin false m e') (.fin false 1 (f.minUlp - 1)) then (f.encodeFin g 0 0, .underflow)
      else
        let (q, k) := gridRound f rm g m e' u
        if q == 0 then (f.encodeFin g 0 0, .underflow)
        else if f.overflows q k then (f.encodeFin g f.maxFin.1 f.maxFin.2, .overflow)
        else (f.encodeFin g q k, .value)

/-- Quantise of R132 in a record's frame. -/
def quantise (x : Num) (f : Fmt) (s : Int) (rm : Rm) (ri ei ph : Nat) : Word × Cls :=
  quantiseU x f s rm (srHash ri ei ph)

/-- The scaled exponent of R133: finite and non-zero inputs only. -/
def scaledExp (x : Num) (s : Int) : Option Int :=
  match x with
  | .fin _ m e => if m == 0 then none else some ((Nat.log2 m : Int) + e - s)
  | _ => none

/-- The greater of two magnitudes that are finite. -/
def maxAbs (xs : List Num) : Num :=
  xs.foldl (fun a x => if Num.lt a x.abs then x.abs else a) Num.zero

/-- QuantiseBlock of R134 over a block's exact inputs: X, codes with classes and the exponent counted for each. -/
def quantiseBlock (xs : List Num) (s : Int) (rm : Rm) (ri ei0 ph : Nat) : BitVec 8 × List (Word × Cls × Option Int) :=
  if xs.any Num.isNan then
    (0xFF, xs.map (fun x => if x.isNan then (0, .nan, none) else (0, .zero, none)))
  else
    let bx : Int :=
      if xs.any Num.isInf then 254
      else
        let a := (maxAbs xs).scale (-s)
        if a.isZero then 127
        else
          let x := a.lg - 2 + 127
          let y := if Num.lt (a.scale (127 - x)) (.fin false 7 0) then x else x + 1
          max 0 (min 254 y)
    (BitVec.ofInt 8 bx,
      (xs.zip (List.range xs.length)).map (fun (x, i) =>
        let (c, k) := quantise x .e2m1 (s + bx - 127) rm ri (ei0 + i) ph
        (c, k, scaledExp x s)))

/-- RoundShift of R125. -/
def roundShift (v : Int) (n : Nat) (rm : Rm) : Int :=
  let s := decide (v < 0)
  let q : Int := (roundTo rm s v.natAbs 0 n 0 : Nat)
  if s then -q else q

/-- A float rounded to an integer under rm (R135); NaN is 0 and infinities are out of every range. -/
def toIntRound (x : Num) (rm : Rm) : Int :=
  match x with
  | .nan => 0
  | .inf s => if s then -(2 ^ 200) else 2 ^ 200
  | .fin s m e =>
    let q : Int := (roundTo rm s m e 0 0 : Nat)
    if s then -q else q

/-- An integer as an exact value. -/
def ofInt (v : Int) : Num := .fin (decide (v < 0)) v.natAbs 0

/-- The value of an FP32 word. -/
abbrev f32 (w : Word) : Num := Fmt.fp32.decode w
/-- RoundNE to FP32 (R128). -/
def ne32 (v : Num) : Word := round .fp32 .rne v
/-- Mul, Add and FMA of R128. -/
def fmul (a b : Word) : Word := ne32 ((f32 a).mul (f32 b))
def fadd (a b : Word) : Word := ne32 ((f32 a).add false (f32 b))
def ffma (a b c : Word) : Word := ne32 (((f32 a).mul (f32 b)).add false (f32 c))
def fneg (a : Word) : Word := a ^^^ 0x80000000

/-- Whether a FP32 value is NaN. -/
def isNan32 (w : Word) : Bool := (f32 w).isNan

/-- VMIN and VMAX of R137 in a format, on codes. -/
def fminmax (f : Fmt) (wantMax : Bool) (a b : Word) : Word :=
  let x := f.decode a
  let y := f.decode b
  if x.isNan || y.isNan then f.nanCode
  else
    let less := Num.lt x y || (Num.eq x y && x.isZero && x.sign && !y.sign)
    if less then (if wantMax then b else a) else (if wantMax then a else b)

/-- The next odd or even step of a polynomial, Horner's rule by FMA. -/
def horner (x : Word) (q : Word) : List Word → Word
  | [] => q
  | c :: cs => horner x (ffma q x c) cs

/-- Exp2Seq (R142). -/
def exp2Seq (x : Word) : Word :=
  let v := f32 x
  if v.isNan then Fmt.fp32.nanCode
  else if !Num.lt v (.fin false 128 0) then 0x7F800000
  else if Num.lt v (.fin true 151 0) then 0
  else
    let n := toIntRound v .rne
    let f := ne32 (v.add false (ofInt (-n)))
    let q := horner f 0x39218489 [0x3AAEC3FF, 0x3C1D955B, 0x3D635847, 0x3E75FDF0, 0x3F317218, 0x3F800000]
    ne32 ((f32 q).scale n)

/-- Split of R143: the mantissa in [1, 2) as an FP32 word and the exponent of a positive finite value. -/
def split (v : Num) : Word × Int :=
  (ne32 (v.abs.scale (-v.lg)), v.lg)

/-- RcpSeq (R143). -/
def rcpSeq (x : Word) : Word :=
  let v := f32 x
  if v.isNan then Fmt.fp32.nanCode
  else if v.isZero then (if v.sign then 0xFF800000 else 0x7F800000)
  else if v.isInf then (if v.sign then 0x80000000 else 0)
  else
    let (m, e) := split v
    let step := fun y => ffma y (ffma (fneg m) y 0x3F800000) y
    let y := step (step (step (ffma 0xBFF0F0F1 m 0x4034B4B5)))
    let r := (f32 y).scale (-e)
    ne32 (if v.sign then r.neg else r)

/-- RsqSeq (R144). -/
def rsqSeq (x : Word) : Word :=
  let v := f32 x
  if v.isNan || (v.sign && !v.isZero) then Fmt.fp32.nanCode
  else if v.isZero then (if v.sign then 0xFF800000 else 0x7F800000)
  else if v.isInf then 0
  else
    let (m0, e0) := split v
    let odd := e0 % 2 != 0
    let m := if odd then ne32 ((f32 m0).scale 1) else m0
    let e := if odd then e0 - 1 else e0
    let y0 := ffma (ffma 0x3D55FB7F m 0xBEDB126F) m 0x3FB014BE
    let hm := ne32 ((f32 m).scale (-1))
    let step := fun y => fmul y (ffma (fneg hm) (fmul y y) 0x3FC00000)
    ne32 ((f32 (step (step (step y0)))).scale (-(e / 2)))

/-- Log2Seq (R145). -/
def log2Seq (x : Word) : Word :=
  let v := f32 x
  if v.isNan || (v.sign && !v.isZero) then Fmt.fp32.nanCode
  else if v.isZero then 0xFF800000
  else if v.isInf then 0x7F800000
  else
    let (m0, e0) := split v
    let big := Num.lt (f32 0x3FB504F3) (f32 m0)
    let m := if big then ne32 ((f32 m0).scale (-1)) else m0
    let e := if big then e0 + 1 else e0
    let y := ne32 ((f32 m).add false (.fin true 1 0))
    let s := fmul y (rcpSeq (fadd m 0x3F800000))
    let w := fmul s s
    let q := horner w 0x3EA4258A [0x3ED30BB1, 0x3F13BB63, 0x3F76384F, 0x4038AA3B]
    ne32 ((ofInt e).add false (f32 (fmul s q)))

/-- TanhSeq (R146). -/
def tanhSeq (x : Word) : Word :=
  let v := f32 x
  let signed := fun (w : Word) => if v.sign then fneg w else w
  if v.isNan then Fmt.fp32.nanCode
  else if !Num.lt v.abs (.fin false 10 0) then signed 0x3F800000
  else if Num.lt v.abs (.fin false 1 (-12)) then x
  else
    let a := x &&& 0x7FFFFFFF
    if Num.lt v.abs (.fin false 1 (-1)) then
      let w := fmul a a
      let q := horner w 0xBABED1B2
        [0x3B6B69E8, 0xBC11371B, 0x3CB327A4, 0xBD5D0DD1, 0x3E088889, 0xBEAAAAAB, 0x3F800000]
      signed (fmul a q)
    else
      let z := exp2Seq (fmul a 0xC038AA3B)
      let n := ne32 ((Num.fin false 1 0).add false (f32 z).neg)
      let d := ne32 ((Num.fin false 1 0).add false (f32 z))
      signed (fmul n (rcpSeq d))

/-- SigSeq (R147). -/
def sigSeq (x : Word) : Word :=
  let v := f32 x
  if v.isNan then Fmt.fp32.nanCode
  else if !Num.lt v (.fin false 18 0) then 0x3F800000
  else
    let z := exp2Seq (fmul x 0xBFB8AA3B)
    rcpSeq (ne32 ((Num.fin false 1 0).add false (f32 z)))

/-- The exact sum of a block's products with the special cases of R139. -/
def blockSum (ps : List Num) : Num :=
  if ps.any Num.isNan then .nan
  else
    let pos := ps.any (fun p => p.isInf && !p.sign)
    let neg := ps.any (fun p => p.isInf && p.sign)
    if pos && neg then .nan
    else if pos then .inf false
    else if neg then .inf true
    else
      let u := ps.foldl (fun k p => if p.isZero then k else min k p.expo) (0 : Int)
      let t := ps.foldl (fun k p => if p.isZero then k else k + p.units u) (0 : Int)
      if t == 0 then .fin (ps.all (fun p => p.isZero && p.sign)) 0 0
      else .fin (decide (t < 0)) t.natAbs u

end Sys2Proof.Machine
end

