-- ==== Sys2Proof/Syntax.lean ====
section
/-! DEFINITION. The instructions of the Dexdel D4: the ONE inductive `Instr`, one constructor for each row of the
opcode table (those that carry nothing stand last). Instruction words carry their fields as the encoding gives them (R79 to R110). The other rows are the
machine's indivisible steps that no text word encodes; they carry the tile core, the queue or the outside world's
data they are about. -/

namespace Sys2Proof

/-- What the fabric brings for one round of a paceline group (R334, R340): a member's leaves, or its mask of a
rebinding, under (ftag, generation, declared rank) as R327 gives, with the round number. -/
structure FabricMsg where
  ftag : Word
  gen : Word
  rank : Nat
  round : Nat
  /-- the sender's op, reduction and peer of R329 -/
  op : BitVec 3
  rop : BitVec 1
  peer : BitVec 12
  /-- the sender's element count C of R331 -/
  count : Nat
  /-- leaves: FP32 value and poison; empty while only the maximum has arrived -/
  leaves : List (Word × Bool)
  /-- the sender's Eloc of R333 (none is NONE) -/
  eloc : Option Int
  /-- true once the sender's data has arrived, false for an exchange of maxima alone -/
  data : Bool
  /-- the mask of an XBIND -/
  bind : Option (BitVec 4096)
  /-- the Chainline port by which it enters the package (R22) -/
  port : BitVec 4 := 0
deriving DecidableEq, Repr

/-- Sensor readings of a major slot's sweep (R419, R470), from the outside world, with the findings of the scrub step
(R243) and the actions that have not finished (R423). -/
structure Sweep where
  power : Word
  dieTemps : List Int
  stackTemps : List Int
  inlet : Word
  /-- duty chosen from the readings (R468) -/
  duty : BitVec 7
  /-- granules (of physical memory) the scrub step found uncorrectable -/
  scrubbed : List Nat
  /-- granules it corrected -/
  corrected : List Nat
  /-- resources (kind, unit of R456) whose action overruns, with the ticks of extension known at its end -/
  overruns : List (BitVec 4 × BitVec 16)
deriving DecidableEq, Repr

/-- One instruction or machine step. -/
inductive Instr where
  /-- ADD (R159): Control engine adds two scalar registers under an integer type, truncating, with poison ORed. -/
  | add (d : Code) (a : Code) (b : Code) (t : BitVec 4)
  /-- SUB (R159): Control engine subtracts two scalar registers under an integer type. -/
  | sub (d : Code) (a : Code) (b : Code) (t : BitVec 4)
  /-- MUL (R159): Control engine multiplies two scalar registers, keeping the low half. -/
  | mul (d : Code) (a : Code) (b : Code) (t : BitVec 4)
  /-- MULH (R159): Control engine writes the high half of the exact 2w-bit product. -/
  | mulh (d : Code) (a : Code) (b : Code) (t : BitVec 4)
  /-- DIV (R159): Control engine divides toward zero, giving 0 on division by zero. -/
  | div (d : Code) (a : Code) (b : Code) (t : BitVec 4)
  /-- REM (R159): Control engine writes the remainder, giving the dividend on division by zero. -/
  | rem (d : Code) (a : Code) (b : Code) (t : BitVec 4)
  /-- AND (R159): Control engine bitwise AND of two scalar registers. -/
  | and (d : Code) (a : Code) (b : Code) (t : BitVec 4)
  /-- OR (R159): Control engine bitwise OR of two scalar registers. -/
  | or (d : Code) (a : Code) (b : Code) (t : BitVec 4)
  /-- XOR (R159): Control engine bitwise XOR of two scalar registers. -/
  | xor (d : Code) (a : Code) (b : Code) (t : BitVec 4)
  /-- SHL (R159): Control engine shifts left by the second operand modulo the width. -/
  | shl (d : Code) (a : Code) (b : Code) (t : BitVec 4)
  /-- SHR (R159): Control engine shifts right, arithmetic for signed and logical for unsigned types. -/
  | shr (d : Code) (a : Code) (b : Code) (t : BitVec 4)
  /-- MIN (R159): Control engine writes the lesser of two operands under the type. -/
  | min (d : Code) (a : Code) (b : Code) (t : BitVec 4)
  /-- MAX (R159): Control engine writes the greater of two operands under the type. -/
  | max (d : Code) (a : Code) (b : Code) (t : BitVec 4)
  /-- CMP (R160): Control engine writes 1 or 0 as an integer condition holds between two operands. -/
  | cmp (d : Code) (a : Code) (b : Code) (t : BitVec 4) (c : BitVec 4)
  /-- SEL (R161): Control engine selects one of two sources by the old destination value. -/
  | sel (d : Code) (a : Code) (b : Code)
  /-- ADDI (R162): Control engine adds a sign-extended 14-bit immediate over 64 bits. -/
  | addi (d : Code) (a : Code) (i : BitVec 14)
  /-- ANDI (R162): Control engine ANDs with a sign-extended 14-bit immediate. -/
  | andi (d : Code) (a : Code) (i : BitVec 14)
  /-- SHLI (R162): Control engine shifts left by an immediate amount over 64 bits. -/
  | shli (d : Code) (a : Code) (n : BitVec 6)
  /-- SHRI (R162): Control engine shifts right logically by an immediate amount. -/
  | shri (d : Code) (a : Code) (n : BitVec 6)
  /-- SARI (R162): Control engine shifts right arithmetically by an immediate amount. -/
  | sari (d : Code) (a : Code) (n : BitVec 6)
  /-- LI (R162): Control engine loads a sign-extended 19-bit immediate. -/
  | li (d : Code) (i : BitVec 19)
  /-- ARGL (R163): Control engine reads one 64-bit argument-block word at an index plus a 14-bit offset. -/
  | argl (d : Code) (a : Code) (i : BitVec 14)
  /-- QPUT (R165): Control engine pushes a scalar with its poison into C2A, C2V, C2M or C2X. -/
  | qput (q : Code) (a : Code)
  /-- QGET (R166): Control engine pops or peeks the head of A2C, V2C or X2C into a scalar register. -/
  | qget (d : Code) (q : Code) (k : BitVec 1)
  /-- BSET (R37): Control engine pushes one 32-bit outcome into all five branch-outcome queues at once. -/
  | bset (a : Code)
  /-- GSEL (R168): Control engine records this strand's 8-bit graph selector. -/
  | gsel (a : Code) (i : BitVec 8)
  /-- CHECK (R169): Control engine raises POISON-SYNC if a scalar register is poisoned. -/
  | check (a : Code)
  /-- ORI (R162): Control engine ORs with a sign-extended 32-bit immediate (wide form). -/
  | ori (d a : Code) (imm : Word)
  /-- XORI (R162): Control engine XORs with a sign-extended 32-bit immediate (wide form). -/
  | xori (d a : Code) (imm : Word)
  /-- LIW (R162): Control engine loads a sign-extended 32-bit immediate (wide form). -/
  | liw (d : Code) (imm : Word)
  /-- LIH (R162): Control engine writes a 32-bit immediate into the high half, keeping the low half. -/
  | lih (d : Code) (imm : Word)
  /-- ARGS (R163): Control engine reads an argument-block word at an index plus a 32-bit offset. -/
  | args (d a : Code) (imm : Word)
  /-- SRD (R170): Control engine reads a system register into a scalar register. -/
  | srd (d : Code) (imm : Word)
  /-- SWR (R170): Control engine writes a scalar into a writable system register after range and poison checks. -/
  | swr (a : Code) (imm : Word)
  /-- TICK (R441): Control engine reads the package step counter psc. -/
  | tick (d : Code)
  /-- MSLOT (R442): Control engine reports start, length or mask of the slot that SlotAt gives for a tick. -/
  | mslot (d a : Code) (imm : Word)
  /-- CTRR (R447): Control engine reads a performance counter, a completion counter word or a scratchpad error window. -/
  | ctrr (d : Code) (imm : Word)
  /-- TBIND (R392): Control engine binds a record slot to a live record and pins its version. -/
  | tbind (t a : Code)
  /-- TUNB (R392): Control engine unbinds a record slot. -/
  | tunb (t : Code)
  /-- TREAD (R393): Control engine reads a 64-bit word of a record as its home holds it. -/
  | tread (d t : Code) (imm : Word)
  /-- TVER (R393): Control engine reads the pinned ring entry of a bound record. -/
  | tver (d t : Code)
  /-- TSTAT (R394): Control engine reads one histogram, phase or launch-accumulator counter of a record. -/
  | tstat (d t : Code) (imm : Word)
  /-- TSYNC (R396): Control engine flushes the tile core's delta to the launch accumulator and waits for its stamps to reach the home. -/
  | tsync (t : Code)
  /-- TSTMP (R395): Control engine reads the stamp, granule state and ring membership for an element's granule. -/
  | tstmp (d a : Code) (imm : Word)
  /-- TRING (R393): Control engine reads ring entry k of a record at its home. -/
  | tring (d t : Code) (imm : Word)
  /-- SEMI (R431): An engine increments a strand or die semaphore, saturating, as a release. -/
  | semi (e : Eng) (die : BitVec 1) (n : BitVec 10) (v : BitVec 13)
  /-- SEMD (R431): An engine decrements a semaphore, flooring at zero, as a release. -/
  | semd (e : Eng) (die : BitVec 1) (n : BitVec 10) (v : BitVec 13)
  /-- SEMS (R431): An engine sets a semaphore to a value as a release. -/
  | sems (e : Eng) (die : BitVec 1) (n : BitVec 10) (v : BitVec 13)
  /-- SEMW (R434): An engine waits until a semaphore reaches a threshold and then acquires. -/
  | semw (e : Eng) (die : BitVec 1) (n : BitVec 10) (v : BitVec 13)
  /-- SEMI_WIDE (R96): Wide twin of SEMI carrying a 32-bit increment. -/
  | semiWide (e : Eng) (die : BitVec 1) (n : BitVec 10) (v : Word)
  /-- SEMD_WIDE (R96): Wide twin of SEMD carrying a 32-bit decrement. -/
  | semdWide (e : Eng) (die : BitVec 1) (n : BitVec 10) (v : Word)
  /-- SEMS_WIDE (R96): Wide twin of SEMS carrying a 32-bit value. -/
  | semsWide (e : Eng) (die : BitVec 1) (n : BitVec 10) (v : Word)
  /-- SEMW_WIDE (R96): Wide twin of SEMW carrying a 32-bit threshold. -/
  | semwWide (e : Eng) (die : BitVec 1) (n : BitVec 10) (v : Word)
  /-- SEMW_SUCCEED (R434): A waiting SEMW's level compare succeeds after a semaphore change and the engine acquires and passes on. -/
  | semwSucceed (tile : Core) (e : Eng)
  /-- REP (R41): An engine repeats its next n own words k times. -/
  | rep (e : Eng) (n : BitVec 6) (k : BitVec 16)
  /-- BR (R171): Every engine transfers control to the word at a signed offset. -/
  | br (o : BitVec 24)
  /-- BRQ (R171): Every engine pops its branch-outcome queue and branches when the value is non-zero. -/
  | brq (o : BitVec 24)
  /-- CALL (R172): Every engine pushes a call frame and transfers control. -/
  | call (o : BitVec 24)
  /-- LOOP (R173): Every engine starts a loop of an immediate trip count or skips it on zero. -/
  | loop (k : BitVec 12) (m : BitVec 12)
  /-- LOOPQ (R173): Every engine starts a loop whose trip count it pops from its branch-outcome queue. -/
  | loopq (m : BitVec 24)
  /-- SAFE (R175): Every engine passes a non-gang safe point, resetting spdist or holding for a stop. -/
  | safe (i : BitVec 16)
  /-- SAFE_G (R175): Every engine passes a gang safe point, also counting the gang sequence. -/
  | safeG (i : BitVec 16)
  /-- FENCE (R176): The passing engine performs a release, an acquire or both at a scope. -/
  | fence (k : BitVec 2) (s : BitVec 2)
  /-- AADD (R265): Access engine adds two address values modulo 2^64. -/
  | aadd (d : Code) (a : Code) (b : Code)
  /-- ASUB (R265): Access engine subtracts two address values. -/
  | asub (d : Code) (a : Code) (b : Code)
  /-- AADDI (R265): Access engine adds a 14-bit immediate to an address value. -/
  | aaddi (d : Code) (a : Code) (i : BitVec 14)
  /-- AMULI (R265): Access engine multiplies an address value by a 14-bit immediate. -/
  | amuli (d : Code) (a : Code) (i : BitVec 14)
  /-- ALI (R265): Access engine loads a sign-extended 19-bit immediate. -/
  | ali (d : Code) (i : BitVec 19)
  /-- ALIW (R265): Access engine loads a sign-extended 32-bit immediate (wide form). -/
  | aliw (d : Code) (imm : Word)
  /-- AADDW (R265): Access engine adds a 32-bit immediate (wide form). -/
  | aaddw (d a : Code) (imm : Word)
  /-- HSET (R268): Access engine sets one extent or stride of a shape register from an address value. -/
  | hset (d : Code) (a : Code) (f : BitVec 3)
  /-- HSETW (R268): Access engine sets one shape field from a 32-bit immediate (wide form). -/
  | hsetw (d f : Code) (imm : Word)
  /-- HGET (R268): Access engine reads one shape field into an address register. -/
  | hget (d : Code) (a : Code) (f : BitVec 3)
  /-- HLD (R268): Access engine reads a 48-byte shape record from memory into a shape register. -/
  | hld (d : Code) (a : Code) (i : BitVec 14)
  /-- AWIN (R269): Access engine forms a window register from a scratchpad address and a shape. -/
  | awin (d : Code) (a : Code) (b : Code)
  /-- ALD (R271): Access engine loads a traversal into A2C, A2V, a window or scratchpad, optionally tagged by a record. -/
  | ald (d : Code) (a : Code) (b : Code) (t : BitVec 4) (r : BitVec 1) (s : BitVec 2)
  /-- ALD_S (R274): Access engine loads speculatively, deferring walk and permission failures as poison. -/
  | aldS (d : Code) (a : Code) (b : Code) (t : BitVec 4) (r : BitVec 1) (s : BitVec 2)
  /-- AST (R275): Access engine stores a traversal from C2A, V2A or scratchpad, optionally as a stamped store. -/
  | ast (d : Code) (a : Code) (b : Code) (t : BitVec 4) (r : BitVec 1) (s : BitVec 2)
  /-- CPY (R278): Access engine issues a byte copy to a die copy engine. -/
  | cpy (d : Code) (a : Code) (b : Code) (s : Code) (e : BitVec 1)
  /-- PRMT (R278): Access engine issues a local scratchpad byte permutation to the permute slot. -/
  | prmt (d : Code) (a : Code) (b : Code) (s : Code) (e : BitVec 1)
  /-- AGTH (R281): Access engine gathers elements at indexed addresses into a queue or scratchpad. -/
  | agth (d : Code) (a : Code) (b : Code) (s : BitVec 2)
  /-- ASCA (R282): Access engine scatter-accumulates contributions into 4-byte elements by add, min or max. -/
  | asca (d : Code) (a : Code) (b : Code) (t : BitVec 4) (o : BitVec 3)
  /-- AATM (R284): Access engine performs an indivisible read-modify-write and returns the old element. -/
  | aatm (d : Code) (a : Code) (b : Code) (t : BitVec 4) (o : BitVec 3)
  /-- STU (R287): Access engine applies a fused momentum/variance optimiser step to up to 64 weights and requantises them. -/
  | stu (d : Code) (a : Code) (t : BitVec 4)
  /-- REQT (R290): Access engine requantises FP32 master values into a record along a traversal. -/
  | reqt (d : Code) (a : Code) (b : Code) (t : BitVec 4)
  /-- SURV (R291): Access engine appends a 32-byte survivor record to a compaction out-edge. -/
  | surv (a : Code) (e : BitVec 4)
  /-- APF (R292): Access engine requests that lines of a traversal be brought into shared SRAM. -/
  | apf (a : Code) (b : Code)
  /-- VADD (R197): Vector engine adds two tiles lane by lane. -/
  | vadd (d : Code) (a : Code) (b : Code) (t : BitVec 4) (r : BitVec 3) (q : BitVec 1)
  /-- VSUB (R197): Vector engine subtracts two tiles lane by lane. -/
  | vsub (d : Code) (a : Code) (b : Code) (t : BitVec 4) (r : BitVec 3) (q : BitVec 1)
  /-- VMUL (R197): Vector engine multiplies two tiles lane by lane. -/
  | vmul (d : Code) (a : Code) (b : Code) (t : BitVec 4) (r : BitVec 3) (q : BitVec 1)
  /-- VFMA (R197): Vector engine computes a times b plus the old destination with one rounding. -/
  | vfma (d : Code) (a : Code) (b : Code) (t : BitVec 4) (r : BitVec 3) (q : BitVec 1)
  /-- VMIN (R197): Vector engine takes the lane-wise minimum. -/
  | vmin (d : Code) (a : Code) (b : Code) (t : BitVec 4) (q : BitVec 1)
  /-- VMAX (R197): Vector engine takes the lane-wise maximum. -/
  | vmax (d : Code) (a : Code) (b : Code) (t : BitVec 4) (q : BitVec 1)
  /-- VAND (R197): Vector engine bitwise AND of two tiles. -/
  | vand (d : Code) (a : Code) (b : Code) (t : BitVec 4) (q : BitVec 1)
  /-- VOR (R197): Vector engine bitwise OR of two tiles. -/
  | vor (d : Code) (a : Code) (b : Code) (t : BitVec 4) (q : BitVec 1)
  /-- VXOR (R197): Vector engine bitwise XOR of two tiles. -/
  | vxor (d : Code) (a : Code) (b : Code) (t : BitVec 4) (q : BitVec 1)
  /-- VSHL (R198): Vector engine shifts each integer element left by a per-element count. -/
  | vshl (d : Code) (a : Code) (b : Code) (t : BitVec 4) (q : BitVec 1)
  /-- VSHR (R198): Vector engine shifts each integer element right by a per-element count. -/
  | vshr (d : Code) (a : Code) (b : Code) (t : BitVec 4) (q : BitVec 1)
  /-- VRSHR (R198): Vector engine shifts right with rounding of the shifted-out bits. -/
  | vrshr (d : Code) (a : Code) (b : Code) (t : BitVec 4) (r : BitVec 3) (q : BitVec 1)
  /-- VMAC2 (R199): Vector engine multiplies packed INT16 pairs and accumulates saturating into INT32 lanes. -/
  | vmac2 (d : Code) (a : Code) (b : Code) (q : BitVec 1)
  /-- VEXP2 (R142): Vector engine computes base-2 exponential per element by the fixed step sequence. -/
  | vexp2 (d : Code) (a : Code) (t : BitVec 4) (q : BitVec 1)
  /-- VLOG2 (R145): Vector engine computes base-2 logarithm per element. -/
  | vlog2 (d : Code) (a : Code) (t : BitVec 4) (q : BitVec 1)
  /-- VRCP (R143): Vector engine computes the reciprocal per element. -/
  | vrcp (d : Code) (a : Code) (t : BitVec 4) (q : BitVec 1)
  /-- VRSQ (R144): Vector engine computes the reciprocal square root per element. -/
  | vrsq (d : Code) (a : Code) (t : BitVec 4) (q : BitVec 1)
  /-- VTANH (R146): Vector engine computes tanh per element. -/
  | vtanh (d : Code) (a : Code) (t : BitVec 4) (q : BitVec 1)
  /-- VSIG (R147): Vector engine computes the logistic sigmoid per element. -/
  | vsig (d : Code) (a : Code) (t : BitVec 4) (q : BitVec 1)
  /-- VABS (R200): Vector engine takes absolute values. -/
  | vabs (d : Code) (a : Code) (t : BitVec 4) (q : BitVec 1)
  /-- VNEG (R200): Vector engine negates elements. -/
  | vneg (d : Code) (a : Code) (t : BitVec 4) (q : BitVec 1)
  /-- VNOT (R200): Vector engine complements lanes bitwise. -/
  | vnot (d : Code) (a : Code) (t : BitVec 4) (q : BitVec 1)
  /-- VPUSH (R193): Vector engine compares two tiles and pushes the result, nested in p, on the predicate stack. -/
  | vpush (c : Code) (a : Code) (b : Code) (t : BitVec 4)
  /-- VSEL (R201): Vector engine selects lanes of two tiles by the predicate top. -/
  | vsel (d : Code) (a : Code) (b : Code) (t : BitVec 4)
  /-- VCVT (R209): Vector engine performs a plain conversion between two types, setting sticky flags. -/
  | vcvt (d : Code) (a : Code) (b : Code) (t : BitVec 4) (r : BitVec 3) (q : BitVec 1)
  /-- VQNT (R213): Vector engine quantises a tile under a record's pinned version, stamping and counting each element. -/
  | vqnt (d : Code) (a : Code) (b : Code) (t : BitVec 4) (r : BitVec 3) (q : BitVec 1)
  /-- VDQ (R215): Vector engine decodes tagged narrow codes into FP32 through the record's ring. -/
  | vdq (d : Code) (a : Code) (b : Code) (r : BitVec 3) (q : BitVec 1)
  /-- VROT (R204): Vector engine rotates elements along an axis. -/
  | vrot (d : Code) (a : Code) (x : BitVec 1) (u : BitVec 1) (n : BitVec 6)
  /-- VSLIDE (R204): Vector engine slides elements along an axis with a fill. -/
  | vslide (d : Code) (a : Code) (x : BitVec 1) (u : BitVec 1) (f : BitVec 2) (n : BitVec 6)
  /-- VBCAST (R205): Vector engine broadcasts one column or row across the tile. -/
  | vbcast (d : Code) (a : Code) (x : BitVec 1) (n : BitVec 6)
  /-- VRED_SUM (R206): Vector engine sums along an axis by the fixed pairwise tree. -/
  | vredSum (d : Code) (a : Code) (t : BitVec 4) (x : BitVec 1) (q : BitVec 1)
  /-- VRED_MAX (R206): Vector engine takes the maximum along an axis by the tree. -/
  | vredMax (d : Code) (a : Code) (t : BitVec 4) (x : BitVec 1) (q : BitVec 1)
  /-- VRED_MIN (R206): Vector engine takes the minimum along an axis by the tree. -/
  | vredMin (d : Code) (a : Code) (t : BitVec 4) (x : BitVec 1) (q : BitVec 1)
  /-- VRED_AMAX (R206): Vector engine takes the maximum absolute value along an axis. -/
  | vredAmax (d : Code) (a : Code) (x : BitVec 1) (q : BitVec 1)
  /-- VMOV (R202): Vector engine copies rows with poison and tags, pushing to V2C clearing the sticky flags. -/
  | vmov (d : Code) (a : Code) (t : BitVec 4) (q : BitVec 1)
  /-- VLI (R203): Vector engine writes a 32-bit immediate to every lane (wide form). -/
  | vli (d : Code) (imm : Word)
  /-- VIOTA (R203): Vector engine writes the column or row index to every lane (wide form). -/
  | viota (d : Code) (imm : Word)
  /-- VCPR (R208): Vector engine packs predicated lanes toward index 0 (wide form). -/
  | vcpr (d a : Code) (imm : Word)
  /-- VPCNT (R207): Vector engine counts the set bits of the predicate top (wide form). -/
  | vpcnt (d : Code)
  /-- MZERO (R227): Matrix engine zeroes an accumulator and its row poison. -/
  | mzero (d : Code)
  /-- MMA (R225): Matrix engine multiplies two tagged windows into an accumulator in fixed block order. -/
  | mma (d : Code) (a : Code) (b : Code) (m : BitVec 2)
  /-- MSOFT (R229): Matrix engine performs one online-softmax step, writing BF16 probabilities to a window. -/
  | msoft (d : Code) (a : Code) (b : Code)
  /-- MSCALE (R228): Matrix engine scales an accumulator by 2^e from an immediate exponent. -/
  | mscale (d : Code) (i : BitVec 14)
  /-- MSCALE_C2M (R228): Matrix engine scales an accumulator by 2^e with e popped or peeked from C2M. -/
  | mscaleC2m (d : Code) (p : BitVec 1)
  /-- MOUT (R231): Matrix engine quantises an accumulator into a window under a record's version. -/
  | mout (d : Code) (a : Code) (b : Code) (r : BitVec 3)
  /-- MDRN (R233): Matrix engine drains accumulator rows into M2V entry by entry. -/
  | mdrn (a : Code) (f : BitVec 7) (c : BitVec 7)
  /-- MSIDE (R234): Matrix engine pushes a max or sum side register into M2V. -/
  | mside (a : Code) (s : BitVec 1)
  /-- MSRST (R227): Matrix engine resets both side registers of an accumulator. -/
  | msrst (d : Code)
  /-- MCPY (R227): Matrix engine copies one accumulator's values and poison to another. -/
  | mcpy (d : Code) (a : Code)
  /-- MADD (R227): Matrix engine adds one accumulator into another. -/
  | madd (d : Code) (a : Code)
  /-- XCMD (R330): Exchange engine checks and places a collective command in the sequencer with a ticket. -/
  | xcmd (a : Code) (i : BitVec 14)
  /-- XBIND (R340): Exchange engine places a rebinding command with a rank mask. -/
  | xbind (a : Code) (b : Code)
  /-- XPUT (R341): Exchange engine places a one-sided write to a peer. -/
  | xput (a : Code) (i : BitVec 14)
  /-- XGET (R341): Exchange engine places a one-sided read from a peer. -/
  | xget (a : Code) (i : BitVec 14)
  /-- XSTAT (R337): Exchange engine reads the status of a ticket. -/
  | xstat (d : Code) (a : Code)
  /-- XABORT (R339): Exchange engine aborts every outstanding command from a ticket on. -/
  | xabort (a : Code)
  /-- XMOV (R323): Exchange engine moves a register or C2X entry to a register or X2C. -/
  | xmov (d : Code) (a : Code)
  /-- XLI (R323): Exchange engine loads a sign-extended 19-bit immediate. -/
  | xli (d : Code) (i : BitVec 19)
  /-- XADD (R323): Exchange engine adds two registers. -/
  | xadd (d : Code) (a : Code) (b : Code)
  /-- XADDI (R323): Exchange engine adds a 14-bit immediate. -/
  | xaddi (d : Code) (a : Code) (i : BitVec 14)
  /-- XLIW (R110): Exchange engine loads a sign-extended 32-bit immediate (wide form). -/
  | xliw (d : Code) (imm : Word)
  /-- QUEUE_WAIT_RELEASE (R187): A word blocked on queue entries or room takes all its pops, peeks and pushes once they are available. -/
  | queueWaitRelease (tile : Core) (e : Eng)
  /-- WINDOW_WAIT_RELEASE (R223): A window word resumes once earlier window words naming its window have completed. -/
  | windowWaitRelease (tile : Core) (e : Eng)
  /-- SLIP_WINDOW_RELEASE (R34): A stalled engine passes its next word once the slip window admits it. -/
  | slipWindowRelease (tile : Core) (e : Eng)
  /-- TEXT_FETCH (R78): A text-cache miss for program text or the safe-point table completes, possibly after a slot hold. -/
  | textFetch (tile : Core) (addr : DWord)
  /-- STRAND_PLACEMENT (R29): An idle tile core takes a strand from its queue or by stealing, resets its state and zeroes scratchpad as R238 gives. -/
  | strandPlacement (tile source : Core) (pick : Nat)
  /-- GANG_PLACEMENT (R47): A gang launch is placed one strand per tile core once enough team tile cores are idle together. -/
  | gangPlacement (launch : Nat)
  /-- PRIORITY_AGEING (R59): A launch that has waited 2^20 ticks without dispatching rises one priority level. -/
  | priorityAgeing (launch : Nat)
  /-- STRAND_END (R57): A strand ends once all engines passed END and its requests and commands are accepted. -/
  | strandEnd (tile : Core)
  /-- LAUNCH_COMPLETION (R57): The launch's last strand ends; counts merge, status is decided and the counter is written as a release. -/
  | launchCompletion (launch : Nat)
  /-- STRAND_DEADLOCK (R43): The sync unit detects every engine internally blocked and raises STRAND-DEADLOCK with blocking causes. -/
  | strandDeadlock (tile : Core)
  /-- SAFE_DISTANCE (R413): spdist exceeds splim and the strand faults at the tick. -/
  | safeDistance (tile : Core)
  /-- STOP_REQUEST (R402): A stop request reaches a strand, which records c and chooses the qualifying stop point. -/
  | stopRequest (tile : Core)
  /-- STOP_WITHDRAW (R368): A pending stop request is withdrawn because a tile core became idle first. -/
  | stopWithdraw (tile : Core)
  /-- STOP_POINT_REACHED (R403): All five engines hold at the stop point; the stop state is checked. -/
  | stopPointReached (tile : Core)
  /-- GANG_CUT (R405): Gang strands are released and held again until all hold at the same gang sequence count. -/
  | gangCut (launch : Nat)
  /-- CONTEXT_SAVE (R403): Once commands are done and any gang cut completes, deltas are flushed and the context written to a save slot. -/
  | contextSave (tile : Core)
  /-- CONTEXT_SAVE_COMPLETE (R410): All save writes are visible at PACKAGE scope and the tile core is freed. -/
  | contextSaveComplete (tile : Core)
  /-- STRAND_RESUME (R411): A stopped strand is placed again and its context restored, entering the rebuild stub if any. -/
  | strandResume (tile : Core) (launch : Nat) (index : BitVec 24)
  /-- DOORBELL (R347): A write to a queue's doorbell appends packets, resumes a halted queue, or halts it with DOORBELL. -/
  | doorbell (q : BitVec 8) (value : DWord)
  /-- LAUNCH (R351): LAUNCH packet dispatches a launch from the shadow registers and arms its counter. -/
  | launchPacket (q : BitVec 8)
  /-- GRAPH (R351): GRAPH packet dispatches a graph descriptor's nodes and edges. -/
  | graphPacket (q : BitVec 8)
  /-- BEGIN (R351): BEGIN packet opens a batch. -/
  | beginPacket (q : BitVec 8)
  /-- COMMIT (R351): COMMIT packet closes a batch. -/
  | commitPacket (q : BitVec 8)
  /-- WAIT (R351): WAIT packet holds the queue until a counter is final. -/
  | waitPacket (q : BitVec 8)
  /-- WAIT_SATISFIED (R435): A held WAIT succeeds once its counter is final and acquires its release. -/
  | waitSatisfied (q : BitVec 8)
  /-- SIGNAL (R351): SIGNAL packet arms a counter and completes it OK once earlier work completes. -/
  | signalPacket (q : BitVec 8)
  /-- BAR_RELEASE (R349): A packet with bar set proceeds once every earlier launch, graph, copy and fill of its queue has completed. -/
  | barRelease (q : BitVec 8)
  /-- COPY (R353): COPY packet copies bytes in the command front end as an agent. -/
  | copyPacket (q : BitVec 8)
  /-- FILL (R353): FILL packet writes a repeating 8-byte pattern. -/
  | fillPacket (q : BitVec 8)
  /-- COPY_FILL_COMPLETE (R353): A COPY or FILL finishes writing and its counter becomes final. -/
  | copyFillComplete (work : Nat)
  /-- INDIRECT (R351): INDIRECT packet executes a buffer of packets against the same shadow. -/
  | indirectPacket (q : BitVec 8)
  /-- CANCEL (R369): CANCEL packet discards unstarted strands and stops running ones of a launch or graph. -/
  | cancelPacket (q : BitVec 8)
  /-- PHASE (R50): PHASE packet marks the phase's close in its queue and holds packets behind it. -/
  | phasePacket (q : BitVec 8)
  /-- NOP_PACKET (R351): NOP packet does nothing. -/
  | nopPacket (q : BitVec 8)
  /-- PHASE_CLOSE (R388): Once every queue reached the PHASE packet and prior work is final, each Derailleur evaluates its touched records. -/
  | phaseClose (job : Word)
  /-- PHASE_ADVANCE (R50): After every Derailleur finishes, the phase number advances, deferred record updates apply and the phase counter re-arms. -/
  | phaseAdvance (job : Word)
  /-- COMPACTION_BATCH (R363): The compactor writes a full batch and starts one strand of the target node. -/
  | compactionBatch (graph edge : Nat)
  /-- COMMAND_START (R332): An exchange command reaches the sequencer head and starts, checking counts and peers. -/
  | commandStart (tile : Core)
  /-- COMMAND_WAIT_SATISFIED (R332): A command's wait semaphore meets its threshold and the command proceeds. -/
  | commandWaitSatisfied (tile : Core)
  /-- CONTRIBUTION (R334): A contribution or reduced maximum from the fabric arrives for a round. -/
  | contribution (msg : FabricMsg)
  /-- COMMAND_FINISH (R332): A command completes DONE, records its status and applies its set semaphore. -/
  | commandFinish (tile : Core) (inSwitch : Bool)
  /-- COMMAND_TIMEOUT (R338): A command's timeout expires; it ends TIMEOUT and sends aborts. -/
  | commandTimeout (tile : Core)
  /-- PEER_ABORT (R338): An abort for a round arrives and ends the matching command PEER-ABORTED. -/
  | peerAbort (ftag gen : Word) (round : Nat)
  /-- MISMATCH_NOTICE (R331): A mismatch notice arrives and ends the matching command MISMATCH. -/
  | mismatchNotice (ftag gen : Word) (round : Nat)
  /-- SWITCH_DISCARD (R327): A Chainline switch reports a discarded contribution and the sender's launch ends with X-MEMBERSHIP. -/
  | switchDiscard (tile : Core)
  /-- BIND_ROUND (R340): All named ranks' XBINDs are present; the binding generation advances or MISMATCH results. -/
  | bindRound (tile : Core)
  /-- BIND_TIMEOUT (R340): btmo expires before the bind round completes; status TIMEOUT. -/
  | bindTimeout (tile : Core)
  /-- REMOTE_TRANSFER (R341): An XPUT or XGET is served at the peer, ending REMOTE-FAULT on a failed check. -/
  | remoteTransfer (tile : Core) (bytes : List (Byte × Bool)) (ok tracked : Bool)
  /-- COPY_ENGINE_COMPLETE (R279): A CPY's destination is visible and its strand semaphore increment is applied. -/
  | copyEngineComplete (tile : Core) (slot : Nat)
  /-- PERMUTE_COMPLETE (R279): A PRMT finishes and increments its strand semaphore. -/
  | permuteComplete (tile : Core) (slot : Nat)
  /-- HOME_WRITE_APPLY (R309): A home slice applies a write once the vector-clock gate allows it, resolving tracked lines. -/
  | homeWriteApply (k : Nat) (spill : Option Nat)
  /-- PAGE_WALK (R255): A walker completes a page walk, serving all coalesced misses. -/
  | pageWalk (tile : Core) (job : Word) (addr : DWord)
  /-- SLOT_BODY_START (R419): At tick S the slot's refresh, sensor, calibration, retraining and scrub work begins. -/
  | slotBodyStart (temps volts : List Int)
  /-- SLOT_END (R420): At tick S+L held requests are issued in order; unfinished actions extend. -/
  | slotEnd (sweep : Sweep)
  /-- EXTENSION_END (R423): An overrunning maintenance action finishes and releases its resource. -/
  | extensionEnd (kind : BitVec 4) (unit : BitVec 16)
  /-- LINK_FAILURE (R457): A link controller loses its link in operation. -/
  | linkFailure (kind : BitVec 4) (unit : BitVec 16)
  /-- RESET_HOLD (R465): Host writes the hold bit, holding the package in reset or releasing it to boot. -/
  | resetHold (value : DWord)
  /-- TRIP_CLEAR (R461): Host writes 1 to clear the latched thermal trip. -/
  | tripClear (value : DWord)
  /-- POWER_CAP (R468): Host writes the package power cap. -/
  | powerCap (value : DWord)
  /-- REGISTER_WRITE_REFUSED (R462): A write to an undefined offset, with non-zero z or out of range is refused and counted. -/
  | registerWriteRefused (offset : Nat) (value : DWord)
  /-- FEPEL_LINK_TRAINED (R465): Die 0 completes Fepel Link training during boot. -/
  | fepelLinkTrained (ok : Bool)
  /-- IMAGE_DELIVERED (R466): The image arrives whole and the ROM verifies it and copies it to the other supervisors. -/
  | imageDelivered (image : List Byte) (whole : Bool)
  /-- MEMORIES_READY (R465): HBM calibration and die-to-die training finish and supervisors contend for the lease. -/
  | memoriesReady (alive : BitVec 4)
  /-- PSC_ALIGNMENT (R426): Chainline trains and the package steps psc forward to the reference, running a catch-up slot. -/
  | pscAlignment (ports : BitVec 12) (reference : Option DWord)
  /-- THERMAL_TRIP (R469): A die or stack reaches 115 °C and the card holds the package in reset. -/
  | thermalTrip (temps : List Int)
  /-- CREATE_JOB (R52): Supervisor validates a job descriptor, assigns a job number and die-semaphore blocks. -/
  | createJob (jobno : Word) (b0 b1 b2 b3 : BitVec 4)
  /-- UNDEFINED_ENCODING (R92): An engine reaches a word that no opcode map defines and ILLEGAL is raised at it. -/
  | undefinedEncoding (tile : Core) (e : Eng)
  /-- SUPERVISOR_MAILBOX (R463): A host write to the supervisor mailbox hands the leader a request block, queued up to 64 deep. -/
  | supervisorMailbox (addr : DWord)
  /-- LINK_TRAINED (R426): A Chainline link trains after boot, and is refused with LINK-DOWN if the partner's psc differs by more than 4 ticks. -/
  | linkTrained (port : BitVec 4) (skew : Nat)
  /-- POWER_LOSS (R467): Power is lost, which loses the open attestation block's unused leaves and leaves an interrupted floor write or burn as the manual gives. -/
  | powerLoss (floorWritten : Bool)
  /-- FLIT_RETRIED (R444): A die-to-die, Chainline or Fepel Link flit is retried and counted in its error window, possibly declaring the link lasting. -/
  | flitRetried (kind : BitVec 4) (unit : BitVec 16)
  /-- RET (R172): Every engine pops a call frame and returns to its index. -/
  | ret
  /-- ENDL (R173): Every engine counts down the top loop frame, branching back or popping it. -/
  | endl
  /-- RESUME (R179): Barrier at the end of a rebuild stub that checks state and sends every engine past the stop point. -/
  | resume
  /-- NOP (R177): Every engine passes the word with no effect. -/
  | nop
  /-- END (R178): The passing engine stops, discarding its frames and outcomes. -/
  | endW
  /-- VELSE (R194): Vector engine inverts the top predicate entry within its parent. -/
  | velse
  /-- VPEND (R194): Vector engine pops the predicate stack. -/
  | vpend
  /-- DRAIN_LEAD_START (R420): At tick S-256 engines and controllers stop issuing requests affected by the slot. -/
  | drainLeadStart
  /-- ERROR_WINDOW_RESET (R444): At every multiple of 2^30 ticks non-lasting window counts reset. -/
  | errorWindowReset
  /-- LEASE_RENEW (R371): The leader renews the leader lease every 470,000 ticks. -/
  | leaseRenew
  /-- LEADER_STOP (R371): A leader that has not renewed stops its front end 94,000 ticks before lease end. -/
  | leaderStop
  /-- LEASE_LAPSE (R371): A lease lapses and the lowest live die takes it, resuming queues from state blocks. -/
  | leaseLapse
  /-- READY (R465): The leader publishes the calendar and sets boot status READY. -/
  | bootReady
  /-- TEARDOWN_JOB (R52): Supervisor tears down every queue of a job and waits for its launches to end. -/
  | teardownJob
  /-- JOB_TEARDOWN_COMPLETE (R52): No launch of the job runs; its semaphore blocks and save slots are freed and completion reported. -/
  | jobTeardownComplete
  /-- REGISTER_QUEUE (R346): Supervisor registers a host command queue from its descriptor. -/
  | registerQueue
  /-- TEARDOWN_QUEUE (R370): Front end stops a queue at a packet boundary, discards packets and cancels its work. -/
  | teardownQueue
  /-- RECORD_CREATE (R377): Supervisor creates or replaces a record, at once or at the next phase close. -/
  | recordCreate
  /-- RECORD_DELETE (R377): Supervisor zeroes a record's entry so that it is not live. -/
  | recordDelete
  /-- POLICY_SET (R377): Supervisor sets a policy table entry. -/
  | policySet
  /-- INVALIDATE (R256): Supervisor invalidates translations of a range and completes when no agent uses old entries. -/
  | invalidate
  /-- LOAD_KEY (R257): Supervisor loads an encryption key slot after writing back lines tagged with it. -/
  | loadKey
  /-- DEBUG_HALT (R415): Debugger halts every engine of a strand at its next word boundary. -/
  | debugHalt
  /-- DEBUG_RESUME (R415): Debugger resumes a halted strand with operands re-read. -/
  | debugResume
  /-- DEBUG_READ (R415): Debugger reads strand state in the context image layout. -/
  | debugRead
  /-- DEBUG_WRITE (R415): Debugger writes strand state in the context image layout. -/
  | debugWrite
  /-- ATTEST (R467): Leader signs a challenge with the next XMSS leaf, burning a block when needed. -/
  | attest
  /-- RESERVE_DET (R252): Supervisor records the identity tables, writer directories and merge areas for deterministic jobs. -/
  | reserveDet
  /-- READ_EVENTS (R456): Supervisor copies event records of a die to host memory. -/
  | readEvents
  /-- READ_WINDOWS (R445): Supervisor copies every error window count to host memory. -/
  | readWindows
  /-- CALENDAR (R424): Supervisor returns the physical address of the calendar table. -/
  | calendarRequest
  /-- FENCED (R459): Supervisor writes the mask of fenced tile cores to host memory. -/
  | fencedRequest
  /-- CARD_RESET (R461): The host adapter card is reset, which sets the power cap register to 2,200. -/
  | cardReset
deriving DecidableEq, Repr

end Sys2Proof
end

