-- ==== Sys2Proof/Decode.lean ====
section
/-! DEFINITION. Decoding of text words (R30, R31, R73 to R110) and, after it, the encoder. Decoding is total: a word that
no opcode map defines (R92) is rejected by name. -/

namespace Sys2Proof

/-- Why bytes are not an instruction. -/
inductive DecodeError where
  /-- fewer bytes than the instruction has -/
  | truncated
  /-- tag 0b110 or 0b111 (R30, R31) -/
  | reservedTag
  /-- a word that the opcode map of its tag does not define (R92) -/
  | undefinedWord
deriving DecidableEq, Repr

/-- The fields of a word in the RRR format (R79); every other format is read from them (R80 to R83). -/
structure Fields where
  tag : BitVec 3
  maj : BitVec 5
  d : Code
  a : Code
  b : Code
  fn : BitVec 9
deriving DecidableEq, Repr

/-- The fields of a word: tag [31:29], major [28:24], d [23:19], a [18:14], b [13:9], fn9 [8:0]. -/
def Fields.ofWord (w : Word) : Fields :=
  { tag := w.extractLsb' 29 3, maj := w.extractLsb' 24 5, d := w.extractLsb' 19 5,
    a := w.extractLsb' 14 5, b := w.extractLsb' 9 5, fn := w.extractLsb' 0 9 }

/-- The word of its fields. -/
def Fields.toWord (f : Fields) : Word := f.tag ++ f.maj ++ f.d ++ f.a ++ f.b ++ f.fn

namespace Fields
/-- Type code, fn9 [8:5] (R85). -/
def ty (f : Fields) : BitVec 4 := f.fn.extractLsb' 5 4
/-- Rounding code, fn9 [4:2]. -/
def rm (f : Fields) : BitVec 3 := f.fn.extractLsb' 2 3
/-- Axis bit, fn9 [1]. -/
def ax (f : Fields) : BitVec 1 := f.fn.extractLsb' 1 1
/-- Predication bit, fn9 [0]. -/
def q (f : Fields) : BitVec 1 := f.fn.extractLsb' 0 1
/-- imm14 (R80). -/
def imm14 (f : Fields) : BitVec 14 := f.b ++ f.fn
/-- imm19 (R81). -/
def imm19 (f : Fields) : BitVec 19 := f.a ++ f.b ++ f.fn
/-- off24 (R82). -/
def off24 (f : Fields) : BitVec 24 := f.d ++ f.a ++ f.b ++ f.fn
end Fields

/-- `i` where the fields that must be zero are zero (R84, R92). -/
def onlyIf (c : Bool) (i : Instr) : Option Instr := if c then some i else none

/-- The shared majors 26 to 30, in any engine (R94, R95, R97). -/
def decodeShared (e : Eng) (f : Fields) : Option Instr :=
  let o := f.off24
  let die := o.extractLsb' 23 1
  let n := o.extractLsb' 13 10
  let v := o.extractLsb' 0 13
  match f.maj.toNat with
  | 26 => some (.semi e die n v)
  | 27 => some (.semd e die n v)
  | 28 => some (.sems e die n v)
  | 29 => some (.semw e die n v)
  | 30 => onlyIf (o.extractLsb' 22 2 == 0) (.rep e (o.extractLsb' 16 6) (o.extractLsb' 0 16))
  | _ => none

/-- The wide twins of the semaphore forms: sub14 0x2000 to 0x3FFF (R83, R96). -/
def decodeSemWide (e : Eng) (f : Fields) (imm : Word) : Option Instr :=
  let s := f.imm14
  let n : BitVec 10 := f.d ++ f.a
  let die := s.extractLsb' 10 1
  if s.extractLsb' 13 1 == 1 && s.extractLsb' 0 10 == 0 then
    match (s.extractLsb' 11 2).toNat with
    | 0 => some (.semiWide e die n imm)
    | 1 => some (.semdWide e die n imm)
    | 2 => some (.semsWide e die n imm)
    | _ => some (.semwWide e die n imm)
  else none

/-- The strand-wide map, tag 0b101 (R98). -/
def decodeS (f : Fields) : Option Instr :=
  let o := f.off24
  match f.maj.toNat with
  | 1 => some (.br o)
  | 2 => some (.brq o)
  | 3 => some (.call o)
  | 4 => onlyIf (o == 0) .ret
  | 5 => some (.loop (o.extractLsb' 12 12) (o.extractLsb' 0 12))
  | 6 => some (.loopq o)
  | 7 => onlyIf (o == 0) .endl
  | 8 => onlyIf (o.extractLsb' 16 8 == 0) (.safe (o.extractLsb' 0 16))
  | 9 => onlyIf (o.extractLsb' 16 8 == 0) (.safeG (o.extractLsb' 0 16))
  | 10 => onlyIf (o == 0) .resume
  | 11 => onlyIf (o.extractLsb' 4 20 == 0) (.fence (o.extractLsb' 2 2) (o.extractLsb' 0 2))
  | 12 => onlyIf (o == 0) .nop
  | 13 => onlyIf (o == 0) .endW
  | _ => none

/-- The control engine's wide forms (R101). -/
def decodeCWide (f : Fields) (imm : Word) : Option Instr :=
  match f.imm14.toNat with
  | 0x0001 => some (.ori f.d f.a imm)
  | 0x0002 => some (.xori f.d f.a imm)
  | 0x0003 => onlyIf (f.a == 0) (.liw f.d imm)
  | 0x0004 => onlyIf (f.a == 0) (.lih f.d imm)
  | 0x0005 => some (.args f.d f.a imm)
  | 0x0006 => onlyIf (f.a == 0) (.srd f.d imm)
  | 0x0007 => onlyIf (f.d == 0) (.swr f.a imm)
  | 0x0008 => onlyIf (f.a == 0 && imm == 0) (.tick f.d)
  | 0x0009 => some (.mslot f.d f.a imm)
  | 0x000A => onlyIf (f.a == 0) (.ctrr f.d imm)
  | 0x0010 => onlyIf (imm == 0) (.tbind f.d f.a)
  | 0x0011 => onlyIf (f.a == 0 && imm == 0) (.tunb f.d)
  | 0x0012 => some (.tread f.d f.a imm)
  | 0x0013 => onlyIf (imm == 0) (.tver f.d f.a)
  | 0x0014 => some (.tstat f.d f.a imm)
  | 0x0015 => onlyIf (f.a == 0 && imm == 0) (.tsync f.d)
  | 0x0016 => some (.tstmp f.d f.a imm)
  | 0x0017 => some (.tring f.d f.a imm)
  | _ => decodeSemWide .c f imm

/-- The control engine map, tag 0b000 (R100, R101). -/
def decodeC (f : Fields) (imm : Word) : Option Instr :=
  let ci := f.fn.extractLsb' 0 5 == 0
  match f.maj.toNat with
  | 1 => onlyIf ci (.add f.d f.a f.b f.ty)
  | 2 => onlyIf ci (.sub f.d f.a f.b f.ty)
  | 3 => onlyIf ci (.mul f.d f.a f.b f.ty)
  | 4 => onlyIf ci (.mulh f.d f.a f.b f.ty)
  | 5 => onlyIf ci (.div f.d f.a f.b f.ty)
  | 6 => onlyIf ci (.rem f.d f.a f.b f.ty)
  | 7 => onlyIf ci (.and f.d f.a f.b f.ty)
  | 8 => onlyIf ci (.or f.d f.a f.b f.ty)
  | 9 => onlyIf ci (.xor f.d f.a f.b f.ty)
  | 10 => onlyIf ci (.shl f.d f.a f.b f.ty)
  | 11 => onlyIf ci (.shr f.d f.a f.b f.ty)
  | 12 => onlyIf ci (.min f.d f.a f.b f.ty)
  | 13 => onlyIf ci (.max f.d f.a f.b f.ty)
  | 14 => onlyIf (f.q == 0) (.cmp f.d f.a f.b f.ty (f.fn.extractLsb' 1 4))
  | 15 => onlyIf (f.fn == 0) (.sel f.d f.a f.b)
  | 16 => some (.addi f.d f.a f.imm14)
  | 17 => some (.andi f.d f.a f.imm14)
  | 18 =>
    if f.imm14.extractLsb' 6 6 == 0 then
      match (f.imm14.extractLsb' 12 2).toNat with
      | 0 => some (.shli f.d f.a (f.imm14.extractLsb' 0 6))
      | 1 => some (.shri f.d f.a (f.imm14.extractLsb' 0 6))
      | 2 => some (.sari f.d f.a (f.imm14.extractLsb' 0 6))
      | _ => none
    else none
  | 19 => some (.li f.d f.imm19)
  | 20 => some (.argl f.d f.a f.imm14)
  | 21 => onlyIf (f.b == 0 && f.fn == 0) (.qput f.d f.a)
  | 22 => onlyIf (f.b == 0 && f.ty == 3 && f.fn.extractLsb' 1 4 == 0) (.qget f.d f.a f.q)
  | 23 => onlyIf (f.d == 0 && f.b == 0 && f.fn == 0) (.bset f.a)
  | 24 => onlyIf (f.d == 0 && f.imm14.extractLsb' 8 6 == 0) (.gsel f.a (f.imm14.extractLsb' 0 8))
  | 25 => onlyIf (f.d == 0 && f.b == 0 && f.fn == 0) (.check f.a)
  | 31 => decodeCWide f imm
  | _ => decodeShared .c f

/-- The access engine map, tag 0b001 (R102, R103). -/
def decodeA (f : Fields) (imm : Word) : Option Instr :=
  let sz := f.fn.extractLsb' 2 2
  let z2 := f.fn.extractLsb' 0 2 == 0
  let s := f.fn.extractLsb' 4 5
  let se := f.fn.extractLsb' 3 1
  let z3 := f.fn.extractLsb' 0 3 == 0
  let hf := f.imm14.extractLsb' 3 11 == 0
  match f.maj.toNat with
  | 1 => onlyIf (f.fn == 0) (.aadd f.d f.a f.b)
  | 2 => onlyIf (f.fn == 0) (.asub f.d f.a f.b)
  | 3 => some (.aaddi f.d f.a f.imm14)
  | 4 => some (.amuli f.d f.a f.imm14)
  | 5 => some (.ali f.d f.imm19)
  | 6 => onlyIf hf (.hset f.d f.a (f.imm14.extractLsb' 0 3))
  | 7 => onlyIf hf (.hget f.d f.a (f.imm14.extractLsb' 0 3))
  | 8 => some (.hld f.d f.a f.imm14)
  | 9 => onlyIf (f.fn == 0) (.awin f.d f.a f.b)
  | 10 => onlyIf z2 (.ald f.d f.a f.b f.ty (f.fn.extractLsb' 4 1) sz)
  | 11 => onlyIf z2 (.aldS f.d f.a f.b f.ty (f.fn.extractLsb' 4 1) sz)
  | 12 => onlyIf z2 (.ast f.d f.a f.b f.ty (f.fn.extractLsb' 4 1) sz)
  | 13 => onlyIf z3 (.cpy f.d f.a f.b s se)
  | 14 => onlyIf z3 (.prmt f.d f.a f.b s se)
  | 15 => onlyIf (z2 && f.fn.extractLsb' 4 5 == 0) (.agth f.d f.a f.b sz)
  | 16 => onlyIf z2 (.asca f.d f.a f.b f.ty f.rm)
  | 17 => onlyIf z2 (.aatm f.d f.a f.b f.ty f.rm)
  | 18 => onlyIf (f.b == 0 && f.fn.extractLsb' 0 5 == 0x18) (.stu f.d f.a f.ty)
  | 19 => onlyIf (f.fn.extractLsb' 0 5 == 0x18) (.reqt f.d f.a f.b f.ty)
  | 20 => onlyIf (f.d == 0 && f.imm14.extractLsb' 4 10 == 0) (.surv f.a (f.imm14.extractLsb' 0 4))
  | 21 => onlyIf (f.d == 0 && f.fn == 0) (.apf f.a f.b)
  | 31 =>
    match f.imm14.toNat with
    | 0x0001 => onlyIf (f.a == 0) (.aliw f.d imm)
    | 0x0002 => some (.aaddw f.d f.a imm)
    | 0x0003 => some (.hsetw f.d f.a imm)
    | _ => decodeSemWide .a f imm
  | _ => decodeShared .a f

/-- The vector engine map, tag 0b010 (R105 to R107). -/
def decodeV (f : Fields) (imm : Word) : Option Instr :=
  let x0 := f.ax == 0
  let rm0 := f.rm == 0 && x0
  let n := f.imm14.extractLsb' 0 6
  let x := f.imm14.extractLsb' 13 1
  let u := f.imm14.extractLsb' 12 1
  match f.maj.toNat with
  | 1 => onlyIf x0 (.vadd f.d f.a f.b f.ty f.rm f.q)
  | 2 => onlyIf x0 (.vsub f.d f.a f.b f.ty f.rm f.q)
  | 3 => onlyIf x0 (.vmul f.d f.a f.b f.ty f.rm f.q)
  | 4 => onlyIf x0 (.vfma f.d f.a f.b f.ty f.rm f.q)
  | 5 => onlyIf rm0 (.vmin f.d f.a f.b f.ty f.q)
  | 6 => onlyIf rm0 (.vmax f.d f.a f.b f.ty f.q)
  | 7 => onlyIf rm0 (.vand f.d f.a f.b f.ty f.q)
  | 8 => onlyIf rm0 (.vor f.d f.a f.b f.ty f.q)
  | 9 => onlyIf rm0 (.vxor f.d f.a f.b f.ty f.q)
  | 10 => onlyIf rm0 (.vshl f.d f.a f.b f.ty f.q)
  | 11 => onlyIf rm0 (.vshr f.d f.a f.b f.ty f.q)
  | 12 => onlyIf x0 (.vrshr f.d f.a f.b f.ty f.rm f.q)
  | 13 => onlyIf (rm0 && f.ty == 1) (.vmac2 f.d f.a f.b f.q)
  | 14 =>
    if rm0 then
      match f.b.toNat with
      | 0 => some (.vexp2 f.d f.a f.ty f.q)
      | 1 => some (.vlog2 f.d f.a f.ty f.q)
      | 2 => some (.vrcp f.d f.a f.ty f.q)
      | 3 => some (.vrsq f.d f.a f.ty f.q)
      | 4 => some (.vtanh f.d f.a f.ty f.q)
      | 5 => some (.vsig f.d f.a f.ty f.q)
      | 6 => some (.vabs f.d f.a f.ty f.q)
      | 7 => some (.vneg f.d f.a f.ty f.q)
      | 8 => some (.vnot f.d f.a f.ty f.q)
      | _ => none
    else none
  | 15 => onlyIf (f.fn.extractLsb' 0 5 == 0) (.vpush f.d f.a f.b f.ty)
  | 16 =>
    if f.a == 0 && f.b == 0 && f.fn == 0 then
      match f.d.toNat with
      | 0 => some .velse
      | 1 => some .vpend
      | _ => none
    else none
  | 17 => onlyIf (f.fn.extractLsb' 0 5 == 0) (.vsel f.d f.a f.b f.ty)
  | 18 => onlyIf x0 (.vcvt f.d f.a f.b f.ty f.rm f.q)
  | 19 => onlyIf x0 (.vqnt f.d f.a f.b f.ty f.rm f.q)
  | 20 => onlyIf (x0 && f.ty == 8) (.vdq f.d f.a f.b f.rm f.q)
  | 21 => onlyIf (f.imm14.extractLsb' 6 6 == 0) (.vrot f.d f.a x u n)
  | 22 => onlyIf (f.imm14.extractLsb' 6 4 == 0) (.vslide f.d f.a x u (f.imm14.extractLsb' 10 2) n)
  | 23 => onlyIf (f.imm14.extractLsb' 6 7 == 0) (.vbcast f.d f.a x n)
  | 24 =>
    if f.rm == 0 then
      match f.b.toNat with
      | 0 => some (.vredSum f.d f.a f.ty f.ax f.q)
      | 1 => some (.vredMax f.d f.a f.ty f.ax f.q)
      | 2 => some (.vredMin f.d f.a f.ty f.ax f.q)
      | 3 => onlyIf (f.ty == 8) (.vredAmax f.d f.a f.ax f.q)
      | _ => none
    else none
  | 25 => onlyIf (rm0 && f.b == 0) (.vmov f.d f.a f.ty f.q)
  | 31 =>
    match f.imm14.toNat with
    | 0x0001 => onlyIf (f.a == 0) (.vli f.d imm)
    | 0x0002 => onlyIf (f.a == 0) (.viota f.d imm)
    | 0x0003 => some (.vcpr f.d f.a imm)
    | 0x0004 => onlyIf (f.a == 0 && imm == 0) (.vpcnt f.d)
    | _ => decodeSemWide .v f imm
  | _ => decodeShared .v f

/-- The matrix engine map, tag 0b011 (R108). -/
def decodeM (f : Fields) (imm : Word) : Option Instr :=
  match f.maj.toNat with
  | 1 => onlyIf (f.a == 0 && f.b == 0 && f.fn == 0) (.mzero f.d)
  | 2 => onlyIf (f.fn.extractLsb' 0 7 == 0) (.mma f.d f.a f.b (f.fn.extractLsb' 7 2))
  | 3 => onlyIf (f.fn == 0) (.msoft f.d f.a f.b)
  | 4 =>
    if f.a == 0 then some (.mscale f.d f.imm14)
    else onlyIf (f.a.extractLsb' 1 4 == 8 && f.imm14 == 0) (.mscaleC2m f.d (f.a.extractLsb' 0 1))
  | 5 => onlyIf (f.fn.extractLsb' 0 6 == 0) (.mout f.d f.a f.b (f.fn.extractLsb' 6 3))
  | 6 => onlyIf (f.d == 0) (.mdrn f.a (f.imm14.extractLsb' 7 7) (f.imm14.extractLsb' 0 7))
  | 7 => onlyIf (f.d == 0 && f.imm14.extractLsb' 0 13 == 0) (.mside f.a (f.imm14.extractLsb' 13 1))
  | 8 => onlyIf (f.a == 0 && f.b == 0 && f.fn == 0) (.msrst f.d)
  | 9 => onlyIf (f.b == 0 && f.fn == 0) (.mcpy f.d f.a)
  | 10 => onlyIf (f.b == 0 && f.fn == 0) (.madd f.d f.a)
  | 31 => decodeSemWide .m f imm
  | _ => decodeShared .m f

/-- The exchange engine map, tag 0b100 (R109, R110). -/
def decodeX (f : Fields) (imm : Word) : Option Instr :=
  match f.maj.toNat with
  | 1 => onlyIf (f.d == 0) (.xcmd f.a f.imm14)
  | 2 => onlyIf (f.d == 0 && f.fn == 0) (.xbind f.a f.b)
  | 3 => onlyIf (f.d == 0) (.xput f.a f.imm14)
  | 4 => onlyIf (f.d == 0) (.xget f.a f.imm14)
  | 5 => onlyIf (f.b == 0 && f.fn == 0) (.xstat f.d f.a)
  | 6 => onlyIf (f.d == 0 && f.b == 0 && f.fn == 0) (.xabort f.a)
  | 7 => onlyIf (f.b == 0 && f.fn == 0) (.xmov f.d f.a)
  | 8 => some (.xli f.d f.imm19)
  | 9 => onlyIf (f.fn == 0) (.xadd f.d f.a f.b)
  | 10 => some (.xaddi f.d f.a f.imm14)
  | 31 =>
    match f.imm14.toNat with
    | 0x0001 => onlyIf (f.a == 0) (.xliw f.d imm)
    | _ => decodeSemWide .x f imm
  | _ => decodeShared .x f

/-- The instruction a word means under its own tag and major (R75), `imm` being the word after it. -/
def decodeFields (f : Fields) (imm : Word) : Option Instr :=
  match f.tag.toNat with
  | 0 => decodeC f imm
  | 1 => decodeA f imm
  | 2 => decodeV f imm
  | 3 => decodeM f imm
  | 4 => decodeX f imm
  | 5 => decodeS f
  | _ => none

/-- The instruction of a word and, for a wide form, its immediate word. -/
def decode (w imm : Word) : Option Instr := decodeFields (Fields.ofWord w) imm

/-- A word of major 31 is a wide form, of two text words, whatever its tag (R31). -/
def isWide (w : Word) : Bool := w.extractLsb' 24 5 == 31

/-- A word of major 31 whose sub14 its tag's map lists (R92 to R110): some immediate word may complete it. -/
def wideDefined (w : Word) : Bool :=
  let f := Fields.ofWord w
  let sub := f.imm14.toNat
  let sem := f.imm14.extractLsb' 13 1 == 1 && f.imm14.extractLsb' 0 10 == 0
  match f.tag.toNat with
  | 0 => sem || (decide (1 ≤ sub) && decide (sub ≤ 0x000A)) || (decide (0x0010 ≤ sub) && decide (sub ≤ 0x0017))
  | 1 => sem || (decide (1 ≤ sub) && decide (sub ≤ 0x0003))
  | 2 => sem || (decide (1 ≤ sub) && decide (sub ≤ 0x0004))
  | 3 => sem
  | 4 => sem || sub == 1
  | _ => false

/-- Text words of the instruction a word begins (R31, R92). -/
def wordLen (w : Word) : Nat := if isWide w then 2 else 1

/-- A text word from its four bytes, little-endian (R6, R73). -/
def wordOfBytes (b0 b1 b2 b3 : Byte) : Word := b3 ++ b2 ++ b1 ++ b0

/-- The bytes of a text word, lowest address first. -/
def bytesOfWord (w : Word) : List Byte :=
  [w.extractLsb' 0 8, w.extractLsb' 8 8, w.extractLsb' 16 8, w.extractLsb' 24 8]

/-- The instruction at the head of some bytes and the bytes after it; a rejection has a name. -/
def decodeBytes : List Byte → Except DecodeError (Instr × List Byte)
  | b0 :: b1 :: b2 :: b3 :: rest =>
    let w := wordOfBytes b0 b1 b2 b3
    if (Fields.ofWord w).tag.toNat ≥ 6 then .error .reservedTag
    else if isWide w then
      match rest with
      | c0 :: c1 :: c2 :: c3 :: rest' =>
        match decode w (wordOfBytes c0 c1 c2 c3) with
        | some i => .ok (i, rest')
        | none => .error .undefinedWord
      | _ => .error .truncated
    else
      match decode w 0 with
      | some i => .ok (i, rest)
      | none => .error .undefinedWord
  | _ => .error .truncated

/-- The instruction of a word numbered as the opcode table numbers it: bits 31..0 the first text word, bits 63..32
the second. Bits the table does not give are zero. -/
def decodeTableWord (nbits w : Nat) : Option Instr :=
  let v := w % 2 ^ nbits
  let w0 := BitVec.ofNat 32 v
  let w1 := BitVec.ofNat 32 (v / 2 ^ 32)
  match decodeBytes (bytesOfWord w0 ++ bytesOfWord w1) with
  | .ok (i, _) => some i
  | .error _ => none

/-! The encoder, from the same maps. -/

/-- A word in the RRR format (R79). -/
def rrr (tag : BitVec 3) (maj : BitVec 5) (d a b : Code) (fn : BitVec 9) : Word × Option Word :=
  (Fields.toWord ⟨tag, maj, d, a, b, fn⟩, none)
/-- A word in the RRI format (R80). -/
def rri (tag : BitVec 3) (maj : BitVec 5) (d a : Code) (i : BitVec 14) : Word × Option Word :=
  (Fields.toWord ⟨tag, maj, d, a, i.extractLsb' 9 5, i.extractLsb' 0 9⟩, none)
/-- A word in the RI19 format (R81). -/
def ri19 (tag : BitVec 3) (maj : BitVec 5) (d : Code) (i : BitVec 19) : Word × Option Word :=
  (Fields.toWord ⟨tag, maj, d, i.extractLsb' 14 5, i.extractLsb' 9 5, i.extractLsb' 0 9⟩, none)
/-- A word whose bits [23:0] are one field: the BR format (R82) and the shared majors. -/
def br24 (tag : BitVec 3) (maj : BitVec 5) (o : BitVec 24) : Word × Option Word :=
  (Fields.toWord ⟨tag, maj, o.extractLsb' 19 5, o.extractLsb' 14 5, o.extractLsb' 9 5, o.extractLsb' 0 9⟩, none)
/-- A wide form (R83). -/
def wideWord (tag : BitVec 3) (d a : Code) (sub : BitVec 14) (imm : Word) : Word × Option Word :=
  (Fields.toWord ⟨tag, 31, d, a, sub.extractLsb' 9 5, sub.extractLsb' 0 9⟩, some imm)
/-- fn9 in the TV layout (R85). -/
def tv (ty : BitVec 4) (rm : BitVec 3) (x q : BitVec 1) : BitVec 9 := ty ++ rm ++ x ++ q
/-- A semaphore word (R95). -/
def semWord (e : Eng) (maj : BitVec 5) (die : BitVec 1) (n : BitVec 10) (v : BitVec 13) : Word × Option Word :=
  br24 e.tag maj (die ++ n ++ v)
/-- The wide twin of a semaphore word (R96). -/
def semWideWord (e : Eng) (op : BitVec 2) (die : BitVec 1) (n : BitVec 10) (v : Word) : Word × Option Word :=
  wideWord e.tag (n.extractLsb' 5 5) (n.extractLsb' 0 5) ((1 : BitVec 1) ++ op ++ die ++ (0 : BitVec 10)) v

/-- The words of an instruction; none for the machine steps that no text word encodes. -/
def encode : Instr → Option (Word × Option Word)
  | .add d a b t => some (rrr 0 1 d a b (t ++ (0 : BitVec 5)))
  | .sub d a b t => some (rrr 0 2 d a b (t ++ (0 : BitVec 5)))
  | .mul d a b t => some (rrr 0 3 d a b (t ++ (0 : BitVec 5)))
  | .mulh d a b t => some (rrr 0 4 d a b (t ++ (0 : BitVec 5)))
  | .div d a b t => some (rrr 0 5 d a b (t ++ (0 : BitVec 5)))
  | .rem d a b t => some (rrr 0 6 d a b (t ++ (0 : BitVec 5)))
  | .and d a b t => some (rrr 0 7 d a b (t ++ (0 : BitVec 5)))
  | .or d a b t => some (rrr 0 8 d a b (t ++ (0 : BitVec 5)))
  | .xor d a b t => some (rrr 0 9 d a b (t ++ (0 : BitVec 5)))
  | .shl d a b t => some (rrr 0 10 d a b (t ++ (0 : BitVec 5)))
  | .shr d a b t => some (rrr 0 11 d a b (t ++ (0 : BitVec 5)))
  | .min d a b t => some (rrr 0 12 d a b (t ++ (0 : BitVec 5)))
  | .max d a b t => some (rrr 0 13 d a b (t ++ (0 : BitVec 5)))
  | .cmp d a b t c => some (rrr 0 14 d a b (t ++ c ++ (0 : BitVec 1)))
  | .sel d a b => some (rrr 0 15 d a b 0)
  | .addi d a i => some (rri 0 16 d a i)
  | .andi d a i => some (rri 0 17 d a i)
  | .shli d a n => some (rri 0 18 d a ((0 : BitVec 2) ++ (0 : BitVec 6) ++ n))
  | .shri d a n => some (rri 0 18 d a ((1 : BitVec 2) ++ (0 : BitVec 6) ++ n))
  | .sari d a n => some (rri 0 18 d a ((2 : BitVec 2) ++ (0 : BitVec 6) ++ n))
  | .li d i => some (ri19 0 19 d i)
  | .argl d a i => some (rri 0 20 d a i)
  | .qput q a => some (rrr 0 21 q a 0 0)
  | .qget d q k => some (rrr 0 22 d q 0 ((3 : BitVec 4) ++ (0 : BitVec 4) ++ k))
  | .bset a => some (rrr 0 23 0 a 0 0)
  | .gsel a i => some (rri 0 24 0 a ((0 : BitVec 6) ++ i))
  | .check a => some (rrr 0 25 0 a 0 0)
  | .ori d a i => some (wideWord 0 d a 1 i)
  | .xori d a i => some (wideWord 0 d a 2 i)
  | .liw d i => some (wideWord 0 d 0 3 i)
  | .lih d i => some (wideWord 0 d 0 4 i)
  | .args d a i => some (wideWord 0 d a 5 i)
  | .srd d i => some (wideWord 0 d 0 6 i)
  | .swr a i => some (wideWord 0 0 a 7 i)
  | .tick d => some (wideWord 0 d 0 8 0)
  | .mslot d a i => some (wideWord 0 d a 9 i)
  | .ctrr d i => some (wideWord 0 d 0 10 i)
  | .tbind t a => some (wideWord 0 t a 16 0)
  | .tunb t => some (wideWord 0 t 0 17 0)
  | .tread d t i => some (wideWord 0 d t 18 i)
  | .tver d t => some (wideWord 0 d t 19 0)
  | .tstat d t i => some (wideWord 0 d t 20 i)
  | .tsync t => some (wideWord 0 t 0 21 0)
  | .tstmp d a i => some (wideWord 0 d a 22 i)
  | .tring d t i => some (wideWord 0 d t 23 i)
  | .semi e s n v => some (semWord e 26 s n v)
  | .semiWide e s n v => some (semWideWord e 0 s n v)
  | .semd e s n v => some (semWord e 27 s n v)
  | .semdWide e s n v => some (semWideWord e 1 s n v)
  | .sems e s n v => some (semWord e 28 s n v)
  | .semsWide e s n v => some (semWideWord e 2 s n v)
  | .semw e s n v => some (semWord e 29 s n v)
  | .semwWide e s n v => some (semWideWord e 3 s n v)
  | .semwSucceed _ _ => none
  | .rep e n k => some (br24 e.tag 30 ((0 : BitVec 2) ++ n ++ k))
  | .br o => some (br24 5 1 o)
  | .brq o => some (br24 5 2 o)
  | .call o => some (br24 5 3 o)
  | .ret => some (br24 5 4 0)
  | .loop k m => some (br24 5 5 (k ++ m))
  | .loopq m => some (br24 5 6 m)
  | .endl => some (br24 5 7 0)
  | .safe i => some (br24 5 8 ((0 : BitVec 8) ++ i))
  | .safeG i => some (br24 5 9 ((0 : BitVec 8) ++ i))
  | .resume => some (br24 5 10 0)
  | .fence k s => some (br24 5 11 ((0 : BitVec 20) ++ k ++ s))
  | .nop => some (br24 5 12 0)
  | .endW => some (br24 5 13 0)
  | .aadd d a b => some (rrr 1 1 d a b 0)
  | .asub d a b => some (rrr 1 2 d a b 0)
  | .aaddi d a i => some (rri 1 3 d a i)
  | .amuli d a i => some (rri 1 4 d a i)
  | .ali d i => some (ri19 1 5 d i)
  | .aliw d i => some (wideWord 1 d 0 1 i)
  | .aaddw d a i => some (wideWord 1 d a 2 i)
  | .hsetw d f i => some (wideWord 1 d f 3 i)
  | .hset d a f => some (rri 1 6 d a ((0 : BitVec 11) ++ f))
  | .hget d a f => some (rri 1 7 d a ((0 : BitVec 11) ++ f))
  | .hld d a i => some (rri 1 8 d a i)
  | .awin d a b => some (rrr 1 9 d a b 0)
  | .ald d a b t r s => some (rrr 1 10 d a b (t ++ r ++ s ++ (0 : BitVec 2)))
  | .aldS d a b t r s => some (rrr 1 11 d a b (t ++ r ++ s ++ (0 : BitVec 2)))
  | .ast d a b t r s => some (rrr 1 12 d a b (t ++ r ++ s ++ (0 : BitVec 2)))
  | .cpy d a b s e => some (rrr 1 13 d a b (s ++ e ++ (0 : BitVec 3)))
  | .prmt d a b s e => some (rrr 1 14 d a b (s ++ e ++ (0 : BitVec 3)))
  | .agth d a b s => some (rrr 1 15 d a b ((0 : BitVec 5) ++ s ++ (0 : BitVec 2)))
  | .asca d a b t o => some (rrr 1 16 d a b (t ++ o ++ (0 : BitVec 2)))
  | .aatm d a b t o => some (rrr 1 17 d a b (t ++ o ++ (0 : BitVec 2)))
  | .stu d a t => some (rrr 1 18 d a 0 (t ++ (0x18 : BitVec 5)))
  | .reqt d a b t => some (rrr 1 19 d a b (t ++ (0x18 : BitVec 5)))
  | .surv a e => some (rri 1 20 0 a ((0 : BitVec 10) ++ e))
  | .apf a b => some (rrr 1 21 0 a b 0)
  | .vadd d a b t r q => some (rrr 2 1 d a b (tv t r 0 q))
  | .vsub d a b t r q => some (rrr 2 2 d a b (tv t r 0 q))
  | .vmul d a b t r q => some (rrr 2 3 d a b (tv t r 0 q))
  | .vfma d a b t r q => some (rrr 2 4 d a b (tv t r 0 q))
  | .vmin d a b t q => some (rrr 2 5 d a b (tv t 0 0 q))
  | .vmax d a b t q => some (rrr 2 6 d a b (tv t 0 0 q))
  | .vand d a b t q => some (rrr 2 7 d a b (tv t 0 0 q))
  | .vor d a b t q => some (rrr 2 8 d a b (tv t 0 0 q))
  | .vxor d a b t q => some (rrr 2 9 d a b (tv t 0 0 q))
  | .vshl d a b t q => some (rrr 2 10 d a b (tv t 0 0 q))
  | .vshr d a b t q => some (rrr 2 11 d a b (tv t 0 0 q))
  | .vrshr d a b t r q => some (rrr 2 12 d a b (tv t r 0 q))
  | .vmac2 d a b q => some (rrr 2 13 d a b (tv 1 0 0 q))
  | .vexp2 d a t q => some (rrr 2 14 d a 0 (tv t 0 0 q))
  | .vlog2 d a t q => some (rrr 2 14 d a 1 (tv t 0 0 q))
  | .vrcp d a t q => some (rrr 2 14 d a 2 (tv t 0 0 q))
  | .vrsq d a t q => some (rrr 2 14 d a 3 (tv t 0 0 q))
  | .vtanh d a t q => some (rrr 2 14 d a 4 (tv t 0 0 q))
  | .vsig d a t q => some (rrr 2 14 d a 5 (tv t 0 0 q))
  | .vabs d a t q => some (rrr 2 14 d a 6 (tv t 0 0 q))
  | .vneg d a t q => some (rrr 2 14 d a 7 (tv t 0 0 q))
  | .vnot d a t q => some (rrr 2 14 d a 8 (tv t 0 0 q))
  | .vpush c a b t => some (rrr 2 15 c a b (t ++ (0 : BitVec 5)))
  | .velse => some (rrr 2 16 0 0 0 0)
  | .vpend => some (rrr 2 16 1 0 0 0)
  | .vsel d a b t => some (rrr 2 17 d a b (t ++ (0 : BitVec 5)))
  | .vcvt d a b t r q => some (rrr 2 18 d a b (tv t r 0 q))
  | .vqnt d a b t r q => some (rrr 2 19 d a b (tv t r 0 q))
  | .vdq d a b r q => some (rrr 2 20 d a b (tv 8 r 0 q))
  | .vrot d a x u n => some (rri 2 21 d a (x ++ u ++ (0 : BitVec 6) ++ n))
  | .vslide d a x u f n => some (rri 2 22 d a (x ++ u ++ f ++ (0 : BitVec 4) ++ n))
  | .vbcast d a x n => some (rri 2 23 d a (x ++ (0 : BitVec 7) ++ n))
  | .vredSum d a t x q => some (rrr 2 24 d a 0 (tv t 0 x q))
  | .vredMax d a t x q => some (rrr 2 24 d a 1 (tv t 0 x q))
  | .vredMin d a t x q => some (rrr 2 24 d a 2 (tv t 0 x q))
  | .vredAmax d a x q => some (rrr 2 24 d a 3 (tv 8 0 x q))
  | .vmov d a t q => some (rrr 2 25 d a 0 (tv t 0 0 q))
  | .vli d i => some (wideWord 2 d 0 1 i)
  | .viota d i => some (wideWord 2 d 0 2 i)
  | .vcpr d a i => some (wideWord 2 d a 3 i)
  | .vpcnt d => some (wideWord 2 d 0 4 0)
  | .mzero d => some (rrr 3 1 d 0 0 0)
  | .mma d a b m => some (rrr 3 2 d a b (m ++ (0 : BitVec 7)))
  | .msoft d a b => some (rrr 3 3 d a b 0)
  | .mscale d i => some (rri 3 4 d 0 i)
  | .mscaleC2m d p => some (rrr 3 4 d ((8 : BitVec 4) ++ p) 0 0)
  | .mout d a b r => some (rrr 3 5 d a b (r ++ (0 : BitVec 6)))
  | .mdrn a f c => some (rri 3 6 0 a (f ++ c))
  | .mside a s => some (rri 3 7 0 a (s ++ (0 : BitVec 13)))
  | .msrst d => some (rrr 3 8 d 0 0 0)
  | .mcpy d a => some (rrr 3 9 d a 0 0)
  | .madd d a => some (rrr 3 10 d a 0 0)
  | .xcmd a i => some (rri 4 1 0 a i)
  | .xbind a b => some (rrr 4 2 0 a b 0)
  | .xput a i => some (rri 4 3 0 a i)
  | .xget a i => some (rri 4 4 0 a i)
  | .xstat d a => some (rrr 4 5 d a 0 0)
  | .xabort a => some (rrr 4 6 0 a 0 0)
  | .xmov d a => some (rrr 4 7 d a 0 0)
  | .xli d i => some (ri19 4 8 d i)
  | .xadd d a b => some (rrr 4 9 d a b 0)
  | .xaddi d a i => some (rri 4 10 d a i)
  | .xliw d i => some (wideWord 4 d 0 1 i)
  | .queueWaitRelease _ _ => none
  | .windowWaitRelease _ _ => none
  | .slipWindowRelease _ _ => none
  | .textFetch _ _ => none
  | .strandPlacement _ _ _ => none
  | .gangPlacement _ => none
  | .priorityAgeing _ => none
  | .strandEnd _ => none
  | .launchCompletion _ => none
  | .strandDeadlock _ => none
  | .safeDistance _ => none
  | .stopRequest _ => none
  | .stopWithdraw _ => none
  | .stopPointReached _ => none
  | .gangCut _ => none
  | .contextSave _ => none
  | .contextSaveComplete _ => none
  | .strandResume _ _ _ => none
  | .doorbell _ _ => none
  | .launchPacket _ => none
  | .graphPacket _ => none
  | .beginPacket _ => none
  | .commitPacket _ => none
  | .waitPacket _ => none
  | .waitSatisfied _ => none
  | .signalPacket _ => none
  | .barRelease _ => none
  | .copyPacket _ => none
  | .fillPacket _ => none
  | .copyFillComplete _ => none
  | .indirectPacket _ => none
  | .cancelPacket _ => none
  | .phasePacket _ => none
  | .nopPacket _ => none
  | .phaseClose _ => none
  | .phaseAdvance _ => none
  | .compactionBatch _ _ => none
  | .commandStart _ => none
  | .commandWaitSatisfied _ => none
  | .contribution _ => none
  | .commandFinish _ _ => none
  | .commandTimeout _ => none
  | .peerAbort _ _ _ => none
  | .mismatchNotice _ _ _ => none
  | .switchDiscard _ => none
  | .bindRound _ => none
  | .bindTimeout _ => none
  | .remoteTransfer _ _ _ _ => none
  | .copyEngineComplete _ _ => none
  | .permuteComplete _ _ => none
  | .homeWriteApply _ _ => none
  | .pageWalk _ _ _ => none
  | .slotBodyStart _ _ => none
  | .slotEnd _ => none
  | .extensionEnd _ _ => none
  | .linkFailure _ _ => none
  | .resetHold _ => none
  | .tripClear _ => none
  | .powerCap _ => none
  | .registerWriteRefused _ _ => none
  | .fepelLinkTrained _ => none
  | .imageDelivered _ _ => none
  | .memoriesReady _ => none
  | .pscAlignment _ _ => none
  | .thermalTrip _ => none
  | .createJob _ _ _ _ _ => none
  | .undefinedEncoding _ _ => none
  | .supervisorMailbox _ => none
  | .linkTrained _ _ => none
  | .powerLoss _ => none
  | .flitRetried _ _ => none
  | .drainLeadStart => none
  | .errorWindowReset => none
  | .leaseRenew => none
  | .leaderStop => none
  | .leaseLapse => none
  | .bootReady => none
  | .teardownJob => none
  | .jobTeardownComplete => none
  | .registerQueue => none
  | .teardownQueue => none
  | .recordCreate => none
  | .recordDelete => none
  | .policySet => none
  | .invalidate => none
  | .loadKey => none
  | .debugHalt => none
  | .debugResume => none
  | .debugRead => none
  | .debugWrite => none
  | .attest => none
  | .reserveDet => none
  | .readEvents => none
  | .readWindows => none
  | .calendarRequest => none
  | .fencedRequest => none
  | .cardReset => none

/-- Bytes of an instruction as its text holds them. -/
def encodeBytes (i : Instr) : List Byte :=
  match encode i with
  | some (w, some imm) => bytesOfWord w ++ bytesOfWord imm
  | some (w, none) => bytesOfWord w
  | none => []

/-- Text words of an instruction; 1 for a step that no word encodes. -/
def Instr.len (i : Instr) : Nat :=
  match encode i with
  | some (_, some _) => 2
  | _ => 1

end Sys2Proof
end

