-- ==== Sys2Proof/Config.lean ====
section
/-! DEFINITION. What an implementation fixes (constants the spec gives) and the free values the spec leaves open. -/

namespace Sys2Proof.Config

/-- Text bytes of the local range (R236). -/
def spadBytes : Nat := 0x200000
/-- HBM of the package, 768 GiB (R240). -/
def hbmBytes : Nat := 0xC000000000
/-- HBM of one die, 192 GiB (R241). -/
def dieBytes : Nat := 0x3000000000
/-- First byte of the host window (R240). -/
def hostBase : Nat := 0x800000000000
/-- End of the physical address space (R240). -/
def physEnd : Nat := 0x1000000000000
/-- Minor slot period, major slot period, their lengths, the drain lead (R417). -/
def minorPeriod : Nat := 16384
def majorPeriod : Nat := 1048576
def minorLen : Nat := 1280
def majorLen : Nat := 12288
def drainLead : Nat := 256
/-- Window count period (R444). -/
def windowPeriod : Nat := 1073741824
/-- Bytes of a save-area slot (R407). -/
def saveSlotBytes : Nat := 344064
/-- The null and the phase counter (R436). -/
def nullCounter : Nat := 0
def phaseCounter : Nat := 0xFFFF
/-- Leader lease, renewal period and the margin before its end, in ticks (R371). -/
def leaseTicks : Nat := 940000
def renewTicks : Nat := 470000
def stopMargin : Nat := 94000

/-- Free value (log 6): a fresh 64-bit value for the n-th open value of a run. Nothing constrains it. -/
opaque freeValue : Nat → BitVec 64

/-- Slices of a die's shared SRAM, their sets and ways (R17, R19, R244). -/
def sramSlices : Nat := 128
def sramSets : Nat := 512
def sramWays : Nat := 16
/-- The set of a line within its slice, by line number PA[47:7] (R244, log 28): a fixed function that the manual does not give. -/
opaque setOf : Nat → Fin 512
/-- The hash of the image's public key in one-time-programmable storage (R466), and the secrets of the package's attestation key: its
public seed, the key of its randomisers, the start of every chain of every leaf (R467). The maker sets them (log 11). -/
opaque keyHash : BitVec 256
opaque attestSeed : Nat → BitVec 8
opaque attestPrf : Nat → BitVec 8
opaque attestSecret : Nat → Nat → Nat → BitVec 8

end Sys2Proof.Config
end

