-- ==== Sys2Proof/Machine/Parts.lean ====
section
/-! DEFINITION. The pieces State is made of: plain data only. -/

namespace Sys2Proof.Machine

/-- The sixteen faults of R449. -/
inductive FaultCode where
  | illegal | stackLimit | predicateDepth | bankConflict | strandDeadlock | translation | protection | align
  | safeDistance | safeState | slotIntrusion | poisonSync | detIllegal | staleScale | mixedGranule | xMembership
deriving DecidableEq, Repr

/-- The precision classes of R450. -/
inductive Precision where
  /-- P -/
  | atWord
  /-- W -/
  | partway
  /-- A -/
  | async
  /-- T -/
  | tick
deriving DecidableEq, Repr

/-- Completion statuses (R453). -/
inductive Status where
  | ok | tensor | poisoned | cancelled | fault
deriving DecidableEq, Repr

/-- Pre-emption classes (R62). -/
inductive Class where
  | live | near | bulk
deriving DecidableEq, Repr

/-- A 64-bit value with its poison bit (R148, R261, R322, R317). -/
structure PWord where
  val : DWord := 0
  poison : Bool := false
deriving DecidableEq, Repr, Inhabited

/-- A row tag (R183). -/
structure RowTag where
  tv : Bool := false
  slot : BitVec 4 := 0
  ver : BitVec 16 := 0
deriving DecidableEq, Repr, Inhabited

/-- A row of a tile register with its side state (R181, R183), and a 256-byte queue entry (R317). -/
structure Row where
  lanes : Vector Word 64
  poison : Bool := false
  tag : RowTag := {}
deriving DecidableEq, Repr

/-- A tile register: 16 rows (R181). -/
abbrev Tile := Vector Row 16

/-- A row of an accumulator with its side registers (R217, R218). -/
structure AccRow where
  vals : Vector Word 128
  poison : Bool := false
  smax : Word := 0xFF800000
  ssum : Word := 0
deriving DecidableEq, Repr

/-- An accumulator: 128 rows. -/
abbrev Acc := Vector AccRow 128

/-- A window register (R219). -/
structure Window where
  ver : BitVec 16 := 0
  slot : BitVec 4 := 0
  kind : BitVec 2 := 0
  tr : BitVec 1 := 0
  cols1 : BitVec 12 := 0
  rows1 : BitVec 7 := 0
  pitch : BitVec 15 := 0
  base : BitVec 15 := 0
deriving DecidableEq, Repr, Inhabited

/-- A shape register (R266). -/
structure Shape where
  ext : Vector Word 4
  stride : Vector (BitVec 48) 4
deriving DecidableEq, Repr

/-- A return-stack frame (R40). -/
structure Frame where
  /-- true for a loop frame, false for a call frame -/
  loop : Bool
  count : DWord
  index : Word
deriving DecidableEq, Repr, Inhabited

/-- What an engine waits on (R42, R321). -/
inductive Wait where
  /-- push to a full data queue (0x1) -/
  | push
  /-- pop or peek of an empty data queue (0x2) -/
  | pop
  /-- BSET with a full branch-outcome queue (0x3) -/
  | outcomeFull
  /-- BRQ or LOOPQ with an empty branch-outcome queue (0x4) -/
  | outcomeEmpty
  /-- slip-window stall (0x5) -/
  | slip
  /-- SEMW on a strand semaphore with its threshold (0x6) -/
  | sem (n : BitVec 5) (thr : Word)
  /-- window-word wait of R223 (0x7) -/
  | window
  /-- exchange engine waiting for a free command slot (0x9) -/
  | commandSlot
  /-- at RESUME, or at an SWR of a positional register (0xA) -/
  | resume
  | positional
  /-- external: SEMW on a die semaphore with its threshold -/
  | dieSem (n : BitVec 10) (thr : Word)
  /-- external: a free CPY or PRMT slot -/
  | copySlot
  /-- external: a release or an acknowledgement of earlier writes (R176, R396) -/
  | writes
  /-- external: a text fetch, walk or request to an address, held by a slot or an extension (R78, R247, R293, R423) -/
  | held (addr : Nat)
  /-- external: the compactor's store is full (R364) -/
  | compactor
deriving DecidableEq, Repr

/-- Engine-local repetition in progress (R41). -/
structure Rep where
  /-- text index of the first word of the body span -/
  first : Nat
  /-- own words of the span -/
  n : Nat
  /-- passes still to run, this one included -/
  left : Nat
  /-- text words of the span, and own words among them, passed in this pass -/
  off : Nat := 0
  own : Nat := 0
deriving DecidableEq, Repr

/-- A vector clock of four epochs (R309). -/
abbrev VClock := Vector Word 4

/-- What an agent is bound to see (R303, R310): the writes applied before the count `base` of applied writes, and the writes
numbered in `ids` (log 7). -/
structure View where
  base : Nat := 0
  ids : List Nat := []
deriving DecidableEq, Repr, Inhabited

/-- Releases that a write or an engine carries, by whom they are for (R298, R304, R305): agents of the strand, of the die, of the
package. -/
structure Carried where
  strand : View := {}
  die : View := {}
  package : View := {}
deriving DecidableEq, Repr, Inhabited

/-- The signals of an engine: its releases, which its later writes carry (R304); those of its fences, which its later pushes carry
(R305); and the releases that its reads have met, which its next acquiring fence takes (R304) with their dies' clocks (R309). -/
structure Signals where
  rels : Carried := {}
  pushes : View := {}
  met : Carried := {}
  metClock : VClock := Vector.replicate 4 0
deriving DecidableEq, Repr, Inhabited

/-- What a launch, a phase close or a counter releases or acquires at its scope (R298, R307): for every die, and for the agents of each
die alone. -/
structure Released where
  wide : View := {}
  dies : Vector View 4 := Vector.replicate 4 {}
deriving DecidableEq, Repr, Inhabited

/-- An agent of the package that reads and writes memory (R297, R300): where it stands, the strand it works for (no launch has
handle 0), and which part of it: engines 0 to 4 in the order C, A, V, M, X; copy commands 8, 10, 12 and on; exchange commands
9, 11, 13 and on. -/
structure Agent where
  die : Fin 4
  core : Core
  handle : Nat
  strand : BitVec 24
  part : Nat
deriving DecidableEq, Repr, Inhabited

/-- An entry of a data queue: its value, and the writes and releases that its pop acquires (R305). -/
structure Queued (α : Type) where
  val : α
  carry : View := {}
deriving DecidableEq, Repr

/-- What a word that moves its data entry by entry keeps while it waits (R271, R275, R296): the address it has popped, the
tag its check has found, the record's storage and block scales for MXFP4, bytes read or popped and not yet stored, code bytes and
bytes of a window's stored row, granules that the word's checks have opened, elements still to be done with their values, what the requests made so far for the element under way have given (R421), whether
the values are poisoned, a record's index, entry and words as taken once (R231, R287), and operand words. -/
structure Latch where
  addr : PWord := {}
  tag : RowTag := {}
  mx : Option (Nat × Nat) := none
  buf : List (Byte × Bool) := []
  row : Nat × Nat := (0, 0)
  opened : List Nat := []
  todo : List (Nat × Nat) := []
  did : List (Nat × Bool) := []
  bad : Bool := false
  /-- writes read for the first of the two entries that the word will push (R305) -/
  first : List Nat := []
  record : Nat × Nat × List Nat := (0, 0, [])
  vals : List Word := []
  /-- entries of C2A, C2M and V2A that the word has popped, and whether any effect of it stands already (R415) -/
  popped : List (Queued PWord) × List (Queued PWord) × List (Queued Row) := ([], [], [])
  moved : Bool := false
deriving DecidableEq, Repr

/-- The state of one engine of a strand. -/
structure Engine where
  /-- text word index of the next word (R73) -/
  pc : Nat := 0
  /-- text-step count (R33) -/
  steps : DWord := 0
  ended : Bool := false
  wait : Option Wait := none
  /-- on-chip return-stack frames, innermost first, at most 16, and the depth (R40) -/
  frames : List Frame := []
  depth : Word := 0
  /-- branch-outcome queue (R38) -/
  outcomes : List Word := []
  /-- positional copies (R156) -/
  sbase : BitVec 22 := 0x200000
  slim : BitVec 22 := 0x200000
  slotmode : BitVec 1 := 0
  rep : Option Rep := none
  /-- SAFE and SAFE.G words passed, SAFE.G words passed (R63, R405) -/
  safes : Nat := 0
  gsafes : Nat := 0
  /-- entries already pushed or popped by the word in progress (R233, R271, R275) -/
  progress : Nat := 0
  latch : Option Latch := none
  /-- holding at the stop point (R402), or at RESUME (R179) -/
  holding : Bool := false
  /-- writes the engine is bound to see (R303) -/
  view : View := {}
  sig : Signals := {}
  /-- the tick in which the SEMW that the engine waits at has met its threshold, and what the releases before it cover (R434) -/
  woken : Option (DWord × View) := none
  /-- writes read for the entry that the engine is filling (R305) -/
  sources : List Nat := []
deriving DecidableEq, Repr

/-- A delta of the record cache, a launch accumulator, or phase counts (R381, R382). -/
structure Delta where
  n : Nat := 0
  ovf : Nat := 0
  udf : Nat := 0
  nan : Nat := 0
  zero : Nat := 0
  /-- non-zero bins, (bin, count), bins rising -/
  bins : List (Nat × Nat) := []
  max : Option Int := none
deriving DecidableEq, Repr

/-- A command in the exchange sequencer (R325): the 64 bytes of a collective or a transfer, or a rebinding. -/
structure XCmd where
  ticket : Word
  /-- 0 collective, 1 XPUT, 2 XGET, 3 XBIND -/
  kind : BitVec 2
  /-- the command or descriptor as copied at issue (R330, R341) -/
  body : BitVec 512 := 0
  src : Shape
  dst : Shape
  /-- bindings of ins and outs read at issue -/
  ins : Option (BitVec 24) := none
  outs : Option (BitVec 24) := none
  handle : BitVec 16 := 0
  /-- XBIND: the mask copied at issue; otherwise the binding when the command started -/
  mask : BitVec 4096 := 0
  active : Bool := false
  /-- the wait semaphore has met its threshold (R332) and the command goes on; it has met it, when, and what it acquires (R60) -/
  waited : Bool := false
  met : Option (DWord × View) := none
  /-- ticks counted toward the timeout, the timeout, and the last tick whose contributions come in time, once it has expired (R338,
  R340) -/
  ticks : Nat := 0
  tmo : Nat := 0
  cut : Option DWord := none
  /-- a slot or an extension has held a request of it (R293, R446) -/
  held : Bool := false
  gen : Word := 0
  round : Nat := 0
  /-- its own contribution has been handed to the fabric -/
  sent : Bool := false
  /-- its output version is agreed (R333) -/
  agreed : Bool := false
  /-- fabric tag and own declared rank of its paceline entry -/
  ftag : Word := 0
  own : Nat := 0
  /-- what its issue released to it (R306) -/
  view : View := {}
deriving DecidableEq, Repr

/-- An outstanding CPY or PRMT (R278). -/
structure Async where
  permute : Bool
  src : Nat
  dst : Nat
  srcShape : Shape
  dstShape : Shape
  /-- the strand semaphore incremented at completion -/
  sem : Option (BitVec 5)
  seq : Nat
  /-- the die's clock at the issue, which the command's writes carry (R309) -/
  clock : VClock
  /-- a drain lead or slot has held a request of the command (R293, R446) -/
  held : Bool := false
  /-- what its issue released to it, and what it has read since (R306) -/
  view : View := {}
  /-- destination units already copied; a command with one has begun (R17, R278) -/
  done : List Nat := []
deriving DecidableEq, Repr

/-- A stop request (R402). -/
structure Stop where
  c : DWord
  /-- save slot reserved for a pre-emption or debugger stop; none for CANCEL (R404, R407) -/
  slot : Option Nat
  cancel : Bool
  /-- the least gang count the strand must reach before it holds again (R405) -/
  atLeast : Nat := 0
  /-- the stop state has been checked (R403 step 1) -/
  checked : Bool := false
  /-- the context write has begun (R403 step 5) -/
  saving : Bool := false
  /-- the gang's cut is complete (R405) -/
  cut : Bool := false
  /-- index and bits of the safe-point table entry at which the engines hold (R401) -/
  entry : Nat × Nat := (0, 0)
  /-- the launch that asked for the tile core (R367, R368) -/
  wanted : Option Nat := none
  /-- a debugger stop-and-save (R414) -/
  debug : Bool := false
deriving DecidableEq, Repr

/-- Rebuild mode (R412): what RESUME checks and where it sends the engines. -/
structure Rebuild where
  depth : Word
  pd : Nat
  back : Nat
deriving DecidableEq, Repr

/-- A window word stepped over and not yet completed by its engine (R223). -/
structure Ledger where
  owner : Eng
  pos : Nat
  windows : List Nat
deriving DecidableEq, Repr

/-- A positional SWR the control engine has executed (R156). -/
structure Positional where
  pos : Nat
  reg : Nat
  val : DWord
deriving DecidableEq, Repr

/-- A placed strand (R29). -/
structure Strand where
  index : BitVec 24
  job : Word
  /-- the model's handle of its launch -/
  handle : Nat
  launch : Word
  phase : Word
  argbase : BitVec 56
  cls : Class
  gang : Bool
  det : Bool
  ovr : Bool := false
  resumed : Bool := false
  textBase : Nat
  textLen : Nat
  c : Engine
  a : Engine
  v : Engine
  m : Engine
  x : Engine
  regs : Vector PWord 32
  win : BitVec 11 := 256
  spdist : Word := 0
  splim : BitVec 25
  tiles : Vector Tile 16
  /-- predicate stack, top first (R192) -/
  pred : List (BitVec 1024) := []
  sat : Bool := false
  nan : Bool := false
  fmt : Bool := false
  accs : Vector Acc 4
  wins : Vector Window 8
  ledger : List Ledger := []
  swrs : List Positional := []
  addrs : Vector PWord 16
  shapes : Vector Shape 16
  xregs : Vector PWord 8
  c2a : List (Queued PWord) := []
  c2v : List (Queued PWord) := []
  c2m : List (Queued PWord) := []
  c2x : List (Queued PWord) := []
  a2c : List (Queued PWord) := []
  v2c : List (Queued PWord) := []
  x2c : List (Queued PWord) := []
  a2v : List (Queued Row) := []
  v2a : List (Queued Row) := []
  m2v : List (Queued Row) := []
  sems : Vector Word 32
  /-- what the releases on each strand semaphore cover (R302) -/
  semViews : Vector View 32 := Vector.replicate 32 {}
  /-- what the completed window words of each window cover (R223, R300) -/
  winViews : Vector View 8 := Vector.replicate 8 {}
  slots : Vector (Option (BitVec 24)) 16
  tickets : Word := 0
  /-- statuses of final tickets, newest first, at most 64 (R325, R336) -/
  statuses : List (Word × BitVec 4) := []
  cmds : List XCmd := []
  /-- (handle, generation) on which later commands end ABORTED (R338) -/
  dead : List (BitVec 16 × Word) := []
  asyncs : List Async := []
  /-- words 0x00 to 0x2F and 0x50 of the bound records that the record cache holds (R383) -/
  records : List (Nat × List Nat) := []
  /-- deltas of the tile core's record cache, by record index (R381) -/
  deltas : List (Nat × Delta) := []
  gangCount : Word := 0
  stop : Option Stop := none
  rebuild : Option Rebuild := none
  halted : Bool := false
  /-- a debugger's halt has been requested, and waits for words that are partway (R415) -/
  halting : Bool := false
  /-- the launch has faulted: the engines issue nothing further (R54); the tick in which it did; the engines that have faulted in that
  tick by their part, 5 for the safe distance (R56, R460); and the commands it aborted (R54, R338) -/
  dead54 : Bool := false
  deadAt : DWord := 0
  faults : List Nat := []
  aborted : List XCmd := []
  perf : Vector DWord 17
  /-- scratchpad accesses since counter 11 was last read, any of which may have been split into beats (R237, R446) -/
  splits : Nat := 0
  /-- the tick of the strand's last TICK (R441) -/
  lastTick : Option DWord := none
  /-- writes issued, for the writer identity's sequence (R248), and copies issued -/
  seq : Nat := 0
  /-- text words and safe-point entries that the pass under way has decoded, by text-step count (R77) -/
  decoded : List (Nat × Word) := []
  points : List (Nat × Nat) := []
deriving DecidableEq, Repr

/-- Memory: bytes by address, strictly rising, none zero; poisoned 32-byte granules, strictly rising (R258). -/
structure Mem where
  cells : List Host.Cell := []
  poison : List Nat := []
deriving DecidableEq, Repr

/-- A writer identity (R248). -/
structure WriterId where
  phase : Word
  launch : Word
  strand : BitVec 24
  eng : BitVec 3
  seq : Nat
deriving DecidableEq, Repr

/-- The granule that a Stamp writes the byte of (R72, R277), and whether the stamping write has itself opened it. -/
structure StampOf where
  job : Word
  record : Nat
  granule : Nat
  opened : Bool
deriving DecidableEq, Repr

/-- A write issued and not yet applied at its home slice (R299, R309): its number, its writer, its die's clock, and the releases
it carries (R304). -/
structure Pending where
  id : Nat
  agent : Agent
  clock : VClock
  carried : Carried
  addr : Nat
  bytes : List Byte
  poison : Bool
  /-- poison byte by byte, for a copied unit whose granules differ (R280) -/
  mixed : List Bool := []
  key : BitVec 12
  /-- the page is non-cacheable (R246) -/
  nc : Bool
  /-- writer identity, for a write to a tracked page of a deterministic job -/
  wid : Option WriterId
  /-- the write is a Stamp's (R383) -/
  stamp : Option StampOf := none
deriving DecidableEq, Repr

/-- A write applied, with what it wrote over: a reader that is not bound to see the write may still return that (R299, R311,
log 7). -/
structure Applied where
  id : Nat
  /-- the count of applied writes before it -/
  at_ : Nat
  agent : Agent
  clock : VClock
  carried : Carried
  addr : Nat
  old : List Byte
  /-- granules it touched that were poisoned before it -/
  oldPoison : List Nat
  /-- granules that it poisoned, and granules that it covered whole with clean data (R258, R313) -/
  sets : List Nat := []
  clears : List Nat := []
  /-- it lost to the line's tag and wrote nothing (R249): its own agent still reads no older write (R299) -/
  lost : Bool := false
deriving DecidableEq, Repr

/-- A line that shared SRAM holds (R244, R257): the key slot under which it was read, whether it has been written since, and the
granules that are poisoned in the HBM below it (R258). -/
structure SramLine where
  line : Nat
  key : BitVec 12
  dirty : Bool := false
  below : List Nat := []
deriving DecidableEq, Repr

/-- The holder of a held request (R247, R312): an engine or a command of a tile core's strand by its part (as in `Agent`), a write
under way by its number, a COPY or FILL by its handle, and the steps of the front end, the Derailleurs and the compactor by what they work
for: a queue, a launch, a job, an edge of a graph. -/
inductive Holder where
  | part (tile : Core) (part : Nat)
  | write (id : Nat)
  | work (handle : Nat)
  | queue (q : BitVec 8)
  | launch (handle : Nat)
  | job (no : Word)
  | edge (graph edge : Nat)
deriving DecidableEq, Repr

/-- A held request: its holder, the die that it comes from, its address (R247, R312). -/
structure Held where
  who : Holder
  die : Fin 4
  addr : Nat
deriving DecidableEq, Repr

/-- A leaf of the translation caches (R255). -/
structure TlbEntry where
  job : Word
  vpage : Nat
  /-- log2 of the page size -/
  lg : Nat
  pbase : Nat
  dm : BitVec 2
  key : BitVec 12
  w : Bool
  r : Bool
  x : Bool
  nc : Bool
deriving DecidableEq, Repr

/-- A word held by a tile core's text cache (R78). -/
structure TextEntry where
  job : Word
  va : Nat
  word : Word
deriving DecidableEq, Repr

/-- A tile core outside its strand. -/
structure TileCore where
  strand : Option Strand := none
  spad : Mem := {}
  /-- stores to the scratchpad that an engine or command may not have to see yet, newest first (R300) -/
  past : List Applied := []
  lastJob : Option Word := none
  /-- strand queue of (launch handle, strand index), at most 64 (R46) -/
  queue : List (Nat × BitVec 24) := []
  tlb : List TlbEntry := []
  text : List TextEntry := []
  fenced : Bool := false
  /-- held for a waiting gang, or for the launch that a stop has freed it for (R367, R368, R373) -/
  heldFor : Option Nat := none
deriving DecidableEq, Repr

/-- The recorded fault of a launch (R56, R437). -/
structure FaultRec where
  code : BitVec 8
  core : BitVec 8
  eng : BitVec 3
  detail : BitVec 20
  tick : DWord
  strand : BitVec 24
deriving DecidableEq, Repr

/-- A stopped strand waiting in its launch (R403, R411). -/
structure Stopped where
  index : BitVec 24
  slot : Nat
  die : Fin 4
  /-- text index of the word after its stop point (R412) -/
  back : Nat
  /-- what its save released, and its die's clock (R403, R411); the signals of its engines, C, A, V, M, X in order (R304) -/
  view : View := {}
  clock : VClock := Vector.replicate 4 0
  signals : List Signals := []
  lastTick : Option DWord := none
deriving DecidableEq, Repr

/-- A launch (R44), from dispatch to its completion. -/
structure Launch where
  handle : Nat
  job : Word
  /-- queue whose packet dispatched it -/
  queue : BitVec 8
  ident : Word
  phase : Word
  textBase : Nat
  textLen : Nat
  count : Nat
  team : BitVec 192
  argbase : BitVec 56
  bindings : Vector (Option (BitVec 24)) 16
  cls : Class
  prio : Fin 8
  stealPackage : Bool
  gang : Bool
  /-- completion scope: 1 DIE, 2 PACKAGE, 3 SYSTEM -/
  scope : BitVec 2
  counter : Nat
  /-- graph handle and node -/
  node : Option (Nat × Nat) := none
  /-- strands dealt to strand queues or placed so far; the next index to deal -/
  dealt : Nat := 0
  /-- next tile core of the round-robin deal (R366) -/
  nextCore : Nat := 0
  started : Bool := false
  ended : Nat := 0
  stopped : List Stopped := []
  selectors : List (BitVec 24 × BitVec 8) := []
  /-- pinned ring entries by record index (R379) -/
  pins : List (Nat × Word) := []
  accums : List (Nat × Delta) := []
  tensor : Bool := false
  poisoned : Bool := false
  cancelled : Bool := false
  faulted : Bool := false
  record : Option FaultRec := none
  nflt : Nat := 0
  /-- levels risen by ageing, and the ticks waited without dispatching (R59) -/
  aged : Nat := 0
  waited : Nat := 0
  /-- SURVs issued, by strand index and out-edge (R291) -/
  survs : List (BitVec 24 × Nat × Nat) := []
  /-- the clock and the writes that its strands' placement acquires, and what its ended strands release (R57, R307, R309) -/
  clock : VClock := Vector.replicate 4 0
  acq : Released := {}
  rel : Released := {}
  /-- of a compaction target, what the placement of each strand acquires besides: its batch, and what came with its records (R306, R307) -/
  batchAcq : List View := []
deriving DecidableEq, Repr

/-- A COPY or FILL in progress (R353). -/
structure CopyWork where
  handle : Nat
  job : Word
  queue : BitVec 8
  ident : Word
  phase : Word
  src : Nat
  dst : Nat
  len : Nat
  pattern : Option DWord
  counter : Nat
  /-- what the front end is bound to see, the destination units written so far, and whether poison has reached memory -/
  view : View := {}
  done : List Nat := []
  poisoned : Bool := false
  /-- a slot or an extension has held a request of it (R247) -/
  held : Bool := false
deriving DecidableEq, Repr

/-- A compaction edge's batches (R363). -/
structure Batches where
  edge : Nat
  source : Nat
  target : Nat
  bsize : Nat
  area : Nat
  cap : Nat
  /-- home die of the area's first byte -/
  die : Fin 4
  started : Nat := 0
  /-- records of the current batch, in order, 32 bytes each with poison, and what their issue released (R306) -/
  cur : List (List Byte × Bool × View) := []
  /-- records held out of order in a deterministic job: (strand, number, record) -/
  store : List (BitVec 24 × Nat × List Byte × Bool × View) := []
  /-- what the compactor has acquired with the records of the batches written so far (R306) -/
  seen : View := {}
  lastCount : Nat := 0
  flushed : Bool := false
  launch : Option Nat := none
deriving DecidableEq, Repr

/-- A graph in progress (R357). -/
structure Graph where
  handle : Nat
  job : Word
  queue : BitVec 8
  counter : Nat
  base : Nat
  phase : Word
  images : List (Vector DWord 32)
  edges : List DWord
  /-- final statuses of nodes: status, also bits, skipped -/
  final : List (Nat × Status × BitVec 4 × Bool × Option (BitVec 8)) := []
  /-- nodes whose launch is in progress -/
  running : List (Nat × Nat) := []
  batches : List Batches := []
  cancelled : Bool := false
  /-- what its dispatch follows, and what the completions of its nodes release (R307) -/
  acq : Released := {}
  rels : List (Nat × Released) := []
deriving DecidableEq, Repr

/-- A packet as validated (R349): offset of its header in the ring or buffer, its words. -/
structure Packet where
  op : BitVec 8
  bar : Bool
  mask : Word
  words : List DWord
  /-- ring offset of the packet of the ring it belongs to, and just after it -/
  start : Nat
  next : Nat
  /-- ordinal in its batch -/
  ord : Nat
deriving DecidableEq, Repr

/-- What holds a queue (R352). -/
inductive Hold where
  | none | wait | signal | arm | bar | phase
deriving DecidableEq, Repr

/-- A command queue (R346, R348). -/
structure Queue where
  q : BitVec 8
  job : Word
  ring : Nat
  state : Nat
  lg : Nat
  head : Nat := 0
  tail : Nat := 0
  /-- bytes appended and not yet behind the head (R347) -/
  unread : Nat := 0
  /-- a doorbell that the front end has not taken yet (R347, R371) -/
  bell : Option DWord := none
  shadow : Vector DWord 32
  err : DWord := 0
  lseq : Nat := 0
  /-- packets of the validated batch still to execute -/
  batch : List Packet := []
  hold : Hold := .none
  halted : Bool := false
  /-- address error to halt with at the next packet boundary (R496) -/
  lostWrite : Bool := false
  /-- the queue has reached a PHASE packet naming the current phase (R50) -/
  atPhase : Bool := false
  tearing : Bool := false
  /-- what the queue's WAITs have acquired (R307, R351); what the WAIT that holds it acquires, once its counter has been final (R435) -/
  acq : Released := {}
  met : Option Released := none
deriving DecidableEq, Repr

/-- A deferred record update (R377). -/
structure RecordUpdate where
  kind : BitVec 2
  index : Nat
  image : List Byte
deriving DecidableEq, Repr

/-- A job (R51, R52): the supervisor's copy of its descriptor and what the device keeps for it. -/
structure Job where
  no : Word
  key : BitVec 12
  det : Bool
  ptroot : Nat
  rtbase : Nat
  rtsize : Nat
  pobase : Nat
  pcbase : Nat
  pcount : Nat
  ctbase : Nat
  nc : Nat
  spbase : Nat
  spcount : Nat
  /-- first die semaphore of its block on each die (R427) -/
  dsb : Vector Nat 4
  phase : Word := 0
  /-- phase counts by record index (R382) -/
  counts : List (Nat × Delta) := []
  /-- granules not SETTLED: (record, granule), true OPEN, false PENDING (R277) -/
  granules : List (Nat × Nat × Bool) := []
  deferred : List RecordUpdate := []
  emergency : Bool := false
  /-- rounds started: handle, generation, pair of ranks (0 for a collective), count (R331, log 14) -/
  xrounds : List (BitVec 16 × Word × Nat × Nat) := []
  saveUsed : List Nat := []
  /-- every Derailleur has finished the close in progress (R50) -/
  evaluated : Bool := false
  tearing : Bool := false
  /-- what every later launch acquires of phases closed, and what the launches completed in this phase release (R307) -/
  acq : Released := {}
  done : Released := {}
  /-- what the final states of counters release (R351, R438) -/
  counterRels : List (Nat × Released) := []
deriving DecidableEq, Repr

/-- What has arrived for one round of a paceline group. -/
structure Round where
  ftag : Word
  gen : Word
  round : Nat
  msgs : List FabricMsg := []
  /-- the tick in which each rank's last came (R338) -/
  came : List (Nat × DWord) := []
  aborted : Bool := false
  mismatched : Bool := false
deriving DecidableEq, Repr

/-- A request being served past its first step (R52, R256). -/
structure Request where
  seq : Word
  cpl : Nat
  job : Word
deriving DecidableEq, Repr

/-- An event record of R456. -/
structure EventRec where
  tick : DWord
  code : BitVec 8
  kind : BitVec 4
  unit : BitVec 16
  detail : Word
deriving DecidableEq, Repr

/-- A die. -/
structure Die where
  clock : VClock
  /-- epochs the dies held at the start of the major slot (R309) -/
  noted : VClock
  /-- the tick in which the die last raised its own entry, and whether the die has issued a write since (R309) -/
  raised : Option DWord := none
  wrote : Bool := false
  tlb : List TlbEntry := []
  /-- die semaphores not zero: (physical index, value), indices rising -/
  sems : List (Nat × Word) := []
  /-- what the releases on each die semaphore cover (R302) -/
  semViews : List (Nat × View) := []
  events : List EventRec := []
  lost : Word := 0
  alive : Bool := false
  /-- the boot image in the supervisor's memory (R465) -/
  image : List Byte := []
  /-- ticks left of a lease the die holds (R371) -/
  lease : Nat := 0
  sinceRenew : Nat := 0
  temp : Int := 0
  volt : Int := 0
  /-- bases reserved by RESERVE-DET: identity table, writer directories, merge area (R252, R283) -/
  reserved : Bool := false
  identity : Nat := 0
  directory : Nat := 0
  merge : Nat := 0
  /-- writer directories of even and odd phases (R251) -/
  writers : List WriterId := []
deriving DecidableEq, Repr

/-- A held pair of a deterministic scatter (R283). -/
structure MergePair where
  addr : Nat
  val : Word
  poison : Bool
  op : BitVec 3
  wid : WriterId
  handle : Nat
  key : BitVec 12
  tracked : Bool
deriving DecidableEq, Repr

/-- Slot phases (R420). -/
inductive SlotPhase where
  | outside | lead | body
deriving DecidableEq, Repr

/-- What an interrupt tells system software: a queue that has halted and its error code (R355, R496), a refused write to an
offset of the card's window (R462), a machine event (R457), the corrected errors that a window has counted, by row and unit (R457), or a
request that is complete (R463). -/
inductive Interrupt where
  | halted (q : BitVec 8) (code : BitVec 8)
  | refused (offset : Nat)
  | event (code : BitVec 8) (kind : BitVec 4) (unit : BitVec 16)
  | summary (counts : List (Nat × Nat × Nat))
  | request (seq : Word)
deriving DecidableEq, Repr

/-- The host adapter card and the package's own registers (R461 to R470). -/
structure Card where
  doorbells : List (BitVec 8 × BitVec 40) := []
  stage : BitVec 8 := 0
  err : BitVec 8 := 0
  svn : Word := 0
  /-- security version of the accepted image (R466) -/
  version : DWord := 0
  hold : Bool := true
  trip : Bool := false
  powerCap : BitVec 12 := 2200
  refused : DWord := 0
  /-- request block addresses waiting, at most 64 (R463) -/
  mailbox : List DWord := []
  /-- the head request is being served and not finished -/
  serving : Option Request := none
  /-- the sensor block, as it was before it was last written, and when that was (R470) -/
  sensors : List Byte := List.replicate 256 0
  sensorsOld : List Byte := List.replicate 256 0
  sensorsAt : Option DWord := none
  duty : BitVec 7 := 64
  /-- a die has reached 105 °C and not yet fallen below 100 (R469) -/
  hot : Bool := false
  /-- interrupts raised, newest first -/
  interrupts : List Interrupt := []
  /-- one-time-programmable storage: the hash of the image's public key, the floor of security versions, the count of spent blocks (R466,
  R467) -/
  keyHash : BitVec 256 := Config.keyHash
  floor : DWord := 0
  spent : Nat := 0
  block : Option (Nat × Nat) := none
  ports : BitVec 12 := 0
  /-- fabric identity, assigned when Chainline trains (R326) -/
  fabric : BitVec 12 := 0
  edges : BitVec 4 := 0
  fepel : Bool := false
deriving DecidableEq, Repr

/-- One turn of the agenda (log 2): after how many ticks, and which agent moves. -/
inductive Move where
  /-- an engine's turn -/
  | engine (tile : Core) (e : Eng)
  /-- a machine step, or an input from outside -/
  | event (i : Instr)
  /-- system software writes bytes at a physical address -/
  | hostWrite (addr : Nat) (bytes : List Byte)
  /-- the host reads 8 bytes of the card's register window (R461, R462) -/
  | windowRead (offset : Nat)
  /-- an uncorrectable error poisons a granule of scratchpad, or of memory, found in HBM or in shared SRAM (R239, R258, R444) -/
  | spadError (tile : Core) (granule : Nat)
  | memError (granule : Nat) (inSram : Bool)
  /-- a corrected error (R239, R444), kind and unit of R456 -/
  | corrected (kind : BitVec 4) (unit : BitVec 16)
  /-- another package's XPUT, or its XGET, of bytes of a job (R341) -/
  | peer (job : Word) (write : Bool) (addr : Nat) (bytes : List (Byte × Bool))
  /-- a copy engine, the permute slot, or the front end copies one unit of its destination ahead of the rest (R17, R279, R353) -/
  | copyUnit (tile : Core) (slot unit : Nat)
  | frontUnit (work unit : Nat)
  /-- a die's supervisor fails, or comes back (R371) -/
  | supervisor (die : Fin 4) (up : Bool)
  /-- a debugger stops a strand and saves it (R414) -/
  | debugStop (tile : Core)
  /-- ticks pass -/
  | idle
deriving DecidableEq, Repr

structure Turn where
  ticks : Nat
  move : Move
deriving DecidableEq, Repr

end Sys2Proof.Machine
end

