-- ==== Sys2Proof/Machine/State.lean ====
section
/-! DEFINITION. The machine's state: one D4 package with its host adapter card, as plain data, and its reset. -/

namespace Sys2Proof.Machine

/-- The whole state. INVENTORY.md lists the rule of the spec for each field. -/
structure State where
  /-- package step counter (R417) -/
  psc : DWord
  /-- the tile core and engine the next word runs in, and the agents' turns to come (the model's own, log 2) -/
  focusTile : Core
  focusEng : Eng
  agenda : List Turn
  /-- open values drawn so far (the model's own, log 6) -/
  draws : Nat
  /-- next handle of a launch, graph or copy (the model's own, log 2) -/
  fresh : Nat
  cores : Vector TileCore 192
  dies : Vector Die 4
  /-- HBM and the host window by physical address (R240) -/
  mem : Mem
  pending : List Pending
  /-- writes to HBM and the host window that a placed strand may not have to see yet, newest first (R299, log 7) -/
  past : List Applied
  /-- writes issued and writes applied so far (the model's own counts, log 7) -/
  writes : Nat
  applied : Nat
  /-- tags of tracked lines, by line number (R249) -/
  tags : List (Nat × WriterId)
  /-- key under which a line of HBM is sealed, by line number (R257) -/
  seals : List (Nat × BitVec 512)
  /-- loaded key slots (R257) -/
  keys : List (BitVec 12 × BitVec 512)
  /-- lines that shared SRAM holds (R244) -/
  sram : List SramLine
  /-- requests that a slot or an extension has held, in the order they were held (R247, R312) -/
  holds : List Held
  /-- offset of the next scrub step in every stack (R243) -/
  scrub : Nat
  pairs : List MergePair
  jobs : List Job
  queues : List Queue
  launches : List Launch
  graphs : List Graph
  copies : List CopyWork
  rounds : List Round
  /-- weighted round robin of R59: turns left of the eight levels of the three classes, launch last served by level -/
  turns : List Nat
  served : List Nat
  /-- slot phase, resources still held by an extension with its ticks (R420, R423) -/
  slot : SlotPhase
  extensions : List (BitVec 4 × BitVec 16 × Nat)
  /-- end of the catch-up slot of R426 -/
  catchUp : Nat
  aligned : DWord
  ovcnt : Word
  ovlast : DWord
  /-- physical address of the calendar table, once published (R424) -/
  calendar : Option Nat
  /-- window counts not zero: row of R444, unit, count; lasting sources (R444) -/
  windows : List (Nat × Nat × Nat)
  lasting : List (Nat × Nat)
  /-- counts of the window that a reset of this tick has ended, and the tick of the last reset (R444, R448) -/
  lastWindow : List (Nat × Nat × Nat)
  windowAt : DWord
  card : Card
  /-- leader die (R371), and whether its front end has stopped -/
  leader : Option (Fin 4)
  leaderStopped : Bool
deriving DecidableEq, Repr

/-- Why the machine stops. -/
inductive Fault where
  /-- Raised by an agenda turn in which system software names a physical address outside the map of R240: no such
  byte exists. Safe: the machine stops where the hardware has nothing to address. -/
  | noSuchAddress
deriving DecidableEq, Repr

/-- Why the model gives a step no meaning in a state. -/
inductive Refusal where
  /-- Raised by an arm of `exec` whose instruction has no meaning yet. Safe. -/
  | notModelled (mnemonic : String)
  /-- Raised by an instruction word when the tile core in focus holds no strand that could run it (R29): no engine
  exists to execute the word. Safe. -/
  | noStrand
deriving DecidableEq, Repr

/-- The three outcomes. -/
abbrev Out := Host.Outcome State Fault Refusal

/-- A zero clock (R309). -/
def VClock.zero : VClock := Vector.replicate 4 0

/-- A die at reset. -/
def Die.reset : Die := { clock := VClock.zero, noted := VClock.zero }

/-- The package held in reset by the card (R461, R465, log 5): no job, queue, launch or strand; memory lists nothing
(log 3); every register as INVENTORY.md gives. -/
def State.reset : State where
  psc := 0
  focusTile := 0
  focusEng := .c
  agenda := []
  draws := 0
  fresh := 1
  cores := Vector.replicate 192 {}
  dies := Vector.replicate 4 Die.reset
  mem := {}
  pending := []
  past := []
  writes := 0
  applied := 0
  tags := []
  seals := []
  keys := []
  sram := []
  holds := []
  scrub := 0
  pairs := []
  jobs := []
  queues := []
  launches := []
  graphs := []
  copies := []
  rounds := []
  turns := []
  served := []
  slot := .outside
  extensions := []
  catchUp := 0
  aligned := 0
  ovcnt := 0
  ovlast := 0
  calendar := none
  windows := []
  lasting := []
  lastWindow := []
  windowAt := 0
  card := {}
  leader := none
  leaderStopped := false

end Sys2Proof.Machine
end

