-- ==== Sys2Proof/Machine/Memory.lean ====
section
/-! DEFINITION. Bytes and poison of one memory (R258), in one canonical form: addresses strictly rising and no entry
equal to 0, which is what an unlisted address reads as (log 3). -/

namespace Sys2Proof.Machine

/-- The byte at an address of a list of cells. -/
def cellGet : List Host.Cell → Nat → Byte
  | [], _ => 0
  | (x, b) :: cs, a => if x = a then b else cellGet cs a

/-- The cells with the byte at `a` set, canonical where they were. -/
def cellSet : List Host.Cell → Nat → Byte → List Host.Cell
  | [], a, b => if b = 0 then [] else [(a, b)]
  | (x, y) :: cs, a, b =>
    if x < a then (x, y) :: cellSet cs a b
    else if x = a then (if b = 0 then cs else (a, b) :: cs)
    else if b = 0 then (x, y) :: cs
    else (a, b) :: (x, y) :: cs

/-- Addresses strictly above `lo`, strictly rising, no byte zero. -/
def cellsWf : Nat → List Host.Cell → Bool
  | _, [] => true
  | lo, (x, b) :: cs => decide (lo ≤ x) && b != 0 && cellsWf (x + 1) cs

/-- The canonical form of a memory's cells. -/
def Mem.wf (m : Mem) : Bool := cellsWf 0 m.cells

/-- One byte. -/
def Mem.get (m : Mem) (a : Nat) : Byte := cellGet m.cells a

/-- One byte written; poison is unchanged. -/
def Mem.set (m : Mem) (a : Nat) (b : Byte) : Mem := { m with cells := cellSet m.cells a b }

/-- `n` bytes from `a`, lowest address first. -/
def Mem.bytes (m : Mem) (a n : Nat) : List Byte := (List.range n).map fun i => m.get (a + i)

/-- Bytes written from `a` upward. -/
def Mem.setBytes (m : Mem) (a : Nat) : List Byte → Mem
  | [] => m
  | b :: bs => (m.set a b).setBytes (a + 1) bs

/-- A set of numbers held strictly rising. -/
def natInsert (l : List Nat) (n : Nat) : List Nat :=
  match l with
  | [] => [n]
  | x :: xs => if x < n then x :: natInsert xs n else if x = n then x :: xs else n :: x :: xs

/-- Granules that `n` bytes from `a` overlap (R258). -/
def granules (a n : Nat) : List Nat :=
  if n = 0 then [] else (List.range ((a + n - 1) / 32 - a / 32 + 1)).map (· + a / 32)

/-- Whether some of `n` bytes from `a` lie in a poisoned granule (R70). -/
def Mem.poisoned (m : Mem) (a n : Nat) : Bool := (granules a n).any fun g => m.poison.contains g

/-- A granule poisoned. -/
def Mem.poisonGranule (m : Mem) (g : Nat) : Mem := { m with poison := natInsert m.poison g }

/-- The store of R258: poisoned data poisons every granule it writes; clean data clears a granule it covers whole. -/
def Mem.store (m : Mem) (a : Nat) (bs : List Byte) (poison : Bool) : Mem :=
  let n := bs.length
  let m' := m.setBytes a bs
  if poison then (granules a n).foldl Mem.poisonGranule m'
  else { m' with poison := m'.poison.filter fun g => !(decide (a ≤ 32 * g) && decide (32 * g + 32 ≤ a + n)) }

/-- A little-endian number of bytes (R6). -/
def natOfBytes : List Byte → Nat
  | [] => 0
  | b :: bs => b.toNat + 256 * natOfBytes bs

/-- The `n` bytes of a number, little-endian. -/
def bytesOfNat : Nat → Nat → List Byte
  | 0, _ => []
  | n + 1, v => BitVec.ofNat 8 v :: bytesOfNat n (v / 256)

/-- Value of the first entry of a key in a list of pairs. -/
def lookupNat {β : Type} (l : List (Nat × β)) (k : Nat) : Option β :=
  match l with
  | [] => none
  | (x, v) :: xs => if x = k then some v else lookupNat xs k

/-- An entry replaced or added, keys rising. -/
def insertNat {β : Type} (l : List (Nat × β)) (k : Nat) (v : β) : List (Nat × β) :=
  match l with
  | [] => [(k, v)]
  | (x, w) :: xs => if x < k then (x, w) :: insertNat xs k v else if x = k then (k, v) :: xs else (k, v) :: (x, w) :: xs

/-- An element put before the first one it does not follow, and a list sorted so. -/
def insertBy {α : Type} (le : α → α → Bool) (a : α) : List α → List α
  | [] => [a]
  | b :: bs => if le a b then a :: b :: bs else b :: insertBy le a bs
def sortBy {α : Type} (le : α → α → Bool) : List α → List α
  | [] => []
  | a :: as => insertBy le a (sortBy le as)

/-- The vector of `n` values of a function. -/
def tab {α : Type} (n : Nat) (f : Nat → α) : Vector α n :=
  ⟨((List.range n).map f).toArray, by simp⟩

/-- Bits [hi:lo] of a number. -/
def bits (v hi lo : Nat) : Nat := v / 2 ^ lo % 2 ^ (hi + 1 - lo)

end Sys2Proof.Machine
end

