-- ==== Sys2Proof/Machine/Cipher.lean ====
section
/-! DEFINITION. The cipher of HBM (R257): AES-256-XTS as IEEE 1619 and FIPS 197 give it, which the manual names and does not restate
(log 10). -/

namespace Sys2Proof.Machine

/-! AES over the bytes of a block in order (FIPS 197). -/

/-- A byte times x, in the field of AES. -/
def xtime (b : Byte) : Byte := (b <<< 1) ^^^ (if b.getLsbD 7 then 0x1B else 0)

def fieldMul (a b : Byte) : Byte :=
  ((List.range 8).foldl (fun (r : Byte × Byte) i => (if b.getLsbD i then r.1 ^^^ r.2 else r.1, xtime r.2)) (0, a)).1

/-- The inverse of a byte, 0 for 0: its 254th power. -/
def fieldInv (a : Byte) : Byte :=
  let r := (List.range 6).foldl (fun r _ => fieldMul (fieldMul r r) a) a
  fieldMul r r

def subByte (b : Byte) : Byte :=
  let s := fieldInv b
  s ^^^ s.rotateLeft 1 ^^^ s.rotateLeft 2 ^^^ s.rotateLeft 3 ^^^ s.rotateLeft 4 ^^^ 0x63

def unsubByte (b : Byte) : Byte := fieldInv (b.rotateLeft 1 ^^^ b.rotateLeft 3 ^^^ b.rotateLeft 6 ^^^ 0x05)

def xorBytes (a b : List Byte) : List Byte := List.zipWith (· ^^^ ·) a b

/-- The 60 words of the key schedule of a 32-byte key. -/
def keyWords (key : List Byte) : List (List Byte) :=
  (List.range 52).foldl (fun ws n =>
    let i := n + 8
    let last := ws.getD (i - 1) []
    let t :=
      if i % 8 = 0 then
        xorBytes ((last.rotateLeft 1).map subByte) [(List.range (i / 8 - 1)).foldl (fun r _ => xtime r) 1, 0, 0, 0]
      else if i % 8 = 4 then last.map subByte
      else last
    ws ++ [xorBytes (ws.getD (i - 8) []) t]) ((List.range 8).map fun i => (key.drop (4 * i)).take 4)

/-- The bytes of a round's key. -/
def keyOfRound (ws : List (List Byte)) (n : Nat) : List Byte := ((ws.drop (4 * n)).take 4).flatten

/-- Row `r` of a block moved by `r` columns, forward or back. -/
def shiftRows (back : Bool) (b : List Byte) : List Byte :=
  (List.range 16).map fun k => b.getD (k % 4 + 4 * ((k / 4 + (if back then 4 - k % 4 else k % 4)) % 4)) 0

/-- Every column times a circulant matrix, given by its first row. -/
def mixColumns (row : List Byte) (b : List Byte) : List Byte :=
  (List.range 16).map fun k => (List.range 4).foldl (fun s j =>
    s ^^^ fieldMul (row.getD ((j + 4 - k % 4) % 4) 0) (b.getD (k / 4 * 4 + j) 0)) 0

def aesEncrypt (ws : List (List Byte)) (b : List Byte) : List Byte :=
  let c := (List.range 13).foldl (fun b n =>
    xorBytes (mixColumns [2, 3, 1, 1] (shiftRows false (b.map subByte))) (keyOfRound ws (n + 1))) (xorBytes b (keyOfRound ws 0))
  xorBytes (shiftRows false (c.map subByte)) (keyOfRound ws 14)

def aesDecrypt (ws : List (List Byte)) (b : List Byte) : List Byte :=
  let c := (List.range 13).foldl (fun b n =>
    mixColumns [14, 11, 13, 9] (xorBytes ((shiftRows true b).map unsubByte) (keyOfRound ws (13 - n)))) (xorBytes b (keyOfRound ws 14))
  xorBytes ((shiftRows true c).map unsubByte) (keyOfRound ws 0)

/-! XTS over one granule of 32 bytes (IEEE 1619, R257). -/

/-- A tweak times x, its bytes little-endian. -/
def tweakNext (t : BitVec 128) : BitVec 128 := (t <<< 1) ^^^ (if t.getLsbD 127 then 0x87 else 0)

/-- A granule's two blocks, each between its tweak and itself; the first half of the key is the data key. -/
def xtsGranule (block : List (List Byte) → List Byte → List Byte) (key : BitVec 512) (granule : Nat) (bs : List Byte) : List Byte :=
  let ks := bytesOfNat 64 key.toNat
  let data := keyWords (ks.take 32)
  let t0 := BitVec.ofNat 128 (natOfBytes (aesEncrypt (keyWords (ks.drop 32)) (bytesOfNat 16 granule)))
  let one := fun (t : BitVec 128) (b : List Byte) =>
    let w := bytesOfNat 16 t.toNat
    xorBytes (block data (xorBytes b w)) w
  one t0 (bs.take 16) ++ one (tweakNext t0) (bs.drop 16)

/-- What a granule sealed under one key reads as under another (R257). -/
def recode (sealed read : BitVec 512) (granule : Nat) (plain : List Byte) : List Byte :=
  xtsGranule aesDecrypt read granule (xtsGranule aesEncrypt sealed granule plain)

end Sys2Proof.Machine
end

