-- ==== Sys2Proof/Machine/Ops.lean ====
section
/-! DEFINITION. The named operations over the state: engines and strands, the slot calendar, translation, reads and writes
of memory, release and acquire, text, the fault rule (taking an exception, and ending one), and the runners of words. -/

namespace Sys2Proof.Machine

/-! Names and codes. -/

/-- fcode of R449. -/
def FaultCode.bits : FaultCode → BitVec 8
  | .illegal => 0x01 | .stackLimit => 0x02 | .predicateDepth => 0x03 | .bankConflict => 0x04
  | .strandDeadlock => 0x05 | .translation => 0x06 | .protection => 0x07 | .align => 0x08
  | .safeDistance => 0x09 | .safeState => 0x0A | .slotIntrusion => 0x0B | .poisonSync => 0x0C
  | .detIllegal => 0x0D | .staleScale => 0x0E | .mixedGranule => 0x0F | .xMembership => 0x10

/-- Bits of a class in `status` and in `c6` (R157, R350). -/
def Class.bits : Class → BitVec 2
  | .live => 0 | .near => 1 | .bulk => 2

/-- `splim` of a class (R62). -/
def Class.splim : Class → BitVec 25
  | .live => 65536 | .near => 1048576 | .bulk => 16777216

/-- Why a word did not complete: it waits, or it raises a fault of class P (R450). -/
inductive Halt where
  | wait (w : Wait)
  | fault (c : FaultCode)
deriving DecidableEq, Repr

/-- Raise a fault (R69). -/
def raise {α : Type} (c : FaultCode) : Except Halt α := .error (.fault c)
/-- Wait (R42). -/
def await {α : Type} (w : Wait) : Except Halt α := .error (.wait w)
/-- Raise unless a condition holds. -/
def need (b : Bool) (c : FaultCode) : Except Halt Unit := if b then .ok () else .error (.fault c)

/-- The outcome of a word in the machine: done; waiting with the entries it has moved so far; or a fault with the
effects of the word that stand (R452). -/
inductive WordResult where
  | done (s : State)
  | stay (w : Wait) (s : State)
  | trap (c : FaultCode) (pr : Precision) (s : State)

/-- A word whose every check precedes every effect. -/
def WordResult.of (s : State) : Except Halt State → WordResult
  | .ok s' => .done s'
  | .error (.wait w) => .stay w s
  | .error (.fault c) => .trap c .atWord s

/-- A turn whose step is not due (its own condition does not hold, or what it would take in cannot arrive): nothing happens. DESIGN
CHOICE (log 2). -/
def notDue (s : State) : Out := .next s

/-! Engines and strands. -/

def Strand.eng (st : Strand) : Eng → Engine
  | .c => st.c | .a => st.a | .v => st.v | .m => st.m | .x => st.x

def Strand.setEng (st : Strand) (e : Eng) (g : Engine) : Strand :=
  match e with
  | .c => { st with c := g } | .a => { st with a := g } | .v => { st with v := g }
  | .m => { st with m := g } | .x => { st with x := g }

def Strand.updEng (st : Strand) (e : Eng) (f : Engine → Engine) : Strand := st.setEng e (f (st.eng e))

/-- Every engine changed. -/
def Strand.allEngs (st : Strand) (f : Engine → Engine) : Strand :=
  { st with c := f st.c, a := f st.a, v := f st.v, m := f st.m, x := f st.x }

def State.core (s : State) (t : Core) : TileCore := s.cores.get t
def State.setCore (s : State) (t : Core) (k : TileCore) : State := { s with cores := s.cores.set t.val k t.isLt }
def State.updCore (s : State) (t : Core) (f : TileCore → TileCore) : State := s.setCore t (f (s.core t))
def State.strand (s : State) (t : Core) : Option Strand := (s.core t).strand
def State.setStrand (s : State) (t : Core) (st : Strand) : State := s.updCore t fun k => { k with strand := some st }
def State.updStrand (s : State) (t : Core) (f : Strand → Strand) : State :=
  s.updCore t fun k => { k with strand := k.strand.map f }

/-- Every tile core changed. -/
def State.allCores (s : State) (f : TileCore → TileCore) : State :=
  { s with cores := tab 192 fun i => f (if h : i < 192 then s.cores.get ⟨i, h⟩ else {}) }

/-- All tile cores, ascending. -/
def allCoreIds : List Core := (List.range 192).filterMap fun i => if h : i < 192 then some ⟨i, h⟩ else none

/-- The die of a tile core (R15). -/
def dieOf (t : Core) : Fin 4 := ⟨t.val / 48, by have := t.isLt; omega⟩

def State.die (s : State) (d : Fin 4) : Die := s.dies.get d
def State.setDie (s : State) (d : Fin 4) (k : Die) : State := { s with dies := s.dies.set d.val k d.isLt }
def State.updDie (s : State) (d : Fin 4) (f : Die → Die) : State := s.setDie d (f (s.die d))

def State.job? (s : State) (n : Word) : Option Job := s.jobs.find? fun j => j.no == n
def State.updJob (s : State) (n : Word) (f : Job → Job) : State :=
  { s with jobs := s.jobs.map fun j => if j.no == n then f j else j }
def State.launch? (s : State) (h : Nat) : Option Launch := s.launches.find? fun l => l.handle == h
def State.updLaunch (s : State) (h : Nat) (f : Launch → Launch) : State :=
  { s with launches := s.launches.map fun l => if l.handle == h then f l else l }
def State.queue? (s : State) (q : BitVec 8) : Option Queue := s.queues.find? fun k => k.q == q
def State.updQueue (s : State) (q : BitVec 8) (f : Queue → Queue) : State :=
  { s with queues := s.queues.map fun k => if k.q == q then f k else k }
def State.graph? (s : State) (h : Nat) : Option Graph := s.graphs.find? fun g => g.handle == h
def State.updGraph (s : State) (h : Nat) (f : Graph → Graph) : State :=
  { s with graphs := s.graphs.map fun g => if g.handle == h then f g else g }

/-- The strands placed for a launch. -/
def State.strandsOf (s : State) (h : Nat) : List (Core × Strand) :=
  allCoreIds.filterMap fun t =>
    match s.strand t with
    | some st => if st.handle == h then some (t, st) else none
    | none => none

/-- A free value (log 6): the next draw, and the state that has drawn it. -/
def State.draw (s : State) : BitVec 64 × State := (Config.freeValue s.draws, { s with draws := s.draws + 1 })

/-- A performance counter raised, saturating at 2^64 − 1 (R446). -/
def Strand.count (st : Strand) (i : Fin 17) (n : Nat) : Strand :=
  { st with perf := st.perf.set i.val (BitVec.ofNat 64 (min ((st.perf.get i).toNat + n) (2 ^ 64 - 1))) i.isLt }

/-- The performance counter of the words an engine executes (R446). -/
def engCounter : Eng → Fin 17
  | .c => 1 | .a => 2 | .v => 3 | .m => 4 | .x => 5

/-! The slot calendar (R417, R425). -/

/-- SlotAt of R425: start, length, affected mask, modulo 2^64. -/
def slotAt (t : DWord) : DWord × DWord × DWord :=
  let len := fun (x : DWord) => if x.toNat % Config.majorPeriod = 0 then Config.majorLen else Config.minorLen
  let s0 := BitVec.ofNat 64 (t.toNat - t.toNat % Config.minorPeriod)
  let s := if t.toNat ≥ s0.toNat + len s0 then s0 + BitVec.ofNat 64 Config.minorPeriod else s0
  (s, BitVec.ofNat 64 (len s), if len s = Config.majorLen then 15 else 1)

/-- Whether a tick lies in the body of the catch-up slot of R426, or of a slot that starts after its end. -/
def State.inBody (s : State) : Bool :=
  let b := (slotAt s.psc).1.toNat
  (decide (b ≤ s.psc.toNat) && decide (s.catchUp ≤ b)) || decide (s.psc.toNat < s.catchUp)

/-- Whether a tick lies in a drain lead (R417). -/
def State.inLead (s : State) : Bool :=
  let b := (slotAt s.psc).1.toNat
  decide (s.psc.toNat < b) && decide (b ≤ s.psc.toNat + Config.drainLead)

/-- Whether the slot in force or at hand is a major one (R418). -/
def State.majorSlot (s : State) : Bool := (slotAt s.psc).2.2 == 15 || decide (s.psc.toNat < s.catchUp)

/-- Requests meet a drain lead or a slot now (R420). -/
def State.slotNow (s : State) : Bool := s.inBody || s.inLead

/-- The leader's front end acts (R371). -/
def frontEndActs (s : State) : Bool :=
  s.card.stage == 7 && !s.leaderStopped && (match s.leader with | some d => decide ((s.die d).lease > Config.stopMargin) | none => false)

/-- A Chainline port is in service and no extension holds it (R22, R423, R458). -/
def State.portFree (s : State) (p : Nat) : Bool :=
  s.card.ports.getLsbD p && !s.extensions.any fun x => x.1 == 4 && x.2.1.toNat == p

/-! Vector clocks (R309). -/

/-- `a` is later than `b`, by modular difference. -/
def later (a b : Word) : Bool := let d := (a - b).toNat; decide (0 < d) && decide (d < 2 ^ 31)

/-- The later of each entry. -/
def VClock.join (a b : VClock) : VClock :=
  tab 4 fun i => if later (b.toList.getD i 0) (a.toList.getD i 0) then b.toList.getD i 0 else a.toList.getD i 0

def VClock.at (c : VClock) (d : Fin 4) : Word := c.get d

/-- The own epoch of a die raised by a release (R309). -/
def VClock.bump (c : VClock) (d : Fin 4) : VClock := c.set d.val (c.at d + 1) d.isLt

/-- The gate of R309: every write issued on die k with epoch below C[k] has been applied. -/
def State.gate (s : State) (c : VClock) : Bool :=
  s.pending.all fun p => !later (c.at p.agent.die) (p.clock.at p.agent.die)

/-- A release of the die can complete in this tick: a die raises its entry at most once per tick, and releases completed in one
tick share one increment while no write has been issued between them (R309). -/
def State.canRaise (s : State) (d : Fin 4) : Bool := (s.die d).raised != some s.psc || !(s.die d).wrote

/-- The die has raised its entry in no release of this tick: a step that writes and then releases may be taken (R309). -/
def State.unraised (s : State) (d : Fin 4) : Bool := (s.die d).raised != some s.psc

/-- A release completes on a die (R309). -/
def State.raiseEpoch (s : State) (d : Fin 4) : State :=
  if (s.die d).raised == some s.psc && !(s.die d).wrote then s
  else s.updDie d fun k => { k with clock := k.clock.bump d, raised := some s.psc, wrote := false }

/-- A die takes the clock of a release that it has acquired (R309). -/
def State.joinClock (s : State) (d : Fin 4) (c : VClock) : State := s.updDie d fun k => { k with clock := k.clock.join c }

/-- The writes of an agent of a die that is no strand's would apply at once (R309). -/
def State.agentReady (s : State) (d : Fin 4) : Bool := s.gate (s.die d).clock

/-! Views: what an agent is bound to see (R298, R303, R310, log 7). -/

def View.join (a b : View) : View := { base := max a.base b.base, ids := b.ids.foldl natInsert a.ids }

inductive Scope where
  | strand | die | package | system
deriving DecidableEq, Repr

def Scope.ofBits (b : BitVec 2) : Scope :=
  match b.toNat with
  | 0 => .strand | 1 => .die | 2 => .package | _ => .system

/-- Agents of other dies stand within the scope (R297). -/
def Scope.wide (sc : Scope) : Bool := sc == .package || sc == .system

/-- One more release, at a scope: it is for the agents within the scope (R298). -/
def Carried.add (c : Carried) (sc : Scope) (v : View) : Carried :=
  { strand := c.strand.join v
    die := if sc == .strand then c.die else c.die.join v
    package := if sc.wide then c.package.join v else c.package }

/-- The releases that an agent within a scope takes of those that its reads have met (R298, R304). -/
def Carried.upTo (c : Carried) (sc : Scope) : View :=
  if sc == .strand then c.strand else if sc == .die then c.strand.join c.die else (c.strand.join c.die).join c.package

/-- What reaches the agents of a die of what was released (R298, R307). -/
def Released.at (r : Released) (d : Fin 4) : View := r.wide.join (r.dies.get d)
def Released.join (a b : Released) : Released :=
  { wide := a.wide.join b.wide, dies := tab 4 fun i => (a.dies.toList.getD i {}).join (b.dies.toList.getD i {}) }
/-- A release by an agent of a die, for that die alone or for all. -/
def Released.add (r : Released) (wide : Bool) (d : Fin 4) (v : View) : Released :=
  if wide then { r with wide := r.wide.join v } else { r with dies := r.dies.set d.val ((r.dies.get d).join v) d.isLt }

/-- The write is one that the holder of the view is bound to see. -/
def View.sees (v : View) (u : Applied) : Bool := decide (u.at_ < v.base) || v.ids.contains u.id

def Strand.agent (st : Strand) (t : Core) (part : Nat) : Agent := ⟨dieOf t, t, st.handle, st.index, part⟩
/-- An agent of a die that is no strand's: the front end, a supervisor, system software; the Derailleur; the survivor compactor; a COPY
or FILL by its handle. -/
def dieAgent (d : Fin 4) : Agent := ⟨d, 0, 0, 0, 0⟩
def derailleurAgent (d : Fin 4) : Agent := ⟨d, 0, 0, 0, 1⟩
def compactorAgent (d : Fin 4) : Agent := ⟨d, 0, 0, 0, 2⟩
def workAgent (d : Fin 4) (handle : Nat) : Agent := ⟨d, 0, 0, 0, 3 + handle⟩

/-- Two agents of one strand (R297). -/
def Agent.mate (a b : Agent) : Bool := a.handle != 0 && a.handle == b.handle && a.strand == b.strand && a.core == b.core

/-- Bytes of a store and of a range overlap. -/
def overlap (a n b m : Nat) : Bool := decide (a < b + m) && decide (b < a + n)

/-- What a release of an agent covers: what the agent has performed, and what it is bound to see (R303). -/
def State.covers (s : State) (me : Agent) (v : View) : View :=
  let own := fun (l : List Applied) => l.filterMap fun u => if u.agent == me then some u.id else none
  let wait := s.pending.filterMap fun p => if p.agent == me then some p.id else none
  { v with ids := (wait ++ own s.past ++ own (s.core me.core).past).foldl natInsert v.ids }

/-- Pieces of a string of bytes that do not cross a multiple of `unit`. -/
def pieces {α : Type} (unit : Nat) : Nat → Nat → List α → List (Nat × List α)
  | 0, _, _ => []
  | fuel + 1, a, bs =>
    if bs.isEmpty then []
    else
      let k := unit - a % unit
      (a, bs.take k) :: pieces unit fuel (a + k) (bs.drop k)

/-- A write of bytes from `a` touches a granule. -/
def Applied.touches (u : Applied) (g : Nat) : Bool := overlap u.addr u.old.length (32 * g) 32

/-- A granule's poison for a reader that misses some writes to it: what the rest of them leave, in coherence order (R313). -/
def poisonWithout (m : Mem) (past missed : List Applied) (g : Nat) : Bool :=
  if missed.any fun u => u.touches g then
    let all := (past.filter fun u => u.touches g).reverse
    let before := match all with | u :: _ => u.oldPoison.contains g | [] => m.poison.contains g
    all.foldl (fun x u => if missed.any fun w => w.id == u.id then x else (x && !u.clears.contains g) || u.sets.contains g) before
  else m.poison.contains g

/-- What a read of an agent has returned: the bytes, their poison, the writes that wrote them, and whether a free value chose. -/
structure Look where
  bytes : List Byte
  poison : Bool
  from_ : List Applied
  drew : Bool

/-- The first `k` of some writes, and those after them that are pieces of the last (R280). -/
def wholeTake (k : Nat) : List Applied → List Applied
  | [] => []
  | u :: us =>
    let m := (u :: us).take k
    m ++ ((u :: us).drop k).takeWhile fun u => (m.getLast?.map fun w => w.id) == some u.id

/-- A read of `n` bytes, indivisible (R299): of the writes to them that the agent is not bound to see, the free value `pick` says
how many of the newest it misses (R299, R311), and of the writes that have poisoned their granules without touching them likewise;
poison is what the writes it does not miss leave (R313). -/
def look (m : Mem) (plain : Nat → Byte) (past : List Applied) (me : Agent) (v : View) (pick : BitVec 64) (a n : Nat) : Look :=
  let here := past.filter fun u => overlap u.addr u.old.length a n
  let near := past.filter fun u => !u.sets.isEmpty && (granules a n).any u.sets.contains && !overlap u.addr u.old.length a n
  let free := here.takeWhile fun u => !(v.sees u || u.agent == me)
  let dim := near.takeWhile fun u => !(v.sees u || u.agent == me)
  let k := pick.toNat % 2 ^ 32 % (free.length + 1)
  let missed := wholeTake k free
  let dark := wholeTake (pick.toNat / 2 ^ 32 % (dim.length + 1)) dim
  let unseen := missed ++ near.filter fun u => (if here.any fun w => w.id == u.id then missed else dark).any fun w => w.id == u.id
  let rest := here.drop missed.length
  let covers := fun (u : Applied) (b : Nat) => decide (u.addr ≤ b) && decide (b < u.addr + u.old.length)
  let byte := fun b => missed.foldl (fun x u => if covers u b then u.old.getD (b - u.addr) 0 else x) (plain b)
  let bad := poisonWithout m past unseen
  { bytes := (List.range n).map fun i => byte (a + i)
    poison := (granules a n).any bad
    from_ := ((List.range n).filterMap fun i => rest.find? fun u => !u.lost && covers u (a + i)) ++
      (granules a n).filterMap fun g =>
        if bad g then past.find? fun u => u.sets.contains g && !unseen.any fun w => w.id == u.id else none
    drew := !(free.isEmpty && dim.isEmpty) }

/-- Granules that a run of bytes poisons, and granules that it covers whole with clean data (R258). -/
def granuleMarks (a : Nat) (bs : List (Byte × Bool)) : List Nat × List Nat :=
  (pieces 32 (bs.length / 32 + 2) a bs).foldl (fun r p =>
    if p.2.any Prod.snd then (natInsert r.1 (p.1 / 32), r.2)
    else if p.2.length = 32 then (r.1, natInsert r.2 (p.1 / 32)) else r) ([], [])

/-- A write of a piece of memory that an agent has noted (R299, R300): what was there before, and what it does to poison. -/
def Mem.noted (m : Mem) (plain : Nat → Byte) (id at_ : Nat) (me : Agent) (clock : VClock) (c : Carried) (a : Nat)
    (bs : List (Byte × Bool)) : Applied :=
  { id, at_, agent := me, clock, carried := c, addr := a, old := (List.range bs.length).map fun i => plain (a + i)
    oldPoison := (granules a bs.length).filter fun g => m.poison.contains g
    sets := (granuleMarks a bs).1, clears := (granuleMarks a bs).2 }

/-- Writes are kept for the agents that may not have to see them while a job exists, whose strands are such agents. -/
def State.tracks (s : State) : Bool := !s.jobs.isEmpty

/-- An engine has read some writes: it is bound to see them from now on (R299, R310), its next acquiring fence takes the releases
they carry (R304), and its entry under way comes of them (R305). -/
def Engine.read (g : Engine) (me : Agent) (l : List Applied) : Engine :=
  l.foldl (fun g u =>
    let g1 := { g with view := { g.view with ids := natInsert g.view.ids u.id }, sources := natInsert g.sources u.id }
    let m := g.sig.met
    { g1 with sig :=
      if me.mate u.agent then { g.sig with met := { m with strand := m.strand.join u.carried.strand } }
      else if me.die == u.agent.die then { g.sig with met := { m with die := m.die.join u.carried.die } }
      else { g.sig with met := { m with package := m.package.join u.carried.package }, metClock := g.sig.metClock.join u.clock } }) g

/-! Translation (R253 to R256). -/

inductive Access where
  | read | write | fetch
deriving DecidableEq, Repr

/-- A translated address with its page's attributes. -/
structure Leaf where
  pa : Nat
  dm : BitVec 2
  key : BitVec 12
  nc : Bool
deriving DecidableEq, Repr

/-- A physical address of the host window (R240). -/
def isHost (pa : Nat) : Bool := decide (Config.hostBase ≤ pa)

/-- The home die of a physical address (R20, R241); the host window is reached through die 0 (R22). -/
def homeDie (pa : Nat) : Fin 4 := if isHost pa then 0 else ⟨pa / Config.dieBytes % 4, by omega⟩

/-- The stack of an HBM address, counted over the package (R241). -/
def stackOf (pa : Nat) : Nat := 3 * (pa / Config.dieBytes) + pa % Config.dieBytes / 256 % 3

/-- The byte of its stack that an HBM address is (R241): the scrub walks a stack in this order (R243). -/
def stackOffset (pa : Nat) : Nat := pa % Config.dieBytes / 256 / 3 * 256 + pa % 256

/-- Edges of the route between two dies, numbered as in R456: first along the row to the other column, then along the column
(R16). -/
def route (a b : Fin 4) : List Nat :=
  (if a.val % 2 = b.val % 2 then [] else [if a.val < 2 then 0 else 1]) ++
    (if a.val / 2 = b.val / 2 then [] else [if b.val % 2 = 0 then 2 else 3])

/-- The route with edges out of service gone round the other way of the square (R458). -/
def State.routeOf (s : State) (a b : Fin 4) : List Nat :=
  let p := route a b
  if p.any fun e => !s.card.edges.getLsbD e then [0, 1, 2, 3].filter fun e => !p.contains e else p

/-- The die of a Chainline port (R22). -/
def portDie (p : Nat) : Fin 4 := ⟨p / 3 % 4, Nat.mod_lt _ (by decide)⟩

/-- A port takes traffic to or from a die: it is in service, and no extension holds it or an edge of the route (R22, R423, R458). -/
def State.portTo (s : State) (p : Nat) (d : Fin 4) : Bool :=
  s.portFree p && (s.routeOf (portDie p) d).all fun e => !s.extensions.any fun x => x.1 == 3 && x.2.1.toNat == e

/-- Chainline takes traffic of a die: not in a major slot (R343), and over some port. -/
def State.chainFree (s : State) (d : Fin 4) : Bool := !(s.slotNow && s.majorSlot) && (List.range 12).any fun p => s.portTo p d

/-- The leaf of a page table entry at a level that maps 2^lg bytes (R254). -/
def leafOf (job : Word) (va lg e : Nat) : Except FaultCode TlbEntry :=
  let pa := bits e 47 16 * 65536
  let key := bits e 59 48
  let dm := bits e 61 60
  let nc := bits e 4 4 == 1
  if bits e 15 8 != 0 || bits e 3 0 != 0 || dm ≥ 2 then .error .translation
  else if pa % 2 ^ lg != 0 then .error .translation
  else if !isHost pa && decide (pa + 2 ^ lg > Config.hbmBytes) then .error .translation
  else if isHost pa && (!nc || key != 0 || dm != 0) then .error .translation
  else .ok { job, vpage := va / 2 ^ lg, lg, pbase := pa, dm := BitVec.ofNat 2 dm, key := BitVec.ofNat 12 key,
             w := bits e 7 7 == 1, r := bits e 6 6 == 1, x := bits e 5 5 == 1, nc }

/-- The levels of R253: lowest bit indexed, bits, whether an entry may be a leaf, whether it must be. -/
def levels : List (Nat × Nat × Bool × Bool) :=
  [(44, 12, false, false), (33, 11, true, false), (27, 6, true, false), (21, 6, true, false), (16, 5, true, true)]

/-- A walk from a table (R253, R254). DESIGN CHOICE (log 59): R254 names no key slot under which entries are read; the walk reads them as
they were written, whatever key seals their line. -/
def walkFrom (s : State) (job : Word) (va : Nat) : Nat → List (Nat × Nat × Bool × Bool) → Except FaultCode TlbEntry
  | _, [] => .error .translation
  | table, (lo, n, may, must) :: rest =>
    let ea := table + 8 * (va / 2 ^ lo % 2 ^ n)
    let e := natOfBytes (s.mem.bytes ea 8)
    if s.mem.poisoned ea 8 || bits e 63 63 == 0 then .error .translation
    else if bits e 62 62 == 1 then
      if may then leafOf job va lo e else .error .translation
    else if must then .error .translation
    else if bits e 61 48 != 0 || bits e 15 0 != 0 || decide (bits e 47 16 * 65536 ≥ Config.hbmBytes) then
      .error .translation
    else walkFrom s job va (bits e 47 16 * 65536) rest

def pageWalk (s : State) (j : Job) (va : Nat) : Except FaultCode TlbEntry :=
  walkFrom s j.no va j.ptroot levels

/-- A leaf of a cache that maps an address. -/
def tlbFind (l : List TlbEntry) (job : Word) (va : Nat) : Option TlbEntry :=
  l.find? fun e => e.job == job && e.vpage == va / 2 ^ e.lg

/-- The leaf of an address: the caches of R255 first, then a walk. -/
def lookupLeaf (s : State) (core : Option Core) (d : Fin 4) (j : Job) (va : Nat) : Except FaultCode TlbEntry :=
  let own := match core with
    | some t => tlbFind (s.core t).tlb j.no va
    | none => none
  match own with
  | some e => .ok e
  | none =>
    match tlbFind (s.die d).tlb j.no va with
    | some e => .ok e
    | none => pageWalk s j va

/-- A page overlaps a range reserved by RESERVE-DET (R252, R283). -/
def reservedPage (s : State) (pa lg : Nat) : Bool :=
  s.dies.toList.any fun d =>
    let hit := fun (b len : Nat) => d.reserved && decide (pa < b + len) && decide (b < pa + 2 ^ lg)
    hit d.identity 0x180000000 || hit d.directory 0x10000000 || hit d.merge 0x40000000

/-- Translation of an address for an access (R253, R254). -/
def translate (s : State) (core : Option Core) (d : Fin 4) (j : Job) (va : Nat) (acc : Access) : Except FaultCode Leaf :=
  if va ≥ 2 ^ 56 then .error .translation
  else
    match lookupLeaf s core d j va with
    | .error c => .error c
    | .ok e =>
      let ok := match acc with
        | .read => e.r | .write => e.w | .fetch => e.x
      let pa := e.pbase + va % 2 ^ e.lg
      if !ok then .error .protection
      else if reservedPage s e.pbase e.lg then .error .protection
      else if !isHost pa && (s.keys.find? fun k => k.1 == e.key).isNone then .error .protection
      else .ok { pa, dm := e.dm, key := e.key, nc := e.nc }

/-! Physical memory: encryption (R257), tracked lines (R249), own writes first (R299). -/

def State.keyOf (s : State) (k : BitVec 12) : Option (BitVec 512) :=
  (s.keys.find? fun x => x.1 == k).map Prod.snd

/-- A byte of physical memory read under a key slot. -/
def State.plain (s : State) (key : BitVec 12) (a : Nat) : Byte :=
  if isHost a then s.mem.get a
  else
    match lookupNat s.seals (a / 128), s.keyOf key with
    | some k, some k' =>
      if k = k' then s.mem.get a
      else (recode k k' (a / 32) (s.mem.bytes (a / 32 * 32) 32)).getD (a % 32) 0
    | _, _ => s.mem.get a

/-- Bytes and poison of physical memory as they stand. -/
def State.readPhys (s : State) (key : BitVec 12) (a n : Nat) : List Byte × Bool :=
  ((List.range n).map fun i => s.plain key (a + i), s.mem.poisoned a n)

/-- A read of an agent must wait: a write to the bytes, or poison on its way to their granules, that it is bound to see, its own among
them, is not yet applied at its home (R299, R303, R310, R313). -/
def State.awaits (s : State) (me : Agent) (v : View) (a n : Nat) : Bool :=
  s.pending.any fun p => (p.agent == me || v.ids.contains p.id) &&
    (overlap p.addr p.bytes.length a n ||
      ((p.poison || p.mixed.any id) && (granules a n).any fun g => (granules p.addr p.bytes.length).contains g))

/-- The phase order of R249, over the low 8 bits by modular difference (R251). -/
def newerPhase (a b : Word) : Bool := let d := (a.toNat % 256 + 256 - b.toNat % 256) % 256; decide (0 < d) && decide (d < 128)

/-- `a` precedes `b` in the order of R248 within a phase. -/
def WriterId.precedes (a b : WriterId) : Bool :=
  if a.launch != b.launch then decide (a.launch.toNat < b.launch.toNat)
  else if a.strand != b.strand then decide (a.strand.toNat < b.strand.toNat)
  else if a.eng != b.eng then decide (a.eng.toNat < b.eng.toNat)
  else decide (a.seq < b.seq)

/-- One writer (R249), of phases that a tag does not tell apart (R251). -/
def WriterId.same (a b : WriterId) : Bool :=
  (a.phase.setWidth 8 : BitVec 8) == b.phase.setWidth 8 && a.launch == b.launch && a.strand == b.strand && a.eng == b.eng

/-- Whether a tracked write loses to the line's tag (R249), or is dropped under R252 (`now` is its die's phase). -/
def losesTo (w : WriterId) (tag : Option WriterId) (now : Word) : Bool :=
  match tag with
  | none => false
  | some t =>
    let one := (t.phase.setWidth 8 : BitVec 8) == w.phase.setWidth 8
    newerPhase t.phase w.phase || (one && !w.same t && w.precedes t) || (one && newerPhase now (w.phase + 1))

/-- A line of HBM brought under the key of a write (R257): its bytes re-read under that key. -/
def State.sealLine (s : State) (key : BitVec 12) (line : Nat) : State :=
  match s.keyOf key with
  | none => s
  | some k =>
    let bs := (List.range 128).map fun i => s.plain key (128 * line + i)
    let s' := { s with seals := insertNat s.seals line k }
    match lookupNat s.seals line with
    | some k0 => if k0 = k then s' else { s' with mem := s'.mem.setBytes (128 * line) bs }
    | none => s'

/-! Shared SRAM (R244 to R247). -/

/-- The slice of its die's shared SRAM that holds an address (R244). -/
def sliceOf (pa : Nat) : Nat := bits pa 13 7 ^^^ bits pa 20 14 ^^^ bits pa 27 21

/-- A slice as R456 numbers it. -/
def sliceUnit (pa : Nat) : Nat := Config.sramSlices * (homeDie pa).val + sliceOf pa

/-- Entries of a writer directory (R251). -/
def directorySize : Nat := 16777215

/-- A line's tag goes to the identity table of its home die, its writer to the directory of the phase's parity, where both are
reserved (R251): none when the directory is full. DESIGN CHOICE (log 71): the entry of a line without a tag has ph8 = 0. -/
def spillTag (s : State) (line : Nat) : Option State :=
  let d := homeDie (128 * line)
  let k := s.die d
  let entry := fun (s : State) (v : Nat) =>
    { s with mem := s.mem.setBytes (k.identity + 4 * (128 * line % Config.dieBytes / 128)) (bytesOfNat 4 v) }
  if !k.reserved then some s
  else
    match lookupNat s.tags line with
    | none => some (entry s 0xFFFFFF)
    | some w =>
      let mine := k.writers.filter fun x => x.phase.toNat % 2 == w.phase.toNat % 2
      let i := (mine.findIdx? fun x => x.same w).getD mine.length
      let new := !mine.any fun x => x.same w
      if new && decide (i ≥ directorySize) then none
      else
        let dir := k.directory + w.phase.toNat % 2 * 0x8000000 + 8 * i
        let s1 := if new then s.updDie d fun k => { k with writers := k.writers ++ [{ w with seq := 0 }] } else s
        let s2 := { s1 with tags := insertNat s1.tags line { w with seq := 0 }
                            mem := s1.mem.setBytes dir (bytesOfNat 8 (w.launch.toNat * 2 ^ 32 + w.strand.toNat * 256 + w.eng.toNat * 32)) }
        some (entry s2 (w.phase.toNat % 256 * 2 ^ 24 + i))

/-- The line as shared SRAM holds it. -/
def State.resident (s : State) (line : Nat) : Option SramLine := s.sram.find? fun x => x.line == line

/-- A granule's poison changes where it lies, by no write: every reader finds it so (R258). -/
def State.repoison (s : State) (g : Nat) (b : Bool) : State :=
  let off := fun (l : List Nat) => l.filter fun x => x != g
  { s with
    mem := { s.mem with poison := if b then natInsert s.mem.poison g else off s.mem.poison }
    past := s.past.map fun u =>
      if u.touches g then { u with oldPoison := if b then natInsert u.oldPoison g else off u.oldPoison, sets := off u.sets, clears := off u.clears }
      else u }

/-- A line leaves shared SRAM (R251); it stays where its tag has no place in the directory. A line not written since it came is not
written back: the poison of the HBM below it shows (R258). -/
def State.evict (s : State) (line : Nat) : State :=
  match s.resident line, spillTag s line with
  | some x, some s1 =>
    let s2 := { s1 with sram := s1.sram.filter fun y => y.line != line }
    if x.dirty then s2
    else (List.range 4).foldl (fun s i =>
      let b := x.below.contains (4 * line + i)
      if s.mem.poison.contains (4 * line + i) == b then s else s.repoison (4 * line + i) b) s2
  | _, _ => s

/-- A line comes into its slice under a key slot (R244, R245): where the slice holds it under another slot, it is written back first
(R257); where its set is full, a line of the set that a free value names leaves first. A slice declared lasting holds no lines (R458). -/
def State.fill (s : State) (key : BitVec 12) (line : Nat) : State :=
  let pa := 128 * line
  if (s.resident line).any (fun x => x.key == key) || isHost pa || s.lasting.contains (2, sliceUnit pa) || s.lasting.contains (3, sliceUnit pa)
  then s
  else
    let add := fun (s : State) =>
      if (s.resident line).isSome then s
      else { s with sram := ⟨line, key, false, (List.range 4).filterMap fun i =>
        if s.mem.poison.contains (4 * line + i) then some (4 * line + i) else none⟩ :: s.sram }
    let s := s.evict line
    let slice := s.sram.filter fun x => sliceUnit (128 * x.line) == sliceUnit pa
    if slice.length < Config.sramWays then add s
    else
      let ways := slice.filter fun x => Config.setOf x.line == Config.setOf line
      if ways.length < Config.sramWays then add s
      else
        let (v, s1) := s.draw
        let s2 := s1.evict ((ways[v.toNat % ways.length]?.map fun x => x.line).getD 0)
        if s2.sram.length < s1.sram.length then add s2 else s2

/-- Lines of a job's bytes that an agent has read come in (R245). -/
def State.touchRange (s : State) (core : Option Core) (d : Fin 4) (j : Job) (va n : Nat) : State :=
  (pieces 128 (n / 128 + 2) va (List.replicate n ())).foldl (fun s p =>
    match lookupLeaf s core d j p.1 with
    | .ok e => if e.nc then s else s.fill e.key ((e.pbase + p.1 % 2 ^ e.lg) / 128)
    | .error _ => s) s

/-- A cacheable access brings its line in (R245); a non-cacheable write first sends a resident line back (R246). -/
def State.touch (s : State) (l : Leaf) (write : Bool) : State :=
  if l.nc then (if write then s.evict (l.pa / 128) else s) else s.fill l.key (l.pa / 128)

/-- The line of an address is written in shared SRAM: what lies below it is written back over (R245, R258). -/
def State.soil (s : State) (line : Nat) : State :=
  { s with sram := s.sram.map fun x => if x.line == line then { x with dirty := true } else x }

/-- A request hits shared SRAM: the line is there under the request's key slot (R247, R257). -/
def State.hits (s : State) (l : Leaf) : Bool := !l.nc && (s.resident (l.pa / 128)).any fun x => x.key == l.key

/-- The access of a page walk, or of the holder of an address alone: a resident line serves it, whatever its key slot (log 59). -/
def State.anyLeaf (s : State) (pa : Nat) : Leaf := ⟨pa, 0, ((s.resident (pa / 128)).map fun x => x.key).getD 0, false⟩

/-! Granule states (R277): none SETTLED, some false PENDING, some true OPEN. -/

def granuleState (j : Job) (rec g : Nat) : Option Bool :=
  (j.granules.find? fun x => x.1 == rec && x.2.1 == g).map (·.2.2)

def setGranule (s : State) (job : Word) (rec g : Nat) (v : Option Bool) : State :=
  s.updJob job fun j =>
    let rest := j.granules.filter fun x => !(x.1 == rec && x.2.1 == g)
    { j with granules := match v with | some b => (rec, g, b) :: rest | none => rest }

/-- A store of bytes with their own poison, granule by granule (R258). -/
def Mem.storeRun (m : Mem) (a : Nat) (bs : List (Byte × Bool)) : Mem :=
  (pieces 32 (bs.length / 32 + 2) a bs).foldl (fun m p => m.store p.1 (p.2.map Prod.fst) (p.2.any Prod.snd)) m

/-- The bytes of a write with their poison. -/
def Pending.run (p : Pending) : List (Byte × Bool) :=
  p.bytes.zipIdx.map fun x => (x.1, p.mixed.getD x.2 p.poison)

/-! Writes applied at their home (R245, R249, R258). -/

/-- What a write is about to write over is kept for the agents that are not bound to see it (R299); a write that is `lost` writes
nothing, but its own agent reads nothing older (R249, R299). -/
def State.note (s : State) (p : Pending) (lost : Bool := false) : State :=
  let u := s.mem.noted (s.plain p.key) p.id s.applied p.agent p.clock p.carried p.addr p.run
  { s with past := if s.tracks then (if lost then { u with sets := [], clears := [], lost := true } else u) :: s.past else []
           applied := s.applied + 1 }

/-- A Stamp that changes its byte leaves its granule PENDING (R277). -/
def State.markStamp (s : State) (p : Pending) : State :=
  match p.stamp with
  | some q => if q.opened || s.plain p.key p.addr == p.bytes.headD 0 then s else setGranule s q.job q.record q.granule (some false)
  | none => s

/-- A write applied at its home, bytes within one line: it resolves against the line's tag (R249), and agents that are not bound to
see it may still read what it wrote over (R299). `now` is the phase of its die. The tag of a line that shared SRAM does not hold goes
to the identity table at once (R251, R458). -/
def State.applyWrite (s : State) (p : Pending) (now : Word) (merging : Bool := false) : State :=
  let s := s.markStamp p
  if isHost p.addr then
    let s1 := s.note p
    { s1 with mem := s1.mem.storeRun p.addr p.run }
  else
    let line := p.addr / 128
    let tag := lookupNat s.tags line
    let lose := match p.wid with
      | some w =>
        if merging then (match tag with | some t => newerPhase t.phase w.phase | none => false) else losesTo w tag now
      | none => false
    if lose then s.note p true
    else
      let s1 := (((s.touch ⟨p.addr, 0, p.key, p.nc⟩ true).sealLine p.key line).note p).soil line
      let tags := match p.wid, tag with
        | some w, some t => insertNat s1.tags line (if merging && t.phase == w.phase && w.precedes t then t else w)
        | some w, none => insertNat s1.tags line w
        | none, _ => s1.tags
      let s2 := { s1 with mem := s1.mem.storeRun p.addr p.run, tags }
      if p.wid.isSome && (s2.resident line).isNone then (spillTag s2 line).getD s2 else s2

/-- A write takes its number and its die's clock (R248, R309). -/
def State.number (s : State) (me : Agent) (c : Carried) (l : Leaf) (bs : List Byte) (poison : Bool) (wid : Option WriterId) :
    Pending × State :=
  ({ id := s.writes, agent := me, clock := (s.die me.die).clock, carried := c, addr := l.pa, bytes := bs, poison, key := l.key,
     nc := l.nc, wid },
   { s.updDie me.die fun k => { k with wrote := true } with writes := s.writes + 1 })

/-- A write of an agent applied in the step that makes it. -/
def State.writeNow (s : State) (me : Agent) (l : Leaf) (bs : List Byte) (poison : Bool) (wid : Option WriterId) (now : Word)
    (merging : Bool := false) : State :=
  let (p, s1) := s.number me {} l bs poison wid
  s1.applyWrite p now merging

/-- The writer of a store would need an entry in a full directory (R252). -/
def directoryFull (s : State) (pa : Nat) (wid : Option WriterId) : Bool :=
  match wid with
  | none => false
  | some w =>
    let mine := (s.die (homeDie pa)).writers.filter fun x => x.phase.toNat % 2 == w.phase.toNat % 2
    decide (mine.length ≥ directorySize) && !mine.any (·.same w)

/-- Bytes written by an agent of a job at once (units of 64 bytes, R280), page by page: the state with what was
written before a failure, and the failure; a full directory drops the unit that needs an entry (R252). -/
def State.writeAs (s : State) (me : Agent) (core : Option Core) (j : Job) (va : Nat) (bs : List Byte) (poison : Bool)
    (wid : Option WriterId) : State × Option FaultCode :=
  (pieces 64 (bs.length / 64 + 2) va bs).foldl (fun (r : State × Option FaultCode) (p : Nat × List Byte) =>
    match r.2 with
    | some _ => r
    | none =>
      match translate r.1 core me.die j p.1 .write with
      | .error c => (r.1, some c)
      | .ok l =>
        let w := if l.dm == 1 then wid else none
        if directoryFull r.1 l.pa w then (r.1, some .detIllegal)
        else (r.1.writeNow me l p.2 poison w j.phase, none)) (s, none)

/-- Bytes written by an agent of a die that is no strand's. -/
def State.agentWrite (s : State) (core : Option Core) (d : Fin 4) (j : Job) (va : Nat) (bs : List Byte) (poison : Bool)
    (wid : Option WriterId) : State × Option FaultCode := s.writeAs (dieAgent d) core j va bs poison wid

/-- Bytes read by an agent of a job, unit by unit. -/
def State.agentRead (s : State) (core : Option Core) (d : Fin 4) (j : Job) (va n : Nat) : Except FaultCode (List Byte × Bool) :=
  (pieces 64 (n / 64 + 2) va (List.replicate n ())).foldl (fun r p =>
    match r with
    | .error c => .error c
    | .ok (bs, q) =>
      match translate s core d j p.1 .read with
      | .error c => .error c
      | .ok l => let (b, q') := s.readPhys l.key l.pa p.2.length; .ok (bs ++ b, q || q')) (.ok ([], false))

/-- The die whose front end and supervisor act for the package (R372). -/
def State.leaderDie (s : State) : Fin 4 := s.leader.getD 0

/-- A 64-bit word of a job's memory read by the leader. -/
def State.jobWord (s : State) (j : Job) (va : Nat) : Except FaultCode (Nat × Bool) :=
  match s.agentRead none s.leaderDie j va 8 with
  | .ok (b, q) => .ok (natOfBytes b, q)
  | .error c => .error c

/-- A local address (R262). -/
def isLocal (a : Nat) : Bool := decide (a < Config.spadBytes)

/-! Requests and the slots (R155, R247, R293, R294, R312, R423). -/

/-- STRICT refuses a request that is not local, made in a drain lead or slot, at its issue (R155, R294). -/
def strictGate (s : State) (mode : BitVec 1) : Except Halt Unit := need (!(s.slotNow && mode == 1)) .slotIntrusion

/-- A drain lead or slot holds a request made from a die (R247, R293). -/
def slotHolds (s : State) (d : Fin 4) (l : Leaf) : Bool :=
  s.slotNow && (l.nc || isHost l.pa || (s.majorSlot && homeDie l.pa != d) || !s.hits l)

/-- An extension holds a request made from a die: of a stack, an edge of its route, or the Fepel Link (R423). DESIGN CHOICE (log 67): a
request to the host window waits for ever once the Fepel Link is out of service, since no host path is left (R22). -/
def extensionHolds (s : State) (d : Fin 4) (l : Leaf) : Bool :=
  (isHost l.pa && !s.card.fepel) || s.extensions.any fun x => match x.1.toNat with
    | 6 => !isHost l.pa && !s.hits l && stackOf l.pa == x.2.1.toNat
    | 3 => (s.routeOf d (homeDie l.pa)).contains x.2.1.toNat
    | 5 => isHost l.pa
    | _ => false

/-- The holder of a held request still waits on it: an engine, a command, a context's write, a write under way, or a COPY or FILL. -/
def stillHeld (s : State) (x : Held) : Bool :=
  match x.who with
  | .write id => s.pending.any fun p => p.id == id
  | .work h => s.copies.any fun c => c.handle == h && c.held
  | .queue q => frontEndActs s && s.queues.any fun k => k.q == q && !k.halted && (!k.batch.isEmpty || decide (k.unread > 0))
  | .launch h => frontEndActs s && s.launches.any fun l => l.handle == h
  | .job n => frontEndActs s && s.jobs.any fun j => j.no == n
  | .edge g e => s.graphs.any fun x => x.handle == g && x.batches.any fun b => b.edge == e && decide (b.cur.length ≥ b.bsize)
  | .part t part =>
    match s.strand t with
    | none => false
    | some st =>
      if part < 5 then Eng.all.any fun e => e.part == part && match (st.eng e).wait with | some (.held _) => true | _ => false
      else if part < 8 then st.stop.any fun r => r.checked && !r.saving
      else if part % 2 = 0 then st.asyncs.any fun a => 8 + 2 * a.seq == part && a.held
      else st.cmds.any fun c => 9 + 2 * c.ticket.toNat == part && c.held

/-- A held request's turn has come: every request held before it has been issued, or an extension still holds it (R312, R423). -/
def mayIssue (s : State) (who : Holder) : Bool :=
  !s.holds.any (fun x => x.who == who) ||
    (s.holds.takeWhile fun x => x.who != who).all fun x => !stillHeld s x || extensionHolds s x.die (s.anyLeaf x.addr)

/-- A request joins those held, at the end; one held before keeps its place (R312). -/
def State.hold (s : State) (who : Holder) (die : Fin 4) (addr : Nat) : State :=
  let live := s.holds.filter (stillHeld s)
  { s with holds := if live.any fun x => x.who == who then live else live ++ [⟨who, die, addr⟩] }

/-- A request of a part of a strand, made now: it waits while a slot, an extension, or requests held before it hold it. -/
def requestGate (s : State) (t : Core) (part : Nat) (l : Leaf) : Except Halt Unit :=
  if slotHolds s (dieOf t) l || extensionHolds s (dieOf t) l || !mayIssue s (.part t part) then await (.held l.pa) else .ok ()

/-- A request of an agent of a die that is no strand's, at an address: it is held now (R247, R420, R423). -/
def agentHeld (s : State) (d : Fin 4) (who : Holder) (l : Leaf) : Bool := slotHolds s d l || extensionHolds s d l || !mayIssue s who

/-- A write under way is held at the point that it has reached: at a slice or a link in a slot's body, a Stamp from the drain lead on
(R247, R383, R420), by an extension (R423), or behind requests held before it (R312). -/
def writeHeld (s : State) (p : Pending) : Bool :=
  let l : Leaf := ⟨p.addr, 0, p.key, p.nc⟩
  ((p.stamp.isSome || s.inBody) && slotHolds s p.agent.die l) || extensionHolds s p.agent.die l || !mayIssue s (.write p.id)

/-- A view covers a write under way that is held, or that was and is not yet issued (R312). -/
def State.coversHeld (s : State) (v : View) : Bool :=
  s.pending.any fun p => v.ids.contains p.id && (writeHeld s p || s.holds.any fun x => x.who == .write p.id)

/-- The entries that a walk for an address reads: none where a cache holds the leaf (R253, R255). -/
def walkReads (s : State) (core : Option Core) (d : Fin 4) (j : Job) (va : Nat) : List Nat :=
  if (core.bind fun t => tlbFind (s.core t).tlb j.no va).isSome || (tlbFind (s.die d).tlb j.no va).isSome || decide (va ≥ 2 ^ 56) then []
  else go va j.ptroot levels
where
  go (va : Nat) : Nat → List (Nat × Nat × Bool × Bool) → List Nat
    | _, [] => []
    | table, (lo, n, _, _) :: rest =>
      let ea := table + 8 * (va / 2 ^ lo % 2 ^ n)
      let e := natOfBytes (s.mem.bytes ea 8)
      ea :: (if bits e 63 63 == 1 && bits e 62 62 == 0 then go va (bits e 47 16 * 65536) rest else [])

/-- A walk's reads are cacheable requests, held in slots like any (R247, R255, R260). -/
def walkGate (s : State) (t : Core) (part : Nat) (j : Job) (va : Nat) : Except Halt Unit :=
  match (walkReads s (some t) (dieOf t) j va).find? fun pa => (requestGate s t part (s.anyLeaf pa)).toOption.isNone with
  | some pa => await (.held pa)
  | none => .ok ()

/-- The lines that a walk reads come into shared SRAM (R255), and a miss of the tile core's translation cache is counted (R446). -/
def touchWalk (s : State) (t : Core) (j : Job) (va : Nat) : State :=
  let s1 := (walkReads s (some t) (dieOf t) j va).foldl (fun s pa => s.touch (s.anyLeaf pa) false) s
  if (tlbFind (s.core t).tlb j.no va).isSome then s1 else s1.updStrand t (·.count 12 1)

/-- A scratchpad access of the strand (R237). -/
def State.beat (s : State) (t : Core) : State := s.updStrand t fun st => { st with splits := st.splits + 1 }

/-- Of bytes of a job that an agent of a die, or of a tile core on it, reads or writes in one step, the first address that a slot or an
extension holds: a line of them, or an entry that a walk for it reads (R247, R420, R423). -/
def State.heldAt (s : State) (core : Option Core) (d : Fin 4) (j : Job) (va n : Nat) : Option Nat :=
  let held := fun (l : Leaf) => slotHolds s d l || extensionHolds s d l
  if !s.slotNow && s.extensions.isEmpty && s.card.fepel then none
  else (pieces 128 (n / 128 + 2) va (List.replicate n ())).findSome? fun p =>
    ((walkReads s core d j p.1).find? fun pa => held (s.anyLeaf pa)).or (match lookupLeaf s core d j p.1 with
      | .ok e =>
        let l : Leaf := ⟨e.pbase + p.1 % 2 ^ e.lg, e.dm, e.key, e.nc⟩
        if held l then some l.pa else none
      | .error _ => none)

/-- Physical bytes that an agent of a die reads or writes: nothing holds them. -/
def agentFree (s : State) (d : Fin 4) (a n : Nat) : Bool :=
  (pieces 128 (n / 128 + 2) a (List.replicate n ())).all fun p =>
    !slotHolds s d (s.anyLeaf p.1) && !extensionHolds s d (s.anyLeaf p.1)

def State.unheld (s : State) (core : Option Core) (d : Fin 4) (j : Job) (va n : Nat) : Bool := (s.heldAt core d j va n).isNone

/-- A step of an agent of a die over ranges of a job: none where it may be taken now; else the state in which it has joined the requests
held (R247, R312, R423). -/
def State.gateStep (s : State) (who : Holder) (d : Fin 4) (rs : List (Job × Nat × Nat)) : Option State :=
  match rs.findSome? fun r => s.heldAt none d r.1 r.2.1 r.2.2 with
  | some pa => some (s.hold who d pa)
  | none => if mayIssue s who then none else some s

/-- A held step is issued. -/
def State.letGo (s : State) (who : Holder) : State := { s with holds := s.holds.filter fun x => x.who != who }

/-- The request at an address is the one that the engine waits on: it has been issued before (R294, R421). -/
def issuedBefore (s : State) (t : Core) (e : Eng) (j : Job) (va : Nat) : Bool :=
  match (s.strand t).bind fun st => (st.eng e).wait with
  | some (.held pa) => (walkReads s (some t) (dieOf t) j va).contains pa || match lookupLeaf s (some t) (dieOf t) j va with
    | .ok x => x.pbase + va % 2 ^ x.lg == pa
    | .error _ => false
  | _ => false

/-- STRICT at a request of an engine that may stand issued already. -/
def strictAt (s : State) (t : Core) (e : Eng) (mode : BitVec 1) (j : Job) (va : Nat) : Except Halt Unit :=
  if issuedBefore s t e j va then .ok () else strictGate s mode

/-! Reads and writes of a strand's engines. -/

/-- What an agent that reads and writes an element of scratchpad, or of memory, in one step finds there: the newest bytes. -/
def lookNow (m : Mem) (plain : Nat → Byte) (past : List Applied) (me : Agent) (a n : Nat) : Look :=
  { look m plain past me {} 0 a n with drew := false }

/-- A read of an engine has returned (R304, R305); a free value that chose is spent. -/
def State.looked (s : State) (t : Core) (e : Eng) (l : Look) : State :=
  let s1 := if l.drew then { s with draws := s.draws + 1 } else s
  s1.updStrand t fun st => st.updEng e fun g => g.read (st.agent t e.part) l.from_

/-- Scratchpad bytes read by an engine, indivisible up to 8 bytes (R299, R300). -/
def spadRead (s : State) (t : Core) (e : Eng) (a n : Nat) : State × List Byte × Bool :=
  let k := s.core t
  match k.strand with
  | none => (s, k.spad.bytes a n, k.spad.poisoned a n)
  | some st =>
    let l := look k.spad k.spad.get k.past (st.agent t e.part) (st.eng e).view (Config.freeValue s.draws) a n
    ((s.looked t e l).beat t, l.bytes, l.poison)

/-- One element read by an engine of the strand on a tile core (R262, R299): the state after, the bytes, poison. -/
def elemRead (s : State) (t : Core) (st : Strand) (e : Eng) (mode : BitVec 1) (va n : Nat) :
    Except Halt (State × List Byte × Bool) :=
  if isLocal va then .ok (spadRead s t e va n)
  else do
    match s.job? st.job with
    | none => raise .translation
    | some j =>
      strictAt s t e mode j va
      walkGate s t e.part j va
      match translate s (some t) (dieOf t) j va .read with
      | .error c => raise c
      | .ok l => do
        requestGate s t e.part l
        let v := match s.strand t with | some q => (q.eng e).view | none => {}
        let me := st.agent t e.part
        if s.awaits me v l.pa n then await .writes
        else
          let k := look s.mem (s.plain l.key) s.past me v (Config.freeValue s.draws) l.pa n
          .ok ((((touchWalk s t j va).touch l false).looked t e k), k.bytes, k.poison)

/-- Bytes read by an engine in pieces of at most 8 (R299). -/
def piecesRead (s : State) (t : Core) (st : Strand) (e : Eng) (mode : BitVec 1) (va n : Nat) :
    Except Halt (State × List Byte × Bool) :=
  (pieces 8 (n / 8 + 2) va (List.replicate n ())).foldlM (fun r p => do
    let (s1, b, q) ← elemRead r.1 t st e mode p.1 p.2.length
    .ok (s1, r.2.1 ++ b, r.2.2 || q)) (s, [], false)

/-- A piece read by a command of a strand, as its part number `part` (R300, R306): what the command is bound to see from now on, the
bytes, poison. -/
def partRead (s : State) (t : Core) (st : Strand) (part : Nat) (v : View) (va n : Nat) :
    Except Halt (State × View × List Byte × Bool) :=
  let me := st.agent t part
  let got := fun (s : State) (l : Look) =>
    (if l.drew then { s with draws := s.draws + 1 } else s,
     ({ v with ids := l.from_.foldl (fun ids u => natInsert ids u.id) v.ids } : View), l.bytes, l.poison)
  if isLocal va then
    let k := s.core t
    .ok (got (s.beat t) (look k.spad k.spad.get k.past me v (Config.freeValue s.draws) va n))
  else
    match s.job? st.job with
    | none => raise .translation
    | some j => do
      walkGate s t part j va
      match translate s (some t) (dieOf t) j va .read with
      | .error c => raise c
      | .ok l => do
        requestGate s t part l
        if s.awaits me v l.pa n then await .writes
        else .ok (got ((touchWalk s t j va).touch l false) (look s.mem (s.plain l.key) s.past me v (Config.freeValue s.draws) l.pa n))

/-- Scratchpad bytes as they stand replaced (R258). -/
def State.spadStore (s : State) (t : Core) (a : Nat) (bs : List Byte) (poison : Bool) : State :=
  s.updCore t fun k => { k with spad := k.spad.store a bs poison }

/-- Scratchpad bytes stored by an agent in one indivisible write: engines and commands that are not bound to see the store may still read
what it wrote over (R280, R299, R300). -/
def State.spadRuns (s : State) (me : Agent) (c : Carried) (runs : List (Nat × List (Byte × Bool))) : State :=
  let s1 := s.updCore me.core fun k => runs.foldl (fun k r =>
    { k with past := k.spad.noted k.spad.get s.writes s.applied me VClock.zero c r.1 r.2 :: k.past
             spad := k.spad.storeRun r.1 r.2 }) k
  { s1.beat me.core with writes := s.writes + 1, applied := s.applied + 1 }

def State.spadRun (s : State) (me : Agent) (c : Carried) (a : Nat) (bs : List (Byte × Bool)) : State := s.spadRuns me c [(a, bs)]

/-- Likewise, bytes of one poison. -/
def State.spadWrite (s : State) (me : Agent) (c : Carried) (a : Nat) (bs : List Byte) (poison : Bool) : State :=
  s.spadRun me c a (bs.map fun b => (b, poison))

/-- Marks a launch POISONED (R258, R453). -/
def State.markPoisoned (s : State) (h : Nat) : State := s.updLaunch h fun l => { l with poisoned := true }

/-- The identity of a strand's next write (R248). -/
def Strand.wid (st : Strand) (eng : BitVec 3) (seq : Nat) : WriterId :=
  { phase := st.phase, launch := st.launch, strand := st.index, eng, seq }

/-- One element stored by the access engine (R275, R299): scratchpad at once, memory as a pending write that carries the
die's clock (R309) and the releases of the engine's fences (R304). -/
def elemWrite (s : State) (t : Core) (st : Strand) (mode : BitVec 1) (va : Nat) (bs : List Byte) (poison : Bool) :
    Except Halt State :=
  let me := st.agent t Eng.a.part
  let rels := match s.strand t with | some q => q.a.sig.rels | none => {}
  if isLocal va then .ok (s.spadWrite me rels va bs poison)
  else do
    match s.job? st.job with
    | none => raise .translation
    | some j =>
      strictAt s t .a mode j va
      walkGate s t me.part j va
      match translate s (some t) (dieOf t) j va .write with
      | .error c => raise c
      | .ok l => do
        requestGate s t me.part l
        let seq := match s.strand t with | some q => q.seq | none => 0
        let (w, s1) := (touchWalk s t j va).number me rels l bs poison (if st.det && l.dm == 1 then some (st.wid 1 seq) else none)
        let s2 := { s1 with pending := s1.pending ++ [w] }.updStrand t fun q => { q with seq := q.seq + 1 }
        .ok (if poison && !isHost l.pa then s2.markPoisoned st.handle else s2)

/-! Release and acquire (R71, R298 to R305, R309). -/

/-- Release(scope) by an engine (R71, R309): its writes must be applied on the own die, or travel with their clock, none that it covers
may be held (R312), and at PACKAGE or SYSTEM scope the die's own epoch rises. The engine's later writes carry the release, for the
agents of its scope (R298, R304). The answer is what the release covers (R303). -/
def release (s : State) (t : Core) (e : Eng) (sc : Scope) : Except Halt (State × View) :=
  match s.strand t with
  | none => .ok (s, {})
  | some st =>
    let me := st.agent t e.part
    let v := s.covers me (st.eng e).view
    if (s.pending.any fun p => p.agent == me && (isHost p.addr || homeDie p.addr == dieOf t)) || s.coversHeld v
        || (sc.wide && !s.canRaise (dieOf t)) then
      await .writes
    else
      .ok ((if sc.wide then s.raiseEpoch (dieOf t) else s).updStrand t fun q => q.updEng e fun g =>
        { g with sig := { g.sig with rels := g.sig.rels.add sc v } }, v)

/-- A releasing fence: the engine's later pushes carry the release too (R305). -/
def fenceRelease (s : State) (t : Core) (e : Eng) (sc : Scope) : Except Halt State := do
  let (s1, v) ← release s t e sc
  .ok (s1.updStrand t fun st => st.updEng e fun g => { g with sig := { g.sig with pushes := g.sig.pushes.join v } })

/-- An engine is bound to see what a release covers (R303). -/
def State.bind (s : State) (t : Core) (e : Eng) (v : View) : State :=
  s.updStrand t fun st => st.updEng e fun g => { g with view := g.view.join v }

/-- An acquiring fence: the engine takes the releases that its reads have met, of the agents within its scope, and at PACKAGE or
SYSTEM scope its die takes their clocks (R298, R304, R309). -/
def fenceAcquire (s : State) (t : Core) (e : Eng) (sc : Scope) : State :=
  match s.strand t with
  | none => s
  | some st =>
    let m := (st.eng e).sig
    let s1 := s.bind t e (m.met.upTo sc)
    if sc.wide then s1.joinClock (dieOf t) m.metClock else s1

/-! Text (R73 to R78). -/

/-- Bytes read by the text fetch for an engine, under the strand's translation (R78): a miss is held by slots, and STRICT never
refuses it. -/
def fetchBytes (s : State) (t : Core) (st : Strand) (e : Eng) (acc : Access) (va n : Nat) : Except Halt (State × List Byte) :=
  match s.job? st.job with
  | none => raise .translation
  | some j => do
    walkGate s t e.part j va
    match translate s (some t) (dieOf t) j va acc with
    | .error c => raise c
    | .ok l =>
      requestGate s t e.part l
      let (b, p) := s.readPhys l.key l.pa n
      if p then raise .poisonSync else .ok ((touchWalk s t j va).touch l false, b)

/-- A word of text, or of the safe-point table, through the tile core's text cache (R78). -/
def cachedWord (s : State) (t : Core) (st : Strand) (e : Eng) (acc : Access) (va : Nat) : Except Halt (State × Word) :=
  match (s.core t).text.find? fun x => x.job == st.job && x.va == va with
  | some x => .ok (s, x.word)
  | none => (fetchBytes s t st e acc va 4).map fun x => (x.1, BitVec.ofNat 32 (natOfBytes x.2))

/-- The text word at an index, for an engine at a text-step count: what an engine of the strand has decoded on this pass (R77), else
what the text cache holds, else memory (R78). -/
def textWord (s : State) (t : Core) (st : Strand) (e : Eng) (pos i : Nat) : Except Halt (State × Word) :=
  match (s.strand t).bind fun q => lookupNat q.decoded pos with
  | some w => .ok (s, w)
  | none => do
    let (s1, w) ← cachedWord s t st e .fetch (st.textBase + 4 * i)
    .ok (s1.updStrand t fun q => { q with decoded := insertNat q.decoded pos w }, w)

/-- A text word ahead that the word at a text-step count checks (R99): one value for every engine of the pass (R77). -/
def aheadWord (s : State) (t : Core) (st : Strand) (e : Eng) (pos i : Nat) : Except Halt (State × Word) :=
  match (s.strand t).bind fun q => lookupNat q.points (2 * pos) with
  | some v => .ok (s, BitVec.ofNat 32 v)
  | none => do
    let (s1, w) ← cachedWord s t st e .fetch (st.textBase + 4 * i)
    .ok (s1.updStrand t fun q => { q with points := insertNat q.points (2 * pos) w.toNat }, w)

/-- 16 bytes of the safe-point table, for an engine at a text-step count; `k` tells the header from the entry (R77, R78, R399,
R401). -/
def tableWord (s : State) (t : Core) (st : Strand) (e : Eng) (pos k va : Nat) : Except Halt (State × Nat) :=
  match (s.strand t).bind fun q => lookupNat q.points (2 * pos + k) with
  | some v => .ok (s, v)
  | none => do
    let (s1, v) ← (List.range 4).foldlM (fun (r : State × Nat) i => do
      let (s1, w) ← cachedWord r.1 t st e .read (va + 4 * i)
      .ok (s1, r.2 + w.toNat * 2 ^ (32 * i))) (s, 0)
    .ok (s1.updStrand t fun q => { q with points := insertNat q.points (2 * pos + k) v }, v)

/-! The fault rule: taking a fault (R53 to R56, R69, R451). -/

/-- The record of R56 that stays: the earlier tick, then the lower tile core, then the lower engine. -/
def firstFault (a : FaultRec) (b : FaultRec) : FaultRec :=
  if a.tick != b.tick then (if a.tick.toNat < b.tick.toNat then a else b)
  else if a.core != b.core then (if a.core.toNat < b.core.toNat then a else b)
  else if b.eng.toNat < a.eng.toNat then b else a

/-- A running strand of a faulted launch issues nothing further (R54). -/
def Strand.stopByFault (st : Strand) (now : DWord) : Strand :=
  if st.dead54 then st else { st with dead54 := true, deadAt := now, stop := none }

/-- Its queues and commands are discarded once the tick has passed, in which its other engines may still find faults (R54, R56, R460); an
engine that waits at a held request keeps it, for it stands issued (R451, R460). -/
def Strand.discardQueues (st : Strand) : Strand :=
  { (st.allEngs fun g => { g with outcomes := [], wait := match g.wait with | some (.held a) => some (.held a) | _ => none }) with
    faults := [], c2a := [], c2v := [], c2m := [], c2x := [], a2c := [], v2c := [], x2c := [],
    a2v := [], v2a := [], m2v := [], cmds := [], aborted := st.aborted ++ st.cmds }

/-- Taking a fault: the launch is marked and recorded (R56, R437), its running strands stop (R54), its queued, unstarted
and stopped strands are discarded, its save slots freed (R416) and its pending merge pairs discarded (R451). -/
def takeFault (s : State) (h : Nat) (r : FaultRec) : State :=
  let freed : Word × List Nat := match s.launch? h with
    | some l => (l.job, l.stopped.map (fun x => x.slot) ++
        (s.strandsOf h).filterMap fun (x : Core × Strand) => x.2.stop.bind fun y => y.slot)
    | none => (0, [])
  let s1 := s.updLaunch h fun l =>
    { l with faulted := true, record := some (match l.record with | some q => firstFault q r | none => r),
             nflt := min (l.nflt + 1) (2 ^ 32 - 1), dealt := l.count, stopped := [] }
  let s2 := s1.allCores fun k =>
    { k with strand := k.strand.map fun st => if st.handle == h then st.stopByFault s.psc else st
             queue := k.queue.filter fun e => e.1 != h
             heldFor := if k.heldFor == some h then none else k.heldFor }
  let s3 := s2.updJob freed.1 fun j => { j with saveUsed := j.saveUsed.filter fun x => !freed.2.contains x }
  { s3 with pairs := s3.pairs.filter fun p => p.handle != h }

/-- The record of a fault raised by a word of an engine at its position (R437, R450). -/
def wordRecord (s : State) (t : Core) (st : Strand) (e : Eng) (rec : BitVec 3) (c : FaultCode) (pr : Precision) : FaultRec :=
  { code := c.bits, core := BitVec.ofNat 8 t.val, eng := rec,
    detail := if pr == .async then 0 else BitVec.ofNat 20 (st.eng e).pc, tick := s.psc, strand := st.index }

/-- The record of a fault found at a slice after the word completed (R450). -/
def sliceRecord (s : State) (me : Agent) (c : FaultCode) : FaultRec :=
  { code := c.bits, core := BitVec.ofNat 8 me.core.val, eng := 1, detail := 0, tick := s.psc, strand := me.strand }

/-- A write applied at its home; one that needs an entry in a full directory is dropped, and its launch ends (R252). -/
def State.applyOrDrop (s : State) (p : Pending) (now : Word) (merging : Bool := false) : State :=
  if directoryFull s p.addr p.wid then takeFault s p.agent.handle (sliceRecord s p.agent .detIllegal) else s.applyWrite p now merging

/-- Runs of bytes within one line written in one indivisible write by a command of a strand, as its part number `part`, at their home at
once: it waits for the gate of R309, and for a slot or an extension; a write that needs an entry in a full directory is dropped (R252). -/
def partRuns (s : State) (t : Core) (st : Strand) (part : Nat) (runs : List (Nat × List (Byte × Bool))) (wid : Option WriterId) :
    Except Halt State :=
  let me := st.agent t part
  let va := (runs.head?.map Prod.fst).getD 0
  if isLocal va then .ok (s.spadRuns me {} runs)
  else
    match s.job? st.job with
    | none => raise .translation
    | some j => do
      walkGate s t part j va
      match translate s (some t) (dieOf t) j va .write with
      | .error c => raise c
      | .ok l => do
        requestGate s t part l
        let w := if st.det && l.dm == 1 then wid else none
        if !s.gate (s.die (dieOf t)).clock then await .writes
        else if directoryFull s l.pa w then raise .detIllegal
        else
          let bad := fun (bs : List (Byte × Bool)) => bs.any Prod.snd
          let (p, s1) := (touchWalk s t j va).number me {} l [] false w
          let s2 := runs.foldl (fun s r => s.applyWrite
            { p with addr := l.pa + r.1 - va, bytes := r.2.map Prod.fst, poison := bad r.2,
                     mixed := if r.2.all Prod.snd then [] else r.2.map Prod.snd } j.phase) s1
          .ok (if runs.any (fun r => bad r.2) && !isHost l.pa then s2.markPoisoned st.handle else s2)

/-- Likewise, one run. -/
def partRun (s : State) (t : Core) (st : Strand) (part : Nat) (va : Nat) (bs : List (Byte × Bool)) (wid : Option WriterId) :
    Except Halt State := partRuns s t st part [(va, bs)] wid

/-- Likewise, bytes of one poison. -/
def partWrite (s : State) (t : Core) (st : Strand) (part : Nat) (va : Nat) (bs : List Byte) (poison : Bool) (wid : Option WriterId) :
    Except Halt State := partRun s t st part va (bs.map fun b => (b, poison)) wid

/-- A word of engine `e` raises a fault, recorded as detected by `rec`; the engine finds no other in that tick. -/
def wordFault (s : State) (t : Core) (e : Eng) (rec : BitVec 3) (c : FaultCode) (pr : Precision) : State :=
  match s.strand t with
  | some st => (takeFault s st.handle (wordRecord s t st e rec c pr)).updStrand t fun q =>
      { q.updEng e (fun g => { g with wait := none }) with faults := natInsert q.faults e.part }
  | none => s

/-! Passing words (R33, R34, R41). -/

/-- The least text-step count among the engines that have not passed END (R34). -/
def Strand.leastSteps (st : Strand) : Option Nat :=
  (Eng.all.filter fun e => !(st.eng e).ended).foldl (fun m e =>
    let k := (st.eng e).steps.toNat
    match m with | none => some k | some x => some (min x k)) none

/-- How far the count grows when the engine passes `len` words: not in the passes 1 to k − 1 of a REP (R41). -/
def Engine.growth (g : Engine) (len : Nat) : Nat :=
  match g.rep with
  | some r => if r.left > 1 then 0 else len
  | none => len

/-- The slip window stalls the engine before a word of `len` words (R34). -/
def Strand.slipStalled (st : Strand) (e : Eng) (len : Nat) : Bool :=
  match st.leastSteps with
  | none => false
  | some m => decide ((st.eng e).steps.toNat + (st.eng e).growth len > m + st.win.toNat)

/-- The engine's position on the common path, within a repetition too (R33, R41). DEDUCED (log 49): in the passes before the last,
whose count R41 holds still, a window word's position (R223) is that count and its place in the span, as on the last pass. -/
def Engine.pos (g : Engine) : Nat :=
  match g.rep with
  | some r => g.steps.toNat + (if r.left > 1 then r.off else 0)
  | none => g.steps.toNat

/-- The engine passes `len` text words in sequence, its own or another's (R33), counting within a repetition as R41 gives: the pass of a
body span ends with its last own word. -/
def Engine.pass (g : Engine) (len : Nat) (mine : Bool := true) : Engine :=
  let g1 := { g with steps := g.steps + BitVec.ofNat 64 (g.growth len), pc := g.pc + len, wait := none, progress := 0, latch := none
                     sources := [], woken := none }
  match g.rep with
  | none => g1
  | some r =>
    let own := if mine then r.own + 1 else r.own
    if own < r.n then { g1 with rep := some { r with off := r.off + len, own } }
    else if r.left > 1 then { g1 with rep := some { r with off := 0, own := 0, left := r.left - 1 }, pc := r.first }
    else { g1 with rep := none }

/-- The engine goes to a text index after a strand-wide word (R33). -/
def Engine.goto (g : Engine) (pc : Nat) : Engine :=
  { g with steps := g.steps + 1, pc := pc, wait := none, progress := 0, latch := none }

/-- Window words whose engine has completed them leave the ledger (R223), and words that every engine has passed leave the log of
the pass (R77). -/
def Strand.trimLedger (st : Strand) : Strand :=
  let least := st.leastSteps.getD (2 ^ 64)
  { st with ledger := st.ledger.filter fun l => decide ((st.eng l.owner).steps.toNat ≤ l.pos) && !(st.eng l.owner).ended
            decoded := st.decoded.filter fun x => decide (least ≤ x.1)
            points := st.points.filter fun x => decide (2 * least ≤ x.1) }

/-- A wait on a held request (R247, R293). -/
def Wait.isHeld : Wait → Bool
  | .held _ => true
  | _ => false

/-- The engine waits; a request that a slot holds joins the requests held (R312), and is counted (R446) unless it is the text fetch that
another engine waits on too (`shared`, R77). -/
def setWaitOn (shared : Bool) (s : State) (t : Core) (e : Eng) (w : Wait) : State :=
  let s1 := match w with
    | .held a => s.hold (.part t e.part) (dieOf t) a
    | _ => s
  s1.updStrand t fun st =>
    let again := shared || match (st.eng e).wait with | some x => x.isHeld | none => false
    let st1 := if w.isHeld && s.slotNow && !again then st.count 9 1 else st
    st1.updEng e fun g => { g with wait := some w }

/-- The engine waits at its word. -/
def setWait (s : State) (t : Core) (e : Eng) (w : Wait) : State := setWaitOn false s t e w

/-- The engine passes its word of `len` text words, counted as executed (R446). -/
def passWord (s : State) (t : Core) (e : Eng) (len : Nat) : State :=
  s.updStrand t fun st => ((st.updEng e fun g => g.pass len).count (engCounter e) 1).trimLedger

/-- The engine's word stays begun: what it has popped so far, and whether any effect of it stands (R415). -/
def keepBegun (old s : State) (t : Core) (e : Eng) : State :=
  match old.strand t, s.strand t with
  | some a, some b =>
    match (b.eng e).latch with
    | none => s
    | some l =>
      let fell := fun {α : Type} (x y : List α) => x.take (x.length - y.length)
      let still := old.writes == s.writes && a.a2c == b.a2c && a.a2v == b.a2v && a.m2v == b.m2v && old.jobs == s.jobs
        && old.pairs == s.pairs && a.deltas == b.deltas
      let p := l.popped
      let l1 := { l with popped := (p.1 ++ fell a.c2a b.c2a, p.2.1 ++ fell a.c2m b.c2m, p.2.2 ++ fell a.v2a b.v2a)
                         moved := l.moved || !still }
      s.setStrand t (b.updEng e fun g => { g with latch := some l1 })
  | _, _ => s

/-- A word of an engine, run in the tile core in focus: the slip window first (R34), then its meaning; it passes, waits or
takes a fault recorded as detected by `rec`. -/
def runAs (e : Eng) (rec : BitVec 3) (len : Nat) (f : State → Core → Strand → WordResult) (s : State) : Out :=
  let t := s.focusTile
  match s.strand t with
  | none => .refused .noStrand
  | some st =>
    if st.slipStalled e len then .next (setWait s t e .slip)
    else
      match f s t st with
      | .done s' => .next (passWord s' t e len)
      | .stay w s' => .next (setWait (keepBegun s s' t e) t e w)
      | .trap c pr s' => .next (wordFault s' t e rec c pr)

/-- A word of an engine over the whole machine. -/
def machineWord (e : Eng) (len : Nat) (f : State → Core → Strand → WordResult) (s : State) : Out :=
  runAs e e.tag len f s

/-- A word of an engine that checks everything before its effect and may read or change the whole machine. -/
def checkedWord (e : Eng) (len : Nat) (f : State → Core → Strand → Except Halt State) (s : State) : Out :=
  machineWord e len (fun s t st => WordResult.of s (f s t st)) s

/-- A word of an engine whose effect lies within the strand. -/
def strandWord (e : Eng) (len : Nat) (f : Strand → Except Halt Strand) (s : State) : Out :=
  checkedWord e len (fun s t st => (f st).map fun st' => s.setStrand t st') s

/-- A word whose meaning places its engine itself (strand-wide words, REP); a fault is recorded as detected by `rec`. -/
def placedWord (e : Eng) (rec : BitVec 3) (f : State → Core → Strand → Eng → Except Halt State) (s : State) : Out :=
  let t := s.focusTile
  match s.strand t with
  | none => .refused .noStrand
  | some st =>
    if st.slipStalled e 1 then .next (setWait s t e .slip)
    else
      match f s t st e with
      | .ok s' => .next (s'.updStrand t fun q => (q.count (engCounter e) 1).trimLedger)
      | .error (.wait w) => .next (setWait s t e w)
      | .error (.fault c) => .next (wordFault s t e rec c .atWord)

/-- A strand-wide word executed by the engine in focus (R171 to R179); a fault is recorded as detected by the control
engine (R76). -/
def flowWord (f : State → Core → Strand → Eng → Except Halt State) (s : State) : Out :=
  placedWord s.focusEng 0 f s

end Sys2Proof.Machine
end

