-- ==== Sys2Proof/Machine/Time.lean ====
section
/-! DEFINITION. The passing of ticks: `psc` (R417), `spdist` (R63), performance counters (R446), exchange timeouts (R338),
the leader lease (R371) and the waits that ageing counts (R59). -/

namespace Sys2Proof.Machine

/-- Ticks below `n` that lie in a slot body (R417). -/
def bodyTicksBelow (n : Nat) : Nat :=
  let r := n % Config.majorPeriod
  let q := r / Config.minorPeriod
  n / Config.majorPeriod * 92928 +
    (if q = 0 then min r Config.majorLen
     else Config.majorLen + (q - 1) * Config.minorLen + min (r % Config.minorPeriod) Config.minorLen)

/-- Of the `dt` ticks from `a`, those outside every slot body, catch-up slot included (R63, R338, R426): a slot that starts before the
catch-up slot has ended does not run. -/
def freeTicks (a dt catchUp : Nat) : Nat :=
  let e := a + dt
  let next := (catchUp + Config.minorPeriod - 1) / Config.minorPeriod * Config.minorPeriod
  let b := max a (min e next)
  (min e next - max a catchUp) + (e - b - (bodyTicksBelow e - bodyTicksBelow b))

/-- A wait that only another engine of the strand can end (R42). `named` tells whether an outstanding command of the
strand will increment a strand semaphore. -/
def Wait.internal (w : Wait) (named : BitVec 5 → Bool) (headBlocked : Bool) : Bool :=
  match w with
  | .push => true | .pop => true | .outcomeFull => true | .outcomeEmpty => true | .slip => true
  | .sem n _ => !named n
  | .window => true | .resume => true | .positional => true
  | .commandSlot => headBlocked
  | .dieSem _ _ => false | .copySlot => false | .writes => false | .held _ => false | .compactor => false

/-- Field of a collective command (R329). -/
def cmdField (b : BitVec 512) (hi lo : Nat) : Nat := bits b.toNat hi lo

/-- The strand semaphore and threshold that a command waits on, once it has started (R321, R332). -/
def XCmd.waitsOn (c : XCmd) : Option (BitVec 5 × Word) :=
  if c.active && c.kind == 0 && cmdField c.body 200 200 == 1 && cmdField c.body 211 211 == 0 && !c.waited then
    some (BitVec.ofNat 5 (cmdField c.body 210 201), BitVec.ofNat 32 (cmdField c.body 383 352))
  else none

/-- The strand semaphore a command increments at its end (R329, R341). -/
def XCmd.increments (c : XCmd) : Option (BitVec 5) :=
  if c.kind == 0 then
    if cmdField c.body 212 212 == 1 && cmdField c.body 223 223 == 0 then some (BitVec.ofNat 5 (cmdField c.body 222 213)) else none
  else if c.kind == 3 then none
  else if cmdField c.body 275 275 == 1 && cmdField c.body 274 274 == 0 then some (BitVec.ofNat 5 (cmdField c.body 273 264))
  else none

/-- The head command waits on a semaphore whose threshold is not met and that no outstanding copy increments: it can go no further
without an engine of the strand (R321). -/
def Strand.headBlocked (st : Strand) : Bool :=
  match st.cmds with
  | [] => false
  | c :: _ =>
    match c.waitsOn with
    | some (n, thr) =>
      decide ((st.sems.get n.toFin).toNat < thr.toNat)
        && !(st.asyncs.any fun a => a.sem == some n)
    | none => false

/-- An outstanding command of the strand that will increment a semaphore (R42, R432). -/
def Strand.named (st : Strand) (n : BitVec 5) : Bool :=
  st.asyncs.any (fun a => a.sem == some n) || (!st.headBlocked && st.cmds.any fun c => c.increments == some n)

/-- Every engine waits on something outside the strand, or the strand only waits for its commands (R42, R63). -/
def Strand.external (st : Strand) : Bool :=
  let allEnded := Eng.all.all fun e => (st.eng e).ended
  if allEnded then !st.headBlocked
  else Eng.all.all fun e =>
    match (st.eng e).wait with
    | some w => !w.internal st.named st.headBlocked
    | none => false

/-- All five engines hold at the stop point (R413). -/
def Strand.stopped (st : Strand) : Bool := st.stop.isSome && Eng.all.all fun e => (st.eng e).holding

/-- `spdist` does not count (R63, R413, R415). -/
def Strand.frozen (st : Strand) : Bool := st.external || st.stopped || st.halted || st.dead54

/-- The strand's own ticks: `spdist` (R63, R413, R415) and the performance counters (R446); `free` of the `dt` ticks lie
outside slot bodies, `early` of all but the last. A command whose timeout expires before the last of them takes no contribution that
comes later (R338). -/
def Strand.tick (st : Strand) (now : DWord) (dt free early : Nat) : Strand :=
  let st := if st.dead54 then st.discardQueues else st
  let sd := if st.frozen then st.spdist else BitVec.ofNat 32 (min (st.spdist.toNat + free) (2 ^ 32 - 1))
  let n : (Wait → Bool) → Nat := fun p => (Eng.all.filter fun e => match (st.eng e).wait with | some w => p w | none => false).length
  let st1 := { st with
    spdist := sd
    cmds := st.cmds.map fun (c : XCmd) =>
      if c.active then
        { c with ticks := c.ticks + free
                 cut := if c.cut.isNone && c.tmo != 0 && decide (c.ticks + early ≥ c.tmo) then some now else c.cut }
      else c }
  (((st1.count 0 dt).count 6 (dt * n fun w => w == .slip)).count 7 (dt * n fun w => w == .push || w == .pop)).count 8
    (dt * n fun w => match w with | .sem _ _ => true | .dieSem _ _ => true | _ => false)

/-- The supervisor signals system software (R355, R457, R463). -/
def signalHost (s : State) (i : Interrupt) : State := { s with card := { s.card with interrupts := i :: s.card.interrupts } }

/-- Counts of sources not yet declared lasting. -/
def openWindows (s : State) : List (Nat × Nat × Nat) := s.windows.filter fun x => !s.lasting.contains (x.1, x.2.1)

/-- The windows are reset: counts of sources declared lasting stay, and the corrected errors of the others are summarised for the host
(R444, R457). DESIGN CHOICE (log 73): the summary gives each source's count; a window without any is not reported. -/
def resetWindows (s : State) : State :=
  let sum := (openWindows s).filter fun x => x.1 == 0 || x.1 == 2 || x.1 == 4
  let s1 := { s with windows := s.windows.filter (fun x => s.lasting.contains (x.1, x.2.1)), lastWindow := openWindows s, windowAt := s.psc }
  if sum.isEmpty then s1 else signalHost s1 (.summary sum)

/-- A reset is due in one of `dt` ticks from now on, and has not been made (R444). -/
def resetDue (s : State) (dt : Nat) : Bool :=
  let a := s.psc.toNat
  (a % Config.windowPeriod == 0 && s.windowAt != s.psc && decide (0 < dt)) ||
    decide ((a + dt - 1) / Config.windowPeriod > a / Config.windowPeriod)

/-- `dt` ticks pass, at least one, none of which takes a strand past its safe distance before the last; an extension in progress shows in every strand
that occupies a tile core (R423); the ROM requests the image in the tick after the Fepel Link has trained (R465, log 26). -/
def passTicks (s : State) (dt : Nat) : State :=
  let s := { (if resetDue s dt then resetWindows s else s) with lastWindow := [] }
  let free := freeTicks s.psc.toNat dt s.catchUp
  let early := freeTicks s.psc.toNat (dt - 1) s.catchUp
  { s with
    psc := s.psc + BitVec.ofNat 64 dt
    card := if s.card.stage == 2 then { s.card with stage := 3 } else s.card
    cores := tab 192 fun i =>
      if h : i < 192 then
        let k := s.cores.get ⟨i, h⟩
        match k.strand with
        | some st =>
          let q := st.tick s.psc dt free early
          { k with strand := some { q with ovr := q.ovr || !s.extensions.isEmpty } }
        | none => k
      else {}
    dies := tab 4 fun i =>
      let d := s.dies.toList.getD i Die.reset
      { d with lease := d.lease - dt, sinceRenew := d.sinceRenew + dt }
    launches := s.launches.map fun l => { l with waited := l.waited + dt }
    extensions := s.extensions.map fun x => (x.1, x.2.1, x.2.2 + dt) }

/-- The strand has gone past its safe distance in the tick `now`, and has not faulted for it (R63, R413, R460). -/
def Strand.overdue (st : Strand) (now : DWord) : Bool :=
  decide (st.spdist.toNat > st.splim.toNat) && (!st.dead54 || (st.deadAt == now && !st.faults.contains 5))

/-- SAFE-DISTANCE of a strand (R413). -/
def distanceFault (s : State) (t : Core) : State :=
  match s.strand t with
  | some st => (takeFault s st.handle (wordRecord s t st .c 0 .safeDistance .tick)).updStrand t fun q => { q with faults := natInsert q.faults 5 }
  | none => s

/-- SAFE-DISTANCE in the tick in which strands went past their safe distance (R413). -/
def distanceFaults (s : State) : State :=
  allCoreIds.foldl (fun s t => if (s.strand t).any (·.overdue s.psc) then distanceFault s t else s) s

/-- The least number from `lo` to `hi` that satisfies a condition which, once met, stays met; `hi` where none below it does. -/
def leastFrom (p : Nat → Bool) : Nat → Nat → Nat → Nat
  | 0, _, hi => hi
  | fuel + 1, lo, hi =>
    if lo ≥ hi then hi
    else
      let mid := (lo + hi) / 2
      if p mid then leastFrom p fuel lo mid else leastFrom p fuel (mid + 1) hi

/-- Ticks, at most `dt`, after which the first strand goes past its safe distance, or all of them. -/
def ticksToDistance (s : State) (dt : Nat) : Nat :=
  let left := s.cores.toList.filterMap fun k => k.strand.bind fun st =>
    if st.frozen || st.overdue s.psc then none else some (st.splim.toNat + 1 - st.spdist.toNat)
  match left with
  | [] => dt
  | x :: xs =>
    let n := xs.foldl min x
    if freeTicks s.psc.toNat dt s.catchUp < n then dt
    else leastFrom (fun j => decide (freeTicks s.psc.toNat j s.catchUp ≥ n)) 64 1 dt

/-- `dt` ticks pass, and SAFE-DISTANCE is raised in its own tick (R413); in the last of them an engine may still reach the stop point
first (R416). -/
def advanceGo : Nat → State → Nat → State
  | 0, s, dt => passTicks s dt
  | fuel + 1, s, dt =>
    if dt = 0 then s
    else
      let s1 := distanceFaults s
      let k := ticksToDistance s1 dt
      advanceGo fuel (passTicks s1 k) (dt - k)

/-- `dt` ticks pass; none pass for a package held in reset (R417). -/
def advance (s : State) (dt : Nat) : State := if dt = 0 || s.card.hold then s else advanceGo 193 s dt

end Sys2Proof.Machine
end

