-- ==== Sys2Proof/Machine/Operands.lean ====
section
/-! DEFINITION. Operand codes of the engines and their queues (R90, R91, R148, R264, R317 to R319, R323). -/

namespace Sys2Proof.Machine


/-! Scalar registers (R148). -/

def Strand.x? (st : Strand) (c : Code) : PWord := if c = 0 then {} else st.regs.get c.toFin

def Strand.setX (st : Strand) (c : Code) (v : PWord) : Strand :=
  if c = 0 then st else { st with regs := st.regs.set c.toNat v c.isLt }

/-! Address, shape and exchange registers: codes 0 to 15, or 0 to 7. -/

/-- A register number below 16, ILLEGAL otherwise (R91). -/
def role16 (c : Code) : Except Halt (Fin 16) := if h : c.toNat < 16 then .ok ⟨c.toNat, h⟩ else raise .illegal
/-- A register number below 8, ILLEGAL otherwise (R91). -/
def role8 (c : Code) : Except Halt (Fin 8) := if h : c.toNat < 8 then .ok ⟨c.toNat, h⟩ else raise .illegal
/-- An accumulator number, ILLEGAL otherwise (R91). -/
def role4 (c : Code) : Except Halt (Fin 4) := if h : c.toNat < 4 then .ok ⟨c.toNat, h⟩ else raise .illegal

def Strand.setA (st : Strand) (i : Fin 16) (v : PWord) : Strand := { st with addrs := st.addrs.set i.val v i.isLt }
def Strand.setH (st : Strand) (i : Fin 16) (v : Shape) : Strand := { st with shapes := st.shapes.set i.val v i.isLt }
def Strand.setE (st : Strand) (i : Fin 8) (v : PWord) : Strand := { st with xregs := st.xregs.set i.val v i.isLt }

/-! Queues. -/

/-- The strand once an engine has taken or peeked entries: it is bound to see what they carry (R305). -/
def Strand.took {α : Type} (st : Strand) (e : Eng) (es : List (Queued α)) : Strand :=
  st.updEng e fun g => { g with view := es.foldl (fun v x => v.join x.carry) g.view }

/-- A value as an engine pushes it: it carries the release of the engine's last releasing fence, and the writes `made` that produced it
(R305). -/
def Strand.entry {α : Type} (st : Strand) (e : Eng) (made : List Nat) (v : α) : Queued α :=
  ⟨v, (st.eng e).sig.pushes.join { ids := made }⟩

/-- The entries a consumer takes: all `n`, or the wait of an empty queue (R187, R318). A peek leaves
them. -/
def takeN {α : Type} (st : Strand) (e : Eng) (q : List (Queued α)) (n : Nat) (peek : Bool) :
    Except Halt (List α × List (Queued α) × Strand) :=
  if q.length < n then await .pop
  else
    let es := q.take n
    .ok (es.map (·.val), if peek then q else q.drop n, st.took e es)

/-- One entry taken. -/
def takeOne (st : Strand) (e : Eng) (q : List (Queued PWord)) (peek : Bool) : Except Halt (PWord × List (Queued PWord) × Strand) := do
  let (es, r, st1) ← takeN st e q 1 peek
  .ok (es.headD {}, r, st1)

/-- Entries pushed, each with the writes that produced it: discarded and counted when the consumer has ended (R319), else the wait of a
full queue. -/
def pushN {α : Type} (st : Strand) (producer consumer : Eng) (depth : Nat) (q : List (Queued α)) (es : List α) (made : List (List Nat)) :
    Except Halt (List (Queued α) × Strand) :=
  if (st.eng consumer).ended then .ok (q, st.count 13 es.length)
  else if q.length + es.length > depth then await .push
  else .ok (q ++ es.zipIdx.map (fun x => st.entry producer (made.getD x.2 []) x.1), st)

def popC2a (st : Strand) (peek : Bool) : Except Halt (PWord × Strand) := do
  let (v, q, st1) ← takeOne st .a st.c2a peek
  .ok (v, { st1 with c2a := q })
def popC2v (st : Strand) (peek : Bool) : Except Halt (PWord × Strand) := do
  let (v, q, st1) ← takeOne st .v st.c2v peek
  .ok (v, { st1 with c2v := q })
def popC2m (st : Strand) (peek : Bool) : Except Halt (PWord × Strand) := do
  let (v, q, st1) ← takeOne st .m st.c2m peek
  .ok (v, { st1 with c2m := q })
def popC2x (st : Strand) (peek : Bool) : Except Halt (PWord × Strand) := do
  let (v, q, st1) ← takeOne st .x st.c2x peek
  .ok (v, { st1 with c2x := q })
def popA2c (st : Strand) (peek : Bool) : Except Halt (PWord × Strand) := do
  let (v, q, st1) ← takeOne st .c st.a2c peek
  .ok (v, { st1 with a2c := q })
def popV2c (st : Strand) (peek : Bool) : Except Halt (PWord × Strand) := do
  let (v, q, st1) ← takeOne st .c st.v2c peek
  .ok (v, { st1 with v2c := q })
def popX2c (st : Strand) (peek : Bool) : Except Halt (PWord × Strand) := do
  let (v, q, st1) ← takeOne st .c st.x2c peek
  .ok (v, { st1 with x2c := q })
def popA2v (st : Strand) (n : Nat) (peek : Bool) : Except Halt (List Row × Strand) := do
  let (es, q, st1) ← takeN st .v st.a2v n peek
  .ok (es, { st1 with a2v := q })
def popV2a (st : Strand) (n : Nat) (peek : Bool) : Except Halt (List Row × Strand) := do
  let (es, q, st1) ← takeN st .a st.v2a n peek
  .ok (es, { st1 with v2a := q })
def popM2v (st : Strand) (n : Nat) (peek : Bool) : Except Halt (List Row × Strand) := do
  let (es, q, st1) ← takeN st .v st.m2v n peek
  .ok (es, { st1 with m2v := q })

def pushC2a (st : Strand) (es : List PWord) : Except Halt Strand := do
  let (q, st1) ← pushN st .c .a 8 st.c2a es []
  .ok { st1 with c2a := q }
def pushC2v (st : Strand) (es : List PWord) : Except Halt Strand := do
  let (q, st1) ← pushN st .c .v 8 st.c2v es []
  .ok { st1 with c2v := q }
def pushC2m (st : Strand) (es : List PWord) : Except Halt Strand := do
  let (q, st1) ← pushN st .c .m 8 st.c2m es []
  .ok { st1 with c2m := q }
def pushC2x (st : Strand) (es : List PWord) : Except Halt Strand := do
  let (q, st1) ← pushN st .c .x 8 st.c2x es []
  .ok { st1 with c2x := q }
def pushA2c (st : Strand) (es : List PWord) : Except Halt Strand := do
  let (q, st1) ← pushN st .a .c 8 st.a2c es []
  .ok { st1 with a2c := q }
def pushV2c (st : Strand) (es : List PWord) : Except Halt Strand := do
  let (q, st1) ← pushN st .v .c 8 st.v2c es []
  .ok { st1 with v2c := q }
def pushX2c (st : Strand) (es : List PWord) : Except Halt Strand := do
  let (q, st1) ← pushN st .x .c 8 st.x2c es []
  .ok { st1 with x2c := q }
/-- Entries of A2V come of the writes that the access engine has read to fill them, each of its own (R305): `first` are those of the first of
two. -/
def pushA2v (st : Strand) (es : List Row) (first : Option (List Nat) := none) : Except Halt Strand := do
  let (q, st1) ← pushN st .a .v 16 st.a2v es (first.toList ++ [st.a.sources])
  .ok ({ st1 with a2v := q }.updEng .a fun g => { g with sources := [] })
def pushV2a (st : Strand) (es : List Row) : Except Halt Strand := do
  let (q, st1) ← pushN st .v .a 16 st.v2a es []
  .ok { st1 with v2a := q }
def pushM2v (st : Strand) (es : List Row) : Except Halt Strand := do
  let (q, st1) ← pushN st .m .v 16 st.m2v es []
  .ok { st1 with m2v := q }

/-- An access-engine source in the address role: a register, or C2A popped or peeked (R264). -/
def srcA (st : Strand) (c : Code) : Except Halt (PWord × Strand) :=
  if h : c.toNat < 16 then .ok (st.addrs.get ⟨c.toNat, h⟩, st)
  else if c = 24 then popC2a st false
  else if c = 25 then popC2a st true
  else raise .illegal

/-- An exchange-engine source: a register, or C2X popped or peeked (R323). -/
def srcX (st : Strand) (c : Code) : Except Halt (PWord × Strand) :=
  if h : c.toNat < 8 then .ok (st.xregs.get ⟨c.toNat, h⟩, st)
  else if c = 8 then popC2x st false
  else if c = 9 then popC2x st true
  else raise .illegal

/-- An exchange-engine destination: a register or X2C (R323, R337). -/
def dstX (st : Strand) (c : Code) (v : PWord) : Except Halt Strand :=
  if h : c.toNat < 8 then .ok (st.setE ⟨c.toNat, h⟩ v)
  else if c = 10 then pushX2c st [v]
  else raise .illegal

/-- A synchronising use of a value (R152, R264, R324). -/
def clean (v : PWord) : Except Halt DWord := if v.poison then raise .poisonSync else .ok v.val

/-- A record-slot operand (R391). -/
def slotRole (c : Code) : Except Halt (Fin 16) := role16 c

end Sys2Proof.Machine
end

