-- ==== Sys2Proof/Machine/Flags.lean ====
section
/-! DEFINITION. Integer types and conditions (R86, R88, R124), the control engine's results, and the vector engine's sticky
flags (R196). -/

namespace Sys2Proof.Machine

/-- Width of an integer type code (R86). -/
def intWidth (ty : BitVec 4) : Nat :=
  match (ty.extractLsb' 0 2).toNat with
  | 0 => 8 | 1 => 16 | 2 => 32 | _ => 64

/-- An integer type code (R86). -/
def isInt (ty : BitVec 4) : Bool := decide (ty.toNat < 8)
/-- A signed integer type (R86). -/
def isSigned (ty : BitVec 4) : Bool := decide (ty.toNat < 4)

/-- The low bits of a value as an integer of a type (R124). -/
def asInt (ty : BitVec 4) (v : Nat) : Int :=
  let w := intWidth ty
  let u := v % 2 ^ w
  if isSigned ty && decide (2 ^ (w - 1) ≤ u) then (u : Int) - (2 ^ w : Nat) else (u : Int)

/-- An integer truncated to a type's width and extended to 64 bits (R159). -/
def extend (ty : BitVec 4) (v : Int) : DWord :=
  BitVec.ofInt 64 (asInt ty (v % (2 ^ intWidth ty : Nat)).toNat)

/-- Saturate of R124. -/
def saturateInt (ty : BitVec 4) (v : Int) : Int :=
  let w := intWidth ty
  if isSigned ty then max (-(2 ^ (w - 1) : Nat)) (min v ((2 ^ (w - 1) : Nat) - 1))
  else max 0 (min v ((2 ^ w : Nat) - 1))

/-- Conditions 0 to 5 of R88 over integers; other codes have none. -/
def condInt (c : Nat) (a b : Int) : Option Bool :=
  match c with
  | 0 => some (decide (a = b)) | 1 => some (decide (a ≠ b)) | 2 => some (decide (a < b))
  | 3 => some (decide (a ≤ b)) | 4 => some (decide (a > b)) | 5 => some (decide (a ≥ b))
  | _ => none

/-- Conditions 0 to 6 of R88 over floating values, by IEEE 754 ordering (R10, R137). -/
def condNum (c : Nat) (a b : Num) : Option Bool :=
  let un := a.isNan || b.isNan
  match c with
  | 0 => some (Num.eq a b) | 1 => some (!Num.eq a b) | 2 => some (Num.lt a b)
  | 3 => some (!un && !Num.lt b a) | 4 => some (Num.lt b a) | 5 => some (!un && !Num.lt a b)
  | 6 => some un
  | _ => none

/-- The sticky flags set (R196). -/
def Strand.stick (st : Strand) (sat nan fmt : Bool) : Strand :=
  { st with sat := st.sat || sat, nan := st.nan || nan, fmt := st.fmt || fmt }

end Sys2Proof.Machine
end

