-- ==== Sys2Proof/Machine/Control.lean ====
section
/-! DEFINITION. The control engine's words (R148 to R170, R441, R442, R447). -/

namespace Sys2Proof.Machine

/-! Integer operations (R159). -/

inductive Alu where
  | add | sub | mul | mulh | div | rem | and | or | xor | shl | shr | min | max
deriving DecidableEq, Repr

/-- The exact result of an integer operation before truncation (R159). -/
def Alu.value (op : Alu) (ty : BitVec 4) (xa xb : Nat) : Int :=
  let w := intWidth ty
  let a := asInt ty xa
  let b := asInt ty xb
  let sh := xb % 64 % w
  match op with
  | .add => a + b
  | .sub => a - b
  | .mul => a * b
  | .mulh => Int.fdiv (a * b) (2 ^ w : Nat)
  | .div => if b = 0 then 0 else Int.tdiv a b
  | .rem => if b = 0 then a else a - b * Int.tdiv a b
  | .and => ((xa % 2 ^ w) &&& (xb % 2 ^ w) : Nat)
  | .or => ((xa % 2 ^ w) ||| (xb % 2 ^ w) : Nat)
  | .xor => ((xa % 2 ^ w) ^^^ (xb % 2 ^ w) : Nat)
  | .shl => a * (2 ^ sh : Nat)
  | .shr => Int.fdiv a (2 ^ sh : Nat)
  | .min => if a ≤ b then a else b
  | .max => if a ≥ b then a else b

/-- An integer operation on scalar registers (R89, R159). -/
def aluOp (op : Alu) (d a b : Code) (ty : BitVec 4) (st : Strand) : Except Halt Strand :=
  if isInt ty then
    let x := st.x? a
    let y := st.x? b
    .ok (st.setX d ⟨extend ty (op.value ty x.val.toNat y.val.toNat), x.poison || y.poison⟩)
  else raise .illegal

def execAdd (d a b : Code) (t : BitVec 4) (s : State) : Out := strandWord .c 1 (aluOp .add d a b t) s
def execSub (d a b : Code) (t : BitVec 4) (s : State) : Out := strandWord .c 1 (aluOp .sub d a b t) s
def execMul (d a b : Code) (t : BitVec 4) (s : State) : Out := strandWord .c 1 (aluOp .mul d a b t) s
def execMulh (d a b : Code) (t : BitVec 4) (s : State) : Out := strandWord .c 1 (aluOp .mulh d a b t) s
def execDiv (d a b : Code) (t : BitVec 4) (s : State) : Out := strandWord .c 1 (aluOp .div d a b t) s
def execRem (d a b : Code) (t : BitVec 4) (s : State) : Out := strandWord .c 1 (aluOp .rem d a b t) s
def execAnd (d a b : Code) (t : BitVec 4) (s : State) : Out := strandWord .c 1 (aluOp .and d a b t) s
def execOr (d a b : Code) (t : BitVec 4) (s : State) : Out := strandWord .c 1 (aluOp .or d a b t) s
def execXor (d a b : Code) (t : BitVec 4) (s : State) : Out := strandWord .c 1 (aluOp .xor d a b t) s
def execShl (d a b : Code) (t : BitVec 4) (s : State) : Out := strandWord .c 1 (aluOp .shl d a b t) s
def execShr (d a b : Code) (t : BitVec 4) (s : State) : Out := strandWord .c 1 (aluOp .shr d a b t) s
def execMin (d a b : Code) (t : BitVec 4) (s : State) : Out := strandWord .c 1 (aluOp .min d a b t) s
def execMax (d a b : Code) (t : BitVec 4) (s : State) : Out := strandWord .c 1 (aluOp .max d a b t) s

/-- CMP (R160). -/
def cmpOp (d a b : Code) (ty c : BitVec 4) (st : Strand) : Except Halt Strand :=
  let x := st.x? a
  let y := st.x? b
  match isInt ty, condInt c.toNat (asInt ty x.val.toNat) (asInt ty y.val.toNat) with
  | true, some r => .ok (st.setX d ⟨if r then 1 else 0, x.poison || y.poison⟩)
  | _, _ => raise .illegal
def execCmp (d a b : Code) (t c : BitVec 4) (s : State) : Out := strandWord .c 1 (cmpOp d a b t c) s

/-- SEL (R161). -/
def selOp (d a b : Code) (st : Strand) : Except Halt Strand :=
  let c := st.x? d
  let v := if c.val != 0 then st.x? a else st.x? b
  .ok (st.setX d ⟨v.val, c.poison || v.poison⟩)
def execSel (d a b : Code) (s : State) : Out := strandWord .c 1 (selOp d a b) s

/-- An immediate form with one source (R162): poison is that of the source (R151). -/
def unaryImm (d a : Code) (f : DWord → DWord) (st : Strand) : Except Halt Strand :=
  .ok (st.setX d ⟨f (st.x? a).val, (st.x? a).poison⟩)

def execAddi (d a : Code) (i : BitVec 14) (s : State) : Out := strandWord .c 1 (unaryImm d a (· + i.signExtend 64)) s
def execAndi (d a : Code) (i : BitVec 14) (s : State) : Out := strandWord .c 1 (unaryImm d a (· &&& i.signExtend 64)) s
def execShli (d a : Code) (n : BitVec 6) (s : State) : Out := strandWord .c 1 (unaryImm d a (· <<< n.toNat)) s
def execShri (d a : Code) (n : BitVec 6) (s : State) : Out := strandWord .c 1 (unaryImm d a (· >>> n.toNat)) s
def execSari (d a : Code) (n : BitVec 6) (s : State) : Out := strandWord .c 1 (unaryImm d a (·.sshiftRight n.toNat)) s
def execOri (d a : Code) (imm : Word) (s : State) : Out := strandWord .c 2 (unaryImm d a (· ||| imm.signExtend 64)) s
def execXori (d a : Code) (imm : Word) (s : State) : Out := strandWord .c 2 (unaryImm d a (· ^^^ imm.signExtend 64)) s
/-- LI, LIW (R162): poison clear. -/
def loadImm (d : Code) (v : DWord) (st : Strand) : Except Halt Strand := .ok (st.setX d ⟨v, false⟩)
def execLi (d : Code) (i : BitVec 19) (s : State) : Out := strandWord .c 1 (loadImm d (i.signExtend 64)) s
def execLiw (d : Code) (imm : Word) (s : State) : Out := strandWord .c 2 (loadImm d (imm.signExtend 64)) s
/-- LIH keeps the low half and the poison bit of xd (R151, R162). -/
def execLih (d : Code) (imm : Word) (s : State) : Out :=
  strandWord .c 2 (unaryImm d d fun v => imm ++ v.extractLsb' 0 32) s

/-! Arguments (R163, R164). -/

/-- ARGL and ARGS. DESIGN CHOICE (log 51): an address in the local range raises TRANSLATION, as an argument block is not in
scratchpad. DEDUCED (log 52): a word overwritten since the dispatch reads as any memory does, under the read rules of R299. -/
def argOp (d a : Code) (off : Int) (s : State) (t : Core) (st : Strand) : Except Halt State := do
  let x ← clean (st.x? a)
  let i := x.toInt + off
  if i < 0 || i ≥ 2 ^ 24 then raise .protection
  else if st.argbase.toNat % 8 != 0 then raise .align
  else
    let addr := st.argbase.toNat + 8 * i.toNat
    if isLocal addr then raise .translation
    else
      let (s', bs, p) ← elemRead s t st .c st.c.slotmode addr 8
      .ok (s'.updStrand t fun q => q.setX d (if p then ⟨0, true⟩ else ⟨BitVec.ofNat 64 (natOfBytes bs), false⟩))
def execArgl (d a : Code) (i : BitVec 14) (s : State) : Out := checkedWord .c 1 (argOp d a i.toInt) s
def execArgs (d a : Code) (imm : Word) (s : State) : Out := checkedWord .c 2 (argOp d a imm.toInt) s

/-! Scalar queues (R165, R166). -/

def execQput (q a : Code) (s : State) : Out :=
  strandWord .c 1 (fun st =>
    let v := st.x? a
    match q.toNat with
    | 0 => pushC2a st [v] | 1 => pushC2v st [v] | 2 => pushC2m st [v] | 3 => pushC2x st [v]
    | _ => raise .illegal) s

def qgetOp (d q : Code) (k : BitVec 1) (st : Strand) : Except Halt Strand := do
  let peek := k == 1
  let (v, st1) ← match q.toNat with
    | 0 => popA2c st peek
    | 1 => popV2c st peek
    | 2 => popX2c st peek
    | _ => raise .illegal
  .ok (st1.setX d v)
def execQget (d q : Code) (k : BitVec 1) (s : State) : Out := strandWord .c 1 (qgetOp d q k) s

/-! Outcomes, selectors, checks (R167 to R169). -/

/-- An outcome pushed to an engine's branch-outcome queue, discarded and counted when it has ended (R319). -/
def pushOutcome (v : Word) (st : Strand) (e : Eng) : Strand :=
  if (st.eng e).ended then st.count 13 1 else st.updEng e fun g => { g with outcomes := g.outcomes ++ [v] }

def bsetOp (a : Code) (st : Strand) : Except Halt Strand := do
  let v ← clean (st.x? a)
  if Eng.all.any fun e => !(st.eng e).ended && decide ((st.eng e).outcomes.length ≥ 8) then await .outcomeFull
  else .ok (Eng.all.foldl (pushOutcome (v.setWidth 32)) st)
def execBset (a : Code) (s : State) : Out := strandWord .c 1 (bsetOp a) s

def gselOp (a : Code) (i : BitVec 8) (s : State) (_ : Core) (st : Strand) : Except Halt State := do
  let v ← clean (st.x? a)
  .ok (s.updLaunch st.handle fun l =>
    if l.node.isSome then
      { l with selectors := (st.index, v.setWidth 8 + i) :: l.selectors.filter fun e => e.1 != st.index }
    else l)
def execGsel (a : Code) (i : BitVec 8) (s : State) : Out := checkedWord .c 1 (gselOp a i) s

def execCheck (a : Code) (s : State) : Out :=
  strandWord .c 1 (fun st => do let _ ← clean (st.x? a); .ok st) s

/-! System registers (R153 to R158, R170). -/

/-- The level of a launch after ageing (R59, R157). -/
def Launch.level (l : Launch) : Nat := min 7 (l.prio.val + l.aged)

/-- `status` of R157. -/
def statusOf (s : State) (st : Strand) : DWord :=
  let prio := match s.launch? st.handle with | some l => l.level | none => 0
  let b := fun (x : Bool) (k : Nat) => if x then 2 ^ k else 0
  BitVec.ofNat 64 (prio * 64 + st.cls.bits.toNat * 16 + b st.ovr 3 + b st.resumed 2 + b st.gang 1 + b st.det 0)

/-- A system register as SRD reads it (R153, R158). -/
def sysReg (s : State) (t : Core) (st : Strand) (n : Nat) : Option DWord :=
  match n with
  | 0x0 => some (st.win.setWidth 64)
  | 0x1 => some (st.c.sbase.setWidth 64)
  | 0x2 => some (st.c.slim.setWidth 64)
  | 0x3 => some (st.spdist.setWidth 64)
  | 0x4 => some (st.splim.setWidth 64)
  | 0x5 => some (st.c.slotmode.setWidth 64)
  | 0x6 => some (statusOf s st)
  | 0x7 => some (st.index.setWidth 64)
  | 0x8 => some (st.launch.setWidth 64)
  | 0x9 => some (st.phase.setWidth 64)
  | 0xA => some (BitVec.ofNat 64 t.val)
  | 0xB => some (st.c.depth.setWidth 64)
  | 0xC => some (st.argbase.setWidth 64)
  | _ => none

def srdOp (d : Code) (imm : Word) (s : State) (t : Core) (st : Strand) : Except Halt State :=
  match sysReg s t st imm.toNat with
  | some v => .ok (s.setStrand t (st.setX d ⟨v, false⟩))
  | none => raise .illegal
def execSrd (d : Code) (imm : Word) (s : State) : Out := checkedWord .c 2 (srdOp d imm) s

/-- Whether a value may be written to a writable system register (R34, R154, R170). -/
def swrAllowed (st : Strand) (n : Nat) (v : Nat) : Bool :=
  match n with
  | 0 => decide (16 ≤ v) && decide (v ≤ 1024)
  | 1 => decide (v < 2 ^ 22) && v % 16 == 0 && decide (v ≤ st.c.slim.toNat) && decide (st.c.depth.toNat ≤ 16)
  | 2 => decide (v ≤ 0x200000) && v % 16 == 0 && decide (st.c.sbase.toNat ≤ v) && decide (st.c.depth.toNat ≤ 16)
  | 5 => decide (v ≤ 1)
  | _ => false

/-- Positional values that some engine has still to pass (R156). -/
def Strand.trimSwrs (st : Strand) : Strand :=
  { st with swrs := st.swrs.filter fun p => Eng.all.any fun e => !(st.eng e).ended && decide ((st.eng e).steps.toNat ≤ p.pos) }

def swrOp (a : Code) (imm : Word) (st : Strand) : Except Halt Strand :=
  let n := imm.toNat
  if n = 0 || positional n then do
    let v ← clean (st.x? a)
    if !swrAllowed st n v.toNat then raise .illegal
    else if n = 0 then .ok { st with win := v.setWidth 11 }
    else
      let st1 := st.trimSwrs
      .ok { (st1.updEng .c fun g => setPos g n v) with swrs := st1.swrs ++ [⟨st.c.pos, n, v⟩] }
  else raise .illegal
where
  /-- Positional registers (R153). -/
  positional (n : Nat) : Bool := n = 1 || n = 2 || n = 5
  /-- The control engine's own copy (R156). -/
  setPos (g : Engine) (n : Nat) (v : DWord) : Engine :=
    if n = 1 then { g with sbase := v.setWidth 22 }
    else if n = 2 then { g with slim := v.setWidth 22 }
    else { g with slotmode := v.setWidth 1 }
def execSwr (a : Code) (imm : Word) (s : State) : Out := strandWord .c 2 (swrOp a imm) s

/-! Time and counters (R441, R442, R447). -/

/-- TICK. A second TICK of the strand in one tick is not executed in it, so that it returns a greater value. -/
def execTick (d : Code) (s : State) : Out :=
  match s.strand s.focusTile with
  | some st =>
    if st.lastTick == some s.psc then notDue s
    else strandWord .c 2 (fun st => .ok { st.setX d ⟨s.psc, false⟩ with lastTick := some s.psc }) s
  | none => .refused .noStrand

def mslotOp (d a : Code) (imm : Word) (st : Strand) : Except Halt Strand := do
  let v ← clean (st.x? a)
  let (b, l, m) := slotAt v
  match imm.toNat with
  | 0 => .ok (st.setX d ⟨b, false⟩)
  | 1 => .ok (st.setX d ⟨l, false⟩)
  | 2 => .ok (st.setX d ⟨m, false⟩)
  | _ => raise .illegal
def execMslot (d a : Code) (imm : Word) (s : State) : Out := strandWord .c 2 (mslotOp d a imm) s

/-- The window count of a tile core's scratchpad (R444): row 0 corrected, row 1 uncorrectable. -/
def spadWindow (s : State) (t : Core) (row : Nat) : Nat :=
  match s.windows.find? fun x => x.1 == row && x.2.1 == t.val with
  | some x => x.2.2
  | none => 0

/-- CTRR. DESIGN CHOICE (log 32): how many of the scratchpad accesses of a strand were split into beats is a free value. -/
def ctrrOp (d : Code) (imm : Word) (s : State) (t : Core) (st : Strand) : Except Halt State :=
  let n := imm.toNat
  let put := fun (s : State) (v : DWord) => s.updStrand t fun q => q.setX d ⟨v, false⟩
  match bits n 31 28 with
  | 0 =>
    if n = 11 then
      let (v, s1) := s.draw
      let s2 := s1.updStrand t fun q => { q.count 11 (v.toNat % (q.splits + 1)) with splits := 0 }
      .ok (s2.updStrand t fun q => q.setX d ⟨q.perf.get 11, false⟩)
    else if h : n < 17 then .ok (put s (st.perf.get ⟨n, h⟩)) else raise .illegal
  | 1 =>
    let k := n % 2 ^ 28
    match s.job? st.job with
    | none => raise .illegal
    | some j =>
      if k = Config.phaseCounter || (1 ≤ k && k < j.nc && k < Config.phaseCounter) then do
        let addr := j.ctbase + (if k = Config.phaseCounter then 0 else 32 * k)
        if isLocal addr then raise .translation
        else
          let (s', bs, p) ← elemRead s t st .c st.c.slotmode addr 8
          if p then
            let (v, s'') := s'.draw
            .ok (put s'' v)
          else .ok (put s' (BitVec.ofNat 64 (natOfBytes bs)))
      else raise .illegal
  | 2 =>
    if n % 2 ^ 28 ≤ 1 then .ok (put s (BitVec.ofNat 64 (spadWindow s t (n % 2)))) else raise .illegal
  | _ => raise .illegal
def execCtrr (d : Code) (imm : Word) (s : State) : Out := checkedWord .c 2 (ctrrOp d imm) s

end Sys2Proof.Machine
end

