-- ==== Sys2Proof/Machine/Record.lean ====
section
/-! DEFINITION. Tensor records: the table in memory (R374 to R376), pins and look-ups (R379, R380), stamps, granule states
and counts (R72, R277, R381), and the control engine's record words (R391 to R396). -/

namespace Sys2Proof.Machine

/-- The format of a type code that a ring entry may hold (R376); `e2m1` stands for MXFP4. -/
def ringFmt (c : Nat) : Option Fmt :=
  match c with
  | 9 => some .bf16 | 10 => some .fp16 | 11 => some .e4m3 | 12 => some .e5m2 | 14 => some .e2m1 | _ => none

/-- The type code of a narrow format (R86, R376). -/
def fmtCode : Fmt → Nat
  | .bf16 => 9 | .fp16 => 10 | .e4m3 => 11 | .e5m2 => 12 | .e2m1 => 14 | .fp32 => 8

/-- An 8-bit field read as signed. -/
def signed8 (v : Nat) : Int := (BitVec.ofNat 8 v).toInt

/-- Whether a ring entry is one of a live record's (R377). -/
def ringLive (e : Nat) : Bool :=
  bits e 24 24 == 1 && bits e 27 25 == 0 && (ringFmt (bits e 31 28)).isSome &&
    decide (-126 ≤ signed8 (bits e 23 16))

/-- The format of a ring entry as a look-up answers it (R380). DESIGN CHOICE (log 68): an entry with a `z` bit set or a format that R376 does
not list, which only a plain store leaves, answers FP32, which no check of R221 or R273 accepts. -/
def ringFormat (e : Nat) : Fmt := if bits e 27 25 == 0 then (ringFmt (bits e 31 28)).getD .fp32 else .fp32

/-- The `z` bits of word `k` of a record (R375, R376) are clear, and its pending proposal, where there is one, has a format that R376
lists. -/
def wordSound (k w : Nat) : Bool :=
  match k with
  | 1 => bits w 63 56 == 0
  | 2 => bits w 63 40 == 0
  | 3 => bits w 63 56 == 0
  | 4 => bits w 63 56 == 0
  | 5 => bits w 63 56 == 0
  | 6 => bits w 27 25 == 0 && bits w 59 57 == 0
  | 7 => bits w 27 25 == 0 && bits w 59 57 == 0
  | 8 => bits w 27 25 == 0 && bits w 59 57 == 0
  | 9 => bits w 27 25 == 0 && bits w 59 57 == 0
  | 10 => bits w 35 16 == 0 && bits w 13 6 == 0 && (bits w 55 48 == 0 || (ringFmt (bits w 39 36)).isSome)
  | 29 => bits w 15 14 == 0 && bits w 7 0 == 0
  | _ => true

/-- A ring entry's word (R376). -/
def ringEntry (f : Fmt) (s : Int) (ver : Nat) : Nat :=
  fmtCode f * 2 ^ 28 + 2 ^ 24 + (BitVec.ofInt 8 s).toNat * 2 ^ 16 + ver % 2 ^ 16

/-- Virtual address of a record (R374). -/
def recAddr (j : Job) (i : Nat) : Nat := j.rtbase + 256 * i

/-- A read at a home for a tile core must wait: a write to the bytes, other than a Stamp of its own record cache, that its strand has made
or acquired is not yet applied (R303, R308, R310). -/
def State.coreAwaits (s : State) (t : Core) (a n : Nat) : Bool :=
  match s.strand t with
  | none => false
  | some st => s.pending.any fun p => !(p.stamp.isSome && p.agent.core == t) && overlap p.addr p.bytes.length a n
      && Eng.all.any fun e => p.agent == st.agent t e.part || (st.eng e).view.ids.contains p.id

/-- Bytes of a job's memory within a line, read at their home for a strand of a tile core by the record cache (R383, R495). -/
def cacheBytes (s : State) (t : Core) (j : Job) (va n : Nat) : Except Halt Nat :=
  match translate s (some t) (dieOf t) j va .read with
  | .error c => raise c
  | .ok l =>
    let (b, p) := s.readPhys l.key l.pa n
    if s.coreAwaits t l.pa n then await .writes else if p then raise .poisonSync else .ok (natOfBytes b)

/-- A 64-bit word, likewise. -/
def cacheWord (s : State) (t : Core) (j : Job) (va : Nat) : Except Halt Nat := cacheBytes s t j va 8

/-- One byte, likewise. -/
def cacheByte (s : State) (t : Core) (j : Job) (va : Nat) : Except Halt Nat := cacheBytes s t j va 1

/-- Ring entry `k` at the home (R375). -/
def ringAt (s : State) (t : Core) (j : Job) (i k : Nat) : Except Halt Nat := do
  let w ← cacheWord s t j (recAddr j i + 0x30 + 8 * (k / 2))
  .ok (if k % 2 = 0 then w % 2 ^ 32 else w / 2 ^ 32)

/-- A bound record with the format, scale and version of the launch's pin (R379). -/
structure RecV where
  idx : Nat
  fmt : Fmt
  scale : Int
  ver : BitVec 16
  base : Nat
  count : Nat
  master : Nat
  bscale : Nat
  stamps : Nat
  s0 : Int
deriving DecidableEq, Repr

def jobOf (s : State) (st : Strand) : Except Halt Job :=
  match s.job? st.job with
  | some j => .ok j
  | none => raise .translation

/-- The pinned entry of a record in a launch. -/
def pinOf (s : State) (st : Strand) (i : Nat) : Option Word :=
  (s.launch? st.handle).bind fun l => lookupNat l.pins i

/-- Offsets of the words that a record cache holds (R383). -/
def cachedOffsets : List Nat := [0x00, 0x08, 0x10, 0x18, 0x20, 0x28, 0x50]

/-- The words of a record that the record cache holds, filled from the home where it holds none (R383). -/
def recordWords (s : State) (t : Core) (j : Job) (i : Nat) : Except Halt (List Nat) :=
  match (s.strand t).bind fun st => lookupNat st.records i with
  | some ws => .ok ws
  | none => cachedOffsets.mapM fun o => cacheWord s t j (recAddr j i + o)

/-- The record of an index, a ring entry and the words of the record cache. -/
def recOf (x : Nat × Nat × List Nat) : RecV :=
  let (i, e, ws) := x
  let w := fun (k : Nat) => ws.getD k 0
  { idx := i, fmt := (ringFmt (bits e 31 28)).getD .bf16, scale := signed8 (bits e 23 16),
    ver := BitVec.ofNat 16 e, base := bits (w 1) 55 0, count := bits (w 2) 39 0, master := bits (w 3) 55 0,
    bscale := bits (w 4) 55 0, stamps := bits (w 5) 55 0, s0 := signed8 (bits (w 6) 63 56) }

/-- The words that a record cache holds have no `z` bit set (R8, R375). DESIGN CHOICE (log 68): a record with one is refused as one that is
not live. -/
def wordsSound (ws : List Nat) : Bool := (cachedOffsets.zip ws).all fun x => wordSound (x.1 / 8) x.2

/-- What RecordOf(t) takes: the index, the pinned entry and the words (R379); ILLEGAL on an unbound slot. -/
def recordParts (s : State) (t : Core) (st : Strand) (slot : Fin 16) : Except Halt (Nat × Nat × List Nat) :=
  match st.slots.get slot with
  | none => raise .illegal
  | some i => do
    let j ← jobOf s st
    let e ← match pinOf s st i.toNat with
      | some e => pure e.toNat
      | none => ringAt s t j i.toNat 0
    let ws ← recordWords s t j i.toNat
    need (wordsSound ws) .protection
    .ok (i.toNat, e, ws)

/-- RecordOf(t) (R379). -/
def recordOf (s : State) (t : Core) (st : Strand) (slot : Fin 16) : Except Halt RecV := do
  let x ← recordParts s t st slot
  .ok (recOf x)

/-- Pins a record for a launch: the first binding fixes the home's current version (R379). A binding fills the record cache with the
words it keeps (R383), none of which may be poisoned (R495). -/
def pinRecord (s : State) (t : Core) (st : Strand) (i : Nat) : Except Halt State := do
  let j ← jobOf s st
  if i ≥ j.rtsize then raise .protection
  else
    let e ← ringAt s t j i 0
    let ws ← recordWords s t j i
    if !ringLive e || !wordsSound ws then raise .protection
    else
      .ok ((s.updStrand t fun q => { q with records := insertNat q.records i ws }).updLaunch st.handle fun l =>
        match lookupNat l.pins i with
        | some _ => l
        | none => { l with pins := insertNat l.pins i (BitVec.ofNat 32 e) })

/-- A tile core's record cache holds the words of a record as the home has them now, or none where they cannot be read (R383). -/
def refill (s : State) (t : Core) (i : Nat) : State :=
  match s.strand t with
  | none => s
  | some st =>
    let rest := st.records.filter fun x => x.1 != i
    let now := (s.job? st.job).bind fun j => (cachedOffsets.mapM fun o => cacheWord s t j (recAddr j i + o)).toOption
    s.setStrand t { st with records := match now with | some ws => insertNat rest i ws | none => rest }

/-- The records bound by a strand that is placed enter its tile core's record cache (R383), and their lines shared SRAM (R245). -/
def fillRecords (s : State) (t : Core) : State :=
  match s.strand t with
  | none => s
  | some st => match s.job? st.job with
    | none => s
    | some j => st.slots.toList.foldl (fun s b => match b with
      | some i => refill (s.touchRange (some t) (dieOf t) j (recAddr j i.toNat) 0x58) t i.toNat
      | none => s) s

/-- No slot and no extension holds the words of some records that a tile core is to take (R247, R423). -/
def recordsFree (s : State) (t : Core) (j : Job) (bs : Vector (Option (BitVec 24)) 16) : Bool :=
  bs.toList.all fun b => match b with
    | some i => s.unheld (some t) (dieOf t) j (recAddr j i.toNat) 0x58
    | none => true

/-- A new version, or a change of word 0x50, leaves no cached copy of a record of a job (R383). DEDUCED (log 36): a tile core that holds the
record bound takes its words again at once. -/
def State.invalidate (s : State) (job : Word) (i : Nat) : State :=
  allCoreIds.foldl (fun s t => match s.strand t with
    | some st => if st.job == job && (lookupNat st.records i).isSome then refill s t i else s
    | none => s) s

/-- RingLookup over the home's ring (R380): the entry whose version matches. -/
def ringLookup (s : State) (t : Core) (j : Job) (i : Nat) (hit : Nat → Bool) : Nat → Nat → Except Halt (Fmt × Int × BitVec 16)
  | 0, _ => raise .staleScale
  | fuel + 1, k => do
    let e ← ringAt s t j i k
    if bits e 24 24 == 1 && hit (e % 2 ^ 16) then
      .ok (ringFormat e, signed8 (bits e 23 16), BitVec.ofNat 16 e)
    else ringLookup s t j i hit fuel (k + 1)

/-- By a 16-bit tag version. -/
def lookupVersion (s : State) (t : Core) (st : Strand) (i : Nat) (ver : BitVec 16) : Except Halt (Fmt × Int × BitVec 16) := do
  let j ← jobOf s st
  ringLookup s t j i (fun v => v == ver.toNat) 8 0

/-- By a stamp byte. -/
def lookupStamp (s : State) (t : Core) (st : Strand) (i : Nat) (b : Nat) : Except Halt (Fmt × Int × BitVec 16) := do
  let j ← jobOf s st
  ringLookup s t j i (fun v => v % 256 == b) 8 0

/-! Counting (R381). -/

/-- A bin raised, bins kept rising. -/
def binAdd (l : List (Nat × Nat)) (b n : Nat) : List (Nat × Nat) :=
  insertNat l b ((lookupNat l b).getD 0 + n)

/-- Clamp of R381. -/
def clampInt (v lo hi : Int) : Int := max lo (min v hi)

/-- The greater of two maxima, none below every integer. -/
def maxOpt (a b : Option Int) : Option Int :=
  match a, b with
  | some x, some y => some (max x y)
  | some x, none => some x
  | none, y => y

/-- Count of one element: its class, its scaled exponent, the scale it was written under and the phase frame. -/
def Delta.count (d : Delta) (cls : Cls) (ex : Option Int) (s s0 : Int) : Delta :=
  let d := { d with n := d.n + 1 }
  let d := match cls with
    | .overflow => { d with ovf := d.ovf + 1 }
    | .underflow => { d with udf := d.udf + 1 }
    | .nan => { d with nan := d.nan + 1 }
    | .zero => { d with zero := d.zero + 1 }
    | .value => d
  match ex with
  | none => d
  | some e =>
    let f := e + s - s0
    { d with bins := binAdd d.bins (clampInt f (-32) 15 + 32).toNat 1, max := maxOpt d.max (some (clampInt f (-127) 127)) }

/-- Adding deltas (R382). -/
def Delta.add (a b : Delta) : Delta :=
  { n := a.n + b.n, ovf := a.ovf + b.ovf, udf := a.udf + b.udf, nan := a.nan + b.nan, zero := a.zero + b.zero,
    bins := b.bins.foldl (fun l x => binAdd l x.1 x.2) a.bins, max := maxOpt a.max b.max }

/-- An element counted into the tile core's delta for (launch, record). -/
def countInto (s : State) (t : Core) (r : RecV) (cls : Cls) (ex : Option Int) (scale : Int) : State :=
  s.updStrand t fun st =>
    { st with deltas := insertNat st.deltas r.idx (((lookupNat st.deltas r.idx).getD {}).count cls ex scale r.s0) }

/-- A Stamp of a tile core on its way to the home of a stamp byte, the newest first (R383). -/
def stampsTo (s : State) (t : Core) (pa : Nat) : List Pending :=
  s.pending.reverse.filter fun p => p.stamp.isSome && p.agent.core == t && p.addr == pa

/-- A stamp byte as a tile core's record cache has it (R308, R383): its own Stamps on their way first, then the home's byte; a Stamp on its
way that the strand has acquired is waited for. -/
def stampByte (s : State) (t : Core) (j : Job) (va : Nat) : Except Halt Nat := do
  let home ← cacheByte s t j va
  match translate s (some t) (dieOf t) j va .read with
  | .error c => raise c
  | .ok l => .ok (match stampsTo s t l.pa with | p :: _ => natOfBytes p.bytes | [] => home)

/-- A granule's state as a tile core has it (R277, R383). -/
def granuleSeen (s : State) (t : Core) (j : Job) (rec g : Nat) : Option Bool :=
  if s.pending.any fun p => p.agent.core == t && match p.stamp with
    | some q => q.job == j.no && q.record == rec && q.granule == g && !q.opened
    | none => false
  then some false else granuleState j rec g

/-- The stamp byte is read by an engine, which is bound to see its write from then on (R310). -/
def stampRead (s : State) (t : Core) (e : Eng) (j : Job) (va : Nat) : Except Halt (State × Nat) := do
  let b ← stampByte s t j va
  match s.strand t, translate s (some t) (dieOf t) j va .read with
  | some st, .ok l => .ok (s.looked t e (lookNow s.mem (s.plain l.key) s.past (st.agent t e.part) l.pa 1), b)
  | _, _ => .ok (s, b)

/-- A granule is opened for a tile core (R277): a Stamp of its own record cache that is on its way has been opened too, and does not leave
it PENDING. -/
def openGranule (s : State) (t : Core) (job : Word) (rec g : Nat) : State :=
  let s1 := setGranule s job rec g (some true)
  { s1 with pending := s1.pending.map fun p =>
    if p.agent.core != t then p
    else { p with stamp := p.stamp.map fun q => if q.job == job && q.record == rec && q.granule == g then { q with opened := true } else q } }

/-- A Stamp's write of its byte by an engine: at the home at once, or on its way while a slot or an extension holds it, or the gate of
R309 does, or an earlier Stamp of the byte is on its way; the engine goes on (R383). DESIGN CHOICE (log 69): a stamp page mapped against
R259 is written all the same, and the write has no writer identity (R248). -/
def stampWrite (s : State) (t : Core) (st : Strand) (e : Eng) (j : Job) (va : Nat) (b : Byte) (q : StampOf) : Except Halt State :=
  match translate s (some t) (dieOf t) j va .write with
  | .error c => raise c
  | .ok l =>
    let (p, s1) := s.number (st.agent t e.part) ((s.strand t).getD st |>.eng e).sig.rels l [b] false none
    let p := { p with stamp := some q }
    if slotHolds s (dieOf t) l || extensionHolds s (dieOf t) l || !s.gate p.clock || s.pending.any (fun x => x.addr == l.pa) then
      .ok { s1 with pending := s1.pending ++ [p] }
    else .ok (s1.applyWrite p j.phase)

/-- Stamp(t, e) and Count by an engine (R72, R277): `opened` when the write itself has opened the granule. -/
def stampElem (s : State) (t : Core) (st : Strand) (e : Eng) (r : RecV) (i : Nat) (cls : Cls) (ex : Option Int) (opened : Bool) :
    Except Halt State :=
  if i ≥ r.count then raise .protection
  else do
    let j ← jobOf s st
    let g := i / 65536
    let (s, old) ← stampRead s t e j (r.stamps + g)
    let new := r.ver.toNat % 256
    if old == new then .ok (countInto s t r cls ex r.scale)
    else
      let s1 ← stampWrite s t st e j (r.stamps + g) (BitVec.ofNat 8 new) ⟨st.job, r.idx, g, opened⟩
      .ok (countInto s1 t r cls ex r.scale)

/-- The deltas of a strand added to its launch's accumulators and cleared (R382): all, or one record's. -/
def flushDeltas (s : State) (t : Core) (only : Option Nat) : State :=
  match s.strand t with
  | none => s
  | some st =>
    let mine := st.deltas.filter fun d => match only with | some i => d.1 == i | none => true
    let s1 := s.updLaunch st.handle fun l =>
      { l with accums := mine.foldl (fun a d => insertNat a d.1 (((lookupNat a d.1).getD {}).add d.2)) l.accums }
    s1.updStrand t fun q => { q with deltas := q.deltas.filter fun d => match only with | some i => d.1 != i | none => false }

/-! The record words (R391 to R396). -/

/-- The record index of a bound slot. -/
def boundSlot (st : Strand) (c : Code) : Except Halt Nat := do
  let k ← slotRole c
  match st.slots.get k with
  | some i => .ok i.toNat
  | none => raise .illegal

/-- A request of the control engine to a home, for bytes of a job within a line (R391): refused or held by slots as any cacheable request
of a strand (R293, R294); it waits for the writes there that the engine must find, and what it reads the engine is bound to see (R299,
R310); its line comes into shared SRAM. -/
def homeRequest (s : State) (t : Core) (st : Strand) (j : Job) (va n : Nat) : Except Halt State := do
  strictAt s t .c st.c.slotmode j va
  walkGate s t Eng.c.part j va
  match translate s (some t) (dieOf t) j va .read with
  | .error c => raise c
  | .ok l =>
    requestGate s t Eng.c.part l
    let me := st.agent t Eng.c.part
    if s.awaits me st.c.view l.pa n then await .writes
    else .ok (((touchWalk s t j va).touch l false).looked t .c (lookNow s.mem (s.plain l.key) s.past me l.pa n))

/-- A request for a word of a record. -/
def recordRequest (s : State) (t : Core) (st : Strand) (j : Job) (i off : Nat) : Except Halt State := homeRequest s t st j (recAddr j i + off) 8

def putX (s : State) (t : Core) (d : Code) (v : Nat) : State :=
  s.updStrand t fun q => q.setX d ⟨BitVec.ofNat 64 v, false⟩

def tbindOp (tc a : Code) (s : State) (t : Core) (st : Strand) : Except Halt State := do
  let k ← slotRole tc
  let v ← clean (st.x? a)
  let j ← jobOf s st
  if v.toNat ≥ j.rtsize then raise .protection
  else
    let s1 ← recordRequest s t st j v.toNat 0x30
    let s2 ← pinRecord s1 t st v.toNat
    .ok (s2.updStrand t fun q => { q with slots := q.slots.set k.val (some (v.setWidth 24)) k.isLt })
def execTbind (t a : Code) (s : State) : Out := checkedWord .c 2 (tbindOp t a) s

def tunbOp (tc : Code) (st : Strand) : Except Halt Strand := do
  let k ← slotRole tc
  .ok { st with slots := st.slots.set k.val none k.isLt }
def execTunb (t : Code) (s : State) : Out := strandWord .c 2 (tunbOp t) s

def treadOp (d tc : Code) (imm : Word) (s : State) (t : Core) (st : Strand) : Except Halt State := do
  let i ← boundSlot st tc
  if imm.toNat % 8 != 0 || imm.toNat > 248 then raise .illegal
  else
    let j ← jobOf s st
    let s1 ← recordRequest s t st j i imm.toNat
    let w ← cacheWord s1 t j (recAddr j i + imm.toNat)
    .ok (putX s1 t d w)
def execTread (d t : Code) (imm : Word) (s : State) : Out := checkedWord .c 2 (treadOp d t imm) s

def tverOp (d tc : Code) (s : State) (t : Core) (st : Strand) : Except Halt State := do
  let i ← boundSlot st tc
  let j ← jobOf s st
  match pinOf s st i with
  | some e => .ok (putX s t d e.toNat)
  | none =>
    let e ← ringAt s t j i 0
    .ok (putX s t d e)
def execTver (d t : Code) (s : State) : Out := checkedWord .c 2 (tverOp d t) s

/-- Selectors 0 to 5 of a set of counts (R394): zero, NaN, overflow, underflow, counted, max. -/
def deltaField (d : Delta) (k : Nat) : Option Nat :=
  match k with
  | 0 => some d.zero | 1 => some d.nan | 2 => some d.ovf | 3 => some d.udf | 4 => some d.n
  | 5 => some (BitVec.ofInt 64 (d.max.getD (-128))).toNat
  | _ => none

/-- What TSTAT reads (R394). -/
inductive StatAt where
  /-- bits [hi:lo] of the record's word at an offset -/
  | word (off hi lo : Nat)
  /-- histogram bin `b` of the record: 24 bits from bit 24·b on, words 0x58 and up -/
  | hist (b : Nat)
  /-- a bin, or a field of `deltaField`, of the phase counts or of the launch accumulator -/
  | bin (launch : Bool) (b : Nat)
  | field (launch : Bool) (k : Nat)

def statAt (sel : Nat) : Option StatAt :=
  if sel < 48 then some (.hist sel)
  else if sel = 48 then some (.word 0xE8 39 16)
  else if sel = 49 then some (.word 0xE8 63 40)
  else if sel = 50 then some (.word 0xE8 13 8)
  else if 64 ≤ sel && sel < 112 then some (.bin false (sel - 64))
  else if 112 ≤ sel && sel < 118 then some (.field false (sel - 112))
  else if 128 ≤ sel && sel < 176 then some (.bin true (sel - 128))
  else if 176 ≤ sel && sel < 182 then some (.field true (sel - 176))
  else none

def tstatOp (d tc : Code) (imm : Word) (s : State) (t : Core) (st : Strand) : Except Halt State := do
  let i ← boundSlot st tc
  let j ← jobOf s st
  let counts := fun (launch : Bool) =>
    if launch then ((s.launch? st.handle).bind fun l => lookupNat l.accums i).getD {} else (lookupNat j.counts i).getD {}
  match statAt imm.toNat with
  | none => raise .illegal
  | some (.word off hi lo) => do
    let s1 ← recordRequest s t st j i off
    let w ← cacheWord s1 t j (recAddr j i + off)
    .ok (putX s1 t d (bits w hi lo))
  | some (.hist b) => do
    let lo := 24 * b
    let a := 0x58 + 8 * (lo / 64)
    let a' := 0x58 + 8 * ((lo + 23) / 64)
    let s1 ← recordRequest s t st j i a
    let s2 ← recordRequest s1 t st j i a'
    let w0 ← cacheWord s2 t j (recAddr j i + a)
    let w1 ← if a' = a then pure 0 else cacheWord s2 t j (recAddr j i + a')
    .ok (putX s2 t d (bits (w1 * 2 ^ 64 + w0) (lo % 64 + 23) (lo % 64)))
  | some (.bin l b) => do
    let s1 ← recordRequest s t st j i 0
    .ok (putX s1 t d ((lookupNat (counts l).bins b).getD 0))
  | some (.field l k) => do
    let s1 ← recordRequest s t st j i 0
    .ok (putX s1 t d ((deltaField (counts l) k).getD 0))
def execTstat (d t : Code) (imm : Word) (s : State) : Out := checkedWord .c 2 (tstatOp d t imm) s

/-- A Stamp under way that a strand has made under a record (R396). -/
def Pending.stampsOf (me : Agent) (i : Nat) (p : Pending) : Bool := p.agent.mate me && p.stamp.any fun q => q.record == i

/-- TSYNC waits until every Stamp of the strand under the record has been applied at its home (R396). -/
def tsyncOp (tc : Code) (s : State) (t : Core) (st : Strand) : Except Halt State := do
  let i ← boundSlot st tc
  let j ← jobOf s st
  let s1 ← recordRequest s t st j i 0
  if s1.pending.any (Pending.stampsOf (st.agent t Eng.c.part) i) then await .writes
  else .ok (flushDeltas s1 t (some i))
def execTsync (t : Code) (s : State) : Out := checkedWord .c 2 (tsyncOp t) s

/-- InRing of R395. -/
def inRing (s : State) (t : Core) (j : Job) (i b : Nat) : Nat → Except Halt Bool
  | 0 => .ok false
  | k + 1 => do
    let e ← ringAt s t j i k
    if bits e 24 24 == 1 && e % 256 == b then .ok true else inRing s t j i b k

def tstmpOp (d a : Code) (imm : Word) (s : State) (t : Core) (st : Strand) : Except Halt State :=
  if imm.toNat ≥ 16 then raise .illegal
  else do
    let v ← clean (st.x? a)
    let i ← boundSlot st (imm.setWidth 5)
    let j ← jobOf s st
    let ws ← recordWords s t j i
    if v.toNat ≥ bits (ws.getD 2 0) 39 0 then raise .protection
    else
      let g := v.toNat / 65536
      let a := bits (ws.getD 5 0) 55 0 + g
      let s1 ← recordRequest s t st j i 0x30
      let s2 ← homeRequest s1 t st j a 1
      let b ← stampByte s2 t j a
      let gs := match granuleSeen s2 t j i g with | none => 0 | some false => 1 | some true => 2
      let r ← inRing s2 t j i b 8
      .ok (putX s2 t d (b + gs * 256 + (if r then 1024 else 0)))
def execTstmp (d a : Code) (imm : Word) (s : State) : Out := checkedWord .c 2 (tstmpOp d a imm) s

def tringOp (d tc : Code) (imm : Word) (s : State) (t : Core) (st : Strand) : Except Halt State := do
  let i ← boundSlot st tc
  if imm.toNat ≥ 8 then raise .illegal
  else
    let j ← jobOf s st
    let s1 ← recordRequest s t st j i (0x30 + 4 * imm.toNat / 8 * 8)
    let e ← ringAt s1 t j i imm.toNat
    .ok (putX s1 t d e)
def execTring (d t : Code) (imm : Word) (s : State) : Out := checkedWord .c 2 (tringOp d t imm) s

end Sys2Proof.Machine
end

