-- ==== Sys2Proof/Machine/Windows.lean ====
section
/-! DEFINITION. Operand windows (R219 to R224) and traversals of shapes (R263, R267). -/

namespace Sys2Proof.Machine

/-! Windows. -/

/-- Element size in half-bytes (R220). -/
def Fmt.halves : Fmt → Nat
  | .fp32 => 8 | .bf16 => 4 | .fp16 => 4 | .e4m3 => 2 | .e5m2 => 2 | .e2m1 => 1

def Window.rows (w : Window) : Nat := w.rows1.toNat + 1
def Window.cols (w : Window) : Nat := w.cols1.toNat + 1
/-- Stored rows (R220). -/
def Window.storedRows (w : Window) : Nat := if w.tr = 1 then w.cols else w.rows
/-- Code bytes of a stored row (R220, R272). -/
def Window.codeLen (w : Window) (f : Fmt) : Nat := (if w.tr = 1 then w.rows else w.cols) * f.halves / 2
/-- Length of a stored row (R220). -/
def Window.rowLen (w : Window) (f : Fmt) : Nat :=
  if f = .e2m1 ∧ w.tr = 0 then 17 * w.cols / 32 else w.codeLen f
/-- Address of a stored row. -/
def Window.rowAddr (w : Window) (i : Nat) : Nat := 64 * w.base.toNat + i * (64 * w.pitch.toNat)
/-- Address of the code of logical element (i, k) (R220). -/
def Window.elemAddr (w : Window) (f : Fmt) (i k : Nat) : Nat :=
  if w.tr = 1 then w.rowAddr k + i * f.halves / 2 else w.rowAddr i + k * f.halves / 2
/-- Address of an MXFP4 block scale (R220). -/
def Window.scaleAddr (w : Window) (i blk : Nat) : Nat := w.rowAddr i + w.cols / 2 + blk

/-- Check(W, F) of R221, with or without its final pitch test (R272). -/
def Window.check (w : Window) (f : Fmt) (pitchTest : Bool) : Except Halt Unit :=
  let n := w.storedRows
  let len := w.rowLen f
  if f = .fp32 then raise .illegal
  else if f = .e2m1 ∧ w.tr = 1 then raise .illegal
  else if f = .e2m1 ∧ w.cols % 32 ≠ 0 then raise .align
  else if n > 1 ∧ 64 * w.pitch.toNat < len then raise .illegal
  else if 64 * w.base.toNat + (n - 1) * (64 * w.pitch.toNat) + len > Config.spadBytes then raise .protection
  else if pitchTest ∧ n > 1 ∧ w.pitch.toNat % 2 = 0 then raise .bankConflict
  else .ok ()

/-- Kinds 2 and 3 of a window (R219). -/
def Window.plainFmt (w : Window) : Option Fmt :=
  if w.kind = 2 then some .bf16 else if w.kind = 3 then some .fp16 else none

/-- The wait of R223. -/
def windowWait (st : Strand) (e : Eng) (ws : List Nat) : Except Halt Unit :=
  if st.ledger.any fun l => l.owner != e && decide (l.pos < (st.eng e).pos) && l.windows.any ws.contains
  then await .window else .ok ()

/-- A window word sees what the completed window words of its windows wrote (R223, R300). -/
def bindWindows (s : State) (t : Core) (e : Eng) (ws : List Nat) : State :=
  match s.strand t with
  | none => s
  | some st => ws.foldl (fun s w => s.bind t e (st.winViews.toList.getD w {})) s

/-- What a window word has written through its window between two states (R223, R300). -/
def noteWindow (before after : State) (t : Core) (w : Nat) : State :=
  let v : View := { ids := (List.range (after.writes - before.writes)).map (· + before.writes) }
  after.updStrand t fun q => { q with winViews := if h : w < 8 then q.winViews.set w ((q.winViews.get ⟨w, h⟩).join v) h else q.winViews }

/-! Traversals. -/

def Shape.e (h : Shape) (i : Nat) : Nat := (h.ext.toList.getD i 0).toNat
def Shape.st (h : Shape) (i : Nat) : Int := (h.stride.toList.getD i 0).toInt
/-- N of R267. -/
def Shape.count (h : Shape) : Nat := h.e 0 * h.e 1 * h.e 2 * h.e 3
/-- Address of traversal element `n` from base `b` (R267). -/
def Shape.addr (h : Shape) (b n : Nat) : Int :=
  let n1 := n / h.e 0
  let n2 := n1 / h.e 1
  let n3 := n2 / h.e 2
  (b : Int) + (n % h.e 0 : Nat) * h.st 0 + (n1 % h.e 1 : Nat) * h.st 1 + (n2 % h.e 2 : Nat) * h.st 2
    + (n3 % h.e 3 : Nat) * h.st 3
/-- The lowest and the highest element address (R263): corners of the traversal. -/
def Shape.low (h : Shape) (b : Nat) : Int :=
  (List.range 4).foldl (fun a i => a + min 0 (((h.e i : Int) - 1) * h.st i)) b
def Shape.high (h : Shape) (b : Nat) : Int :=
  (List.range 4).foldl (fun a i => a + max 0 (((h.e i : Int) - 1) * h.st i)) b

/-- The range of R263 for bytes `lo` to `hi` of an access whose first element is at `b`. -/
def checkSpan (b lo hi : Int) : Except Halt Unit :=
  if 0 ≤ b ∧ b < Config.spadBytes then
    if 0 ≤ lo ∧ hi < Config.spadBytes then .ok () else raise .protection
  else
    if (Config.spadBytes : Int) ≤ lo ∧ hi < 2 ^ 56 then .ok () else raise .translation

/-- The checks of R263 for a traversal of elements of `z` bytes; one of no elements touches nothing (R267). -/
def checkTraversal (h : Shape) (b z : Nat) : Except Halt Unit :=
  if h.count = 0 then .ok ()
  else do
    checkSpan b (h.low b) (h.high b + z - 1)
    need (b % z == 0 && (List.range 4).all fun i => h.e i ≤ 1 || h.st i % z == 0) .align

/-! Bytes with poison. -/

/-- The 64 lanes of 256 bytes, the rest zero (R271). -/
def lanesOf (bs : List Byte) : Vector Word 64 :=
  tab 64 fun i => BitVec.ofNat 32 (natOfBytes ((bs.drop (4 * i)).take 4))

/-- The 256 bytes of a row. -/
def Row.bytes (r : Row) : List Byte := r.lanes.toList.flatMap fun w => bytesOfNat 4 w.toNat

/-- Scratchpad bytes read by an engine, 8 at a time (R299), each with its granule's poison. -/
def spadBytes (s : State) (t : Core) (e : Eng) (a n : Nat) : State × List (Byte × Bool) :=
  let r := (pieces 8 (n / 8 + 2) a (List.replicate n ())).foldl (fun (r : State × List (List (Byte × Bool))) p =>
    let (s1, bs, q) := spadRead r.1 t e p.1 p.2.length
    (s1, (bs.map fun b => (b, q)) :: r.2)) (s, [])
  (r.1, r.2.reverse.flatten)

/-- Scratchpad as an engine reads some ranges of it, 8 bytes at a time (R299): its bytes there, and the granules of them that are
poisoned. -/
def spadSeen (s : State) (t : Core) (e : Eng) (ranges : List (Nat × Nat)) : State × Mem :=
  let m := (s.core t).spad
  ranges.foldl (fun r p => (pieces 8 (p.2 / 8 + 2) p.1 (List.replicate p.2 ())).foldl (fun r q =>
    let (s1, bs, bad) := spadRead r.1 t e q.1 q.2.length
    let m1 := if bs == m.bytes q.1 q.2.length then r.2 else r.2.setBytes q.1 bs
    (s1, if bad then m1.poisonGranule (q.1 / 32) else m1)) r) (s, { m with poison := [] })

/-- The stored rows of a window in a format. -/
def Window.ranges (w : Window) (f : Fmt) : List (Nat × Nat) := (List.range w.storedRows).map fun i => (w.rowAddr i, w.rowLen f)

/-- A stream of bytes stored to scratchpad by an agent from byte `o` of it on: byte `o` at `dst o`, runs of `row` bytes being
contiguous. -/
def writeStream (me : Agent) (c : Carried) (dst : Nat → Nat) (row : Nat) : Nat → Nat → List (Byte × Bool) → State → State
  | 0, _, _, s => s
  | fuel + 1, o, bs, s =>
    if bs.isEmpty then s
    else
      let k := max 1 (row - o % row)
      writeStream me c dst row fuel (o + k) (bs.drop k) (s.spadRun me c (dst o) (bs.take k))

end Sys2Proof.Machine
end

