-- ==== Sys2Proof/Machine/Access.lean ====
section
/-! DEFINITION. The access engine's address arithmetic, shapes, windows, loads and stores (R261 to R277). -/

namespace Sys2Proof.Machine

/-! Operand roles. -/

/-- A code of the address role that may be a source: 0 to 15, 24, 25 (R264). -/
def needSrcA (c : Code) : Except Halt Unit := need (decide (c.toNat < 16) || c == 24 || c == 25) .illegal

/-- A window code of the access engine: 16 to 23 (R90). -/
def roleWin (c : Code) : Except Halt (Fin 8) :=
  if 16 ≤ c.toNat ∧ c.toNat < 24 then .ok ⟨c.toNat % 8, Nat.mod_lt _ (by decide)⟩ else raise .illegal

def Strand.setW (st : Strand) (i : Fin 8) (w : Window) : Strand := { st with wins := st.wins.set i.val w i.isLt }

/-! Address arithmetic (R265). -/

/-- Two sources: their values added or subtracted, poison ORed. -/
def addrBinary (f : DWord → DWord → DWord) (d a b : Code) (st : Strand) : Except Halt Strand := do
  let i ← role16 d
  needSrcA a
  needSrcA b
  let (x, st1) ← srcA st a
  let (y, st2) ← srcA st1 b
  .ok (st2.setA i ⟨f x.val y.val, x.poison || y.poison⟩)

/-- One source and an immediate: poison is that of the source. -/
def addrUnary (f : DWord → DWord) (d a : Code) (st : Strand) : Except Halt Strand := do
  let i ← role16 d
  needSrcA a
  let (x, st1) ← srcA st a
  .ok (st1.setA i ⟨f x.val, x.poison⟩)

/-- An immediate: poison clear. -/
def addrImm (d : Code) (v : DWord) (st : Strand) : Except Halt Strand := do
  let i ← role16 d
  .ok (st.setA i ⟨v, false⟩)

def execAadd (d a b : Code) (s : State) : Out := strandWord .a 1 (addrBinary (· + ·) d a b) s
def execAsub (d a b : Code) (s : State) : Out := strandWord .a 1 (addrBinary (· - ·) d a b) s
def execAaddi (d a : Code) (i : BitVec 14) (s : State) : Out := strandWord .a 1 (addrUnary (· + i.signExtend 64) d a) s
def execAmuli (d a : Code) (i : BitVec 14) (s : State) : Out := strandWord .a 1 (addrUnary (· * i.signExtend 64) d a) s
def execAli (d : Code) (i : BitVec 19) (s : State) : Out := strandWord .a 1 (addrImm d (i.signExtend 64)) s
def execAliw (d : Code) (imm : Word) (s : State) : Out := strandWord .a 2 (addrImm d (imm.signExtend 64)) s
def execAaddw (d a : Code) (imm : Word) (s : State) : Out := strandWord .a 2 (addrUnary (· + imm.signExtend 64) d a) s

/-! Shape registers (R266, R268). -/

/-- Field `f` of a shape register set: 0 to 3 extents, 4 to 7 strides. -/
def Shape.setField (h : Shape) (f : Nat) (e : Word) (v : BitVec 48) : Shape :=
  if hf : f < 4 then { h with ext := h.ext.set f e }
  else if hg : f - 4 < 4 then { h with stride := h.stride.set (f - 4) v }
  else h

def hsetOp (d a : Code) (f : BitVec 3) (st : Strand) : Except Halt Strand := do
  let i ← role16 d
  needSrcA a
  let (x, st1) ← srcA st a
  let v ← clean x
  if f.toNat < 4 then
    if v.toNat ≥ 2 ^ 32 then raise .illegal
    else .ok (st1.setH i ((st1.shapes.get i).setField f.toNat (v.setWidth 32) 0))
  else if v.toInt < -(2 ^ 47) ∨ v.toInt ≥ 2 ^ 47 then raise .illegal
  else .ok (st1.setH i ((st1.shapes.get i).setField f.toNat 0 (v.setWidth 48)))
def execHset (d a : Code) (f : BitVec 3) (s : State) : Out := strandWord .a 1 (hsetOp d a f) s

def hsetwOp (d f : Code) (imm : Word) (st : Strand) : Except Halt Strand := do
  let i ← role16 d
  let k ← role8 f
  .ok (st.setH i ((st.shapes.get i).setField k.val imm (imm.signExtend 48)))
def execHsetw (d f : Code) (imm : Word) (s : State) : Out := strandWord .a 2 (hsetwOp d f imm) s

def hgetOp (d a : Code) (f : BitVec 3) (st : Strand) : Except Halt Strand := do
  let i ← role16 d
  let k ← role16 a
  let h := st.shapes.get k
  let v : DWord := if f.toNat < 4 then (h.ext.toList.getD f.toNat 0).setWidth 64
    else (h.stride.toList.getD (f.toNat - 4) 0).signExtend 64
  .ok (st.setA i ⟨v, false⟩)
def execHget (d a : Code) (f : BitVec 3) (s : State) : Out := strandWord .a 1 (hgetOp d a f) s

/-- The shape record of R104 from its 48 bytes; none when a z field is not zero. -/
def shapeOfBytes (bs : List Byte) : Option Shape :=
  let v := natOfBytes bs
  let st := fun (k : Nat) => bits v (128 + 64 * k + 63) (128 + 64 * k)
  if (List.range 4).any fun k => bits (st k) 63 48 != 0 then none
  else some { ext := tab 4 fun k => BitVec.ofNat 32 (bits v (32 * k + 31) (32 * k))
              stride := tab 4 fun k => BitVec.ofNat 48 (st k) }

/-- The address of HLD, over the integers (R10, R268). -/
def hldStart (d a : Code) (i : BitVec 14) (st : Strand) : Except Halt (PWord × Strand) := do
  let _ ← role16 d
  needSrcA a
  let (x, st1) ← srcA st a
  let v ← clean x
  let addr : Int := v.toNat + i.toInt
  if addr % 16 ≠ 0 then raise .align
  else
    checkSpan addr addr (addr + 47)
    .ok (⟨BitVec.ofInt 64 addr, false⟩, st1)

/-- Elements of 8 bytes read by the access engine from an address on, `n` of them still to come; what it has read stays in the latch
while a later one waits (R421). -/
def gatherWords (t : Core) (x : PWord) : Nat → State → WordResult
  | 0, s => .done s
  | n + 1, s =>
    match s.strand t with
    | none => .done s
    | some st =>
      let l := st.a.latch.getD { addr := x }
      let keep := fun (s : State) (l : Latch) => s.updStrand t fun q => { q with a := { q.a with latch := some l } }
      match elemRead s t st .a st.a.slotmode (x.val.toNat + l.buf.length) 8 with
      | .ok (s1, bs, p) => gatherWords t x n (keep s1 { l with buf := l.buf ++ bs.map fun b => (b, p) })
      | .error (.wait w) => .stay w (keep s l)
      | .error (.fault c) => .trap c .partway s

def hldOp (d a : Code) (i : BitVec 14) (s : State) (t : Core) (st : Strand) : WordResult :=
  let start : Except Halt (PWord × State) := match st.a.latch with
    | some l => .ok (l.addr, s)
    | none => do
      let (x, st1) ← hldStart d a i st
      if !isLocal x.val.toNat then strictGate s st.a.slotmode
      .ok (x, s.setStrand t { st1 with a := { st1.a with latch := some { addr := x } } })
  match start with
  | .error (.wait w) => .stay w s
  | .error (.fault c) => .trap c .atWord s
  | .ok (x, s0) =>
    let left := 6 - (st.a.latch.map fun l => l.buf.length / 8).getD 0
    match gatherWords t x left s0 with
    | .done s1 =>
      let buf := ((s1.strand t).bind fun q => q.a.latch.map fun l => l.buf).getD []
      if buf.any Prod.snd then .trap .poisonSync .atWord s
      else
        match shapeOfBytes (buf.map Prod.fst) with
        | none => .trap .illegal .atWord s
        | some h => .done (s1.updStrand t fun q => if hk : d.toNat < 16 then q.setH ⟨d.toNat, hk⟩ h else q)
    | r => r
def execHld (d a : Code) (i : BitVec 14) (s : State) : Out := machineWord .a 1 (hldOp d a i) s

/-! AWIN (R269). -/

/-- The window that AWIN forms, when every field of the shape is in its table. -/
def windowOfShape (base : Nat) (h : Shape) : Option Window :=
  if 1 ≤ h.e 0 ∧ h.e 0 ≤ 4096 ∧ 1 ≤ h.e 1 ∧ h.e 1 ≤ 128 ∧ h.e 2 = 1 ∧ h.e 3 = 1 ∧ h.st 0 = 0 ∧ 0 ≤ h.st 1 ∧
      h.st 1 ≤ 32767 * 64 ∧ h.st 1 % 64 = 0 ∧ (h.st 2 = 0 ∨ h.st 2 = 1) ∧ (h.st 3 = 0 ∨ h.st 3 = 2 ∨ h.st 3 = 3) then
    some { kind := BitVec.ofInt 2 (h.st 3), tr := BitVec.ofInt 1 (h.st 2), cols1 := BitVec.ofNat 12 (h.e 0 - 1),
           rows1 := BitVec.ofNat 7 (h.e 1 - 1), pitch := BitVec.ofInt 15 (h.st 1 / 64), base := BitVec.ofNat 15 (base / 64) }
  else none

def awinOp (d a b : Code) (st : Strand) : Except Halt Strand := do
  let w ← roleWin d
  needSrcA a
  let k ← role16 b
  windowWait st .a [w.val]
  let (x, st1) ← srcA st a
  let v ← clean x
  if !isLocal v.toNat then raise .protection
  else if v.toNat % 64 ≠ 0 then raise .align
  else
    match windowOfShape v.toNat (st1.shapes.get k) with
    | none => raise .illegal
    | some r => .ok (st1.setW w r)
def execAwin (d a b : Code) (s : State) : Out := strandWord .a 1 (awinOp d a b) s

/-! Records behind a traversal (R273, R276). -/

/-- Elements of a record that bytes `lo` to `hi` of its storage hold, `half` half-bytes each. -/
def elemSpan (base : Nat) (half : Nat) (lo hi : Int) : Int × Int :=
  (Int.fdiv (2 * (lo - base)) half, Int.fdiv (2 * (hi - base) + 1) half)

/-- The granule loop of R273. -/
def sameStamps (s : State) (t : Core) (j : Job) (r : RecV) (b : Nat) : Nat → Nat → Except Halt Unit
  | 0, _ => .ok ()
  | n + 1, g => do
    let x ← stampByte s t j (r.stamps + g)
    if x != b || granuleSeen s t j r.idx g == some false then raise .mixedGranule
    else sameStamps s t j r b n (g + 1)

/-- The check of a tagged load over bytes `lo` to `hi` (R273): format and version of the codes. -/
def taggedRead (s : State) (t : Core) (st : Strand) (r : RecV) (lo hi : Int) : Except Halt (Fmt × BitVec 16) := do
  let (l, h) := elemSpan r.base r.fmt.halves lo hi
  if l < 0 ∨ h ≥ r.count then raise .protection
  else
    let j ← jobOf s st
    let g := l.toNat / 65536
    let b ← stampByte s t j (r.stamps + g)
    sameStamps s t j r b (h.toNat / 65536 - g + 1) g
    let (f, _, ver) ← lookupStamp s t st r.idx b
    if f.halves ≠ r.fmt.halves then raise .staleScale else .ok (f, ver)

/-- The requests of a load or store: how many, and the address and bytes of each (R267); for MXFP4 each row of `len` code
bytes is followed by its block scales in the record's block-scale region (R272, R273, R276). -/
def requests (h : Shape) (b z : Nat) (mx : Option (Nat × Nat)) (len : Nat) : Nat × (Nat → Int × Nat) :=
  match mx with
  | none => (h.count, fun k => (h.addr b k, z))
  | some (base, scales) =>
    let m := len / z
    let u := m + len / 16
    (h.count / m * u, fun k =>
      let i := k / u
      let j := k % u
      if j < m then (h.addr b (i * m + j), z)
      else
        let o := i * len + 16 * (j - m)
        ((scales : Int) + Int.fdiv (2 * (h.addr b (o / z) + (o % z : Nat) - base)) 32, 1))

/-! Loads (R271 to R274). -/

/-- One request read; ALD.S defers what a walk or a permission check finds (R274). -/
def readUnit (s : State) (t : Core) (st : Strand) (spec : Bool) (u : Int × Nat) : Except Halt (State × List (Byte × Bool)) :=
  match elemRead s t st .a st.a.slotmode u.1.toNat u.2 with
  | .ok (s', bs, p) => .ok (s', bs.map fun b => (b, p))
  | .error (.fault c) =>
    if spec && (c == .translation || c == .protection) then .ok (s, List.replicate u.2 (0, true)) else raise c
  | .error h => .error h

/-- `n` requests from number `k` read in order: the next number, what was read, in reverse, and what ended the reading. -/
def readRun (t : Core) (st : Strand) (spec : Bool) (unit : Nat → Int × Nat) :
    Nat → Nat → List (Byte × Bool) → State → State × Nat × List (Byte × Bool) × Option Halt
  | 0, k, acc, s => (s, k, acc, none)
  | n + 1, k, acc, s =>
    match readUnit s t st spec (unit k) with
    | .ok (s', bs) => readRun t st spec unit n (k + 1) (bs.reverse ++ acc) s'
    | .error h => (s, k, acc, some h)

/-- The latch of the access engine set, and its progress. -/
def keepA (s : State) (t : Core) (l : Latch) (progress : Nat) : State :=
  s.updStrand t fun q => { q with a := { q.a with latch := some l, progress } }

/-- Requests that end in entries of A2C: one entry per element (R271). -/
def loadA2c (t : Core) (spec : Bool) (l : Latch) (unit : Nat → Int × Nat) : Nat → Nat → State → WordResult
  | 0, _, s => .done s
  | n + 1, k, s =>
    match s.strand t with
    | none => .done s
    | some st =>
      match readUnit s t st spec (unit k) with
      | .error (.fault c) => .trap c .partway s
      | .error (.wait w) => .stay w (keepA s t l k)
      | .ok (s1, bs) =>
        match pushA2c ((s1.strand t).getD st) [⟨BitVec.ofNat 64 (natOfBytes (bs.map Prod.fst)), bs.any Prod.snd⟩] with
        | .ok st2 => loadA2c t spec l unit n (k + 1) (s1.setStrand t st2)
        | .error (.wait w) => .stay w (keepA s t l k)
        | .error (.fault c) => .trap c .partway s

/-- Requests of a load into A2V, from number `k` on: the bytes read fill an entry of 256, which is pushed when it is full or the
requests are over (R271, R273); what is read stays in the latch while the word waits (R421). -/
def loadA2v (t : Core) (spec : Bool) (unit : Nat → Int × Nat) (total : Nat) : Nat → State → WordResult
  | 0, s => .done s
  | fuel + 1, s =>
    match s.strand t with
    | none => .done s
    | some st =>
      let l := st.a.latch.getD {}
      let k := st.a.progress
      if l.buf.length ≥ 256 || (k ≥ total && !l.buf.isEmpty) then
        match pushA2v st [⟨lanesOf (l.buf.map Prod.fst), l.buf.any Prod.snd, l.tag⟩] with
        | .ok st2 => loadA2v t spec unit total fuel (keepA (s.setStrand t st2) t { l with buf := [] } k)
        | .error (.wait w) => .stay w s
        | .error (.fault c) => .trap c .partway s
      else if k ≥ total then .done s
      else
        let (s1, k1, acc, h) := readRun t st spec unit (min (total - k) ((256 - l.buf.length) / max 1 (unit k).2)) k [] s
        let s2 := keepA s1 t { l with buf := l.buf ++ acc.reverse } k1
        match h with
        | some (.fault c) => .trap c .partway s2
        | some (.wait w) => .stay w s2
        | none => loadA2v t spec unit total fuel s2

/-- Requests from number `k` on that fill scratchpad: what is read is written, and stands when a later request fails or is held
(R263, R421). -/
def loadSpad (t : Core) (st : Strand) (spec : Bool) (l : Latch) (unit : Nat → Int × Nat) (n : Nat) (dst : Nat → Nat) (row : Nat)
    (s : State) : WordResult :=
  let k := st.a.progress
  let (s1, k1, acc, h) := readRun t st spec unit (n - k) k [] s
  let o := k * (unit 0).2
  let s2 := keepA (writeStream (st.agent t Eng.a.part) st.a.sig.rels dst row acc.length o acc.reverse s1) t l k1
  match h with
  | none => .done s2
  | some (.fault c) => .trap c .partway s2
  | some (.wait w) => .stay w s2

/-- Where the local bytes of a dense operand start (R271, R275). -/
def denseBase (st : Strand) (i : Fin 16) (n : Nat) : Except Halt Nat := do
  let v ← clean (st.addrs.get i)
  if !isLocal v.toNat || decide (v.toNat + n > Config.spadBytes) then raise .protection else .ok v.toNat

/-- The checks of ALD before any effect (R271 to R273): the strand after its pop, and the latch of the word. -/
def loadStart (d a b : Code) (tc : BitVec 4) (r : BitVec 1) (sz : BitVec 2) (s : State) (t : Core) (st : Strand) :
    Except Halt (Strand × Latch) := do
  let dd := d.toNat
  let k ← role16 b
  needSrcA a
  need (decide (dd < 24) || dd == 28 || dd == 29) .illegal
  need (r == 1 || tc == 0) .illegal
  need (!(r == 1 && (decide (dd < 16) || dd == 28))) .illegal
  let win := decide (16 ≤ dd) && decide (dd < 24)
  if win then windowWait st .a [dd % 8]
  let (x, st1) ← srcA st a
  let v ← clean x
  let b := v.toNat
  let z := 2 ^ sz.toNat
  let h := st1.shapes.get k
  need (decide (h.count * z ≤ 2097152)) .illegal
  checkTraversal h b z
  let rec? : Option RecV ← if r == 1 then (do let q ← recordOf s t st1 tc.toFin; pure (some q)) else pure none
  let found : Option (Fmt × BitVec 16) ← match rec? with
    | some q =>
      if h.count = 0 then pure (some (q.fmt, q.ver))
      else do
        let f ← taggedRead s t st1 q (h.low b) (h.high b + z - 1)
        pure (some f)
    | none => pure none
  let mx : Option (Nat × Nat) := match rec?, found with
    | some q, some (.e2m1, _) => some (q.base, q.bscale)
    | _, _ => none
  let tag : RowTag := match found with
    | some (_, ver) => { tv := true, slot := tc, ver }
    | none => {}
  let latch : Latch := { addr := x, tag, mx }
  let strict : Except Halt Unit := if h.count ≠ 0 ∧ !isLocal b then strictGate s st.a.slotmode else .ok ()
  if hw : dd < 24 ∧ 16 ≤ dd then
    let w := st1.wins.get ⟨dd - 16, by omega⟩
    let f ← match found, w.plainFmt with
      | some (f, _), _ => pure f
      | none, some f => pure f
      | none, none => raise .illegal
    w.check f false
    need (z == f.bytes) .illegal
    let len := w.codeLen f
    need (h.count * z == w.storedRows * len) .illegal
    strict
    .ok (st1, { latch with row := (len, if mx.isSome then len + len / 16 else len) })
  else if dd = 29 then
    match mx with
    | some (base, _) =>
      need (h.count * z == 512 && Int.emod (2 * ((b : Int) - base)) 32 == 0) .illegal
      strict
      .ok (st1, latch)
    | none =>
      strict
      .ok (st1, latch)
  else if h0 : dd < 16 then
    let _ ← denseBase st1 ⟨dd, h0⟩ (h.count * z)
    strict
    .ok (st1, latch)
  else
    strict
    .ok (st1, latch)

/-- A load from where it stands. -/
def loadGo (d b : Code) (sz : BitVec 2) (spec : Bool) (l : Latch) (s : State) (t : Core) (st : Strand) : WordResult :=
  let z := 2 ^ sz.toNat
  let h := st.shapes.get ⟨b.toNat % 16, Nat.mod_lt _ (by decide)⟩
  let base := l.addr.val.toNat
  if h0 : d.toNat < 16 then
    let dest := (st.addrs.get ⟨d.toNat, h0⟩).val.toNat
    loadSpad t st spec l (requests h base z none 0).2 h.count (fun o => dest + o) (max 1 (h.count * z)) s
  else if hw : d.toNat < 24 ∧ 16 ≤ d.toNat then
    let w := st.wins.get ⟨d.toNat - 16, by omega⟩
    let (len, row) := l.row
    let (n, unit) := requests h base z l.mx len
    let note := fun (s2 : State) => noteWindow s s2 t (d.toNat - 16)
    match loadSpad t st spec l unit n (fun o => w.rowAddr (o / row) + o % row) row (bindWindows s t .a [d.toNat - 16]) with
    | .done s2 =>
      .done ((note s2).updStrand t fun q =>
        if l.tag.tv then q.setW ⟨d.toNat - 16, by omega⟩ { w with kind := 1, slot := l.tag.slot, ver := l.tag.ver } else q)
    | .stay x s2 => .stay x (note s2)
    | .trap c p s2 => .trap c p (note s2)
  else
    let (n, unit) := requests h base z l.mx 512
    let k := st.a.progress
    if d = 28 then loadA2c t spec l unit (n - k) k s else loadA2v t spec unit n (3 * n + 4) s

/-- ALD and ALD.S (R271 to R274). -/
def aldOp (spec : Bool) (d a b : Code) (tc : BitVec 4) (r : BitVec 1) (sz : BitVec 2) (s : State) (t : Core) (st : Strand) :
    WordResult :=
  match st.a.latch with
  | some l => loadGo d b sz spec l s t st
  | none =>
    match loadStart d a b tc r sz s t st with
    | .error (.wait w) => .stay w s
    | .error (.fault c) => .trap c .atWord s
    | .ok (st1, l) =>
      let st2 := { st1 with a := { st1.a with latch := some l, progress := 0 } }
      loadGo d b sz spec l (s.setStrand t st2) t st2

def execAld (d a b : Code) (t : BitVec 4) (r : BitVec 1) (s : BitVec 2) (σ : State) : Out :=
  machineWord .a 1 (aldOp false d a b t r s) σ
def execAldS (d a b : Code) (t : BitVec 4) (r : BitVec 1) (s : BitVec 2) (σ : State) : Out :=
  machineWord .a 1 (aldOp true d a b t r s) σ

/-! Stores (R275 to R277). -/

/-- The granules of a list of elements, ascending, each with whether its first element is written. -/
def touched (es : List Nat) : List (Nat × Bool) :=
  es.foldl (fun l e =>
    insertNat l (e / 65536) (((lookupNat l (e / 65536)).getD false) || e % 65536 == 0)) []

/-- The granule check of a stamped store (R277). -/
def stampedCheck (t : Core) (st : Strand) (r : RecV) : List (Nat × Bool) → State → Except Halt State
  | [], s => .ok s
  | (g, first) :: rest, s => do
    let j ← jobOf s st
    let (s, b) ← stampRead s t .a j (r.stamps + g)
    if b != r.ver.toNat % 256 then raise .staleScale
    else if granuleSeen s t j r.idx g == some false then
      if first then stampedCheck t st r rest (openGranule s t st.job r.idx g) else raise .mixedGranule
    else stampedCheck t st r rest s

/-- The elements that a traversal of `z`-byte writes touches in a record's storage. -/
def elementsWritten (h : Shape) (b z : Nat) (r : RecV) : List Nat :=
  (List.range h.count).flatMap fun n =>
    let o := (h.addr b n - r.base).toNat
    if r.fmt = .e2m1 then [2 * o, 2 * o + 1] else [o / z]

/-- Requests contiguous with request `k` within its granule, at most `fuel` of them (R258). -/
def pieceLen (unit : Nat → Int × Nat) (n : Nat) : Nat → Nat → Nat
  | 0, _ => 1
  | fuel + 1, k =>
    let (a, z) := unit k
    if k + 1 < n ∧ (unit (k + 1)).1 = a + z ∧ (a + z) / 32 = a / 32 then 1 + pieceLen unit n fuel (k + 1) else 1

/-- One piece stored. -/
def storePiece (s : State) (t : Core) (st : Strand) (a : Int) (bs : List (Byte × Bool)) : Except Halt State :=
  elemWrite s t st st.a.slotmode a.toNat (bs.map Prod.fst) (bs.any Prod.snd)

/-- Bytes taken and not yet stored are stored when the word ends in a fault (R276). -/
def flushStore (t : Core) (unit : Nat → Int × Nat) : Nat → Nat → List (Byte × Bool) → State → State
  | 0, _, _, s => s
  | n + 1, k, bs, s =>
    let z := (unit k).2
    if bs.length < z then s
    else
      match s.strand t with
      | none => s
      | some st =>
        match storePiece s t st (unit k).1 (bs.take z) with
        | .ok s' => flushStore t unit n (k + 1) (bs.drop z) s'
        | .error _ => s

/-- The next entry of a store's source queue, as bytes: code 24 or 26. -/
def takeEntry (st : Strand) (d : Code) (z : Nat) : Except Halt (List (Byte × Bool) × RowTag × Strand) :=
  if d = 24 then do
    let (v, st1) ← popC2a st false
    .ok ((bytesOfNat z v.val.toNat).map (fun b => (b, v.poison)), {}, st1)
  else do
    let (es, st1) ← popV2a st 1 false
    match es with
    | e :: _ => .ok (e.bytes.map (fun b => (b, e.poison)), e.tag, st1)
    | [] => .ok ([], {}, st1)

/-- The body of AST: pieces stored as their bytes are there, entries taken as they arrive. -/
def storeGo (t : Core) (d : Code) (z n : Nat) (unit : Nat → Int × Nat) : Nat → State → WordResult
  | 0, s => .done s
  | fuel + 1, s =>
    match s.strand t with
    | none => .done s
    | some st =>
      match st.a.latch with
      | none => .done s
      | some l =>
        let k := st.a.progress
        if k ≥ n then .done s
        else
          let u := unit k
          let m := pieceLen unit n 32 k
          if l.buf.length ≥ m * u.2 then
            match storePiece s t st u.1 (l.buf.take (m * u.2)) with
            | .ok s1 => storeGo t d z n unit fuel (keepA s1 t { l with buf := l.buf.drop (m * u.2) } (k + m))
            | .error (.wait w) => .stay w s
            | .error (.fault c) => .trap c .partway s
          else
            match takeEntry st d z with
            | .error (.wait w) => .stay w s
            | .error (.fault c) => .trap c .partway s
            | .ok (bs, tag, st1) =>
              if d = 26 && l.tag.tv && tag != l.tag then
                .trap .staleScale .partway (flushStore t unit l.buf.length k l.buf s)
              else storeGo t d z n unit fuel (keepA (s.setStrand t st1) t { l with buf := l.buf ++ bs } k)

/-- What AST settles before its first effect: the strand after its pops and peeks, the latch, the requests per row. Its checks of stamps and
slots come with its first store, for which its first entry must be there (R277, R478). DESIGN CHOICE (log 70): an MXFP4 stamped store from V2A of another length than 512
code bytes raises ILLEGAL. -/
def storeStart (d a b : Code) (tc : BitVec 4) (r : BitVec 1) (sz : BitVec 2) (s : State) (t : Core) (st : Strand) :
    Except Halt State := do
  let dd := d.toNat
  let k ← role16 b
  needSrcA a
  need (decide (dd < 16) || (decide (24 ≤ dd) && decide (dd < 28))) .illegal
  need (r == 1 || tc == 0) .illegal
  let (x, st1) ← srcA st a
  let v ← clean x
  let b := v.toNat
  let z := 2 ^ sz.toNat
  let h := st1.shapes.get k
  let n := h.count
  need (decide (n * z ≤ 2097152)) .illegal
  checkTraversal h b z
  let rec? : Option RecV ← if r == 1 then (do let q ← recordOf s t st1 tc.toFin; pure (some q)) else pure none
  let mx : Option (Nat × Nat) := match rec? with
    | some q => if q.fmt = .e2m1 then some (q.base, q.bscale) else none
    | none => none
  match rec? with
  | some q => do
    need (z == q.fmt.bytes) .illegal
    if mx.isSome && dd ≥ 26 then need (n == 512) .illegal
    if mx.isSome && dd < 16 then need (h.e 0 % 16 == 0) .illegal
    if n ≠ 0 then
      let (lo, hi) := elemSpan q.base q.fmt.halves (h.low b) (h.high b + z - 1)
      if lo < 0 ∨ hi ≥ q.count then raise .protection
  | none => pure ()
  let total := if mx.isSome && dd != 24 && dd != 25 then n + n / 16 else n * z
  let entries := if dd = 24 ∨ dd = 25 then n else (total + 255) / 256
  need (!(dd == 27 && decide (entries > 16)) && !(dd == 25 && decide (entries > 8))) .illegal
  let tag : RowTag := match rec? with
    | some q => { tv := true, slot := tc, ver := q.ver }
    | none => {}
  let (s0, buf, st2) ←
    if h0 : dd < 16 then do
      let p ← denseBase st1 ⟨dd, h0⟩ total
      let (s0, bs) := spadBytes (s.setStrand t st1) t .a p total
      pure (s0, bs, (s0.strand t).getD st1)
    else if dd = 25 then do
      let (es, _, st2) ← takeN st1 .a st1.c2a entries true
      pure (s, es.flatMap fun e => (bytesOfNat z e.val.toNat).map fun y => (y, e.poison), st2)
    else if dd = 27 then do
      let (es, _, st2) ← takeN st1 .a st1.v2a entries true
      if tag.tv && es.any (fun e => e.tag != tag) then raise .staleScale
      pure (s, es.flatMap fun e => e.bytes.map fun y => (y, e.poison), st2)
    else if n = 0 then pure (s, [], st1)
    else do
      let _ ← takeEntry st1 d z
      pure (s, [], st1)
  if n ≠ 0 ∧ !isLocal b then strictGate s st.a.slotmode
  let s1 ← match rec? with
    | some q => stampedCheck t st2 q (touched (elementsWritten h b z q)) s0
    | none => pure s0
  .ok (keepA (s1.setStrand t st2) t { addr := x, tag, mx, buf } 0)

/-- AST (R275 to R277). DESIGN CHOICE (log 70): an MXFP4 stamped store from C2A writes code bytes and no block scales. -/
def astOp (d a b : Code) (tc : BitVec 4) (r : BitVec 1) (sz : BitVec 2) (s : State) (t : Core) (st : Strand) : WordResult :=
  let start : Except Halt State := match st.a.latch with
    | some _ => .ok s
    | none => storeStart d a b tc r sz s t st
  match start with
  | .error (.wait w) => .stay w s
  | .error (.fault c) => .trap c .atWord s
  | .ok s1 =>
    let l := ((s1.strand t).bind fun q => q.a.latch).getD {}
    let z := 2 ^ sz.toNat
    let h := st.shapes.get ⟨b.toNat % 16, Nat.mod_lt _ (by decide)⟩
    let mx := if d = 24 ∨ d = 25 then none else l.mx
    let (n, unit) := requests h l.addr.val.toNat z mx (if d.toNat < 16 then h.e 0 else 512)
    storeGo t d z n unit (3 * n + 4) s1
def execAst (d a b : Code) (t : BitVec 4) (r : BitVec 1) (s : BitVec 2) (σ : State) : Out :=
  machineWord .a 1 (astOp d a b t r s) σ

end Sys2Proof.Machine
end

