-- ==== Sys2Proof/Machine/Semaphore.lean ====
section
/-! DEFINITION. The semaphore words of every engine (R427 to R434). -/

namespace Sys2Proof.Machine

inductive SemOp where
  | inc | dec | set
deriving DecidableEq, Repr

/-- The new value and whether it saturated (R431). -/
def SemOp.apply (op : SemOp) (q v : Word) : Word × Bool :=
  match op with
  | .inc => if q.toNat + v.toNat > 2 ^ 32 - 1 then (0xFFFFFFFF, true) else (q + v, false)
  | .dec => if v.toNat > q.toNat then (0, true) else (q - v, false)
  | .set => (v, false)

/-- The physical die semaphore of a job's `ds`n on the die of a tile core (R427). -/
def dieSemIndex (s : State) (t : Core) (job : Word) (n : Nat) : Nat :=
  match s.job? job with
  | some j => j.dsb.get (dieOf t) + n
  | none => n

def dieSem (s : State) (t : Core) (job : Word) (n : Nat) : Word :=
  (lookupNat (s.die (dieOf t)).sems (dieSemIndex s t job n)).getD 0

def setDieSem (s : State) (t : Core) (job : Word) (n : Nat) (v : Word) : State :=
  let i := dieSemIndex s t job n
  s.updDie (dieOf t) fun d =>
    { d with sems := if v = 0 then d.sems.filter (fun x => x.1 != i) else insertNat d.sems i v }

/-- The value of a semaphore named by D and n (R95). -/
def semValue (s : State) (t : Core) (st : Strand) (die : Bool) (n : Nat) : Word :=
  if die then dieSem s t st.job n else st.sems.toList.getD n 0

/-- A semaphore given a value. -/
def setSem (s : State) (t : Core) (die : Bool) (n : Nat) (v : Word) : State :=
  match s.strand t with
  | none => s
  | some st =>
    if die then setDieSem s t st.job n v
    else s.updStrand t fun q => { q with sems := if h : n < 32 then q.sems.set n v h else q.sems }

/-- What the releases on a semaphore cover (R302). -/
def semView (s : State) (t : Core) (st : Strand) (die : Bool) (n : Nat) : View :=
  if die then (lookupNat (s.die (dieOf t)).semViews (dieSemIndex s t st.job n)).getD {} else st.semViews.toList.getD n {}

/-- A waiter's success after a change of its semaphore to a value (R434): it is met and stays so; one met in this very tick and no longer
is or is not undone, as a free value says. -/
def relatch (now : DWord) (undo : Bool) (value thr : Word) (v : View) (was : Option (DWord × View)) : Option (DWord × View) :=
  match was with
  | some x => if decide (value.toNat < thr.toNat) && x.1 == now && undo then none else some x
  | none => if value.toNat ≥ thr.toNat then some (now, v) else none

/-- The threshold with which an engine waits on a semaphore. -/
def Engine.waitsOn (g : Engine) (die : Bool) (n : Nat) : Option Word :=
  match g.wait with
  | some (.sem k thr) => if !die && k.toNat == n then some thr else none
  | some (.dieSem k thr) => if die && k.toNat == n then some thr else none
  | _ => none

/-- The threshold with which an exchange command at its head waits on a semaphore (R332). -/
def XCmd.waitsAt (c : XCmd) (die : Bool) (n : Nat) : Option Word :=
  let f := cmdField c.body
  if c.active && c.kind == 0 && !c.waited && f 200 200 == 1 && (f 211 211 == 1) == die && f 210 201 == n then some (BitVec.ofNat 32 (f 383 352))
  else none

/-- The waiters of a strand after a change of a semaphore; bits of `pick` say which successes of this tick are undone (R434). -/
def Strand.wake (st : Strand) (now : DWord) (pick : BitVec 64) (die : Bool) (n : Nat) (value : Word) (v : View) : Strand :=
  let st1 := Eng.all.foldl (fun (q : Strand) e => q.updEng e fun g => match g.waitsOn die n with
    | some thr => { g with woken := relatch now (pick.getLsbD e.part) value thr v g.woken }
    | none => g) st
  { st1 with cmds := st1.cmds.map fun c => match c.waitsAt die n with
      | some thr => { c with met := relatch now (pick.getLsbD 5) value thr v c.met }
      | none => c }

/-- A free value decides about a waiter of the strand. -/
def Strand.torn (st : Strand) (now : DWord) (die : Bool) (n : Nat) (value : Word) : Bool :=
  let undone := fun (thr : Option Word) (was : Option (DWord × View)) =>
    thr.any (fun x => decide (value.toNat < x.toNat)) && was.any fun x => x.1 == now
  Eng.all.any (fun e => undone ((st.eng e).waitsOn die n) (st.eng e).woken) || st.cmds.any fun c => undone (c.waitsAt die n) c.met

/-- The waiters on a semaphore of the strands that share it are compared with its value (R434). -/
def wakeWaiters (s : State) (t : Core) (job : Word) (die : Bool) (n : Nat) : State :=
  (if die then allCoreIds.filter fun c => dieOf c == dieOf t else [t]).foldl (fun s c =>
    match s.strand c with
    | none => s
    | some st =>
      if st.job != job then s
      else
        let value := semValue s c st die n
        let st1 := st.wake s.psc (Config.freeValue s.draws) die n value (semView s c st die n)
        (if st.torn s.psc die n value then { s with draws := s.draws + 1 } else s).setStrand c st1) s

/-- A release on a semaphore, whose waiters are compared with the value that it leaves (R302, R434). -/
def attachView (s : State) (t : Core) (job : Word) (die : Bool) (n : Nat) (v : View) : State :=
  let s1 :=
    if die then
      let i := dieSemIndex s t job n
      s.updDie (dieOf t) fun d => { d with semViews := insertNat d.semViews i (((lookupNat d.semViews i).getD {}).join v) }
    else s.updStrand t fun q => { q with semViews := if h : n < 32 then q.semViews.set n ((q.semViews.get ⟨n, h⟩).join v) h else q.semViews }
  wakeWaiters s1 t job die n

/-- SEMI, SEMD, SEMS: a release at the semaphore's scope, then one indivisible operation (R302, R431). -/
def semChange (op : SemOp) (e : Eng) (die : BitVec 1) (n : BitVec 10) (v : Word) (s : State) (t : Core) (st : Strand) :
    Except Halt State := do
  let d := die == 1
  if !d && n.toNat > 31 then raise .illegal
  else
    let (s1, covered) ← release s t e (if d then .die else .strand)
    let (q, sat) := op.apply (semValue s t st d n.toNat) v
    let s2 := attachView (setSem s1 t d n.toNat q) t st.job d n.toNat covered
    .ok (if sat then s2.updStrand t (·.count 16 1) else s2)

/-- SEMW: a level wait, which a change of the semaphore may have ended (R434), then an acquire of every release on the semaphore before
its success (R302). -/
def semWait (e : Eng) (die : BitVec 1) (n : BitVec 10) (v : Word) (s : State) (t : Core) (st : Strand) : Except Halt State :=
  let d := die == 1
  if !d && n.toNat > 31 then raise .illegal
  else
    match (st.eng e).woken with
    | some x => .ok (s.bind t e x.2)
    | none =>
      if (semValue s t st d n.toNat).toNat ≥ v.toNat then .ok (s.bind t e (semView s t st d n.toNat))
      else await (if d then .dieSem n v else .sem (n.setWidth 5) v)

def execSemi (e : Eng) (die : BitVec 1) (n : BitVec 10) (v : BitVec 13) (s : State) : Out :=
  checkedWord e 1 (semChange .inc e die n (v.setWidth 32)) s
def execSemd (e : Eng) (die : BitVec 1) (n : BitVec 10) (v : BitVec 13) (s : State) : Out :=
  checkedWord e 1 (semChange .dec e die n (v.setWidth 32)) s
def execSems (e : Eng) (die : BitVec 1) (n : BitVec 10) (v : BitVec 13) (s : State) : Out :=
  checkedWord e 1 (semChange .set e die n (v.setWidth 32)) s
def execSemw (e : Eng) (die : BitVec 1) (n : BitVec 10) (v : BitVec 13) (s : State) : Out :=
  checkedWord e 1 (semWait e die n (v.setWidth 32)) s
def execSemiWide (e : Eng) (die : BitVec 1) (n : BitVec 10) (v : Word) (s : State) : Out :=
  checkedWord e 2 (semChange .inc e die n v) s
def execSemdWide (e : Eng) (die : BitVec 1) (n : BitVec 10) (v : Word) (s : State) : Out :=
  checkedWord e 2 (semChange .dec e die n v) s
def execSemsWide (e : Eng) (die : BitVec 1) (n : BitVec 10) (v : Word) (s : State) : Out :=
  checkedWord e 2 (semChange .set e die n v) s
def execSemwWide (e : Eng) (die : BitVec 1) (n : BitVec 10) (v : Word) (s : State) : Out :=
  checkedWord e 2 (semWait e die n v) s

end Sys2Proof.Machine
end

