-- ==== Sys2Proof/Machine/Gather.lean ====
section
/-! DEFINITION. The access engine's copies, gathers, scatter-accumulates, atomics, survivors and prefetch (R278 to R285,
R291, R292). -/

namespace Sys2Proof.Machine

/-! CPY and PRMT (R278 to R280). -/

/-- A strand semaphore raised by 1 (R279, R332, R431). -/
def incSem (s : State) (t : Core) (n : BitVec 5) : State :=
  match s.strand t with
  | none => s
  | some st =>
    let (v, sat) := SemOp.inc.apply (semValue s t st false n.toNat) 1
    let s1 := setSem s t false n.toNat v
    if sat then s1.updStrand t (·.count 16 1) else s1

/-- The completion increment of a command: a release that covers `v` (R279, R301, R306), at PACKAGE or SYSTEM scope where `wide`. -/
def signalSem (s : State) (t : Core) (wide : Bool) (n : BitVec 5) (v : View) : State :=
  match s.strand t with
  | none => s
  | some st => attachView (incSem (if wide then s.raiseEpoch (dieOf t) else s) t n) t st.job false n.toNat v

/-- CPY and PRMT: the destination is a source of the address role, 0 to 15, 24, 25 (R278). DESIGN CHOICE (log 55): the classes of the
operands are checked, and STRICT applies, only where the byte count is not 0. -/
def copyOp (permute : Bool) (d a b sc : Code) (e : BitVec 1) (s : State) (t : Core) (st : Strand) : Except Halt State := do
  needSrcA d
  needSrcA a
  let k ← role16 b
  need (b.toNat % 2 == 0) .illegal
  need (e == 1 || sc == 0) .illegal
  let hs := st.shapes.get k
  let hd := st.shapes.get ⟨(k.val + 1) % 16, Nat.mod_lt _ (by decide)⟩
  need (hs.st 0 == 1 && hd.st 0 == 1) .illegal
  let n := hs.count
  need (n == hd.count && decide (n ≤ 2 ^ 36)) .illegal
  if (st.asyncs.filter fun x => x.permute == permute).length ≥ (if permute then 4 else 16) then await .copySlot
  let (x, st1) ← srcA st a
  let (y, st2) ← srcA st1 d
  let src ← clean x
  let dst ← clean y
  let virt := !isLocal src.toNat || !isLocal dst.toNat
  if n ≠ 0 then
    need (!(permute && virt)) .protection
    checkTraversal hs src.toNat 1
    checkTraversal hd dst.toNat 1
    if virt then strictGate s st.a.slotmode
  let (s1, v) ← release (s.setStrand t st2) t .a (if permute then .die else .package)
  if n = 0 then .ok (if e = 1 then signalSem s1 t (!permute) sc v else s1)
  else
    .ok (s1.updStrand t fun q =>
      { q with seq := q.seq + 1
               asyncs := q.asyncs ++ [{ permute, src := src.toNat, dst := dst.toNat, srcShape := hs, dstShape := hd,
                                        sem := if e = 1 then some sc else none, seq := q.seq,
                                        clock := (s1.die (dieOf t)).clock, view := v }] })
def execCpy (d a b s : Code) (e : BitVec 1) (σ : State) : Out := checkedWord .a 1 (copyOp false d a b s e) σ
def execPrmt (d a b s : Code) (e : BitVec 1) (σ : State) : Out := checkedWord .a 1 (copyOp true d a b s e) σ

/-! AGTH (R281). -/

/-- The index or values entry of R281 and R282: 64 lanes of V2A, or one entry of C2A. -/
def indexEntry (st : Strand) (c : Code) : Except Halt (List Word × Bool × Strand) :=
  if c = 26 ∨ c = 27 then do
    let (es, st1) ← popV2a st 1 (c == 27)
    match es with
    | e :: _ => .ok (e.lanes.toList, e.poison, st1)
    | [] => .ok ([], false, st1)
  else do
    let (v, st1) ← popC2a st (c == 25)
    .ok ([v.val.setWidth 32], v.poison, st1)

/-- The checks of R263 for elements named one by one. -/
def checkElements (b z : Nat) (as : List Nat) : Except Halt Unit := do
  as.forM fun a => checkSpan b a (a + z - 1)
  need (as.all fun a => a % z == 0) .align

/-- The elements of the latch read in order; what is read stays while a later one waits (R421), and each entry of 256 bytes has its own
sources (R305). -/
def readTodo (t : Core) : Nat → State → WordResult
  | 0, s => .done s
  | n + 1, s =>
    match s.strand t with
    | none => .done s
    | some st =>
      let l := st.a.latch.getD {}
      match l.todo with
      | [] => .done s
      | (a, z) :: rest =>
        match readUnit s t st false ((a : Int), z) with
        | .ok (s1, bs) =>
          let half := (l.buf ++ bs).length == 256 && !rest.isEmpty
          let s2 := if half then s1.updStrand t fun q => { q with a := { q.a with sources := [] } } else s1
          let first := if half then ((s1.strand t).getD st).a.sources else l.first
          readTodo t n (keepA s2 t { l with buf := l.buf ++ bs, todo := rest, first } 0)
        | .error (.wait w) => .stay w s
        | .error (.fault c) => .trap c .partway s

/-- The checks of AGTH before any effect: the strand after its pops, its latch with the elements to read. -/
def agthStart (d a b : Code) (sz : BitVec 2) (s : State) (st : Strand) : Except Halt (Strand × Latch) := do
  let dd := d.toNat
  let vec := b == 26 || b == 27
  needSrcA a
  need (vec || b == 24 || b == 25) .illegal
  need (if vec then decide (dd < 16) || dd == 29 else dd == 28) .illegal
  let z := 2 ^ sz.toNat
  let (x, st1) ← srcA st a
  let (idx, ip, st2) ← indexEntry st1 b
  let base ← clean x
  if ip then raise .poisonSync
  let as := idx.map fun k => base.toNat + k.toNat * z
  checkElements base.toNat z as
  if h0 : dd < 16 then
    let _ ← denseBase st2 ⟨dd, h0⟩ (64 * z)
  if !isLocal base.toNat then strictGate s st.a.slotmode
  .ok (st2, { addr := x, todo := as.map fun a => (a, z) })

/-- AGTH pushes or writes once all its elements have been read (R281). -/
def agthOp (d a b : Code) (sz : BitVec 2) (s : State) (t : Core) (st : Strand) : WordResult :=
  let start : Except Halt State := match st.a.latch with
    | some _ => .ok s
    | none => do
      let (st1, l) ← agthStart d a b sz s st
      .ok (keepA (s.setStrand t st1) t l 0)
  match start with
  | .error (.wait w) => .stay w s
  | .error (.fault c) => .trap c .atWord s
  | .ok s0 =>
    match readTodo t 65 s0 with
    | .done s1 =>
      let st1 := (s1.strand t).getD st
      let bs := (st1.a.latch.getD {}).buf
      let entry := fun (c : List (Byte × Bool)) => ({ lanes := lanesOf (c.map Prod.fst), poison := c.any Prod.snd } : Row)
      if h0 : d.toNat < 16 then
        let dest := (st1.addrs.get ⟨d.toNat, h0⟩).val.toNat
        .done (writeStream (st1.agent t Eng.a.part) st1.a.sig.rels (fun o => dest + o) (max 1 bs.length) bs.length 0 bs s1)
      else
        let pushed := if d = 28 then pushA2c st1 [⟨BitVec.ofNat 64 (natOfBytes (bs.map Prod.fst)), bs.any Prod.snd⟩]
          else if bs.length > 256 then
            pushA2v st1 [entry (bs.take 256), entry (bs.drop 256)] (some (st1.a.latch.getD {}).first)
          else pushA2v st1 [entry bs]
        match pushed with
        | .ok st2 => .done (s1.setStrand t st2)
        | .error (.wait w) => .stay w s1
        | .error (.fault c) => .trap c .partway s1
    | r => r
def execAgth (d a b : Code) (s : BitVec 2) (σ : State) : Out := machineWord .a 1 (agthOp d a b s) σ

/-! Indivisible read-modify-write (R282, R284, R285). -/

/-- An address of the strand's that a slice reads and writes at once: both permissions, cacheable HBM only. -/
def slicePage (s : State) (t : Core) (st : Strand) (va : Nat) : Except Halt (Job × Leaf) := do
  let j ← jobOf s st
  match translate s (some t) (dieOf t) j va .read, translate s (some t) (dieOf t) j va .write with
  | .ok _, .ok l => if l.nc || isHost l.pa then raise .protection else .ok (j, l)
  | .error c, _ => raise c
  | _, .error c => raise c

/-- A request that a slice may apply now: its slot rule, the writes to the bytes that the engine must find there (R299, R310) and the
clock gate (R309). -/
def sliceReady (s : State) (t : Core) (st : Strand) (l : Leaf) (n : Nat) : Except Halt Unit := do
  requestGate s t Eng.a.part l
  let v := match s.strand t with | some q => q.a.view | none => {}
  if s.awaits (st.agent t Eng.a.part) v l.pa n || !s.gate (s.die (dieOf t)).clock then await .writes else .ok ()

/-- The bytes written at a slice for the strand: a plain or a merging write of a tracked line (R285). -/
def sliceWrite (s : State) (t : Core) (st : Strand) (j : Job) (l : Leaf) (bs : List Byte) (p merging : Bool) : State :=
  let (seq, rels) := match s.strand t with | some q => (q.seq, q.a.sig.rels) | none => (0, {})
  let wid := if st.det && l.dm == 1 then some (st.wid 1 seq) else none
  let (w, s1) := s.number (st.agent t Eng.a.part) rels l bs p wid
  let s2 := (s1.applyOrDrop w j.phase merging).updStrand t fun q => { q with seq := q.seq + 1 }
  if p then s2.markPoisoned st.handle else s2

/-- One indivisible read-modify-write of `n` bytes: the state after, the old bytes and their poison. -/
def rmw (s : State) (t : Core) (st : Strand) (va n : Nat) (merging : Bool) (f : List Byte → Bool → List Byte × Bool) :
    Except Halt (State × List Byte × Bool) :=
  let me := st.agent t Eng.a.part
  if isLocal va then
    let k := s.core t
    let l := lookNow k.spad k.spad.get k.past me va n
    let (new, q) := f l.bytes l.poison
    let s1 := s.looked t .a l
    .ok (s1.spadWrite me ((s1.strand t).getD st).a.sig.rels va new q, l.bytes, l.poison)
  else do
    let j0 ← jobOf s st
    strictAt s t .a st.a.slotmode j0 va
    walkGate s t Eng.a.part j0 va
    let (j, l) ← slicePage s t st va
    sliceReady s t st l n
    let k := lookNow s.mem (s.plain l.key) s.past me l.pa n
    let (new, q) := f k.bytes k.poison
    .ok (sliceWrite ((touchWalk s t j va).looked t .a k) t st j l new q merging, k.bytes, k.poison)

/-- .add, .min and .max of ASCA and AATM on 4- or 8-byte values of a type (R136, R137). -/
def combine (ty : BitVec 4) (op : Nat) (a b : Nat) : Nat :=
  if ty = 8 then
    let x := BitVec.ofNat 32 a
    let y := BitVec.ofNat 32 b
    (if op = 0 then fadd x y else fminmax .fp32 (op == 2) x y).toNat
  else
    let w := 2 ^ intWidth ty
    if op = 0 then (a + b) % w
    else
      let x := asInt ty a
      let y := asInt ty b
      if op = 1 then (if x ≤ y then a % w else b % w) else (if x ≥ y then a % w else b % w)

/-- Contributions folded by distinct address, in lane order (R282). -/
def foldContribs (ty : BitVec 4) (op : Nat) (l : List (Nat × Nat)) : List (Nat × Nat) :=
  l.foldl (fun acc (a, v) =>
    match lookupNat acc a with
    | some c => acc.map fun x => if x.1 = a then (a, combine ty op c v) else x
    | none => acc ++ [(a, v)]) []

/-- Merge pairs a die holds (R283). -/
def mergeCount (s : State) (d : Fin 4) : Nat := (s.pairs.filter fun p => homeDie p.addr == d).length

/-- A contribution of ASCA .add.f32 of a deterministic job goes to the merge area (R283). -/
def mergeHold (s : State) (t : Core) (st : Strand) (a c : Nat) (poison : Bool) : Except Halt State := do
  let j0 ← jobOf s st
  strictAt s t .a st.a.slotmode j0 a
  walkGate s t Eng.a.part j0 a
  let (_, l) ← slicePage s t st a
  requestGate s t Eng.a.part l
  if mergeCount s (homeDie l.pa) ≥ 2 ^ 26 then raise .detIllegal
  else
    let p : MergePair := { addr := l.pa, val := BitVec.ofNat 32 c, poison, op := 0, wid := st.wid 1 st.seq,
                           handle := st.handle, key := l.key, tracked := l.dm == 1 }
    .ok (({ s with pairs := s.pairs ++ [p] }).updStrand t fun q => { q with seq := q.seq + 1 })

/-- The contributions of the latch made in order (R282); those made stand while a later one waits or fails (R421, R452). -/
def applyTodo (t : Core) (ty : BitVec 4) (op : Nat) (merge : Bool) : Nat → State → WordResult
  | 0, s => .done s
  | n + 1, s =>
    match s.strand t with
    | none => .done s
    | some st =>
      let l := st.a.latch.getD {}
      match l.todo with
      | [] => .done s
      | (a, c) :: rest =>
        let made : Except Halt State :=
          if merge then mergeHold s t st a c l.bad
          else (rmw s t st a 4 true fun old p => (bytesOfNat 4 (combine ty op (natOfBytes old) c), p || l.bad)).map fun x => x.1
        match made with
        | .ok s1 => applyTodo t ty op merge n (keepA s1 t { l with todo := rest } 0)
        | .error (.wait w) => .stay w s
        | .error (.fault .detIllegal) => .trap .detIllegal .async s
        | .error (.fault c) => .trap c .partway s

/-- The checks of ASCA before any effect: the strand after its pops, its latch with the contributions folded by address. -/
def ascaStart (d a b : Code) (ty : BitVec 4) (op : Nat) (s : State) (st : Strand) : Except Halt (Strand × Latch) := do
  let vec := b == 26 || b == 27
  needSrcA a
  need (ty == 2 || ty == 6 || ty == 8) .illegal
  need (decide (op < 3)) .illegal
  need (vec || b == 24 || b == 25) .illegal
  need (if vec then d == 26 || d == 27 else d == 24 || d == 25) .illegal
  let (x, st1) ← srcA st a
  let (idx, ip, st2) ← indexEntry st1 b
  let (vals, vp, st3) ← indexEntry st2 d
  let base ← clean x
  if ip then raise .poisonSync
  let as := idx.map fun k => base.toNat + 4 * k.toNat
  checkElements base.toNat 4 as
  if !isLocal base.toNat then strictGate s st.a.slotmode
  .ok (st3, { addr := x, todo := foldContribs ty op (as.zip (vals.map BitVec.toNat)), bad := vp })

def ascaOp (d a b : Code) (ty : BitVec 4) (o : BitVec 3) (s : State) (t : Core) (st : Strand) : WordResult :=
  let op := o.toNat
  let start : Except Halt (State × Latch) := match st.a.latch with
    | some l => .ok (s, l)
    | none => do
      let (st1, l) ← ascaStart d a b ty op s st
      .ok (keepA (s.setStrand t st1) t l 0, l)
  match start with
  | .error (.wait w) => .stay w s
  | .error (.fault c) => .trap c .atWord s
  | .ok (s0, l) => applyTodo t ty op (st.det && ty == 8 && op == 0 && !isLocal l.addr.val.toNat) 65 s0
def execAsca (d a b : Code) (t : BitVec 4) (o : BitVec 3) (s : State) : Out := machineWord .a 1 (ascaOp d a b t o) s

/-- The new element of AATM (R284). -/
def aatmNew (ty : BitVec 4) (op w : Nat) (old operand swap : Nat) : Nat :=
  let m := 2 ^ w
  match op with
  | 0 => combine ty 0 old operand
  | 1 => combine ty 1 old operand
  | 2 => combine ty 2 old operand
  | 3 => (old &&& operand) % m
  | 4 => (old ||| operand) % m
  | 5 => (old ^^^ operand) % m
  | 6 => operand % m
  | _ => if old % m = operand % m then swap % m else old % m

def aatmOp (d a b : Code) (ty : BitVec 4) (o : BitVec 3) (s : State) (t : Core) (st : Strand) : Except Halt State := do
  let op := o.toNat
  needSrcA a
  needSrcA b
  need (decide (d.toNat < 16) || d == 28) .illegal
  need (ty == 2 || ty == 6 || ty == 8 || ty == 3 || ty == 7) .illegal
  need (!(ty == 8 && decide (3 ≤ op) && decide (op ≤ 5))) .illegal
  need (!(ty == 8 && op == 0 && st.det)) .detIllegal
  let w := if ty = 8 then 32 else intWidth ty
  let z := w / 8
  let (x, st1) ← srcA st a
  let (y, st2) ← srcA st1 b
  let (swap, st3) ← if op = 7 then
      (if h0 : d.toNat < 16 then pure (st2.addrs.get ⟨d.toNat, h0⟩, st2) else popC2a st2 false)
    else pure (({} : PWord), st2)
  let addr ← clean x
  let operand ← clean y
  let sv ← clean swap
  checkSpan addr.toNat addr.toNat (addr.toNat + z - 1)
  need (addr.toNat % z == 0) .align
  let merging := decide (op < 6) && ty != 8
  let (s1, old, p) ← rmw (s.setStrand t st3) t st addr.toNat z merging fun old p =>
    (bytesOfNat z (aatmNew ty op w (natOfBytes old) (operand.toNat % 2 ^ w) (sv.toNat % 2 ^ w)), p)
  let v : PWord := ⟨if ty = 8 then BitVec.ofNat 64 (natOfBytes old) else extend ty (natOfBytes old), p⟩
  let st4 := (s1.strand t).getD st3
  if h0 : d.toNat < 16 then .ok (s1.setStrand t (st4.setA ⟨d.toNat, h0⟩ v))
  else
    let st5 ← pushA2c st4 [v]
    .ok (s1.setStrand t st5)
def execAatm (d a b : Code) (t : BitVec 4) (o : BitVec 3) (s : State) : Out := checkedWord .a 1 (aatmOp d a b t o) s

/-! SURV (R291, R363 to R365). -/

/-- Fields of an edge word (R358). -/
def edgeFrom (w : DWord) : Nat := bits w.toNat 63 56
def edgeTo (w : DWord) : Nat := bits w.toNat 55 48
def edgeKind (w : DWord) : Nat := bits w.toNat 47 45

/-- The edge, by its number in the graph, that is out-edge `e` of a node (R358). -/
def outEdge (g : Graph) (node e : Nat) : Option Nat :=
  ((List.range g.edges.length).filter fun i => edgeFrom (g.edges.getD i 0) == node)[e]?

/-- The lowest strand index of a launch that has not ended (R365). -/
def lowestLive (s : State) (l : Launch) : Nat :=
  let live := (s.strandsOf l.handle).map (fun x => x.2.index.toNat) ++ l.stopped.map (fun x => x.index.toNat) ++
    allCoreIds.flatMap fun t => ((s.core t).queue.filter fun e => e.1 == l.handle).map fun e => e.2.toNat
  live.foldl min l.dealt

/-- Records a die's compactor holds that are not yet in a batch (R364, log 27). -/
def compactorLoad (s : State) (d : Fin 4) : Nat :=
  s.graphs.foldl (fun n g => g.batches.foldl (fun n b =>
    if b.die == d then n + b.store.length + (b.cur.length - b.bsize) else n) n) 0

def survOp (a : Code) (e : BitVec 4) (s : State) (t : Core) (st : Strand) : Except Halt State := do
  needSrcA a
  match s.launch? st.handle with
  | none => raise .illegal
  | some l =>
    match l.node with
    | none => raise .illegal
    | some (gh, node) =>
      match s.graph? gh with
      | none => raise .illegal
      | some g =>
        match (outEdge g node e.toNat).bind fun i => g.batches.find? fun b => b.edge == i with
        | none => raise .illegal
        | some b => do
          let (x, st1) ← srcA st a
          let v ← clean x
          if !isLocal v.toNat then raise .protection
          else if v.toNat % 32 ≠ 0 then raise .align
          else if b.started * b.bsize + b.cur.length + b.store.length ≥ b.cap * b.bsize then
            .ok (takeFault s st.handle { wordRecord s t st .a 5 .protection .async with core := 0, detail := 0 })
          else
            let det := st.det
            let first := decide (lowestLive s l = st.index.toNat)
            if compactorLoad s b.die ≥ 8192 ∧ !(det && first) then await .compactor
            else
              let (s0, covered) ← release (s.setStrand t st1) t .a .package
              let (s1, rec_) := spadBytes s0 t .a v.toNat 32
              let bytes := rec_.map Prod.fst
              let p := rec_.any Prod.snd
              let key := fun (y : BitVec 24 × Nat × Nat) => y.1 == st.index && y.2.1 == b.edge
              let n := match l.survs.find? key with | some y => y.2.2 | none => 0
              let s2 := s1.updLaunch l.handle fun l =>
                { l with survs := (st.index, b.edge, n + 1) :: l.survs.filter fun y => !key y }
              .ok (s2.updGraph gh fun g => { g with batches := g.batches.map fun c =>
                if c.edge == b.edge then
                  (if det && !first then { c with store := c.store ++ [(st.index, n, bytes, p, covered)] }
                   else { c with cur := c.cur ++ [(bytes, p, covered)] })
                else c })
def execSurv (a : Code) (e : BitVec 4) (s : State) : Out := checkedWord .a 1 (survOp a e) s

/-! APF (R292): no value that a program can read changes. -/

/-- A line that a prefetch touches comes into shared SRAM, unless its walk fails, its page is non-cacheable, or a drain lead, a slot or an
extension would hold the request (R292). -/
def prefetch (s : State) (t : Core) (j : Job) (va : Nat) : State :=
  if isLocal va then s
  else
    match walkGate s t Eng.a.part j va, translate s (some t) (dieOf t) j va .read with
    | .ok _, .ok l => if s.slotNow || l.nc || extensionHolds s (dieOf t) l then s else (touchWalk s t j va).touch l false
    | _, _ => s

/-- The lines of a byte traversal, in its order. -/
def Shape.lines (h : Shape) (b : Nat) : List Nat :=
  (List.range h.count).foldl (fun (r : List Nat) n => let x := (h.addr b n).toNat / 128
    if r.head? == some x then r else x :: r) [] |>.reverse

def apfOp (a b : Code) (s : State) (t : Core) (st : Strand) : Except Halt State := do
  needSrcA a
  let k ← role16 b
  let h := st.shapes.get k
  need (h.st 0 == 1) .illegal
  let (x, st1) ← srcA st a
  let s1 := s.setStrand t st1
  let base := x.val.toNat
  if x.poison || s.slotNow || isLocal base then .ok s1
  else
    match s.job? st.job with
    | none => .ok s1
    | some j => .ok ((h.lines base).foldl (fun s line => prefetch s t j (128 * line)) s1)
def execApf (a b : Code) (s : State) : Out := checkedWord .a 1 (apfOp a b) s

end Sys2Proof.Machine
end

