-- ==== Sys2Proof/Machine/Update.lean ====
section
/-! DEFINITION. The store-update stage and transposed requantisation (R286 to R290). -/

namespace Sys2Proof.Machine

/-- What ended a word partway, with the state then. -/
abbrev Partway := Except (Halt × State)

/-- A step of a word partway: what halts it halts it in this state. -/
def Halt.at {α : Type} (s : State) (x : Except Halt α) : Partway α :=
  match x with
  | .ok v => .ok v
  | .error h => .error (h, s)

/-- The granule check of a write that itself stamps (R288): the state, and the granules the write has opened. -/
def granuleCheck (t : Core) (st : Strand) (e : Eng) (r : RecV) : List (Nat × Bool) → State × List Nat → Except Halt (State × List Nat)
  | [], x => .ok x
  | (g, first) :: rest, (s, opened) => do
    let j ← jobOf s st
    let (s, b) ← stampRead s t e j (r.stamps + g)
    let gs := granuleSeen s t j r.idx g
    if b == r.ver.toNat % 256 && gs != some false then granuleCheck t st e r rest (s, opened)
    else if first then granuleCheck t st e r rest (openGranule s t st.job r.idx g, g :: opened)
    else if gs == some true then granuleCheck t st e r rest (s, opened)
    else raise .mixedGranule

/-- Elements `e0` to `e0` + n − 1 by granule. -/
def granulesOf (e0 n : Nat) : List (Nat × Bool) :=
  if n = 0 then []
  else (List.range ((e0 + n - 1) / 65536 - e0 / 65536 + 1)).map fun i =>
    let g := e0 / 65536 + i
    (g, decide (e0 ≤ 65536 * g))

/-- A code to write: its value, class, counted exponent and poison. -/
structure Coded where
  code : Word
  cls : Cls
  ex : Option Int
  poison : Bool
deriving DecidableEq, Repr

/-- Codes of consecutive elements as bytes: two codes in a byte for MXFP4 (R123). -/
def codeBytes (f : Fmt) : List Coded → List (Byte × Bool)
  | [] => []
  | x :: rest =>
    match f with
    | .e2m1 =>
      match rest with
      | y :: more => (BitVec.ofNat 8 (x.code.toNat % 16 + 16 * (y.code.toNat % 16)), x.poison || y.poison) :: codeBytes f more
      | [] => [(BitVec.ofNat 8 (x.code.toNat % 16), x.poison)]
    | _ => (bytesOfNat f.bytes x.code.toNat).map (fun b => (b, x.poison)) ++ codeBytes f rest

/-- The codes and block scale of inputs `xs` for elements from `e` of a record (R132, R134): for MXFP4 one block. -/
def codesOf (r : RecV) (rm : Rm) (phase : Word) (e : Nat) (xs : List (Word × Bool)) : List Coded × List (Byte × Bool) :=
  if r.fmt = .e2m1 then
    let p := xs.any Prod.snd
    let (x, cs) := quantiseBlock (xs.map fun y => f32 y.1) r.scale rm r.idx e phase.toNat
    (cs.map fun c => ⟨c.1, c.2.1, c.2.2, p⟩, [(x, p)])
  else
    ((xs.zip (List.range xs.length)).map fun (y, i) =>
      let (c, k) := quantise (f32 y.1) r.fmt r.scale rm r.idx (e + i) phase.toNat
      ⟨c, k, scaledExp (f32 y.1) r.scale, y.2⟩, [])

/-- Elements that are coded together (R134). -/
def RecV.block (r : RecV) : Nat := if r.fmt = .e2m1 then 32 else 1

/-- An element of a word under way: the machine, the word's latch, and how many requests have been made or passed over for it. -/
abbrev Begun := State × Latch × Nat

/-- The next request of an element: made now, or, where it was made before the word came to wait, passed over with what it gave then: the
parts made before a hold stand (R421). -/
def once (t : Core) (f : State → Except Halt (State × Nat × Bool)) (x : Begun) : Partway (Begun × Nat × Bool) :=
  let (s, l, i) := x
  match l.did[i]? with
  | some r => .ok ((s, l, i + 1), r)
  | none =>
    match f s with
    | .ok (s1, r) => .ok ((s1, { l with did := l.did ++ [r] }, i + 1), r)
    | .error h => .error (h, s.updStrand t fun q => { q with a := { q.a with latch := some l } })

/-- Likewise, a request that gives nothing back. -/
def onceDo (t : Core) (f : State → Except Halt State) (x : Begun) : Partway Begun :=
  (once t (fun s => (f s).map fun s1 => (s1, 0, false)) x).map Prod.fst

/-- Consecutive bytes written granule by granule. -/
def writeRun (t : Core) (w : State → Nat → List Byte → Bool → Except Halt State) : Nat → Nat → List (Byte × Bool) → Begun → Partway Begun
  | 0, _, _, x => .ok x
  | fuel + 1, a, bs, x =>
    if bs.isEmpty then .ok x
    else do
      let k := 32 - a % 32
      let c := bs.take k
      let x1 ← onceDo t (fun s => w s a (c.map Prod.fst) (c.any Prod.snd)) x
      writeRun t w fuel (a + k) (bs.drop k) x1

/-- Stamps and counts of coded elements from `e` (R72, R277, R381): none for a poisoned one. -/
def stampRun (t : Core) (st : Strand) (g : Eng) (r : RecV) (opened : List Nat) : Nat → List Coded → State → Partway State
  | _, [], s => .ok s
  | e, c :: cs, s =>
    if c.poison then stampRun t st g r opened (e + 1) cs s
    else do
      let s1 ← Halt.at s (stampElem s t st g r e c.cls c.ex (opened.contains (e / 65536)))
      stampRun t st g r opened (e + 1) cs s1

/-- Likewise by the access engine for an element under way. -/
def stampOnce (t : Core) (st : Strand) (r : RecV) : Nat → List Coded → Begun → Partway Begun
  | _, [], x => .ok x
  | e, c :: cs, x =>
    if c.poison then stampOnce t st r (e + 1) cs x
    else do
      let x1 ← onceDo t (fun s => stampElem s t st .a r e c.cls c.ex (x.2.1.opened.contains (e / 65536))) x
      stampOnce t st r (e + 1) cs x1

/-- The elements `xs` from `e` on, coded together: codes written, then a block scale, then each element stamped and counted (R287,
R290). -/
def writeCodes (w : State → Nat → List Byte → Bool → Except Halt State) (t : Core) (st : Strand) (r : RecV) (rm : Rm) (e : Nat)
    (xs : List (Word × Bool)) (x : Begun) : Partway Begun := do
  let (cs, scales) := codesOf r rm st.phase e xs
  let bs := codeBytes r.fmt cs
  let x1 ← writeRun t w bs.length (r.base + e * r.fmt.halves / 2) bs x
  let x2 ← writeRun t w scales.length (r.bscale + e / 32) scales x1
  stampOnce t st r e cs x2

/-- A write of the store-update stage (R285, R287). -/
def stageWrite (t : Core) (st : Strand) (s : State) (va : Nat) (bs : List Byte) (p : Bool) : Except Halt State := do
  let j ← jobOf s st
  strictAt s t .a st.a.slotmode j va
  walkGate s t Eng.a.part j va
  match translate s (some t) (dieOf t) j va .write with
  | .error c => raise c
  | .ok l =>
    sliceReady s t st l bs.length
    .ok (sliceWrite (touchWalk s t j va) t st j l bs p true)

/-- An element is done: it waits for its block, or its block is coded and written. -/
def addToBlock (w : State → Nat → List Byte → Bool → Except Halt State) (t : Core) (st : Strand) (r : RecV) (rm : Rm) (e : Nat)
    (v : Word × Bool) (x : Begun) : Partway (State × Latch) :=
  let (s, l, _) := x
  let xs := l.todo.map (fun y => (BitVec.ofNat 32 y.1, y.2 == 1)) ++ [v]
  if xs.length < r.block then .ok (s, { l with todo := l.todo ++ [(v.1.toNat, if v.2 then 1 else 0)] })
  else do
    let (s1, l1, _) ← writeCodes w t st r rm (e + 1 - xs.length) xs x
    .ok (s1, { l1 with todo := [] })

/-- Elements from the progress of the word up to `n`, one after another; where a request of one waits, its requests before it stand, and the
element goes on from there (R421), and they stand before one that fails (R452). -/
def elements (t : Core) (n : Nat) (one : Nat → Strand → Begun → Partway (State × Latch)) : Nat → State → WordResult
  | 0, s => .done s
  | fuel + 1, s =>
    match s.strand t with
    | none => .done s
    | some st =>
      let k := st.a.progress
      if k ≥ n then .done s
      else
        match one k st (s, st.a.latch.getD {}, 0) with
        | .ok (s1, l) => elements t n one fuel (keepA s1 t { l with did := [] } (k + 1))
        | .error (.wait w, s1) => .stay w s1
        | .error (.fault c, s1) => .trap c .partway s1

/-! STU. -/

/-- The update descriptor of R286. -/
structure UpdateDesc where
  wd : Word
  eps2 : Word
  c2 : Word
  b2 : Word
  c1 : Word
  b1 : Word
  lr : Word
  vaddr : Nat
  maddr : Nat
  rm : Rm
  n : Nat
  var : Bool
  ei0 : Nat
deriving DecidableEq, Repr

/-- The descriptor's fields; none where R287 raises ILLEGAL. -/
def updateDesc (v : Nat) : Option UpdateDesc :=
  let w := fun (lo : Nat) => BitVec.ofNat 32 (bits v (lo + 31) lo)
  match Rm.ofBits (BitVec.ofNat 3 (bits v 63 61)) with
  | none => none
  | some rm =>
    let var := bits v 48 48 == 1
    if bits v 287 248 != 0 || bits v 191 184 != 0 || bits v 127 64 != 0 || bits v 60 56 != 0 || bits v 47 40 != 0
        || (!var && bits v 247 192 != 0) || decide (bits v 55 49 > 63) then none
    else some { wd := w 480, eps2 := w 448, c2 := w 416, b2 := w 384, c1 := w 352, b1 := w 320, lr := w 288,
                vaddr := bits v 247 192, maddr := bits v 183 128, rm, n := bits v 55 49 + 1, var, ei0 := bits v 39 0 }

/-- A 4-byte word of the stage, with its poison. -/
def stageRead (t : Core) (st : Strand) (va : Nat) (x : Begun) : Partway (Begun × Word × Bool) := do
  let (x1, v, p) ← once t (fun s => do
    let (s1, bs, p) ← elemRead s t st .a st.a.slotmode va 4
    .ok (s1, natOfBytes bs, p)) x
  .ok (x1, BitVec.ofNat 32 v, p)

/-- The arithmetic of one element (R287): m′, v′ and w′ from the gradient, momentum, variance and master words. -/
def updateElem (d : UpdateDesc) (g m v w : Word) : Word × Word × Word :=
  let m' := ffma d.b1 m (fmul d.c1 g)
  let v' := ffma d.b2 v (fmul d.c2 (fmul g g))
  let u := if d.var then fmul m' (rsqSeq (fadd v' d.eps2)) else m'
  (m', v', ffma (fneg d.lr) (ffma d.wd w u) w)

/-- One element of the stage (R287, R289): reads, writes of momentum, variance and master, then its code. -/
def stuElem (t : Core) (d : UpdateDesc) (k : Nat) (st : Strand) (x : Begun) : Partway (State × Latch) := do
  let l := x.2.1
  let r := recOf l.record
  let gp := l.bad
  let e := d.ei0 + k
  let (x1, m, mp) ← stageRead t st (d.maddr + 4 * k) x
  let (x2, w, wp) ← stageRead t st (r.master + 4 * e) x1
  let (x3, v, vp) ← if d.var then stageRead t st (d.vaddr + 4 * k) x2 else pure (x2, 0, false)
  let (m', v', w') := updateElem d (l.vals.getD k 0) m v w
  let mq := gp || mp
  let vq := d.var && (gp || vp)
  let wq := mq || vq || wp
  let put := fun (va : Nat) (v : Word) (q : Bool) => onceDo t fun s => stageWrite t st s va (bytesOfNat 4 v.toNat) q
  let x4 ← put (d.maddr + 4 * k) m' mq x3
  let x5 ← if d.var then put (d.vaddr + 4 * k) v' vq x4 else pure x4
  let x6 ← put (r.master + 4 * e) w' wq x5
  addToBlock (stageWrite t st) t st r d.rm e (w', wq) x6

/-- A range of 4-byte words of the stage (R263, R287): virtual, aligned. -/
def stageSpan (a n : Nat) : Except Halt Unit := do
  need (!isLocal a) .protection
  checkSpan a a (a + 4 * n - 1)
  need (a % 4 == 0) .align

/-- What STU settles before its first effect. -/
def stuStart (d a : Code) (tc : BitVec 4) (s : State) (t : Core) (st : Strand) : Except Halt State := do
  needSrcA a
  need (d == 26 || d == 27) .illegal
  let (x, st1) ← srcA st a
  let v ← clean x
  let aa := v.toNat
  need (isLocal aa) .protection
  need (aa % 64 == 0) .align
  let (s0, desc) := spadBytes (s.setStrand t st1) t .a aa 64
  let st1 := (s0.strand t).getD st1
  need (!desc.any Prod.snd) .poisonSync
  match updateDesc (natOfBytes (desc.map Prod.fst)) with
  | none => raise .illegal
  | some u =>
    let rp ← recordParts s0 t st1 tc.toFin
    let r := recOf rp
    need (r.master != 0) .protection
    need (!(r.fmt == .e2m1 && !(u.ei0 % 32 == 0 && u.n % 32 == 0))) .align
    need (decide (u.ei0 + u.n ≤ r.count)) .protection
    stageSpan u.maddr u.n
    stageSpan (r.master + 4 * u.ei0) u.n
    if u.var then stageSpan u.vaddr u.n
    let (es, st2) ← popV2a st1 1 (d == 27)
    strictGate s0 st.a.slotmode
    let (s1, opened) ← granuleCheck t st2 .a r (granulesOf u.ei0 u.n) (s0.setStrand t st2, [])
    match es with
    | e :: _ => .ok (keepA s1 t { addr := x, buf := desc, record := rp, opened, vals := e.lanes.toList, bad := e.poison } 0)
    | [] => raise .illegal

def stuOp (d a : Code) (tc : BitVec 4) (s : State) (t : Core) (st : Strand) : WordResult :=
  match (match st.a.latch with | some _ => Except.ok s | none => stuStart d a tc s t st) with
  | .error (.wait w) => .stay w s
  | .error (.fault c) => .trap c .atWord s
  | .ok s1 =>
    let l := ((s1.strand t).bind fun q => q.a.latch).getD {}
    match updateDesc (natOfBytes (l.buf.map Prod.fst)) with
    | none => .trap .illegal .atWord s
    | some u => elements t u.n (stuElem t u) 65 s1
def execStu (d a : Code) (t : BitVec 4) (s : State) : Out := machineWord .a 1 (stuOp d a t) s

/-! REQT. -/

/-- What REQT settles before its first effect; the latch keeps the target element and the master array's address, and the rounding
code. -/
def reqtStart (d a b : Code) (tc : BitVec 4) (s : State) (t : Core) (st : Strand) : Except Halt State := do
  needSrcA d
  needSrcA a
  let k ← role16 b
  let (x, st1) ← srcA st a
  let (y, st2) ← srcA st1 d
  let m ← clean x
  let v ← clean y
  need (bits m.toNat 63 40 == 0 && bits v.toNat 63 43 == 0) .illegal
  need (Rm.ofBits (BitVec.ofNat 3 (bits v.toNat 42 40))).isSome .illegal
  let ei0 := bits v.toNat 39 0
  let h := st2.shapes.get k
  let n := h.count
  need (decide (n ≤ 65536)) .illegal
  need ((List.range 4).all fun i => h.st i % 4 == 0) .align
  let rp ← recordParts s t st2 tc.toFin
  let r := recOf rp
  need (r.master != 0) .protection
  need (!(r.fmt == .e2m1 && !(ei0 % 32 == 0 && n % 32 == 0))) .align
  need (decide (ei0 + n ≤ r.count)) .protection
  let base := r.master + 4 * m.toNat
  checkTraversal h base 4
  if n ≠ 0 ∧ !(isLocal base && isLocal r.base) then strictGate s st.a.slotmode
  let (s1, opened) ← granuleCheck t st2 .a r (granulesOf ei0 n) (s.setStrand t st2, [])
  .ok (keepA s1 t { addr := x, record := rp, opened, row := (ei0, base), vals := [BitVec.ofNat 32 (bits v.toNat 42 40)] } 0)

/-- One element of REQT (R290). -/
def reqtElem (t : Core) (h : Shape) (k : Nat) (st : Strand) (x : Begun) : Partway (State × Latch) := do
  let l := x.2.1
  let rm := (Rm.ofBits ((l.vals.headD 0).setWidth 3)).getD .rne
  let (x1, w, p) ← stageRead t st (h.addr l.row.2 k).toNat x
  addToBlock (fun s va bs p => elemWrite s t st st.a.slotmode va bs p) t st (recOf l.record) rm (l.row.1 + k) (w, p) x1

def reqtOp (d a b : Code) (tc : BitVec 4) (s : State) (t : Core) (st : Strand) : WordResult :=
  match (match st.a.latch with | some _ => Except.ok s | none => reqtStart d a b tc s t st) with
  | .error (.wait w) => .stay w s
  | .error (.fault c) => .trap c .atWord s
  | .ok s1 =>
    let h := st.shapes.get ⟨b.toNat % 16, Nat.mod_lt _ (by decide)⟩
    elements t h.count (reqtElem t h) (h.count + 1) s1
def execReqt (d a b : Code) (t : BitVec 4) (s : State) : Out := machineWord .a 1 (reqtOp d a b t) s

end Sys2Proof.Machine
end

