-- ==== Sys2Proof/Machine/Matrix.lean ====
section
/-! DEFINITION. The matrix engine's words (R217 to R235). -/

namespace Sys2Proof.Machine

def Strand.setAcc (st : Strand) (i : Fin 4) (a : Acc) : Strand := { st with accs := st.accs.set i.val a i.isLt }

/-- A row of an accumulator. -/
def accRow (a : Acc) (i : Nat) : AccRow := a.toList.getD i { vals := Vector.replicate 128 0 }

/-- Every row of an accumulator changed. -/
def Acc.mapRows (a : Acc) (f : Nat → AccRow → AccRow) : Acc := tab 128 fun i => f i (accRow a i)

/-- The value of row `i`, column `j`. -/
def accVal (a : Acc) (i j : Nat) : Word := (accRow a i).vals.toList.getD j 0

/-! Whole accumulators (R227, R228). -/

/-- A word over accumulators `d` and `a`. -/
def accOp (d a : Code) (f : Nat → AccRow → AccRow → AccRow) (st : Strand) : Except Halt Strand := do
  let i ← role4 d
  let k ← role4 a
  let src := st.accs.get k
  .ok (st.setAcc i ((st.accs.get i).mapRows fun r x => f r x (accRow src r)))

def execMzero (d : Code) (s : State) : Out :=
  strandWord .m 1 (accOp d 0 fun _ x _ => { x with vals := Vector.replicate 128 0, poison := false }) s
def execMsrst (d : Code) (s : State) : Out :=
  strandWord .m 1 (accOp d 0 fun _ x _ => { x with smax := 0xFF800000, ssum := 0 }) s
def execMcpy (d a : Code) (s : State) : Out :=
  strandWord .m 1 (accOp d a fun _ x y => { x with vals := y.vals, poison := y.poison }) s
def execMadd (d a : Code) (s : State) : Out :=
  strandWord .m 1 (accOp d a fun _ x y =>
    { x with vals := tab 128 fun j => fadd (x.vals.toList.getD j 0) (y.vals.toList.getD j 0), poison := x.poison || y.poison }) s

/-- Values scaled by 2^e (R228). -/
def scaleAcc (d : Code) (e : Int) (st : Strand) : Except Halt Strand :=
  if e < -254 ∨ e > 254 then raise .illegal
  else accOp d 0 (fun _ x _ => { x with vals := x.vals.map fun v => ne32 ((f32 v).scale e) }) st
def execMscale (d : Code) (i : BitVec 14) (s : State) : Out := strandWord .m 1 (scaleAcc d i.toInt) s

def mscaleC2mOp (d : Code) (p : BitVec 1) (st : Strand) : Except Halt Strand := do
  let _ ← role4 d
  let (v, st1) ← popC2m st (p == 1)
  let e ← clean v
  scaleAcc d e.toInt st1
def execMscaleC2m (d : Code) (p : BitVec 1) (s : State) : Out := strandWord .m 1 (mscaleC2mOp d p) s

/-! Windows read (R221, R225). -/

/-- Tagged(w) of R221. -/
def taggedWindow (s : State) (t : Core) (st : Strand) (i : Fin 8) : Except Halt (Window × Fmt × Int) := do
  let w := st.wins.get i
  if w.kind = 1 then
    let r ← recordOf s t st w.slot.toFin
    let (f, sc, _) ← lookupVersion s t st r.idx w.ver
    w.check f true
    .ok (w, f, sc)
  else
    match w.plainFmt with
    | none => raise .illegal
    | some f =>
      w.check f true
      .ok (w, f, 0)

/-- Elem of R225 (R126, R127). -/
def windowElem (m : Mem) (w : Window) (f : Fmt) (sc : Int) (i k : Nat) : Num :=
  let a := w.elemAddr f i k
  if f = .e2m1 then
    let b := (m.get a).toNat
    let code := if k % 2 = 0 then b % 16 else b / 16
    let x := (m.get (w.scaleAddr i (k / 32))).toNat
    if x = 255 then .nan else (f.decode (BitVec.ofNat 32 code)).scale (sc + (x : Int) - 127)
  else (f.decode (BitVec.ofNat 32 (natOfBytes (m.bytes a f.bytes)))).scale sc

/-- PoisonRead of R225: some byte read for row `i` lies in a poisoned granule. -/
def windowPoison (m : Mem) (w : Window) (f : Fmt) (i : Nat) : Bool :=
  if w.tr = 1 then (List.range w.cols).any fun k => m.poisoned (w.elemAddr f i k) f.bytes
  else m.poisoned (w.rowAddr i) (w.rowLen f)

/-- One element of the accumulator over all blocks of K (R138). -/
def mmaElem (mode : Nat) (prod : Nat → Num) (k : Nat) (old : Word) : Word :=
  (List.range ((k + 31) / 32)).foldl (fun acc b =>
    let ps := (List.range (min 32 (k - 32 * b))).map fun i => prod (32 * b + i)
    let bk := ne32 (blockSum ps)
    let bk := if mode = 2 then fneg bk else bk
    if mode = 1 ∧ b = 0 then bk else fadd acc bk) old

/-- Products per cell per cycle, the lower of the operands' formats (R226). -/
def mmaRate (f g : Fmt) : Nat :=
  let r := fun (x : Fmt) => match x with | .e4m3 => 2 | .e5m2 => 2 | .e2m1 => 4 | _ => 1
  min (r f) (r g)

def mmaOp (d a b : Code) (m : BitVec 2) (s : State) (t : Core) (st : Strand) : Except Halt State := do
  let i ← role4 d
  let ia ← role8 a
  let ib ← role8 b
  need (m != 3) .illegal
  windowWait st .m [ia.val, ib.val]
  let (wa, fa, sa) ← taggedWindow s t st ia
  let (wb, fb, sb) ← taggedWindow s t st ib
  if wa.cols ≠ wb.cols then raise .illegal
  else
    let (s1, mem) := spadSeen (bindWindows s t .m [ia.val, ib.val]) t .m (wa.ranges fa ++ wb.ranges fb)
    let old := st.accs.get i
    let pb := (List.range wb.rows).any fun j => windowPoison mem wb fb j
    let new := old.mapRows fun r x =>
      if r < wa.rows then
        let pz := windowPoison mem wa fa r || pb
        { x with
          vals := tab 128 fun j =>
            if j < wb.rows then
              mmaElem m.toNat (fun k => (windowElem mem wa fa sa r k).mul (windowElem mem wb fb sb j k)) wa.cols (x.vals.toList.getD j 0)
            else x.vals.toList.getD j 0
          poison := if m = 1 then pz else x.poison || pz }
      else x
    .ok (s1.updStrand t fun q => (q.setAcc i new).count 10 ((wa.cols + mmaRate fa fb - 1) / mmaRate fa fb))
def execMma (d a b : Code) (m : BitVec 2) (s : State) : Out := checkedWord .m 1 (mmaOp d a b m) s

/-! Windows written. -/

/-- Window `i`'s stored rows written by the matrix engine from logical codes with poison: each stored row is one run (R220, R258). -/
def writeWindow (s : State) (t : Core) (st : Strand) (i : Fin 8) (w : Window) (f : Fmt) (code : Nat → Nat → Coded) (scale : Nat → Nat → Byte × Bool) :
    State :=
  let s0 := bindWindows s t .m [i.val]
  let done := (List.range w.storedRows).foldl (fun s k =>
    let codes := if w.tr = 1 then (List.range w.rows).map fun i => code i k else (List.range w.cols).map fun j => code k j
    let scales := if f = .e2m1 then (List.range (w.cols / 32)).map fun b => scale k b else []
    let bs := codeBytes f codes ++ scales
    writeStream (st.agent t Eng.m.part) st.m.sig.rels (fun o => w.rowAddr k + o) (max 1 bs.length) bs.length 0 bs s) s0
  noteWindow s done t i.val

/-- Adjacent pairs combined, one level of the tree of R140. -/
def treeLevel {α : Type} (op : α → α → α) : List α → List α
  | a :: b :: rest => op a b :: treeLevel op rest
  | l => l

/-- Tree of R140, over a power of two of values. -/
def tree {α : Type} (op : α → α → α) : Nat → List α → List α
  | 0, l => l
  | n + 1, l => if l.length ≤ 1 then l else tree op n (treeLevel op l)

/-- FP32 to BF16 by RoundNE. -/
def toBf16 (v : Word) : Word := round .bf16 .rne (f32 v)
/-- A BF16 code as FP32. -/
def ofBf16 (c : Word) : Word := c <<< 16

/-- One row of MSOFT (R229): the row after, and the probabilities as BF16 codes. -/
def softRow (x : AccRow) (scores : List Word) : AccRow × List Word :=
  let sc := scores ++ List.replicate (128 - scores.length) 0xFF800000
  let mnew := fminmax .fp32 true x.smax ((tree (fminmax .fp32 true) 7 sc).headD 0xFF800000)
  let (alpha, p) : Word × List Word :=
    if mnew = 0xFF800000 then (0x3F800000, sc.map fun _ => 0)
    else (exp2Seq (fadd x.smax (fneg mnew)), sc.map fun v => toBf16 (exp2Seq (fadd v (fneg mnew))))
  ({ x with
     smax := mnew
     ssum := ffma x.ssum alpha ((tree fadd 7 (p.map ofBf16)).headD 0)
     vals := x.vals.map fun v => fmul v alpha }, p)

def msoftOp (d a b : Code) (s : State) (t : Core) (st : Strand) : Except Halt State := do
  let i ← role4 d
  let k ← role4 a
  let ib ← role8 b
  need (d != a) .illegal
  windowWait st .m [ib.val]
  let w := st.wins.get ib
  need (w.tr == 0 && decide (w.cols ≤ 128)) .illegal
  w.check .bf16 true
  let sc := st.accs.get k
  let old := st.accs.get i
  let row := fun (r : Nat) => softRow (accRow old r) ((accRow sc r).vals.toList.take w.cols)
  let new := old.mapRows fun r x =>
    if r < w.rows then { (row r).1 with poison := x.poison || (accRow sc r).poison } else x
  let ps := (List.range w.rows).map fun r => (row r).2
  let s1 := writeWindow s t st ib w .bf16 (fun r j => ⟨(ps.getD r []).getD j 0, .value, none, (accRow sc r).poison⟩) (fun _ _ => (0, false))
  .ok (s1.updStrand t fun q => (q.setAcc i new).setW ib { w with kind := 2, slot := 0, ver := 0 })
def execMsoft (d a b : Code) (s : State) : Out := checkedWord .m 1 (msoftOp d a b) s

/-! MOUT (R230 to R232). -/

/-- Inputs coded, block by block for MXFP4 (R134). -/
def codeAll (r : RecV) (rm : Rm) (phase : Word) : Nat → Nat → List (Word × Bool) → List Coded × List (Byte × Bool)
  | 0, _, _ => ([], [])
  | fuel + 1, e, xs =>
    if xs.isEmpty then ([], [])
    else
      let (c, x) := codesOf r rm phase e (xs.take r.block)
      let (cs, ys) := codeAll r rm phase fuel (e + r.block) (xs.drop r.block)
      (c ++ cs, x ++ ys)

/-- The codes of one logical row and its block scales; a poisoned row is zero and poisoned. -/
def moutRow (r : RecV) (rm : Rm) (phase : Word) (e0 cols : Nat) (x : AccRow) : List Coded × List (Byte × Bool) :=
  if x.poison then (List.replicate cols ⟨0, .zero, none, true⟩, List.replicate (cols / 32) (0, true))
  else codeAll r rm phase (cols + 1) e0 ((x.vals.toList.take cols).map fun v => (v, false))

/-- Stamps and counts of the rows written, ascending (R72). -/
def stampRows (t : Core) (st : Strand) (e : Eng) (r : RecV) : List (Nat × List Coded) → State → Except Halt State
  | [], s => .ok s
  | (i, cs) :: rest, s =>
    match stampRun t st e r [] i cs s with
    | .ok s1 => stampRows t st e r rest s1
    | .error (h, _) => .error h

def moutOp (d a b : Code) (rc : BitVec 3) (s : State) (t : Core) (st : Strand) : Except Halt State := do
  let iw ← role8 d
  let k ← role4 a
  let slot ← slotRole b
  match Rm.ofBits rc with
  | none => raise .illegal
  | some rm => do
    windowWait st .m [iw.val]
    let (v, st1) ← popC2m st false
    let cv ← clean v
    let r ← recordOf s t st slot
    let w := st.wins.get iw
    need (decide (w.cols ≤ 128)) .illegal
    w.check r.fmt true
    let ei0 := bits cv.toNat 39 0
    let dist := bits cv.toNat 63 40
    need (!(r.fmt == .e2m1 && !(ei0 % 32 == 0 && dist % 32 == 0))) .align
    need (decide (ei0 + (w.rows - 1) * dist + w.cols - 1 < r.count)) .protection
    let acc := st.accs.get k
    let rows := (List.range w.rows).map fun i => moutRow r rm st.phase (ei0 + i * dist) w.cols (accRow acc i)
    let s1 := writeWindow (s.setStrand t st1) t st1 iw w r.fmt
      (fun i j => (rows.getD i ([], [])).1.getD j ⟨0, .zero, none, true⟩) (fun i b => (rows.getD i ([], [])).2.getD b (0, true))
    let s2 ← stampRows t st1 .m r ((List.range w.rows).map fun i => (ei0 + i * dist, (rows.getD i ([], [])).1)) s1
    .ok (s2.updStrand t fun q => q.setW iw { w with kind := 1, slot := BitVec.ofNat 4 slot.val, ver := r.ver })
def execMout (d a b : Code) (r : BitVec 3) (s : State) : Out := checkedWord .m 1 (moutOp d a b r) s

/-! Drains (R233, R234). -/

/-- Entry `e` of a drain: half a row. -/
def drainEntry (x : AccRow) (half : Nat) : Row :=
  { lanes := tab 64 fun j => x.vals.toList.getD (64 * half + j) 0, poison := x.poison }

/-- Entries pushed one by one as M2V has room. -/
def drain (t : Core) (acc : Acc) (first : Nat) : Nat → Nat → State → WordResult
  | 0, _, s => .done s
  | n + 1, k, s =>
    match s.strand t with
    | none => .done s
    | some st =>
      match pushM2v st [drainEntry (accRow acc (first + k / 2)) (k % 2)] with
      | .ok st1 => drain t acc first n (k + 1) (s.setStrand t st1)
      | .error (.wait w) => .stay w (s.updStrand t fun q => { q with m := { q.m with progress := k } })
      | .error (.fault c) => .trap c .atWord s

def mdrnOp (a : Code) (f c : BitVec 7) (s : State) (t : Core) (st : Strand) : WordResult :=
  if h : a.toNat < 4 then
    if f.toNat + c.toNat + 1 > 128 then .trap .illegal .atWord s
    else drain t (st.accs.get ⟨a.toNat, h⟩) f.toNat (2 * (c.toNat + 1) - st.m.progress) st.m.progress s
  else .trap .illegal .atWord s
def execMdrn (a : Code) (f c : BitVec 7) (s : State) : Out := machineWord .m 1 (mdrnOp a f c) s

def msideOp (a : Code) (sel : BitVec 1) (st : Strand) : Except Halt Strand := do
  let k ← role4 a
  let acc := st.accs.get k
  let entry := fun (half : Nat) =>
    ({ lanes := tab 64 fun i => let x := accRow acc (64 * half + i); if sel = 1 then x.ssum else x.smax
       poison := (List.range 64).any fun i => (accRow acc (64 * half + i)).poison } : Row)
  pushM2v st [entry 0, entry 1]
def execMside (a : Code) (s : BitVec 1) (σ : State) : Out := strandWord .m 1 (msideOp a s) σ

end Sys2Proof.Machine
end

