-- ==== Sys2Proof/Machine/Vector.lean ====
section
/-! DEFINITION. The vector engine's words (R181 to R216). -/

namespace Sys2Proof.Machine

/-! Tiles. -/

def Row.lane (r : Row) (c : Nat) : Word := r.lanes.toArray.getD c 0
def blankRow : Row := { lanes := Vector.replicate 64 0 }
def Tile.row (t : Tile) (r : Nat) : Row := t.toArray.getD r blankRow
def Tile.lane (t : Tile) (r c : Nat) : Word := (t.row r).lane c

def Strand.setV (st : Strand) (i : Fin 16) (t : Tile) : Strand := { st with tiles := st.tiles.set i.val t i.isLt }

/-- The bit of `p` for a lane (R192). -/
def Strand.p (st : Strand) (r c : Nat) : Bool :=
  match st.pred with
  | [] => true
  | m :: _ => m.getLsbD (64 * r + c)

/-- Whether a lane is written (R192): `q` is the .p modifier. -/
def Strand.writes (st : Strand) (q : BitVec 1) (r c : Nat) : Bool := q == 0 || st.p r c

def anyLane (f : Nat → Bool) : Bool := (List.range 64).any f

/-- A tile from lanes, each row with a poison bit and no tag. -/
def tileOf (f : Nat → Nat → Word) (poison : Nat → Bool) : Tile :=
  tab 16 fun r => { lanes := tab 64 (f r), poison := poison r }

/-- A destination tile written (R190, R192, R183): lanes that .p keeps hold their old values and their row's old poison; a
row keeps the tag given only when every lane is written. DESIGN CHOICE (log 58): a row of which .p writes no lane counts as written and
loses its tag; a cleared tag has slot 0 and version 0. -/
def mergeTile (st : Strand) (q : BitVec 1) (old new : Tile) : Tile :=
  tab 16 fun r =>
    let o := old.row r
    let n := new.row r
    let anyW := anyLane fun c => st.writes q r c
    let keeps := anyLane fun c => !st.writes q r c
    { lanes := tab 64 fun c => if st.writes q r c then n.lane c else o.lane c
      poison := (anyW && n.poison) || (keeps && o.poison)
      tag := if keeps then {} else n.tag }

/-! Operands (R185 to R187). -/

/-- Codes 0 to 21 (R185). -/
def needSrcV (c : Code) : Except Halt Unit := need (decide (c.toNat < 22)) .illegal

/-- Two tile operands may not need 32 entries of one queue (R187): a pop then any second taking. -/
def needDepth (a b : Code) : Except Halt Unit :=
  need (!((a == 16 && (b == 16 || b == 17)) || (a == 18 && (b == 18 || b == 19)))) .illegal

/-- A tile of 16 queue entries. -/
def tileOfRows (es : List Row) : Tile := tab 16 fun i => es.getD i blankRow

/-- A tile operand: a register, or a source queue (R186). -/
def srcV (st : Strand) (c : Code) : Except Halt (Tile × Strand) :=
  if h : c.toNat < 16 then .ok (st.tiles.get ⟨c.toNat, h⟩, st)
  else
    match c.toNat with
    | 16 => do let (es, st1) ← popA2v st 16 false; .ok (tileOfRows es, st1)
    | 17 => do let (es, st1) ← popA2v st 16 true; .ok (tileOfRows es, st1)
    | 18 => do let (es, st1) ← popM2v st 16 false; .ok (tileOfRows es, st1)
    | 19 => do let (es, st1) ← popM2v st 16 true; .ok (tileOfRows es, st1)
    | 20 => do let (v, st1) ← popC2v st false; .ok (tileOf (fun _ _ => v.val.setWidth 32) (fun _ => v.poison), st1)
    | 21 => do let (v, st1) ← popC2v st true; .ok (tileOf (fun _ _ => v.val.setWidth 32) (fun _ => v.poison), st1)
    | _ => raise .illegal

/-- Two operands in field order (R91). -/
def srcV2 (st : Strand) (a b : Code) : Except Halt (Tile × Tile × Strand) := do
  needSrcV a
  needSrcV b
  needDepth a b
  let (x, st1) ← srcV st a
  let (y, st2) ← srcV st1 b
  .ok (x, y, st2)

/-- The sticky flags as V2C carries them (R186). -/
def Strand.flagBits (st : Strand) : Nat :=
  (if st.sat then 1 else 0) + (if st.nan then 2 else 0) + (if st.fmt then 4 else 0)

/-- The result pushed to V2C (R186). -/
def pushTileV2c (st : Strand) (t : Tile) : Except Halt Strand :=
  pushV2c st [⟨BitVec.ofNat 64 ((t.lane 0 0).toNat + 2 ^ 32 * st.flagBits), (t.row 0).poison⟩]

/-- A destination that may be a register, V2A or V2C: the whole tile (R186, R188). -/
def dstV (st : Strand) (d : Code) (q : BitVec 1) (t : Tile) : Except Halt Strand :=
  if h : d.toNat < 16 then
    let i : Fin 16 := ⟨d.toNat, h⟩
    .ok (st.setV i (mergeTile st q (st.tiles.get i) t))
  else if d = 22 then pushV2a st t.toList
  else if d = 23 then pushTileV2c st t
  else raise .illegal

/-! Elements of a lane (R182). -/

/-- A lane computed element by element: one 32-bit element, or two of 16 bits. -/
def perElem (ty : BitVec 4) (f : Word → Word → Word → Word) (a b d : Word) : Word :=
  if ty = 1 ∨ ty = 5 ∨ ty = 9 ∨ ty = 10 then
    let lo := f (a &&& 0xFFFF) (b &&& 0xFFFF) (d &&& 0xFFFF) &&& 0xFFFF
    let hi := f (a >>> 16) (b >>> 16) (d >>> 16) &&& 0xFFFF
    lo ||| (hi <<< 16)
  else f a b d

/-- The floating format of .f32 or .bf16. -/
def vecFmt (ty : BitVec 4) : Option Fmt := if ty = 8 then some .fp32 else if ty = 9 then some .bf16 else none

/-- The integer types of elementwise arithmetic. -/
def vecInt (ty : BitVec 4) : Bool := ty == 2 || ty == 6 || ty == 1 || ty == 5

inductive VOp where
  | add | sub | mul | fma
deriving DecidableEq, Repr

/-- Floating arithmetic: the exact result rounded once (R136). -/
def VOp.num (op : VOp) (f : Fmt) (rm : Rm) (a b d : Word) : Word :=
  let x := f.decode a
  let y := f.decode b
  let dn := rm == .rd
  round f rm (match op with
    | .add => x.add dn y
    | .sub => x.add dn y.neg
    | .mul => x.mul y
    | .fma => (x.mul y).add dn (f.decode d))

/-- Integer arithmetic, wrapping (R197). -/
def VOp.int (op : VOp) (a b d : Word) : Word :=
  match op with
  | .add => a + b | .sub => a - b | .mul => a * b | .fma => a * b + d

/-- A rounding code that is not .rs (R130). -/
def plainRm (r : BitVec 3) : Except Halt Rm :=
  match Rm.ofBits r with
  | some .rs => raise .illegal
  | some rm => .ok rm
  | none => raise .illegal

/-- A lane-wise word over `va`, `vb` and old `vd` (R197). -/
def lanewise (f : Word → Word → Word → Word) (useB useD : Bool) (d a b : Code) (q : BitVec 1) (st : Strand) :
    Except Halt Strand := do
  let i ← role16 d
  let (x, y, st1) ← if useB then srcV2 st a b else (do
    needSrcV a
    let (x, st1) ← srcV st a
    pure (x, x, st1))
  let old := st1.tiles.get i
  let new := tileOf (fun r c => f (x.lane r c) (y.lane r c) (old.lane r c))
    (fun r => (x.row r).poison || (y.row r).poison || (useD && (old.row r).poison))
  .ok (st1.setV i (mergeTile st1 q old new))

/-- VADD, VSUB, VMUL, VFMA. -/
def arithOp (op : VOp) (d a b : Code) (ty : BitVec 4) (r : BitVec 3) (q : BitVec 1) (st : Strand) : Except Halt Strand :=
  match vecFmt ty with
  | some f => do
    let rm ← plainRm r
    lanewise (perElem ty (op.num f rm)) true (op == .fma) d a b q st
  | none =>
    if vecInt ty && r == 0 then lanewise (perElem ty op.int) true (op == .fma) d a b q st else raise .illegal
def execVadd (d a b : Code) (t : BitVec 4) (r : BitVec 3) (q : BitVec 1) (s : State) : Out :=
  strandWord .v 1 (arithOp .add d a b t r q) s
def execVsub (d a b : Code) (t : BitVec 4) (r : BitVec 3) (q : BitVec 1) (s : State) : Out :=
  strandWord .v 1 (arithOp .sub d a b t r q) s
def execVmul (d a b : Code) (t : BitVec 4) (r : BitVec 3) (q : BitVec 1) (s : State) : Out :=
  strandWord .v 1 (arithOp .mul d a b t r q) s
def execVfma (d a b : Code) (t : BitVec 4) (r : BitVec 3) (q : BitVec 1) (s : State) : Out :=
  strandWord .v 1 (arithOp .fma d a b t r q) s

/-- The lesser or greater element (R137, R197). -/
def minmaxElem (ty : BitVec 4) (wantMax : Bool) (a b : Word) : Word :=
  match vecFmt ty with
  | some f => fminmax f wantMax a b
  | none =>
    let x := asInt ty a.toNat
    let y := asInt ty b.toNat
    if wantMax then (if x ≥ y then a else b) else (if x ≤ y then a else b)

def minmaxOp (wantMax : Bool) (d a b : Code) (ty : BitVec 4) (q : BitVec 1) (st : Strand) : Except Halt Strand :=
  if (vecFmt ty).isSome || vecInt ty then lanewise (perElem ty fun x y _ => minmaxElem ty wantMax x y) true false d a b q st
  else raise .illegal
def execVmin (d a b : Code) (t : BitVec 4) (q : BitVec 1) (s : State) : Out := strandWord .v 1 (minmaxOp false d a b t q) s
def execVmax (d a b : Code) (t : BitVec 4) (q : BitVec 1) (s : State) : Out := strandWord .v 1 (minmaxOp true d a b t q) s

def bitsOp (f : Word → Word → Word) (d a b : Code) (ty : BitVec 4) (q : BitVec 1) (st : Strand) : Except Halt Strand :=
  if ty = 2 ∨ ty = 6 then lanewise (fun x y _ => f x y) true false d a b q st else raise .illegal
def execVand (d a b : Code) (t : BitVec 4) (q : BitVec 1) (s : State) : Out := strandWord .v 1 (bitsOp (· &&& ·) d a b t q) s
def execVor (d a b : Code) (t : BitVec 4) (q : BitVec 1) (s : State) : Out := strandWord .v 1 (bitsOp (· ||| ·) d a b t q) s
def execVxor (d a b : Code) (t : BitVec 4) (q : BitVec 1) (s : State) : Out := strandWord .v 1 (bitsOp (· ^^^ ·) d a b t q) s

/-! Shifts (R198). -/

/-- An element shifted: `f` takes the element as an integer and the count. -/
def shiftOp (f : Int → Nat → Int) (d a b : Code) (ty : BitVec 4) (q : BitVec 1) (st : Strand) : Except Halt Strand :=
  if vecInt ty then
    lanewise (perElem ty fun x y _ => BitVec.ofInt 32 (f (asInt ty x.toNat) (y.toNat % intWidth ty))) true false d a b q st
  else raise .illegal
def execVshl (d a b : Code) (t : BitVec 4) (q : BitVec 1) (s : State) : Out :=
  strandWord .v 1 (shiftOp (fun x n => x * (2 ^ n : Nat)) d a b t q) s
def execVshr (d a b : Code) (t : BitVec 4) (q : BitVec 1) (s : State) : Out :=
  strandWord .v 1 (shiftOp (fun x n => Int.fdiv x (2 ^ n : Nat)) d a b t q) s
def vrshrOp (d a b : Code) (ty : BitVec 4) (r : BitVec 3) (q : BitVec 1) (st : Strand) : Except Halt Strand := do
  let rm ← plainRm r
  shiftOp (fun x n => roundShift x n rm) d a b ty q st
def execVrshr (d a b : Code) (t : BitVec 4) (r : BitVec 3) (q : BitVec 1) (s : State) : Out :=
  strandWord .v 1 (vrshrOp d a b t r q) s

/-! VMAC2 (R199). -/

/-- The exact sum of a lane. -/
def mac2Sum (a b d : Word) : Int :=
  d.toInt + (a.extractLsb' 0 16).toInt * (b.extractLsb' 0 16).toInt + (a.extractLsb' 16 16).toInt * (b.extractLsb' 16 16).toInt

def vmac2Op (d a b : Code) (q : BitVec 1) (st : Strand) : Except Halt Strand := do
  let i ← role16 d
  let (x, y, st1) ← srcV2 st a b
  let old := st1.tiles.get i
  let sum := fun (r c : Nat) => mac2Sum (x.lane r c) (y.lane r c) (old.lane r c)
  let new := tileOf (fun r c => BitVec.ofInt 32 (saturateInt 2 (sum r c)))
    (fun r => (x.row r).poison || (y.row r).poison || (old.row r).poison)
  let sat := (List.range 16).any fun r => anyLane fun c => st1.writes q r c && saturateInt 2 (sum r c) != sum r c
  .ok ((st1.setV i (mergeTile st1 q old new)).stick sat false false)
def execVmac2 (d a b : Code) (q : BitVec 1) (s : State) : Out := strandWord .v 1 (vmac2Op d a b q) s

/-! The function group (R200). -/

/-- A step sequence on an FP32 or BF16 element (R141). -/
def seqOp (f : Word → Word) (d a : Code) (ty : BitVec 4) (q : BitVec 1) (st : Strand) : Except Halt Strand :=
  if ty = 8 then lanewise (fun x _ _ => f x) false false d a 0 q st
  else if ty = 9 then lanewise (perElem ty fun x _ _ => toBf16 (f (ofBf16 x))) false false d a 0 q st
  else raise .illegal
def execVexp2 (d a : Code) (t : BitVec 4) (q : BitVec 1) (s : State) : Out := strandWord .v 1 (seqOp exp2Seq d a t q) s
def execVlog2 (d a : Code) (t : BitVec 4) (q : BitVec 1) (s : State) : Out := strandWord .v 1 (seqOp log2Seq d a t q) s
def execVrcp (d a : Code) (t : BitVec 4) (q : BitVec 1) (s : State) : Out := strandWord .v 1 (seqOp rcpSeq d a t q) s
def execVrsq (d a : Code) (t : BitVec 4) (q : BitVec 1) (s : State) : Out := strandWord .v 1 (seqOp rsqSeq d a t q) s
def execVtanh (d a : Code) (t : BitVec 4) (q : BitVec 1) (s : State) : Out := strandWord .v 1 (seqOp tanhSeq d a t q) s
def execVsig (d a : Code) (t : BitVec 4) (q : BitVec 1) (s : State) : Out := strandWord .v 1 (seqOp sigSeq d a t q) s

/-- The sign bit of a floating element changed; a NaN gives the canonical NaN (R200). -/
def signElem (f : Fmt) (g : Word → Word) (x : Word) : Word := if (f.decode x).isNan then f.nanCode else g x

/-- VABS and VNEG: `onSign` on floating elements, `onInt` on integers. -/
def signOp (onSign : Fmt → Word → Word) (onInt : Int → Int) (d a : Code) (ty : BitVec 4) (q : BitVec 1) (st : Strand) :
    Except Halt Strand :=
  match vecFmt ty with
  | some f => lanewise (perElem ty fun x _ _ => signElem f (onSign f) x) false false d a 0 q st
  | none =>
    if ty = 2 ∨ ty = 1 then
      lanewise (perElem ty fun x _ _ => BitVec.ofInt 32 (onInt (asInt ty x.toNat))) false false d a 0 q st
    else raise .illegal
def execVabs (d a : Code) (t : BitVec 4) (q : BitVec 1) (s : State) : Out :=
  strandWord .v 1 (signOp (fun f x => x &&& ~~~f.signBit) (fun x => (x.natAbs : Int)) d a t q) s
def execVneg (d a : Code) (t : BitVec 4) (q : BitVec 1) (s : State) : Out :=
  strandWord .v 1 (signOp (fun f x => x ^^^ f.signBit) (fun x => -x) d a t q) s
def vnotOp (d a : Code) (ty : BitVec 4) (q : BitVec 1) (st : Strand) : Except Halt Strand :=
  if ty = 2 ∨ ty = 6 then lanewise (fun x _ _ => ~~~x) false false d a 0 q st else raise .illegal
def execVnot (d a : Code) (t : BitVec 4) (q : BitVec 1) (s : State) : Out := strandWord .v 1 (vnotOp d a t q) s

/-! The predicate stack (R192 to R194). -/

/-- A 1,024-bit mask from a function of the lane. -/
def maskOf (f : Nat → Nat → Bool) : BitVec 1024 :=
  BitVec.ofNat 1024 ((List.range 1024).foldr (fun i n => (if f (i / 64) (i % 64) then 1 else 0) + 2 * n) 0)

/-- Cond of R193. -/
def vecCond (cc : Nat) (ty : BitVec 4) (a b : Word) : Bool :=
  if ty = 8 then (condNum cc (f32 a) (f32 b)).getD false
  else (condInt cc (asInt ty a.toNat) (asInt ty b.toNat)).getD false

/-- VPUSH (R193). DESIGN CHOICE (log 57): at depth 8 it raises PREDICATE-DEPTH at once, whether its queue operands are there or not. -/
def vpushOp (c a b : Code) (ty : BitVec 4) (st : Strand) : Except Halt Strand := do
  need (decide (c.toNat ≤ 6)) .illegal
  need (ty == 8 || ((ty == 2 || ty == 6) && c != 6)) .illegal
  needSrcV a
  needSrcV b
  needDepth a b
  need (decide (st.pred.length < 8)) .predicateDepth
  let (x, y, st1) ← srcV2 st a b
  need (!((List.range 16).any fun r => (x.row r).poison || (y.row r).poison)) .poisonSync
  .ok { st1 with pred := maskOf (fun r k => vecCond c.toNat ty (x.lane r k) (y.lane r k) && st1.p r k) :: st1.pred }
def execVpush (c a b : Code) (t : BitVec 4) (s : State) : Out := strandWord .v 1 (vpushOp c a b t) s

def execVelse (s : State) : Out :=
  strandWord .v 1 (fun st =>
    match st.pred with
    | [] => raise .predicateDepth
    | m :: rest => .ok { st with pred := (~~~m &&& rest.headD (BitVec.allOnes 1024)) :: rest }) s
def execVpend (s : State) : Out :=
  strandWord .v 1 (fun st =>
    match st.pred with
    | [] => raise .predicateDepth
    | _ :: rest => .ok { st with pred := rest }) s

/-- VSEL (R201). -/
def vselOp (d a b : Code) (ty : BitVec 4) (st : Strand) : Except Halt Strand := do
  need (ty == 8 || ty == 2) .illegal
  let i ← role16 d
  let (x, y, st1) ← srcV2 st a b
  .ok (st1.setV i (tileOf (fun r c => if st1.p r c then x.lane r c else y.lane r c)
    (fun r => (anyLane (st1.p r) && (x.row r).poison) || ((anyLane fun c => !st1.p r c) && (y.row r).poison))))
def execVsel (d a b : Code) (t : BitVec 4) (s : State) : Out := strandWord .v 1 (vselOp d a b t) s

/-! Moves (R202, R203). -/

def vmovOp (d a : Code) (ty : BitVec 4) (q : BitVec 1) (st : Strand) : Except Halt Strand := do
  need (ty == 8 || ty == 2) .illegal
  need (decide (d.toNat < 16) || ((d == 22 || d == 23) && q == 0)) .illegal
  needSrcV a
  let (x, st1) ← srcV st a
  let st2 ← dstV st1 d q x
  .ok (if d = 23 then { st2 with sat := false, nan := false, fmt := false } else st2)
def execVmov (d a : Code) (t : BitVec 4) (q : BitVec 1) (s : State) : Out := strandWord .v 1 (vmovOp d a t q) s

/-- A constant tile into a register. -/
def constTile (d : Code) (f : Nat → Nat → Word) (st : Strand) : Except Halt Strand := do
  let i ← role16 d
  .ok (st.setV i (tileOf f fun _ => false))
def execVli (d : Code) (imm : Word) (s : State) : Out := strandWord .v 2 (constTile d fun _ _ => imm) s
def viotaOp (d : Code) (imm : Word) (st : Strand) : Except Halt Strand :=
  if imm.toNat ≥ 2 then raise .illegal
  else constTile d (fun r c => BitVec.ofNat 32 (if imm = 0 then c else r)) st
def execViota (d : Code) (imm : Word) (s : State) : Out := strandWord .v 2 (viotaOp d imm) s

/-! Operations across lanes (R204 to R208). -/

/-- The result of a move along an axis: `src j` names the source position of result position `j`, or a fill. -/
inductive Moved where
  | src (i : Nat)
  | zero
  | old
deriving DecidableEq, Repr

/-- A tile moved along an axis (R204, R205). -/
def moveTile (col : Bool) (f : Nat → Moved) (src old : Tile) : Tile :=
  tab 16 fun r =>
    if col then
      match f r with
      | .src i => { src.row i with tag := {} }
      | .zero => blankRow
      | .old => { old.row r with tag := {} }
    else
      { lanes := tab 64 fun c => match f c with
          | .src i => src.lane r i
          | .zero => 0
          | .old => old.lane r c
        poison := (src.row r).poison || ((anyLane fun c => f c == .old) && (old.row r).poison) }

/-- A move along the axis `x` by an amount or to an index `n` (R106). -/
def moveOp (d a : Code) (x : BitVec 1) (n : BitVec 6) (f : Nat → Nat → Nat → Moved) (st : Strand) : Except Halt Strand := do
  let i ← role16 d
  needSrcV a
  let len := if x = 1 then 16 else 64
  need (decide (n.toNat < len)) .illegal
  let (t, st1) ← srcV st a
  .ok (st1.setV i (moveTile (x == 1) (f len n.toNat) t (st1.tiles.get i)))

def execVrot (d a : Code) (x u : BitVec 1) (n : BitVec 6) (s : State) : Out :=
  strandWord .v 1 (moveOp d a x n fun len k j => .src (if u = 0 then (j + len - k) % len else (j + k) % len)) s
def vslideOp (d a : Code) (x u : BitVec 1) (f : BitVec 2) (n : BitVec 6) (st : Strand) : Except Halt Strand :=
  if f = 3 then raise .illegal
  else moveOp d a x n (fun len k j =>
    let vacated := if u = 0 then decide (j < k) else decide (j + k ≥ len)
    if !vacated then .src (if u = 0 then j - k else j + k)
    else if f = 0 then .zero
    else if f = 1 then .src (if u = 0 then 0 else len - 1)
    else .old) st
def execVslide (d a : Code) (x u : BitVec 1) (f : BitVec 2) (n : BitVec 6) (s : State) : Out :=
  strandWord .v 1 (vslideOp d a x u f n) s
def execVbcast (d a : Code) (x : BitVec 1) (n : BitVec 6) (s : State) : Out :=
  strandWord .v 1 (moveOp d a x n fun _ k _ => .src k) s

/-- The operations of VRED: the combination and its identity (R140, R206). -/
inductive RedOp where
  | sum | max | min | amax
deriving DecidableEq, Repr

def RedOp.combine (op : RedOp) (ty : BitVec 4) (a b : Word) : Word :=
  match op with
  | .sum => if ty = 8 then fadd a b else a + b
  | .max => minmaxElem ty true a b
  | .min => minmaxElem ty false a b
  | .amax => fminmax .fp32 true (a &&& 0x7FFFFFFF) (b &&& 0x7FFFFFFF)

def RedOp.identity (op : RedOp) (ty : BitVec 4) : Word :=
  match op with
  | .sum => if ty = 8 then 0x80000000 else 0
  | .max => if ty = 8 then 0xFF800000 else if ty = 2 then 0x80000000 else 0
  | .min => if ty = 8 then 0x7F800000 else if ty = 2 then 0x7FFFFFFF else 0xFFFFFFFF
  | .amax => 0

def vredOp (op : RedOp) (d a : Code) (ty : BitVec 4) (x q : BitVec 1) (st : Strand) : Except Halt Strand := do
  need (ty == 8 || (op != .amax && (ty == 2 || ty == 6))) .illegal
  need (decide (d.toNat < 16) || d == 22 || d == 23) .illegal
  needSrcV a
  let (t, st1) ← srcV st a
  let elem := fun (r c : Nat) => if st1.writes q r c then t.lane r c else op.identity ty
  let red := fun (l : List Word) => (tree (op.combine ty) 6 l).headD 0
  if x = 1 then
    let cols := (List.range 64).map fun c => red ((List.range 16).map fun r => elem r c)
    let pz := (List.range 16).any fun r => (t.row r).poison
    dstV st1 d 0 (tileOf (fun _ c => cols.getD c 0) fun _ => pz)
  else
    let rows := (List.range 16).map fun r => red ((List.range 64).map fun c => elem r c)
    dstV st1 d 0 (tileOf (fun r _ => rows.getD r 0) fun r => (t.row r).poison)
def execVredSum (d a : Code) (t : BitVec 4) (x q : BitVec 1) (s : State) : Out := strandWord .v 1 (vredOp .sum d a t x q) s
def execVredMax (d a : Code) (t : BitVec 4) (x q : BitVec 1) (s : State) : Out := strandWord .v 1 (vredOp .max d a t x q) s
def execVredMin (d a : Code) (t : BitVec 4) (x q : BitVec 1) (s : State) : Out := strandWord .v 1 (vredOp .min d a t x q) s
def execVredAmax (d a : Code) (x q : BitVec 1) (s : State) : Out := strandWord .v 1 (vredOp .amax d a 8 x q) s

/-- VPCNT (R207). -/
def vpcntOp (d : Code) (st : Strand) : Except Halt Strand :=
  if d.toNat < 16 ∨ d = 22 ∨ d = 23 then
    let n := (List.range 1024).countP fun i => st.p (i / 64) (i % 64)
    dstV st d 0 (tileOf (fun _ _ => BitVec.ofNat 32 n) fun _ => false)
  else raise .illegal
def execVpcnt (d : Code) (s : State) : Out := strandWord .v 2 (vpcntOp d) s

/-- VCPR (R208). -/
def vcprOp (d a : Code) (imm : Word) (st : Strand) : Except Halt Strand := do
  need (decide (imm.toNat < 2)) .illegal
  need (decide (d.toNat < 16) || d == 22) .illegal
  needSrcV a
  let (t, st1) ← srcV st a
  if imm = 0 then
    let rows := (List.range 16).map fun r => ((List.range 64).filter fun c => st1.p r c).map fun c => t.lane r c
    dstV st1 d 0 (tileOf (fun r c => (rows.getD r []).getD c 0) fun r => (t.row r).poison)
  else
    let cols := (List.range 64).map fun c => (List.range 16).filter fun r => st1.p r c
    let from? := fun (j c : Nat) => (cols.getD c [])[j]?
    dstV st1 d 0 (tileOf (fun j c => match from? j c with | some r => t.lane r c | none => 0)
      fun j => anyLane fun c => match from? j c with | some r => (t.row r).poison | none => false)
def execVcpr (d a : Code) (imm : Word) (s : State) : Out := strandWord .v 2 (vcprOp d a imm) s

/-! Plain conversion (R209 to R211). -/

/-- The types of R209: floating formats and integers. -/
def cvtFmt (ty : Nat) : Option Fmt :=
  match ty with
  | 8 => some .fp32 | 9 => some .bf16 | 10 => some .fp16 | 11 => some .e4m3 | 12 => some .e5m2 | 13 => some .e2m1 | _ => none
def cvtInt (ty : Nat) : Bool := ty == 2 || ty == 6 || ty == 1 || ty == 5
def cvtWidth (ty : Nat) : Nat :=
  match cvtFmt ty with
  | some f => f.width
  | none => intWidth (BitVec.ofNat 4 ty)

/-- One element converted: its bits, and whether it sets sat and nan (R211). -/
def cvtElem (src dst : Nat) (rm : Rm) (x : Word) : Word × Bool × Bool :=
  let dt := BitVec.ofNat 4 dst
  match cvtFmt src, cvtFmt dst with
  | some f, some g =>
    let v := f.decode x
    match g with
    | .fp32 => (round g rm v, false, false)
    | .bf16 => (round g rm v, false, false)
    | .fp16 => (round g rm v, false, false)
    | _ => let (c, k) := quantiseU v g 0 rm 0; (c, k == .overflow, v.isNan)
  | some f, none =>
    let v := f.decode x
    let n := toIntRound v rm
    (BitVec.ofInt 32 (saturateInt dt n), !v.isNan && (v.isInf || saturateInt dt n != n), v.isNan)
  | none, some g =>
    let v := ofInt (asInt (BitVec.ofNat 4 src) x.toNat)
    match g with
    | .fp32 => (round g rm v, false, false)
    | .bf16 => (round g rm v, false, false)
    | .fp16 => (round g rm v, false, false)
    | _ => let (c, k) := quantiseU v g 0 rm 0; (c, k == .overflow, false)
  | none, none =>
    let n := asInt (BitVec.ofNat 4 src) x.toNat
    (BitVec.ofInt 32 (saturateInt dt n), saturateInt dt n != n, false)

/-- Element `j` of a row of elements of `w` bits (R210). -/
def rowElem (r : Row) (w j : Nat) : Word :=
  BitVec.ofNat 32 ((r.lane (j * w / 32)).toNat / 2 ^ (j * w % 32) % 2 ^ w)

/-- A lane packed from the elements of a row, `w` bits each, 64 elements. -/
def packLane (e : Nat → Word) (w c : Nat) : Word :=
  let per := 32 / w
  BitVec.ofNat 32 ((List.range per).foldr (fun k n =>
    (if c * per + k < 64 then (e (c * per + k)).toNat % 2 ^ w else 0) + 2 ^ w * n) 0)

def vcvtOp (d a b : Code) (ty : BitVec 4) (r : BitVec 3) (q : BitVec 1) (st : Strand) : Except Halt Strand := do
  let src := ty.toNat
  let dst := b.toNat
  let ok := fun (k : Nat) => (cvtFmt k).isSome || cvtInt k
  need (ok src && ok dst && src != dst) .illegal
  let rm ← plainRm r
  let i ← role16 d
  needSrcV a
  let (t, st1) ← srcV st a
  let ws := cvtWidth src
  let wd := cvtWidth dst
  let rows := (List.range 16).map fun k => (List.range 64).map fun j => cvtElem src dst rm (rowElem (t.row k) ws j)
  let get := fun (k j : Nat) => (rows.getD k []).getD j (0, false, false)
  let new := tileOf (fun k c => packLane (fun j => (get k j).1) wd c) fun k => (t.row k).poison
  let hit := fun (sel : Word × Bool × Bool → Bool) =>
    (List.range 16).any fun k => (List.range 64).any fun j => st1.writes q k (j * wd / 32) && sel (get k j)
  .ok ((st1.setV i (mergeTile st1 q (st1.tiles.get i) new)).stick (hit fun x => x.2.1) (hit fun x => x.2.2) false)
def execVcvt (d a b : Code) (t : BitVec 4) (r : BitVec 3) (q : BitVec 1) (s : State) : Out :=
  strandWord .v 1 (vcvtOp d a b t r q) s

/-! VQNT (R212 to R214). -/

/-- Rows used by a record format (R214). -/
def usedRows : Fmt → Nat
  | .bf16 => 8 | .fp16 => 8 | .e2m1 => 3 | _ => 4

/-- The coded elements of a tile, with the block scales of MXFP4; none where .p keeps the old bytes. -/
def quantTile (st : Strand) (r : RecV) (rm : Rm) (q : BitVec 1) (ei0 : Nat) (t : Tile) :
    List (Option Coded) × List (Option (Byte × Bool)) :=
  if r.fmt = .e2m1 then
    let blocks := (List.range 32).map fun b =>
      let row := t.row (b / 2)
      if st.writes q (b / 2) (32 * (b % 2)) then
        if row.poison then (List.replicate 32 (some ⟨0, .zero, none, true⟩), some ((0 : Byte), true))
        else
          let (cs, xs) := codesOf r rm st.phase (ei0 + 32 * b) ((List.range 32).map fun k => (row.lane (32 * (b % 2) + k), false))
          (cs.map some, xs.head?)
      else (List.replicate 32 none, none)
    (blocks.flatMap Prod.fst, blocks.map Prod.snd)
  else
    ((List.range 1024).map fun e =>
      let row := t.row (e / 64)
      if st.writes q (e / 64) (e % 64) then
        if row.poison then some ⟨0, .zero, none, true⟩
        else
          let x := f32 (row.lane (e % 64))
          let (c, k) := quantise x r.fmt r.scale rm r.idx (ei0 + e) st.phase.toNat
          some ⟨c, k, scaledExp x r.scale, false⟩
      else none, [])

/-- The output bytes of coded elements (R214), none where old bytes are kept. -/
def quantBytes (f : Fmt) : List (Option Coded) → List (Option (Byte × Bool))
  | [] => []
  | x :: rest =>
    match f with
    | .e2m1 =>
      match rest with
      | y :: more =>
        (match x, y with
         | some a, some b => some (BitVec.ofNat 8 (a.code.toNat % 16 + 16 * (b.code.toNat % 16)), a.poison || b.poison)
         | _, _ => none) :: quantBytes f more
      | [] => []
    | _ => (match x with
        | some a => (bytesOfNat f.bytes a.code.toNat).map fun b => some (b, a.poison)
        | none => List.replicate f.bytes none) ++ quantBytes f rest

/-- A used row of VQNT's output from its 256 bytes (R190, R214). -/
def quantRow (tag : RowTag) (old : Row) (bs : List (Option (Byte × Bool))) : Row :=
  let ob := old.bytes
  let new := (bs.zip ob).map fun (x, o) => match x with | some (b, _) => b | none => o
  { lanes := lanesOf new
    poison := (bs.any fun x => match x with | some (_, p) => p | none => false) || (bs.any Option.isNone && old.poison)
    tag := if bs.all Option.isSome || old.tag == tag then tag else {} }

/-- VQNT (R211 to R214): it waits for its pops before it looks at what it pops (R187), which it does before it takes its record (R191,
R213), whose format says how much room its pushes need. -/
def vqntOp (d a b : Code) (ty : BitVec 4) (rc : BitVec 3) (q : BitVec 1) (s : State) (t : Core) (st : Strand) : WordResult :=
  let start : Except Halt (Strand × Tile × Nat × RecV × Rm) := do
    need (decide (d.toNat < 16) || (d == 22 && q == 0)) .illegal
    needSrcV a
    let slot ← slotRole b
    need (ty == 8 || ty == 9 || ty == 10 || ty == 11 || ty == 12 || ty == 14) .illegal
    match Rm.ofBits rc with
    | none => raise .illegal
    | some rm => do
      let (x, st1) ← srcV st a
      let (cv, st2) ← popC2v st1 false
      let c ← clean cv
      let r ← recordOf s t st slot
      if d == 22 && !st.a.ended && decide (st.v2a.length + usedRows r.fmt > 16) then await .push
      let ei0 := bits c.toNat 39 0
      if r.fmt = .e2m1 then
        need (ei0 % 32 == 0) .align
        need (q == 0 || (List.range 32).all fun k =>
          (List.range 32).all fun j => st.p (k / 2) (32 * (k % 2) + j) == st.p (k / 2) (32 * (k % 2))) .align
      .ok (st2, x, ei0, r, rm)
  match start with
  | .error (.wait w) => .stay w s
  | .error (.fault c) => .trap c .atWord s
  | .ok (st2, x, ei0, r, rm) =>
    let (cs, scales) := quantTile st2 r rm q ei0 x
    let bytes := quantBytes r.fmt cs ++
      (if r.fmt = .e2m1 then scales ++ List.replicate 224 (some ((0 : Byte), false)) else [])
    let tag : RowTag := { tv := true, slot := BitVec.ofNat 4 b.toNat, ver := r.ver }
    let old : Tile := if h : d.toNat < 16 then st2.tiles.get ⟨d.toNat, h⟩ else Vector.replicate 16 blankRow
    let used := (List.range (usedRows r.fmt)).map fun k => quantRow tag (old.row k) ((bytes.drop (256 * k)).take 256)
    let st3 := if ty != 8 && ty.toNat != fmtCode r.fmt then { st2 with fmt := true } else st2
    let placed : Except Halt Strand :=
      if h : d.toNat < 16 then .ok (st3.setV ⟨d.toNat, h⟩ (tab 16 fun k => used.getD k blankRow))
      else pushV2a st3 used
    match placed with
    | .error (.wait w) => .stay w s
    | .error (.fault c) => .trap c .atWord s
    | .ok st4 =>
      match stampRun t st2 .v r [] ei0 (cs.map fun c => c.getD ⟨0, .zero, none, true⟩) (s.setStrand t st4) with
      | .error (.fault c, s1) => .trap c .partway s1
      | .error (.wait w, _) => .stay w s
      | .ok s1 => .done s1
def execVqnt (d a b : Code) (t : BitVec 4) (r : BitVec 3) (q : BitVec 1) (s : State) : Out :=
  machineWord .v 1 (vqntOp d a b t r q) s

/-! VDQ (R215). -/

/-- The value of element `e` of narrow codes laid out in rows (R214, R126, R127). -/
def quantElem (f : Fmt) (sc : Int) (bs : List Byte) (e : Nat) : Num :=
  match f with
  | .e2m1 =>
    let b := (bs.getD (e / 2) 0).toNat
    let code := if e % 2 = 0 then b % 16 else b / 16
    let x := (bs.getD (512 + e / 32) 0).toNat
    if x = 255 then .nan else (f.decode (BitVec.ofNat 32 code)).scale (sc + (x : Int) - 127)
  | .bf16 => (f.decode (BitVec.ofNat 32 ((bs.getD (2 * e) 0).toNat + 256 * (bs.getD (2 * e + 1) 0).toNat))).scale sc
  | .fp16 => (f.decode (BitVec.ofNat 32 ((bs.getD (2 * e) 0).toNat + 256 * (bs.getD (2 * e + 1) 0).toNat))).scale sc
  | _ => (f.decode (BitVec.ofNat 32 (bs.getD e 0).toNat)).scale sc

/-- VDQ (R215). DESIGN CHOICE (log 56): a ring entry of the tag's version whose format R376 does not list raises ILLEGAL. -/
def vdqOp (d a b : Code) (rc : BitVec 3) (q : BitVec 1) (s : State) (t : Core) (st : Strand) : Except Halt State := do
  let i ← role16 d
  need (decide (a.toNat < 18)) .illegal
  let slot ← slotRole b
  let rm ← plainRm rc
  let g : RowTag ← if h : a.toNat < 16 then pure ((st.tiles.get ⟨a.toNat, h⟩).row 0).tag
    else (do let (es, _) ← popA2v st 1 true; pure (es.headD blankRow).tag)
  need (g.tv && g.slot.toNat == slot.val) .staleScale
  let r ← recordOf s t st slot
  let (f, sc, _) ← lookupVersion s t st r.idx g.ver
  need (f != .fp32) .illegal
  let k := usedRows f
  let (rows, st1) ← if h : a.toNat < 16 then pure ((List.range k).map fun j => (st.tiles.get ⟨a.toNat, h⟩).row j, st)
    else popA2v st k (a == 17)
  need (rows.all fun x => x.tag == g) .staleScale
  let bs := rows.flatMap Row.bytes
  let per := 16 / (if f = .e2m1 then 2 else k)
  let poison := fun (j : Nat) => (rows.getD (j / per) blankRow).poison || (f == .e2m1 && (rows.getD 2 blankRow).poison)
  let new := tileOf (fun j c => round .fp32 rm (quantElem f sc bs (64 * j + c))) poison
  .ok (s.setStrand t (st1.setV i (mergeTile st1 q (st1.tiles.get i) new)))
def execVdq (d a b : Code) (r : BitVec 3) (q : BitVec 1) (s : State) : Out := checkedWord .v 1 (vdqOp d a b r q) s

end Sys2Proof.Machine
end

