-- ==== Sys2Proof/Machine/Derailleur.lean ====
section
/-! DEFINITION. The home's side of records: versions (R378), the merge of a launch and its emergency step (R384, R385), the
policy table (R387) and the phase-close evaluation (R389). -/

namespace Sys2Proof.Machine

/-! Records and policies at the home, as lists of 64-bit words. -/

/-- The home die of an address of a job's record table or policy table (R20). -/
def homeOf (s : State) (j : Job) (va : Nat) : Fin 4 :=
  match lookupLeaf s none s.leaderDie j va with
  | .ok e => homeDie (e.pbase + va % 2 ^ e.lg)
  | .error _ => s.leaderDie

/-- A 64-bit word that the device reads as data; a poisoned one is not used (R495). -/
def homeWord (s : State) (j : Job) (va : Nat) : Except FaultCode Nat :=
  match s.agentRead none (homeOf s j va) j va 8 with
  | .error c => .error c
  | .ok (b, p) => if p then .error .poisonSync else .ok (natOfBytes b)

/-- Words of record `i`: those listed, the others 0. DESIGN CHOICE (log 68): a word with a `z` bit set, and a ring entry 0 that no live record
holds (R377), which only a plain store leaves, are not used either, and are taken as ILLEGAL. -/
def homeRecord (s : State) (j : Job) (i : Nat) (use : Nat → Bool) : Except FaultCode (List Nat) :=
  (List.range 32).mapM fun k =>
    if use k then
      match homeWord s j (recAddr j i + 8 * k) with
      | .error c => .error c
      | .ok w => if wordSound k w && (k != 6 || ringLive (w % 2 ^ 32)) then .ok w else .error .illegal
    else .ok 0

/-- Bytes of record `i` written at an offset by its home. -/
def putBytes (s : State) (j : Job) (i off n v : Nat) : Except FaultCode State :=
  let va := recAddr j i + off
  match s.writeAs (derailleurAgent (homeOf s j va)) none j va (bytesOfNat n v) false none with
  | (s1, none) => .ok s1
  | (_, some c) => .error c

/-- Where a slot or an extension holds a record, or its policy entry, for its home: the home die, and the address (R247, R423). -/
def homeHeld (s : State) (j : Job) (i : Nat) : Option (Fin 4 × Nat) :=
  let d := homeOf s j (recAddr j i)
  let pol := match homeWord s j (recAddr j i + 0x50) with | .ok w => bits w 5 0 | .error _ => 0
  ((s.heldAt none d j (recAddr j i) 256).or (s.heldAt none d j (j.pobase + 16 * pol) 16)).map fun pa => (d, pa)

/-- The home of a record may read and write it and its policy entry now: nothing holds them, and its die's writes would apply (R309). -/
def homeFree (s : State) (j : Job) (i : Nat) : Bool := s.agentReady (homeOf s j (recAddr j i)) && (homeHeld s j i).isNone

/-- The words listed are written; a version made, or a change of word 0x50, leaves no cached copy (R383). -/
def putRecord (s : State) (j : Job) (i : Nat) (ks : List Nat) (ws : List Nat) : Except FaultCode State := do
  let s1 ← ks.foldlM (fun s k => putBytes s j i (8 * k) 8 (ws.getD k 0)) s
  .ok (if ks.any fun k => decide (6 ≤ k && k ≤ 10) then s1.invalidate j.no i else s1)

/-- Bits [hi:lo] of a number replaced. -/
def setBits (w hi lo v : Nat) : Nat := w - bits w hi lo * 2 ^ lo + v % 2 ^ (hi + 1 - lo) * 2 ^ lo

/-- A field of a record's words, and its replacement. -/
def rget (ws : List Nat) (k hi lo : Nat) : Nat := bits (ws.getD k 0) hi lo
def rset (ws : List Nat) (k hi lo v : Nat) : List Nat := ws.set k (setBits (ws.getD k 0) hi lo v)
def rgetS (ws : List Nat) (k hi lo : Nat) : Int := signed8 (rget ws k hi lo)
/-- An integer as an 8-bit field. -/
def field8 (v : Int) : Nat := (BitVec.ofInt 8 v).toNat

/-- The ring of a record (R375, R376). -/
def ringOf (ws : List Nat) : List Nat :=
  (List.range 8).map fun k => rget ws (6 + k / 2) (if k % 2 = 0 then 31 else 63) (if k % 2 = 0 then 0 else 32)

def putRing (ws es : List Nat) : List Nat :=
  (List.range 4).foldl (fun ws k => ws.set (6 + k) (es.getD (2 * k) 0 % 2 ^ 32 + es.getD (2 * k + 1) 0 % 2 ^ 32 * 2 ^ 32)) ws

/-- NewVersion (R378). -/
def newVersion (ws : List Nat) (g : Fmt) (sg : Int) : List Nat :=
  let es := ringOf ws
  putRing ws (ringEntry g sg (es.headD 0 % 2 ^ 16 + 1) :: es.take 7)

/-- Format and scale of ring entry 0, which `homeRecord` has found live. -/
def ringHead (ws : List Nat) : Fmt × Int :=
  let e := (ringOf ws).headD 0
  (ringFormat e, signed8 (bits e 23 16))

/-- A policy entry (R387). -/
structure Policy where
  ovl : Nat
  uftol : Nat
  mxthr : Nat
  emerg : Nat
  hyst : Nat
  decay : Nat
  margin : Nat
  bf16 : Bool
  fmts : Nat
deriving DecidableEq, Repr

/-- A policy entry as the home reads it. DESIGN CHOICE (log 61): R387 calls an entry with a non-zero `z` invalid and gives no outcome;
it has that of a poisoned entry (R495), recorded as ILLEGAL. -/
def homePolicy (s : State) (j : Job) (pol : Nat) : Except FaultCode Policy := do
  let lo ← homeWord s j (j.pobase + 16 * pol)
  let hi ← homeWord s j (j.pobase + 16 * pol + 8)
  let v := hi * 2 ^ 64 + lo
  if bits v 95 24 != 0 || bits v 4 3 != 0 then .error .illegal
  else .ok { ovl := bits v 127 112, uftol := bits v 111 96, mxthr := bits v 23 20, emerg := bits v 19 16, hyst := bits v 15 12,
             decay := bits v 11 9, margin := bits v 8 6, bf16 := bits v 5 5 == 1, fmts := bits v 2 0 }

/-- Whether a policy allows a format. -/
def Policy.allows (p : Policy) (f : Fmt) : Bool :=
  match f with
  | .e4m3 => bits p.fmts 0 0 == 1
  | .e5m2 => bits p.fmts 1 1 == 1
  | .e2m1 => bits p.fmts 2 2 == 1
  | .bf16 => p.bf16
  | _ => false

/-! Launch end (R384, R385). -/

/-- The first wider format that the policy allows. -/
def widen (p : Policy) (f : Fmt) : Option Fmt :=
  let after : List Fmt := match f with
    | .e2m1 => [.e4m3, .e5m2, .bf16]
    | .e4m3 => [.e5m2, .bf16]
    | .e5m2 => [.bf16]
    | .fp16 => [.bf16]
    | _ => []
  after.find? p.allows

/-- Emergency of R385. -/
def emergency (p : Policy) (ws : List Nat) : List Nat :=
  let (f, sc) := ringHead ws
  let ws := rset (rset ws 10 15 15 1) 10 55 48 0
  if p.emerg = 0 then ws
  else
    let (g, sg) : Fmt × Int := match widen p f with
      | some w => (w, sc + p.emerg - (w.top - f.top))
      | none => (f, sc + p.emerg)
    let sg := clampInt sg (-126) 127
    if g = f ∧ sg = sc then ws else newVersion ws g sg

/-- A maximum exponent as its 8-bit field: 0x80 for none. -/
def maxField (m : Option Int) : Nat := match m with | some v => field8 v | none => 0x80

/-- MergeLaunch of R384 at the home: the state, and whether the launch takes TENSOR. -/
def mergeLaunch (s : State) (job : Word) (i : Nat) (d : Delta) : Except FaultCode (State × Bool) :=
  match s.job? job with
  | none => .error .translation
  | some j => do
    let w ← homeRecord s j i fun k => k == 10 || k == 30
    let p ← homePolicy s j (rget w 10 5 0)
    let exceeds := decide (d.ovf * 2 ^ 20 > p.ovl * d.n)
    let ws ← if exceeds then homeRecord s j i fun k => (6 ≤ k && k ≤ 10) || k == 30 else pure w
    let sum := ((lookupNat j.counts i).getD {}).add d
    let ws1 := rset ws 30 63 32 (min (rget ws 30 63 32 + d.ovf) (2 ^ 32 - 1))
    let ws2 := rset ws1 30 31 0 (min (rget ws 30 31 0 + d.udf) (2 ^ 32 - 1))
    let ws3 := rset ws2 31 7 0 (maxField sum.max)
    let ws4 := rset (rset (rset ws3 31 63 40 (min d.ovf (2 ^ 24 - 1))) 31 39 16 (min d.udf (2 ^ 24 - 1))) 31 15 8 (maxField d.max)
    let ws5 := rset ws4 10 14 14 1
    let ws6 := if exceeds then emergency p ws5 else ws5
    let s1 ← putRecord s j i ((if ringOf ws6 = ringOf ws then [] else [6, 7, 8, 9]) ++ (if ws6.getD 10 0 = ws.getD 10 0 then [] else [10]) ++ [30, 31]) ws6
    .ok (s1.updJob job fun j =>
      { j with counts := insertNat j.counts i sum, emergency := j.emergency || ringOf ws6 != ringOf ws5 }, exceeds)

/-! Phase close (R389). -/

/-- The bins of the rolling histogram. -/
def histBins (ws : List Nat) : List Nat :=
  let v := (List.range 18).foldr (fun k n => ws.getD (11 + k) 0 + 2 ^ 64 * n) 0
  (List.range 48).map fun b => bits v (24 * b + 23) (24 * b)

def putHist (ws bins : List Nat) : List Nat :=
  let v := (List.range 48).foldr (fun b n => bins.getD b 0 % 2 ^ 24 + 2 ^ 24 * n) 0
  (List.range 18).foldl (fun ws k => ws.set (11 + k) (bits v (64 * k + 63) (64 * k))) ws

/-- The folded bins with zero and NaN bins first, and the shift. -/
structure Folded where
  t : List Nat
  k : Nat
deriving DecidableEq, Repr

def listMax (l : List Nat) : Nat := l.foldl max 0
def listSum (l : List Nat) : Nat := l.foldl (· + ·) 0

/-- The first loop of R389's normalisation. -/
def foldDown : Nat → Folded → Folded
  | 0, x => x
  | n + 1, x => if listMax x.t ≥ 2 ^ 24 then foldDown n { t := x.t.map (· / 2), k := x.k + 1 } else x

/-- The second loop. -/
def foldUp : Nat → Folded → Folded
  | 0, x => x
  | n + 1, x => if x.k > 0 ∧ listMax x.t < 2 ^ 22 then foldUp n { t := x.t.map (· * 2), k := x.k - 1 } else x

/-- Low of R389. -/
def lowBin (t : List Nat) (n tol : Nat) : Nat :=
  (List.range 48).foldl (fun m b => if listSum (t.take b) * 2 ^ 20 ≤ tol * n then b else m) 0

/-- The candidate loop of R389. -/
def choose (p : Policy) (t : List Nat) (n : Nat) (s0 emax : Int) : List Fmt → Fmt × Int
  | [] => (.bf16, 0)
  | g :: rest =>
    let sg := clampInt (emax + 1 - g.top + p.margin) (-126) 127
    let u := listSum ((List.range 48).map fun (b : Nat) =>
      if (b : Int) - 32 + s0 < sg + g.minUlp - 1 then t.getD b 0 else 0)
    if g = .e2m1 ∨ u * 2 ^ 20 ≤ p.uftol * n then (g, sg)
    else match rest with
      | [] => (g, sg)
      | _ => choose p t n s0 emax rest

/-- What R389 does with a proposal. -/
def propose (p : Policy) (ws : List Nat) (g : Fmt) (sg : Int) : List Nat :=
  let (f, sc) := ringHead ws
  if g = f ∧ sg = sc then rset ws 10 55 48 0
  else if g.top + sg > f.top + sc then rset (newVersion ws g sg) 10 55 48 0
  else
    let pcnt := rget ws 10 55 48
    let pf := (ringFmt (rget ws 10 39 36)).getD .bf16
    let ws1 := if pcnt = 0 ∨ g.top + sg > pf.top + rgetS ws 10 47 40 then
        rset (rset ws 10 39 36 (fmtCode g)) 10 47 40 (field8 sg) else ws
    let ws2 := rset ws1 10 55 48 (min (pcnt + 1) 255)
    if min (pcnt + 1) 255 ≥ p.hyst then
      rset (newVersion ws2 ((ringFmt (rget ws2 10 39 36)).getD .bf16) (rgetS ws2 10 47 40)) 10 55 48 0
    else ws2

/-- The folded counts of R389. -/
def foldCounts (p : Policy) (d : Delta) (ws : List Nat) : Folded :=
  let k := rget ws 29 13 8
  let bins := (List.range 48).map fun b => (histBins ws).getD b 0 / 2 ^ p.decay + (lookupNat d.bins b).getD 0 / 2 ^ k
  let tz := rget ws 29 39 16 / 2 ^ p.decay + d.zero / 2 ^ k
  let tn := rget ws 29 63 40 / 2 ^ p.decay + d.nan / 2 ^ k
  foldUp 64 (foldDown 64 { t := tz :: tn :: bins, k })

/-- PhaseClose of R389 on a record's words with its phase counts; the words of povf, pudf and pmax are written apart. -/
def phaseCloseWords (p : Policy) (d : Delta) (ws : List Nat) : List Nat :=
  let x := foldCounts p d ws
  let t := x.t.drop 2
  let n := listSum t
  let s0 := rgetS ws 10 63 56
  let (f, _) := ringHead ws
  let ws1 :=
    if n > 0 then
      let top : Nat := (List.range 48).foldl (fun m b => if t.getD b 0 > 0 then b else m) 0
      let emax : Int := (match d.max with | some m => max ((top : Int) - 32) m | none => (top : Int) - 32) + s0
      let mx := p.allows .e2m1 && rget ws 4 55 0 != 0 && rget ws 2 39 0 % 32 == 0
        && decide (top ≤ lowBin t n p.uftol + p.mxthr)
      let c := (if mx then [Fmt.e2m1] else []) ++ [Fmt.e4m3, .e5m2, .bf16].filter p.allows
      let (g, sg) := choose p t n s0 emax (if c.isEmpty then [f] else c)
      propose p ws g sg
    else ws
  let sc := (ringHead ws1).2
  let dd := sc - s0
  let hist := (List.range 48).map fun (b : Nat) =>
    min (listSum ((List.range 48).map fun (c : Nat) => if clampInt ((c : Int) - dd) 0 47 = b then t.getD c 0 else 0)) (2 ^ 24 - 1)
  let ws2 := rset (rset (rset (putHist ws1 hist) 29 39 16 (x.t.getD 0 0)) 29 63 40 (x.t.getD 1 0)) 29 13 8 x.k
  rset (rset (rset ws2 10 63 56 (field8 sc)) 10 14 14 0) 10 15 15 0

/-- One record evaluated at a phase close, when it has been touched (R388); a poisoned one is skipped (R495). -/
def phaseCloseRecord (s : State) (job : Word) (i : Nat) : State :=
  match s.job? job with
  | none => s
  | some j =>
    let r : Except FaultCode State := do
      let w ← homeRecord s j i fun k => k == 10
      if rget w 10 14 14 = 0 then .ok s
      else
        let d := (lookupNat j.counts i).getD {}
        let p ← homePolicy s j (rget w 10 5 0)
        let w1 ← homeRecord s j i fun k => 6 ≤ k && k ≤ 29
        let asks := p.allows .e2m1 && decide (listSum ((foldCounts p d w1).t.drop 2) > 0)
        let bscale ← if asks then homeWord s j (recAddr j i + 0x20) else pure 0
        let count ← if bits bscale 55 0 != 0 then homeWord s j (recAddr j i + 0x10) else pure 0
        let ws := phaseCloseWords p d ((w1.set 4 bscale).set 2 count)
        let s1 ← putRecord s j i ((List.range 24).map (· + 6)) ws
        let s2 ← putBytes s1 j i 0xF0 8 0
        let s3 ← putBytes s2 j i 0xF8 1 0x80
        .ok (s3.updJob job fun j => { j with counts := j.counts.filter fun x => x.1 != i })
    match r with
    | .ok s1 => s1
    | .error _ => s

/-! Agreement (R333). -/

/-- The version that the home returns for an agreement on scale `sg`: made unless entry 0 already holds it (R378). -/
def agreeVersion (s : State) (j : Job) (i : Nat) (f : Fmt) (sg : Int) : Except FaultCode (State × Word) := do
  let ws ← homeRecord s j i fun k => 6 ≤ k && k ≤ 9
  if ringHead ws = (f, sg) then .ok (s, BitVec.ofNat 32 ((ringOf ws).headD 0))
  else
    let ws1 := newVersion ws f sg
    let s1 ← putRecord s j i [6, 7, 8, 9] ws1
    .ok (s1, BitVec.ofNat 32 ((ringOf ws1).headD 0))

end Sys2Proof.Machine
end

