-- ==== Sys2Proof/Machine/Exchange.lean ====
section
/-! DEFINITION. The exchange engine's words, the command sequencer and the fabric's part in a command (R322 to R345). -/

namespace Sys2Proof.Machine

/-! Register words (R323). -/

/-- A source code of the exchange engine: 0 to 9. -/
def needSrcX (c : Code) : Except Halt Unit := need (decide (c.toNat < 10)) .illegal

def xmovOp (d a : Code) (st : Strand) : Except Halt Strand := do
  need (decide (d.toNat < 8) || d == 10) .illegal
  needSrcX a
  let (v, st1) ← srcX st a
  dstX st1 d v
def execXmov (d a : Code) (s : State) : Out := strandWord .x 1 (xmovOp d a) s

def xregImm (d : Code) (v : DWord) (st : Strand) : Except Halt Strand := do
  let i ← role8 d
  .ok (st.setE i ⟨v, false⟩)
def execXli (d : Code) (i : BitVec 19) (s : State) : Out := strandWord .x 1 (xregImm d (i.signExtend 64)) s
def execXliw (d : Code) (imm : Word) (s : State) : Out := strandWord .x 2 (xregImm d (imm.signExtend 64)) s

def xaddOp (d a b : Code) (st : Strand) : Except Halt Strand := do
  let i ← role8 d
  needSrcX a
  needSrcX b
  let (x, st1) ← srcX st a
  let (y, st2) ← srcX st1 b
  .ok (st2.setE i ⟨x.val + y.val, x.poison || y.poison⟩)
def execXadd (d a b : Code) (s : State) : Out := strandWord .x 1 (xaddOp d a b) s

def xaddiOp (d a : Code) (imm : BitVec 14) (st : Strand) : Except Halt Strand := do
  let i ← role8 d
  needSrcX a
  let (x, st1) ← srcX st a
  .ok (st1.setE i ⟨x.val + imm.signExtend 64, x.poison⟩)
def execXaddi (d a : Code) (i : BitVec 14) (s : State) : Out := strandWord .x 1 (xaddiOp d a i) s

/-! Paceline groups (R326 to R328). -/

/-- A paceline entry with its binding mask. -/
structure Pline where
  cur : Nat
  btmo : Nat
  gen : Word
  nrank : Nat
  own : Nat
  ftag : Word
  mask : BitVec 4096
deriving DecidableEq, Repr

/-- Bytes of the job's memory read by a part of a strand that is bound to see `v`, held by slots where `hold`; a poisoned byte is not
used (R306, R310). -/
def xread (hold : Bool) (s : State) (t : Core) (me : Agent) (v : View) (j : Job) (va n : Nat) : Except Halt (State × View × Nat) := do
  let (s1, v1, bs) ← (pieces 8 (n / 8 + 2) va (List.replicate n ())).foldlM (fun (r : State × View × List Byte) p => do
    let (s, v, bs) := r
    if hold then walkGate s t me.part j p.1
    match translate s (some t) (dieOf t) j p.1 .read with
    | .error c => raise c
    | .ok l =>
      if hold then requestGate s t me.part l
      if s.awaits me v l.pa p.2.length then await .writes
      let k := look s.mem (s.plain l.key) s.past me v (Config.freeValue s.draws) l.pa p.2.length
      if k.poison then raise .poisonSync
      let s1 := if k.drew then { s with draws := s.draws + 1 } else s
      .ok ((touchWalk s1 t j p.1).touch l false, { v with ids := k.from_.foldl (fun ids u => natInsert ids u.id) v.ids }, bs ++ k.bytes))
    (s, v, [])
  .ok (s1, v1, natOfBytes bs)

/-- The handle checks of R326 and R327, by a part of the strand that is bound to see `v`. -/
def pline (hold : Bool) (s : State) (t : Core) (st : Strand) (part : Nat) (v : View) (h : DWord) : Except Halt (State × View × Pline) := do
  let j ← jobOf s st
  let me := st.agent t part
  if h.toNat ≥ 1024 ∨ h.toNat ≥ j.pcount then raise .xMembership
  else
    let (s1, v1, w) ← xread hold s t me v j (j.pcbase + 64 * h.toNat) 64
    if bits w 0 0 != 1 || bits w 511 504 != 0 || bits w 447 440 != 0 || bits w 227 1 != 0 || bits w 271 260 != j.key.toNat then
      raise .xMembership
    else
      let own := bits w 287 272
      let (s2, v2, r) ← xread hold s1 t me v1 j (bits w 503 448 + 4 * own) 4
      let (s3, v3, mask) ← xread hold s2 t me v2 j (bits w 439 384) 512
      if bits r 31 20 != 0 || bits r 19 8 != s.card.fabric.toNat || bits r 7 0 != st.index.toNat % 256
          || bits mask own own != 1 then raise .xMembership
      else .ok (s3, v3, { cur := bits w 439 384, btmo := bits w 383 352, gen := BitVec.ofNat 32 (bits w 351 320),
                          nrank := bits w 319 304, own, ftag := BitVec.ofNat 32 (bits w 259 228), mask := BitVec.ofNat 4096 mask })

/-- The handle checks by the exchange engine itself. -/
def plineX (hold : Bool) (s : State) (t : Core) (st : Strand) (h : DWord) : Except Halt (State × Pline) := do
  let (s1, v, p) ← pline hold s t st Eng.x.part st.x.view h
  .ok (s1.bind t .x v, p)

/-- Declared ranks of a binding, ascending. -/
def ranksOf (m : BitVec 4096) : List Nat := (List.range 4096).filter fun i => m.getLsbD i
/-- The bound rank of a declared rank (R328). -/
def boundRank (m : BitVec 4096) (r : Nat) : Nat := ((ranksOf m).filter fun i => decide (i < r)).length

/-! Issue (R325, R330, R340, R341). -/

/-- At most 8 commands are outstanding. -/
def needSlot (st : Strand) : Except Halt Unit := if st.cmds.length ≥ 8 then await .commandSlot else .ok ()

/-- R343 lets a command be issued now: not under STRICT in a major slot, nor in a minor slot where it names a virtual address. -/
def calm (s : State) (st : Strand) (virt : Bool) : Bool := !(s.slotNow && st.x.slotmode == 1 && (s.majorSlot || virt))

/-- A command placed under the next ticket; its issue is a release at SYSTEM scope (R301, R306). -/
def placeCmd (s : State) (t : Core) (c : XCmd) : Except Halt State := do
  let (s1, v) ← release s t .x .system
  .ok (s1.updStrand t fun q => { q with tickets := q.tickets + 1, cmds := q.cmds ++ [{ c with ticket := q.tickets + 1, view := v }] })

/-- Scratchpad bytes read by the exchange engine; a poisoned byte is not used. -/
def readSpad (s : State) (t : Core) (a n : Nat) : Except Halt (State × Nat) :=
  let (s1, bs) := spadBytes s t .x a n
  if bs.any Prod.snd then raise .poisonSync else .ok (s1, natOfBytes (bs.map Prod.fst))

/-- The 64 bytes of a command or descriptor at a local address, the sum over the integers (R10, R330). -/
def readCommand (s : State) (t : Core) (x : PWord) (imm : BitVec 14) : Except Halt (State × Nat) := do
  let ea ← clean x
  let a : Int := ea.toNat + imm.toInt
  need (decide (0 ≤ a) && decide (a < Config.spadBytes)) .protection
  need (a % 64 == 0) .align
  readSpad s t a.toNat 64

/-- The bytes of a shape record in scratchpad (R330). -/
def readShape (s : State) (t : Core) (a : Nat) : Except Halt (State × Nat) := do
  need (decide (a + 48 ≤ Config.spadBytes)) .protection
  readSpad s t a 48

/-- The shape of a record's bytes. -/
def needShape (v : Nat) : Except Halt Shape :=
  match shapeOfBytes (bytesOfNat 48 v) with
  | none => raise .illegal
  | some h => .ok h

/-- A collective command's fields by name (R329). -/
def opOf (v : Nat) : Nat := bits v 184 182

/-- The counts of R331 that are checked at issue. -/
def issueCounts (op ns nd : Nat) : Bool :=
  match op with
  | 0 => ns == nd | 3 => ns == nd | 4 => nd == 0 | 5 => ns == 0 | _ => true

/-- The ILLEGAL row of R330 for a collective command. -/
def commandIllegal (st : Strand) (v : Nat) : Bool :=
  let op := opOf v
  let rm := bits v 189 187
  let ov := bits v 199 199 == 1
  bits v 511 504 != 0 || bits v 447 440 != 0 || bits v 287 270 != 0 || bits v 181 0 != 0 || op == 7
    || decide (rm > 4) || (rm == 4 && !ov) || (bits v 186 186 == 1 && !ov) || (bits v 185 185 == 1 && decide (op > 1))
    || (bits v 212 212 == 1 && bits v 223 223 == 0 && decide (bits v 222 213 > 31))
    || (bits v 200 200 == 1 && bits v 211 211 == 0 && decide (bits v 210 201 > 31))
    || (bits v 194 194 == 1 && (st.slots.toList.getD (bits v 193 190) none).isNone)
    || (ov && (st.slots.toList.getD (bits v 198 195) none).isNone)
    || (bits v 235 224 != 0 && op != 3 && op != 4 && op != 5)

/-- The element size of a side: FP32, or its record's (R330); MXFP4 is ILLEGAL. -/
def sideSize (s : State) (t : Core) (st : Strand) (used : Bool) (slot : Nat) : Except Halt Nat :=
  if used then do
    let r ← recordOf s t st ⟨slot % 16, Nat.mod_lt _ (by decide)⟩
    if r.fmt = .e2m1 then raise .illegal else .ok r.fmt.bytes
  else .ok 4

def xcmdOp (a : Code) (imm : BitVec 14) (s : State) (t : Core) (st : Strand) : Except Halt State := do
  needSrcX a
  needSlot st
  let (x, st1) ← srcX st a
  let (s1, v) ← readCommand (s.setStrand t st1) t x imm
  need (!commandIllegal st v) .illegal
  let iv := bits v 194 194 == 1
  let ov := bits v 199 199 == 1
  let es ← sideSize s1 t st iv (bits v 193 190)
  let ed ← sideSize s1 t st ov (bits v 198 195)
  let ready := calm s st (!isLocal (bits v 439 384) || !isLocal (bits v 503 448))
  let (s2, _) ← plineX ready s1 t st (BitVec.ofNat 64 (bits v 303 288))
  let (s3, sv) ← readShape s2 t (16 * bits v 252 236)
  let (s4, dv) ← readShape s3 t (16 * bits v 269 253)
  let src ← needShape sv
  let dst ← needShape dv
  need (issueCounts (opOf v) src.count dst.count) .illegal
  checkTraversal src (bits v 439 384) es
  checkTraversal dst (bits v 503 448) ed
  need ready .slotIntrusion
  let slot := fun (k : Nat) => st.slots.toList.getD k none
  placeCmd s4 t { ticket := 0, kind := 0, body := BitVec.ofNat 512 v, src, dst,
                  ins := if iv then slot (bits v 193 190) else none,
                  outs := if ov then slot (bits v 198 195) else none, handle := BitVec.ofNat 16 (bits v 303 288) }
def execXcmd (a : Code) (i : BitVec 14) (s : State) : Out := checkedWord .x 1 (xcmdOp a i) s

/-- A shape that an unused side holds. -/
def unitShape : Shape := { ext := Vector.replicate 4 1, stride := Vector.replicate 4 0 }

/-- XPUT and XGET (R341). -/
def transferOp (kind : BitVec 2) (a : Code) (imm : BitVec 14) (s : State) (t : Core) (st : Strand) : Except Halt State := do
  needSrcX a
  needSlot st
  let (x, st1) ← srcX st a
  let (s1, v) ← readCommand (s.setStrand t st1) t x imm
  need (!(bits v 511 504 != 0 || bits v 447 440 != 0 || bits v 351 344 != 0 || bits v 247 0 != 0
    || (bits v 275 275 == 1 && bits v 274 274 == 0 && decide (bits v 273 264 > 31)))) .illegal
  let ready := calm s st true
  let (s2, _) ← plineX ready s1 t st (BitVec.ofNat 64 (bits v 303 288))
  let ladr := bits v 439 384
  let len := bits v 343 304
  if len ≠ 0 then checkSpan ladr ladr (ladr + len - 1)
  need ready .slotIntrusion
  placeCmd s2 t { ticket := 0, kind, body := BitVec.ofNat 512 v, src := unitShape, dst := unitShape,
                  handle := BitVec.ofNat 16 (bits v 303 288) }
def execXput (a : Code) (i : BitVec 14) (s : State) : Out := checkedWord .x 1 (transferOp 1 a i) s
def execXget (a : Code) (i : BitVec 14) (s : State) : Out := checkedWord .x 1 (transferOp 2 a i) s

def xbindOp (a b : Code) (s : State) (t : Core) (st : Strand) : Except Halt State := do
  needSrcX a
  needSrcX b
  needSlot st
  let (x, st1) ← srcX st a
  let (y, st2) ← srcX st1 b
  let h ← clean x
  let m ← clean y
  let ready := calm s st false
  let (s1, p) ← plineX ready (s.setStrand t st2) t st h
  need (isLocal m.toNat) .protection
  need (m.toNat % 64 == 0) .align
  need (decide (m.toNat + 512 ≤ Config.spadBytes)) .protection
  let (s2, mask) ← readSpad s1 t m.toNat 512
  need (decide (mask < 2 ^ p.nrank) && bits mask p.own p.own == 1) .illegal
  need ready .slotIntrusion
  placeCmd s2 t { ticket := 0, kind := 3, src := unitShape, dst := unitShape, handle := h.setWidth 16,
                  mask := BitVec.ofNat 4096 mask }
def execXbind (a b : Code) (s : State) : Out := checkedWord .x 1 (xbindOp a b) s

/-! Statuses (R336 to R339). -/

/-- ILLEGAL of R337: ticket 0, or a ticket later than the last issued. -/
def needTicket (st : Strand) (k : Word) : Except Halt Unit := need (k != 0 && !later k st.tickets) .illegal

/-- The status that XSTAT returns (R336, R337). DESIGN CHOICE (log 75): a ticket that has never been issued, of the 63 before the first,
is EXPIRED too. -/
def ticketStatus (st : Strand) (k : Word) : Nat :=
  if (st.tickets - k).toNat > 63 then 8
  else
    match st.cmds.find? fun c => c.ticket == k with
    | some c => if c.active then 1 else 0
    | none =>
      match st.statuses.find? fun x => x.1 == k with
      | some x => x.2.toNat
      | none => 8

def xstatOp (d a : Code) (st : Strand) : Except Halt Strand := do
  need (decide (d.toNat < 8) || d == 10) .illegal
  needSrcX a
  let (v, st1) ← srcX st a
  let k ← clean v
  needTicket st1 (k.setWidth 32)
  dstX st1 d ⟨BitVec.ofNat 64 (ticketStatus st1 (k.setWidth 32)), false⟩
def execXstat (d a : Code) (s : State) : Out := strandWord .x 1 (xstatOp d a) s

/-- A semaphore raised by `n`, saturating (R332, R431). -/
def addSem (s : State) (t : Core) (die : Bool) (sn n : Nat) : State :=
  match s.strand t with
  | none => s
  | some st =>
    let (v, sat) := SemOp.inc.apply (semValue s t st die sn) (BitVec.ofNat 32 n)
    let s1 := setSem s t die sn v
    if sat then s1.updStrand t (·.count 16 1) else s1

/-- The part of its strand that a command is (R300). -/
def XCmd.part (c : XCmd) : Nat := 9 + 2 * c.ticket.toNat

/-- The set semaphore of a command, applied at its final status as a release at SYSTEM scope (R301, R332, R341). -/
def setSemaphore (s : State) (t : Core) (c : XCmd) : State :=
  let f := cmdField c.body
  let signal := fun (die : Bool) (n inc : Nat) => match s.strand t with
    | none => s
    | some st => attachView (addSem (s.raiseEpoch (dieOf t)) t die n inc) t st.job die n (s.covers (st.agent t c.part) c.view)
  if c.kind = 0 then
    (if f 212 212 = 1 then signal (f 223 223 == 1) (f 222 213) (f 319 304) else s)
  else if c.kind = 3 then s
  else if f 275 275 = 1 then signal (f 274 274 == 1) (f 273 264) (f 263 248) else s

/-- The generation that a command's handle stands at. -/
def genOf (s : State) (t : Core) (st : Strand) (c : XCmd) : Word :=
  if c.active then c.gen
  else match pline false s t st c.part c.view (c.handle.setWidth 64) with
    | .ok (_, _, p) => p.gen
    | .error _ => 0

/-- Where an XBIND's masks wait, apart from the numbered rounds (log 14). -/
def bindRoundNo : Nat := 2 ^ 25 - 1

def findRound (s : State) (ftag gen : Word) (round : Nat) : Option Round :=
  s.rounds.find? fun r => r.ftag == ftag && r.gen == gen && r.round == round

/-- A round changed, created when it is not there. -/
def updRound (s : State) (ftag gen : Word) (round : Nat) (f : Round → Round) : State :=
  match findRound s ftag gen round with
  | some _ => { s with rounds := s.rounds.map fun r => if r.ftag == ftag && r.gen == gen && r.round == round then f r else r }
  | none => { s with rounds := s.rounds ++ [f { ftag, gen, round }] }

/-- What has come for a round, as a command takes it whose timeout may have expired (R338). -/
def Round.within (r : Round) (cut : Option DWord) : List FabricMsg :=
  match cut with
  | none => r.msgs
  | some t => r.msgs.filter fun m => r.came.any fun x => x.1 == m.rank && decide (x.2.toNat ≤ t.toNat)

/-- A message comes in. -/
def Round.take (r : Round) (now : DWord) (m : FabricMsg) : Round :=
  { r with msgs := r.msgs.filter (fun x => x.rank != m.rank) ++ [m], came := (m.rank, now) :: r.came.filter fun x => x.1 != m.rank }

def dropRound (s : State) (ftag gen : Word) (round : Nat) : State :=
  { s with rounds := s.rounds.filter fun r => !(r.ftag == ftag && r.gen == gen && r.round == round) }

/-- The strand's own XBIND withdrawn from the masks that wait. -/
def dropBind (s : State) (c : XCmd) : State :=
  updRound s c.ftag c.gen bindRoundNo fun r => { r with msgs := r.msgs.filter fun m => m.rank != c.own }

/-- A record by its index as a command reads it. -/
def recordByIndex (s : State) (t : Core) (st : Strand) (i : BitVec 24) : Except Halt RecV :=
  recordOf s t { st with slots := Vector.replicate 16 (some i) } 0

/-- Members of a command's round, as declared ranks: the pair for SEND and RECV, else the binding. -/
def membersOf (c : XCmd) : List Nat :=
  let op := opOf c.body.toNat
  if op = 4 ∨ op = 5 then
    let p := (ranksOf c.mask).getD (bits c.body.toNat 235 224) c.own
    [min c.own p, max c.own p]
  else ranksOf c.mask

/-- Size of the binding (R328). -/
def sizeOf' (c : XCmd) : Nat := (ranksOf c.mask).length

/-- C of R331. -/
def countC (c : XCmd) : Nat :=
  match opOf c.body.toNat with
  | 1 => c.dst.count | 3 => c.dst.count | 5 => c.dst.count
  | 6 => c.src.count / sizeOf' c
  | _ => c.src.count

/-- A command that needs no traffic (R342). -/
def noTraffic (c : XCmd) : Bool := sizeOf' c == 1 || countC c == 0

/-- The messages of a round's members, in the order of their ranks; none while one is missing. -/
def gathered (s : State) (c : XCmd) (data : Bool) : Option (List FabricMsg) :=
  match findRound s c.ftag c.gen c.round with
  | none => none
  | some r => (membersOf c).mapM fun q => (r.within c.cut).find? fun m => m.rank == q && (m.data || !data)

/-- A node of RankTree with poison (R334). -/
def rankNode (rop : Nat) (a b : Word × Bool) : Word × Bool :=
  (if rop = 0 then fadd a.1 b.1 else fminmax .fp32 true a.1 b.1, a.2 || b.2)

/-- The result elements of a member (R334); `ls` are the leaf arrays by bound rank. -/
def resultOf (c : XCmd) (ls : List (List (Word × Bool))) : List (Word × Bool) :=
  let v := c.body.toNat
  let n := countC c
  let me := boundRank c.mask c.own
  let leaf := fun (q i : Nat) => (ls.getD q []).getD i (0, false)
  let red := fun (i : Nat) => (tree (rankNode (bits v 185 185)) 13 ((List.range (sizeOf' c)).map fun q => leaf q i)).headD (0, false)
  match opOf v with
  | 0 => (List.range n).map red
  | 1 => (List.range n).map fun i => red (me * n + i)
  | 2 => (List.range (sizeOf' c)).flatMap fun q => (List.range n).map fun i => leaf q i
  | 3 => (List.range n).map fun i => leaf (bits v 235 224) i
  | 5 => (List.range n).map fun i => leaf (if me < bits v 235 224 then 1 else 0) i
  | 6 => (List.range (sizeOf' c)).flatMap fun q => (List.range n).map fun i => leaf q (me * n + i)
  | _ => []

/-- Bytes written by a command under its identity (R335). -/
def exchangeWrite (s : State) (t : Core) (st : Strand) (c : XCmd) (k a : Nat) (bs : List Byte) (p : Bool) : Except Halt State :=
  partWrite s t st c.part a bs p (some (st.wid 4 k))

/-- A destination element of a collective as it is written: its number, address and bytes, and for a record its index and code. -/
structure DestElem where
  k : Nat
  addr : Nat
  bytes : List (Byte × Bool)
  coded : Option (Nat × Coded)
deriving DecidableEq, Repr

/-- The destination elements of a command for those result elements that are there, in traversal order (R332): quantised under the output
version, whose granules the write opens (R288). -/
def destElems (s : State) (t : Core) (st : Strand) (c : XCmd) (y : List (Option (Word × Bool))) :
    Except Halt (State × Option (RecV × List Nat) × List DestElem) := do
  let v := c.body.toNat
  let addr := fun (k : Nat) => (c.dst.addr (bits v 503 448) k).toNat
  let have_ := (y.zipIdx).filterMap fun x => x.1.map fun r => (x.2, r)
  match c.outs with
  | none => .ok (s, none, have_.map fun x => ⟨x.1, addr x.1, (bytesOfNat 4 x.2.1.toNat).map fun q => (q, x.2.2), none⟩)
  | some i =>
    let r ← recordByIndex s t st i
    let es := r.fmt.bytes
    let elem := fun (k : Nat) => (addr k - r.base) / es
    if (List.range y.length).any fun k => decide (addr k < r.base) || decide (elem k ≥ r.count) then raise .protection
    else
      let (s1, opened) ← granuleCheck t st .x r (touched (have_.map fun x => elem x.1)) (s, [])
      let rm := (Rm.ofBits (BitVec.ofNat 3 (bits v 189 187))).getD .rne
      .ok (s1, some (r, opened), have_.map fun x =>
        let (q, cls) := quantise (f32 x.2.1) r.fmt r.scale rm r.idx (elem x.1) st.phase.toNat
        ⟨x.1, addr x.1, (bytesOfNat es q.toNat).map fun b => (b, x.2.2),
          some (elem x.1, ⟨q, cls, scaledExp (f32 x.2.1) r.scale, x.2.2⟩)⟩)

/-- An element's Stamp and Count (R332). -/
def stampDest (t : Core) (st : Strand) (r : Option (RecV × List Nat)) (x : DestElem) (s : State) : Partway State :=
  match r, x.coded with
  | some (r, opened), some (e, q) => stampRun t st .x r opened e [q] s
  | _, _ => .ok s

/-- The result elements whose contributions are there (R334). -/
def resultSoFar (s : State) (c : XCmd) : List (Option (Word × Bool)) :=
  let v := c.body.toNat
  let n := countC c
  let got := (membersOf c).map fun q => (findRound s c.ftag c.gen c.round).bind fun r => (r.within c.cut).find? fun m => m.rank == q && m.data
  let there := fun (q : Nat) => ((got.getD q none).isSome : Bool)
  let all := (List.range got.length).all there
  (resultOf c (got.map fun m => (m.map (·.leaves)).getD [])).zipIdx.map fun x =>
    let ok := match opOf v with
      | 2 => there (x.2 / max n 1)
      | 6 => there (x.2 / max n 1)
      | 3 => there (bits v 235 224)
      | 5 => there (if boundRank c.mask c.own < bits v 235 224 then 1 else 0)
      | _ => all
    if ok && (bits v 186 186 == 0 || c.agreed) then some x.1 else none

/-- One destination element of a collective that is not DONE: each byte keeps its old value or takes the one that the round wrote, and a
Stamp may have been made, as free values say (R338). -/
def spoilElem (t : Core) (st : Strand) (c : XCmd) (r : Option (RecV × List Nat)) (s : State) (x : DestElem) : State :=
  let (v, s1) := s.draw
  let s2 := x.bytes.zipIdx.foldl (fun s b =>
    if v.getLsbD b.2 then
      match exchangeWrite s t st c x.k (x.addr + b.2) [b.1.1] b.1.2 with
      | .ok s1 => s1
      | .error _ => s
    else s) s1
  if v.getLsbD 8 then
    match stampDest t st r x s2 with
    | .ok s3 => s3
    | .error _ => s2
  else s2

/-- One destination byte of an XGET that is not DONE: its old value or one that the peer sent, which the package does not hold (R338,
log 15). -/
def spoilByte (t : Core) (st : Strand) (c : XCmd) (s : State) (i : Nat) : State :=
  let (v, s1) := s.draw
  if v.getLsbD 8 then
    match exchangeWrite s1 t st c i (bits c.body.toNat 439 384 + i) [v.setWidth 8] (v.getLsbD 9) with
    | .ok s2 => s2
    | .error _ => s1
  else s1

/-- The destination of a started command that ends otherwise than DONE (R338, log 15). -/
def spoil (s : State) (t : Core) (st : Strand) (c : XCmd) : State :=
  if !c.active then s
  else if c.kind = 2 then (List.range (bits c.body.toNat 343 304)).foldl (spoilByte t st c) s
  else if c.kind = 0 ∧ c.sent then
    let (v, s1) := s.draw
    if v.getLsbD 0 then s1
    else
      match destElems s1 t st c (resultSoFar s1 c) with
      | .error _ => s1
      | .ok (s2, r, xs) => xs.foldl (spoilElem t st c r) s2
  else s

/-- A command that is no longer outstanding leaves its round (R332, R338, R340). -/
def leaveRound (s : State) (c : XCmd) : State :=
  if !c.active then s else if c.kind = 3 then dropBind s c else dropRound s c.ftag c.gen c.round

/-- `spoil` stands for writes that the round has made as it ran, not for writes issued now (R309). -/
def spoilPast (s : State) (t : Core) (st : Strand) (c : XCmd) : State :=
  (spoil s t st c).updDie (dieOf t) fun k => { k with wrote := (s.die (dieOf t)).wrote }

/-- The commands that the fault rule has aborted leave their destinations open and their rounds (R54, R338). -/
def spoilAborted (s : State) (t : Core) (st : Strand) : State :=
  st.aborted.foldl (fun s c => leaveRound (spoilPast s t st c) c) s

/-- Finish (R332): the status recorded, of the last 64 tickets (R325), the handle dead after TIMEOUT, ABORTED or PEER-ABORTED (R338), the
command gone, the set semaphore applied; the destination of a command that is neither DONE nor REMOTE-FAULT is open (R338, R341). -/
def finishCmd (s : State) (t : Core) (c : XCmd) (code : BitVec 4) : State :=
  match s.strand t with
  | none => s
  | some st =>
    let s1 := (if code = 2 ∨ code = 7 then s else spoilPast s t st c).updStrand t fun q => { q with
      statuses := ((c.ticket, code) :: q.statuses).filter fun x => decide ((q.tickets - x.1).toNat < 64)
      cmds := q.cmds.filter fun x => x.ticket != c.ticket
      dead := if code = 3 ∨ code = 4 ∨ code = 5 then (c.handle, genOf s t st c) :: q.dead else q.dead }
    setSemaphore (leaveRound s1 c) t c

/-- The set semaphore of a command waits: its release covers a write that is held (R312, R343). -/
def waitsHeld (s : State) (t : Core) (st : Strand) (c : XCmd) : Bool :=
  (if c.kind = 0 then cmdField c.body 212 212 == 1 else c.kind != 3 && cmdField c.body 275 275 == 1) &&
    s.coversHeld (s.covers (st.agent t c.part) c.view)

def xabortOp (a : Code) (s : State) (t : Core) (st : Strand) : Except Halt State := do
  needSrcX a
  let (v, st1) ← srcX st a
  let k ← clean v
  needTicket st1 (k.setWidth 32)
  let hit := st1.cmds.filter fun c => !later (k.setWidth 32) c.ticket
  if !s.canRaise (dieOf t) || hit.any (waitsHeld s t st) then await .writes
  .ok (hit.foldl (fun s c => finishCmd s t c 4) (s.setStrand t st1))
def execXabort (a : Code) (s : State) : Out := checkedWord .x 1 (xabortOp a) s

/-! Running a command (R331 to R335, R342). -/

/-- A fault found while a command runs: class A, by the exchange engine (R450). -/
def asyncFault (s : State) (t : Core) (c : FaultCode) : State :=
  match s.strand t with
  | some st => takeFault s st.handle (wordRecord s t st .x 4 c .async)
  | none => s

/-- The head command of a strand. -/
def headCmd (s : State) (t : Core) : Option (Strand × XCmd) :=
  match s.strand t with
  | some st => match st.cmds with
    | c :: _ => if st.dead54 then none else some (st, c)
    | [] => none
  | none => none

/-- The head command replaced. -/
def setHead (s : State) (t : Core) (c : XCmd) : State :=
  s.updStrand t fun st => { st with cmds := c :: st.cmds.drop 1 }

/-- A slot or an extension holds a request of the head command, which joins those held (R312) and is counted once (R446). -/
def holdHead (s : State) (t : Core) (a : Nat) : State :=
  match headCmd s t with
  | none => s
  | some (_, c) =>
    let s1 := if c.held || !s.slotNow then s else s.updStrand t (·.count 9 1)
    (setHead s1 t { c with held := true }).hold (.part t c.part) (dieOf t) a

/-- The head command waits. -/
def waitHead (s : State) (t : Core) (w : Wait) : State := match w with | .held a => holdHead s t a | _ => s

/-- The counts and peers of R331 that are checked at the start. -/
def startCounts (c : XCmd) : Bool :=
  let n := sizeOf' c
  let peer := bits c.body.toNat 235 224
  match opOf c.body.toNat with
  | 1 => c.src.count == n * c.dst.count
  | 2 => c.dst.count == n * c.src.count
  | 3 => decide (peer < n)
  | 4 => decide (peer < n) && peer != boundRank c.mask c.own
  | 5 => decide (peer < n) && peer != boundRank c.mask c.own
  | 6 => c.src.count == c.dst.count && c.src.count % n == 0
  | _ => true

/-- The leaves of a command (R332): each source element decoded and rounded to FP32, with its poison; what it is bound to see after. -/
def readLeaves (s : State) (t : Core) (st : Strand) (c : XCmd) : Except Halt (State × View × List (Word × Bool)) := do
  let v := c.body.toNat
  let b := bits v 439 384
  let n := c.src.count
  if n = 0 ∨ (opOf v = 3 ∧ bits v 235 224 ≠ boundRank c.mask c.own) then .ok (s, c.view, [])
  else
    let (f, sc, es) : Fmt × Int × Nat ← match c.ins with
      | none => pure (Fmt.fp32, (0 : Int), 4)
      | some i => (do
        let r ← recordByIndex s t st i
        let (f, ver) ← taggedRead s t st r (c.src.low b) (c.src.high b + r.fmt.bytes - 1)
        let (_, sc, _) ← lookupVersion s t st r.idx ver
        pure (f, sc, r.fmt.bytes))
    (List.range n).foldlM (fun (x : State × View × List (Word × Bool)) k => do
      let (s1, w, bs, p) ← partRead x.1 t st c.part x.2.1 (c.src.addr b k).toNat es
      let y := (f.decode (BitVec.ofNat 32 (natOfBytes bs))).scale sc
      .ok (s1, w, x.2.2 ++ [(ne32 y, p)])) (s, c.view, [])

/-- Eloc of R333. -/
def elocOf (l : List (Word × Bool)) : Option Int :=
  l.foldl (fun m x => maxOpt m (scaledExp (f32 x.1) 0)) none

/-- ⌈log2 n⌉. -/
def ceilLog2 (n : Nat) : Nat := if n ≤ 1 then 0 else Nat.log2 (n - 1) + 1

/-- Agree (R333): the output version is fixed and the launch's pin moves to it (R379). -/
def agreeOn (s : State) (t : Core) (st : Strand) (c : XCmd) (eall : Option Int) : Except Halt State :=
  match c.outs, eall with
  | some i, some e => do
    let r ← recordByIndex s t st i
    let j ← jobOf s st
    let w ← cacheWord s t j (recAddr j r.idx + 0x50)
    let p ← match homePolicy s j (bits w 5 0) with
      | .ok p => pure p
      | .error x => raise x
    let op := opOf c.body.toNat
    let gw := if op ≤ 1 ∧ bits c.body.toNat 185 185 = 0 then ceilLog2 (sizeOf' c) else 0
    let sg := clampInt (e + 1 + gw - r.fmt.top + p.margin) (-126) 127
    if sg = r.scale then .ok s
    else
      match agreeVersion s j r.idx r.fmt sg with
      | .error x => raise x
      | .ok (s1, w) => .ok (s1.updLaunch st.handle fun l => { l with pins := insertNat l.pins r.idx w })
  | _, _ => .ok s

/-- The agreement made once every member's maximum is there and no slot holds the home's accesses; then the member's data is sent
(R333). -/
def tryAgree (s : State) (t : Core) : State :=
  match headCmd s t with
  | none => s
  | some (st, c) =>
    let free := match c.outs, s.job? st.job with | some i, some j => homeFree s j i.toNat | _, _ => true
    if c.kind != 0 || !c.sent || c.agreed || bits c.body.toNat 186 186 != 1 || !free then s
    else
      let go := fun (eall : Option Int) =>
        match agreeOn s t st c eall with
        | .error (.fault f) => asyncFault s t f
        | .error (.wait _) => s
        | .ok s1 =>
          updRound (setHead s1 t { c with agreed := true }) c.ftag c.gen c.round fun r =>
            { r with msgs := r.msgs.map fun m => if m.rank == c.own then { m with data := true } else m }
      if countC c = 0 then go none
      else if sizeOf' c = 1 then
        go ((findRound s c.ftag c.gen c.round).bind fun r => (r.msgs.find? fun m => m.rank == c.own).bind (·.eloc))
      else
        match gathered s c false with
        | none => s
        | some ms => go (ms.foldl (fun m x => maxOpt m x.eloc) none)

/-- The head command past its wait: counts, leaves, its own contribution (R332); a slot or an extension may hold its reads and its
message, and then it stays as it is. Where no port is in service its message is lost (R458). -/
def beginCmd (s : State) (t : Core) : State :=
  match headCmd s t with
  | none => s
  | some (st, c0) =>
    let c := { c0 with waited := true }
    let lost := !noTraffic c && s.card.ports == 0
    if c.cut.isSome then s
    else if !startCounts c then finishCmd s t c 6
    else if !noTraffic c && !lost && !s.chainFree (dieOf t) then setHead s t c
    else
      match readLeaves s t st c with
      | .error (.fault f) => asyncFault s t f
      | .error (.wait w) => waitHead (setHead s t c) t w
      | .ok (s1, w, l) =>
        let c1 := { c with sent := true, held := false, view := w }
        let v := c1.body.toNat
        let m : FabricMsg :=
          { ftag := c1.ftag, gen := c1.gen, rank := c1.own, round := c1.round, op := BitVec.ofNat 3 (opOf v),
            rop := BitVec.ofNat 1 (bits v 185 185), peer := BitVec.ofNat 12 (bits v 235 224), count := countC c1, leaves := l,
            eloc := elocOf l, data := bits v 186 186 == 0, bind := none }
        let s2 := setHead s1 t c1
        if lost then s2 else tryAgree (updRound s2 c1.ftag c1.gen c1.round fun r => r.take s.psc m) t

/-- The wait semaphore's threshold is met. -/
def waitMet (s : State) (t : Core) (st : Strand) (c : XCmd) : Bool :=
  let f := cmdField c.body
  f 200 200 = 0 || decide ((semValue s t st (f 211 211 == 1) (f 210 201)).toNat ≥ f 383 352)

/-- The number of a round (log 14): pairs and collectives of one handle and generation are numbered apart. -/
def roundKey (c : XCmd) : Nat :=
  let op := opOf c.body.toNat
  if op = 4 ∨ op = 5 then
    match membersOf c with
    | [a, b] => 2 ^ 24 + a * 4096 + b
    | _ => 0
  else 0

def nextRound (s : State) (st : Strand) (c : XCmd) : State × Nat :=
  let key := roundKey c
  let hit := fun (x : BitVec 16 × Word × Nat × Nat) => x.1 == c.handle && x.2.1 == c.gen && x.2.2.1 == key
  let k := match (s.job? st.job).bind fun j => j.xrounds.find? hit with
    | some x => x.2.2.2
    | none => 0
  (s.updJob st.job fun j => { j with xrounds := (c.handle, c.gen, key, k + 1) :: j.xrounds.filter fun x => !hit x },
    k * 2 ^ 25 + key)

/-- The head command of a strand, on a die that may complete a release in this tick, its own release covering no held write (R309,
R312). -/
def freeHead (s : State) (t : Core) : Option (Strand × XCmd) :=
  match headCmd s t with
  | some (st, c) => if s.unraised (dieOf t) && !waitsHeld s t st c then some (st, c) else none
  | none => none

/-- The command at the head starts (R332, R338, R340). DESIGN CHOICE (log 75): R341 says only that the peer of a transfer differs from the
issuer's own rank; one that does not, or that is at or beyond n, ends it MISMATCH here, as R331 has it for SEND. -/
def execCommandStart (tile : Core) (s : State) : Out :=
  match freeHead s tile with
  | none => notDue s
  | some (st, c) =>
    if c.active then notDue s
    else
      match pline true s tile st c.part c.view (c.handle.setWidth 64) with
      | .error (.wait w) => .next (waitHead s tile w)
      | .error (.fault f) => .next (asyncFault s tile f)
      | .ok (s0, v, p) =>
        let c1 := { c with active := true, held := false, ticks := 0, gen := p.gen, own := p.own, ftag := p.ftag, view := v
                           mask := if c.kind = 3 then c.mask else p.mask
                           tmo := if c.kind = 0 then cmdField c.body 351 320 else if c.kind = 3 then p.btmo else cmdField c.body 383 352 }
        if c.kind = 3 then
          if s.card.ports == 0 then .next (setHead s0 tile c1)
          else if !s.chainFree (dieOf tile) then notDue s
          else
            let m : FabricMsg := { ftag := p.ftag, gen := p.gen, rank := p.own, round := bindRoundNo, op := 0, rop := 0, peer := 0,
                                   count := 0, leaves := [], eloc := none, data := true, bind := some c.mask }
            .next (updRound (setHead s0 tile c1) p.ftag p.gen bindRoundNo fun r => r.take s.psc m)
        else if st.dead.contains (c.handle, p.gen) then .next (finishCmd s0 tile c 4)
        else if c.kind != 0 then
          let peer := bits c.body.toNat 287 276
          if peer ≥ sizeOf' c1 ∨ peer = boundRank p.mask p.own then .next (finishCmd s0 tile c 6)
          else .next (setHead s0 tile c1)
        else
          let (s1, k) := nextRound s0 st c1
          let f := cmdField c.body
          let sv := semView s1 tile st (f 211 211 == 1) (f 210 201)
          let now := f 200 200 == 1 && waitMet s1 tile st c1
          let c2 := { c1 with round := k, met := (if now then some (s.psc, sv) else none) }
          let s2 := setHead s1 tile c2
          let met := findRound s2 c2.ftag c2.gen k
          if met.any (·.aborted) then .next (finishCmd s2 tile c2 5)
          else if met.any (·.mismatched) then .next (finishCmd s2 tile c2 6)
          else if cmdField c.body 200 200 = 0 then .next (beginCmd s2 tile)
          else .next s2

/-- The wait semaphore of the head command meets its threshold, and the command acquires (R301, R332); or what has held the command's
reads or its message no longer does. -/
def execCommandWaitSatisfied (tile : Core) (s : State) : Out :=
  match freeHead s tile with
  | none => notDue s
  | some (st, c) =>
    if c.kind != 0 || !c.active || c.sent || c.cut.isSome || !(c.waited || c.met.isSome || waitMet s tile st c) then notDue s
    else
      let f := cmdField c.body
      let got := match c.met with
        | some x => x.2
        | none => semView s tile st (f 211 211 == 1) (f 210 201)
      let c1 := if c.waited || f 200 200 == 0 then c else { c with view := c.view.join got }
      let s1 := beginCmd (setHead s tile c1) tile
      if c.waited && (match headCmd s1 tile with | some (_, c2) => c2 == c | none => false) then notDue s
      else .next s1

/-- What the fabric brings (R334), outside major slots (R343), through a port in service, by a route that no extension holds (R22, R423,
R458): kept for its round; a maximum may complete an agreement. What comes by a port out of service is lost (R458). -/
def execContribution (msg : FabricMsg) (s : State) : Out :=
  let k := if msg.bind.isSome then bindRoundNo else msg.round
  let heads := allCoreIds.filter fun t => match headCmd s t with
    | some (_, c) => c.active && (c.kind == 0 || c.kind == 3) && c.ftag == msg.ftag && c.gen == msg.gen
        && (if c.kind == 3 then bindRoundNo else c.round) == k
    | none => false
  if (s.slotNow && s.majorSlot) || !s.portFree msg.port.toNat || !heads.all fun t => s.portTo msg.port.toNat (dieOf t) then notDue s
  else .next (heads.foldl tryAgree (updRound s msg.ftag msg.gen k fun r => r.take s.psc msg))

/-! The end of a command. -/

/-- Two members' commands agree (R331): counts, and op, reduction and root; SEND meets RECV. -/
def sameRound (c : XCmd) (m : FabricMsg) : Bool :=
  let v := c.body.toNat
  let op := opOf v
  m.rank == c.own ||
    (m.count == countC c &&
      (if op = 4 then m.op == 5 else if op = 5 then m.op == 4
       else m.op.toNat == op && m.rop.toNat == bits v 185 185 && (op != 3 || m.peer.toNat == bits v 235 224)))

/-- Every contribution that the command needs is there (R332). -/
def readyCmd (s : State) (c : XCmd) : Bool :=
  c.kind == 0 && c.sent && (bits c.body.toNat 186 186 == 0 || c.agreed) && (noTraffic c || (gathered s c true).isSome)

/-- Destination elements gathered where they are contiguous within a granule (R258). -/
def destRuns : List DestElem → List (List DestElem)
  | [] => []
  | x :: rest =>
    match destRuns rest with
    | (y :: ys) :: more => if x.addr + x.bytes.length = y.addr ∧ x.addr / 32 = y.addr / 32 then (x :: y :: ys) :: more else [x] :: (y :: ys) :: more
    | more => [x] :: more

/-- Elements of a run written, then stamped and counted. -/
def putRun (t : Core) (st : Strand) (c : XCmd) (r : Option (RecV × List Nat)) (xs : List DestElem) (s : State) : Partway State := do
  let k := xs.head?.map fun x => (x.k, x.addr)
  let bs := xs.flatMap fun x => x.bytes
  let (n, a) := k.getD (0, 0)
  let s1 ← Halt.at s (exchangeWrite s t st c n a (bs.map Prod.fst) (bs.any Prod.snd))
  xs.foldlM (fun s x => stampDest t st r x s) s1

/-- The destination written in traversal order, quantised, stamped and counted under the output version (R332): where a run of elements
meets a fault, what the elements before it have done stands (R452). -/
def writeResult (s : State) (t : Core) (st : Strand) (c : XCmd) (y : List (Word × Bool)) : Partway State := do
  let (s1, r, xs) ← Halt.at s (destElems s t st c (y.map some))
  (destRuns xs).foldlM (fun (s : State) (run : List DestElem) =>
    match putRun t st c r run s with
    | .ok s2 => .ok s2
    | .error _ => run.foldlM (fun s x => putRun t st c r [x] s) s) s1

/-- A command completes (R332, R342): the contributions meet, the result is written, the status recorded; a slot or an extension may hold
its writes or the round's traffic (R343). -/
def execCommandFinish (tile : Core) (inSwitch : Bool) (s0 : State) : Out :=
  let s := tryAgree s0 tile
  match freeHead s tile with
  | none => notDue s0
  | some (st, c) =>
    if !readyCmd s c || (!noTraffic c && !s.chainFree (dieOf tile)) then notDue s0
    else
      let own := (findRound s c.ftag c.gen c.round).bind fun r => r.msgs.find? fun m => m.rank == c.own
      let ms := if noTraffic c then own.toList else (gathered s c true).getD []
      if !noTraffic c && !(ms.all (sameRound c)) then .next (finishCmd s tile c 6)
      else
        let y := if countC c = 0 then [] else resultOf c (ms.map (·.leaves))
        match writeResult s tile st c y with
        | .error (.fault f, s1) => .next (asyncFault s1 tile f)
        | .error (.wait w, _) => .next (waitHead s tile w)
        | .ok s1 =>
          let s2 := if noTraffic c || decide (opOf c.body.toNat > 1) then s1 else s1.updStrand tile (·.count (if inSwitch then 14 else 15) 1)
          if waitsHeld s2 tile st c then notDue s0 else .next (finishCmd s2 tile c 2)

/-- The timeout of a command has expired before every contribution was there (R338, R345). -/
def execCommandTimeout (tile : Core) (s : State) : Out :=
  match freeHead s tile with
  | none => notDue s
  | some (_, c) => if c.kind != 3 && c.active && c.cut.isSome && !readyCmd s c then .next (finishCmd s tile c 3) else notDue s

/-- The heads that run a round. -/
def roundHeads (s : State) (ftag gen : Word) (round : Nat) : List (Core × XCmd) :=
  allCoreIds.filterMap fun t => match headCmd s t with
    | some (_, c) =>
      let k := if c.kind = 3 then bindRoundNo else c.round
      if (c.kind == 0 || c.kind == 3) && c.active && c.cut.isNone && c.ftag == ftag && c.gen == gen && k == round then some (t, c) else none
    | none => none

/-- A notice of the fabric for a round, outside major slots (R343): commands that run it end with `code`; else it is kept for one still
QUEUED (R345). -/
def roundNotice (ftag gen : Word) (round : Nat) (code : BitVec 4) (note : Round → Round) (s : State) : Out :=
  let hs := roundHeads s ftag gen round
  let stays := fun (x : Core × XCmd) => !s.unraised (dieOf x.1) || !s.chainFree (dieOf x.1)
    || match s.strand x.1 with | some st => waitsHeld s x.1 st x.2 | none => false
  if (s.slotNow && s.majorSlot) || s.card.ports == 0 || hs.any stays then notDue s
  else if hs.isEmpty then .next (updRound s ftag gen round note)
  else .next (hs.foldl (fun s x => finishCmd s x.1 x.2 code) s)

/-- An abort of a round arrives (R338). -/
def execPeerAbort (ftag gen : Word) (round : Nat) (s : State) : Out :=
  roundNotice ftag gen round 5 (fun r => { r with aborted := true }) s

/-- A mismatch notice arrives (R331), or word that the masks of a rebinding differ (R340). -/
def execMismatchNotice (ftag gen : Word) (round : Nat) (s : State) : Out :=
  roundNotice ftag gen round 6 (fun r => { r with mismatched := true }) s

/-- A switch reports that it has discarded a contribution of the strand, to a round or a rebinding that it runs or has ended (R327). -/
def execSwitchDiscard (tile : Core) (s : State) : Out :=
  let contributed := match s.strand tile with
    | some st => !st.dead54 && (!st.statuses.isEmpty || st.cmds.any fun c => c.active && (c.sent || c.kind != 0))
    | none => false
  if contributed && s.chainFree (dieOf tile) then .next (asyncFault s tile .xMembership) else notDue s

/-! Rebinding (R340). -/

/-- What a rebinding comes to for a rank that takes part in it: the masks that have come in time are those of every rank that one of them
names, this rank among them, and they agree or they differ; none while no mask is complete (R340). A rank whose own mask names one that
never comes finds it so too, since its mask differs at every rank of the round (R487). -/
def bindOutcome (s : State) (c : XCmd) : Option Bool :=
  match findRound s c.ftag c.gen bindRoundNo with
  | none => none
  | some r =>
    let ms := (r.within c.cut).filterMap fun m => m.bind.map fun b => (m.rank, b)
    let whole := fun (b : BitVec 4096) => (ranksOf b).all fun q => ms.any fun m => m.1 == q
    let same := fun (b : BitVec 4096) => ms.all fun m => !b.getLsbD m.1 || m.2 == b
    if whole c.mask then some (same c.mask)
    else if ms.any fun m => m.2.getLsbD c.own && whole m.2 then some false
    else none

/-- The entry given its new generation, count and binding (R326, R340); what is written before a fault stands (R452). -/
def rebind (s : State) (t : Core) (st : Strand) (c : XCmd) : Partway State := do
  let j ← Halt.at s (jobOf s st)
  let (s0, _, p) ← Halt.at s (pline true s t st c.part c.view (c.handle.setWidth 64))
  let e := j.pcbase + 64 * c.handle.toNat
  let put := fun (s : State) (a : Nat) (bs : List Byte) => Halt.at s (partWrite s t st c.part a bs false none)
  let s1 ← put s0 (e + 40) (bytesOfNat 4 (p.gen + 1).toNat)
  let s2 ← put s1 (e + 36) (bytesOfNat 2 (ranksOf c.mask).length)
  (pieces 64 10 p.cur (bytesOfNat 512 c.mask.toNat)).foldlM (fun s x => put s x.1 x.2) s2

/-- The XBINDs of one round that this package's strands run, the one of `tile` first. -/
def bindHeads (s : State) (tile : Core) (c : XCmd) : List (Core × Strand × XCmd) :=
  (tile :: allCoreIds.filter fun t => t != tile).filterMap fun t => match headCmd s t with
    | some (q, k) => if k.kind == 3 && k.active && k.ftag == c.ftag && k.gen == c.gen then some (t, q, k) else none
    | none => none

/-- A rebinding comes to its outcome, for every strand of the package that takes part in it. -/
def execBindRound (tile : Core) (s : State) : Out :=
  match headCmd s tile with
  | none => notDue s
  | some (_, c) =>
    if c.kind != 3 || !c.active || !s.chainFree (dieOf tile) then notDue s
    else
      match bindOutcome s c with
      | none => notDue s
      | some same =>
        let hs := (bindHeads s tile c).filter fun x => bindOutcome s x.2.2 == some same
        let r := hs.foldl (fun (r : State × Option Wait) x =>
          if !same then (finishCmd r.1 x.1 x.2.2 6, r.2)
          else match rebind r.1 x.1 x.2.1 x.2.2 with
            | .error (.fault f, s1) => (asyncFault s1 x.1 f, r.2)
            | .error (.wait w, _) => (r.1, some w)
            | .ok s1 => (finishCmd s1 x.1 x.2.2 2, r.2)) (s, none)
        match r.2 with
        | some w => .next (waitHead s tile w)
        | none => .next (updRound r.1 c.ftag c.gen bindRoundNo fun q =>
            { q with msgs := q.msgs.filter fun m => !((ranksOf c.mask).contains m.rank || hs.any fun x => x.2.2.own == m.rank) })

def execBindTimeout (tile : Core) (s : State) : Out :=
  match headCmd s tile with
  | none => notDue s
  | some (_, c) => if c.kind == 3 && c.active && c.cut.isSome && (bindOutcome s c).isNone then .next (finishCmd s tile c 3) else notDue s

/-! One-sided transfers (R341): the peer's part is the outside world's. -/

/-- Bytes of a transfer, a piece at a time within one granule. -/
def transferPieces {α : Type} (a : Nat) (bs : List α) : List (Nat × List α) := pieces 32 (bs.length / 32 + 2) a bs

/-- Bytes from the peer written at this package. -/
def getBytes (t : Core) (st : Strand) (c : XCmd) (a : Nat) (bs : List (Byte × Bool)) (s : State) : Partway State :=
  (transferPieces a bs).foldlM (fun s p =>
    Halt.at s (exchangeWrite s t st c (p.1 - a) p.1 (p.2.map Prod.fst) (p.2.any Prod.snd))) s

/-- The bytes of a local source read for the peer. -/
def sourceBytes (s : State) (t : Core) (st : Strand) (c : XCmd) (a n : Nat) : Except Halt (State × View) :=
  (transferPieces a (List.replicate n ())).foldlM (fun (r : State × View) p => do
    let (s1, v, _) ← partRead r.1 t st c.part r.2 p.1 p.2.length
    .ok (s1, v)) (s, c.view)

def execRemoteTransfer (tile : Core) (bytes : List (Byte × Bool)) (ok tracked : Bool) (s : State) : Out :=
  match freeHead s tile with
  | none => notDue s
  | some (st, c) =>
    let v := c.body.toNat
    let len := bits v 343 304
    let a := bits v 439 384
    if !c.active || c.cut.isSome || !s.chainFree (dieOf tile) then notDue s
    else if c.kind = 1 then
      if !bytes.isEmpty then notDue s
      else
        match sourceBytes s tile st c a len with
        | .error (.fault f) => .next (asyncFault s tile f)
        | .error (.wait w) => .next (waitHead s tile w)
        | .ok (s1, w) =>
          if st.det && tracked then .next (asyncFault s1 tile .detIllegal)
          else .next (finishCmd s1 tile { c with view := w } (if ok then 2 else 7))
    else if c.kind = 2 then
      if (ok && bytes.length != len) || decide (bytes.length > len) then notDue s
      else
        match getBytes tile st c a bytes s with
        | .error (.fault f, s1) => .next (asyncFault s1 tile f)
        | .error (.wait w, _) => .next (waitHead s tile w)
        | .ok s1 => if waitsHeld s1 tile st c then notDue s else .next (finishCmd s1 tile c (if ok then 2 else 7))
    else notDue s

/-- One piece of a transfer that another package asks of this one (R341): translated in the job's space, written or read at its home;
none where a page or a permission is missing, and what came before it stands. -/
def peerPiece (s : State) (j : Job) (write : Bool) (p : Nat × List (Byte × Bool)) : Option State :=
  let d := s.leaderDie
  match translate s none d j p.1 (if write then .write else .read) with
  | .error _ => none
  | .ok l =>
    if !write then some (s.touch l false)
    else if j.det && l.dm == 1 then none
    else some (s.writeNow (dieAgent d) l (p.2.map Prod.fst) (p.2.any Prod.snd) none j.phase)

/-- Another package's XPUT of bytes to an address of a job, or its XGET of as many bytes from there (R341): the fabric's part and the
status are the issuer's. In a deterministic job an XPUT writes no tracked page. A slot or an extension holds it (R247, R343, R423). -/
def peerTransfer (job : Word) (write : Bool) (va : Nat) (bs : List (Byte × Bool)) (s : State) : State :=
  match s.job? job with
  | none => s
  | some j =>
    if !s.chainFree s.leaderDie || !s.agentReady s.leaderDie || !s.unheld none s.leaderDie j va bs.length then s
    else ((transferPieces va bs).foldl (fun (r : State × Bool) p =>
      if r.2 then r else match peerPiece r.1 j write p with | some s1 => (s1, false) | none => (r.1, true)) (s, false)).1

end Sys2Proof.Machine
end

