-- ==== Sys2Proof/Machine/Flow.lean ====
section
/-! DEFINITION. Strand-wide words (R36 to R40, R171 to R179, R399 to R402), engine-local repetition (R41), and words that no
opcode map defines (R92). -/

namespace Sys2Proof.Machine

/-- The engine in hand goes to a text index (R33). -/
def goTo (s : State) (t : Core) (e : Eng) (pc : Nat) : State :=
  s.updStrand t fun st => st.updEng e fun g => g.goto pc

/-- The target of a signed word offset, inside the text (R74). -/
def targetOf (st : Strand) (i : Nat) (off : Int) : Except Halt Nat :=
  let x := (i : Int) + off
  if x < 0 || x ≥ st.textLen then raise .illegal else .ok x.toNat

/-! Branches (R171). -/

def brOp (off : BitVec 24) (s : State) (t : Core) (st : Strand) (e : Eng) : Except Halt State := do
  let x ← targetOf st (st.eng e).pc off.toInt
  .ok (goTo s t e x)
def execBr (o : BitVec 24) (s : State) : Out := flowWord (brOp o) s

/-- The head of an engine's branch-outcome queue (R38). -/
def outcome (st : Strand) (e : Eng) : Except Halt Word :=
  match (st.eng e).outcomes with
  | [] => await .outcomeEmpty
  | v :: _ => .ok v

def popOutcome (s : State) (t : Core) (e : Eng) : State :=
  s.updStrand t fun st => st.updEng e fun g => { g with outcomes := g.outcomes.drop 1 }

def brqOp (off : BitVec 24) (s : State) (t : Core) (st : Strand) (e : Eng) : Except Halt State := do
  let x ← targetOf st (st.eng e).pc off.toInt
  let v ← outcome st e
  .ok (goTo (popOutcome s t e) t e (if v != 0 then x else (st.eng e).pc + 1))
def execBrq (o : BitVec 24) (s : State) : Out := flowWord (brqOp o) s

/-! The return stack (R40). -/

/-- The 16 bytes of a frame in scratchpad. -/
def Frame.bytes (f : Frame) : List Byte :=
  bytesOfNat 16 (f.count.toNat * 2 ^ 64 + (if f.loop then 2 else 1) * 2 ^ 62 + f.index.toNat)

/-- The frame of 16 bytes; a kind that is never written, a non-zero `z` (R8), or a call frame's count, which is then a `z` field
(R9), has none. -/
def Frame.ofBytes (b : List Byte) : Option Frame :=
  let v := natOfBytes b
  if bits v 61 32 != 0 then none
  else
    match bits v 63 62 with
    | 1 => if v / 2 ^ 64 = 0 then some ⟨false, 0, BitVec.ofNat 32 v⟩ else none
    | 2 => some ⟨true, BitVec.ofNat 64 (v / 2 ^ 64), BitVec.ofNat 32 v⟩
    | _ => none

/-- A frame pushed, the oldest on chip spilled past depth 16 (R40). -/
def pushFrame (s : State) (t : Core) (st : Strand) (e : Eng) (f : Frame) : Except Halt State :=
  let g := st.eng e
  let d := g.depth.toNat + 1
  if d ≤ 16 then
    .ok (s.updStrand t fun q => q.updEng e fun g => { g with frames := f :: g.frames, depth := g.depth + 1 })
  else
    let a := g.sbase.toNat + 16 * (d - 17)
    if a + 16 > g.slim.toNat then raise .stackLimit
    else
      let old := (g.frames.getLast?.getD default).bytes
      .ok ((s.spadWrite (st.agent t e.part) {} a old false).updStrand t fun q =>
        q.updEng e fun g => { g with frames := f :: g.frames.dropLast, depth := g.depth + 1 })

/-- The top frame popped, the frame at depth d − 16 filled back (R40). DESIGN CHOICE (log 50): R40 lists no fault for a filled
frame of a kind that is never written or with a non-zero `z`; the popping word raises ILLEGAL. -/
def popFrame (s : State) (t : Core) (st : Strand) (e : Eng) : Except Halt State :=
  let g := st.eng e
  let d := g.depth.toNat
  if d ≤ 16 then
    .ok (s.updStrand t fun q => q.updEng e fun g => { g with frames := g.frames.drop 1, depth := g.depth - 1 })
  else
    let a := g.sbase.toNat + 16 * (d - 17)
    let (s1, lo, p) := spadRead s t e a 8
    let (s2, hi, q) := spadRead s1 t e (a + 8) 8
    if p || q then raise .poisonSync
    else
      match Frame.ofBytes (lo ++ hi) with
      | none => raise .illegal
      | some f =>
        .ok (s2.updStrand t fun q => q.updEng e fun g => { g with frames := g.frames.drop 1 ++ [f], depth := g.depth - 1 })

def callOp (off : BitVec 24) (s : State) (t : Core) (st : Strand) (e : Eng) : Except Halt State := do
  let i := (st.eng e).pc
  let x ← targetOf st i off.toInt
  let s' ← pushFrame s t st e ⟨false, 0, BitVec.ofNat 32 (i + 1)⟩
  .ok (goTo s' t e x)
def execCall (o : BitVec 24) (s : State) : Out := flowWord (callOp o) s

def retOp (s : State) (t : Core) (st : Strand) (e : Eng) : Except Halt State :=
  match (st.eng e).frames with
  | [] => raise .stackLimit
  | f :: _ =>
    if f.loop then raise .illegal
    else do
      let x ← targetOf st f.index.toNat 0
      let s' ← popFrame s t st e
      .ok (goTo s' t e x)
def execRet (s : State) : Out := flowWord retOp s

/-- R99: the word at index + m is an ENDL inside the text, and m is not 0. -/
def endlAt (s : State) (t : Core) (st : Strand) (e : Eng) (m : Nat) : Except Halt State := do
  let g := st.eng e
  if m = 0 || g.pc + m ≥ st.textLen then raise .illegal
  else
    let (s1, w) ← aheadWord s t st e g.pos (g.pc + m)
    need (w == 0xA7000000) .illegal
    .ok s1

/-- The checks of LOOP and LOOPQ when the word is reached, before any pop: the ENDL (R99) and the target of a trip count of 0 (R74,
R173); the answer is that target. -/
def loopChecks (m : Nat) (s : State) (t : Core) (st : Strand) (e : Eng) : Except Halt (State × Nat) := do
  let s1 ← endlAt s t st e m
  let x ← targetOf st (st.eng e).pc (m + 1)
  .ok (s1, x)

/-- LOOP and LOOPQ once their trip count is known (R173); `past` is the index after the ENDL. -/
def loopOp (k past : Nat) (s : State) (t : Core) (st : Strand) (e : Eng) : Except Halt State := do
  let i := (st.eng e).pc
  if k = 0 then .ok (goTo s t e past)
  else
    let s' ← pushFrame s t st e ⟨true, BitVec.ofNat 64 (k - 1), BitVec.ofNat 32 (i + 1)⟩
    .ok (goTo s' t e (i + 1))
def execLoop (k m : BitVec 12) (s : State) : Out :=
  flowWord (fun s t st e => do
    let (s1, past) ← loopChecks m.toNat s t st e
    loopOp k.toNat past s1 t st e) s
def execLoopq (m : BitVec 24) (s : State) : Out :=
  flowWord (fun s t st e => do
    let (s1, past) ← loopChecks m.toNat s t st e
    let v ← outcome st e
    let s2 ← loopOp v.toNat past s1 t st e
    .ok (popOutcome s2 t e)) s

def endlOp (s : State) (t : Core) (st : Strand) (e : Eng) : Except Halt State :=
  match (st.eng e).frames with
  | [] => raise .stackLimit
  | f :: rest =>
    if !f.loop then raise .illegal
    else if f.count != 0 then do
      let x ← targetOf st f.index.toNat 0
      let s' := s.updStrand t fun q => q.updEng e fun g => { g with frames := { f with count := f.count - 1 } :: rest }
      .ok (goTo s' t e x)
    else do
      let s' ← popFrame s t st e
      .ok (goTo s' t e ((st.eng e).pc + 1))
def execEndl (s : State) : Out := flowWord endlOp s

/-! Safe points (R175, R399 to R402). -/

/-- A safe-point table entry (R400). -/
structure SafeEntry where
  xm : Nat
  vm : Nat
  am : Nat
  stub : Nat
  accm : Nat
  pd : Nat
  g : Bool
  raw : Nat
deriving DecidableEq, Repr

/-- First byte of the safe-point table (R399). -/
def tableBase (st : Strand) : Nat := (st.textBase + 4 * st.textLen + 15) / 16 * 16

/-- The entry a SAFE or SAFE.G names, with the checks of R401. -/
def safeEntry (s : State) (t : Core) (st : Strand) (e : Eng) (n : Nat) : Except Halt (State × SafeEntry) := do
  let base := tableBase st
  let pos := (st.eng e).pos
  let (s1, hd) ← tableWord s t st e pos 0 base
  let ne := hd % 2 ^ 17
  if hd / 2 ^ 17 != 0 || ne > 65536 || n ≥ ne then raise .illegal
  else
    let (s2, v) ← tableWord s1 t st e pos 1 (base + 16 + 16 * n)
    let en : SafeEntry :=
      { xm := bits v 127 96, vm := bits v 95 80, am := bits v 79 64, stub := bits v 63 32,
        accm := bits v 31 28, pd := bits v 27 24, g := bits v 23 23 == 1, raw := v }
    if bits v 22 0 != 0 || en.xm % 2 == 1 || en.pd > 8 || (en.stub != 0xFFFFFFFF && decide (en.stub ≥ st.textLen)) then
      raise .illegal
    else .ok (s2, en)

/-- Whether the engine holds at this word (R402, R405). -/
def holdsHere (st : Strand) (e : Eng) (gangWord : Bool) : Bool :=
  match st.stop with
  | none => false
  | some r =>
    let g := st.eng e
    decide (g.steps.toNat ≥ r.c.toNat) && decide (g.depth.toNat ≤ 16) &&
      (!st.gang || (gangWord && decide (g.gsafes + 1 ≥ r.atLeast)))

/-- `spdist` and the gang sequence count once the slowest engine has passed (R63, R175, R405). -/
def Strand.passedSafe (old new : Strand) : Strand :=
  let least := fun (st : Strand) (f : Engine → Nat) => (Eng.all.map fun e => f (st.eng e)).foldl min (f st.c)
  let st := if least new (·.safes) > least old (·.safes) then { new with spdist := 0 } else new
  { st with gangCount := BitVec.ofNat 32 (least new (·.gsafes)) }

def safeOp (n : BitVec 16) (gangWord : Bool) (s : State) (t : Core) (st : Strand) (e : Eng) : Except Halt State := do
  if st.rebuild.isSome then raise .illegal
  else
    let (s1, en) ← safeEntry s t st e n.toNat
    let st := (s1.strand t).getD st
    if en.g != gangWord then raise .illegal
    else if holdsHere st e gangWord then
      let held := st.updEng e fun g => { g with holding := true, wait := none }
      let noted := held.stop.map fun (r : Stop) => { r with entry := (n.toNat, en.raw) }
      let q := { held with stop := noted }
      .ok (s1.setStrand t (if q.stopped then { q with spdist := 0 } else q))
    else
      let st' := st.updEng e fun g =>
        { g.goto (g.pc + 1) with safes := g.safes + 1, gsafes := if gangWord then g.gsafes + 1 else g.gsafes }
      .ok (s1.setStrand t (st.passedSafe st'))
def execSafe (i : BitVec 16) (s : State) : Out := flowWord (safeOp i false) s
def execSafeG (i : BitVec 16) (s : State) : Out := flowWord (safeOp i true) s

/-- Every data queue and branch-outcome queue is empty (R403, R412). -/
def Strand.queuesEmpty (st : Strand) : Bool :=
  st.c2a.isEmpty && st.c2v.isEmpty && st.c2m.isEmpty && st.c2x.isEmpty && st.a2c.isEmpty && st.v2c.isEmpty
    && st.x2c.isEmpty && st.a2v.isEmpty && st.v2a.isEmpty && st.m2v.isEmpty
    && Eng.all.all (fun e => (st.eng e).outcomes.isEmpty)

/-- RESUME (R179, R412): a barrier; the last engine to arrive makes the checks for the strand. -/
def resumeOp (s : State) (t : Core) (st : Strand) (e : Eng) : Except Halt State :=
  match st.rebuild with
  | none => raise .illegal
  | some r =>
    if !(Eng.all.all fun k => k == e || (st.eng k).wait == some .resume) then await .resume
    else if (st.eng e).depth != r.depth || st.pred.length != r.pd || !st.queuesEmpty then raise .illegal
    else
      let st' := { (st.allEngs fun g => g.goto r.back) with rebuild := none, spdist := 0 }
      .ok (s.setStrand t ((Eng.all.filter (· != e)).foldl (fun q k => q.count (engCounter k) 1) st'))
def execResume (s : State) : Out := flowWord resumeOp s

/-! FENCE, NOP, END (R176 to R178). -/

def fenceOp (k sc : BitVec 2) (s : State) (t : Core) (st : Strand) (e : Eng) : Except Halt State := do
  let scope := Scope.ofBits sc
  let pc := (st.eng e).pc + 1
  match k.toNat with
  | 1 => .ok (goTo (← fenceRelease s t e scope) t e pc)
  | 2 => .ok (goTo (fenceAcquire s t e scope) t e pc)
  | 3 => .ok (goTo (fenceAcquire (← fenceRelease s t e scope) t e scope) t e pc)
  | _ => raise .illegal
def execFence (k sc : BitVec 2) (s : State) : Out := flowWord (fenceOp k sc) s

def execNop (s : State) : Out := flowWord (fun s t st e => .ok (goTo s t e ((st.eng e).pc + 1))) s

/-- Entries left in the queues an engine consumes are discarded and counted (R39, R319), and the predicate stack with the vector
engine's END (R195). -/
def Strand.discard (st : Strand) (e : Eng) : Strand :=
  let n := (st.eng e).outcomes.length + match e with
    | .c => st.a2c.length + st.v2c.length + st.x2c.length
    | .a => st.c2a.length + st.v2a.length
    | .v => st.c2v.length + st.a2v.length + st.m2v.length
    | .m => st.c2m.length
    | .x => st.c2x.length
  let st1 := st.count 13 n
  match e with
  | .c => { st1 with a2c := [], v2c := [], x2c := [] }
  | .a => { st1 with c2a := [], v2a := [] }
  | .v => { st1 with c2v := [], a2v := [], m2v := [], pred := [] }
  | .m => { st1 with c2m := [] }
  | .x => { st1 with c2x := [] }

def endOp (s : State) (t : Core) (st : Strand) (e : Eng) : Except Halt State :=
  if st.rebuild.isSome then raise .illegal
  else .ok (s.setStrand t ((st.discard e).updEng e fun g =>
    { g.goto (g.pc + 1) with ended := true, frames := [], depth := 0, outcomes := [] }))
def execEndW (s : State) : Out := flowWord endOp s

/-! REP (R41, R97). -/

/-- REP opens its body span (R41); a repeat count of 0 leaves `left` 0, and the engine steps over its own words. DESIGN CHOICE (log 72):
where R41 gives no place, ILLEGAL for an S word, an own REP or the end of the text inside the span is raised where the engine reaches
it. -/
def repOp (n : Nat) (k : BitVec 16) (s : State) (t : Core) (e : Eng) : State :=
  s.updStrand t fun st => st.updEng e fun g => { g.pass 1 with rep := some { first := g.pc + 1, n, left := k.toNat } }

def execRep (e : Eng) (n : BitVec 6) (k : BitVec 16) (s : State) : Out :=
  placedWord e e.tag (fun s t st e =>
    if (st.eng e).rep.isSome then raise .illegal else .ok (repOp (n.toNat + 1) k s t e)) s

/-! Undefined words (R92, R93). -/

/-- A word that no opcode map defines, whatever its immediate word is (R92): a reserved tag, or major 31 with a sub14 not listed. -/
def undefinedFirst (w : Word) : Bool := (Fields.ofWord w).tag.toNat ≥ 6 || (isWide w && !wideDefined w)

/-- An engine stands at a word that no opcode map defines: ILLEGAL in the engine of its tag, recorded as detected by the
control engine for a reserved tag (R31) and an S word (R76). -/
def execUndefinedEncoding (tile : Core) (e : Eng) (s : State) : Out :=
  match s.strand tile with
  | none => notDue s
  | some st =>
    let g := st.eng e
    match textWord s tile st e g.pos g.pc with
    | .error _ => notDue s
    | .ok (s1, w) =>
      let tag := (Fields.ofWord w).tag
      let imm := match textWord s1 tile st e (g.pos + 1) (g.pc + 1) with | .ok (_, i) => i | .error _ => 0
      if decide (g.pc < st.textLen) && (tag.toNat ≥ 5 || tag == e.tag) && (undefinedFirst w || (decode w imm).isNone) then
        .next (wordFault s1 tile e (if tag.toNat ≥ 5 then 0 else e.tag) .illegal .atWord)
      else notDue s

end Sys2Proof.Machine
end

