-- ==== Sys2Proof/Machine/Fetch.lean ====
section
/-! DEFINITION. An engine's turn before its word is executed: text fetch (R73 to R78), words of other engines stepped over
(R30, R31, R156, R223), and the placing of a first instruction (log 1). Also the outside world's stores and errors. -/

namespace Sys2Proof.Machine

/-- A turn that is over, or an instruction to execute. -/
inductive Turned where
  | idle (s : State)
  | run (i : Instr) (s : State)

/-- Windows that a window word names (R223, R270), as register numbers. -/
def windowsOf : Instr → List Nat
  | .mma _ a b _ => [a.toNat % 8, b.toNat % 8]
  | .msoft _ _ b => [b.toNat % 8]
  | .mout d _ _ _ => [d.toNat % 8]
  | .awin d _ _ => [d.toNat % 8]
  | .ald d _ _ _ _ _ => if 16 ≤ d.toNat && d.toNat < 24 then [d.toNat % 8] else []
  | .aldS d _ _ _ _ _ => if 16 ≤ d.toNat && d.toNat < 24 then [d.toNat % 8] else []
  | _ => []

/-- Numbers of the positional registers (R153). -/
def positionalReg (imm : Word) : Bool := imm == 1 || imm == 2 || imm == 5

/-- A positional value taken into an engine's own copy (R156). -/
def Engine.setPositional (g : Engine) (reg : Nat) (v : DWord) : Engine :=
  if reg = 1 then { g with sbase := v.setWidth 22 }
  else if reg = 2 then { g with slim := v.setWidth 22 }
  else { g with slotmode := v.setWidth 1 }

/-- The engine steps over a word of another engine, or its own in a REP of count 0 (R31, R41), applying a positional SWR of the
control engine (R156) and noting a window word (R223). DESIGN CHOICE (log 53): a positional SWR inside the control engine's own REP
of two or more passes counts as executed after the last pass, and its last value is the one that the others take. -/
def stepOver (s : State) (t : Core) (st : Strand) (e : Eng) (w imm : Word) : State :=
  let len := wordLen w
  if st.slipStalled e len then setWait s t e .slip
  else
    let owner := (Eng.ofTag (Fields.ofWord w).tag).getD .c
    let pos := (st.eng e).pos
    let plain := s.updStrand t fun q => (q.updEng e fun g => g.pass len (owner == e)).trimLedger
    match decode w imm with
    | some (.swr _ r) =>
      if positionalReg r && owner != e then
        if (st.eng .c).steps.toNat > pos || st.c.ended then
          let v := (st.swrs.filter fun p => p.pos == pos).getLast?
          s.updStrand t fun q => (q.updEng e fun g =>
            (match v with | some p => g.setPositional p.reg p.val | none => g).pass len false).trimLedger
        else setWait s t e .positional
      else plain
    | some i =>
      if owner != e && (owner == .a || owner == .m) && (e == .a || e == .m) && !(windowsOf i).isEmpty then
        let entry : Ledger := ⟨owner, pos, windowsOf i⟩
        s.updStrand t fun q =>
          ({ q with ledger := if q.ledger.contains entry then q.ledger else q.ledger ++ [entry] }.updEng e fun g =>
            g.pass len false).trimLedger
      else plain
    | none => plain

/-- What follows from a word and its immediate word once both are fetched: an undefined word, or an instruction. -/
def turnOf (s : State) (t : Core) (e : Eng) (w imm : Word) : Turned :=
  match decode w imm with
  | some i => .run i s
  | none => .run (.undefinedEncoding t e) s

/-- A fetch that did not answer: it waits, or its fault is recorded as the control engine's (R78). -/
def fetchHalt (s : State) (t : Core) (e : Eng) : Halt → Turned
  | .wait w =>
    let shared := match s.strand t with
      | some st => Eng.all.any fun k => k != e && (st.eng k).pos == (st.eng e).pos
          && match (st.eng k).wait with | some x => x.isHeld | none => false
      | none => false
    .idle (setWaitOn shared s t e w)
  | .fault c => .idle (wordFault s t e 0 c .atWord)

/-- An engine of a strand whose launch has faulted still takes a turn: in the tick of the fault to find one of its own (R56, R460), and at
a request that it waits at, which stands issued (R451, R460). -/
def Strand.stillTurns (st : Strand) (now : DWord) (e : Eng) : Bool :=
  (st.deadAt == now && !st.faults.contains e.part) || match (st.eng e).wait with | some w => w.isHeld | none => false

/-- The engine's word has had effects that stand, and is not done (R415, R421). -/
def Engine.partway (g : Engine) : Bool := decide (g.progress > 0) || g.latch.any fun l => l.moved

/-- A text fetch that was held when the launch faulted is issued, and no engine that waited for it begins its word (R54, R460). -/
def fetchedLate (s : State) (t : Core) (old : Strand) (pos word : Nat) : Option State :=
  if old.dead54 && old.deadAt != s.psc && (lookupNat old.decoded word).isNone
  then some (s.updStrand t fun q => q.allEngs fun g => if g.pos == pos then { g with wait := none } else g) else none

/-- The word of an engine's turn. A strand past its safe distance gives way to that fault, but for a stop that its engines may still
reach in that tick (R413, R416). An S word or an own REP within a repetition is ILLEGAL (R41). -/
def fetchTurn (s : State) (t : Core) (e : Eng) : Turned :=
  match s.strand t with
  | none => .idle s
  | some st =>
    let g := st.eng e
    if g.ended || (!st.dead54 && (st.halted || (st.halting && !g.partway))) || g.holding || (st.dead54 && !st.stillTurns s.psc e) then .idle s
    else if st.overdue s.psc && st.stop.isNone then .run (.safeDistance t) s
    else if g.pc ≥ st.textLen then .idle (wordFault s t e e.tag .illegal .atWord)
    else
      match textWord s t st e g.pos g.pc with
      | .error h => fetchHalt s t e h
      | .ok (s1, w) =>
        match fetchedLate s1 t st g.pos g.pos with
        | some s2 => .idle s2
        | none =>
        let tag := (Fields.ofWord w).tag
        let skip := match g.rep with | some r => r.left == 0 | none => false
        let mine := decide (tag.toNat ≥ 5) || (tag == e.tag && !skip)
        if g.rep.isSome && (tag == 5 || (tag == e.tag && (Fields.ofWord w).maj == 30)) then
          .idle (if st.slipStalled e 1 then setWait s1 t e .slip else wordFault s1 t e e.tag .illegal .atWord)
        else if mine && undefinedFirst w then .run (.undefinedEncoding t e) s1
        else if !isWide w then (if mine then turnOf s1 t e w 0 else .idle (stepOver s1 t st e w 0))
        else if g.pc + 1 ≥ st.textLen then
          if mine then .idle (wordFault s1 t e (if tag == 5 then 0 else e.tag) .illegal .atWord) else .idle (stepOver s1 t st e w 0)
        else
          match textWord s1 t st e (g.pos + 1) (g.pc + 1) with
          | .error h => fetchHalt s1 t e h
          | .ok (s2, imm) =>
            match fetchedLate s2 t st g.pos (g.pos + 1) with
            | some s3 => .idle s3
            | none => if mine then turnOf s2 t e w imm else .idle (stepOver s2 t st e w imm)

/-- What stands of an engine's turn. In the tick in which its launch faulted, or its strand went past its safe distance with a stop
pending, an engine begins no word, but finds a fault (R56, R460) or reaches its stop point (R416). -/
def keepTurn (s s' : State) (t : Core) (e : Eng) : State :=
  match s.strand t, s'.strand t with
  | some st, some q =>
    let late := (st.dead54 && st.deadAt == s.psc) || st.overdue s.psc
    if late && q.faults == st.faults && !(!st.dead54 && (q.eng e).holding) then s else s'
  | _, _ => s'

/-- An engine's turn; `exec` runs its word. -/
def turnBy (exec : Instr → State → Out) (s : State) (t : Core) (e : Eng) : Out :=
  match fetchTurn { s with focusTile := t, focusEng := e } t e with
  | .idle s' => .next (keepTurn s s' t e)
  | .run i s' =>
    match exec i s' with
    | .next u => .next (keepTurn s u t e)
    | o => o

/-! The outside world. -/

/-- System software stores bytes of physical memory; a line it writes is sealed under no slot (log 4). Engines that are not bound
to see the store may still read what it wrote over (R299). -/
def hostStore (s : State) (a : Nat) (bs : List Byte) : State :=
  let run := bs.map fun b => (b, false)
  let u := s.mem.noted (s.plain 0) s.writes s.applied (dieAgent s.leaderDie) VClock.zero {} a run
  let s1 := { s with mem := s.mem.store a bs false, past := if s.tracks then u :: s.past else []
                     writes := s.writes + 1, applied := s.applied + 1
                     seals := s.seals.filter fun x => !(decide (a < 128 * x.1 + 128) && decide (128 * x.1 < a + bs.length)) }
  (pieces 128 (bs.length / 128 + 2) a bs).foldl (fun s p => s.soil (p.1 / 128)) s1

/-- An event record in a die's ring (R456). -/
def logEvent (s : State) (d : Fin 4) (code : BitVec 8) (kind : BitVec 4) (unit : BitVec 16) (detail : Word)
    (tick : DWord) : State :=
  s.updDie d fun k =>
    let r : EventRec := { tick, code, kind, unit, detail }
    if k.events.length < 4096 then { k with events := k.events ++ [r] }
    else { k with events := k.events.drop 1 ++ [r], lost := k.lost + 1 }

/-- Thresholds of R444, by row. -/
def windowThreshold (row : Nat) : Nat :=
  [4096, 8, 4096, 8, 65536, 64, 1048576, 1048576, 1048576, 16].getD row 1

/-- The count of a window source (R444). -/
def windowCount (s : State) (row unit : Nat) : Nat :=
  match s.windows.find? fun x => x.1 == row && x.2.1 == unit with
  | some x => x.2.2
  | none => 0

/-- Tile cores of a launch's team, ascending. -/
def Launch.cores (l : Launch) : List Core := allCoreIds.filter fun t => l.team.getLsbD t.val

/-- The tile core that takes the next strand of a launch: the first from `nextCore` on, cyclically, with room in its queue (R366). -/
def nextDeal (s : State) (l : Launch) : Option Core :=
  let cs := l.cores.filter fun t => decide ((s.core t).queue.length < 64)
  match cs.find? fun t => decide (l.nextCore ≤ t.val) with
  | some t => some t
  | none => cs.head?

/-- A strand dealt to a queue, the next place in the round robin after it (R366). -/
def dealTo (s : State) (t : Core) (h : Nat) (index : BitVec 24) : State :=
  (s.updCore t fun k => { k with queue := k.queue ++ [(h, index)] }).updLaunch h fun l => { l with nextCore := t.val + 1 }

/-- Strands in the queues of fenced tile cores are dealt again as queues have room (R366, R459). -/
def redeal (s : State) : State :=
  (allCoreIds.filter fun t => (s.core t).fenced).foldl (fun s t =>
    let q := (s.core t).queue
    if q.isEmpty then s
    else q.foldl (fun s e =>
      match (s.launch? e.1).bind (nextDeal s) with
      | some c => dealTo s c e.1 e.2
      | none => s.updCore t fun k => { k with queue := k.queue ++ [e] }) (s.updCore t fun k => { k with queue := [] })) s

/-- A launch ends with FAULT and no strand of it faulted (R454): what it has queued and stopped is discarded. -/
def failTeam (s : State) (l : Launch) (detail : Nat) : State :=
  let s1 := s.updLaunch l.handle fun l =>
    { l with faulted := true, dealt := l.count, stopped := []
             record := some { code := 0, core := 0, eng := 5, detail := BitVec.ofNat 20 detail, tick := 0, strand := 0 } }
  let s2 := s1.allCores fun k =>
    { k with queue := k.queue.filter (fun e => e.1 != l.handle), heldFor := if k.heldFor == some l.handle then none else k.heldFor }
  s2.updJob l.job fun j => { j with saveUsed := j.saveUsed.filter fun k => !l.stopped.any fun x => x.slot == k }

/-- Launches with strands to place and none placed that no unfenced tile core of their team is left for, or, of a gang, too few (R45, R47,
R454, R459). DEDUCED (log 74): R459 holds for a gang whose strands are all stopped too, which is to be placed again, and R454 detail 1 for
a launch that loses its team after its dispatch. -/
def teamCheck (s : State) : State :=
  s.launches.foldl (fun s l =>
    let left := decide (l.dealt < l.count) || !l.stopped.isEmpty || allCoreIds.any fun t => (s.core t).queue.any fun e => e.1 == l.handle
    let need := if l.started then l.stopped.length else l.count
    if l.faulted || l.cancelled || !left || !(s.strandsOf l.handle).isEmpty then s
    else if l.gang then (if decide (need > l.cores.length) then failTeam s l 2 else s)
    else if l.cores.isEmpty then failTeam s l 1 else s) s

/-- A fenced tile core leaves every team; its queued strands are dealt again (R366, R459). -/
def fenceCore (s : State) (t : Core) : State :=
  let s1 := s.updCore t fun k => { k with fenced := true, heldFor := none }
  let clear := BitVec.ofNat 192 (2 ^ t.val)
  teamCheck (redeal { s1 with launches := s1.launches.map fun l => { l with team := l.team &&& ~~~clear } })

/-- The place of a unit among a row's counts; a maintenance source is a stack, an edge, a port or the Fepel Link (R444). -/
def windowUnit (row : Nat) (kind : BitVec 4) (u : Nat) : Nat :=
  if row = 9 then (match kind.toNat with | 6 => u | 3 => 12 + u | 4 => 16 + u | _ => 28) else u

/-- A slice declared lasting gives up its lines (R458). -/
def emptySlice (s : State) (u : Nat) : State :=
  (s.sram.filter fun x => sliceUnit (128 * x.line) == u).foldl (fun s x => s.evict x.line) s

/-- One event counted in a window (R444); the source that reaches its threshold is declared lasting (R457, R458). In the tick of a reset
the threshold is that of both windows together, and the reset does not apply to a source declared lasting (R448). -/
def countWindow (s : State) (row : Nat) (kind : BitVec 4) (unit : BitVec 16) : State :=
  let u := windowUnit row kind unit.toNat
  if s.lasting.contains (row, u) then s
  else
    let new := min (windowCount s row u + 1) (2 ^ 32 - 1)
    let old := match s.lastWindow.find? fun x => x.1 == row && x.2.1 == u with | some x => x.2.2 | none => 0
    let n := if new + old ≥ windowThreshold row then min (new + old) (2 ^ 32 - 1) else new
    let s1 := { s with windows := (row, u, n) :: s.windows.filter fun x => !(x.1 == row && x.2.1 == u) }
    if n ≥ windowThreshold row then
      let s2 := logEvent { s1 with lasting := s1.lasting ++ [(row, u)] } s.leaderDie 0x42 kind unit (BitVec.ofNat 32 row) s.psc
      let s3 := signalHost s2 (.event 0x42 kind unit)
      if row ≤ 1 then
        if h : u < 192 then fenceCore s3 ⟨u, h⟩ else s3
      else if row ≤ 3 then emptySlice s3 u
      else s3
    else s1

/-- An uncorrectable error poisons a scratchpad granule (R239, R258, R444). -/
def spadPoisoned (s : State) (t : Core) (g : Nat) : State :=
  countWindow (s.updCore t fun k => { k with spad := k.spad.poisonGranule g }) 1 0 (BitVec.ofNat 16 t.val)

/-- The pseudo-channel of an HBM address, as R456 numbers it (R241). -/
def pseudoChannel (pa : Nat) : Nat := 64 * stackOf pa + pa % Config.dieBytes / 256 / 3 % 64

/-- An uncorrectable error poisons a granule of HBM, found there or in the slice that holds its line (R258, R444): of a line that shared
SRAM holds, only the copy in which it is found. -/
def memPoisoned (s : State) (g : Nat) (inSram : Bool) : State :=
  let line := g / 4
  if inSram then countWindow (s.repoison g true) 3 1 (BitVec.ofNat 16 (sliceUnit (32 * g)))
  else
    let s1 := if (s.resident line).isSome
      then { s with sram := s.sram.map fun x => if x.line == line then { x with below := natInsert x.below g } else x }
      else s.repoison g true
    countWindow s1 5 2 (BitVec.ofNat 16 (pseudoChannel (32 * g)))

/-- The die that holds a unit of R456: a tile core, a slice, a pseudo-channel. -/
def unitDie (kind : BitVec 4) (unit : Nat) : Option (Fin 4) :=
  match kind.toNat with
  | 0 => if h : unit < 192 then some (dieOf ⟨unit, h⟩) else none
  | 1 => if h : unit < 512 then some ⟨unit / 128, by omega⟩ else none
  | 2 => if h : unit < 768 then some ⟨unit / 192, by omega⟩ else none
  | _ => none

/-- A corrected error: an event in the ring of the die that detects it, and a count (R239, R243, R444, R456, R457). -/
def correctedError (s : State) (d : Fin 4) (kind : BitVec 4) (unit : BitVec 16) : State :=
  countWindow (logEvent s d 0x40 kind unit 1 s.psc) (2 * kind.toNat) kind unit

/-! A first instruction (log 1). -/

/-- A strand as it stands at placement (R149, R153, R184, R218, R261, R266, R317, R322). -/
def Strand.placed (l : Launch) (j : Job) (index : BitVec 24) : Strand where
  index := index
  job := l.job
  handle := l.handle
  launch := l.ident
  phase := l.phase
  argbase := l.argbase
  cls := l.cls
  gang := l.gang
  det := j.det
  textBase := l.textBase
  textLen := l.textLen
  c := {}
  a := {}
  v := {}
  m := {}
  x := {}
  regs := Vector.replicate 32 {}
  splim := l.cls.splim
  tiles := Vector.replicate 16 (Vector.replicate 16 { lanes := Vector.replicate 64 0 })
  accs := Vector.replicate 4 (Vector.replicate 128 { vals := Vector.replicate 128 0 })
  wins := Vector.replicate 8 {}
  addrs := Vector.replicate 16 {}
  shapes := Vector.replicate 16 { ext := Vector.replicate 4 1, stride := Vector.replicate 4 0 }
  xregs := Vector.replicate 8 {}
  sems := Vector.replicate 32 0
  slots := l.bindings
  perf := Vector.replicate 17 0

/-- Page table and text of the placed program: tables at 64 KiB steps from 0x10_0000, the text page at 0x20_0000. -/
def demoPte (next : Nat) : Nat := 2 ^ 63 + next

/-- The job of the placed program. -/
def demoJob : Job where
  no := 1
  key := 0
  det := false
  ptroot := 0x100000
  rtbase := 0
  rtsize := 1
  pobase := 0
  pcbase := 0
  pcount := 0
  ctbase := 0
  nc := 1
  spbase := 0
  spcount := 0
  dsb := Vector.replicate 4 0

/-- The launch of the placed program: one strand on tile core 0, its text at virtual address 2^44. -/
def demoLaunch (h : Nat) : Launch where
  handle := h
  job := 1
  queue := 0
  ident := 0
  phase := 0
  textBase := 2 ^ 44
  textLen := 16384
  count := 1
  team := 1
  argbase := BitVec.ofNat 56 (2 ^ 44)
  bindings := Vector.replicate 16 none
  cls := .bulk
  prio := 0
  stealPackage := false
  gang := false
  scope := 2
  counter := 0
  dealt := 1
  started := true

/-- The state in which the very next step fetches and runs the instruction (log 1): a job with one executable page, a
launch, a strand placed on tile core 0 whose words stand in its text cache too, since `psc` 0 lies in a slot that holds text
fetches (R77, R78), and the turn of the engine whose tag the word carries. -/
def placeWord (s : State) (nbits w : Nat) : State :=
  let v := w % 2 ^ nbits
  let w0 := BitVec.ofNat 32 v
  let l := demoLaunch s.fresh
  let e := (Eng.ofTag (Fields.ofWord w0).tag).getD .c
  let mem := ((((((s.mem.setBytes 0x100008 (bytesOfNat 8 (demoPte 0x110000))).setBytes 0x110000
    (bytesOfNat 8 (demoPte 0x120000))).setBytes 0x120000 (bytesOfNat 8 (demoPte 0x130000))).setBytes 0x130000
    (bytesOfNat 8 (demoPte 0x140000))).setBytes 0x140000
    (bytesOfNat 8 (2 ^ 63 + 2 ^ 62 + 0x200000 + 0xE0))).setBytes 0x200000
    (bytesOfWord w0 ++ bytesOfWord (BitVec.ofNat 32 (v / 2 ^ 32))))
  let s1 := { s with mem, jobs := [demoJob], launches := [l], keys := [(0, 0)], fresh := s.fresh + 1,
                     agenda := [{ ticks := 0, move := .engine 0 e }] }
  s1.updCore 0 fun k =>
    { k with strand := some (Strand.placed l demoJob 0), lastJob := some 1
             text := [⟨1, 2 ^ 44, w0⟩, ⟨1, 2 ^ 44 + 4, BitVec.ofNat 32 (v / 2 ^ 32)⟩] }

end Sys2Proof.Machine
end

