-- ==== Sys2Proof/Machine/Turns.lean ====
section
/-! DEFINITION. Ends of waits (R34, R187, R223, R434), text fetches and page walks (R78, R255), completions of copies (R279,
R280), and writes applied at their home (R245, R249 to R252, R309). -/

namespace Sys2Proof.Machine

/-- The meaning of an instruction word in the tile core and engine in focus. -/
def wordMeaning (i : Instr) (s : State) : Out :=
  match i with
  | .add d a b t => execAdd d a b t s
  | .sub d a b t => execSub d a b t s
  | .mul d a b t => execMul d a b t s
  | .mulh d a b t => execMulh d a b t s
  | .div d a b t => execDiv d a b t s
  | .rem d a b t => execRem d a b t s
  | .and d a b t => execAnd d a b t s
  | .or d a b t => execOr d a b t s
  | .xor d a b t => execXor d a b t s
  | .shl d a b t => execShl d a b t s
  | .shr d a b t => execShr d a b t s
  | .min d a b t => execMin d a b t s
  | .max d a b t => execMax d a b t s
  | .cmp d a b t c => execCmp d a b t c s
  | .sel d a b => execSel d a b s
  | .addi d a i => execAddi d a i s
  | .andi d a i => execAndi d a i s
  | .shli d a n => execShli d a n s
  | .shri d a n => execShri d a n s
  | .sari d a n => execSari d a n s
  | .li d i => execLi d i s
  | .argl d a i => execArgl d a i s
  | .qput q a => execQput q a s
  | .qget d q k => execQget d q k s
  | .bset a => execBset a s
  | .gsel a i => execGsel a i s
  | .check a => execCheck a s
  | .ori d a imm => execOri d a imm s
  | .xori d a imm => execXori d a imm s
  | .liw d imm => execLiw d imm s
  | .lih d imm => execLih d imm s
  | .args d a imm => execArgs d a imm s
  | .srd d imm => execSrd d imm s
  | .swr a imm => execSwr a imm s
  | .tick d => execTick d s
  | .mslot d a imm => execMslot d a imm s
  | .ctrr d imm => execCtrr d imm s
  | .tbind t a => execTbind t a s
  | .tunb t => execTunb t s
  | .tread d t imm => execTread d t imm s
  | .tver d t => execTver d t s
  | .tstat d t imm => execTstat d t imm s
  | .tsync t => execTsync t s
  | .tstmp d a imm => execTstmp d a imm s
  | .tring d t imm => execTring d t imm s
  | .semi e die n v => execSemi e die n v s
  | .semd e die n v => execSemd e die n v s
  | .sems e die n v => execSems e die n v s
  | .semw e die n v => execSemw e die n v s
  | .semiWide e die n v => execSemiWide e die n v s
  | .semdWide e die n v => execSemdWide e die n v s
  | .semsWide e die n v => execSemsWide e die n v s
  | .semwWide e die n v => execSemwWide e die n v s
  | .rep e n k => execRep e n k s
  | .br o => execBr o s
  | .brq o => execBrq o s
  | .call o => execCall o s
  | .loop k m => execLoop k m s
  | .loopq m => execLoopq m s
  | .safe i => execSafe i s
  | .safeG i => execSafeG i s
  | .fence k f => execFence k f s
  | .aadd d a b => execAadd d a b s
  | .asub d a b => execAsub d a b s
  | .aaddi d a i => execAaddi d a i s
  | .amuli d a i => execAmuli d a i s
  | .ali d i => execAli d i s
  | .aliw d imm => execAliw d imm s
  | .aaddw d a imm => execAaddw d a imm s
  | .hset d a f => execHset d a f s
  | .hsetw d f imm => execHsetw d f imm s
  | .hget d a f => execHget d a f s
  | .hld d a i => execHld d a i s
  | .awin d a b => execAwin d a b s
  | .ald d a b t r f => execAld d a b t r f s
  | .aldS d a b t r f => execAldS d a b t r f s
  | .ast d a b t r f => execAst d a b t r f s
  | .cpy d a b f e => execCpy d a b f e s
  | .prmt d a b f e => execPrmt d a b f e s
  | .agth d a b f => execAgth d a b f s
  | .asca d a b t o => execAsca d a b t o s
  | .aatm d a b t o => execAatm d a b t o s
  | .stu d a t => execStu d a t s
  | .reqt d a b t => execReqt d a b t s
  | .surv a e => execSurv a e s
  | .apf a b => execApf a b s
  | .vadd d a b t r q => execVadd d a b t r q s
  | .vsub d a b t r q => execVsub d a b t r q s
  | .vmul d a b t r q => execVmul d a b t r q s
  | .vfma d a b t r q => execVfma d a b t r q s
  | .vmin d a b t q => execVmin d a b t q s
  | .vmax d a b t q => execVmax d a b t q s
  | .vand d a b t q => execVand d a b t q s
  | .vor d a b t q => execVor d a b t q s
  | .vxor d a b t q => execVxor d a b t q s
  | .vshl d a b t q => execVshl d a b t q s
  | .vshr d a b t q => execVshr d a b t q s
  | .vrshr d a b t r q => execVrshr d a b t r q s
  | .vmac2 d a b q => execVmac2 d a b q s
  | .vexp2 d a t q => execVexp2 d a t q s
  | .vlog2 d a t q => execVlog2 d a t q s
  | .vrcp d a t q => execVrcp d a t q s
  | .vrsq d a t q => execVrsq d a t q s
  | .vtanh d a t q => execVtanh d a t q s
  | .vsig d a t q => execVsig d a t q s
  | .vabs d a t q => execVabs d a t q s
  | .vneg d a t q => execVneg d a t q s
  | .vnot d a t q => execVnot d a t q s
  | .vpush c a b t => execVpush c a b t s
  | .vsel d a b t => execVsel d a b t s
  | .vcvt d a b t r q => execVcvt d a b t r q s
  | .vqnt d a b t r q => execVqnt d a b t r q s
  | .vdq d a b r q => execVdq d a b r q s
  | .vrot d a x u n => execVrot d a x u n s
  | .vslide d a x u f n => execVslide d a x u f n s
  | .vbcast d a x n => execVbcast d a x n s
  | .vredSum d a t x q => execVredSum d a t x q s
  | .vredMax d a t x q => execVredMax d a t x q s
  | .vredMin d a t x q => execVredMin d a t x q s
  | .vredAmax d a x q => execVredAmax d a x q s
  | .vmov d a t q => execVmov d a t q s
  | .vli d imm => execVli d imm s
  | .viota d imm => execViota d imm s
  | .vcpr d a imm => execVcpr d a imm s
  | .vpcnt d => execVpcnt d s
  | .mzero d => execMzero d s
  | .mma d a b m => execMma d a b m s
  | .msoft d a b => execMsoft d a b s
  | .mscale d i => execMscale d i s
  | .mscaleC2m d p => execMscaleC2m d p s
  | .mout d a b r => execMout d a b r s
  | .mdrn a f c => execMdrn a f c s
  | .mside a f => execMside a f s
  | .msrst d => execMsrst d s
  | .mcpy d a => execMcpy d a s
  | .madd d a => execMadd d a s
  | .xcmd a i => execXcmd a i s
  | .xbind a b => execXbind a b s
  | .xput a i => execXput a i s
  | .xget a i => execXget a i s
  | .xstat d a => execXstat d a s
  | .xabort a => execXabort a s
  | .xmov d a => execXmov d a s
  | .xli d i => execXli d i s
  | .xadd d a b => execXadd d a b s
  | .xaddi d a i => execXaddi d a i s
  | .xliw d imm => execXliw d imm s
  | .ret => execRet s
  | .endl => execEndl s
  | .resume => execResume s
  | .nop => execNop s
  | .endW => execEndW s
  | .velse => execVelse s
  | .vpend => execVpend s
  | .undefinedEncoding tile e => execUndefinedEncoding tile e s
  | _ => notDue s

/-- An engine's turn taken inside a machine step. -/
def engineTurn (s : State) (t : Core) (e : Eng) : Out := turnBy wordMeaning s t e

/-- What a waiting engine stands at: its wait, and what its word has moved and keeps. -/
def waitOf (s : State) (t : Core) (e : Eng) : Option Wait × Nat × Option Latch :=
  match s.strand t with
  | some st => ((st.eng e).wait, (st.eng e).progress, (st.eng e).latch)
  | none => (none, 0, none)

/-- The end of a wait: the engine takes its turn, and either waits no longer on what it waited on or has moved entries. -/
def endWait (isOver : Wait → Bool) (t : Core) (e : Eng) (s : State) : Out :=
  match s.strand t with
  | none => notDue s
  | some _ =>
    let (w, n) := waitOf s t e
    if !(match w with | some w => isOver w | none => false) then notDue s
    else
      match engineTurn s t e with
      | .next s' =>
        let (w', n') := waitOf s' t e
        if w' == w && n' == n then notDue s else .next s'
      | o => o

def execSemwSucceed (tile : Core) (e : Eng) (s : State) : Out :=
  endWait (fun w => match w with | .sem _ _ => true | .dieSem _ _ => true | _ => false) tile e s

def execQueueWaitRelease (tile : Core) (e : Eng) (s : State) : Out :=
  endWait (fun w => w == .push || w == .pop || w == .outcomeFull || w == .outcomeEmpty) tile e s

def execWindowWaitRelease (tile : Core) (e : Eng) (s : State) : Out := endWait (fun w => w == .window) tile e s

def execSlipWindowRelease (tile : Core) (e : Eng) (s : State) : Out := endWait (fun w => w == .slip) tile e s

/-! Text fetch and page walk (R78, R255). -/

/-- The part of a tile core that its text fetch and its walker are: no engine, no command. -/
def fetchPart : Nat := 7

/-- A miss of the text cache completes: the aligned word at `addr`, under the strand's translation; it is not complete while a slot holds it
(R78, R247). -/
def execTextFetch (tile : Core) (addr : DWord) (s : State) : Out :=
  match s.strand tile with
  | none => notDue s
  | some st =>
    match s.job? st.job with
    | none => notDue s
    | some j =>
      if addr.toNat % 4 != 0 || (walkGate s tile fetchPart j addr.toNat).toOption.isNone then notDue s
      else
        match translate s (some tile) (dieOf tile) j addr.toNat (if addr.toNat < tableBase st then .fetch else .read) with
        | .error _ => .next s
        | .ok l =>
          let (b, p) := s.readPhys l.key l.pa 4
          let s1 := (touchWalk s tile j addr.toNat).touch l false
          if (requestGate s tile fetchPart l).toOption.isNone then notDue s
          else if p then .next s1
          else
            let entry : TextEntry := { job := st.job, va := addr.toNat, word := BitVec.ofNat 32 (natOfBytes b) }
            .next (s1.updCore tile fun k =>
              { k with text := entry :: k.text.filter fun e => !(e.job == st.job && e.va == addr.toNat) })

/-- An entry of a translation cache that holds `n`: one for a page, the oldest leaving. -/
def cacheLeaf (l : List TlbEntry) (n : Nat) (x : TlbEntry) : List TlbEntry :=
  (x :: l.filter fun e => !(e.job == x.job && e.lg == x.lg && e.vpage == x.vpage)).take n

/-- A walk completes, held by slots like any request (R255); only a valid leaf is cached. -/
def execPageWalk (tile : Core) (job : Word) (addr : DWord) (s : State) : Out :=
  match s.job? job with
  | none => notDue s
  | some j =>
    if addr.toNat ≥ 2 ^ 56 then .next s
    else if (walkGate s tile fetchPart j addr.toNat).toOption.isNone then notDue s
    else
      let s0 := touchWalk s tile j addr.toNat
      match pageWalk s j addr.toNat with
      | .error _ => .next s0
      | .ok x =>
        let s1 := s0.updDie (dieOf tile) fun d => { d with tlb := cacheLeaf d.tlb 16384 x }
        .next (s1.updCore tile fun k => { k with tlb := cacheLeaf k.tlb 64 x })

/-! Copies (R278 to R280). -/

/-- A fault of class A of a strand's command, recorded against an engine (R450). -/
def commandFault (s : State) (t : Core) (rec : BitVec 3) (c : FaultCode) : State :=
  match s.strand t with
  | some st => takeFault s st.handle (wordRecord s t st .a rec c .async)
  | none => s

/-- Addresses of a byte traversal. -/
def byteAddrs (h : Shape) (b : Nat) : List Nat := (List.range h.count).map fun n => (h.addr b n).toNat

/-- Destination and source addresses of a command's bytes gathered by aligned 64-byte destination unit, the units in the order in which the
traversal first reaches them (R280). -/
def gatherUnits (l : List (Nat × Nat)) : List (List (Nat × Nat)) :=
  (l.map fun p => p.1 / 64).eraseDups.map fun u => l.filter fun p => p.1 / 64 == u

/-- The destination units of a command (R280). -/
def Async.units (x : Async) : List (List (Nat × Nat)) :=
  gatherUnits ((byteAddrs x.dstShape x.dst).zip (byteAddrs x.srcShape x.src))

/-- Bytes of a unit by their addresses, as runs of consecutive bytes; of two for one address the later stands. -/
def unitRuns (l : List (Nat × (Byte × Bool))) : List (Nat × List (Byte × Bool)) :=
  (l.foldl (fun m p => insertNat m p.1 p.2) []).foldr (fun p rs =>
    match rs with
    | (a, bs) :: rest => if a = p.1 + 1 then (p.1, p.2 :: bs) :: rest else (p.1, [p.2]) :: rs
    | [] => [(p.1, [p.2])]) []

/-- Consecutive source bytes within 8 aligned bytes, read together (R299). -/
def sourceRuns : List Nat → List (Nat × Nat)
  | [] => []
  | a :: rest =>
    match sourceRuns rest with
    | (x, n) :: us => if x = a + 1 && x % 8 != 0 then (a, n + 1) :: us else (a, 1) :: (x, n) :: us
    | [] => [(a, 1)]

/-- A command at work: the number it is known by among the parts of its strand (R300). -/
def Async.part (x : Async) : Nat := 8 + 2 * x.seq

/-- Some bytes read by a command, each with its poison. -/
def copyRead (t : Core) (st : Strand) (x : Async) (as : List Nat) (s : State) (v : View) :
    Except Halt (State × View × List (Byte × Bool)) :=
  (sourceRuns as).foldlM (fun r p => do
    let (s1, v1, bs, q) ← partRead r.1 t st x.part r.2.1 p.1 p.2
    .ok (s1, v1, r.2.2 ++ bs.map fun b => (b, q))) (s, v, [])

/-- A destination byte that lies in the source range holds some byte of that range, as it stood or as the command wrote it (R280): a free
value says which. -/
def copyByte (t : Core) (st : Strand) (x : Async) (from_ : List Nat) (lo hi : Nat) (d a : Nat) (s : State) (v : View) :
    Except Halt (State × View × List (Byte × Bool)) :=
  if decide (lo ≤ d) && decide (d ≤ hi) then
    let (f, s1) := s.draw
    copyRead t st x [from_.getD (f.toNat % max from_.length 1) a] s1 v
  else copyRead t st x [a] s v

/-- One destination unit read and written, indivisibly (R280), under the command's identity (R248). -/
def copyOne (t : Core) (st : Strand) (x : Async) (u : List (Nat × Nat)) (s : State) (v : View) : Except Halt (State × View) := do
  let from_ := byteAddrs x.srcShape x.src
  let lo := from_.foldl min (from_.headD 0)
  let hi := from_.foldl max 0
  let (s1, v1, bs) ←
    if u.all fun p => decide (p.1 < lo) || decide (hi < p.1) then copyRead t st x (u.map Prod.snd) s v
    else u.foldlM (fun r p => do
      let (s1, v1, b) ← copyByte t st x from_ lo hi p.1 p.2 r.1 r.2.1
      .ok (s1, v1, r.2.2 ++ b)) (s, v, [])
  let s2 ← partRuns s1 t st x.part (unitRuns ((u.map Prod.fst).zip bs)) (some (st.wid (if x.permute then 1 else 6) x.seq))
  .ok (s2, v1)

/-- Units copied in order until one is held, waits or fails: the state, the command as it stands, and what ended it. -/
def copyUnits (t : Core) (st : Strand) : List (Nat × List (Nat × Nat)) → Async → State → State × Async × Option Halt
  | [], x, s => (s, x, none)
  | (k, u) :: us, x, s =>
    if x.done.contains k then copyUnits t st us x s
    else
      match copyOne t st x u s x.view with
      | .error h => (s, x, some h)
      | .ok (s1, v) => copyUnits t st us { x with view := v, done := natInsert x.done k } s1

/-- Two destination ranges overlap (R278). -/
def Async.overlaps (x y : Async) : Bool :=
  let lo := fun (z : Async) => z.dstShape.low z.dst
  let hi := fun (z : Async) => z.dstShape.high z.dst
  decide (lo x ≤ hi y) && decide (lo y ≤ hi x)

/-- CPYs of a die that have begun (R17): a tile core's, but for one. -/
def begunCopies (s : State) (d : Fin 4) : Nat :=
  allCoreIds.foldl (fun n t => if dieOf t == d then
    match s.strand t with
    | some st => n + (st.asyncs.filter fun x => !x.permute && !x.done.isEmpty).length
    | none => n else n) 0

/-- The command in a slot of a strand, where it may go on: permutes one at a time, in a deterministic job copies of overlapping
destinations in order (R278), and at most 8 copies at work on a die (R17). -/
def copyAt (s : State) (t : Core) (slot : Nat) : Option (Strand × Async) :=
  match s.strand t with
  | none => none
  | some st =>
    match st.asyncs[slot]? with
    | none => none
    | some x =>
      let earlier := st.asyncs.take slot
      let blocked := if x.permute then earlier.any fun y => y.permute
        else st.det && earlier.any fun y => !y.permute && y.overlaps x
      if blocked || (!x.permute && x.done.isEmpty && begunCopies s (dieOf t) ≥ 8) then none else some (st, x)

/-- The command in a slot replaced. -/
def putCopy (s : State) (t : Core) (slot : Nat) (x : Async) : State :=
  s.updStrand t fun q => { q with asyncs := q.asyncs.set slot x }

/-- The command completes, or gets as far as a slot or an extension lets it (R293), which counts a request held in a slot (R446). The
increment is not applied once the launch has faulted (R296). -/
def copyComplete (permute : Bool) (t : Core) (slot : Nat) (s : State) : Out :=
  match copyAt s t slot with
  | none => notDue s
  | some (st, x) =>
    if x.permute != permute then notDue s
    else
      let gone := fun (s : State) => s.updStrand t fun q => { q with asyncs := q.asyncs.eraseIdx slot }
      match copyUnits t st (x.units.zipIdx.map fun y => (y.2, y.1)) x s with
      | (s1, _, some (.fault c)) => .next (commandFault (gone s1) t 1 c)
      | (s1, y, some (.wait (.held a))) =>
        if x.held && y.done == x.done then notDue s
        else
          let s2 := if x.held || !s.slotNow then s1 else s1.updStrand t (·.count 9 1)
          .next ((putCopy s2 t slot { y with held := true }).hold (.part t x.part) (dieOf t) a)
      | (s1, y, some (.wait _)) =>
        if y.done == x.done then notDue s else .next (putCopy s1 t slot { y with held := false })
      | (s1, y, none) =>
        match x.sem with
        | none => .next (gone s1)
        | some n =>
          let v := s1.covers (st.agent t x.part) y.view
          if st.dead54 then .next (gone s1)
          else if s1.coversHeld v || (!permute && !s1.canRaise (dieOf t)) then
            if y.done == x.done then notDue s else .next (putCopy s1 t slot { y with held := false })
          else .next (signalSem (gone s1) t (!permute) n v)

def execCopyEngineComplete (tile : Core) (slot : Nat) (s : State) : Out := copyComplete false tile slot s
def execPermuteComplete (tile : Core) (slot : Nat) (s : State) : Out := copyComplete true tile slot s

/-- One unit copied ahead of the rest (R279); nothing where the command cannot go on, or the unit is held. -/
def copyAhead (t : Core) (slot unit : Nat) (s : State) : State :=
  match copyAt s t slot with
  | none => s
  | some (st, x) =>
    match x.units[unit]? with
    | none => s
    | some u =>
      match copyUnits t st [(unit, u)] x s with
      | (s1, _, some (.fault c)) => commandFault (s1.updStrand t fun q => { q with asyncs := q.asyncs.eraseIdx slot }) t 1 c
      | (_, _, some (.wait _)) => s
      | (s1, y, none) => putCopy s1 t slot y

/-! Writes applied at their home (R245, R249 to R252, R309). -/

/-- Two writes under way that must keep their order: of one agent, or Stamps of one tile core, to the same bytes (R299, R383). -/
def Pending.clashes (q p : Pending) : Bool :=
  (q.agent == p.agent || (q.stamp.isSome && p.stamp.isSome && q.agent.core == p.agent.core)) &&
    overlap q.addr q.bytes.length p.addr p.bytes.length

/-- Write number `k` of those under way is applied at its home, once the gate of R309 is open and no earlier write of its
agent to the same bytes waits (R299); one that is held joins the requests held (R312). `spill` names a line that leaves shared SRAM first
(R251). -/
def execHomeWriteApply (k : Nat) (spill : Option Nat) (s : State) : Out :=
  match s.pending[k]? with
  | none => notDue s
  | some p =>
    let cannot := match spill with
      | none => false
      | some line => (s.resident line).isNone || (spillTag s line).isNone
    if cannot || (s.pending.take k).any (·.clashes p) || !s.gate p.clock then notDue s
    else if writeHeld s p then .next (s.hold (.write p.id) p.agent.die p.addr)
    else
      let s0 := match spill with
        | none => s
        | some line => s.evict line
      let now := match s0.launch? p.agent.handle with
        | some l => (match s0.job? l.job with | some j => j.phase | none => 0)
        | none => 0
      .next ({ s0 with pending := s0.pending.eraseIdx k }.applyOrDrop p now)

end Sys2Proof.Machine
end

