-- ==== Sys2Proof/Machine/Counters.lean ====
section
/-! DEFINITION. Completion counters (R436 to R440, R453, R454), and a queue's state block and halts (R348, R355, R496). -/

namespace Sys2Proof.Machine

/-! Completion counters. -/

/-- Address of counter `n`; the phase counter lies in counter 0's bytes (R436). -/
def counterAddr (j : Job) (n : Nat) : Nat := j.ctbase + 32 * (if n = Config.phaseCounter then 0 else n)

/-- Word `k` of a counter; a poisoned granule is not used (R496). -/
def counterWord (s : State) (j : Job) (n k : Nat) : Except FaultCode Nat :=
  match s.jobWord j (counterAddr j n + 8 * k) with
  | .error c => .error c
  | .ok (v, p) => if p then .error .poisonSync else .ok v

/-- The state of a counter (R437); the null counter is never pending. -/
def counterState (s : State) (j : Job) (n : Nat) : Except FaultCode Nat :=
  if n = 0 then .ok 0
  else match counterWord s j n 0 with
    | .error c => .error c
    | .ok w => .ok (bits w 3 0)

/-- The four words of a counter written in order, word 0 last so that its state is written last (R438). -/
def putCounter (s : State) (j : Job) (n : Nat) (w0 w1 w2 w3 : Nat) : Except FaultCode State :=
  let body := bytesOfNat 8 w1 ++ bytesOfNat 8 w2 ++ bytesOfNat 8 w3
  match s.agentWrite none s.leaderDie j (counterAddr j n + 8) body false none with
  | (_, some c) => .error c
  | (s1, none) =>
    match s1.agentWrite none s.leaderDie j (counterAddr j n) (bytesOfNat 8 w0) false none with
    | (_, some c) => .error c
    | (s2, none) => .ok s2

/-- Arming (R438); the null counter arms nothing. -/
def armCounter (s : State) (j : Job) (n : Nat) : Except FaultCode State :=
  if n = 0 then .ok s
  else match counterWord s j n 0 with
    | .error c => .error c
    | .ok w => (putCounter s j n ((w / 2 ^ 32 + 1) % 2 ^ 32 * 2 ^ 32 + 1) 0 0 0).map fun s1 =>
        s1.updJob j.no fun j => { j with counterRels := j.counterRels.filter fun x => x.1 != n }

/-- The states of R437. -/
def Status.code : Status → Nat
  | .ok => 8 | .tensor => 9 | .poisoned => 10 | .cancelled => 11 | .fault => 12

/-- Statuses that applied (R437, also): TENSOR, POISONED, CANCELLED, FAULT. -/
structure Also where
  tensor : Bool := false
  poisoned : Bool := false
  cancelled : Bool := false
  fault : Bool := false
deriving DecidableEq, Repr

def Also.bits (a : Also) : BitVec 4 :=
  (if a.tensor then 1 else 0) ||| (if a.poisoned then 2 else 0) ||| (if a.cancelled then 4 else 0) ||| (if a.fault then 8 else 0)

/-- The first of FAULT, CANCELLED, POISONED, TENSOR and OK that applies (R55). -/
def Also.status (a : Also) : Status :=
  if a.fault then .fault else if a.cancelled then .cancelled else if a.poisoned then .poisoned
  else if a.tensor then .tensor else .ok

/-- What a completion writes (R437). -/
structure Final where
  also : Also := {}
  sel : Option (BitVec 8) := none
  record : Option FaultRec := none
  nflt : Nat := 0
deriving DecidableEq, Repr

/-- The final state of armed work (R438). -/
def finalCounter (s : State) (j : Job) (n : Nat) (f : Final) : Except FaultCode State :=
  if n = 0 then .ok s
  else match counterWord s j n 0 with
    | .error c => .error c
    | .ok w =>
      let sel := match f.sel with | some v => v.toNat * 2 ^ 24 + 2 ^ 23 | none => 0
      let w0 := w / 2 ^ 32 * 2 ^ 32 + sel + f.also.bits.toNat * 256 + f.also.status.code
      let (w1, w2, fs) := match f.record with
        | some r => (r.code.toNat * 2 ^ 48 + r.core.toNat * 2 ^ 40 + r.eng.toNat * 2 ^ 37 + r.detail.toNat, r.tick.toNat,
            r.strand.toNat)
        | none => (0, 0, 0)
      putCounter s j n w0 w1 w2 (min f.nflt (2 ^ 32 - 1) * 2 ^ 32 + fs)

/-- What the final state of a counter releases is kept for the WAITs that acquire it; a WAIT that waits has succeeded, whatever re-arms the
counter next (R351, R435, R438). -/
def counterMet (s : State) (job : Word) (n : Nat) (rel : Released) : State :=
  let s1 := s.updJob job fun j => { j with counterRels := insertNat j.counterRels n rel }
  { s1 with queues := s1.queues.map fun k =>
      if k.job == job && k.hold == .wait && decide ((k.shadow.toList.getD 21 0).toNat % 65536 = n) then { k with met := some rel } else k }

/-- A counter's final state written for work of a queue, releasing `rel`; a lost write halts the queue at its next packet boundary
(R496). -/
def finishCounter (s : State) (job : Word) (q : BitVec 8) (n : Nat) (f : Final) (rel : Released := {}) : State :=
  match s.job? job with
  | none => s
  | some j =>
    match finalCounter s j n f with
    | .ok s1 => if n = 0 then s1 else counterMet s1 job n rel
    | .error _ => s.updQueue q fun k => { k with lostWrite := true }

/-- What a WAIT on a counter acquires: nothing of an idle one (R438). -/
def counterRel (j : Job) (n : Nat) : Released := (lookupNat j.counterRels n).getD {}

/-- The counter's bytes, for a step that reads or writes it. -/
def counterRange (j : Job) (n : Nat) : List (Job × Nat × Nat) := if n = 0 then [] else [(j, counterAddr j n, 32)]

/-! The queue state block and halts. -/

/-- The 512 bytes of the state block (R348). -/
def Queue.block (k : Queue) : List Byte :=
  k.shadow.toList.flatMap (fun v => bytesOfNat 8 v.toNat) ++ bytesOfNat 8 k.head ++ bytesOfNat 8 k.tail ++
    bytesOfNat 8 k.err.toNat ++ bytesOfNat 8 (k.lseq % 2 ^ 24) ++ List.replicate 224 0

/-- Bytes `off` to `off` + n − 1 of the block written, where they can be (R348, R496). -/
def writeBlockPart (s : State) (q : BitVec 8) (off n : Nat) : Except FaultCode State :=
  match s.queue? q with
  | none => .ok s
  | some k =>
    match s.job? k.job with
    | none => .ok s
    | some j =>
      match s.agentWrite none s.leaderDie j (k.state + off) ((k.block.drop off).take n) false none with
      | (s1, none) => .ok s1
      | (_, some c) => .error c

def writeBlock (s : State) (q : BitVec 8) : Except FaultCode State := writeBlockPart s q 0 512

/-- A queue halts with an error record of code and ordinal (R348, R355, R496): what of its batch has executed stays executed,
and the head stands at the first ring packet that has not. Of the block of a queue already halted, whose head and shadow software may have
rewritten, only the error record is written. -/
def haltQueue (s : State) (q : BitVec 8) (code ordinal : Nat) : State :=
  let was := match s.queue? q with | some k => k.halted | none => false
  let s1 := s.updQueue q fun k =>
    let head := match k.batch with | p :: _ => p.start | [] => k.head
    { k with halted := true, batch := [], hold := .none, met := none, lostWrite := false, atPhase := false, head,
             unread := k.unread - (head + 2 ^ k.lg - k.head) % 2 ^ k.lg
             err := BitVec.ofNat 64 (code * 2 ^ 56 + ordinal % 2 ^ 24 * 2 ^ 32 + k.head % 2 ^ 32) }
  signalHost (match (if was then writeBlockPart s1 q 272 8 else writeBlock s1 q) with | .ok s2 => s2 | .error _ => s1)
    (.halted q (BitVec.ofNat 8 code))

/-- The codes of R354. -/
def errOpcode : Nat := 1
def errLength : Nat := 2
def errField : Nat := 3
def errAddress : Nat := 4
def errDepth : Nat := 5
def errBatch : Nat := 6
def errResource : Nat := 7
def errDoorbell : Nat := 8

end Sys2Proof.Machine
end

