-- ==== Sys2Proof/Machine/Graphs.lean ====
section
/-! DEFINITION. Launches and graphs: dispatch (R44, R45, R47, R350, R366), edges and nodes (R49, R360, R361, R438), survivor
compaction (R363 to R365), and what a launch's completion does (R53 to R57, R277, R283, R307, R384, R451, R453). -/

namespace Sys2Proof.Machine

/-! The parameters of a launch (R44, R350). -/

/-- A shadow register as a number. -/
def creg (r : Vector DWord 32) (i : Nat) : Nat := (r.toList.getD i 0).toNat

/-- The fenced tile cores as a mask. -/
def fencedMask (s : State) : BitVec 192 :=
  allCoreIds.foldl (fun m t => if (s.core t).fenced then m ||| BitVec.ofNat 192 (2 ^ t.val) else m) 0

/-- Record bindings of `c7` to `c15`. -/
def bindingsOf (r : Vector DWord 32) : Vector (Option (BitVec 24)) 16 :=
  tab 16 fun k =>
    if bits (creg r 7) k k = 1 then
      some (BitVec.ofNat 24 (if k % 2 = 0 then bits (creg r (8 + k / 2)) 23 0 else bits (creg r (8 + k / 2)) 55 32))
    else none

def classOf (n : Nat) : Class := match n with | 0 => .live | 1 => .near | _ => .bulk

/-- The launch that registers `c0` to `c16` describe. -/
def launchFrom (s : State) (job : Word) (q : BitVec 8) (ident phase : Word) (node : Option (Nat × Nat)) (handle : Nat)
    (r : Vector DWord 32) : Launch :=
  let c6 := creg r 6
  { handle, job, queue := q, ident, phase, node
    textBase := bits (creg r 0) 55 0
    textLen := bits (creg r 1) 31 0
    count := bits (creg r 1) 56 32
    team := BitVec.ofNat 192 (creg r 3 + creg r 4 * 2 ^ 64 + creg r 5 * 2 ^ 128) &&& ~~~fencedMask s
    argbase := BitVec.ofNat 56 (creg r 2)
    bindings := bindingsOf r
    cls := classOf (bits c6 1 0)
    prio := ⟨bits c6 4 2 % 8, Nat.mod_lt _ (by decide)⟩
    stealPackage := bits c6 5 5 == 1
    gang := bits c6 6 6 == 1
    scope := BitVec.ofNat 2 (bits c6 8 7)
    counter := bits (creg r 16) 15 0 }

/-- R45, R47, R454: what completes a launch at its dispatch, before any strand. -/
def atOnce (l : Launch) : Option Final :=
  let bad := fun (d : BitVec 20) =>
    some { also := { fault := true }, record := some { code := 0, core := 0, eng := 5, detail := d, tick := 0, strand := 0 } }
  if l.count = 0 then some {}
  else if l.cores.isEmpty then bad 1
  else if l.gang && decide (l.count > l.cores.length) then bad 2
  else none

/-! Dealing (R366). -/

def dealLaunch : Nat → State → Nat → State
  | 0, s, _ => s
  | fuel + 1, s, h =>
    match s.launch? h with
    | none => s
    | some l =>
      if l.gang || decide (l.dealt ≥ l.count) then s
      else
        match nextDeal s l with
        | none => s
        | some t =>
          dealLaunch fuel ((dealTo s t h (BitVec.ofNat 24 l.dealt)).updLaunch h fun l => { l with dealt := l.dealt + 1 }) h

/-- Every launch deals what the queues have room for, the strands that a fenced tile core has left behind first (R459). -/
def dealAll (s : State) : State :=
  let s1 := redeal s
  s1.launches.foldl (fun s l => dealLaunch 12288 s l.handle) s1

/-! Tile cores held for a launch (R367, R368). -/

/-- A tile core that may take a strand: idle, not fenced, held for no launch but `g`. -/
def idleFor (s : State) (t : Core) (g : Option Nat) : Bool :=
  let k := s.core t
  k.strand.isNone && !k.fenced && (k.heldFor.isNone || k.heldFor == g)

/-- Within a steal scope measured from a die. -/
def Launch.inScope (l : Launch) (d : Fin 4) (t : Core) : Bool := l.stealPackage || dieOf t == d

/-- A gang that has not been placed, or not placed again (R47, R414). -/
def gangWaiting (s : State) (l : Launch) : Bool :=
  l.gang && !l.faulted && !l.cancelled && (!l.started || (!l.stopped.isEmpty && (s.strandsOf l.handle).isEmpty))

def Launch.gangNeed (l : Launch) : Nat := if l.started then l.stopped.length else l.count

def heldBy (s : State) (h : Nat) : Nat := (allCoreIds.filter fun t => (s.core t).heldFor == some h).length

/-- Tile cores a waiting gang still lacks (R367). -/
def gangShort (s : State) (l : Launch) : Nat :=
  l.gangNeed - (l.cores.filter fun t => idleFor s t (some l.handle)).length

/-- Runnable strands of a non-gang launch whose steal scope, measured from die `d`, is the one in which tile core `t` lies: queued ones from
their queue's die, stopped ones from where they last ran (R368). -/
def runnableAt (s : State) (l : Launch) (t : Core) : Nat :=
  if l.gang then 0
  else (l.stopped.filter fun x => l.inScope x.die t).length +
    allCoreIds.foldl (fun n c => if l.inScope (dieOf c) t then
      n + ((s.core c).queue.filter fun e => e.1 == l.handle).length else n) 0

/-- A launch of class LIVE or NEAR goes on needing tile core `t`. -/
def stillWants (s : State) (h : Nat) (t : Core) : Bool :=
  match s.launch? h with
  | none => false
  | some l => l.cls != .bulk && l.team.getLsbD t.val && !l.faulted && !l.cancelled
      && (if l.gang then gangWaiting s l else decide (runnableAt s l t > 0))

/-- Tile cores held for what no longer needs them are free again; a waiting gang of class LIVE or NEAR that lacks some holds those of its team
that are idle, the higher class and the earlier dispatch first (R367). -/
def holdIdle (s : State) : State :=
  let s1 := allCoreIds.foldl (fun s t => match (s.core t).heldFor with
    | some h => if stillWants s h t then s else s.updCore t fun k => { k with heldFor := none }
    | none => s) s
  let gangs := fun (c : Class) => s1.launches.filter fun l => l.cls == c && gangWaiting s1 l
  (gangs .live ++ gangs .near).foldl (fun s l =>
    if gangShort s l = 0 then s
    else l.cores.foldl (fun s t =>
      if idleFor s t none then s.updCore t fun k => { k with heldFor := some l.handle } else s) s) s1

/-! Graphs (R357 to R361). -/

/-- Final status of a node. -/
def Graph.nodeFinal (g : Graph) (n : Nat) : Option (Status × BitVec 4 × Bool × Option (BitVec 8)) :=
  (g.final.find? fun x => x.1 == n).map fun x => x.2

def Graph.isRunning (g : Graph) (n : Nat) : Bool := g.running.any fun x => x.1 == n

/-- Incoming edges of a node. -/
def Graph.into (g : Graph) (n : Nat) : List DWord := g.edges.filter fun e => edgeTo e == n

/-- A compaction target (R359): its one incoming edge is a compaction edge. -/
def Graph.compacted (g : Graph) (n : Nat) : Bool := (g.into n).any fun e => edgeKind e == 3

/-- Whether a node ended with a result: OK, TENSOR or POISONED. -/
def Status.good (st : Status) : Bool := st == .ok || st == .tensor || st == .poisoned

/-- The smask bit of a status (R358). -/
def Status.bit : Status → Nat
  | .ok => 0 | .tensor => 1 | .poisoned => 2 | .cancelled => 3 | .fault => 4

/-- Whether a resolved edge is taken (R360). -/
def edgeTaken (e : DWord) (st : Status) (sel : Option (BitVec 8)) : Bool :=
  let v := e.toNat
  match edgeKind e with
  | 0 => st.good
  | 1 => bits v (40 + st.bit) (40 + st.bit) == 1
  | 2 => st.good && sel == some (BitVec.ofNat 8 (bits v 39 32))
  | _ => false

/-- A node takes its final status, with what it releases. -/
def setNode (s : State) (gh n : Nat) (f : Final) (skipped : Bool) (rel : Released := {}) : State :=
  s.updGraph gh fun g =>
    { g with final := (n, f.also.status, f.also.bits, skipped, f.sel) :: g.final, rels := (n, rel) :: g.rels
             running := g.running.filter fun x => x.1 != n }

def updBatches (s : State) (gh edge : Nat) (f : Batches → Batches) : State :=
  s.updGraph gh fun g => { g with batches := g.batches.map fun b => if b.edge == edge then f b else b }

/-- Bytes written by the compactor of a batch area's home die; what is written before a failure stands. -/
def compactorWrite (s : State) (job : Word) (d : Fin 4) (a : Nat) (bs : List Byte) (p : Bool) : State × Option FaultCode :=
  match s.job? job with
  | none => (s, some .translation)
  | some j => s.writeAs (compactorAgent d) none j a bs p none

/-- Header words 0 and 1 of an edge's batch area. -/
def writeHeader (s : State) (gh edge : Nat) : State × Option FaultCode :=
  match s.graph? gh with
  | none => (s, none)
  | some g =>
    match g.batches.find? fun b => b.edge == edge with
    | none => (s, none)
    | some b => compactorWrite s g.job b.die b.area (bytesOfNat 8 b.started ++ bytesOfNat 8 b.lastCount) false

/-- The compaction edges out of a node that ended without a strand are closed: their headers describe no batch (R363). A header that cannot
be written is left: no launch of the node is there to end with the fault (log 65). -/
def closeEmpty (s : State) (gh n : Nat) : State :=
  match s.graph? gh with
  | none => s
  | some g => (g.batches.filter fun b => b.source == n).foldl (fun s b =>
      updBatches (writeHeader s gh b.edge).1 gh b.edge fun b => { b with flushed := true, cur := [], store := [] }) s

/-- A node's counter number, and whether it may be armed now: it waits while the counter is PENDING (R438). -/
def nodeCounter (g : Graph) (n : Nat) : Nat := bits (creg (g.images.getD n (Vector.replicate 32 0)) 16) 15 0

def mayArm (s : State) (job : Word) (n : Nat) : Bool :=
  match s.job? job with
  | none => true
  | some j => match counterState s j n with | .ok v => v != 1 | .error _ => true

/-- Arming for work of a queue; a counter that cannot be reached is a lost write (R496). -/
def armFor (s : State) (job : Word) (q : BitVec 8) (n : Nat) : State :=
  match s.job? job with
  | none => s
  | some j => match armCounter s j n with
    | .ok s1 => s1
    | .error _ => s.updQueue q fun k => { k with lostWrite := true }

/-- A node ends without a strand: its counter is armed and takes the final status (R49, R438). -/
def endNode (s : State) (g : Graph) (n : Nat) (f : Final) (skipped : Bool) : State :=
  let c := nodeCounter g n
  let s1 := finishCounter (armFor s g.job g.queue c) g.job g.queue c f
  closeEmpty (setNode s1 g.handle n f skipped) g.handle n

/-- What the front end's work acquires of what it and system software have written, whichever die leads (R307, R347). -/
def frontCovers (s : State) : Released :=
  { wide := ([0, 1, 2, 3] : List (Fin 4)).foldl (fun v d => v.join (s.covers (dieAgent d) {})) {} }

/-- What work of a job acquires at its dispatch from a queue: what the queue's WAITs have acquired, what the phases closed release, the
front end's writes and system software's (R307, R347). -/
def dispatchAcq (s : State) (job : Word) (acq : Released) : Released :=
  let own := match s.job? job with | some j => j.acq | none => {}
  (acq.join own).join (frontCovers s)

/-- A launch enters the dispatcher; its strands' placement will acquire what its dispatch follows (R307). -/
def addLaunch (s : State) (l : Launch) (acq : Released) : State :=
  let l1 := { l with clock := (s.die s.leaderDie).clock, acq := dispatchAcq s l.job acq }
  holdIdle (dealLaunch 12288 { s with launches := s.launches ++ [l1], fresh := s.fresh + 1 } l.handle)

/-- An incoming edge of a node is taken (R360). -/
def Graph.takes (g : Graph) (e : DWord) : Bool :=
  match g.nodeFinal (edgeFrom e) with
  | some r => edgeTaken e r.1 r.2.2.2
  | none => false

/-- What a node's launch acquires: what the graph's dispatch did, and the completions of the nodes whose edges to it are taken (R307). -/
def Graph.nodeAcq (g : Graph) (n : Nat) : Released :=
  ((g.into n).filter g.takes).foldl (fun r e => r.join (((g.rels.find? fun x => x.1 == edgeFrom e).map Prod.snd).getD {})) g.acq

/-- A node runs as a launch (R49, R356). -/
def dispatchNode (s : State) (g : Graph) (n : Nat) : State :=
  let l := launchFrom s g.job g.queue (BitVec.ofNat 32 (g.base + n)) g.phase (some (g.handle, n)) s.fresh
    (g.images.getD n (Vector.replicate 32 0))
  match atOnce l with
  | some f => endNode s g n f false
  | none =>
    let s1 := addLaunch (armFor s g.job g.queue l.counter) l (g.nodeAcq n)
    s1.updGraph g.handle fun g => { g with running := (n, l.handle) :: g.running }

/-- The front end may read and write a counter of a job now: a leader acts, and nothing holds the counter (R247, R371, R423, R496). -/
def counterFree (s : State) (job : Word) (n : Nat) : Bool :=
  frontEndActs s && match s.job? job with
    | some j => (counterRange j n).all fun r => s.unheld none s.leaderDie r.1 r.2.1 r.2.2
    | none => true

/-- One node considered: run, skipped, or left (R49, R360, R363). -/
def nodeTurn (s : State) (gh n : Nat) : State :=
  match s.graph? gh with
  | none => s
  | some g =>
    if (g.nodeFinal n).isSome || g.isRunning n || !counterFree s g.job (nodeCounter g n) || !mayArm s g.job (nodeCounter g n) then s
    else if g.cancelled then endNode s g n { also := { cancelled := true } } false
    else if g.compacted n then
      if g.batches.any fun b => b.target == n && b.flushed && b.started == 0 then
        endNode s g n { also := { cancelled := true } } true
      else s
    else
      let es := g.into n
      if es.isEmpty then dispatchNode s g n
      else if !es.all (fun e => (g.nodeFinal (edgeFrom e)).isSome) then s
      else if es.any g.takes then dispatchNode s g n
      else endNode s g n { also := { cancelled := true } } true

/-- The graph's own status and also bits (R360, R438). -/
def Graph.outcome (g : Graph) : Final :=
  let counted := g.final.filter fun x => !x.2.2.2.1
  let any := fun (p : Status → BitVec 4 → Bool) => counted.any fun x => p x.2.1 x.2.2.1
  { also := { tensor := any fun _ a => a.getLsbD 0, poisoned := any fun _ a => a.getLsbD 1
              cancelled := g.cancelled || any fun _ a => a.getLsbD 2, fault := any fun _ a => a.getLsbD 3 } }

/-- What a graph's completion releases: what the graph engine has acquired of its nodes' (R307). -/
def Graph.released (s : State) (g : Graph) : Released :=
  { wide := g.rels.foldl (fun v x => v.join (x.2.at s.leaderDie)) {} }

/-- A graph moves on: nodes in ascending order (edges only ascend), then its own end. -/
def graphTurn (s : State) (gh : Nat) : State :=
  match s.graph? gh with
  | none => s
  | some g =>
    let s1 := (List.range g.images.length).foldl (fun s n => nodeTurn s gh n) s
    match s1.graph? gh with
    | none => s1
    | some g1 =>
      if counterFree s1 g1.job g1.counter && (List.range g1.images.length).all fun n => (g1.nodeFinal n).isSome then
        let s2 := finishCounter s1 g1.job g1.queue g1.counter g1.outcome (g1.released s1)
        { s2 with graphs := s2.graphs.filter fun x => x.handle != gh }
      else s1

/-- How far the graphs have come: nodes with a final status or running, graphs ended. -/
def graphProgress (s : State) : Nat × Nat :=
  (s.graphs.length, s.graphs.foldl (fun n g => n + 2 * g.final.length + g.running.length) 0)

/-- Every graph moves on, until none can: a node may wait for a counter that another graph makes final (R438). -/
def settleGraphs : Nat → State → State
  | 0, s => s
  | fuel + 1, s =>
    let s1 := s.graphs.foldl (fun s g => graphTurn s g.handle) s
    if graphProgress s1 == graphProgress s then s1 else settleGraphs fuel s1

/-- Every graph moves on, every launch deals, launches left without a team end, and waiting gangs hold idle tile cores. -/
def settle (s : State) : State :=
  holdIdle (teamCheck <| dealAll (settleGraphs (s.graphs.foldl (fun n g => n + 3 * g.images.length + 1) 1) s))

/-! Survivor compaction (R363 to R365). -/

/-- Records of strands that no earlier strand holds back enter the batches in order (R365). -/
def compactorRelease (s : State) (l : Launch) : State :=
  match l.node with
  | none => s
  | some (gh, n) =>
    let low := lowestLive s l
    s.updGraph gh fun g => { g with batches := g.batches.map fun b =>
      if b.source == n then
        let out := b.store.filter fun x => decide (x.1.toNat ≤ low)
        let sorted := sortBy (fun x y => decide (x.1.toNat < y.1.toNat) || (x.1 == y.1 && decide (x.2.1 ≤ y.2.1))) out
        { b with store := b.store.filter fun x => !decide (x.1.toNat ≤ low), cur := b.cur ++ sorted.map fun x => x.2.2 }
      else b }

/-- The strand of a batch that has been written: the target's launch grows by one, or is dispatched with its first (R363). Its placement
acquires the batch, and what came with its records (R306, R307). -/
def startTarget (s : State) (gh edge : Nat) : State :=
  match s.graph? gh with
  | none => s
  | some g =>
    match g.batches.find? fun b => b.edge == edge with
    | none => s
    | some b =>
      let v := s.covers (compactorAgent b.die) b.seen
      match b.launch with
      | some h => dealLaunch 12288 (s.updLaunch h fun l =>
          let l1 := { l with count := l.count + 1, batchAcq := l.batchAcq ++ [v], clock := l.clock.join (s.die b.die).clock }
          if l.faulted || l.cancelled then { l1 with dealt := l.dealt + 1, ended := l.ended + 1 } else l1) h
      | none =>
        let l := { launchFrom s g.job g.queue (BitVec.ofNat 32 (g.base + b.target)) g.phase (some (gh, b.target)) s.fresh
          (g.images.getD b.target (Vector.replicate 32 0)) with count := 1, batchAcq := [v] }
        if g.cancelled || (g.nodeFinal b.target).isSome then s
        else
          match atOnce l with
          | some f => endNode s g b.target f false
          | none =>
            let s0 := s.joinClock s.leaderDie (s.die b.die).clock
            let s1 := updBatches (addLaunch (armFor s0 g.job g.queue l.counter) l g.acq) gh edge fun b => { b with launch := some l.handle }
            s1.updGraph gh fun g => { g with running := (b.target, l.handle) :: g.running }

/-- A batch of the first records of `cur`, filled up with zero records, is written, then the header, and its strand is started (R363). DESIGN
CHOICE (log 65): the header follows every batch, since the last strand may be the one of a full batch. -/
def startBatch (s : State) (gh edge : Nat) : State × Option FaultCode :=
  match s.graph? gh with
  | none => (s, none)
  | some g =>
    match g.batches.find? fun b => b.edge == edge with
    | none => (s, none)
    | some b =>
      let recs := b.cur.take b.bsize
      let all := recs ++ List.replicate (b.bsize - recs.length) (List.replicate 32 0, false, {})
      let at_ := b.area + 64 + b.started * b.bsize * 32
      let (s1, e) := all.zipIdx.foldl (fun (r : State × Option FaultCode) x => match r.2 with
        | some _ => r
        | none => compactorWrite r.1 g.job b.die (at_ + 32 * x.2) x.1.1 x.1.2.1) (s, none)
      match e with
      | some c => (s1, some c)
      | none =>
        let s2 := updBatches s1 gh edge fun b =>
          { b with started := b.started + 1, lastCount := recs.length, cur := b.cur.drop b.bsize
                   seen := recs.foldl (fun v x => v.join x.2.2) b.seen }
        let (s3, e3) := writeHeader s2 gh edge
        (startTarget s3 gh edge, e3)

/-- An edge at its source's end: full batches, then the partial one (`good`) or none, and the header (R363); no more comes of it, even where
a write fails. -/
def flushEdge (gh edge : Nat) (good : Bool) : Nat → State → State × Option FaultCode
  | 0, s => (s, none)
  | fuel + 1, s =>
    let last := fun (s : State) =>
      let (s1, e) := writeHeader s gh edge
      (updBatches s1 gh edge fun b => { b with flushed := true, cur := [], store := [] }, e)
    match (s.graph? gh).bind fun g => g.batches.find? fun b => b.edge == edge with
    | none => (s, none)
    | some b =>
      if b.cur.length ≥ b.bsize ∨ (good ∧ b.cur ≠ []) then
        match startBatch s gh edge with
        | (s1, none) => flushEdge gh edge good fuel s1
        | (s1, some c) => ((last s1).1, some c)
      else last s

/-- Compaction edges out of a launch. -/
def edgesOut (s : State) (l : Launch) : List Batches :=
  match l.node with
  | none => []
  | some (gh, n) => match s.graph? gh with
    | none => []
    | some g => g.batches.filter fun b => b.source == n

/-- The compactors acquire the launch's completion with its edges (R307). -/
def flushAll (s : State) (l : Launch) (good : Bool) : State × Option FaultCode :=
  match l.node with
  | none => (s, none)
  | some (gh, _) => (edgesOut s l).foldl (fun r b =>
      let s0 := updBatches r.1 gh b.edge fun b => { b with seen := b.seen.join (l.rel.at b.die) }
      let (s1, e) := flushEdge gh b.edge good (b.cur.length + 2) s0
      (s1, r.2.or e)) (s, none)

/-- The bytes of an edge's batch area that a batch touches, its header among them; all of it for the last batches. -/
def batchRanges (s : State) (job : Word) (b : Batches) (last : Bool) : List (Job × Nat × Nat) :=
  match s.job? job with
  | none => []
  | some j =>
    let n := if last then (b.cur.length + b.bsize - 1) / b.bsize else 1
    [(j, b.area, 64), (j, b.area + 64 + b.started * b.bsize * 32, n * b.bsize * 32)]

/-- A full batch is written and its strand starts (R363). -/
def execCompactionBatch (graph edge : Nat) (s : State) : Out :=
  match s.graph? graph with
  | none => notDue s
  | some g =>
    match g.batches.find? fun b => b.edge == edge with
    | none => notDue s
    | some b =>
      let who := Holder.edge graph edge
      if b.cur.length < b.bsize || !s.agentReady b.die
          || (b.launch.isNone && (!counterFree s g.job (nodeCounter g b.target) || !mayArm s g.job (nodeCounter g b.target))) then notDue s
      else
        match s.gateStep who b.die (batchRanges s g.job b false) with
        | some s1 => .next s1
        | none =>
          match startBatch (s.letGo who) graph edge with
          | (s1, none) => .next s1
          | (s1, some c) =>
            match g.running.find? fun x => x.1 == b.source with
            | none => .next s1
            | some (_, h) =>
              .next (takeFault s1 h { code := c.bits, core := 0, eng := 5, detail := 0, tick := s.psc, strand := 0 })

/-! Launch completion. -/

/-- Held pairs of a launch applied in ascending identity (R283): the state, and whether poison was written. -/
def applyPairs (s : State) (h : Nat) (phase : Word) : State × Bool :=
  let mine := sortBy (fun (a b : MergePair) => !b.wid.precedes a.wid) (s.pairs.filter fun p => p.handle == h)
  mine.foldl (fun (r : State × Bool) p =>
    let (old, q) := r.1.readPhys p.key p.addr 4
    let new := bytesOfNat 4 (combine 8 p.op.toNat (natOfBytes old) p.val.toNat)
    let (w, s1) := r.1.number { dieAgent (homeDie p.addr) with handle := h, strand := p.wid.strand } {} ⟨p.addr, 0, p.key, false⟩ new
      (q || p.poison) (if p.tracked then some p.wid else none)
    (s1.applyOrDrop w phase true, r.2 || q || p.poison)) ({ s with pairs := s.pairs.filter fun p => p.handle != h }, false)

/-- Every accumulator of a launch merged at its record's home (R384): the state and TENSOR, or the fault of R495. -/
def mergeAccums (s : State) (l : Launch) : Except FaultCode (State × Bool) :=
  l.accums.foldlM (fun r x => do
    let (s1, exceeds) ← mergeLaunch r.1 l.job x.1 x.2
    .ok (s1, r.2 || exceeds)) (s, false)

/-- OPEN granules of the launch's records become SETTLED (R277). -/
def settleGranules (s : State) (l : Launch) : State :=
  s.updJob l.job fun j => { j with granules := j.granules.filter fun x => !(x.2.2 && l.pins.any fun p => p.1 == x.1) }

/-- What a command agent finds at a completion (R364, R495). -/
def agentRecord (s : State) (c : FaultCode) (detail : BitVec 20) : FaultRec :=
  { code := c.bits, core := 0, eng := 5, detail, tick := s.psc, strand := 0 }

def Launch.withFault (l : Launch) (r : FaultRec) : Launch :=
  { l with faulted := true, nflt := l.nflt + 1, record := some (match l.record with | some q => firstFault q r | none => r) }

/-- The merges and flushes of a completion: the state and the launch with its last statuses. Where the compactor's last write fails, the
launch ends with FAULT and no count of it reaches a record (R382, R451). -/
def lastWork (s : State) (l : Launch) : State × Launch :=
  let phase := match s.job? l.job with | some j => j.phase | none => 0
  let closed := fun (s : State) (l : Launch) => ((flushAll s l false).1, l)
  if l.faulted then closed s l
  else
    let (s1, p) := applyPairs s l.handle phase
    let l := { (s1.launch? l.handle).getD l with poisoned := l.poisoned || p }
    if l.faulted || l.cancelled then closed s1 l
    else
      match mergeAccums s1 l with
      | .error c => closed s1 (l.withFault (agentRecord s c 0))
      | .ok (s2, exceeds) =>
        match flushAll s2 l true with
        | (s3, none) => (s3, { l with tensor := l.tensor || exceeds })
        | (_, some c) => ((flushAll s1 l true).1, l.withFault (agentRecord s c 0))

/-- The completion record of a launch (R55, R361, R437). -/
def Launch.final (l : Launch) : Final :=
  let sels := l.selectors.map fun x => x.2.toNat
  { also := { tensor := l.tensor, poisoned := l.poisoned, cancelled := l.cancelled, fault := l.faulted }
    sel := if l.node.isSome && !sels.isEmpty then some (BitVec.ofNat 8 (sels.foldl max 0)) else none
    record := l.record, nflt := l.nflt }

/-- A launch may complete: no strand of it is placed or to come, every write of it is visible, and a compaction target it
feeds may be armed (R54, R57, R363, R438). -/
def mayComplete (s : State) (l : Launch) : Bool :=
  let whole := match l.node with
    | none => true
    | some (gh, n) => match s.graph? gh with
      | none => true
      | some g => (g.batches.filter fun b => b.target == n).all (·.flushed)
  (s.strandsOf l.handle).isEmpty && !s.pending.any (fun p => p.agent.handle == l.handle)
    && (s.pairs.all fun p => p.handle != l.handle || s.gate (s.die (homeDie p.addr)).clock)
    && (l.faulted || l.cancelled || (decide (l.ended ≥ l.count) && l.stopped.isEmpty && whole))
    && (edgesOut s l).all fun b => b.launch.isSome || b.cur.isEmpty || (match l.node with
        | none => true
        | some (gh, _) => match s.graph? gh with
          | none => true
          | some g => g.cancelled || (counterFree s g.job (nodeCounter g b.target) && mayArm s g.job (nodeCounter g b.target)))

/-- What a completion reads and writes: its counter, and the batch areas of its edges; the homes of its records and of its held pairs. -/
def completionRanges (s : State) (l : Launch) : List (Job × Nat × Nat) :=
  match s.job? l.job with
  | none => []
  | some j => counterRange j l.counter ++ (edgesOut s l).flatMap fun b => batchRanges s l.job b true

def completionFree (s : State) (l : Launch) : Bool :=
  (match s.job? l.job with | some j => l.accums.all fun x => homeFree s j x.1 | none => true)
    && s.pairs.all fun p => p.handle != l.handle ||
      (let f : Leaf := ⟨p.addr, 0, p.key, false⟩; !slotHolds s (homeDie p.addr) f && !extensionHolds s (homeDie p.addr) f)

/-- The launch completes: merges, status, its counter as a release (R57), its edges (R360). The counter is the front end's to write (R371,
R496). -/
def execLaunchCompletion (launch : Nat) (s : State) : Out :=
  match s.launch? launch with
  | none => notDue s
  | some l0 =>
    let who := Holder.launch launch
    if !mayComplete s l0 || !frontEndActs s || !s.agentReady s.leaderDie || (l0.scope.toNat ≥ 2 && !s.unraised s.leaderDie)
        || !completionFree s l0 then notDue s
    else
      match s.gateStep who s.leaderDie (completionRanges s l0) with
      | some s1 => .next s1
      | none =>
        let (s1, l) := lastWork (s.letGo who) l0
        let s2 := settleGranules s1 l
        let s3 := { s2 with launches := s2.launches.filter fun x => x.handle != launch }
        let s4 := (finishCounter s3 l.job l.queue l.counter l.final l.rel).updJob l.job fun j => { j with done := j.done.join l.rel }
        let s5 := if l.scope.toNat ≥ 2 then s4.raiseEpoch s4.leaderDie else s4
        let s6 := match l.node with | none => s5 | some (gh, n) => setNode s5 gh n l.final false l.rel
        .next (settle s6)

end Sys2Proof.Machine
end

