-- ==== Sys2Proof/Machine/Context.lean ====
section
/-! DEFINITION. The context of a stopped strand as bytes (R408, R409), its restoration (R411), and the same offsets as a
debugger reads and writes them (R415). -/

namespace Sys2Proof.Machine

/-- What a context names: the masks of a safe-point table entry and the depth of the return stack. -/
structure Masks where
  xm : Nat
  vm : Nat
  am : Nat
  accm : Nat
  pd : Nat
  depth : Nat
deriving DecidableEq, Repr

/-- Masks of an entry's 128 bits (R400). -/
def masksOf (raw depth : Nat) : Masks :=
  { xm := bits raw 127 96, vm := bits raw 95 80, am := bits raw 79 64, accm := bits raw 31 28, pd := bits raw 27 24, depth }

/-- Every section present (R415). -/
def allMasks (depth : Nat) : Masks := { xm := 0xFFFFFFFE, vm := 0xFFFF, am := 0xFFFF, accm := 0xF, pd := 8, depth }

/-- Set bits of a mask below `n`, ascending. -/
def setBitsOf (m n : Nat) : List Nat := (List.range n).filter fun i => bits m i i == 1

def align64 (n : Nat) : Nat := (n + 63) / 64 * 64

/-- First bytes of the six sections (R408, R409). -/
def Masks.scalars (m : Masks) : Nat := align64 (384 + 16 * m.depth)
def Masks.access (m : Masks) : Nat := align64 (m.scalars + 8 * (setBitsOf m.xm 32).length)
def Masks.tiles (m : Masks) : Nat :=
  align64 (m.access + 56 * (setBitsOf m.am 16).length + 8 * (setBitsOf m.am 8).length)
def Masks.preds (m : Masks) : Nat := align64 (m.tiles + 4160 * (setBitsOf m.vm 16).length)
def Masks.accs (m : Masks) : Nat := align64 (m.preds + 128 * m.pd)

/-- End of the last section that is not empty (R408). -/
def Masks.size (m : Masks) : Nat :=
  if m.accm ≠ 0 then m.accs + 66624 * (setBitsOf m.accm 4).length
  else if m.pd ≠ 0 then m.preds + 128 * m.pd
  else if m.vm ≠ 0 then m.tiles + 4160 * (setBitsOf m.vm 16).length
  else if m.am ≠ 0 then m.access + 56 * (setBitsOf m.am 16).length + 8 * (setBitsOf m.am 8).length
  else if m.xm ≠ 0 then m.scalars + 8 * (setBitsOf m.xm 32).length
  else 384 + 16 * m.depth

/-! Bytes of the parts. -/

def wordBytes (w : Word) : List Byte := bytesOfNat 4 w.toNat
def dwordBytes (w : DWord) : List Byte := bytesOfNat 8 w.toNat

/-- The row word: side state of R183. -/
def Row.side (r : Row) : Nat :=
  (if r.poison then 2 ^ 21 else 0) + (if r.tag.tv then 2 ^ 20 else 0) + r.tag.slot.toNat * 2 ^ 16 + r.tag.ver.toNat

def tileBytes (v : Tile) : List Byte :=
  v.toList.flatMap (fun r => r.lanes.toList.flatMap wordBytes) ++ v.toList.flatMap fun r => bytesOfNat 4 r.side

def accBytes (a : Acc) : List Byte :=
  a.toList.flatMap (fun r => r.vals.toList.flatMap wordBytes) ++ a.toList.flatMap (fun r => wordBytes r.smax) ++
    a.toList.flatMap (fun r => wordBytes r.ssum) ++
    bytesOfNat 16 (a.toList.foldr (fun r n => (if r.poison then 1 else 0) + 2 * n) 0) ++ List.replicate 48 0

/-- The shape record of R104. -/
def Shape.bytes (h : Shape) : List Byte :=
  h.ext.toList.flatMap wordBytes ++ h.stride.toList.flatMap fun v => bytesOfNat 8 v.toNat

/-- Frames from depth 1 on, gathered from spill space and chip (R40, R409). -/
def frameBytes (st : Strand) (spad : Mem) : List Byte :=
  spad.bytes st.c.sbase.toNat (16 * (st.c.depth.toNat - 16)) ++ st.c.frames.reverse.flatMap Frame.bytes

/-- Bits of a list of truth values, the first lowest. -/
def boolsNat (l : List Bool) : Nat := l.foldr (fun b n => (if b then 1 else 0) + 2 * n) 0

/-- The 384 bytes of the header (R408). -/
def headerBytes (st : Strand) (m : Masks) (idx raw : Nat) : List Byte :=
  let am := fun (i : Nat) => bits m.am i i == 1
  let xp := boolsNat (st.regs.toList.zipIdx.map fun x => x.1.poison && bits m.xm x.2 x.2 == 1)
  let ap := boolsNat (st.addrs.toList.zipIdx.map fun x => x.1.poison && am x.2)
  let ep := boolsNat (st.xregs.toList.zipIdx.map fun x => x.1.poison && am x.2)
  let status := fun (i : Nat) =>
    if st.tickets.toNat + i < 64 then 0
    else match st.statuses.find? fun x => x.1.toNat == st.tickets.toNat + i - 63 with
      | some x => x.2.toNat
      | none => 0
  bytesOfNat 8 (2 ^ 56 + st.index.toNat * 2 ^ 32 + st.launch.toNat) ++
  bytesOfNat 8 (st.gangCount.toNat * 2 ^ 16 + idx) ++
  bytesOfNat 8 (st.c.slim.toNat * 2 ^ 32 + st.c.sbase.toNat) ++
  bytesOfNat 8 (st.c.slotmode.toNat * 2 ^ 16 + st.win.toNat) ++
  bytesOfNat 8 (boolsNat [st.sat, st.nan, st.fmt] * 2 ^ 32 + st.c.depth.toNat) ++
  bytesOfNat 8 (ep * 2 ^ 48 + ap * 2 ^ 32 + xp) ++
  bytesOfNat 8 st.tickets.toNat ++
  bytesOfNat 8 m.size ++
  bytesOfNat 32 ((List.range 64).foldr (fun i n => status i + 16 * n) 0) ++
  List.replicate 32 0 ++
  st.slots.toList.flatMap (fun b => bytesOfNat 4 (match b with | some i => 2 ^ 31 + i.toNat | none => 0)) ++
  st.sems.toList.flatMap wordBytes ++
  bytesOfNat 16 raw ++
  List.replicate 48 0

/-- The sections of a context as (offset, bytes), the header first. -/
def contextParts (st : Strand) (spad : Mem) (m : Masks) (idx raw : Nat) : List (Nat × List Byte) :=
  let a := setBitsOf m.am 16
  let e := setBitsOf m.am 8
  [(0, headerBytes st m idx raw),
   (384, frameBytes st spad),
   (m.scalars, (setBitsOf m.xm 32).flatMap fun i => dwordBytes (st.regs.toList.getD i {}).val),
   (m.access, (a.flatMap fun i => dwordBytes (st.addrs.toList.getD i {}).val) ++
      (a.flatMap fun i => match st.shapes.toList[i]? with | some h => h.bytes | none => []) ++
      e.flatMap fun i => dwordBytes (st.xregs.toList.getD i {}).val),
   (m.tiles, (setBitsOf m.vm 16).flatMap fun i => match st.tiles.toList[i]? with | some v => tileBytes v | none => []),
   (m.preds, (List.range m.pd).flatMap fun i => bytesOfNat 128 (st.pred.reverse.getD i 0).toNat),
   (m.accs, (setBitsOf m.accm 4).flatMap fun i => match st.accs.toList[i]? with | some a => accBytes a | none => [])]

/-- Sections laid out in one byte string, with the bytes of `fill` between them. -/
def layOut (fill : Nat → Byte) (parts : List (Nat × List Byte)) : List Byte :=
  parts.foldl (fun acc p => acc ++ (List.range (p.1 - acc.length)).map (fun i => fill (acc.length + i)) ++ p.2) []

/-- A debugger's image: sections laid out with free bytes between them, which R408 gives no value (log 6). -/
def drawLayOut (s : State) (parts : List (Nat × List Byte)) : List Byte × State :=
  let img := layOut (fun o => (Config.freeValue (s.draws + o)).setWidth 8) parts
  (img, { s with draws := s.draws + img.length })

/-! Restoration. -/

/-- How a context is read: bytes and poison at an offset. -/
abbrev CtxRead := Nat → Nat → Except FaultCode (List Byte × Bool)

/-- A part that carries no poison bit (R411). -/
def cleanPart (rd : CtxRead) (o n : Nat) : Except FaultCode (List Byte) := do
  let (b, p) ← rd o n
  if p then .error .poisonSync else .ok b

/-- Bits of a context that a save writes as zero (R8, R408, R409). DESIGN CHOICE (log 60): a context in which one of them is set is
refused as ILLEGAL. -/
def spare (b : Bool) : Except FaultCode Unit := if b then .ok () else .error .illegal

/-- The header of a context has its layout code and no spare bit set (R408, log 60). -/
def headerSound (h : Nat → Nat → Nat) : Bool :=
  bits (h 0 8) 63 56 == 1 && bits (h 8 8) 63 48 == 0 && bits (h 0x10 8) 63 54 == 0 && bits (h 0x10 8) 31 22 == 0
    && bits (h 0x18 8) 63 17 == 0 && bits (h 0x18 8) 15 11 == 0 && bits (h 0x20 8) 63 35 == 0 && bits (h 0x28 8) 63 56 == 0
    && bits (h 0x30 8) 63 32 == 0 && bits (h 0x38 8) 63 32 == 0 && h 0x60 32 == 0
    && ((List.range 16).all fun k => bits (h (0x80 + 4 * k) 4) 30 24 == 0) && bits (h 0x140 8) 22 0 == 0 && h 0x150 48 == 0

/-- Statuses of tickets: every ticket that there is has a final one, since a strand stops with none outstanding (R336, R344, R408,
log 60). -/
def statusesSound (tickets stat : Nat) : Bool :=
  (List.range 64).all fun i =>
    let c := bits stat (4 * i + 3) (4 * i)
    if tickets + i < 64 then c == 0 else decide (2 ≤ c) && decide (c ≤ 7)

/-- Registers restored by number from 8-byte entries, each with its saved poison bit. -/
def restoreRegs {k : Nat} (rd : CtxRead) (o : Nat) (saved : Nat) (is : List Nat) (v : Vector PWord k) :
    Except FaultCode (Vector PWord k) :=
  is.zipIdx.foldlM (fun v x => do
    let (b, p) ← rd (o + 8 * x.2) 8
    .ok (if h : x.1 < k then v.set x.1 ⟨BitVec.ofNat 64 (natOfBytes b), p || bits saved x.1 x.1 == 1⟩ h else v)) v

def restoreShapes (rd : CtxRead) (o : Nat) (is : List Nat) (v : Vector Shape 16) : Except FaultCode (Vector Shape 16) :=
  is.zipIdx.foldlM (fun v x => do
    let b ← cleanPart rd (o + 48 * x.2) 48
    let n := natOfBytes b
    spare ((List.range 4).all fun k => bits n (128 + 64 * k + 63) (128 + 64 * k + 48) == 0)
    let h : Shape := { ext := tab 4 fun k => BitVec.ofNat 32 (bits n (32 * k + 31) (32 * k))
                       stride := tab 4 fun k => BitVec.ofNat 48 (bits n (128 + 64 * k + 47) (128 + 64 * k)) }
    .ok (if p : x.1 < 16 then v.set x.1 h p else v)) v

/-- Words of a byte list. -/
def wordsOf (n : Nat) (b : List Byte) : Vector Word n := tab n fun i => BitVec.ofNat 32 (natOfBytes ((b.drop (4 * i)).take 4))

def restoreTile (rd : CtxRead) (o : Nat) : Except FaultCode Tile := do
  let rows ← (List.range 16).mapM fun r => do
    let (b, p) ← rd (o + 256 * r) 256
    let (w, q) ← rd (o + 4096 + 4 * r) 4
    let n := natOfBytes w
    spare (bits n 31 22 == 0)
    pure ({ lanes := wordsOf 64 b, poison := p || q || bits n 21 21 == 1
            tag := { tv := bits n 20 20 == 1, slot := BitVec.ofNat 4 (bits n 19 16), ver := BitVec.ofNat 16 n } } : Row)
  .ok (tab 16 fun i => rows.getD i { lanes := Vector.replicate 64 0 })

def restoreAcc (rd : CtxRead) (o : Nat) : Except FaultCode Acc := do
  let (pb, pp) ← rd (o + 65536 + 1024) 16
  let (zb, _) ← rd (o + 65536 + 1040) 48
  spare (natOfBytes zb == 0)
  let rows ← (List.range 128).mapM fun r => do
    let (b, p) ← rd (o + 512 * r) 512
    let (x, p1) ← rd (o + 65536 + 4 * r) 4
    let (y, p2) ← rd (o + 65536 + 512 + 4 * r) 4
    pure ({ vals := wordsOf 128 b, poison := p || p1 || p2 || pp || bits (natOfBytes pb) r r == 1
            smax := BitVec.ofNat 32 (natOfBytes x), ssum := BitVec.ofNat 32 (natOfBytes y) } : AccRow)
  .ok (tab 128 fun i => rows.getD i { vals := Vector.replicate 128 0 })

/-- Frames from depth 1 on, as read. -/
def restoreFrames (rd : CtxRead) (depth : Nat) : Except FaultCode (List Frame) :=
  (List.range depth).mapM fun i => do
    let b ← cleanPart rd (384 + 16 * i) 16
    match Frame.ofBytes b with
    | some f => .ok f
    | none => .error .illegal

/-- The state that a context gives a strand (R411): what its masks name, and the whole header. Every bit that a save writes as zero is
checked first (log 60). -/
def restoreStrand (rd : CtxRead) (m : Masks) (st : Strand) : Except FaultCode Strand := do
  let hb ← cleanPart rd 0 384
  let h := fun (o n : Nat) => natOfBytes ((hb.drop o).take n)
  spare (headerSound h && statusesSound (h 0x30 4) (h 0x40 32))
  let frames ← restoreFrames rd m.depth
  let pz := h 0x28 8
  let a := setBitsOf m.am 16
  let e := setBitsOf m.am 8
  let regs ← restoreRegs rd m.scalars (bits pz 31 0) (setBitsOf m.xm 32) st.regs
  let addrs ← restoreRegs rd m.access (bits pz 47 32) a st.addrs
  let shapes ← restoreShapes rd (m.access + 8 * a.length) a st.shapes
  let xregs ← restoreRegs rd (m.access + 56 * a.length) (bits pz 55 48) e st.xregs
  let tiles ← (setBitsOf m.vm 16).zipIdx.foldlM (fun (v : Vector Tile 16) x => do
    let t ← restoreTile rd (m.tiles + 4160 * x.2)
    .ok (if p : x.1 < 16 then v.set x.1 t p else v)) st.tiles
  let preds ← (List.range m.pd).mapM fun i => cleanPart rd (m.preds + 128 * i) 128
  let accs ← (setBitsOf m.accm 4).zipIdx.foldlM (fun (v : Vector Acc 4) x => do
    let t ← restoreAcc rd (m.accs + 66624 * x.2)
    .ok (if p : x.1 < 4 then v.set x.1 t p else v)) st.accs
  let tickets := h 0x30 4
  let stat := h 0x40 32
  let statuses := ((List.range 64).filterMap fun i =>
    let c := bits stat (4 * i + 3) (4 * i)
    if tickets + i < 64 || c = 0 then none else some (BitVec.ofNat 32 (tickets + i - 63), BitVec.ofNat 4 c)).reverse
  let flags := bits (h 0x20 8) 34 32
  let onChip := (frames.reverse).take 16
  let gc := bits (h 8 8) 47 16
  .ok ({ (st.allEngs fun g => { g with
          frames := onChip, depth := BitVec.ofNat 32 (h 0x20 4), gsafes := gc
          sbase := BitVec.ofNat 22 (h 0x10 4), slim := BitVec.ofNat 22 (h 0x14 4), slotmode := BitVec.ofNat 1 (h 0x1A 1) }) with
    regs, addrs, shapes, xregs, tiles, accs
    pred := (preds.map fun b => BitVec.ofNat 1024 (natOfBytes b)).reverse
    win := BitVec.ofNat 11 (h 0x18 2)
    sat := bits flags 0 0 == 1, nan := bits flags 1 1 == 1, fmt := bits flags 2 2 == 1
    tickets := BitVec.ofNat 32 tickets, statuses
    slots := tab 16 fun k =>
      let v := h (0x80 + 4 * k) 4
      if bits v 31 31 = 1 then some (BitVec.ofNat 24 v) else none
    sems := tab 32 fun k => BitVec.ofNat 32 (h (0xC0 + 4 * k) 4)
    gangCount := BitVec.ofNat 32 gc })

end Sys2Proof.Machine
end

