-- ==== Sys2Proof/Machine/Strands.lean ====
section
/-! DEFINITION. The dispatcher and a strand's life: choice and placement (R29, R46, R47, R59, R366, R379), its end (R57), deadlock
and distance (R43, R413), stop requests and stop points (R367, R368, R402 to R405), contexts and resumption (R407 to R412). -/

namespace Sys2Proof.Machine

/-! Save slots (R407). -/

/-- Save-area slots of a job freed, and the lowest free one. -/
def freeSlot (s : State) (job : Word) (k : Nat) : State :=
  s.updJob job fun j => { j with saveUsed := j.saveUsed.filter fun x => x != k }

def lowestSlot (j : Job) : Option Nat := (List.range j.spcount).find? fun k => !j.saveUsed.contains k

def takeSlot (s : State) (job : Word) : Option (Nat × State) :=
  match s.job? job with
  | none => none
  | some j => (lowestSlot j).map fun k => (k, s.updJob job fun j => { j with saveUsed := k :: j.saveUsed })

/-! Weighted round robin (R59). -/

/-- A place of the 24 counters of the eight levels of the three classes. -/
def levelIndex (c : Class) (p : Nat) : Nat := c.bits.toNat * 8 + p

def listSet (l : List Nat) (n i v : Nat) : List Nat := (List.range n).map fun k => if k = i then v else l.getD k 0

/-- The launch next in round robin at a level, after the one served last, in dispatch order. -/
def nextAtLevel (s : State) (c : Class) (p : Nat) (cands : List Launch) : Option Nat :=
  let hs := (cands.filter fun l => l.cls == c && l.level == p).map fun l => l.handle
  let last := s.served.getD (levelIndex c p) 0
  let low := fun (xs : List Nat) => match xs with | [] => none | x :: xs => some (xs.foldl min x)
  match low (hs.filter fun h => decide (last < h)) with
  | some h => some h
  | none => low hs

/-- Strands of a launch not yet dispatched (R59). -/
def Launch.pendingWork (s : State) (l : Launch) : Bool :=
  !l.faulted && !l.cancelled &&
    (!l.stopped.isEmpty || decide (l.dealt < l.count) || allCoreIds.any fun t => (s.core t).queue.any fun e => e.1 == l.handle)

/-- Turns left of a class: a level with no runnable strand has given up its own, and a new round opens when no level has one left
(R59). -/
def turnsLeft (s : State) (c : Class) : List Nat :=
  let busy := fun (p : Nat) => s.launches.any fun l => l.cls == c && l.level == p && l.pendingWork s
  let mine := fun (k : Nat) => decide (k / 8 = c.bits.toNat)
  let now := (List.range 24).map fun k => if mine k && !busy (k % 8) then 0 else s.turns.getD k 0
  if (List.range 24).any fun k => mine k && decide (now.getD k 0 > 0) then now
  else (List.range 24).map fun k => if mine k then (if busy (k % 8) then 2 ^ (k % 8) else 0) else s.turns.getD k 0

/-- Whether a launch may take the next turn among candidates of one class: it is next at its level, and its level has turns left in the
round. DESIGN CHOICE (log 66): where no level of a candidate has one, the candidates share them all the same, and no round opens. -/
def mayTakeTurn (s : State) (l : Launch) (cands : List Launch) : Bool :=
  let left := fun (p : Nat) => (turnsLeft s l.cls).getD (levelIndex l.cls p) 0
  (!(cands.any fun x => left x.level > 0) || decide (left l.level > 0)) && nextAtLevel s l.cls l.level cands == some l.handle

/-- The turn is taken, and the launch's waiting time starts again (R59). -/
def takeTurn (s : State) (l : Launch) : State :=
  let i := levelIndex l.cls l.level
  let t := turnsLeft s l.cls
  { (s.updLaunch l.handle fun l => { l with aged := 0, waited := 0 }) with
    turns := listSet t 24 i (t.getD i 0 - 1), served := listSet s.served 24 i l.handle }

/-- A launch that has waited a further 2^20 ticks rises one level (R59). -/
def execPriorityAgeing (launch : Nat) (s : State) : Out :=
  match s.launch? launch with
  | none => notDue s
  | some l =>
    if l.pendingWork s && decide (l.waited ≥ 2 ^ 20 * (l.aged + 1)) && decide (l.level < 7) then
      .next (s.updLaunch launch fun l => { l with aged := l.aged + 1 })
    else notDue s

/-! Placement (R29, R46, R366). -/

/-- A stopped strand of the launch may resume on a tile core (R368). -/
def Launch.resumable (l : Launch) (t : Core) : Bool := !l.gang && !l.cancelled && !l.faulted && l.team.getLsbD t.val && l.stopped.any fun x => l.inScope x.die t

/-- The launch of a queue entry that tile core `t` may run from the queue of `src`. -/
def entryFor (s : State) (t src : Core) (e : Nat × BitVec 24) : Option Launch :=
  match s.launch? e.1 with
  | none => none
  | some l => if l.team.getLsbD t.val && (src == t || l.inScope (dieOf src) t) then some l else none

/-- A tile core is held for no launch but `l` (R367, R373). -/
def openTo (s : State) (t : Core) (l : Launch) : Bool :=
  match (s.core t).heldFor with | none => true | some h => h == l.handle

/-- The launches that an idle tile core may choose from: with a strand in its own queue, or with a stopped strand that may resume on it
(R366, R368). -/
def choices (s : State) (t : Core) : List Launch :=
  let own := (s.core t).queue.filterMap fun e => (entryFor s t t e).map fun l => l.handle
  s.launches.filter fun l => openTo s t l && (own.contains l.handle || l.resumable t)

/-- The choice of R366: the highest class, then the launch whose turn it is. -/
def chosen (s : State) (t : Core) (l : Launch) : Bool :=
  let cs := choices s t
  !(cs.any fun x => decide (x.cls.bits.toNat < l.cls.bits.toNat)) && mayTakeTurn s l (cs.filter fun x => x.cls == l.cls)

/-- Strands in queues that an idle tile core may take, by their launches: its own queue's; where it may run none of them, those it may
steal, of its own die first (R46, R366). -/
def takeable (s : State) (t : Core) : List Launch :=
  let from_ := fun (c : Core) => ((s.core c).queue.filterMap (entryFor s t c)).filter (openTo s t)
  let own := from_ t
  let near := (allCoreIds.filter fun c => dieOf c == dieOf t).flatMap from_
  if !own.isEmpty then own else if !near.isEmpty then near else allCoreIds.flatMap from_

/-- A runnable strand of a higher class could take the tile core now (R61, R366, R367). -/
def outranked (s : State) (t : Core) (l : Launch) : Bool :=
  let higher := fun (y : Launch) => openTo s t y && decide (y.cls.bits.toNat < l.cls.bits.toNat)
  s.launches.any (fun y => y.resumable t && higher y) || (takeable s t).any higher

/-- A tile core's state at a placement: its scratchpad zeroed, or left with the stores to it, which no later strand may miss (R238). -/
def clearFor (s : State) (t : Core) (j : Job) (fresh : Bool) : State :=
  s.updCore t fun k =>
    { k with spad := if fresh || j.det || k.lastJob != some j.no then {} else k.spad, past := [], lastJob := some j.no, heldFor := none }

/-- The bindings of a launch pinned at its first placement (R379): a record that cannot be pinned ends the launch at word 0; none where a
read of one must wait. -/
def pinAll (s : State) (t : Core) (st : Strand) : Option State :=
  let r := st.slots.toList.foldl (fun (r : Except Halt State) b =>
    match r, b with
    | .ok s, some i => pinRecord s t st i.toNat
    | r, _ => r) (.ok s)
  match r with
  | .ok s1 => some s1
  | .error (.fault c) => some (wordFault s t .c 0 c .atWord)
  | .error (.wait _) => none

/-- A strand that a placement makes is bound to see what the placement acquires: what its launch's dispatch followed, for the agents of its
die, and, of a compaction target, its batch (R298, R307, R363). -/
def acquiring (t : Core) (l : Launch) (st : Strand) (v : View) : Strand :=
  let w := (v.join (l.acq.at (dieOf t))).join (l.batchAcq.getD st.index.toNat {})
  st.allEngs fun g => { g with view := w }

/-- A strand placed (R29, R149, R184, R218, R261, R266, R307, R322, R379, R383); none where a read of a record must wait. -/
def placeStrand (s : State) (t : Core) (l : Launch) (j : Job) (index : BitVec 24) : Option State :=
  let st := acquiring t l (Strand.placed l j index) {}
  let s1 := ((clearFor s t j false).setStrand t st).joinClock (dieOf t) l.clock
  (if l.started then some s1 else pinAll (s1.updLaunch l.handle fun l => { l with started := true }) t st).map fun s => fillRecords s t

/-- An idle tile core takes entry `pick` of the queue of `source`: its own first, by class, turn and index (R366), else by
stealing within the steal scope, own die first (R46). -/
def execStrandPlacement (tile source : Core) (pick : Nat) (s : State) : Out :=
  match (s.core source).queue[pick]? with
  | none => notDue s
  | some e =>
    match entryFor s tile source e with
    | none => notDue s
    | some l =>
      match s.job? l.job with
      | none => notDue s
      | some j =>
        let lowest := ((s.core source).queue.filter fun x => x.1 == e.1).all fun x => decide (e.2.toNat ≤ x.2.toNat)
        let stealable := fun (c : Core) => c != tile && (s.core c).queue.any fun x =>
          match entryFor s tile c x with | some l => openTo s tile l | none => false
        let own := (s.core tile).queue.any fun x => match entryFor s tile tile x with | some l => openTo s tile l | none => false
        let bySteal := !own && (dieOf source == dieOf tile
          || !(allCoreIds.any fun c => dieOf c == dieOf tile && stealable c))
        if !idleFor s tile (some l.handle) || l.resumable tile || !recordsFree s tile j l.bindings
            || !(if source = tile then chosen s tile l && lowest else bySteal) then notDue s
        else
          let s1 := s.updCore source fun k => { k with queue := k.queue.eraseIdx pick }
          match placeStrand (takeTurn s1 l) tile l j e.2 with
          | some s2 => .next (dealAll s2)
          | none => notDue s

/-! The end of a strand (R57). -/

/-- What a strand has written, by whichever of its engines and commands, and is bound to see. -/
def strandCovers (s : State) (t : Core) (st : Strand) : View :=
  let me := st.agent t 0
  let done := fun (l : List Applied) => l.filterMap fun u => if me.mate u.agent then some u.id else none
  let wait := s.pending.filterMap fun p => if me.mate p.agent then some p.id else none
  Eng.all.foldl (fun v e => v.join (st.eng e).view) { ids := (wait ++ done s.past ++ done (s.core t).past).foldl natInsert [] }

/-- The tile core becomes idle, kept for the launch that a stop has freed it for while that launch goes on needing it (R367, R368, R373);
what the strand has done is among what its launch's completion releases, at its scope (R57, R307). -/
def freeCore (s : State) (t : Core) (want : Option Nat) : State :=
  let s1 := match s.strand t with
    | some st => s.updLaunch st.handle fun l => { l with rel := l.rel.add (decide (l.scope.toNat ≥ 2)) (dieOf t) (strandCovers s t st) }
    | none => s
  s1.updCore t fun k => { k with strand := none, heldFor := want.filter fun h => stillWants s1 h t }

/-- The launch that a strand's pending stop is for. -/
def Strand.wantedBy (st : Strand) : Option Nat := st.stop.bind fun r => r.wanted

/-- A home of a record whose delta is still to be added is out of reach for now (R247, R416). -/
def deltasHeld (s : State) (t : Core) (st : Strand) : Bool :=
  match s.job? st.job with
  | none => false
  | some j => st.deltas.any fun d => match translate s (some t) (dieOf t) j (recAddr j d.1) .read with
    | .ok l => (requestGate s t fetchPart l).toOption.isNone
    | .error _ => false

/-- A strand's stop request goes, its reserved slot with it. -/
def dropStop (s : State) (t : Core) : State :=
  match s.strand t with
  | none => s
  | some st =>
    let s1 := match st.stop.bind fun r => r.slot with | some k => freeSlot s st.job k | none => s
    s1.updStrand t fun q => { (q.allEngs fun g => { g with holding := false }) with stop := none }

/-- Every engine has passed END, nothing of the strand is outstanding, and it holds no tile core longer (R57, R295, R344); a
strand of a faulted launch ends once its commands are complete, in a later tick than its fault's (R54, R460). -/
def execStrandEnd (tile : Core) (s : State) : Out :=
  match s.strand tile with
  | none => notDue s
  | some st =>
    if st.dead54 then
      let held := Eng.all.any fun e => match (st.eng e).wait with | some w => w.isHeld | none => false
      if st.asyncs.isEmpty && !held && st.deadAt != s.psc then .next (settle (freeCore (spoilAborted s tile st) tile none)) else notDue s
    else if !(Eng.all.all fun e => (st.eng e).ended) || !st.asyncs.isEmpty || !st.cmds.isEmpty || st.halted || deltasHeld s tile st then
      notDue s
    else
      let s1 := freeCore (flushDeltas (dropStop s tile) tile none) tile st.wantedBy
      let s2 := s1.updLaunch st.handle fun l => { l with ended := l.ended + 1 }
      .next (settle (match s2.launch? st.handle with | some l => compactorRelease s2 l | none => s2))

/-! Deadlock and distance (R43, R321, R413). -/

/-- The blocking cause of R321. -/
def causeOf (g : Engine) : Nat :=
  if g.ended then 8
  else match g.wait with
    | some .push => 1 | some .pop => 2 | some .outcomeFull => 3 | some .outcomeEmpty => 4 | some .slip => 5
    | some (.sem _ _) => 6 | some .window => 7 | some .commandSlot => 9 | some .resume => 10 | some .positional => 10
    | _ => 0

/-- An engine that, given its turn, would go on waiting as it does. -/
def stuck (s : State) (t : Core) (e : Eng) : Bool :=
  match engineTurn s t e with
  | .next s' => waitOf s' t e == waitOf s t e
  | _ => false

/-- Every engine of the strand is internally blocked (R42). -/
def deadlocked (s : State) (t : Core) (st : Strand) : Bool :=
  if Eng.all.all fun e => (st.eng e).ended then st.headBlocked
  else Eng.all.all fun e =>
    (st.eng e).ended ||
      ((match (st.eng e).wait with | some w => w.internal st.named st.headBlocked | none => false) && stuck s t e)

def execStrandDeadlock (tile : Core) (s : State) : Out :=
  match s.strand tile with
  | none => notDue s
  | some st =>
    if st.halted || st.dead54 || !deadlocked s tile st then notDue s
    else
      let causes := causeOf st.c + 16 * causeOf st.a + 256 * causeOf st.v + 4096 * causeOf st.m + 65536 * causeOf st.x
      .next (takeFault s st.handle { code := FaultCode.strandDeadlock.bits, core := BitVec.ofNat 8 tile.val, eng := 0,
                                     detail := BitVec.ofNat 20 causes, tick := s.psc, strand := st.index })

/-- A strand has gone past its safe distance (R63, R413); while a stop is pending the fault waits for the end of its tick (R416). -/
def execSafeDistance (tile : Core) (s : State) : Out :=
  match s.strand tile with
  | none => notDue s
  | some st => if !st.overdue s.psc || st.stop.isSome then notDue s else .next (distanceFault s tile)

/-! Stop requests (R367, R368, R402, R405, R459). -/

/-- A stop request reaches a strand: `c` is the greatest text-step count (R402). -/
def Strand.requestStop (st : Strand) (slot : Option Nat) (cancel : Bool) : Strand :=
  let c := (Eng.all.map fun e => (st.eng e).steps.toNat).foldl max 0
  { st with stop := some { c := BitVec.ofNat 64 c, slot, cancel } }

/-- A stop request sent to one strand, with the lowest free save slot (R407); it joins one that is pending (R416). -/
def sendStop (s : State) (t : Core) : Option State :=
  match s.strand t with
  | none => some s
  | some st =>
    if st.stop.isSome then some s
    else match takeSlot s st.job with
      | none => none
      | some (k, s1) => some (s1.setStrand t (st.requestStop (some k) false))

/-- The strands a request for one strand goes to: the whole gang (R405), the highest tile core first (R368). -/
def stopSet (s : State) (t : Core) (st : Strand) : List Core :=
  if st.gang then ((s.strandsOf st.handle).map fun x => x.1).reverse else [t]

/-- The request of one strand of the set is marked, with the launch it is for or as the debugger's. -/
def markStop (s : State) (t : Core) (f : Stop → Stop) : State := s.updStrand t fun q => { q with stop := q.stop.map f }

/-- Requests pending that a launch has sent to tile cores (R367, R368). -/
def requestsAt (s : State) (h : Nat) (ts : List Core) : Nat :=
  (ts.filter fun t => match s.strand t with
    | some st => (match st.stop with | some r => !r.cancel && r.wanted == some h | none => false)
    | none => false).length

/-- The tile cores from which a launch takes one: its team, for a launch that is no gang within the steal scope that `t` lies in. -/
def reach (l : Launch) (t : Core) : List Core := if l.gang then l.cores else l.cores.filter fun c => l.inScope (dieOf t) c

/-- A launch wants more tile cores, within the scope in which `t` lies, than it has asked for: none of them is idle for a runnable strand
(R368), or fewer than a waiting gang needs (R367). -/
def asksMore (s : State) (l : Launch) (t : Core) : Bool :=
  let n := requestsAt s l.handle (reach l t)
  l.cls != .bulk && !l.faulted && !l.cancelled &&
    if l.gang then gangWaiting s l && decide (n < gangShort s l)
    else decide (n < runnableAt s l t) && !((reach l t).any fun c => idleFor s c (some l.handle))

/-- The request that a launch has sent into the scope of `t` is still needed (R367, R368). -/
def stillNeeded (s : State) (h : Nat) (t : Core) : Bool :=
  match s.launch? h with
  | none => false
  | some l =>
    let n := requestsAt s h (reach l t)
    !l.faulted && !l.cancelled &&
      if l.gang then gangWaiting s l && decide (n ≤ gangShort s l)
      else decide (n + ((reach l t).filter fun c => idleFor s c (some h)).length ≤ runnableAt s l t)

/-- The order of R368: lowest class, then lowest priority, then highest global index. -/
def worseVictim (s : State) (a b : Core × Strand) : Bool :=
  let lv := fun (x : Core × Strand) => match s.launch? x.2.handle with | some l => l.level | none => 0
  if a.2.cls != b.2.cls then decide (a.2.cls.bits.toNat > b.2.cls.bits.toNat)
  else if lv a != lv b then decide (lv a < lv b)
  else decide (a.1.val > b.1.val)

/-- The strand that a launch of a class stops among tile cores: of a lower class, asked for by no launch yet; a request that is pending for
another reason is joined (R416). -/
def victim (s : State) (cls : Class) (ts : List Core) : Option Core :=
  let cs := ts.filterMap fun t => match s.strand t with
    | some st => if decide (st.cls.bits.toNat > cls.bits.toNat) && st.wantedBy.isNone && !st.dead54 then some (t, st) else none
    | none => none
  match cs with
  | [] => none
  | x :: xs => some (xs.foldl (fun a b => if worseVictim s b a then b else a) x).1

/-- The launch for which the next request goes to a tile core. -/
def asker (s : State) (t : Core) : Option Nat :=
  (s.launches.find? fun l => l.team.getLsbD t.val && asksMore s l t && victim s l.cls (reach l t) == some t).map fun l => l.handle

/-- A stop request reaches a strand, and with it its gang: for a launch of a higher class (R367, R368), or from a fenced tile core (R459). -/
def execStopRequest (tile : Core) (s : State) : Out :=
  match s.strand tile with
  | none => notDue s
  | some st =>
    let send := fun (h : Option Nat) => match (stopSet s tile st).foldlM sendStop s with
      | none => notDue s
      | some s1 => .next (markStop s1 tile fun r => { r with wanted := h })
    if st.dead54 then notDue s
    else if st.stop.isNone && (s.core tile).fenced then send none
    else
      match asker s tile with
      | some h => send (some h)
      | none => notDue s

/-- A debugger's stop-and-save of a strand (R414); nothing where no save slot is free. -/
def debugStop (tile : Core) (s : State) : State :=
  match s.strand tile with
  | none => s
  | some st =>
    if st.dead54 then s
    else match (stopSet s tile st).foldlM sendStop s with
      | none => s
      | some s1 => markStop s1 tile fun r => { r with debug := true }

/-- The reason for one strand's request holds, or there is none. -/
def reasonHolds (s : State) (t : Core) : Bool :=
  match s.strand t with
  | none => false
  | some st => match st.stop with
    | none => false
    | some r => (s.core t).fenced || r.debug || (match r.wanted with | some h => stillNeeded s h t | none => false)

/-- A request whose need has passed is withdrawn, with its gang's once no need is left (R367, R368, R405), up to the first context of
them that is written (R403). -/
def execStopWithdraw (tile : Core) (s : State) : Out :=
  match s.strand tile with
  | none => notDue s
  | some st =>
    match st.stop with
    | none => notDue s
    | some r =>
      let set := stopSet s tile st
      let saved := st.gang && match s.launch? st.handle with | some l => !l.stopped.isEmpty | none => false
      let saving := saved || set.any fun t => match s.strand t with
        | some q => (match q.stop with | some x => x.saving | none => false)
        | none => false
      let idleReason := match r.wanted with | some h => stillNeeded s h tile | none => false
      if r.cancel || saving || idleReason || (r.wanted.isNone && set.any (reasonHolds s)) then notDue s
      else
        let s1 := markStop s tile fun r => { r with wanted := none }
        .next (if set.any (reasonHolds s1) then s1 else set.foldl dropStop s1)

/-! The stop point (R403 to R405). -/

/-- A cancelled strand is discarded: its deltas with it, no context saved (R404). -/
def discardStrand (s : State) (t : Core) : State :=
  settle (freeCore (dropStop s t) t ((s.strand t).bind Strand.wantedBy))

/-- The stop state is checked once all five engines hold; a CANCEL stop discards the strand when nothing of it is
outstanding (R403, R404). -/
def execStopPointReached (tile : Core) (s : State) : Out :=
  match s.strand tile with
  | none => notDue s
  | some st =>
    match st.stop with
    | none => notDue s
    | some r =>
      let quiet := st.asyncs.isEmpty && st.cmds.isEmpty
      if !st.stopped || st.dead54 || (r.checked && !(r.cancel && !r.saving && quiet)) then notDue s
      else if !st.queuesEmpty || st.pred.length != bits r.entry.2 27 24 then .next (wordFault s tile .c 0 .safeState .atWord)
      else if r.cancel && quiet then .next (discardStrand s tile)
      else .next (s.setStrand tile { st with spdist := 0, stop := some { r with checked := true } })

/-- The gang sequence count a holding strand would have after its stop point (R405). -/
def Strand.candidate (st : Strand) : Nat := st.gangCount.toNat + 1

/-- The cut: strands behind the greatest candidate are released, or the cut is complete (R405). -/
def execGangCut (launch : Nat) (s : State) : Out :=
  match s.launch? launch with
  | none => notDue s
  | some l =>
    let ss := s.strandsOf launch
    let hold := fun (x : Core × Strand) => x.2.stopped && (match x.2.stop with | some r => r.checked && !r.cancel && !r.cut | none => false)
    if !l.gang || ss.isEmpty || !ss.all hold then notDue s
    else
      let q := (ss.map fun x => x.2.candidate).foldl max 0
      if ss.all fun x => x.2.candidate == q then
        .next (ss.foldl (fun s x => s.updStrand x.1 fun st =>
          { st with stop := st.stop.map fun (r : Stop) => { r with cut := true } }) s)
      else
        .next (ss.foldl (fun s x =>
          if x.2.candidate < q then
            s.updStrand x.1 fun st =>
              { (st.allEngs fun g => { g with holding := false }) with
                stop := st.stop.map fun (r : Stop) => { r with checked := false, atLeast := q } }
          else s) s)

/-! Contexts (R403 step 4 and 5, R407 to R410). -/

def slotBase (j : Job) (k : Nat) : Nat := j.spbase + Config.saveSlotBytes * k

/-- A strand that stops counts as having passed its stop point: a SAFE.G raises the gang sequence count (R175, R403). -/
def Strand.countStop (st : Strand) : Strand :=
  match st.stop with
  | some r => if bits r.entry.2 23 23 = 1 then { st with gangCount := st.gangCount + 1 } else st
  | none => st

/-- The parts of a context written by the tile core at their offsets from `base`, 64 bytes at a time; the bytes between them are not
written (R408, R410, R491). A slot or an extension holds them like any cacheable request (R247, R410). -/
def writeContext (t : Core) (st : Strand) (base : Nat) (parts : List (Nat × List Byte)) (s : State) : Partway State :=
  (parts.flatMap fun p => pieces 64 (p.2.length / 64 + 2) (base + p.1) p.2).foldlM (fun s p =>
    Halt.at s (partWrite s t st fetchPart p.1 p.2 false none)) s

/-- The deltas are added to their accumulators and the context is written (R403). -/
def execContextSave (tile : Core) (s : State) : Out :=
  match s.strand tile with
  | none => notDue s
  | some st =>
    match st.stop, s.job? st.job with
    | some r, some j =>
      let ready := st.stopped && r.checked && !r.cancel && !r.saving && (!st.gang || r.cut) && st.asyncs.isEmpty
        && st.cmds.isEmpty && !st.dead54
      if !ready || deltasHeld s tile st then notDue s
      else
        let s1 := flushDeltas s tile none
        let m := masksOf r.entry.2 st.c.depth.toNat
        let parts := contextParts st.countStop (s.core tile).spad m r.entry.1 r.entry.2
        match writeContext tile st (slotBase j (r.slot.getD 0)) parts s1 with
        | .error (.wait (.held a), _) => .next (s.hold (.part tile fetchPart) (dieOf tile) a)
        | .error (.wait _, _) => notDue s
        | .error (.fault c, s2) => .next (wordFault s2 tile .c 0 c .async)
        | .ok s2 => .next (s2.updStrand tile fun q => { q with stop := some { r with saving := true } })
    | _, _ => notDue s

/-- The save is visible at PACKAGE scope: the tile core is free, the strand waits in its launch (R403, R410); a strand
cancelled meanwhile is discarded and its slot freed unread (R416). -/
def execContextSaveComplete (tile : Core) (s : State) : Out :=
  match s.strand tile with
  | none => notDue s
  | some st =>
    match st.stop with
    | none => notDue s
    | some r =>
      let d := dieOf tile
      let under := s.pending.any fun p => p.agent.mate (st.agent tile 0) && (isHost p.addr || homeDie p.addr == d)
      if !r.saving || st.dead54 then notDue s
      else if r.cancel then .next (discardStrand s tile)
      else if under || !s.canRaise d || s.coversHeld (strandCovers s tile st) then notDue s
      else
        let s1 := s.raiseEpoch d
        let x : Stopped := { index := st.index, slot := r.slot.getD 0, die := d, back := st.c.pc + 1, view := strandCovers s1 tile st,
                             clock := (s1.die d).clock, signals := Eng.all.map fun e => (st.eng e).sig, lastTick := st.lastTick }
        let s2 := freeCore (s1.updLaunch st.handle fun l => { l with stopped := l.stopped ++ [x] }) tile r.wanted
        .next (holdIdle s2)

/-! Resumption (R411, R412). -/

/-- What a strand's context gives it on a tile core, with its stop point's entry and depth (R411). `.slotIntrusion`, which no read of a
context raises, says that a slot or an extension holds a line of the context, or of a record that the strand has bound (R247, R423). -/
def restored (s : State) (t : Core) (l : Launch) (j : Job) (x : Stopped) : Except FaultCode (Strand × Nat × Nat) := do
  let base := slotBase j x.slot
  let rd : CtxRead := fun o n =>
    if s.unheld (some t) (dieOf t) j (base + o) n then s.agentRead (some t) (dieOf t) j (base + o) n else .error .slotIntrusion
  let st0 := { acquiring t l (Strand.placed l j x.index) x.view with resumed := true, lastTick := x.lastTick }
  let hb ← cleanPart rd 0 384
  let raw := natOfBytes ((hb.drop 0x140).take 16)
  let depth := natOfBytes ((hb.drop 0x20).take 4)
  spare (depth ≤ 16)
  let st ← restoreStrand rd (masksOf raw depth) st0
  if recordsFree s t j st.slots then
    .ok (Eng.all.zipIdx.foldl (fun q y => q.updEng y.1 fun g => { g with sig := x.signals.getD y.2 {} }) st, raw, depth)
  else .error .slotIntrusion

/-- A strand restored from its context on a tile core: its slot is freed once read; a poisoned part without a poison bit
abandons the placement (R411). -/
def resumeStrand (s : State) (t : Core) (l : Launch) (j : Job) (x : Stopped) : State :=
  let s0 := s.touchRange (some t) (dieOf t) j (slotBase j x.slot) 384
  let s1 := (((clearFor s0 t j true).joinClock (dieOf t) l.clock).joinClock (dieOf t) x.clock).updLaunch l.handle fun l =>
    { l with stopped := l.stopped.filter fun y => y.index != x.index }
  let s2 := freeSlot s1 l.job x.slot
  match restored s t l j x with
  | .error c => wordFault (s2.setStrand t (acquiring t l (Strand.placed l j x.index) x.view)) t .c 0 c .async
  | .ok (st, raw, depth) =>
    let stub := bits raw 63 32
    let st1 := if stub = 0xFFFFFFFF then st.allEngs fun g => { g with pc := x.back }
      else { (st.allEngs fun g => { g with pc := stub }) with
             rebuild := some { depth := BitVec.ofNat 32 depth, pd := bits raw 27 24, back := x.back } }
    let size := (masksOf raw depth).size
    fillRecords ((s2.setStrand t st1).touchRange (some t) (dieOf t) j (slotBase j x.slot + 384) (size - 384)) t

/-- The placement of a stopped strand waits: a read of its context is held, or the gate of R309 is shut. -/
def resumeWaits (s : State) (t : Core) (l : Launch) (j : Job) (x : Stopped) : Bool :=
  !s.gate x.clock || !s.gate l.clock || !s.agentReady (dieOf t) ||
    match restored s t l j x with | .error c => c == .slotIntrusion | .ok _ => false

/-- A stopped strand is placed again, ahead of the unstarted strands of its launch (R368, R411). -/
def execStrandResume (tile : Core) (launch : Nat) (index : BitVec 24) (s : State) : Out :=
  match s.launch? launch with
  | none => notDue s
  | some l =>
    match l.stopped.find? fun x => x.index == index, s.job? l.job with
    | some x, some j =>
      if l.gang || !l.resumable tile || !l.inScope x.die tile || !idleFor s tile (some launch) || !chosen s tile l || outranked s tile l
          || resumeWaits s tile l j x then notDue s
      else .next (resumeStrand (takeTurn s l) tile l j x)
    | _, _ => notDue s

/-! Gangs (R47, R367, R414). -/

/-- Tile cores given to the stopped strands of a gang, each within its scope. -/
def assign (l : Launch) : List Stopped → List Core → Option (List (Stopped × Core))
  | [], _ => some []
  | x :: xs, free =>
    match free.find? fun t => l.inScope x.die t with
    | none => none
    | some t => (assign l xs (free.filter fun c => c != t)).map fun r => (x, t) :: r

/-- A gang is placed, or placed again, on tile cores that are free together (R47). -/
def execGangPlacement (launch : Nat) (s : State) : Out :=
  match s.launch? launch with
  | none => notDue s
  | some l =>
    match s.job? l.job with
    | none => notDue s
    | some j =>
      let idle := l.cores.filter fun t => idleFor s t (some launch)
      let held := fun (t : Core) => (s.core t).heldFor == some launch
      let free := idle.filter fun t => held t || !outranked s t l
      let rivals := (free.filter fun t => !held t).flatMap fun t => (choices s t).filter fun y => y.cls == l.cls
      let unhold := fun (s : State) => s.allCores fun k => if k.heldFor == some launch then { k with heldFor := none } else k
      let go := fun {α : Type} (f : State → Launch → α → Option State) (s0 : State) (xs : List α) =>
        match xs.foldlM (fun s x => match s.launch? launch with
          | some l => if l.faulted then some s else f s l x
          | none => some s) (unhold (takeTurn s0 l)) with
        | some s1 => (.next s1 : Out)
        | none => notDue s
      if !gangWaiting s l || !mayTakeTurn s l (l :: rivals) then notDue s
      else if !l.started then
        let on := free.take l.count
        if on.length < l.count || !on.all (fun t => recordsFree s t j l.bindings) then notDue s
        else go (fun s l (x : Core × Nat) => placeStrand s x.1 l j (BitVec.ofNat 24 x.2))
          (s.updLaunch launch fun l => { l with dealt := l.count }) on.zipIdx
      else
        match assign l l.stopped free with
        | none => notDue s
        | some xs => if xs.any fun x => resumeWaits s x.2 l j x.1 then notDue s
          else go (fun s l (x : Stopped × Core) => some (resumeStrand s x.2 l j x.1)) s xs

/-! CANCEL of a launch (R369, R404). -/

/-- A running command waits without a timeout for ranks that have left it out, or for its wait semaphore (R340). DEDUCED (log 62): it is any
active collective without a timeout whose contributions are not all there. -/
def leftOut (s : State) (c : XCmd) : Bool := c.kind == 0 && c.active && c.tmo == 0 && !readyCmd s c

/-- CANCEL ends such a command with ABORTED. -/
def endLeftOut (s : State) (t : Core) : State :=
  match headCmd s t with
  | some (_, c) => if leftOut s c then finishCmd s t c 4 else s
  | none => s

/-- The end of such a command may release on its die now: the die has raised no epoch in this tick, and the release covers no held write
(R309, R312). -/
def cancelReady (s : State) (h : Nat) : Bool :=
  (s.strandsOf h).all fun x => s.unraised (dieOf x.1) && match headCmd s x.1 with
    | some (st, c) => !(leftOut s c && waitsHeld s x.1 st c)
    | none => true

/-- Unstarted and stopped strands are discarded, running ones stop at their safe points. -/
def cancelLaunch (s : State) (h : Nat) : State :=
  match s.launch? h with
  | none => s
  | some l =>
    let s1 := l.stopped.foldl (fun s x => freeSlot s l.job x.slot) s
    let s2 := s1.updLaunch h fun l => { l with cancelled := true, dealt := l.count, stopped := [] }
    let s3 := s2.allCores fun k =>
      { k with queue := k.queue.filter (fun e => e.1 != h), heldFor := if k.heldFor == some h then none else k.heldFor }
    let s4 := (s3.strandsOf h).foldl (fun s x => endLeftOut s x.1) s3
    (s4.strandsOf h).foldl (fun s x =>
      match x.2.stop with
      | none => s.setStrand x.1 (x.2.requestStop none true)
      | some r =>
        if r.saving then s.setStrand x.1 { x.2 with stop := some { r with cancel := true } }
        else
          let s1 := match r.slot with | some k => freeSlot s l.job k | none => s
          s1.setStrand x.1 { x.2 with stop := some { r with cancel := true, slot := none } }) s4

end Sys2Proof.Machine
end

