-- ==== Sys2Proof/Machine/Packets.lean ====
section
/-! DEFINITION. Host command queues: batches and their validation (R346 to R355), the packets (R351), COPY and FILL (R353), graphs
from their descriptors (R357 to R359), CANCEL (R369), and the close of a phase (R50, R388, R440). -/

namespace Sys2Proof.Machine

/-! Reading packets. -/

/-- The set bits of a mask and the words that replace the registers (R349). -/
def applyWords (sh : Vector DWord 32) (mask : Nat) (ws : List DWord) : Vector DWord 32 :=
  let is := setBitsOf mask 32
  tab 32 fun i => match is.findIdx? fun k => k == i with
    | some n => ws.getD n 0
    | none => sh.toList.getD i 0

def popCount (m : Nat) : Nat := (setBitsOf m 32).length

/-- Where packets are read: the ring, or a buffer of INDIRECT. `pos` and `len` count bytes. -/
structure Stream where
  ring : Bool
  base : Nat
  pos : Nat
  /-- ring size, or the buffer's length -/
  len : Nat
deriving DecidableEq, Repr

/-- Address of the byte at an offset from the position, wrapping in the ring. -/
def Stream.addr (r : Stream) (o : Nat) : Nat := if r.ring then r.base + (r.pos + o) % r.len else r.base + r.pos + o

/-- A word that the front end reads of a job: a poisoned one cannot be used (R496). `.slotIntrusion`, which no such read raises, says that a
slot or an extension holds it (R247, R423). -/
def frontWord (s : State) (j : Job) (a : Nat) : Except FaultCode Nat :=
  if !s.unheld none s.leaderDie j a 8 then .error .slotIntrusion
  else match s.jobWord j a with
    | .error c => .error c
    | .ok (v, p) => if p then .error .poisonSync else .ok v

/-- Word at a byte offset from the position. -/
def Stream.word (s : State) (j : Job) (r : Stream) (o : Nat) : Except FaultCode Nat := frontWord s j (r.addr o)

/-! Mapped ranges (R354 step 4). -/

/-- Every 64 KiB unit of a range is mapped for a use. -/
def mapped (s : State) (j : Job) (va n : Nat) (acc : Access) : Bool :=
  n = 0 || (decide (va + n ≤ 2 ^ 56) &&
    (List.range ((va + n - 1) / 65536 - va / 65536 + 1)).all fun i =>
      (translate s none s.leaderDie j ((va / 65536 + i) * 65536) acc).toOption.isSome)

/-- A range that a packet uses, and how. -/
abbrev Use := Nat × Nat × Access

def counterUses (j : Job) (n : Nat) : List Use :=
  if n = 0 then [] else [(counterAddr j n, 32, .read), (counterAddr j n, 32, .write)]

def allMapped (s : State) (j : Job) (us : List Use) : Bool := us.all fun u => mapped s j u.1 u.2.1 u.2.2

/-- Entries of a walk for some ranges that a slot or an extension holds (R247, R255, R423). -/
def walksHeld (s : State) (j : Job) (us : List Use) : Option Nat :=
  if !s.slotNow && s.extensions.isEmpty then none
  else us.findSome? fun u =>
    if u.2.1 = 0 then none
    else (List.range ((u.1 + u.2.1 - 1) / 65536 - u.1 / 65536 + 1)).findSome? fun i =>
      (walkReads s none s.leaderDie j ((u.1 / 65536 + i) * 65536)).find? fun pa =>
        slotHolds s s.leaderDie (s.anyLeaf pa) || extensionHolds s s.leaderDie (s.anyLeaf pa)

/-- A counter number of a packet or node (R436). -/
def counterOk (j : Job) (v : Nat) : Bool := decide (v < j.nc) && v != Config.phaseCounter

/-! Field checks (R350, R354 step 3). -/

def launchFieldsOk (j : Job) (r : Vector DWord 32) : Bool :=
  let c := creg r
  bits (c 0) 63 56 == 0 && c 0 % 4 == 0 && bits (c 1) 63 57 == 0 && decide (bits (c 1) 56 32 ≤ 16777216) &&
  bits (c 1) 31 0 != 0 && bits (c 2) 63 56 == 0 && c 2 % 8 == 0 &&
  bits (c 6) 63 9 == 0 && bits (c 6) 8 7 != 0 && bits (c 6) 1 0 != 3 && bits (c 7) 63 16 == 0 &&
  (List.range 8).all (fun i => bits (c (8 + i)) 63 56 == 0 && bits (c (8 + i)) 31 24 == 0) &&
  (List.range 16).all (fun k =>
    let idx := if k % 2 = 0 then bits (c (8 + k / 2)) 23 0 else bits (c (8 + k / 2)) 55 32
    if bits (c 7) k k = 1 then decide (idx < j.rtsize) else idx == 0) &&
  counterOk j (c 16)

/-- Ranges of a launch (R354 step 4). -/
def launchUses (j : Job) (r : Vector DWord 32) : List Use :=
  (bits (creg r 0) 55 0, 4 * bits (creg r 1) 31 0, .fetch) :: (creg r 2, 8, .read) :: counterUses j (bits (creg r 16) 15 0)

/-! Graph descriptors (R357 to R359). -/

structure GraphDesc where
  images : List (Vector DWord 32)
  edges : List DWord
deriving DecidableEq, Repr

/-- What validation answers where a slot or an extension holds what it reads: no error code of R354. -/
def errHeld : Nat := 256

def readGraph (s : State) (j : Job) (va : Nat) : Except Nat GraphDesc := do
  let word := fun (k : Nat) => match frontWord s j (va + 8 * k) with
    | .ok v => (Except.ok v : Except Nat Nat)
    | .error c => .error (if c == .slotIntrusion then errHeld else errAddress)
  let w0 ← word 0
  let rest ← (List.range 7).mapM fun k => word (k + 1)
  let nn := bits w0 8 0
  let ne := bits w0 42 32
  if bits w0 63 43 != 0 || bits w0 31 9 != 0 || rest.any (· != 0) || nn = 0 || nn > 256 || ne > 1024 then .error errField
  else
    let images ← (List.range nn).mapM fun n => do
      let ws ← (List.range 32).mapM fun k => word (8 + 32 * n + k)
      .ok (tab 32 fun i => BitVec.ofNat 64 (ws.getD i 0))
    let edges ← (List.range ne).mapM fun k => do
      let w ← word (8 + 32 * nn + k)
      .ok (BitVec.ofNat 64 w)
    .ok { images, edges }

/-- The checks of R359 on one edge. -/
def edgeOk (nn : Nat) (e : DWord) : Bool :=
  let v := e.toNat
  let k := edgeKind e
  decide (edgeFrom e < edgeTo e) && decide (edgeTo e < nn) && decide (k ≤ 3) && bits v 31 13 == 0 &&
  (k == 1 || bits v 44 40 == 0) && (k == 2 || bits v 39 32 == 0) &&
  (if k = 3 then decide (1 ≤ bits v 12 0) && decide (bits v 12 0 ≤ 4096) else bits v 12 0 == 0)

/-- Whether a node is a compaction target, and the size of its batch area (R359). -/
def GraphDesc.target (d : GraphDesc) (n : Nat) : Bool := d.edges.any fun e => edgeTo e == n && edgeKind e == 3
def GraphDesc.image (d : GraphDesc) (n : Nat) : Vector DWord 32 := d.images.getD n (Vector.replicate 32 0)
def GraphDesc.areaSize (d : GraphDesc) (n : Nat) : Nat :=
  match d.edges.find? fun e => edgeTo e == n with
  | some e => 64 + creg (d.image n) 19 * bits e.toNat 12 0 * 32
  | none => 0

/-- Ranges of a graph's nodes (R354 step 4). -/
def graphUses (j : Job) (d : GraphDesc) : List Use :=
  (List.range d.images.length).flatMap fun n =>
    launchUses j (d.image n) ++ if d.target n then [(creg (d.image n) 18, d.areaSize n, .write)] else []

/-- R359 as a whole, then the addresses of R354 step 4: 0, or an error code. -/
def graphCheck (s : State) (j : Job) (d : GraphDesc) : Nat :=
  let nn := d.images.length
  let into := fun (n : Nat) => d.edges.filter fun e => edgeTo e == n
  let img := d.image
  let nodeOk := fun (n : Nat) =>
    launchFieldsOk j (img n) && decide ((d.edges.filter fun e => edgeFrom e == n).length ≤ 16) &&
    (!d.target n || ((into n).length == 1 && bits (creg (img n) 1) 56 32 == 0 && bits (creg (img n) 6) 6 6 == 0
      && bits (creg (img n) 18) 63 56 == 0 && creg (img n) 18 % 64 == 0
      && decide (1 ≤ creg (img n) 19) && decide (creg (img n) 19 ≤ 16777216)))
  let onHbm := fun (n : Nat) =>
    let va := creg (img n) 18
    (List.range ((va + d.areaSize n - 1) / 65536 - va / 65536 + 1)).all fun i =>
      match translate s none s.leaderDie j ((va / 65536 + i) * 65536) .write with
      | .ok l => !isHost l.pa
      | .error _ => false
  if !(d.edges.all fun e => edgeOk nn e) || !((List.range nn).all nodeOk) then errField
  else if (walksHeld s j (graphUses j d)).isSome then errHeld
  else if !allMapped s j (graphUses j d) || !((List.range nn).all fun n => !d.target n || onHbm n) then errAddress
  else 0

/-! One packet's checks (R354 steps 1, 3 and 4). -/

/-- What validation carries from packet to packet. -/
structure Check where
  shadow : Vector DWord 32
  seq : Nat
  /-- the phase that will be current when the next packet executes (R50) -/
  phase : Word
  ord : Nat := 0
  done : List Packet := []

/-- Ranges of a packet that is no graph (R354 step 4). -/
def packetUses (j : Job) (op : Nat) (r : Vector DWord 32) : List Use :=
  let c := creg r
  match op with
  | 1 => launchUses j r
  | 5 => counterUses j (c 21)
  | 6 => counterUses j (c 22)
  | 7 => (c 17, c 19, .read) :: (c 18, c 19, .write) :: counterUses j (c 16)
  | 8 => (c 18, c 19, .write) :: counterUses j (c 16)
  | 9 => [(c 17, 8 * c 19, .read)]
  | 10 => counterUses j (c 23)
  | _ => []

/-- Steps 3 and 4 for a packet whose mask has been applied: 0, or an error code. -/
def fieldCheck (s : State) (j : Job) (phase : Word) (op : Nat) (r : Vector DWord 32) : Nat :=
  let c := creg r
  let reach := fun (us : List Use) => if (walksHeld s j us).isSome then errHeld else if allMapped s j us then 0 else errAddress
  let pick := fun (f : Bool) => if !f then errField else reach (packetUses j op r)
  match op with
  | 1 => pick (launchFieldsOk j r)
  | 2 =>
    if !(counterOk j (c 16)) || bits (c 17) 63 56 != 0 || c 17 % 64 != 0 then errField
    else
      match readGraph s j (c 17) with
      | .error e => e
      | .ok d =>
        let e := graphCheck s j d
        if e ≠ 0 then e
        else reach ((c 17, 64 + 256 * d.images.length + 8 * d.edges.length, .read) :: counterUses j (c 16))
  | 5 => pick (counterOk j (c 21))
  | 6 => pick (counterOk j (c 22))
  | 7 => pick (counterOk j (c 16) && bits (c 17) 63 56 == 0 && bits (c 18) 63 56 == 0 && bits (c 19) 63 40 == 0)
  | 8 => pick (counterOk j (c 16) && bits (c 18) 63 56 == 0 && bits (c 19) 63 40 == 0)
  | 9 => pick (bits (c 17) 63 56 == 0 && bits (c 19) 63 17 == 0 && decide (1 ≤ c 19) && decide (c 19 ≤ 65536))
  | 10 => pick (counterOk j (c 23))
  | 11 => pick (bits (c 24) 63 32 == 0 && c 24 != 0xFFFFFFFF && decide (c 24 ≤ phase.toNat))
  | _ => 0

/-- Steps of R356 for a packet. -/
def seqCost (op : Nat) : Nat := if op = 2 then 256 else if op = 1 ∨ op = 7 ∨ op = 8 then 1 else 0

/-- What reading a batch comes to. -/
inductive Parsed where
  /-- bytes of it have not been appended yet -/
  | wait
  /-- a slot or an extension holds what is read next of it, from the address (R247, R423) -/
  | held (a : Nat)
  /-- the first failure: code and ordinal -/
  | fail (code ord : Nat)
  | batch (ps : List Packet)

/-- The ranges of packet and buffers that an INDIRECT buffer must not overlap (R354 step 5). -/
def overlapsAny (a n : Nat) (rs : List (Nat × Nat)) : Bool := rs.any fun r => decide (a < r.1 + r.2) && decide (r.1 < a + n)

/-- The address range of a packet of `n` bytes at a stream's position. -/
def Stream.here (r : Stream) (n : Nat) : Nat × Nat := (r.base + (if r.ring then r.pos % r.len else r.pos), n)

/-- Validates packets in batch order (R354): the streams stand innermost first, the last one is the ring; `avail` bytes of it
are appended; `opened` tells a BEGIN, which a COMMIT reached through INDIRECT closes too (log 13); `start` and `stop` bound the ring packet in hand. -/
def parse (s : State) (j : Job) (opened : Bool) : Nat → List Stream → Nat → Nat → Nat → Check → Parsed
  | 0, _, _, _, _, _ => .fail errBatch 0
  | _ + 1, [], _, _, _, k => .batch k.done.reverse
  | fuel + 1, r :: rest, avail, start, stop, k =>
    if !r.ring && r.pos ≥ r.len then
      match rest with
      | [top] => if top.ring && !opened then .batch k.done.reverse else parse s j opened fuel rest avail start stop k
      | _ => parse s j opened fuel rest avail start stop k
    else if r.ring && avail < 8 then .wait
    else
      match Stream.word s j r 0 with
      | .error c => if c == .slotIntrusion then .held (r.addr 0) else .fail errAddress k.ord
      | .ok hdr =>
        let op := bits hdr 63 56
        let len := bits hdr 55 48
        let mask := bits hdr 31 0
        let size := 8 + 8 * len
        if r.ring && avail < size then .wait
        else if !r.ring && r.pos + size > r.len then .fail errLength k.ord
        else
          match (List.range len).mapM fun i => Stream.word s j r (8 + 8 * i) with
          | .error c => if c == .slotIntrusion then .held (r.addr 0) else .fail errAddress k.ord
          | .ok ws =>
            let start := if r.ring then r.pos % r.len else start
            let stop := if r.ring then (r.pos + size) % r.len else stop
            if op = 0 ∨ op > 12 ∨ bits mask 31 27 ≠ 0 then .fail errOpcode k.ord
            else if len ≠ popCount mask then .fail errLength k.ord
            else if bits hdr 47 33 ≠ 0 then .fail errOpcode k.ord
            else if (op = 3 ∧ k.ord > 0) ∨ (op = 4 ∧ !opened) ∨ k.ord ≥ 4096 then .fail errBatch k.ord
            else
              let sh := applyWords k.shadow mask (ws.map fun w => BitVec.ofNat 64 w)
              let e := fieldCheck s j k.phase op sh
              if e = errHeld then .held (r.addr 0)
              else if e ≠ 0 then .fail e k.ord
              else
                let closes := op = 11 ∧ BitVec.ofNat 32 (creg sh 24) = k.phase
                let seq := if closes then 0 else k.seq + seqCost op
                let p : Packet := { op := BitVec.ofNat 8 op, bar := bits hdr 32 32 == 1, mask := BitVec.ofNat 32 mask,
                                    words := ws.map fun w => BitVec.ofNat 64 w, start, next := stop, ord := k.ord }
                let k1 : Check := { shadow := sh, seq, phase := if closes then k.phase + 1 else k.phase, ord := k.ord + 1,
                                    done := p :: k.done }
                let r1 := { r with pos := r.pos + size }
                let left := if r.ring then avail - size else avail
                let nested := (rest.length : Nat)
                if op = 9 then
                  let buf : Stream := { ring := false, base := creg sh 17, pos := 0, len := 8 * creg sh 19 }
                  let outer := (r :: rest).filterMap fun x => if x.ring then none else some (x.base, x.len)
                  if nested ≥ 4 ∨ overlapsAny buf.base buf.len (r.here size :: outer) then .fail errDepth k.ord
                  else if seq > 2 ^ 24 then .fail errResource k.ord
                  else parse s j opened fuel (buf :: r1 :: rest) left start stop k1
                else if seq > 2 ^ 24 then .fail errResource k.ord
                else if r.ring && (op = 4 || (!opened && op != 3)) then .batch k1.done.reverse
                else parse s j ((opened || op == 3) && op != 4) fuel (r1 :: rest) left start stop k1

/-- A ring in the host window is out of reach once the Fepel Link is out of service (R22, log 67). -/
def ringCut (s : State) (j : Job) (k : Queue) : Bool :=
  !s.card.fepel && match translate s none s.leaderDie j k.ring .read with
    | .ok l => isHost l.pa
    | .error _ => false

/-- The leader's front end acts for a queue: its writes would apply, and nothing holds the queue's state block (R247, R309, R348, R371). -/
def queueReady (s : State) (k : Queue) : Bool :=
  frontEndActs s && s.agentReady s.leaderDie && match s.job? k.job with
    | some j => s.unheld none s.leaderDie j k.state 512
    | none => true

/-- The next batch of a queue that has none in hand is validated (R354); what a slot or an extension holds of it is read later. -/
def frontEnd (s : State) (q : BitVec 8) : State :=
  match s.queue? q with
  | none => s
  | some k =>
    match s.job? k.job with
    | none => s
    | some j =>
      if k.halted || k.tearing || k.hold != .none || !k.batch.isEmpty then s
      else if k.lostWrite then haltQueue s q errAddress 0
      else if k.unread = 0 || ringCut s j k || !mayIssue s (.queue q) then s
      else
        let size := 2 ^ k.lg
        let ring : Stream := { ring := true, base := k.ring, pos := k.head, len := size }
        match parse s j false 16384 [ring] k.unread k.head k.head
            { shadow := k.shadow, seq := k.lseq, phase := j.phase } with
        | .wait => s
        | .held a => s.hold (.queue q) s.leaderDie ((s.heldAt none s.leaderDie j a 8).getD 0)
        | .fail c o => haltQueue (s.letGo (.queue q)) q c o
        | .batch ps => (s.letGo (.queue q)).updQueue q fun k => { k with batch := ps }

/-! The doorbell (R347, R355). -/

/-- The card's doorbell register holds the value last written (R461). -/
def setDoorbell (s : State) (q : BitVec 8) (v : BitVec 40) : State :=
  { s with card := { s.card with doorbells := (q, v) :: s.card.doorbells.filter fun x => x.1 != q } }

/-- A write that the card refuses (R462). -/
def refuseWrite (s : State) (offset : Nat) : State :=
  signalHost { s with card := { s.card with refused := s.card.refused + 1 } } (.refused offset)

/-- The leader's front end acts, and its writes would apply (R309, R371). -/
def frontReady (s : State) : Bool := frontEndActs s && s.agentReady s.leaderDie

/-- A halted queue goes on from the head and the shadow of its state block (R355). DESIGN CHOICE (log 76): of a head that software has set
outside the ring the low bits count, and one that is no multiple of 8 is taken as it is. -/
def resumeQueue (s : State) (q : BitVec 8) (k : Queue) (j : Job) : State :=
  match s.agentRead none s.leaderDie j k.state 264 with
  | .ok (b, false) =>
    let h := natOfBytes ((b.drop 256).take 8)
    let s1 := s.updQueue q fun k =>
      { k with halted := false, head := h % 2 ^ k.lg, unread := (k.tail + 2 ^ k.lg - h % 2 ^ k.lg) % 2 ^ k.lg
               shadow := tab 32 fun i => BitVec.ofNat 64 (natOfBytes ((b.drop (8 * i)).take 8)) }
    frontEnd s1 q
  | _ => haltQueue s q errAddress 0

/-- The front end takes the doorbell that waits on a queue, once it can (R347, R355, R371). -/
def takeBell (s : State) (q : BitVec 8) : State :=
  match s.queue? q with
  | none => s
  | some k =>
    match k.bell, s.job? k.job with
    | some value, some j =>
      if !queueReady s k then s
      else
      let s1 := s.updQueue q fun k => { k with bell := none }
      let v := value.toNat
      if v % 8 ≠ 0 ∨ v ≥ 2 ^ k.lg then haltQueue s1 q errDoorbell 0
      else
        let s2 := s1.updQueue q fun k => { k with tail := v, unread := k.unread + (v + 2 ^ k.lg - k.tail) % 2 ^ k.lg }
        if k.halted then resumeQueue s2 q k j else frontEnd s2 q
    | _, _ => s

/-- Every doorbell that waits is taken. -/
def takeBells (s : State) : State := s.queues.foldl (fun s k => takeBell s k.q) s

/-- A doorbell write (R347, R461): the card keeps the value, and the front end takes it, at once or when a leader acts again (R371). The
write itself is still on its way while a slot or an extension holds the Fepel Link (R23, R247, R423), and gets no farther than the card once that link has
failed (R22). -/
def execDoorbell (q : BitVec 8) (value : DWord) (s : State) : Out :=
  if s.card.stage != 7 || bits value.toNat 63 40 != 0 then .next (refuseWrite s (8 * q.toNat))
  else if !s.card.fepel then .next (setDoorbell s q (value.setWidth 40))
  else if (s.slotNow && s.majorSlot) || s.extensions.any fun x => x.1 == 5 then notDue s
  else .next (takeBell ((setDoorbell s q (value.setWidth 40)).updQueue q fun k => { k with bell := some value }) q)

/-! Executing packets (R352). -/

/-- Work of a queue that has not completed (R349). -/
def queueWork (s : State) (q : BitVec 8) : Bool :=
  s.launches.any (fun l => l.queue == q) || s.graphs.any (fun g => g.queue == q) || s.copies.any fun c => c.queue == q

/-- What a packet's execution comes to. -/
inductive Executed where
  | done (s : State)
  /-- it holds its queue, with what it has done -/
  | hold (h : Hold) (s : State)
  /-- it cannot execute yet -/
  | later
  /-- an access of R496 failed -/
  | halt (s : State)

/-- A packet is behind it: at a batch's end the head moves and the state block is written (R348). -/
def finishPacket (s : State) (q : BitVec 8) : State :=
  match s.queue? q with
  | none => s
  | some k =>
    match k.batch with
    | [] => s
    | p :: rest =>
      let s1 := s.updQueue q fun k => { k with batch := rest, hold := .none, met := none, atPhase := false }
      if !rest.isEmpty then s1
      else
        let s2 := s1.updQueue q fun k =>
          { k with head := p.next, unread := k.unread - ((p.next + 2 ^ k.lg - k.head - 1) % 2 ^ k.lg + 1) }
        match writeBlock s2 q with
        | .ok s3 => frontEnd s3 q
        | .error _ => haltQueue s2 q errAddress 0

/-- Counters that a packet reads or writes as it executes. -/
def packetRanges (j : Job) (op : Nat) (r : Vector DWord 32) : List (Job × Nat × Nat) :=
  match op with
  | 1 | 2 | 7 | 8 => counterRange j (bits (creg r 16) 15 0)
  | 5 => counterRange j (bits (creg r 21) 15 0)
  | 6 => counterRange j (bits (creg r 22) 15 0)
  | _ => []

/-- The packet in hand of a queue executes, when it has the opcode: its words first, then its effect (R349, R352). A lost
write halts the queue instead, at the boundary before the packet (R496). A doorbell that waits is taken first, and a queue with no packet in
hand goes on reading; what a slot or an extension holds joins the requests held (R247, R312, R423). -/
def packetStep (q : BitVec 8) (op : Nat) (mayHold : Hold) (f : State → Queue → Job → Executed) (s : State) : Out :=
  match s.queue? q with
  | none => notDue s
  | some k =>
    if !queueReady s k then notDue s
    else if k.bell.isSome then .next (takeBell s q)
    else
    match k.batch, s.job? k.job with
    | p :: _, some j =>
      if k.halted || k.tearing || p.op.toNat != op || (k.hold != .none && k.hold != mayHold)
          || (p.bar && k.hold == .none && queueWork s q) then notDue s
      else if k.lostWrite && k.hold == .none then .next (haltQueue s q errAddress p.ord)
      else
        let k1 := { k with shadow := if k.hold == .none then applyWords k.shadow p.mask.toNat p.words else k.shadow }
        match s.gateStep (.queue q) s.leaderDie (packetRanges j op k1.shadow) with
        | some s1 => .next s1
        | none =>
          match f (s.letGo (.queue q)) k1 j with
          | .done s1 => .next (finishPacket (s1.updQueue q fun k => { k with shadow := k1.shadow }) q)
          | .hold h s1 => .next (s1.updQueue q fun k => { k with shadow := k1.shadow, hold := h })
          | .later => notDue s
          | .halt s1 => .next (haltQueue s1 q errAddress p.ord)
    | [], some _ => .next (frontEnd s q)
    | _, none => notDue s

/-- Arming for a packet: it waits while the counter is PENDING (R438). -/
def armThen (s : State) (j : Job) (n : Nat) (f : State → Executed) : Executed :=
  match counterState s j n with
  | .error _ => .halt s
  | .ok v =>
    if v = 1 then .later
    else match armCounter s j n with
      | .error _ => .halt s
      | .ok s1 => f s1

/-- The identity of R356, and the sequence moved on. -/
def nextIdent (k : Queue) : Word := BitVec.ofNat 32 (k.q.toNat * 2 ^ 24 + k.lseq)
def bumpSeq (s : State) (q : BitVec 8) (n : Nat) : State := s.updQueue q fun k => { k with lseq := k.lseq + n }

def execLaunchPacket (q : BitVec 8) (s : State) : Out :=
  packetStep q 1 .none (fun s k j =>
    armThen s j (bits (creg k.shadow 16) 15 0) fun s1 =>
      let l := launchFrom s1 k.job q (nextIdent k) j.phase none s1.fresh k.shadow
      let s2 := bumpSeq s1 q 1
      match atOnce l with
      | some f => .done (settle (finishCounter s2 k.job q l.counter f))
      | none => .done (addLaunch s2 l k.acq)) s

/-- Compaction edges of a graph, each with its target's batch area (R363). -/
def batchesOf (s : State) (j : Job) (d : GraphDesc) : List Batches :=
  d.edges.zipIdx.filterMap fun x =>
    if edgeKind x.1 != 3 then none
    else
      let img := d.images.getD (edgeTo x.1) (Vector.replicate 32 0)
      let area := creg img 18
      let die := match translate s none s.leaderDie j area .write with | .ok l => homeDie l.pa | .error _ => 0
      some { edge := x.2, source := edgeFrom x.1, target := edgeTo x.1, bsize := bits x.1.toNat 12 0, area, cap := creg img 19, die }

def execGraphPacket (q : BitVec 8) (s : State) : Out :=
  packetStep q 2 .none (fun s k j =>
    match readGraph s j (creg k.shadow 17) with
    | .error e => if e = errHeld then .later else .halt s
    | .ok d =>
      armThen s j (bits (creg k.shadow 16) 15 0) fun s1 =>
        let g : Graph := { handle := s1.fresh, job := k.job, queue := q, counter := bits (creg k.shadow 16) 15 0, base := (nextIdent k).toNat,
                           phase := j.phase, images := d.images, edges := d.edges, batches := batchesOf s1 j d, acq := k.acq }
        let s2 := bumpSeq { s1 with graphs := s1.graphs ++ [g], fresh := s1.fresh + 1 } q 256
        .done (settle s2)) s

def execBeginPacket (q : BitVec 8) (s : State) : Out := packetStep q 3 .none (fun s _ _ => .done s) s
def execCommitPacket (q : BitVec 8) (s : State) : Out := packetStep q 4 .none (fun s _ _ => .done s) s
def execNopPacket (q : BitVec 8) (s : State) : Out := packetStep q 12 .none (fun s _ _ => .done s) s
/-- The buffer's packets stand behind it in the batch (R351, R354). -/
def execIndirectPacket (q : BitVec 8) (s : State) : Out := packetStep q 9 .none (fun s _ _ => .done s) s

/-- The counter a WAIT names is final, idle or null (R436, R438), or has been while the WAIT waited (R435); its release is acquired (R307,
R351). -/
def waitPacketOp (s : State) (k : Queue) (j : Job) : Executed :=
  let n := bits (creg k.shadow 21) 15 0
  let acquire := fun (r : Released) => Executed.done (s.updQueue k.q fun k => { k with acq := k.acq.join r })
  match k.met with
  | some r => acquire r
  | none =>
    match counterState s j n with
    | .error _ => .halt s
    | .ok v => if v = 1 then .hold .wait s else acquire (counterRel j n)
def execWaitPacket (q : BitVec 8) (s : State) : Out := packetStep q 5 .none waitPacketOp s

def execWaitSatisfied (q : BitVec 8) (s : State) : Out :=
  match s.queue? q with
  | none => notDue s
  | some k =>
    if k.hold != .wait then notDue s
    else packetStep q 5 .wait (fun s k j => match waitPacketOp s k j with | .hold _ _ => .later | r => r) s

/-- SIGNAL arms its counter, and completes it once the queue's earlier work has completed (R351, R438): it releases what the queue has
acquired and what the front end has written (log 41). -/
def signalOp (q : BitVec 8) (s : State) (k : Queue) (j : Job) : Executed :=
  let n := bits (creg k.shadow 22) 15 0
  let complete := fun (s : State) =>
    if queueWork s q || !s.unraised s.leaderDie then .hold .signal s
    else match finalCounter s j n {} with
      | .error _ => .halt s
      | .ok s1 => .done (settle ((counterMet s1 j.no n { wide := k.acq.at s.leaderDie |>.join (frontCovers s).wide }).raiseEpoch s1.leaderDie))
  if n = 0 then .done s
  else if k.hold == .signal then (if queueWork s q || !s.unraised s.leaderDie then .later else complete s)
  else armThen s j n complete
def execSignalPacket (q : BitVec 8) (s : State) : Out := packetStep q 6 .signal (signalOp q) s

/-- A packet with a bar bit proceeds once the queue's earlier work has completed (R349). -/
def execBarRelease (q : BitVec 8) (s : State) : Out :=
  match s.queue? q with
  | none => notDue s
  | some k =>
    match k.batch with
    | [] => notDue s
    | p :: rest =>
      if !frontEndActs s || k.halted || !p.bar || k.hold != .none || queueWork s q then notDue s
      else .next (s.updQueue q fun k => { k with batch := { p with bar := false } :: rest })

/-! COPY and FILL (R353). -/

def copyOrFill (q : BitVec 8) (fill : Bool) (s : State) (k : Queue) (j : Job) : Executed :=
  let n := bits (creg k.shadow 16) 15 0
  armThen s j n fun s1 =>
    let s2 := bumpSeq s1 q 1
    if creg k.shadow 19 = 0 then .done (settle (finishCounter s2 k.job q n {}))
    else
      let w : CopyWork := { handle := s2.fresh, job := k.job, queue := q, ident := nextIdent k, phase := j.phase
                            src := creg k.shadow 17, dst := creg k.shadow 18, len := creg k.shadow 19
                            pattern := if fill then some (k.shadow.toList.getD 20 0) else none, counter := n
                            view := (dispatchAcq s2 k.job k.acq).at s2.leaderDie }
      .done { s2 with copies := s2.copies ++ [w], fresh := s2.fresh + 1 }
def execCopyPacket (q : BitVec 8) (s : State) : Out := packetStep q 7 .none (copyOrFill q false) s
def execFillPacket (q : BitVec 8) (s : State) : Out := packetStep q 8 .none (copyOrFill q true) s

/-- An access of a COPY or FILL to bytes of a unit: it waits while a slot, an extension or requests held before it hold them (R247, R312,
R423). -/
def frontAccess (s : State) (j : Job) (w : CopyWork) (va n : Nat) (acc : Access) : Except Halt Leaf :=
  match s.heldAt none s.leaderDie j va n with
  | some pa => await (.held pa)
  | none =>
    match translate s none s.leaderDie j va acc with
    | .error c => raise c
    | .ok l => if mayIssue s (.work w.handle) then .ok l else await (.held l.pa)

/-- A run of source bytes read by the front end, indivisible (R299); it waits for the writes that the command has acquired (R303). -/
def frontRead (s : State) (j : Job) (w : CopyWork) (v : View) (va n : Nat) : Except Halt (State × View × List (Byte × Bool)) := do
  let l ← frontAccess s j w va n .read
  let me := workAgent s.leaderDie w.handle
  if s.awaits me v l.pa n then await .writes
  else
    let k := look s.mem (s.plain l.key) s.past me v (Config.freeValue s.draws) l.pa n
    let s1 := (if k.drew then { s with draws := s.draws + 1 } else s).touch l false
    .ok (s1, { v with ids := k.from_.foldl (fun ids u => natInsert ids u.id) v.ids }, k.bytes.map fun b => (b, k.poison))

/-- Source bytes at some addresses. -/
def frontBytes (j : Job) (w : CopyWork) (as : List Nat) (s : State) (v : View) : Except Halt (State × View × List (Byte × Bool)) :=
  (sourceRuns as).foldlM (fun r p => do
    let (s1, v1, bs) ← frontRead r.1 j w r.2.1 p.1 p.2
    .ok (s1, v1, r.2.2 ++ bs)) (s, v, [])

/-- Destination units of a COPY or FILL, with the destination and source address of each byte (R353). -/
def CopyWork.units (w : CopyWork) : List (List (Nat × Nat)) :=
  gatherUnits ((List.range w.len).map fun n => (w.dst + n, w.src + n))

/-- The bytes of a destination unit: the pattern's, or the source's; a destination byte that lies in the source range holds some byte of
that range, as it stood or as the command wrote it, which a free value says (R280, R353). -/
def CopyWork.bytes (j : Job) (w : CopyWork) (u : List (Nat × Nat)) (s : State) : Except Halt (State × View × List (Byte × Bool)) :=
  let inside := fun (d : Nat) => decide (w.src ≤ d) && decide (d < w.src + w.len)
  match w.pattern with
  | some v => .ok (s, w.view, u.map fun x => (BitVec.ofNat 8 (v.toNat / 2 ^ (8 * ((x.1 - w.dst) % 8))), false))
  | none =>
    if !u.any fun x => inside x.1 then frontBytes j w (u.map Prod.snd) s w.view
    else u.foldlM (fun r x => do
      let (f, s1) := r.1.draw
      let (s2, v2, b) ← if inside x.1 then frontBytes j w [w.src + f.toNat % w.len] s1 r.2.1 else frontBytes j w [x.2] r.1 r.2.1
      .ok (s2, v2, r.2.2 ++ b)) (s, w.view, [])

/-- One destination unit copied, indivisibly (R353), with writer engine code 0b111 (R248): the work as it stands then. -/
def frontOne (j : Job) (w : CopyWork) (k : Nat) (u : List (Nat × Nat)) (s : State) : Except Halt (State × CopyWork) := do
  let (s1, v, bs) ← w.bytes j u s
  let d := s1.leaderDie
  let va := (u.head?.map Prod.fst).getD 0
  let l ← frontAccess s1 j w va u.length .write
  let wid : WriterId := { phase := w.phase, launch := w.ident, strand := 0, eng := 7, seq := va - w.dst }
  let wid := if j.det && l.dm == 1 then some wid else none
  if directoryFull s1 l.pa wid then raise .detIllegal
  else
    let (p, s2) := s1.number (workAgent d w.handle) {} l (bs.map Prod.fst) (bs.any Prod.snd) wid
    .ok (s2.applyWrite { p with mixed := if bs.all Prod.snd then [] else bs.map Prod.snd } j.phase,
      { w with view := { v with ids := natInsert v.ids p.id }, done := natInsert w.done k, held := false
               poisoned := w.poisoned || (bs.any Prod.snd && !isHost l.pa) })

/-- Units copied in order, until one fails or waits. -/
def frontUnits (j : Job) : List (Nat × List (Nat × Nat)) → CopyWork → State → State × CopyWork × Option Halt
  | [], w, s => (s, w, none)
  | (k, u) :: us, w, s =>
    if w.done.contains k then frontUnits j us w s
    else
      match frontOne j w k u s with
      | .error h => (s, w, some h)
      | .ok (s1, w1) => frontUnits j us w1 s1

/-- The work as it stands now. -/
def putWork (s : State) (w : CopyWork) : State := { s with copies := s.copies.map fun x => if x.handle == w.handle then w else x }

/-- A COPY or FILL has ended: its counter becomes final, as a release (R353, R439); not yet while the counter is held, or the release
covers a held write (R312). -/
def copyEnd (s : State) (w : CopyWork) (e : Option FaultCode) : State :=
  let v := s.covers (workAgent s.leaderDie w.handle) w.view
  if !counterFree s w.job w.counter || s.coversHeld v then putWork s w
  else
    let f : Final := match e with
      | some c => { also := { poisoned := w.poisoned, fault := true }, nflt := 1
                    record := some { code := c.bits, core := 0, eng := 5, detail := 0, tick := s.psc, strand := 0 } }
      | none => { also := { poisoned := w.poisoned } }
    let s1 := finishCounter { s with copies := s.copies.filter fun x => x.handle != w.handle } w.job w.queue w.counter f { wide := v }
    settle (s1.raiseEpoch s1.leaderDie)

/-- How far a COPY or FILL has come. -/
def copyGone (r : State × CopyWork × Option Halt) (ended : State → CopyWork → State) : State :=
  match r with
  | (s, w, none) => ended s w
  | (s, w, some (.fault c)) => copyEnd s w (some c)
  | (s, w, some (.wait (.held a))) => (putWork s { w with held := true }).hold (.work w.handle) s.leaderDie a
  | (s, w, some (.wait _)) => putWork s { w with held := false }

/-- The copy or fill runs to its end, or gets as far as a slot or an extension lets it. -/
def execCopyFillComplete (work : Nat) (s : State) : Out :=
  match s.copies.find? fun w => w.handle == work with
  | none => notDue s
  | some w =>
    match s.job? w.job with
    | none => notDue s
    | some j =>
      if !frontReady s || !s.unraised s.leaderDie then notDue s
      else .next (copyGone (frontUnits j (w.units.zipIdx.map fun x => (x.2, x.1)) w s) fun s w => copyEnd s w none)

/-- One unit copied ahead of the rest; nothing where the front end cannot act. -/
def frontAhead (work unit : Nat) (s : State) : State :=
  match s.copies.find? fun w => w.handle == work with
  | none => s
  | some w =>
    match s.job? w.job, w.units[unit]? with
    | some j, some u =>
      if !frontReady s || !s.unraised s.leaderDie then s else copyGone (frontUnits j [(unit, u)] w s) putWork
    | _, _ => s

/-! CANCEL (R369). -/

/-- Every node of a graph without a final status takes CANCELLED. -/
def cancelGraph (s : State) (gh : Nat) : State :=
  match s.graph? gh with
  | none => s
  | some g =>
    let s1 := s.updGraph gh fun g => { g with cancelled := true }
    graphTurn (g.running.foldl (fun s x => cancelLaunch s x.2) s1) gh

/-- The launches that a CANCEL of a counter reaches. -/
def cancelled (s : State) (job : Word) (n : Nat) : List Nat :=
  ((s.launches.filter fun l => l.job == job && l.counter == n).map fun l => l.handle) ++
    (s.graphs.filter fun g => g.job == job && g.counter == n).flatMap fun g => g.running.map Prod.snd

/-- The launches and graphs of a job whose counter it is. -/
def cancelCounter (s : State) (job : Word) (n : Nat) : State :=
  if n = 0 then s
  else
    let s1 := (s.launches.filter fun l => l.job == job && l.counter == n).foldl (fun s l => cancelLaunch s l.handle) s
    settle ((s1.graphs.filter fun g => g.job == job && g.counter == n).foldl (fun s g => cancelGraph s g.handle) s1)

def execCancelPacket (q : BitVec 8) (s : State) : Out :=
  packetStep q 10 .none (fun s k _ =>
    let n := bits (creg k.shadow 23) 15 0
    if n != 0 && !((cancelled s k.job n).all (cancelReady s)) then .later else .done (cancelCounter s k.job n)) s

/-! Phases (R50, R388, R440). -/

def execPhasePacket (q : BitVec 8) (s : State) : Out :=
  packetStep q 11 .none (fun s k j =>
    if BitVec.ofNat 32 (creg k.shadow 24) = j.phase then .hold .phase (s.updQueue q fun k => { k with atPhase := true })
    else .done s) s

/-- Work of a job that has no final status. -/
def jobWork (s : State) (job : Word) : Bool :=
  s.launches.any (fun l => l.job == job) || s.graphs.any fun g => g.job == job

/-- A phase counter that cannot be written: no queue is concerned more than another. DESIGN CHOICE (log 64): every queue of the job halts
with ADDRESS at its next packet boundary, as for a counter written at the end of work (R496). -/
def phaseWriteLost (s : State) (job : Word) : State :=
  { s with queues := s.queues.map fun k => if k.job == job then { k with lostWrite := true } else k }

/-- Every die's Derailleur may write and release (R309, R390). -/
def derailleursReady (s : State) : Bool := [(0 : Fin 4), 1, 2, 3].all fun d => s.agentReady d && s.unraised d

/-- What a phase close releases to every strand of the next phase (R307): what its launches have released, to any die, and what the
Derailleurs have written. -/
def closeReleases (s : State) (j : Job) : View :=
  ([0, 1, 2, 3] : List (Fin 4)).foldl (fun v d => (v.join (j.done.at d)).join (s.covers (derailleurAgent d) {})) {}

/-- The leader's die takes every die's clock (R309): a step that all dies release. -/
def joinAll (s : State) : State := ([0, 1, 2, 3] : List (Fin 4)).foldl (fun s d => s.joinClock s.leaderDie (s.die d).clock) s

/-- Every Derailleur evaluates the touched records of which it is home (R388, R389), and releases them (R307); the phase counter becomes OK
(R440). The step waits while a slot or an extension holds a record or the counter (R247, R423). -/
def execPhaseClose (job : Word) (s : State) : Out :=
  match s.job? job with
  | none => notDue s
  | some j =>
    let qs := s.queues.filter fun k => k.job == job
    if j.evaluated || qs.isEmpty || !(qs.all fun k => k.atPhase && !k.halted) || jobWork s job || !frontReady s || !derailleursReady s then
      notDue s
    else
      match (List.range j.rtsize).findSome? (homeHeld s j), s.gateStep (.job job) s.leaderDie (counterRange j Config.phaseCounter) with
      | some x, _ => .next (s.hold (.job job) x.1 x.2)
      | none, some s1 => .next s1
      | none, none =>
        let s1 := (List.range j.rtsize).foldl (fun s i => phaseCloseRecord s job i) (s.letGo (.job job))
        let s2 := joinAll (([0, 1, 2, 3] : List (Fin 4)).foldl State.raiseEpoch (s1.updJob job fun j =>
          { j with evaluated := true, acq := j.acq.join { wide := closeReleases s1 j }, done := {} }))
        .next (match counterWord s2 j Config.phaseCounter 0 with
          | .error _ => phaseWriteLost s2 job
          | .ok w =>
            match putCounter s2 j Config.phaseCounter (w / 2 ^ 32 * 2 ^ 32 + (if j.emergency then 256 else 0) + Status.ok.code) 0 0 0 with
            | .ok s3 => s3
            | .error _ => phaseWriteLost s2 job)

/-! Record updates (R377). -/

/-- Bytes of a record or policy entry written at its home; the update is lost where the table cannot be written. -/
def writeUpdate (s : State) (j : Job) (va : Nat) (bs : List Byte) : State :=
  (s.writeAs (derailleurAgent (homeOf s j va)) none j va bs false none).1

/-- A created record's 256 bytes (R375, R377). -/
def createdRecord (image : List Byte) : List Byte :=
  let w := fun (k : Nat) => natOfBytes ((image.drop (8 * k)).take 8)
  let e := ringEntry ((ringFmt (bits (w 6) 31 28)).getD .bf16) (signed8 (bits (w 6) 23 16)) 1
  let ctl := bits (w 6) 23 16 * 2 ^ 56 + bits (w 10) 5 0
  (List.range 32).flatMap fun k => bytesOfNat 8 (
    if k < 6 then w k
    else if k = 6 then e
    else if k = 10 then ctl
    else if k = 31 then 0x80 + 0x80 * 256
    else 0)

/-- Bytes of a stamp table (R259). -/
def stampLength (count : Nat) : Nat := ((count + 65535) / 65536 + 63) / 64 * 64

/-- Ranges that an update writes at their homes. -/
def updateRanges (j : Job) (u : RecordUpdate) : List (Nat × Nat) :=
  let w := fun (k : Nat) => natOfBytes ((u.image.drop (8 * k)).take 8)
  match u.kind.toNat with
  | 0 => [(recAddr j u.index, 256), (bits (w 5) 55 0, stampLength (bits (w 2) 39 0))]
  | 1 => [(recAddr j u.index, 256)]
  | _ => [(j.pobase + 16 * u.index, 16)]

/-- One that a slot or an extension holds: the home die, and the address. -/
def updateHeld (s : State) (j : Job) (u : RecordUpdate) : Option (Fin 4 × Nat) :=
  (updateRanges j u).findSome? fun r =>
    let d := homeOf s j r.1
    (s.heldAt none d j r.1 r.2).map fun pa => (d, pa)

/-- One update applied (R377): a record with its stamp table and granules, a deletion, or a policy entry. -/
def applyUpdate (s : State) (job : Word) (u : RecordUpdate) : State :=
  match s.job? job with
  | none => s
  | some j =>
    match u.kind.toNat with
    | 0 =>
      let w := fun (k : Nat) => natOfBytes ((u.image.drop (8 * k)).take 8)
      let s1 := writeUpdate s j (recAddr j u.index) (createdRecord u.image)
      let s2 := writeUpdate s1 j (bits (w 5) 55 0) (List.replicate (stampLength (bits (w 2) 39 0)) 1)
      s2.updJob job fun j => { j with granules := j.granules.filter (fun x => x.1 != u.index)
                                      counts := j.counts.filter fun x => x.1 != u.index }
    | 1 =>
      let s1 := writeUpdate s j (recAddr j u.index) (List.replicate 256 0)
      s1.updJob job fun j => { j with counts := j.counts.filter fun x => x.1 != u.index }
    | _ => writeUpdate s j (j.pobase + 16 * u.index) u.image

/-- The phase counter armed for a phase that opens (R440). -/
def armPhase (s : State) (j : Job) (phase : Word) : State :=
  match putCounter s j Config.phaseCounter (phase.toNat * 2 ^ 32 + 1) 0 0 0 with
  | .ok s1 => s1
  | .error _ => phaseWriteLost s j.no

/-- The phase number advances (R50): deferred updates (R377), the directory of the new parity (R251), launch sequences (R356), the
phase counter (R440), and the queues go on; the next phase's strands acquire the updates (R307). -/
def execPhaseAdvance (job : Word) (s : State) : Out :=
  match s.job? job with
  | none => notDue s
  | some j =>
    if !j.evaluated || !frontReady s || !derailleursReady s then notDue s
    else
      match j.deferred.findSome? (updateHeld s j), s.gateStep (.job job) s.leaderDie (counterRange j Config.phaseCounter) with
      | some x, _ => .next (s.hold (.job job) x.1 x.2)
      | none, some s1 => .next s1
      | none, none =>
      let s1 := j.deferred.foldl (fun s u => applyUpdate s job u) (s.letGo (.job job))
      let next := j.phase + 1
      let s2 := joinAll (([0, 1, 2, 3] : List (Fin 4)).foldl State.raiseEpoch (s1.updJob job fun j =>
        { j with phase := next, deferred := [], evaluated := false, emergency := false, acq := j.acq.join { wide := closeReleases s1 j } }))
      let s3 := if j.det then
          { s2 with dies := s2.dies.map fun d => { d with writers := d.writers.filter fun w => w.phase.toNat % 2 != next.toNat % 2 } }
        else s2
      let s4 := armPhase s3 j next
      let mine := s4.queues.filter fun k => k.job == job
      let s5 := mine.foldl (fun s k => s.updQueue k.q fun k => { k with lseq := 0 }) s4
      .next (mine.foldl (fun s k => if k.atPhase then finishPacket s k.q else s) s5)

end Sys2Proof.Machine
end

