-- ==== Sys2Proof/Machine/Calendar.lean ====
section
/-! DEFINITION. The maintenance calendar (R417 to R426), error windows and links (R444, R457, R458), and the leader lease (R371,
R372). Sensor readings and the findings of maintenance come from outside (log 12). -/

namespace Sys2Proof.Machine

/-! The calendar table (R424). -/

/-- The 64 bytes of the table. -/
def calendarBytes (s : State) : List Byte :=
  bytesOfNat 8 (2 ^ 56 + 2 * 2 ^ 48) ++ bytesOfNat 8 s.aligned.toNat ++ bytesOfNat 8 (s.ovcnt.toNat * 2 ^ 32) ++
    bytesOfNat 8 s.ovlast.toNat ++ bytesOfNat 16 0x00E1000500100000 ++ bytesOfNat 16 0x014F003000100100

/-- The leader writes the table where it has published it; not while a slot or an extension holds its line (R247, R423), after which it is
written. -/
def publish (s : State) : State :=
  match s.calendar with
  | none => s
  | some a => if agentFree s s.leaderDie a 64 then hostStore s a (calendarBytes s) else s

/-! Slots (R419, R420). -/

/-- The drain lead begins: from here requests of the slot's mask are held, or refused under STRICT (R155, R293, R294). -/
def execDrainLeadStart (s : State) : Out :=
  if s.inLead && !s.inBody && s.slot == .outside && !s.card.hold then .next { s with slot := .lead } else notDue s

/-- The die whose end of an edge, numbered as in R456, detects and logs its events. DESIGN CHOICE (log 54): the lower of its two. -/
def edgeDie (u : Nat) : Fin 4 := match u with | 1 => 2 | 3 => 1 | _ => 0

/-- The die that detects an event of a link (R22). -/
def linkDie (kind : BitVec 4) (u : Nat) : Fin 4 :=
  match kind.toNat with
  | 3 => edgeDie u
  | 4 => ⟨u / 3 % 4, Nat.mod_lt _ (by decide)⟩
  | _ => 0

/-- LINK-DOWN (R457): the link is out of service, and the host is told at once. -/
def linkDown (s : State) (kind : BitVec 4) (u detail : Nat) : State :=
  let s1 := logEvent s (linkDie kind u) 0x43 kind (BitVec.ofNat 16 u) (BitVec.ofNat 32 detail) s.psc
  let c := s1.card
  signalHost (i := .event 0x43 kind (BitVec.ofNat 16 u)) { s1 with card :=
    match kind.toNat with
    | 3 => { c with edges := c.edges &&& ~~~(BitVec.ofNat 4 (2 ^ u)) }
    | 4 => { c with ports := c.ports &&& ~~~(BitVec.ofNat 12 (2 ^ u)) }
    | _ => { c with fepel := false } }

/-- Links declared lasting leave service in a major slot (R458). -/
def fenceLinks (s : State) : State :=
  s.lasting.foldl (fun s x =>
    if x.1 = 6 ∧ s.card.edges.getLsbD x.2 then linkDown s 3 x.2 1
    else if x.1 = 7 ∧ s.card.ports.getLsbD x.2 then linkDown s 4 x.2 1
    else s) s

/-- R469: hot from 105 °C until every die is below 100 °C. -/
def hotAfter (was : Bool) (temps : List Int) : Bool :=
  temps.any (fun x => decide (x ≥ 105)) || (was && temps.any fun x => decide (x ≥ 100))

/-- The slot body begins: one temperature and one voltage reading per die; in a major slot the dies note their epochs (R309)
and lasting links leave service. A reading of 115 or more is a thermal trip's (log 12). -/
def execSlotBodyStart (temps volts : List Int) (s : State) : Out :=
  if !s.inBody || s.slot == .body || s.card.hold || temps.length != 4 || volts.length != 4
      || temps.any (fun x => decide (x ≥ 115)) then notDue s
  else
    let epochs : VClock := tab 4 fun k => (s.dies.toList.getD k Die.reset).clock.toList.getD k 0
    let dies := tab 4 fun k =>
      let d := s.dies.toList.getD k Die.reset
      { d with temp := temps.getD k 0, volt := volts.getD k 0, noted := if s.majorSlot then epochs else d.noted }
    let s1 := { s with slot := .body, dies, card := { s.card with hot := hotAfter s.card.hot temps } }
    .next (if s.majorSlot then fenceLinks s1 else s1)

/-- Signed 16-bit readings. -/
def tempBytes (l : List Int) (n : Nat) : List Byte := (List.range n).flatMap fun i => bytesOfNat 2 (BitVec.ofInt 16 (l.getD i 0)).toNat

/-- The sensor block of R470. -/
def sensorBytes (s : State) (w : Sweep) : List Byte :=
  bytesOfNat 8 s.psc.toNat ++ bytesOfNat 4 w.power.toNat ++ bytesOfNat 4 w.duty.toNat ++ tempBytes w.dieTemps 4 ++
    tempBytes w.stackTemps 12 ++ bytesOfNat 4 w.inlet.toNat ++
    bytesOfNat 4 (s.dies.toList.foldl (fun n d => n + d.lost.toNat) 0) ++ List.replicate 200 0

/-- An action that has not finished begins an extension (R423): the overrun flag of every strand on the package. -/
def beginExtension (s : State) (kind : BitVec 4) (unit : BitVec 16) : State :=
  let s1 := { s with extensions := s.extensions ++ [(kind, unit, 0)] }
  s1.allCores fun k => { k with strand := k.strand.map fun (st : Strand) => { st with ovr := true } }

/-- The leader writes the card's sensor block over the Fepel Link (R470): not without a leader, nor once that link has failed (R22). -/
def reportSensors (s : State) (bs : List Byte) : Card :=
  match s.leader with
  | some d => if (s.die d).alive && s.card.fepel then { s.card with sensors := bs, sensorsOld := s.card.sensors, sensorsAt := some s.psc } else s.card
  | none => s.card

/-- Resources of R418 as R456 numbers them: stacks, edges, ports, the Fepel Link. -/
def resourceOk (kind : BitVec 4) (unit : BitVec 16) (major : Bool) : Bool :=
  match kind.toNat with
  | 6 => decide (unit.toNat < 12)
  | 3 => major && decide (unit.toNat < 4)
  | 4 => major && decide (unit.toNat < 12)
  | 5 => major && unit == 0
  | _ => false

/-- The slot whose end this is was a major one, or the catch-up slot, after which no slot has started yet (R419, R426). -/
def wasMajor (s : State) : Bool :=
  let b := s.psc.toNat - s.psc.toNat % Config.minorPeriod
  decide (b < s.catchUp) || b % Config.majorPeriod == 0

/-- Bytes of a stack that one scrub step covers, and those of a stack (R243). -/
def scrubStep : Nat := 2097152
def stackBytes : Nat := 68719476736

/-- The granule lies in the scrub step at hand (R243), and no write to it is pending, which the scrub would skip (R260). -/
def scrubs (s : State) (g : Nat) : Bool :=
  let a := 32 * g
  decide (a < Config.hbmBytes) && decide (s.scrub ≤ stackOffset a) && decide (stackOffset a < s.scrub + scrubStep)
    && !s.pending.any fun p => overlap p.addr p.bytes.length a 32

/-- The slot ends: what is held may issue (R312); unfinished actions extend (R423); after a major slot the clocks catch up
(R309), the sensors are reported (R470), the duty is set (R468, R469), and the findings of the scrub step stand, corrected ones in the ring of
the granule's die (R243, R456). The calendar table is brought up to date, and graphs go on. A reading of 115 or more is a thermal trip's
(log 12). -/
def execSlotEnd (sweep : Sweep) (s : State) : Out :=
  let major := wasMajor s
  let hot := hotAfter s.card.hot sweep.dieTemps
  let okSweep := sweep.dieTemps.length == 4 && sweep.stackTemps.length == 12 && decide (16 ≤ sweep.duty.toNat)
    && decide (sweep.duty.toNat ≤ 64) && (!hot || sweep.duty == 16) && sweep.scrubbed.all (scrubs s) && sweep.corrected.all (scrubs s)
    && (sweep.dieTemps ++ sweep.stackTemps).all fun x => decide (x < 115)
  let okRuns := sweep.overruns.all fun x => resourceOk x.1 x.2 major
  if s.inBody || s.slot != .body || s.card.hold || !okRuns || (major && !okSweep) then notDue s
  else
    let s1 := { s with slot := .outside }
    let s2 := sweep.overruns.foldl (fun s x => beginExtension s x.1 x.2) s1
    let go : State → Out := fun s => .next (settle (publish s))
    if !major then go s2
    else
      let dies := s2.dies.map fun d => { d with clock := d.clock.join d.noted }
      let dies2 := tab 4 fun k => { dies.toList.getD k Die.reset with temp := sweep.dieTemps.getD k 0 }
      let s3 := { s2 with dies := dies2, card := { reportSensors s2 (sensorBytes s2 sweep) with duty := sweep.duty, hot }
                          scrub := (s2.scrub + scrubStep) % stackBytes }
      let s4 := sweep.scrubbed.foldl (fun s g => memPoisoned s g false) s3
      go (sweep.corrected.foldl (fun s g =>
        correctedError s (homeDie (32 * g)) 2 (BitVec.ofNat 16 (pseudoChannel (32 * g)))) s4)

/-- Start of the slot whose end a tick is (R417): the catch-up slot's until a later slot has started (R426). -/
def slotStartBefore (s : State) (t : Nat) : DWord :=
  let b := t - t % Config.minorPeriod
  if b < s.catchUp then s.aligned else BitVec.ofNat 64 b

/-- An extension ends (R423): its event, its window, and the calendar's overrun fields. -/
def execExtensionEnd (kind : BitVec 4) (unit : BitVec 16) (s : State) : Out :=
  match s.extensions.find? fun x => x.1 == kind && x.2.1 == unit with
  | none => notDue s
  | some x =>
    let s1 := { s with extensions := s.extensions.erase x
                       ovcnt := if s.ovcnt = 0xFFFFFFFF then s.ovcnt else s.ovcnt + 1, ovlast := s.psc }
    let start := slotStartBefore s (s.psc.toNat - x.2.2)
    let s2 := signalHost (logEvent s1 s1.leaderDie 0x41 kind unit (BitVec.ofNat 32 x.2.2) start) (.event 0x41 kind unit)
    .next (settle (publish (countWindow s2 9 kind unit)))

/-! Error windows (R444) and links (R426, R457). -/

/-- The reset of a tick that is a multiple of 2^30; where no step makes it, it is made as the tick passes. -/
def execErrorWindowReset (s : State) : Out :=
  if s.psc.toNat % Config.windowPeriod == 0 && s.windowAt != s.psc && !s.card.hold then .next (resetWindows s) else notDue s

/-- A flit is retried on a link (R444). -/
def execFlitRetried (kind : BitVec 4) (unit : BitVec 16) (s : State) : Out :=
  match kind.toNat with
  | 3 => if unit.toNat < 4 then .next (countWindow s 6 kind unit) else notDue s
  | 4 => if unit.toNat < 12 then .next (countWindow s 7 kind unit) else notDue s
  | 5 => if unit = 0 then .next (countWindow s 8 kind unit) else notDue s
  | _ => notDue s

/-- A link in service is lost (R457). -/
def execLinkFailure (kind : BitVec 4) (unit : BitVec 16) (s : State) : Out :=
  let u := unit.toNat
  let up := match kind.toNat with
    | 3 => decide (u < 4) && s.card.edges.getLsbD u
    | 4 => decide (u < 12) && s.card.ports.getLsbD u
    | 5 => u == 0 && s.card.fepel
    | _ => false
  if up then .next (linkDown s kind u 2) else notDue s

/-- A Chainline link trains after boot: refused where the skew exceeds 4 ticks (R426). -/
def execLinkTrained (port : BitVec 4) (skew : Nat) (s : State) : Out :=
  let u := port.toNat
  if s.card.stage != 7 || decide (u ≥ 12) || s.card.ports.getLsbD u || s.lasting.contains (7, u) then notDue s
  else if skew > 4 then .next (linkDown s 4 u 0)
  else .next { s with card := { s.card with ports := s.card.ports ||| BitVec.ofNat 12 (2 ^ u) } }

/-! The leader lease (R371, R372). -/

def execLeaseRenew (s : State) : Out :=
  match s.leader with
  | none => notDue s
  | some d =>
    let k := s.die d
    if k.alive && decide (k.lease > 0) && decide (k.sinceRenew ≥ Config.renewTicks) then
      let s1 := { (s.updDie d fun k => { k with lease := Config.leaseTicks, sinceRenew := 0 }) with leaderStopped := false }
      .next (settle (takeBells s1))
    else notDue s

def execLeaderStop (s : State) : Out :=
  match s.leader with
  | none => notDue s
  | some d =>
    if decide ((s.die d).lease ≤ Config.stopMargin) && !s.leaderStopped then .next { s with leaderStopped := true }
    else notDue s

/-- The lowest die whose supervisor is alive. -/
def lowestAlive (s : State) : Option (Fin 4) := [(0 : Fin 4), 1, 2, 3].find? fun d => (s.die d).alive

/-- A batch is not committed to execution: none is in hand, or its first packet is still to execute, or waits there (R372, R373). -/
def Queue.uncommitted (k : Queue) : Bool :=
  match k.batch with
  | p :: _ => p.ord == 0 && (k.hold == .none || k.hold == .wait || k.hold == .bar)
  | [] => true

/-- The new leader goes on with a queue from its state block (R348, R372): head, shadow and launch sequence are read again, and the batch
is validated again; a block that cannot be read halts the queue (R496). -/
def takeOver (s : State) (q : BitVec 8) : State :=
  match s.queue? q with
  | none => s
  | some k =>
    match s.job? k.job with
    | none => s
    | some j =>
      if k.halted || k.tearing || !k.uncommitted || !s.unheld none s.leaderDie j k.state 512 then s
      else
        match s.agentRead none s.leaderDie j k.state 288 with
        | .ok (b, false) =>
          let w := fun (o : Nat) => natOfBytes ((b.drop o).take 8)
          let h := w 256 % 2 ^ k.lg
          let s1 := s.updQueue q fun k =>
            { k with head := h, unread := if h = k.head then k.unread else (k.tail + 2 ^ k.lg - h) % 2 ^ k.lg
                     shadow := tab 32 fun i => BitVec.ofNat 64 (w (8 * i))
                     lseq := if w 280 % 2 ^ 24 = k.lseq % 2 ^ 24 then k.lseq else w 280 % 2 ^ 24, batch := [], hold := .none
                     atPhase := false }
          frontEnd s1 q
        | _ => haltQueue s q errAddress 0

/-- The new leader can read a queue's state block, or never will: it lies behind a Fepel Link that has failed (R22, log 67). -/
def blockReachable (s : State) (n : Fin 4) (k : Queue) : Bool :=
  match s.job? k.job with
  | none => true
  | some j => s.unheld none n j k.state 512 || (!s.card.fepel && match lookupLeaf s none n j k.state with
    | .ok e => isHost e.pbase
    | .error _ => false)

/-- The lease lapses and passes to the lowest live die, which publishes the calendar again, goes on with every queue (R372), and takes the
doorbells that wait. -/
def execLeaseLapse (s : State) : Out :=
  match s.leader, lowestAlive s with
  | some d, some n =>
    if (s.die d).lease ≠ 0 || !s.agentReady n || !s.queues.all (blockReachable s n) then notDue s
    else
      let s1 := { (s.updDie n fun k => { k with lease := Config.leaseTicks, sinceRenew := 0 }) with leader := some n, leaderStopped := false }
      .next (settle (takeBells (s1.queues.foldl (fun s k => takeOver s k.q) (publish s1))))
  | _, _ => notDue s

/-- A die's supervisor fails, or is alive again (R371). -/
def supervisorMove (d : Fin 4) (up : Bool) (s : State) : State := s.updDie d fun k => { k with alive := up }

end Sys2Proof.Machine
end

