-- ==== Sys2Proof/Machine/Xmss.lean ====
section
/-! DEFINITION. SHAKE of FIPS 202 and the signatures XMSS-SHAKE_20_256 of RFC 8391, which R466 and R467 name and do not restate (log 11). -/

namespace Sys2Proof.Machine

/-! Keccak-f[1600] and SHAKE (FIPS 202). Lane (x, y) of the state is number x + 5 y. -/

/-- The bit that rc(t) gives: the low bit of the register after `t` steps. -/
def keccakBit (t : Nat) : Bool :=
  ((List.range t).foldl (fun (r : Nat) _ => if r ≥ 128 then (2 * r - 256) ^^^ 0x71 else 2 * r) 1) % 2 == 1

/-- The constant of round `n`. -/
def keccakConst (n : Nat) : BitVec 64 :=
  (List.range 7).foldl (fun k j => if keccakBit (7 * n + j) then k ||| BitVec.ofNat 64 (2 ^ (2 ^ j - 1)) else k) 0

/-- The lane that rho and pi reach after `t` moves from (1, 0). -/
def keccakPlace (t : Nat) : Nat × Nat := (List.range t).foldl (fun p _ => (p.2, (2 * p.1 + 3 * p.2) % 5)) (1, 0)

/-- Lanes in the order in which rho and pi visit them, with their rotations. -/
def keccakMoves : List (Nat × Nat) := (List.range 24).map fun t => (let p := keccakPlace t; p.1 + 5 * p.2, (t + 1) * (t + 2) / 2 % 64)

def keccakRound (a : List (BitVec 64)) (n : Nat) : List (BitVec 64) :=
  let at_ := fun (l : List (BitVec 64)) (i : Nat) => l.getD i 0
  let c := (List.range 5).map fun x => (List.range 5).foldl (fun v y => v ^^^ at_ a (x + 5 * y)) 0
  let t := (List.range 25).map fun i => at_ a i ^^^ at_ c ((i + 4) % 5) ^^^ (at_ c ((i + 1) % 5)).rotateLeft 1
  let b := (List.range 25).map fun i =>
    let x := i % 5
    let y := i / 5
    let from_ := (x + 3 * y) % 5 + 5 * x
    (at_ t from_).rotateLeft (((keccakMoves.find? fun m => m.1 == from_).map Prod.snd).getD 0)
  (List.range 25).map fun i =>
    let r := fun (k : Nat) => at_ b ((i % 5 + k) % 5 + 5 * (i / 5))
    (r 0 ^^^ (~~~(r 1) &&& r 2)) ^^^ (if i = 0 then keccakConst n else 0)

def keccak (a : List (BitVec 64)) : List (BitVec 64) := (List.range 24).foldl keccakRound a

/-- A block of bytes taken into the state. -/
def absorb (a : List (BitVec 64)) (block : List Byte) : List (BitVec 64) :=
  keccak ((List.range 25).map fun i => a.getD i 0 ^^^ BitVec.ofNat 64 (natOfBytes ((block.drop (8 * i)).take 8)))

/-- `n` bytes, at most a block, of SHAKE with blocks of `rate` bytes. -/
def shake (rate n : Nat) (m : List Byte) : List Byte :=
  let last := m.length % rate
  let pad : List Byte := (List.range (rate - last)).map fun i =>
    (if i = 0 then 0x1F else 0) ||| (if i + 1 = rate - last then 0x80 else 0)
  let all := m ++ pad
  let a := (List.range (all.length / rate)).foldl (fun a k => absorb a ((all.drop (rate * k)).take rate)) (List.replicate 25 0)
  (a.flatMap fun w => bytesOfNat 8 w.toNat).take n

def shake128 (m : List Byte) : List Byte := shake 168 32 m
def shake256 (m : List Byte) : List Byte := shake 136 32 m

/-! The functions of RFC 8391 for n = 32, w = 16, 67 chains, height 20. -/

/-- A number as bytes, the most significant first. -/
def toByte (v n : Nat) : List Byte := (bytesOfNat n v).reverse

/-- The four keyed functions: F 0, H 1, H_msg 2, PRF 3. -/
def keyed (kind : Nat) (key m : List Byte) : List Byte := shake128 (toByte kind 32 ++ key ++ m)

def xorAll (a b : List Byte) : List Byte := List.zipWith (· ^^^ ·) a b

/-- A hash address: its type, 0 for a chain, 1 for an L-tree, 2 for the tree, and the four words after it. -/
def hashAddress (kind a b c mask : Nat) : List Byte := toByte 0 12 ++ [kind, a, b, c, mask].flatMap fun v => toByte v 4

/-- Step number `i` of chain `chain` of leaf `leaf`. -/
def chainStep (seed : List Byte) (leaf chain : Nat) (x : List Byte) (i : Nat) : List Byte :=
  let prf := fun (mask : Nat) => keyed 3 seed (hashAddress 0 leaf chain i mask)
  keyed 0 (prf 0) (xorAll x (prf 1))

/-- `n` steps of a chain from number `i` on. -/
def chainFrom (seed : List Byte) (leaf chain i n : Nat) (x : List Byte) : List Byte :=
  (List.range n).foldl (fun x k => chainStep seed leaf chain x (i + k)) x

/-- RAND_HASH at an address without its mask word. -/
def randHash (seed : List Byte) (kind a b c : Nat) (l r : List Byte) : List Byte :=
  let prf := fun (mask : Nat) => keyed 3 seed (hashAddress kind a b c mask)
  keyed 1 (prf 0) (xorAll l (prf 1) ++ xorAll r (prf 2))

/-- One level of an L-tree: neighbours hashed, an odd last node kept. -/
def nodeLevel (seed : List Byte) (leaf height : Nat) : Nat → List (List Byte) → List (List Byte)
  | i, a :: b :: rest => randHash seed 1 leaf height i a b :: nodeLevel seed leaf height (i + 1) rest
  | _, l => l

/-- The root of the L-tree over the ends of a leaf's 67 chains. -/
def lTree (seed : List Byte) (leaf : Nat) (ends : List (List Byte)) : List Byte :=
  ((List.range 7).foldl (fun l h => nodeLevel seed leaf h 0 l) ends).headD []

/-- The 67 digits of a 32-byte digest: its own 64, the most significant first, and the three of the checksum. -/
def digits (m : List Byte) : List Nat :=
  let base : List Byte → List Nat := fun bs => bs.flatMap fun b => [b.toNat / 16, b.toNat % 16]
  let own := base m
  let sum := own.foldl (fun n d => n + (15 - d)) 0
  own ++ (base (toByte (16 * sum) 2)).take 3

/-- The digest that a signature of index `leaf` signs. -/
def messageDigest (r root : List Byte) (leaf : Nat) (m : List Byte) : List Byte := keyed 2 (r ++ root ++ toByte leaf 32) m

/-- The root to which a signature leads. -/
def rootFrom (seed : List Byte) (leaf : Nat) (ots auth : List (List Byte)) (digest : List Byte) : List Byte :=
  let ends := (digits digest).zipIdx.map fun x => chainFrom seed leaf x.2 x.1 (15 - x.1) (ots.getD x.2 [])
  (List.range 20).foldl (fun node k =>
    let sib := auth.getD k []
    let at_ := randHash seed 2 0 k (leaf / 2 ^ (k + 1))
    if leaf / 2 ^ k % 2 = 0 then at_ node sib else at_ sib node) (lTree seed leaf ends)

/-- Byte strings of 32 in a row. -/
def strings32 (n : Nat) (b : List Byte) : List (List Byte) := (List.range n).map fun i => (b.drop (32 * i)).take 32

/-- XMSS_verify of RFC 8391 for XMSS-SHAKE_20_256, whose OID is 9: a 68-byte public key, a 2,820-byte signature, a message. -/
def xmssVerify (key sig m : List Byte) : Bool :=
  let root := (key.drop 4).take 32
  let leaf := natOfBytes (sig.take 4).reverse
  let d := messageDigest ((sig.drop 4).take 32) root leaf m
  key.take 4 == toByte 9 4 && decide (leaf < 2 ^ 20)
    && rootFrom (key.drop 36) leaf (strings32 67 (sig.drop 36)) (strings32 20 (sig.drop 2180)) d == root

/-! Signing with the package's attestation key, whose secrets are free (R467). -/

def attestSeed : List Byte := (List.range 32).map Config.attestSeed
def attestPrf : List Byte := (List.range 32).map Config.attestPrf
/-- The secret start of a chain of a leaf. -/
def attestSecret (leaf chain : Nat) : List Byte := (List.range 32).map (Config.attestSecret leaf chain)

/-- The node of the attestation key's tree at a height, over the leaves from `i` 2^height on. -/
def attestNode : Nat → Nat → List Byte
  | 0, leaf => lTree attestSeed leaf ((List.range 67).map fun c => chainFrom attestSeed leaf c 0 15 (attestSecret leaf c))
  | h + 1, i => randHash attestSeed 2 0 h i (attestNode h (2 * i)) (attestNode h (2 * i + 1))

/-- XMSS_sign of RFC 8391: the 2,820-byte signature of a message with a leaf. -/
def xmssSign (leaf : Nat) (m : List Byte) : List Byte :=
  let r := keyed 3 attestPrf (toByte leaf 32)
  let d := messageDigest r (attestNode 20 0) leaf m
  toByte leaf 4 ++ r ++ ((digits d).zipIdx.flatMap fun x => chainFrom attestSeed leaf x.2 0 x.1 (attestSecret leaf x.2)) ++
    (List.range 20).flatMap fun k => attestNode k (leaf / 2 ^ k ^^^ 1)

end Sys2Proof.Machine
end

