-- ==== Sys2Proof/Machine/Card.lean ====
section
/-! DEFINITION. The host adapter card and boot: the register window (R461, R462), reset and thermal trip (R465, R469), the boot
stages and the image (R465, R466), the alignment of `psc` (R426), loss of power (R467). What trains, arrives or is measured comes
from outside (log 12). -/

namespace Sys2Proof.Machine

/-! Reading the window (R461, R462, R470). -/

/-- Boot status (R462). -/
def bootStatus (c : Card) : Nat := c.stage.toNat * 2 ^ 40 + c.err.toNat * 2 ^ 32 + c.svn.toNat

/-- A 64-bit read of the card's window by the host: a write-only register and any other offset read as zero, and so does a doorbell that has
not been written (log 26). A read of the sensor block in the tick of its write returns the old or the new word, as a free value says
(R470). -/
def registerRead (s : State) (offset : Nat) : DWord × State :=
  let c := s.card
  if offset % 8 ≠ 0 then (0, s)
  else if offset < 0x800 then (((c.doorbells.find? fun x => x.1.toNat == offset / 8).map fun x => x.2.setWidth 64).getD 0, s)
  else if offset = 0x1000 then (BitVec.ofNat 64 (bootStatus c), s)
  else if offset = 0x1008 then (BitVec.ofNat 64 (boolsNat [c.hold, c.trip]), s)
  else if offset = 0x1010 then (c.powerCap.setWidth 64, s)
  else if offset = 0x1020 then (c.refused, s)
  else if 0x2000 ≤ offset ∧ offset < 0x2100 then
    let word := fun (b : List Byte) => BitVec.ofNat 64 (natOfBytes ((b.drop (offset - 0x2000)).take 8))
    if c.sensorsAt == some s.psc then
      let (f, s1) := s.draw
      (word (if f.getLsbD 0 then c.sensors else c.sensorsOld), s1)
    else (word c.sensors, s)
  else (0, s)

/-! The host's memory and request blocks (R463). -/

/-- Bytes at a host physical address lie in the host window's 128 TiB (R240, R464). -/
def hostInside (h n : Nat) : Bool := decide (h + n ≤ 2 ^ 47)

/-- The physical address of the host window behind a host physical address (R240, R463). -/
def hostPhys (h : Nat) : Nat := Config.hostBase + h % 2 ^ 47

/-- A little-endian number in host memory. -/
def hostNum (s : State) (h n : Nat) : Nat := natOfBytes (s.mem.bytes (hostPhys h) n)

/-- A request block as the leader reads it (R463). -/
structure Block where
  code : Nat
  len : Nat
  seq : Word
  cpl : Nat
  /-- the header's checks hold -/
  ok : Bool
  /-- body words -/
  body : List Nat
deriving DecidableEq, Repr

def blockAt (s : State) (a : DWord) : Block :=
  let w0 := hostNum s a.toNat 8
  let cpl := hostNum s (a.toNat + 8) 8
  let len := bits w0 47 32
  { code := bits w0 63 56, len, seq := BitVec.ofNat 32 w0, cpl
    ok := bits w0 55 48 == 0 && len % 8 == 0 && decide (len ≤ 4032) && cpl % 8 == 0 && hostInside cpl 16 && hostNum s (a.toNat + 16) 48 == 0
    body := (List.range (len / 8)).map fun k => hostNum s (a.toNat + 64 + 8 * k) 8 }

def Block.word (b : Block) (k : Nat) : Nat := b.body.getD k 0

/-! Reset. -/

/-- What stays of memory when the package is reset or loses power: the host's own (log 3). -/
def hostMem (m : Mem) : Mem :=
  { cells := m.cells.filter (fun c => isHost c.1), poison := m.poison.filter fun g => isHost (32 * g) }

/-- The floor, the open block and the mailbox's head as the leader may have left them when it is stopped: an accepted image may have raised the
floor by the end of stage 4, and a burn under way counts as spent (R466, R467). -/
def floorRaised (c : Card) (b : Bool) : DWord := if b && c.stage == 4 && decide (c.floor.toNat < c.version.toNat) then c.version else c.floor

/-- The leader can take requests up, and answer them over the Fepel Link, which no slot and no extension holds (R22, R247, R293, R371,
R423, R463). -/
def hostReady (s : State) : Bool :=
  frontReady s && s.card.fepel && !s.slotNow && !s.extensions.any fun x => x.1 == 5

def mailReady (s : State) : Bool := hostReady s && s.card.serving.isNone

/-- A burn of an attestation block that a stop may interrupt (R467): a sound ATTEST request at the mailbox's head, which the leader can take
up, no block open, and one left. -/
def burnPending (s : State) : Bool :=
  mailReady s && (match s.card.block with | some b => decide (b.2 ≥ 1024) | none => true) && decide (s.card.spent < 1024) &&
    (match s.card.mailbox with
     | a :: _ =>
       let b := blockAt s a
       b.code == 9 && b.ok && b.len == 72 && hostInside (b.word 8) 2828
     | [] => false)

def spentAfter (s : State) (b : Bool) : Nat := if b && burnPending s then s.card.spent + 1 else s.card.spent

/-- The package held in reset: every job's state is lost; the card's own registers, the one-time-programmable storage and the
host's memory stay (R461, R465, R467, R469). Whether the hold comes after a raise of the floor, or cuts a burn, free values say. -/
def packageReset (s0 : State) : State :=
  let (f, s) := s0.draw
  { State.reset with
    focusTile := s.focusTile, focusEng := s.focusEng, agenda := s.agenda, draws := s.draws, fresh := s.fresh
    mem := hostMem s.mem
    card := { doorbells := s.card.doorbells, trip := s.card.trip, powerCap := s.card.powerCap, refused := s.card.refused
              sensors := s.card.sensors, sensorsOld := s.card.sensorsOld, sensorsAt := none, interrupts := s.card.interrupts
              keyHash := s.card.keyHash, floor := floorRaised s.card (f.getLsbD 0), spent := spentAfter s (f.getLsbD 1)
              block := if spentAfter s (f.getLsbD 1) = s.card.spent then s.card.block else none } }

/-- A write to reset control (R461): trip clears on a 1, hold takes its bit; hold cleared starts the boot with `psc` at 0
(R465). -/
def resetControl (v : DWord) (s : State) : State :=
  if bits v.toNat 63 2 ≠ 0 then refuseWrite s 0x1008
  else
    let s1 := { s with card := { s.card with trip := s.card.trip && !v.getLsbD 1 } }
    if v.getLsbD 0 then packageReset s1
    else if s.card.hold then { s1 with psc := 0, card := { s1.card with hold := false, stage := 1 } }
    else s1

def execResetHold (value : DWord) (s : State) : Out := .next (resetControl value s)

/-- The write that clears the latched trip (R461). -/
def execTripClear (value : DWord) (s : State) : Out :=
  if value.getLsbD 1 then .next (resetControl value s) else notDue s

/-- 115 °C on a die or a stack (R469): readings of the four dies and the twelve stacks. -/
def execThermalTrip (temps : List Int) (s : State) : Out :=
  if temps.length == 16 && temps.any fun x => decide (x ≥ 115) then
    .next (packageReset { s with card := { s.card with trip := true } })
  else notDue s

/-- Power is lost (R465, R467): an interrupted floor write leaves the old or the new value, an interrupted burn counts as spent; the
flag tells whether a write had begun. -/
def execPowerLoss (floorWritten : Bool) (s : State) : Out :=
  .next { State.reset with
    focusTile := s.focusTile, focusEng := s.focusEng, agenda := s.agenda, draws := s.draws, fresh := s.fresh
    mem := hostMem s.mem
    card := { keyHash := s.card.keyHash, floor := floorRaised s.card floorWritten, spent := spentAfter s floorWritten } }

/-- The card is reset: the power cap is 2,200 (R461). -/
def execCardReset (s : State) : Out := .next { s with card := { s.card with powerCap := 2200 } }

/-! The other registers (R461, R462, R463). -/

/-- A power cap the register takes. -/
def capOk (v : DWord) : Bool := bits v.toNat 63 12 == 0 && decide (600 ≤ v.toNat) && decide (v.toNat ≤ 2200)

def execPowerCap (value : DWord) (s : State) : Out :=
  if capOk value then .next { s with card := { s.card with powerCap := value.setWidth 12 } } else .next (refuseWrite s 0x1010)

/-- A mailbox write that is refused (R463): the request being served does not wait. -/
def mailboxRefused (s : State) (addr : DWord) : Bool :=
  s.card.stage != 7 || addr.toNat % 64 != 0 || decide (s.card.mailbox.length ≥ (if s.card.serving.isSome then 65 else 64))

/-- Whether the card refuses a write to an offset of its window (R462). -/
def writeRefused (s : State) (offset : Nat) (value : DWord) : Bool :=
  if offset < 0x800 ∧ offset % 8 = 0 then s.card.stage != 7 || bits value.toNat 63 40 != 0
  else if offset = 0x1008 then bits value.toNat 63 2 != 0
  else if offset = 0x1010 then !capOk value
  else if offset = 0x1018 then mailboxRefused s value
  else true

def execRegisterWriteRefused (offset : Nat) (value : DWord) (s : State) : Out :=
  if offset < 0x1000000 && writeRefused s offset value then .next (refuseWrite s offset) else notDue s

/-! Boot (R465). -/

/-- Boot ends with stage FAILED and an error code (R466). -/
def bootFailed (s : State) (err : BitVec 8) : State := { s with card := { s.card with stage := 0xFF, err } }

def execFepelLinkTrained (ok : Bool) (s : State) : Out :=
  if s.card.stage != 1 then notDue s
  else if ok then .next { s with card := { s.card with stage := 2, fepel := true } }
  else .next (bootFailed s 1)

/-- A little-endian number in an image. -/
def imageNum (image : List Byte) (o n : Nat) : Nat := natOfBytes ((image.drop o).take n)

/-- The ROM's checks in order (R466): 0, or the error code. -/
def imageError (image : List Byte) (whole : Bool) (hash : BitVec 256) (floor : DWord) : BitVec 8 :=
  let len := imageNum image 8 8
  let key := (image.drop 0x18).take 68
  let sig := (image.drop 0x60).take 2820
  let body := (image.drop 0xB80).take len
  if !whole then 1
  else if imageNum image 0 4 ≠ 0x44314450 ∨ imageNum image 4 4 ≠ 1 ∨ imageNum image 0x5C 4 ≠ 0 ∨ imageNum image 0xB64 28 ≠ 0 then 2
  else if len > 4191360 ∨ image.length < 0xB80 + len then 3
  else if natOfBytes (shake256 key) ≠ hash.toNat then 4
  else if !xmssVerify key sig (image.take 0x60 ++ body) then 5
  else if imageNum image 0x10 8 < floor.toNat then 6
  else 0

/-- The image has arrived in die 0's supervisor memory (stage 3), is verified, and copied to the other three supervisors (stage 4). -/
def execImageDelivered (image : List Byte) (whole : Bool) (s : State) : Out :=
  if s.card.stage != 3 then notDue s
  else
    let e := imageError image whole s.card.keyHash s.card.floor
    if e ≠ 0 then .next ((bootFailed s e).updDie 0 fun d => { d with image })
    else
      let v := imageNum image 0x10 8
      .next { s with dies := s.dies.map fun (d : Die) => { d with image }
                     card := { s.card with stage := 4, svn := BitVec.ofNat 32 v, version := BitVec.ofNat 64 v } }

/-- Memories and die-to-die links are ready; the lowest live supervisor takes the lease (R371). The accepted image may have raised
the floor (R466): a free value tells. -/
def execMemoriesReady (alive : BitVec 4) (s : State) : Out :=
  if s.card.stage != 4 || alive == 0 then notDue s
  else
    let (v, s1) := s.draw
    let s2 := { s1 with dies := tab 4 fun i => { s1.dies.toList.getD i Die.reset with alive := alive.getLsbD i } }
    let floor := floorRaised s.card (v.getLsbD 0)
    let s3 := { s2 with leader := lowestAlive s2, leaderStopped := false, card := { s2.card with stage := 5, edges := 15, floor } }
    .next (s3.updDie s3.leaderDie fun d => { d with lease := Config.leaseTicks, sinceRenew := 0 })

/-- Chainline trains on a set of ports and `psc` steps forward to the reference's value, with a catch-up slot (R426); without a
reference the package is aligned with itself. Its fabric identity is assigned (R326): a free value. -/
def execPscAlignment (ports : BitVec 12) (reference : Option DWord) (s : State) : Out :=
  if s.card.stage != 5 then notDue s
  else
    let (f, s) := s.draw
    let card := { s.card with stage := 6, ports, fabric := f.setWidth 12 }
    match reference with
    | none => .next { s with card, aligned := s.psc }
    | some v =>
      if ports == 0 || decide (v.toNat < s.psc.toNat) then notDue s
      else
        let b := slotAt v
        let inside := if b.1.toNat ≤ v.toNat then b.1.toNat + b.2.1.toNat else 0
        .next { s with card, psc := v, aligned := v, slot := .outside, catchUp := max (v.toNat + Config.majorLen) inside }

/-- The leader publishes the calendar at an address of die 0 that the spec leaves open, and the package is READY (R424, R465). -/
def execBootReady (s : State) : Out :=
  if s.card.stage != 6 then notDue s
  else
    let (v, s1) := s.draw
    .next (publish { s1 with calendar := some (v.toNat % (Config.dieBytes / 64) * 64), card := { s1.card with stage := 7 } })

end Sys2Proof.Machine
end

