-- ==== Sys2Proof/Machine/Supervisor.lean ====
section
/-! DEFINITION. Supervisor requests (R463, R464): the mailbox, and the meaning of every request code. -/

namespace Sys2Proof.Machine

/-! Completions. -/

/-- Statuses of a completion record (R463). -/
inductive Reply where
  | done | refused | busy | exhausted
deriving DecidableEq, Repr

def Reply.code : Reply → Nat
  | .done => 0 | .refused => 1 | .busy => 2 | .exhausted => 3

/-- The completion record is written, then the host is interrupted (R463). -/
def writeReply (s : State) (cpl : Nat) (seq : Word) (r : Reply) (reason result : Nat) : State :=
  signalHost (hostStore s (hostPhys cpl)
    (bytesOfNat 8 (r.code * 2 ^ 56 + reason * 2 ^ 48 + seq.toNat) ++ bytesOfNat 8 result)) (.request seq)

/-- A request code that R464 does not reserve. -/
def knownCode (c : Nat) : Bool := decide (1 ≤ c) && decide (c ≤ 14)

/-- Requests of reserved codes at the mailbox's head are REFUSED as they come up (R464). -/
def dropReserved (s : State) : List DWord → State
  | [] => { s with card := { s.card with mailbox := [] } }
  | a :: rest =>
    let b := blockAt s a
    if knownCode b.code then { s with card := { s.card with mailbox := a :: rest } }
    else dropReserved (writeReply s b.cpl b.seq .refused 255 0) rest

/-- The request at the head is finished. -/
def finishRequest (s : State) (cpl : Nat) (seq : Word) (r : Reply) (reason result : Nat) : State :=
  let s1 := writeReply s cpl seq r reason result
  dropReserved { s1 with card := { s1.card with serving := none } } (s1.card.mailbox.drop 1)

/-- A write to the mailbox (R463). -/
def execSupervisorMailbox (addr : DWord) (s : State) : Out :=
  if mailboxRefused s addr then .next (refuseWrite s 0x1018)
  else if s.card.mailbox.isEmpty && mailReady s then .next (dropReserved s [addr])
  else .next { s with card := { s.card with mailbox := s.card.mailbox ++ [addr] } }

/-- What a request comes to. -/
inductive Answer where
  | done (s : State) (result : Nat)
  /-- the first body word refused, or 255 for the header -/
  | refused (word : Nat)
  | busy
  | exhausted
  /-- it finishes in a later step -/
  | begun (s : State)

/-- The first failing check of a list, in word order. -/
def firstBad (bad : List Bool) : Option Nat := bad.findIdx? id

/-- Checks by body word, then the answer of a request they pass. -/
def checkWords (bad : List Bool) (a : Answer) : Answer :=
  match firstBad bad with
  | some i => .refused i
  | none => a

/-- The leader serves the request at the mailbox's head (R463): one at a time, in order, where the event names its code and the
machine's own choice, if any, is a possible one. -/
def serve (code : Nat) (which : Block → Bool) (len : Block → Nat) (f : State → Block → Option Answer) (s0 : State) : Out :=
  let s := dropReserved s0 s0.card.mailbox
  let later : Out := if mailReady s0 && decide (s.card.mailbox.length < s0.card.mailbox.length) then .next s else notDue s0
  match s.card.mailbox with
  | [] => later
  | a :: _ =>
    let b := blockAt s a
    if !mailReady s0 || b.code != code || !which b then later
    else if !b.ok || b.len != len b then .next (finishRequest s b.cpl b.seq .refused 255 0)
    else
      match f s b with
      | none => later
      | some (.done s1 r) => .next (finishRequest s1 b.cpl b.seq .done 0 r)
      | some (.refused i) => .next (finishRequest s b.cpl b.seq .refused i 0)
      | some .busy => .next (finishRequest s b.cpl b.seq .busy 0 0)
      | some .exhausted => .next (finishRequest s b.cpl b.seq .exhausted 0 0)
      | some (.begun s1) => .next s1

/-- A request of one form and one length. -/
def simple (code len : Nat) (f : State → Block → Answer) (s : State) : Out :=
  serve code (fun _ => true) (fun _ => len) (fun s b => some (f s b)) s

/-! Jobs (R52). -/

/-- First indices of the blocks of die semaphores in use on a die (R427). -/
def usedBlocks (s : State) (d : Fin 4) : List Nat := s.jobs.map fun j => j.dsb.get d

/-- A free block of a die. -/
def blockFree (s : State) (d : Fin 4) (b : Nat) : Bool := !(usedBlocks s d).contains (1024 * b)

def dieIds : List (Fin 4) := [0, 1, 2, 3]

/-- The checks of the job descriptor, word by word (R52). -/
def descriptorBad (s : State) (b : Block) : List Bool :=
  let w := b.word
  let va := fun (k a : Nat) => bits (w k) 63 56 != 0 || w k % a != 0
  [bits (w 0) 63 56 != 1 || bits (w 0) 55 48 != 0 || bits (w 0) 35 33 != 0 || bits (w 0) 31 0 != 0
      || (s.keyOf (BitVec.ofNat 12 (bits (w 0) 47 36))).isNone
      || (bits (w 0) 32 32 == 1 && !(dieIds.all fun d => (s.die d).reserved)),
   w 1 % 65536 != 0 || decide (w 1 ≥ Config.hbmBytes),
   va 2 65536,
   decide (w 3 < 1) || decide (w 3 > 2 ^ 24),
   va 4 16,
   va 5 64,
   decide (w 6 > 1024) || (w 6 == 0) != (w 5 == 0),
   va 7 65536,
   decide (w 8 < 1) || decide (w 8 > 65536),
   va 9 65536,
   decide (w 10 > 65536),
   w 11 != 0, w 12 != 0, w 13 != 0, w 14 != 0, w 15 != 0]

/-- The job of a descriptor, with its number and blocks. -/
def jobFrom (b : Block) (no : Word) (dsb : Vector Nat 4) : Job where
  no := no
  key := BitVec.ofNat 12 (bits (b.word 0) 47 36)
  det := bits (b.word 0) 32 32 == 1
  ptroot := b.word 1
  rtbase := b.word 2
  rtsize := b.word 3
  pobase := b.word 4
  pcbase := b.word 5
  pcount := b.word 6
  ctbase := b.word 7
  nc := b.word 8
  spbase := b.word 9
  spcount := b.word 10
  dsb := dsb

/-- Die semaphores of a block take the value 0 (R427). -/
def clearBlock (d : Die) (first : Nat) : Die :=
  { d with sems := d.sems.filter fun x => !(decide (first ≤ x.1) && decide (x.1 < first + 1024)) }

/-- Blocks of a job cleared on every die. -/
def clearBlocks (s : State) (dsb : Vector Nat 4) : State :=
  dieIds.foldl (fun s d => s.updDie d fun k => clearBlock k (dsb.get d)) s

def execCreateJob (jobno : Word) (b0 b1 b2 b3 : BitVec 4) (s : State) : Out :=
  serve 1 (fun _ => true) (fun _ => 128) (fun s b =>
    let picks : Vector Nat 4 := ⟨#[b0.toNat, b1.toNat, b2.toNat, b3.toNat], rfl⟩
    match firstBad (descriptorBad s b) with
    | some i => some (.refused i)
    | none =>
      if dieIds.any fun d => (List.range 16).all fun k => !blockFree s d k then some .exhausted
      else if (s.job? jobno).isSome || !(dieIds.all fun d => blockFree s d (picks.get d)) then none
      else
        let j := jobFrom b jobno (picks.map fun k => 1024 * k)
        let s0 := { s with jobs := s.jobs ++ [j]
                           dies := if j.det then s.dies.map fun d => { d with writers := d.writers.filter fun w => w.phase.toNat % 2 != 0 }
                             else s.dies }
        let s1 := clearBlocks s0 j.dsb
        if (s1.heldAt none s1.leaderDie j (counterAddr j Config.phaseCounter) 32).isSome then none
        else some (.done (armPhase s1 j 0) jobno.toNat)) s

/-- The launches that a queue's teardown cancels (R370). -/
def queueLaunches (s : State) (q : BitVec 8) : List Nat :=
  ((s.launches.filter fun l => l.queue == q && l.node.isNone).map fun l => l.handle) ++
    (s.graphs.filter fun g => g.queue == q).flatMap fun g => g.running.map Prod.snd

/-- Queue teardown (R370): the front end stops, what has not executed is discarded, CANCEL applies to the queue's work, the state
block is written a final time. -/
def tearQueue (s : State) (q : BitVec 8) : State :=
  let s1 := s.updQueue q fun k =>
    { k with batch := [], hold := .none, atPhase := false, tearing := true, bell := none
             head := match k.batch with | p :: _ => p.start | [] => k.head }
  let s2 := (s1.launches.filter fun l => l.queue == q && l.node.isNone).foldl (fun s l => cancelLaunch s l.handle) s1
  let s3 := settle ((s2.graphs.filter fun g => g.queue == q).foldl (fun s g => cancelGraph s g.handle) s2)
  let s4 := match writeBlock s3 q with | .ok s => s | .error _ => s3
  { s4 with queues := s4.queues.filter fun k => k.q != q }

def execTeardownJob (s : State) : Out :=
  serve 2 (fun _ => true) (fun _ => 8) (fun s b =>
    let no := BitVec.ofNat 32 (b.word 0)
    let qs := (s.queues.filter fun k => k.job == no).map fun k => k.q
    if bits (b.word 0) 63 32 ≠ 0 then some (.refused 0)
    else if !((qs.flatMap (queueLaunches s)).all (cancelReady s)) || !(s.queues.all fun k => k.job != no || queueReady s k) then none
    else match s.job? no with
      | none => some (.refused 0)
      | some _ =>
        let s1 := (qs.foldl tearQueue s).updJob no fun j => { j with tearing := true }
        some (.begun { s1 with card := { s1.card with serving := some { seq := b.seq, cpl := b.cpl, job := no } } })) s

/-- Work of a job that still runs (R52): launches, graphs, and copies. -/
def jobRuns (s : State) (job : Word) : Bool := jobWork s job || s.copies.any fun c => c.job == job

/-- A job removed: its blocks and save slots are free, and nothing of the package keeps its address space. -/
def removeJob (s : State) (j : Job) : State :=
  let s1 := clearBlocks { s with jobs := s.jobs.filter fun k => k.no != j.no } j.dsb
  let s2 := s1.allCores fun k =>
    { k with tlb := k.tlb.filter (fun e => e.job != j.no), text := k.text.filter (fun e => e.job != j.no)
             lastJob := if k.lastJob == some j.no then none else k.lastJob }
  { s2 with dies := s2.dies.map fun (d : Die) => { d with tlb := d.tlb.filter fun e => e.job != j.no } }

/-- No launch of the job runs any more: its teardown completes (R52). -/
def execJobTeardownComplete (s : State) : Out :=
  match s.card.serving with
  | none => notDue s
  | some r =>
    match s.job? r.job with
    | none => notDue s
    | some j =>
      if !hostReady s || jobRuns s r.job then notDue s
      else .next (finishRequest (removeJob s j) r.cpl r.seq .done 0 0)

/-! Queues (R346, R370). -/

/-- The checks of a queue's number and descriptor, word by word (R346). -/
def queueBad (s : State) (b : Block) : List Bool :=
  let w := b.word
  let lg := bits (w 6) 31 27
  let inHbm := fun (va : Nat) => match s.job? (BitVec.ofNat 32 (bits (w 6) 63 32)) with
    | none => true
    | some j => match lookupLeaf s none s.leaderDie j va with
      | .ok e => decide (va < 2 ^ 56) && !isHost e.pbase
      | .error _ => false
  [bits (w 0) 63 8 != 0, w 1 != 1, w 2 != 0, w 3 != 0, w 4 != 0, w 5 != 0,
   (s.job? (BitVec.ofNat 32 (bits (w 6) 63 32))).isNone || decide (lg < 12) || decide (lg > 30) || bits (w 6) 26 0 != 0,
   bits (w 7) 63 56 != 0 || w 7 % 64 != 0 || !inHbm (w 7) || !inHbm (w 7 + 511),
   bits (w 8) 63 56 != 0 || w 8 % 2 ^ lg != 0]

def execRegisterQueue (s : State) : Out :=
  serve 3 (fun b => (s.job? (BitVec.ofNat 32 (bits (b.word 6) 63 32))).all fun j => s.unheld none s.leaderDie j (b.word 7) 512)
    (fun _ => 72) (fun s b =>
    let q := BitVec.ofNat 8 (b.word 0)
    some <| checkWords (queueBad s b)
      (if (s.queue? q).isSome then .busy
      else
        let k : Queue := { q, job := BitVec.ofNat 32 (bits (b.word 6) 63 32), ring := b.word 8, state := b.word 7
                           lg := bits (b.word 6) 31 27, shadow := Vector.replicate 32 0 }
        let s1 := { s with queues := s.queues ++ [k] }
        .done (match writeBlock s1 q with
          | .ok s2 => s2
          | .error _ => s1.updQueue q fun k => { k with lostWrite := true }) 0)) s

def execTeardownQueue (s : State) : Out :=
  serve 4 (fun _ => true) (fun _ => 8) (fun s b =>
    let q := BitVec.ofNat 8 (b.word 0)
    if bits (b.word 0) 63 8 != 0 || (s.queue? q).isNone then some (.refused 0)
    else if !((queueLaunches s q).all (cancelReady s)) || !(s.queue? q).all (queueReady s) then none
    else some (.done (tearQueue s q) 0)) s

/-! Records and policies (R377). -/

def updateKind (b : Block) : Nat := bits (b.word 0) 31 30

/-- A valid policy entry (R387). -/
def policyOk (lo hi : Nat) : Bool := bits lo 63 24 == 0 && bits lo 4 3 == 0 && bits hi 31 0 == 0

/-- The checks of a record image, word by word (R375 to R377). -/
def imageBad (s : State) (j : Job) (b : Block) : List Bool :=
  let w := fun (k : Nat) => b.word (k + 1)
  let fmt := ringFmt (bits (w 6) 31 28)
  let mx := fmt == some .e2m1
  let pol := bits (w 10) 5 0
  let polOk := match homeWord s j (j.pobase + 16 * pol), homeWord s j (j.pobase + 16 * pol + 8) with
    | .ok lo, .ok hi => policyOk lo hi
    | _, _ => false
  [false,
   bits (w 1) 63 56 != 0 || w 1 % 64 != 0,
   bits (w 2) 63 40 != 0 || w 2 == 0 || (mx && w 2 % 32 != 0),
   bits (w 3) 63 56 != 0,
   bits (w 4) 63 56 != 0 || (mx && w 4 == 0),
   bits (w 5) 63 56 != 0,
   bits (w 6) 63 32 != 0 || !ringLive (bits (w 6) 31 0) || bits (w 6) 15 0 != 0,
   w 7 != 0, w 8 != 0, w 9 != 0,
   bits (w 10) 63 6 != 0 || !polOk] ++
  (List.range 21).map fun k => w (11 + k) != 0

/-- An update at once where no launch of the job is in progress, else at the next phase close (R377); none while a slot or an extension holds
what it writes (R247, R423). -/
def recordUpdate (s : State) (j : Job) (u : RecordUpdate) : Option Answer :=
  if s.launches.any fun l => l.job == j.no then
    some (.done (s.updJob j.no fun j => { j with deferred := j.deferred ++ [u] }) 2)
  else if (updateHeld s j u).isSome || !derailleursReady s then none
  else some (.done (joinAll (([0, 1, 2, 3] : List (Fin 4)).foldl State.raiseEpoch (applyUpdate s j.no u))) 1)

/-- Checks by body word, then an update that they pass. -/
def checkUpdate (bad : List Bool) (a : Option Answer) : Option Answer :=
  match firstBad bad with
  | some i => some (.refused i)
  | none => a

/-- The bytes of body words from the second on. -/
def Block.bytes (b : Block) : List Byte := (b.body.drop 1).flatMap fun w => bytesOfNat 8 w

/-- A record created or replaced; a request of the reserved kind is REFUSED here. -/
def execRecordCreate (s : State) : Out :=
  serve 5 (fun b => updateKind b == 0 || updateKind b == 3) (fun b => if updateKind b = 3 then b.len else 264) (fun s b =>
    let no := BitVec.ofNat 32 (bits (b.word 0) 63 32)
    let i := bits (b.word 0) 23 0
    match s.job? no with
      | none => some (.refused 0)
      | some j =>
        checkUpdate ((updateKind b == 3 || bits (b.word 0) 29 24 != 0 || decide (i ≥ j.rtsize)) :: imageBad s j b)
          (recordUpdate s j { kind := 0, index := i, image := b.bytes })) s

def execRecordDelete (s : State) : Out :=
  serve 5 (fun b => updateKind b == 1) (fun _ => 8) (fun s b =>
    let no := BitVec.ofNat 32 (bits (b.word 0) 63 32)
    let i := bits (b.word 0) 23 0
    match s.job? no with
      | none => some (.refused 0)
      | some j => checkUpdate [bits (b.word 0) 29 24 != 0 || decide (i ≥ j.rtsize)] (recordUpdate s j { kind := 1, index := i, image := [] })) s

def execPolicySet (s : State) : Out :=
  serve 5 (fun b => updateKind b == 2) (fun _ => 24) (fun s b =>
    let no := BitVec.ofNat 32 (bits (b.word 0) 63 32)
    match s.job? no with
      | none => some (.refused 0)
      | some j =>
        checkUpdate [bits (b.word 0) 23 0 != 0, bits (b.word 1) 63 24 != 0 || bits (b.word 1) 4 3 != 0, bits (b.word 2) 31 0 != 0]
          (recordUpdate s j { kind := 2, index := bits (b.word 0) 29 24, image := b.bytes })) s

/-! Translation and keys (R256, R257). -/

/-- A leaf of a job whose page meets a range. -/
def TlbEntry.meets (e : TlbEntry) (job : Word) (va n : Nat) : Bool :=
  e.job == job && decide (e.vpage * 2 ^ e.lg < va + n) && decide (va < (e.vpage + 1) * 2 ^ e.lg)

/-- No cache of the package keeps a leaf, or a text word, of a range. -/
def invalidate (s : State) (job : Word) (va n : Nat) : State :=
  let s1 := s.allCores fun k =>
    { k with tlb := k.tlb.filter (fun e => !e.meets job va n)
             text := k.text.filter fun e => !(e.job == job && decide (va ≤ e.va) && decide (e.va < va + n)) }
  { s1 with dies := s1.dies.map fun (d : Die) => { d with tlb := d.tlb.filter fun e => !e.meets job va n } }

def execInvalidate (s : State) : Out :=
  simple 6 24 (fun s b =>
    let no := BitVec.ofNat 32 (b.word 0)
    checkWords [bits (b.word 0) 63 32 != 0 || (s.job? no).isNone, b.word 1 % 65536 != 0 || decide (b.word 1 ≥ 2 ^ 56),
        b.word 2 % 65536 != 0 || decide (b.word 1 + b.word 2 > 2 ^ 56)]
      (.done (invalidate s no (b.word 1) (b.word 2)) 0)) s

/-- Lines that shared SRAM holds under a key slot are written back, and leave (R257). -/
def dropKeyLines (s : State) (slot : BitVec 12) : State := (s.sram.filter fun x => x.key == slot).foldl (fun s x => s.evict x.line) s

def execLoadKey (s : State) : Out :=
  simple 7 72 (fun s b =>
    let slot := BitVec.ofNat 12 (b.word 0)
    checkWords [bits (b.word 0) 63 12 != 0]
      (if s.jobs.any fun j => j.key == slot then .busy
      else .done { dropKeyLines s slot with keys := (slot, BitVec.ofNat 512 (natOfBytes b.bytes)) :: s.keys.filter fun k => k.1 != slot } 0)) s

/-! The debugger (R415). -/

/-- The tile core a DEBUG request names, where it holds a strand of the job. -/
def debugStrand (s : State) (b : Block) : Except Nat (Core × Strand) :=
  let t := bits (b.word 0) 7 0
  if bits (b.word 0) 55 8 ≠ 0 then .error 0
  else if bits (b.word 1) 63 32 ≠ 0 then .error 1
  else if h : t < 192 then
    match s.strand ⟨t, h⟩ with
    | some st => if st.job == BitVec.ofNat 32 (b.word 1) then .ok (⟨t, h⟩, st) else .error 1
    | none => .error 1
  else .error 0

/-- A DEBUG request of an action. -/
def debug (which : Nat → Bool) (f : State → Block → Core → Strand → Option Answer) (s : State) : Out :=
  serve 8 (fun b => which (bits (b.word 0) 63 56)) (fun _ => 32) (fun s b =>
    if bits (b.word 0) 63 56 > 3 then some (.refused 0)
    else match debugStrand s b with
      | .error i => some (.refused i)
      | .ok (t, st) => f s b t st) s

/-- A halted engine's word is left unbegun: what the word has popped goes back, and what it keeps is discarded (R415). DEDUCED (log 63): a
word that is partway, and waits for another engine of the strand, cannot be unbegun, and keeps what it holds. -/
def Strand.unbegin (st : Strand) (e : Eng) : Strand :=
  let g := st.eng e
  if g.partway then st.setEng e { g with wait := none }
  else
    let p := (g.latch.getD {}).popped
    { st.setEng e { g with wait := none, latch := none, progress := 0 } with
      c2a := p.1 ++ st.c2a, c2m := p.2.1 ++ st.c2m, v2a := p.2.2 ++ st.v2a }

/-- An engine has still to reach its next word boundary: its word is partway, and no other engine of the strand has to end its wait. -/
def Strand.short (st : Strand) (e : Eng) : Bool :=
  (st.eng e).partway && match (st.eng e).wait with
    | some w => !w.internal st.named st.headBlocked
    | none => true

/-- Halt: every engine stops at its next word boundary, a waiting word left unbegun; a stop whose engines already hold completes first
(R416). While a word is partway the request is being served, and the other engines begin no word. A request of an action that R464 does
not give is REFUSED here. -/
def execDebugHalt (s : State) : Out :=
  debug (fun a => a == 0 || decide (a > 3)) (fun s _ t st =>
    if st.stop.isSome && Eng.all.any fun e => (st.eng e).holding then none
    else if Eng.all.any st.short then some (.begun (s.setStrand t { st with halting := true }))
    else some (.done (s.setStrand t { Eng.all.foldl Strand.unbegin st with halted := true, halting := false }) 0)) s

def execDebugResume (s : State) : Out :=
  debug (fun a => a == 1) (fun s _ t st => some (.done (s.setStrand t { st with halted := false }) 0)) s

/-- The masks of a debugger's image: every section present. -/
def debugMasks (st : Strand) : Masks := { allMasks st.c.depth.toNat with pd := st.pred.length }

/-- The image of a halted strand (R408, R409, R415); the safe-point index and entry, which no stop point gives, are `idx` and
`raw`. -/
def debugImage (s : State) (t : Core) (st : Strand) (idx raw : Nat) : List Byte × State :=
  drawLayOut s (contextParts st (s.core t).spad (debugMasks st) idx raw)

/-- The image with its free index and entry drawn (log 6); the entry's spare bits are zero (R8, R400). -/
def drawImage (s : State) (t : Core) (st : Strand) : List Byte × State :=
  let (i, s1) := s.draw
  let (a, s2) := s1.draw
  let (b, s3) := s2.draw
  debugImage s3 t st (i.toNat % 2 ^ 16) ((b.toNat * 2 ^ 64 + a.toNat) / 2 ^ 23 * 2 ^ 23)

/-- Byte offset and length of a DEBUG request. -/
def Block.span (b : Block) : Nat × Nat := (bits (b.word 2) 31 0, bits (b.word 2) 63 32)

/-- The checks of a DEBUG request that moves bytes, word by word: a halted strand, a span of its image, host memory (R415, R464). -/
def spanBad (b : Block) (st : Strand) (size : Nat) : List Bool :=
  let (o, n) := b.span
  [!st.halted, false, decide (o + n > size), !hostInside (b.word 3) n]

def execDebugRead (s : State) : Out :=
  debug (fun a => a == 2) (fun s b t st =>
    let (img, s1) := drawImage s t st
    let (o, n) := b.span
    some (checkWords (spanBad b st img.length) (.done (hostStore s1 (hostPhys (b.word 3)) ((img.drop o).take n)) n))) s

/-- The part of an engine's restored state that a debugger changes: a value that the image presents once goes to every engine where
the write has changed it. -/
def Engine.debugged (old new g : Engine) (frames : List Frame) (depth : Word) : Engine :=
  let g1 := if frames = old.frames ∧ depth = old.depth then g else { g with frames, depth }
  let g2 := if new.sbase = old.sbase then g1 else { g1 with sbase := new.sbase }
  let g3 := if new.slim = old.slim then g2 else { g2 with slim := new.slim }
  let g4 := if new.slotmode = old.slotmode then g3 else { g3 with slotmode := new.slotmode }
  g4

/-- A strand as a patched image gives it; none where the image sets a spare bit (R8, log 60). -/
def debugApply (s : State) (t : Core) (st : Strand) (img : List Byte) : Option State :=
  let rd : CtxRead := fun o n => .ok ((img.drop o).take n, false)
  let m := debugMasks st
  match restoreStrand rd m st, restoreFrames rd m.depth with
  | .ok r, .ok fs =>
    let depth := natOfBytes ((img.drop 0x20).take 4)
    let all := (List.range depth).map fun i => fs.getD i default
    let spilled := (all.take (depth - 16)).flatMap Frame.bytes
    let top := (all.drop (depth - 16)).reverse
    let gsafes := if r.gangCount = st.gangCount then none else some r.gangCount.toNat
    let st1 := { r with
      c := st.c.debugged r.c st.c top (BitVec.ofNat 32 depth), a := st.c.debugged r.c st.a top (BitVec.ofNat 32 depth)
      v := st.c.debugged r.c st.v top (BitVec.ofNat 32 depth), m := st.c.debugged r.c st.m top (BitVec.ofNat 32 depth)
      x := st.c.debugged r.c st.x top (BitVec.ofNat 32 depth) }
    let st2 := match gsafes with
      | some n => st1.allEngs fun g => { g with gsafes := n }
      | none => st1
    let s1 := s.setStrand t st2
    some (if spilled = (s.core t).spad.bytes st2.c.sbase.toNat spilled.length then s1
      else s1.spadStore t st2.c.sbase.toNat spilled false)
  | _, _ => none

/-- DESIGN CHOICE (log 60): a write that would set a spare bit is REFUSED at the word that names its data. -/
def execDebugWrite (s : State) : Out :=
  debug (fun a => a == 3) (fun s b t st =>
    let (img, s1) := drawImage s t st
    let (o, n) := b.span
    let data := s1.mem.bytes (hostPhys (b.word 3)) n
    some (checkWords (spanBad b st img.length) (match debugApply s1 t st (img.take o ++ data ++ img.drop (o + n)) with
      | some s2 => .done s2 n
      | none => .refused 3))) s

/-! Attestation (R467). -/

/-- The open block and the number of its next leaf, with the count of spent blocks; none when no block is left. -/
def attestLeaf (c : Card) : Option (Nat × Nat × Nat) :=
  let fresh := if c.spent < 1024 then some (c.spent, 0, c.spent + 1) else none
  match c.block with
  | some (b, i) => if i < 1024 then some (b, i, c.spent) else fresh
  | none => fresh

def execAttest (s : State) : Out :=
  simple 9 72 (fun s b =>
    if !hostInside (b.word 8) 2828 then .refused 8
    else match attestLeaf s.card with
    | none => .exhausted
    | some (blk, i, spent) =>
      let leaf := 1024 * blk + i
      let sig := xmssSign leaf ((b.body.take 8).flatMap fun w => bytesOfNat 8 w)
      let s1 := { s with card := { s.card with spent, block := some (blk, i + 1) } }
      .done (hostStore s1 (hostPhys (b.word 8)) (bytesOfNat 8 leaf ++ sig)) leaf) s

/-! Reservations for deterministic jobs (R252, R283). -/

/-- Bytes of an identity table, writer directories and merge area. -/
def reservedBytes : List Nat := [0x180000000, 0x10000000, 0x40000000]

def execReserveDet (s : State) : Out :=
  simple 10 96 (fun s b =>
    let bad := (List.range 12).map fun i =>
      decide (b.word i < i / 3 * Config.dieBytes) || decide (b.word i + reservedBytes.getD (i % 3) 0 > (i / 3 + 1) * Config.dieBytes)
    checkWords bad
      (if s.jobs.any fun j => j.det then .busy
      else .done (dieIds.foldl (fun s d => s.updDie d fun k =>
        { k with reserved := true, identity := b.word (3 * d.val), directory := b.word (3 * d.val + 1)
                 merge := b.word (3 * d.val + 2) }) s) 0)) s

/-! What the leader reports (R424, R445, R456, R459). -/

/-- The 16 bytes of an event record. -/
def EventRec.bytes (r : EventRec) : List Byte :=
  bytesOfNat 8 (r.code.toNat * 2 ^ 56 + r.kind.toNat * 2 ^ 52 + r.unit.toNat * 2 ^ 32 + r.detail.toNat) ++ bytesOfNat 8 r.tick.toNat

def execReadEvents (s : State) : Out :=
  simple 11 24 (fun s b =>
    let d := s.die (Fin.ofNat 4 (b.word 0))
    let rs := d.events.take (b.word 2)
    checkWords [decide (b.word 0 > 3), !hostInside (b.word 1) (16 * rs.length)]
      (.done (hostStore s (hostPhys (b.word 1)) (rs.flatMap EventRec.bytes)) (d.lost.toNat * 2 ^ 32 + rs.length))) s

/-- Units of each row of R444. -/
def windowUnits : List Nat := [192, 192, 512, 512, 768, 768, 4, 12, 1, 29]

def execReadWindows (s : State) : Out :=
  simple 12 8 (fun s b =>
    let counts := windowUnits.zipIdx.flatMap fun x => (List.range x.1).map fun u => windowCount s x.2 u
    checkWords [!hostInside (b.word 0) (4 * counts.length)]
      (.done (hostStore s (hostPhys (b.word 0)) (counts.flatMap fun n => bytesOfNat 4 n)) counts.length)) s

def execCalendarRequest (s : State) : Out :=
  simple 13 0 (fun s _ => .done s (s.calendar.getD 0)) s

def execFencedRequest (s : State) : Out :=
  simple 14 8 (fun s b => checkWords [!hostInside (b.word 0) 24]
    (.done (hostStore s (hostPhys (b.word 0)) (bytesOfNat 24 (fencedMask s).toNat)) 0)) s

end Sys2Proof.Machine
end

