-- ==== Sys2Proof/Machine/Dispatch.lean ====
section
/-! DEFINITION. One arm for each instruction: its meaning. -/

namespace Sys2Proof.Machine

def exec (i : Instr) (s : State) : Host.Outcome State Fault Refusal :=
  match i with
  | .add d a b t => Sys2Proof.Machine.execAdd d a b t s
  | .sub d a b t => Sys2Proof.Machine.execSub d a b t s
  | .mul d a b t => Sys2Proof.Machine.execMul d a b t s
  | .mulh d a b t => Sys2Proof.Machine.execMulh d a b t s
  | .div d a b t => Sys2Proof.Machine.execDiv d a b t s
  | .rem d a b t => Sys2Proof.Machine.execRem d a b t s
  | .and d a b t => Sys2Proof.Machine.execAnd d a b t s
  | .or d a b t => Sys2Proof.Machine.execOr d a b t s
  | .xor d a b t => Sys2Proof.Machine.execXor d a b t s
  | .shl d a b t => Sys2Proof.Machine.execShl d a b t s
  | .shr d a b t => Sys2Proof.Machine.execShr d a b t s
  | .min d a b t => Sys2Proof.Machine.execMin d a b t s
  | .max d a b t => Sys2Proof.Machine.execMax d a b t s
  | .cmp d a b t c => Sys2Proof.Machine.execCmp d a b t c s
  | .sel d a b => Sys2Proof.Machine.execSel d a b s
  | .addi d a n => Sys2Proof.Machine.execAddi d a n s
  | .andi d a n => Sys2Proof.Machine.execAndi d a n s
  | .shli d a n => Sys2Proof.Machine.execShli d a n s
  | .shri d a n => Sys2Proof.Machine.execShri d a n s
  | .sari d a n => Sys2Proof.Machine.execSari d a n s
  | .li d n => Sys2Proof.Machine.execLi d n s
  | .argl d a n => Sys2Proof.Machine.execArgl d a n s
  | .qput q a => Sys2Proof.Machine.execQput q a s
  | .qget d q k => Sys2Proof.Machine.execQget d q k s
  | .bset a => Sys2Proof.Machine.execBset a s
  | .gsel a n => Sys2Proof.Machine.execGsel a n s
  | .check a => Sys2Proof.Machine.execCheck a s
  | .ori d a imm => Sys2Proof.Machine.execOri d a imm s
  | .xori d a imm => Sys2Proof.Machine.execXori d a imm s
  | .liw d imm => Sys2Proof.Machine.execLiw d imm s
  | .lih d imm => Sys2Proof.Machine.execLih d imm s
  | .args d a imm => Sys2Proof.Machine.execArgs d a imm s
  | .srd d imm => Sys2Proof.Machine.execSrd d imm s
  | .swr a imm => Sys2Proof.Machine.execSwr a imm s
  | .tick d => Sys2Proof.Machine.execTick d s
  | .mslot d a imm => Sys2Proof.Machine.execMslot d a imm s
  | .ctrr d imm => Sys2Proof.Machine.execCtrr d imm s
  | .tbind t a => Sys2Proof.Machine.execTbind t a s
  | .tunb t => Sys2Proof.Machine.execTunb t s
  | .tread d t imm => Sys2Proof.Machine.execTread d t imm s
  | .tver d t => Sys2Proof.Machine.execTver d t s
  | .tstat d t imm => Sys2Proof.Machine.execTstat d t imm s
  | .tsync t => Sys2Proof.Machine.execTsync t s
  | .tstmp d a imm => Sys2Proof.Machine.execTstmp d a imm s
  | .tring d t imm => Sys2Proof.Machine.execTring d t imm s
  | .semi e die n v => Sys2Proof.Machine.execSemi e die n v s
  | .semd e die n v => Sys2Proof.Machine.execSemd e die n v s
  | .sems e die n v => Sys2Proof.Machine.execSems e die n v s
  | .semw e die n v => Sys2Proof.Machine.execSemw e die n v s
  | .semiWide e die n v => Sys2Proof.Machine.execSemiWide e die n v s
  | .semdWide e die n v => Sys2Proof.Machine.execSemdWide e die n v s
  | .semsWide e die n v => Sys2Proof.Machine.execSemsWide e die n v s
  | .semwWide e die n v => Sys2Proof.Machine.execSemwWide e die n v s
  | .semwSucceed tile e => Sys2Proof.Machine.execSemwSucceed tile e s
  | .rep e n k => Sys2Proof.Machine.execRep e n k s
  | .br o => Sys2Proof.Machine.execBr o s
  | .brq o => Sys2Proof.Machine.execBrq o s
  | .call o => Sys2Proof.Machine.execCall o s
  | .loop k m => Sys2Proof.Machine.execLoop k m s
  | .loopq m => Sys2Proof.Machine.execLoopq m s
  | .safe n => Sys2Proof.Machine.execSafe n s
  | .safeG n => Sys2Proof.Machine.execSafeG n s
  | .fence k f => Sys2Proof.Machine.execFence k f s
  | .aadd d a b => Sys2Proof.Machine.execAadd d a b s
  | .asub d a b => Sys2Proof.Machine.execAsub d a b s
  | .aaddi d a n => Sys2Proof.Machine.execAaddi d a n s
  | .amuli d a n => Sys2Proof.Machine.execAmuli d a n s
  | .ali d n => Sys2Proof.Machine.execAli d n s
  | .aliw d imm => Sys2Proof.Machine.execAliw d imm s
  | .aaddw d a imm => Sys2Proof.Machine.execAaddw d a imm s
  | .hset d a f => Sys2Proof.Machine.execHset d a f s
  | .hsetw d f imm => Sys2Proof.Machine.execHsetw d f imm s
  | .hget d a f => Sys2Proof.Machine.execHget d a f s
  | .hld d a n => Sys2Proof.Machine.execHld d a n s
  | .awin d a b => Sys2Proof.Machine.execAwin d a b s
  | .ald d a b t r f => Sys2Proof.Machine.execAld d a b t r f s
  | .aldS d a b t r f => Sys2Proof.Machine.execAldS d a b t r f s
  | .ast d a b t r f => Sys2Proof.Machine.execAst d a b t r f s
  | .cpy d a b f e => Sys2Proof.Machine.execCpy d a b f e s
  | .prmt d a b f e => Sys2Proof.Machine.execPrmt d a b f e s
  | .agth d a b f => Sys2Proof.Machine.execAgth d a b f s
  | .asca d a b t o => Sys2Proof.Machine.execAsca d a b t o s
  | .aatm d a b t o => Sys2Proof.Machine.execAatm d a b t o s
  | .stu d a t => Sys2Proof.Machine.execStu d a t s
  | .reqt d a b t => Sys2Proof.Machine.execReqt d a b t s
  | .surv a e => Sys2Proof.Machine.execSurv a e s
  | .apf a b => Sys2Proof.Machine.execApf a b s
  | .vadd d a b t r q => Sys2Proof.Machine.execVadd d a b t r q s
  | .vsub d a b t r q => Sys2Proof.Machine.execVsub d a b t r q s
  | .vmul d a b t r q => Sys2Proof.Machine.execVmul d a b t r q s
  | .vfma d a b t r q => Sys2Proof.Machine.execVfma d a b t r q s
  | .vmin d a b t q => Sys2Proof.Machine.execVmin d a b t q s
  | .vmax d a b t q => Sys2Proof.Machine.execVmax d a b t q s
  | .vand d a b t q => Sys2Proof.Machine.execVand d a b t q s
  | .vor d a b t q => Sys2Proof.Machine.execVor d a b t q s
  | .vxor d a b t q => Sys2Proof.Machine.execVxor d a b t q s
  | .vshl d a b t q => Sys2Proof.Machine.execVshl d a b t q s
  | .vshr d a b t q => Sys2Proof.Machine.execVshr d a b t q s
  | .vrshr d a b t r q => Sys2Proof.Machine.execVrshr d a b t r q s
  | .vmac2 d a b q => Sys2Proof.Machine.execVmac2 d a b q s
  | .vexp2 d a t q => Sys2Proof.Machine.execVexp2 d a t q s
  | .vlog2 d a t q => Sys2Proof.Machine.execVlog2 d a t q s
  | .vrcp d a t q => Sys2Proof.Machine.execVrcp d a t q s
  | .vrsq d a t q => Sys2Proof.Machine.execVrsq d a t q s
  | .vtanh d a t q => Sys2Proof.Machine.execVtanh d a t q s
  | .vsig d a t q => Sys2Proof.Machine.execVsig d a t q s
  | .vabs d a t q => Sys2Proof.Machine.execVabs d a t q s
  | .vneg d a t q => Sys2Proof.Machine.execVneg d a t q s
  | .vnot d a t q => Sys2Proof.Machine.execVnot d a t q s
  | .vpush c a b t => Sys2Proof.Machine.execVpush c a b t s
  | .vsel d a b t => Sys2Proof.Machine.execVsel d a b t s
  | .vcvt d a b t r q => Sys2Proof.Machine.execVcvt d a b t r q s
  | .vqnt d a b t r q => Sys2Proof.Machine.execVqnt d a b t r q s
  | .vdq d a b r q => Sys2Proof.Machine.execVdq d a b r q s
  | .vrot d a x u n => Sys2Proof.Machine.execVrot d a x u n s
  | .vslide d a x u f n => Sys2Proof.Machine.execVslide d a x u f n s
  | .vbcast d a x n => Sys2Proof.Machine.execVbcast d a x n s
  | .vredSum d a t x q => Sys2Proof.Machine.execVredSum d a t x q s
  | .vredMax d a t x q => Sys2Proof.Machine.execVredMax d a t x q s
  | .vredMin d a t x q => Sys2Proof.Machine.execVredMin d a t x q s
  | .vredAmax d a x q => Sys2Proof.Machine.execVredAmax d a x q s
  | .vmov d a t q => Sys2Proof.Machine.execVmov d a t q s
  | .vli d imm => Sys2Proof.Machine.execVli d imm s
  | .viota d imm => Sys2Proof.Machine.execViota d imm s
  | .vcpr d a imm => Sys2Proof.Machine.execVcpr d a imm s
  | .vpcnt d => Sys2Proof.Machine.execVpcnt d s
  | .mzero d => Sys2Proof.Machine.execMzero d s
  | .mma d a b m => Sys2Proof.Machine.execMma d a b m s
  | .msoft d a b => Sys2Proof.Machine.execMsoft d a b s
  | .mscale d n => Sys2Proof.Machine.execMscale d n s
  | .mscaleC2m d p => Sys2Proof.Machine.execMscaleC2m d p s
  | .mout d a b r => Sys2Proof.Machine.execMout d a b r s
  | .mdrn a f c => Sys2Proof.Machine.execMdrn a f c s
  | .mside a f => Sys2Proof.Machine.execMside a f s
  | .msrst d => Sys2Proof.Machine.execMsrst d s
  | .mcpy d a => Sys2Proof.Machine.execMcpy d a s
  | .madd d a => Sys2Proof.Machine.execMadd d a s
  | .xcmd a n => Sys2Proof.Machine.execXcmd a n s
  | .xbind a b => Sys2Proof.Machine.execXbind a b s
  | .xput a n => Sys2Proof.Machine.execXput a n s
  | .xget a n => Sys2Proof.Machine.execXget a n s
  | .xstat d a => Sys2Proof.Machine.execXstat d a s
  | .xabort a => Sys2Proof.Machine.execXabort a s
  | .xmov d a => Sys2Proof.Machine.execXmov d a s
  | .xli d n => Sys2Proof.Machine.execXli d n s
  | .xadd d a b => Sys2Proof.Machine.execXadd d a b s
  | .xaddi d a n => Sys2Proof.Machine.execXaddi d a n s
  | .xliw d imm => Sys2Proof.Machine.execXliw d imm s
  | .queueWaitRelease tile e => Sys2Proof.Machine.execQueueWaitRelease tile e s
  | .windowWaitRelease tile e => Sys2Proof.Machine.execWindowWaitRelease tile e s
  | .slipWindowRelease tile e => Sys2Proof.Machine.execSlipWindowRelease tile e s
  | .textFetch tile addr => Sys2Proof.Machine.execTextFetch tile addr s
  | .strandPlacement tile source pick => Sys2Proof.Machine.execStrandPlacement tile source pick s
  | .gangPlacement launch => Sys2Proof.Machine.execGangPlacement launch s
  | .priorityAgeing launch => Sys2Proof.Machine.execPriorityAgeing launch s
  | .strandEnd tile => Sys2Proof.Machine.execStrandEnd tile s
  | .launchCompletion launch => Sys2Proof.Machine.execLaunchCompletion launch s
  | .strandDeadlock tile => Sys2Proof.Machine.execStrandDeadlock tile s
  | .safeDistance tile => Sys2Proof.Machine.execSafeDistance tile s
  | .stopRequest tile => Sys2Proof.Machine.execStopRequest tile s
  | .stopWithdraw tile => Sys2Proof.Machine.execStopWithdraw tile s
  | .stopPointReached tile => Sys2Proof.Machine.execStopPointReached tile s
  | .gangCut launch => Sys2Proof.Machine.execGangCut launch s
  | .contextSave tile => Sys2Proof.Machine.execContextSave tile s
  | .contextSaveComplete tile => Sys2Proof.Machine.execContextSaveComplete tile s
  | .strandResume tile launch index => Sys2Proof.Machine.execStrandResume tile launch index s
  | .doorbell q value => Sys2Proof.Machine.execDoorbell q value s
  | .launchPacket q => Sys2Proof.Machine.execLaunchPacket q s
  | .graphPacket q => Sys2Proof.Machine.execGraphPacket q s
  | .beginPacket q => Sys2Proof.Machine.execBeginPacket q s
  | .commitPacket q => Sys2Proof.Machine.execCommitPacket q s
  | .waitPacket q => Sys2Proof.Machine.execWaitPacket q s
  | .waitSatisfied q => Sys2Proof.Machine.execWaitSatisfied q s
  | .signalPacket q => Sys2Proof.Machine.execSignalPacket q s
  | .barRelease q => Sys2Proof.Machine.execBarRelease q s
  | .copyPacket q => Sys2Proof.Machine.execCopyPacket q s
  | .fillPacket q => Sys2Proof.Machine.execFillPacket q s
  | .copyFillComplete work => Sys2Proof.Machine.execCopyFillComplete work s
  | .indirectPacket q => Sys2Proof.Machine.execIndirectPacket q s
  | .cancelPacket q => Sys2Proof.Machine.execCancelPacket q s
  | .phasePacket q => Sys2Proof.Machine.execPhasePacket q s
  | .nopPacket q => Sys2Proof.Machine.execNopPacket q s
  | .phaseClose job => Sys2Proof.Machine.execPhaseClose job s
  | .phaseAdvance job => Sys2Proof.Machine.execPhaseAdvance job s
  | .compactionBatch graph edge => Sys2Proof.Machine.execCompactionBatch graph edge s
  | .commandStart tile => Sys2Proof.Machine.execCommandStart tile s
  | .commandWaitSatisfied tile => Sys2Proof.Machine.execCommandWaitSatisfied tile s
  | .contribution msg => Sys2Proof.Machine.execContribution msg s
  | .commandFinish tile inSwitch => Sys2Proof.Machine.execCommandFinish tile inSwitch s
  | .commandTimeout tile => Sys2Proof.Machine.execCommandTimeout tile s
  | .peerAbort ftag gen round => Sys2Proof.Machine.execPeerAbort ftag gen round s
  | .mismatchNotice ftag gen round => Sys2Proof.Machine.execMismatchNotice ftag gen round s
  | .switchDiscard tile => Sys2Proof.Machine.execSwitchDiscard tile s
  | .bindRound tile => Sys2Proof.Machine.execBindRound tile s
  | .bindTimeout tile => Sys2Proof.Machine.execBindTimeout tile s
  | .remoteTransfer tile bytes ok tracked => Sys2Proof.Machine.execRemoteTransfer tile bytes ok tracked s
  | .copyEngineComplete tile slot => Sys2Proof.Machine.execCopyEngineComplete tile slot s
  | .permuteComplete tile slot => Sys2Proof.Machine.execPermuteComplete tile slot s
  | .homeWriteApply k spill => Sys2Proof.Machine.execHomeWriteApply k spill s
  | .pageWalk tile job addr => Sys2Proof.Machine.execPageWalk tile job addr s
  | .slotBodyStart temps volts => Sys2Proof.Machine.execSlotBodyStart temps volts s
  | .slotEnd sweep => Sys2Proof.Machine.execSlotEnd sweep s
  | .extensionEnd kind unit => Sys2Proof.Machine.execExtensionEnd kind unit s
  | .linkFailure kind unit => Sys2Proof.Machine.execLinkFailure kind unit s
  | .resetHold value => Sys2Proof.Machine.execResetHold value s
  | .tripClear value => Sys2Proof.Machine.execTripClear value s
  | .powerCap value => Sys2Proof.Machine.execPowerCap value s
  | .registerWriteRefused offset value => Sys2Proof.Machine.execRegisterWriteRefused offset value s
  | .fepelLinkTrained ok => Sys2Proof.Machine.execFepelLinkTrained ok s
  | .imageDelivered image whole => Sys2Proof.Machine.execImageDelivered image whole s
  | .memoriesReady alive => Sys2Proof.Machine.execMemoriesReady alive s
  | .pscAlignment ports reference => Sys2Proof.Machine.execPscAlignment ports reference s
  | .thermalTrip temps => Sys2Proof.Machine.execThermalTrip temps s
  | .createJob jobno b0 b1 b2 b3 => Sys2Proof.Machine.execCreateJob jobno b0 b1 b2 b3 s
  | .undefinedEncoding tile e => Sys2Proof.Machine.execUndefinedEncoding tile e s
  | .supervisorMailbox addr => Sys2Proof.Machine.execSupervisorMailbox addr s
  | .linkTrained port skew => Sys2Proof.Machine.execLinkTrained port skew s
  | .powerLoss floorWritten => Sys2Proof.Machine.execPowerLoss floorWritten s
  | .flitRetried kind unit => Sys2Proof.Machine.execFlitRetried kind unit s
  | .ret => Sys2Proof.Machine.execRet s
  | .endl => Sys2Proof.Machine.execEndl s
  | .resume => Sys2Proof.Machine.execResume s
  | .nop => Sys2Proof.Machine.execNop s
  | .endW => Sys2Proof.Machine.execEndW s
  | .velse => Sys2Proof.Machine.execVelse s
  | .vpend => Sys2Proof.Machine.execVpend s
  | .drainLeadStart => Sys2Proof.Machine.execDrainLeadStart s
  | .errorWindowReset => Sys2Proof.Machine.execErrorWindowReset s
  | .leaseRenew => Sys2Proof.Machine.execLeaseRenew s
  | .leaderStop => Sys2Proof.Machine.execLeaderStop s
  | .leaseLapse => Sys2Proof.Machine.execLeaseLapse s
  | .bootReady => Sys2Proof.Machine.execBootReady s
  | .teardownJob => Sys2Proof.Machine.execTeardownJob s
  | .jobTeardownComplete => Sys2Proof.Machine.execJobTeardownComplete s
  | .registerQueue => Sys2Proof.Machine.execRegisterQueue s
  | .teardownQueue => Sys2Proof.Machine.execTeardownQueue s
  | .recordCreate => Sys2Proof.Machine.execRecordCreate s
  | .recordDelete => Sys2Proof.Machine.execRecordDelete s
  | .policySet => Sys2Proof.Machine.execPolicySet s
  | .invalidate => Sys2Proof.Machine.execInvalidate s
  | .loadKey => Sys2Proof.Machine.execLoadKey s
  | .debugHalt => Sys2Proof.Machine.execDebugHalt s
  | .debugResume => Sys2Proof.Machine.execDebugResume s
  | .debugRead => Sys2Proof.Machine.execDebugRead s
  | .debugWrite => Sys2Proof.Machine.execDebugWrite s
  | .attest => Sys2Proof.Machine.execAttest s
  | .reserveDet => Sys2Proof.Machine.execReserveDet s
  | .readEvents => Sys2Proof.Machine.execReadEvents s
  | .readWindows => Sys2Proof.Machine.execReadWindows s
  | .calendarRequest => Sys2Proof.Machine.execCalendarRequest s
  | .fencedRequest => Sys2Proof.Machine.execFencedRequest s
  | .cardReset => Sys2Proof.Machine.execCardReset s

end Sys2Proof.Machine
end

