-- ==== Sys2Proof/Machine/Step.lean ====
section
/-! DEFINITION. One step of the machine: the next turn of the agenda (log 2), an engine's word, a machine step, or an
input from outside; and the placing of an instruction where the next step fetches (log 1). -/

namespace Sys2Proof.Machine

/-- One engine's turn. -/
def stepEngine (s : State) (t : Core) (e : Eng) : Out := turnBy exec s t e

/-- One step. -/
def step (s : State) : Out :=
  match s.agenda with
  | [] => .next (advance s 1)
  | turn :: rest =>
    let s := advance { s with agenda := rest } turn.ticks
    match turn.move with
    | .engine t e => stepEngine s t e
    | .event i => exec i s
    | .hostWrite a bs =>
      if a + bs.length ≤ Config.physEnd && (isHost a || decide (a + bs.length ≤ Config.hbmBytes)) then
        .next (if isHost a || (s.card.fepel && agentFree s 0 a bs.length) then hostStore s a bs else s)
      else .fault .noSuchAddress
    | .windowRead offset => .next (registerRead s offset).2
    | .spadError t g => if g < 65536 then .next (spadPoisoned s t g) else .fault .noSuchAddress
    | .memError g inSram =>
      if 32 * g ≥ Config.hbmBytes then .fault .noSuchAddress
      else if inSram && (s.resident (g / 4)).isNone then notDue s
      else .next (memPoisoned s g inSram)
    | .corrected k u => match unitDie k u.toNat with
      | some d => .next (correctedError s d k u)
      | none => notDue s
    | .peer job write a bs => .next (peerTransfer job write a bs s)
    | .copyUnit t slot unit => .next (copyAhead t slot unit s)
    | .frontUnit work unit => .next (frontAhead work unit s)
    | .supervisor d up => .next (supervisorMove d up s)
    | .debugStop t => .next (debugStop t s)
    | .idle => .next s

/-- `s` with an instruction of `nbits` bits stored where `step` fetches its next instruction (log 1). -/
def State.withFetchWord (s : State) (nbits w : Nat) : State := placeWord s nbits w

end Sys2Proof.Machine
end

