-- ==== Sys2Proof/Safety.lean ====
section
/-! DEFINITION. What counts as a safe run, and the terms that claims are stated in. -/

namespace Sys2Proof.Machine

/-- Depths of the queues of a strand within the spec's limits (R38, R317, R325). -/
def Strand.queuesBounded (st : Strand) : Bool :=
  decide (st.c2a.length ≤ 8) && decide (st.c2v.length ≤ 8) && decide (st.c2m.length ≤ 8) && decide (st.c2x.length ≤ 8)
    && decide (st.a2c.length ≤ 8) && decide (st.v2c.length ≤ 8) && decide (st.x2c.length ≤ 8)
    && decide (st.a2v.length ≤ 16) && decide (st.v2a.length ≤ 16) && decide (st.m2v.length ≤ 16)
    && Eng.all.all (fun e => decide ((st.eng e).outcomes.length ≤ 8))

/-- A step that answers a next state. -/
def completes (o : Out) (t : State) : Prop := o = .next t

/-- A step that answers some next state of which something holds. -/
def reaches (o : Out) (P : State → Prop) : Prop := ∃ t, o = .next t ∧ P t

/-- The memory of the package and of every tile core is in canonical form. -/
def State.memWf (s : State) : Prop := s.mem.wf = true ∧ ∀ t : Core, (s.core t).spad.wf = true

/-- The strand in focus is `st`, and the slip window lets its engine `e` pass a word of `len` text words (R34). -/
def State.ready (s : State) (e : Eng) (len : Nat) (st : Strand) : Prop :=
  s.strand s.focusTile = some st ∧ st.slipStalled e len = false

/-- The state in which engine `e` of the tile core in focus has passed its word of `len` text words. -/
def State.passed (s : State) (e : Eng) (len : Nat) : State := passWord s s.focusTile e len

/-- The strand in focus replaced, and the word passed. -/
def State.passedAs (s : State) (e : Eng) (len : Nat) (st : Strand) : State := (s.setStrand s.focusTile st).passed e len

/-- The state in which a strand-wide word, or a REP, has placed its engine itself: the word is counted (R446). -/
def State.counted (s : State) (t : Core) (e : Eng) : State :=
  s.updStrand t fun q => (q.count (engCounter e) 1).trimLedger

/-- The state in which engine `e` of a tile core has passed a strand-wide word and stands at a text index (R33). -/
def State.wentTo (s : State) (t : Core) (e : Eng) (pc : Nat) : State := (goTo s t e pc).counted t e

/-- The word waits. -/
def waits (i : Instr) (s : State) (e : Eng) (w : Wait) : Prop := completes (exec i s) (setWait s s.focusTile e w)

/-- The word takes a fault of class P, recorded as detected by `rec` (R69, R450). -/
def raises (i : Instr) (s : State) (e : Eng) (rec : BitVec 3) (c : FaultCode) : Prop :=
  completes (exec i s) (wordFault s s.focusTile e rec c .atWord)

/-- A shape of one element (R267). -/
def singleElement (h : Shape) : Prop := ∀ k, k < 4 → h.e k = 1

/-- The vector word writes a tile to register `d` under .p (R190, R192), its sources taken. -/
def intoTile (i : Instr) (s : State) (st : Strand) (d : Code) (q : BitVec 1) (new : Tile) : Prop :=
  ∀ h : d.toNat < 16, completes (exec i s)
    (s.passedAs .v 1 (st.setV ⟨d.toNat, h⟩ (mergeTile st q (st.tiles.get ⟨d.toNat, h⟩) new)))

/-- An integer of a type's width as 64 bits (R86, R159). -/
def extendAs {w : Nat} (ty : BitVec 4) (v : BitVec w) : DWord := if isSigned ty then v.signExtend 64 else v.setWidth 64

/-- Condition `c` of R88 between two integers of a type, by bit-vector comparison. -/
def holdsInt {w : Nat} (ty : BitVec 4) (c : Nat) (a b : BitVec w) : Bool :=
  let lt := fun (x y : BitVec w) => if isSigned ty then x.slt y else x.ult y
  match c with
  | 0 => a == b | 1 => a != b | 2 => lt a b | 3 => !lt b a | 4 => lt b a | _ => !lt a b

end Sys2Proof.Machine
end

