-- ==== Sys2Proof/Certificates/Slice0/Obligations.lean ====
section
/-! DEFINITION. The statements for the provers, by family. `completes`, `waits`, `raises` and the other terms they are stated in are
those of Sys2Proof.Safety. -/

open Sys2Proof Sys2Proof.Machine

/-- Words that the spec itself encodes decode to the instructions they stand for (R75, R79, R95, R96, R197, R396, R433). Twenty-
four words written out in the spec's worked encodings, of every engine and of the strand-wide words, decode to the instruction
and operands the spec derives them from, and the one with a set reserved field decodes to nothing. -/
def Obligations.WorkedWords : Prop :=
  decode 0x1F380003 0x12345678 = some (.liw 7 0x12345678) ∧ decode 0x13280004 0 = some (.li 5 4) ∧
  decode 0x10297FFF 0 = some (.addi 5 5 0x3FFF) ∧ decode 0x0E418848 0 = some (.cmp 8 6 4 2 4) ∧
  decode 0xA2FFFFFB 0 = some (.brq 0xFFFFFB) ∧ decode 0xA8000003 0 = some (.safe 3) ∧ decode 0x17014001 0 = none ∧
  decode 0xA500900C 0 = some (.loop 9 12) ∧ decode 0x44214D25 0 = some (.vfma 4 5 6 9 1 1) ∧
  decode 0x53B40760 0 = some (.vqnt 22 16 3 11 0 0) ∧ decode 0x5F000002 0 = some (.viota 0 0) ∧
  decode 0x2AE84208 0 = some (.ald 29 1 1 0 0 2) ∧ decode 0x2CD08470 0 = some (.ast 26 2 2 3 1 0) ∧
  decode 0x3F080003 0x400 = some (.hsetw 1 0 0x400) ∧ decode 0x62088680 0 = some (.mma 1 2 3 1) ∧
  decode 0x641C0000 0 = some (.mscaleC2m 3 0) ∧ decode 0x66008807 0 = some (.mdrn 2 16 7) ∧
  decode 0x81004000 0 = some (.xcmd 1 0) ∧ decode 0x85508000 0 = some (.xstat 10 2) ∧
  decode 0x1F28C010 0 = some (.tbind 5 3) ∧ decode 0x1F494014 0x72 = some (.tstat 9 5 0x72) ∧
  decode 0x3A006001 0 = some (.semi .a 0 3 1) ∧ decode 0x1C822000 0 = some (.sems .c 1 17 0) ∧
  decode 0x7D03FFFF 0 = some (.semw .m 0 31 8191) ∧ decode 0x9FFA2400 0x2710 = some (.semiWide .x 1 1000 10000)

/-- Decoding the bytes of any encodable instruction gives it back with the bytes after it (R6, R73, R75, R79, R92). For every
instruction that a text word encodes, with every operand at every value, and any bytes after it: decoding the bytes of its
encoding followed by those bytes answers that instruction and those bytes, and the encoding is four bytes per text word. -/
def Obligations.EncodedBytesDecode : Prop :=
  ∀ (i : Instr) (rest : List Byte), (encode i).isSome = true →
    decodeBytes (encodeBytes i ++ rest) = .ok (i, rest) ∧ (encodeBytes i).length = 4 * i.len

/-- What reset leaves: no job, queue, launch, leader or strand, power cap 2200, stage 0, empty canonical memory (unlisted bytes:
log 3) (R52, R461, R465). State.reset has power cap 2,200 W and boot stage RESET, no job, queue, launch or leader, no strand on
any tile core; every byte of memory reads 0 (the model's choice of log 3 and log 5 where the spec gives no value) and every
memory is in canonical form. -/
def Obligations.ResetLeaves : Prop :=
  State.reset.card.powerCap = 2200 ∧ State.reset.card.stage = 0 ∧ State.reset.jobs = [] ∧ State.reset.queues = [] ∧
  State.reset.launches = [] ∧ State.reset.leader = none ∧ (∀ t : Core, State.reset.strand t = none) ∧
  (∀ a, State.reset.mem.get a = 0) ∧ State.reset.memWf

/-- Every step keeps the memory of the package and of every tile core in canonical form (R236, R240, R258). For every state
whose memories are in canonical form, if the machine's step answers a next state, the memories of that state are in canonical
form: addresses strictly rising and no listed byte equal to what an unlisted address reads as. -/
def Obligations.StepKeepsMemory : Prop :=
  ∀ s t : State, s.memWf → step s = .next t → t.memWf

/-- A step whose turn is an engine's runs the instruction decoded at the engine's text index (agenda: the model's own, log 2)
(R31, R33, R73, R417). Where the agenda's head names an engine of a placed strand that is not ended, halted, stopped or past its
safe distance, and the word at its text index (with its immediate word) is in the text cache and decodes to an instruction of
that engine (no REP within a repetition) or, outside a repetition, a strand-wide one, step is exec of that instruction after the
turn's ticks with that engine in focus. An event turn runs the event; an empty agenda lets one tick pass. -/
def Obligations.StepRunsDecoded : Prop :=
  (∀ (s s1 s2 : State) (n : Nat) (tile : Core) (e : Eng) (rest : List Turn) (st : Strand) (w imm : Word) (i : Instr),
    s.agenda = ⟨n, .engine tile e⟩ :: rest →
    let now := { advance { s with agenda := rest } n with focusTile := tile, focusEng := e }
    now.strand tile = some st → (st.eng e).ended = false → st.halted = false → st.halting = false → st.dead54 = false →
    (st.eng e).holding = false → st.spdist.toNat ≤ st.splim.toNat → (st.eng e).pc + wordLen w ≤ st.textLen →
    textWord now tile st e (st.eng e).pos (st.eng e).pc = .ok (s1, w) →
    (if isWide w then textWord s1 tile st e ((st.eng e).pos + 1) ((st.eng e).pc + 1) = .ok (s2, imm) else s2 = s1 ∧ imm = 0) →
    (((Fields.ofWord w).tag = 5 ∧ (st.eng e).rep = none) ∨
      ((Fields.ofWord w).tag = e.tag ∧ ∀ r, (st.eng e).rep = some r → r.left ≠ 0 ∧ (Fields.ofWord w).maj ≠ 30)) →
    decode w imm = some i → step s = exec i s2) ∧
  (∀ (s : State) (n : Nat) (i : Instr) (rest : List Turn), s.agenda = ⟨n, .event i⟩ :: rest →
    step s = exec i (advance { s with agenda := rest } n)) ∧
  (∀ s : State, s.agenda = [] → step s = .next (advance s 1))

/-- An engine steps over a one-word instruction of another engine at the cost of its text step only (R31, R33). Where the word
at the engine's index carries another engine's tag and names no window, and the slip window does not stall the engine, step
advances that engine by one word and one text step and changes nothing else but the completed window words of the strand's
ledger. -/
def Obligations.OtherEnginesWordSteppedOver : Prop :=
  ∀ (s s1 : State) (n : Nat) (tile : Core) (e : Eng) (rest : List Turn) (st : Strand) (w : Word),
    s.agenda = ⟨n, .engine tile e⟩ :: rest →
    let now := { advance { s with agenda := rest } n with focusTile := tile, focusEng := e }
    now.strand tile = some st → (st.eng e).ended = false → st.halted = false → st.halting = false → st.dead54 = false →
    (st.eng e).holding = false → st.spdist.toNat ≤ st.splim.toNat → (st.eng e).pc < st.textLen →
    textWord now tile st e (st.eng e).pos (st.eng e).pc = .ok (s1, w) → isWide w = false → (Fields.ofWord w).tag ≠ e.tag →
    (Fields.ofWord w).tag.toNat < 5 → (∀ i, decode w 0 = some i → windowsOf i = []) → st.slipStalled e 1 = false →
    step s = .next (s1.updStrand tile fun q => (q.updEng e fun g => g.pass 1 false).trimLedger)

/-- The slip window stalls a word that would take its engine too far ahead, for every instruction word (R34). For every
instruction that a text word encodes: when the slip window stalls its engine, exec leaves the engine waiting on the window and
the state otherwise as it was. Without a repetition in force the window stalls exactly when the count after the word would
exceed the least count of the unfinished engines by more than win. -/
def Obligations.SlipWindowStalls : Prop :=
  (∀ (s : State) (i : Instr) (w : Word) (imm : Option Word) (e : Eng) (st : Strand), encode i = some (w, imm) →
    ((Fields.ofWord w).tag = e.tag ∨ ((Fields.ofWord w).tag = 5 ∧ e = s.focusEng)) → s.strand s.focusTile = some st →
    st.slipStalled e i.len = true → waits i s e .slip) ∧
  ∀ (st : Strand) (e : Eng) (len m : Nat), (st.eng e).rep = none → (∃ f, (st.eng f).ended = false ∧ (st.eng f).steps.toNat = m) →
    (∀ f, (st.eng f).ended = false → m ≤ (st.eng f).steps.toNat) →
    (st.slipStalled e len = true ↔ m + st.win.toNat < (st.eng e).steps.toNat + len)

/-- A store changes the bytes it names and no other byte, in scratchpad and in memory under the write's key; poison follows
granules (R245, R249, R251, R257, R258). After a scratchpad store, and after a write of one line applied at its home that does
not lose against the line's tag, the stored bytes read as written and every other byte as before under the key of the write, but
for the identity that a line which leaves shared SRAM, or is not in it, writes where a reservation exists; a write that loses
changes no byte; no tile core changes. Poisoned data poisons exactly the granules it overlaps in addition to those poisoned;
clean data clears exactly the granules it covers whole. -/
def Obligations.StoresChangeOnlyTheirBytes : Prop :=
  (∀ (s : State) (t : Core) (a : Nat) (bs : List Byte) (p : Bool), s.memWf →
    (s.spadStore t a bs p).mem = s.mem ∧
    ∀ u b, ((s.spadStore t a bs p).core u).spad.get b =
      if u = t ∧ a ≤ b ∧ b < a + bs.length then bs.getD (b - a) 0 else (s.core u).spad.get b) ∧
  (∀ (s : State) (p : Pending) (now : Word), s.memWf → p.addr % 128 + p.bytes.length ≤ 128 →
    let loses := ∃ w, p.wid = some w ∧ isHost p.addr = false ∧ losesTo w (lookupNat s.tags (p.addr / 128)) now = true
    let s1 := s.markStamp p
    let u := if isHost p.addr then s1 else s1.touch ⟨p.addr, 0, p.key, p.nc⟩ true
    let t := s.applyWrite p now
    (loses → t = s1.note p true ∧ t.mem = s.mem ∧ t.seals = s.seals ∧ t.tags = s.tags) ∧
    (¬loses → (p.wid = none ∨ (u.resident (p.addr / 128)).isSome = true ∨ ∀ d, (s.die d).reserved = false) → ∀ b, t.plain p.key b =
      if p.addr ≤ b ∧ b < p.addr + p.bytes.length then p.bytes.getD (b - p.addr) 0 else u.plain p.key b) ∧
    (∀ c, t.core c = s.core c) ∧
    ((∀ d, (s.die d).reserved = false) → u.mem.cells = s.mem.cells ∧ u.seals = s.seals)) ∧
  (∀ (m : Mem) (a : Nat) (bs : List Byte) (g : Nat), 0 < bs.length →
    ((m.store a bs true).poison.contains g = (m.poison.contains g || (decide (32 * g < a + bs.length) && decide (a < 32 * g + 32)))) ∧
    ((m.store a bs false).poison.contains g = (m.poison.contains g && !(decide (a ≤ 32 * g) && decide (32 * g + 32 ≤ a + bs.length)))))

/-- Frame: what passing a word, waiting, or a control transfer leaves unchanged around the word's own effect (R33, R446).
Passing a word, waiting on it, or going to a text index leaves memory, every scratchpad, every other tile core, jobs, queues,
launches, dies and the card as they were, and of the strand every register, tile, accumulator, window, semaphore, queue, flag
and every other engine; the engine's index and text-step count move as the word's length or the target says. -/
def Obligations.WordsFrame : Prop :=
  ∀ (s : State) (e : Eng) (len : Nat) (st : Strand) (w : Wait) (pc : Nat), (s.strand s.focusTile).isSome = true →
    let keeps := fun (t : State) =>
      t.mem = s.mem ∧ t.psc = s.psc ∧ t.launches = s.launches ∧ t.jobs = s.jobs ∧ t.queues = s.queues ∧ t.dies = s.dies ∧
      t.pending = s.pending ∧ t.card = s.card ∧ (∀ u, (t.core u).spad = (s.core u).spad) ∧ (∀ u, u ≠ s.focusTile → t.core u = s.core u)
    let same := fun (p q : Strand) =>
      q.regs = p.regs ∧ q.tiles = p.tiles ∧ q.pred = p.pred ∧ q.accs = p.accs ∧ q.addrs = p.addrs ∧ q.shapes = p.shapes ∧
      q.xregs = p.xregs ∧ q.wins = p.wins ∧ q.sems = p.sems ∧ q.slots = p.slots ∧ q.sat = p.sat ∧ q.nan = p.nan ∧ q.fmt = p.fmt ∧
      q.c2a = p.c2a ∧ q.c2v = p.c2v ∧ q.c2m = p.c2m ∧ q.c2x = p.c2x ∧ q.a2c = p.a2c ∧ q.v2c = p.v2c ∧ q.x2c = p.x2c ∧
      q.a2v = p.a2v ∧ q.v2a = p.v2a ∧ q.m2v = p.m2v ∧ q.spdist = p.spdist ∧ q.win = p.win ∧ q.asyncs = p.asyncs ∧ q.cmds = p.cmds ∧
      q.deltas = p.deltas ∧ ∀ f, f ≠ e → q.eng f = p.eng f
    (∃ q, (s.passedAs e len st).strand s.focusTile = some q ∧ keeps (s.passedAs e len st) ∧ same st q ∧
      (q.eng e).frames = (st.eng e).frames ∧ (q.eng e).outcomes = (st.eng e).outcomes ∧ (q.eng e).wait = none ∧
      ((st.eng e).rep = none → (q.eng e).pc = (st.eng e).pc + len ∧ (q.eng e).steps = (st.eng e).steps + BitVec.ofNat 64 len)) ∧
    (∀ p, s.strand s.focusTile = some p → ∃ q, (setWait s s.focusTile e w).strand s.focusTile = some q ∧
      keeps (setWait s s.focusTile e w) ∧ same p q ∧ q.eng e = { p.eng e with wait := some w }) ∧
    (∀ p, s.strand s.focusTile = some p → ∃ q, (s.wentTo s.focusTile e pc).strand s.focusTile = some q ∧
      keeps (s.wentTo s.focusTile e pc) ∧ same p q ∧ (q.eng e).pc = pc ∧ (q.eng e).steps = (p.eng e).steps + 1 ∧
      (q.eng e).frames = (p.eng e).frames ∧ (q.eng e).outcomes = (p.eng e).outcomes)

/-- Taking a fault: the earliest fault is recorded, ties by tile index then engine tag; strands of the launch stop; memory
stands (R53, R54, R56, R416, R437, R450, R451, R460). A fault of a launch marks it faulted, counts it, and keeps the record with
the earliest tick, then the lowest tile index, then the lowest engine tag. The launch's running strands stop with their stop
requests withdrawn, and their queues, outcomes and commands are discarded once the tick has passed in which other engines may
still fault (what is discarded when is read so in log 33); requests that stand held at a slice, and issued copies, stand; its
queued strands and merge pairs are gone; other strands, memory, issued writes, dies and scratchpads are unchanged. A word's
fault is recorded at its tile core, engine, tick, strand and text index. Every fault of the launch counts in nflt (log 34). -/
def Obligations.FaultsTaken : Prop :=
  (∀ (s : State) (h : Nat) (r : FaultRec) (l : Launch), s.launch? h = some l →
    let t := takeFault s h r
    (∃ k, t.launch? h = some k ∧ k.faulted = true ∧ k.nflt = min (l.nflt + 1) (2 ^ 32 - 1) ∧ k.stopped = [] ∧
      (l.record = none → k.record = some r) ∧ (∀ q, l.record = some q → k.record = some (firstFault q r))) ∧
    (∀ u st, s.strand u = some st → st.handle ≠ h → t.strand u = some st) ∧
    (∀ u st, s.strand u = some st → st.handle = h →
      (st.dead54 = false → t.strand u = some { st with dead54 := true, deadAt := s.psc, stop := none }) ∧
      (st.dead54 = true → t.strand u = some st)) ∧
    (∀ u, ∀ x ∈ (t.core u).queue, x.1 ≠ h) ∧ (∀ x ∈ t.pairs, x.handle ≠ h) ∧ t.mem = s.mem ∧ t.pending = s.pending ∧
    t.dies = s.dies ∧ ∀ u, (t.core u).spad = (s.core u).spad) ∧
  (∀ (st : Strand) (now : DWord) (dt free early : Nat), st.dead54 = true →
    let q := st.tick now dt free early
    q.cmds = [] ∧ q.aborted = st.aborted ++ st.cmds ∧ q.c2a = [] ∧ q.c2v = [] ∧ q.c2m = [] ∧ q.c2x = [] ∧ q.a2c = [] ∧ q.v2c = [] ∧
      q.x2c = [] ∧ q.a2v = [] ∧ q.v2a = [] ∧ q.m2v = [] ∧ q.asyncs = st.asyncs ∧ q.regs = st.regs ∧
      ∀ e, (q.eng e).outcomes = [] ∧ ∀ w, (q.eng e).wait = some w ↔ (st.eng e).wait = some w ∧ w.isHeld = true) ∧
  (∀ a b : FaultRec, (firstFault a b = a ∨ firstFault a b = b) ∧
    (∀ x, x = a ∨ x = b → let q := firstFault a b
      q.tick.toNat ≤ x.tick.toNat ∧ (q.tick = x.tick → q.core.toNat ≤ x.core.toNat) ∧
      (q.tick = x.tick → q.core = x.core → q.eng.toNat ≤ x.eng.toNat))) ∧
  (∀ (s : State) (t : Core) (st : Strand) (e : Eng) (rec : BitVec 3) (c : FaultCode) (pr : Precision), s.strand t = some st →
    wordFault s t e rec c pr = (takeFault s st.handle
      { code := c.bits, core := BitVec.ofNat 8 t.val, eng := rec, detail := if pr = .async then 0 else BitVec.ofNat 20 (st.eng e).pc,
        tick := s.psc, strand := st.index }).updStrand t fun q =>
      { q.updEng e (fun g => { g with wait := none }) with faults := natInsert q.faults e.part })

/-- Scalar registers: x0 reads as zero with poison clear and discards writes; every other register holds what was written
(R148). x0 reads as zero with poison clear and a write to it, poison included, changes nothing. A write to any other register is
read back, changes no other register, and touches no other state of the strand; x31 is a register like every other. -/
def Obligations.ScalarRegisters : Prop :=
  ∀ (st : Strand) (v : PWord),
    st.x? 0 = { val := 0, poison := false } ∧ st.setX 0 v = st ∧
    ∀ d : Code, d ≠ 0 → (st.setX d v).x? d = v ∧ (∀ c : Code, c ≠ d → (st.setX d v).x? c = st.x? c) ∧
      ∃ regs, st.setX d v = { st with regs := regs }

/-- NOP has no effect beyond its text step (R177). NOP answers the state before it with its engine one text word further and one
text step on, its own wait over, the word counted and completed window words dropped: nothing else changes. -/
def Obligations.NopOnlySteps : Prop :=
  ∀ (s : State) (st : Strand) (e : Eng), s.focusEng = e → s.ready e 1 st →
    let passed := fun (q : Strand) =>
      ((q.updEng e fun g => { g with pc := (st.eng e).pc + 1, steps := g.steps + 1, wait := none, progress := 0, latch := none }).count
        (engCounter e) 1).trimLedger
    completes (exec .nop s) (s.setStrand s.focusTile (passed st))

/-- CHECK raises POISON-SYNC on a poisoned register and otherwise has no effect (R169). The word of CHECK has major 25 with its
other fields zero. It raises POISON-SYNC if its register is poisoned, and otherwise passes with the strand unchanged. -/
def Obligations.CheckWord : Prop :=
  ∀ (s : State) (st : Strand) (a : Code),
    encode (.check a) = some (Fields.toWord ⟨0, 25, 0, a, 0, 0⟩, none) ∧
    (s.ready .c 1 st → ((st.x? a).poison = true → raises (.check a) s .c 0 .poisonSync) ∧
      ((st.x? a).poison = false → completes (exec (.check a) s) (s.passedAs .c 1 st)))

/-- The control engine's integer words complete with the result of their type, and the OR of their sources' poison (R151, R159).
ADD, SUB, MUL, MULH, DIV, REM, AND, OR, XOR, SHL, SHR, MIN and MAX complete for each of the eight integer types: the destination
takes the result at the type's width, extended by its signedness, poison ORed; nothing else of the state changes but the passing
of the word. -/
def Obligations.IntegerResults : Prop :=
  ∀ (s : State) (st : Strand), s.ready .c 1 st → ∀ (d a b : Code) (ty : BitVec 4), ty.toNat < 8 →
    let x := st.x? a
    let y := st.x? b
    let A := x.val.setWidth (intWidth ty)
    let B := y.val.setWidth (intWidth ty)
    let sh := y.val.toNat % 64 % intWidth ty
    let gives := fun (i : Instr) (v : BitVec (intWidth ty)) =>
      completes (exec i s) (s.passedAs .c 1 (st.setX d ⟨extendAs ty v, x.poison || y.poison⟩))
    gives (.add d a b ty) (A + B) ∧ gives (.sub d a b ty) (A - B) ∧ gives (.mul d a b ty) (A * B) ∧
    gives (.mulh d a b ty) (if isSigned ty
      then (A.signExtend (2 * intWidth ty) * B.signExtend (2 * intWidth ty)).extractLsb' (intWidth ty) (intWidth ty)
      else (A.setWidth (2 * intWidth ty) * B.setWidth (2 * intWidth ty)).extractLsb' (intWidth ty) (intWidth ty)) ∧
    gives (.div d a b ty) (if isSigned ty then A.sdiv B else A / B) ∧
    gives (.rem d a b ty) (if isSigned ty then A.srem B else A % B) ∧
    gives (.and d a b ty) (A &&& B) ∧ gives (.or d a b ty) (A ||| B) ∧ gives (.xor d a b ty) (A ^^^ B) ∧
    gives (.shl d a b ty) (A <<< sh) ∧
    gives (.shr d a b ty) (if isSigned ty then A.sshiftRight sh else A >>> sh) ∧
    gives (.min d a b ty) (if holdsInt ty 3 A B then A else B) ∧
    gives (.max d a b ty) (if holdsInt ty 5 A B then A else B)

/-- Compares, selects and immediate words of the control engine complete with their results and poison (R151, R160, R161, R162).
CMP writes 1 or 0 by its condition between the operands at the type's width; SEL writes one of two registers by the old
destination with its poison. ADDI, ANDI, SHLI, SHRI, SARI, LI, ORI, XORI, LIW and LIH complete with their results. -/
def Obligations.CompareAndImmediates : Prop :=
  (∀ (s : State) (st : Strand), s.ready .c 1 st → ∀ (d a b : Code),
    let x := st.x? a
    let y := st.x? b
    (∀ ty c : BitVec 4, ty.toNat < 8 → c.toNat < 6 →
      completes (exec (.cmp d a b ty c) s) (s.passedAs .c 1 (st.setX d
        ⟨if holdsInt ty c.toNat (x.val.setWidth (intWidth ty)) (y.val.setWidth (intWidth ty)) then 1 else 0,
          x.poison || y.poison⟩))) ∧
    completes (exec (.sel d a b) s) (s.passedAs .c 1 (st.setX d
      (if (st.x? d).val = 0 then ⟨y.val, (st.x? d).poison || y.poison⟩ else ⟨x.val, (st.x? d).poison || x.poison⟩)))) ∧
  (∀ (s : State) (st : Strand) (d a : Code), (s.ready .c 1 st →
      let x := st.x? a
      let gives := fun (i : Instr) (v : DWord) (p : Bool) => completes (exec i s) (s.passedAs .c 1 (st.setX d ⟨v, p⟩))
      (∀ i, gives (.addi d a i) (x.val + i.signExtend 64) x.poison) ∧
      (∀ i, gives (.andi d a i) (x.val &&& i.signExtend 64) x.poison) ∧
      (∀ n, gives (.shli d a n) (x.val * BitVec.ofNat 64 (2 ^ n.toNat)) x.poison) ∧
      (∀ n, gives (.shri d a n) (BitVec.ofNat 64 (x.val.toNat / 2 ^ n.toNat)) x.poison) ∧
      (∀ n, gives (.sari d a n) (BitVec.ofInt 64 (x.val.toInt / (2 ^ n.toNat : Nat))) x.poison) ∧
      (∀ i, gives (.li d i) (i.signExtend 64) false)) ∧
    (s.ready .c 2 st →
      let x := st.x? a
      let gives := fun (i : Instr) (v : DWord) (p : Bool) => completes (exec i s) (s.passedAs .c 2 (st.setX d ⟨v, p⟩))
      (∀ i, gives (.ori d a i) (x.val ||| i.signExtend 64) x.poison) ∧
      (∀ i, gives (.xori d a i) (x.val ^^^ i.signExtend 64) x.poison) ∧
      (∀ i, gives (.liw d i) (i.signExtend 64) false) ∧
      (∀ i, gives (.lih d i) (i ++ (st.x? d).val.setWidth 32) (st.x? d).poison)))

/-- ARGL and ARGS read the 64-bit argument word that the register and the immediate name (R149, R163, R262). For an unpoisoned
index whose sum with the immediate lies in range, with the argument word in mapped memory that the element read answers, ARGL
and ARGS complete with the register holding the eight bytes as a number, or poison. -/
def Obligations.ArgumentReads : Prop :=
  ∀ (s : State) (st : Strand) (d a : Code) (off : Int) (bs : List Byte) (p : Bool) (t : State) (n : Nat),
    (st.x? a).poison = false → 0 ≤ (st.x? a).val.toInt + off → (st.x? a).val.toInt + off < 2 ^ 24 →
    st.argbase.toNat % 8 = 0 → n = st.argbase.toNat + 8 * ((st.x? a).val.toInt + off).toNat → Config.spadBytes ≤ n →
    elemRead s s.focusTile st .c st.c.slotmode n 8 = .ok (t, bs, p) →
    let word := fun (u : State) => u.updStrand s.focusTile fun q =>
      q.setX d (if p then ⟨0, true⟩ else ⟨BitVec.ofNat 64 (natOfBytes bs), false⟩)
    (s.ready .c 1 st → ∀ i : BitVec 14, i.toInt = off → completes (exec (.argl d a i) s) (passWord (word t) s.focusTile .c 1)) ∧
    (s.ready .c 2 st → ∀ i : Word, i.toInt = off → completes (exec (.args d a i) s) (passWord (word t) s.focusTile .c 2))

/-- QPUT, QGET and BSET push and pop the strand's queues in order, wait on full and empty ones, and drop for an ended consumer
(R38, R165, R166, R167, R317, R319, R320). QPUT appends to the queue it names, waits when it is full, drops the value when its
consumer has ended; QGET pops or peeks the head or waits; codes that name no queue raise ILLEGAL. BSET raises POISON-SYNC on
poison, waits while any unfinished engine's outcome queue is full, and otherwise pushes the low 32 bits to every unfinished
engine. -/
def Obligations.QueuePushesAndPops : Prop :=
  (∀ (s : State) (st : Strand), s.ready .c 1 st → ∀ (d q a : Code) (v : Queued PWord)
    (rest : List (Queued PWord)),
    let put := fun (k : Code) (consumer : Eng) (now : List (Queued PWord)) (st' : Strand) =>
      ((st.eng consumer).ended = true → completes (exec (.qput k a) s) (s.passedAs .c 1 (st.count 13 1))) ∧
      ((st.eng consumer).ended = false → now.length < 8 → completes (exec (.qput k a) s) (s.passedAs .c 1 st')) ∧
      ((st.eng consumer).ended = false → 8 ≤ now.length → waits (.qput k a) s .c .push)
    let seen := st.took .c [v]
    let get := fun (k : Code) (now : List (Queued PWord)) (popped : Strand) =>
      (now = v :: rest → completes (exec (.qget d k 0) s) (s.passedAs .c 1 (popped.setX d v.val)) ∧
        completes (exec (.qget d k 1) s) (s.passedAs .c 1 (seen.setX d v.val))) ∧
      (now = [] → waits (.qget d k 0) s .c .pop ∧ waits (.qget d k 1) s .c .pop)
    let entry := st.entry .c [] (st.x? a)
    put 0 .a st.c2a { st with c2a := st.c2a ++ [entry] } ∧ put 1 .v st.c2v { st with c2v := st.c2v ++ [entry] } ∧
    put 2 .m st.c2m { st with c2m := st.c2m ++ [entry] } ∧ put 3 .x st.c2x { st with c2x := st.c2x ++ [entry] } ∧
    (4 ≤ q.toNat → raises (.qput q a) s .c 0 .illegal) ∧
    get 0 st.a2c { seen with a2c := rest } ∧ get 1 st.v2c { seen with v2c := rest } ∧ get 2 st.x2c { seen with x2c := rest } ∧
    (3 ≤ q.toNat → ∀ k, raises (.qget d q k) s .c 0 .illegal)) ∧
  (∀ (s : State) (st : Strand) (a : Code), s.ready .c 1 st →
    ((st.x? a).poison = true → raises (.bset a) s .c 0 .poisonSync) ∧
    ((st.x? a).poison = false →
      ((∃ e, (st.eng e).ended = false ∧ 8 ≤ (st.eng e).outcomes.length) → waits (.bset a) s .c .outcomeFull) ∧
      ((∀ e, (st.eng e).ended = false → (st.eng e).outcomes.length < 8) →
        reaches (exec (.bset a) s) fun t => ∃ st', t.strand s.focusTile = some st' ∧ ∀ e,
          (st'.eng e).outcomes = if (st.eng e).ended then (st.eng e).outcomes
            else (st.eng e).outcomes ++ [(st.x? a).val.setWidth 32])))

/-- SRD reads every system register; SWR writes win, sbase, slim and slotmode in range and raises ILLEGAL or POISON-SYNC
otherwise (R34, R40, R153, R154, R155, R156, R157, R170). SRD completes for each of the thirteen registers with its value and
raises ILLEGAL for any other number. SWR completes for the writable registers on clean values in range, with the frame it
states; a number that is not writable raises ILLEGAL, and so do win outside 16 to 1,024, sbase and slim misaligned, out of
order, out of range or written at a depth above 16, and slotmode above 1; a poisoned source raises POISON-SYNC. -/
def Obligations.SystemRegisters : Prop :=
  (∀ (s : State) (st : Strand) (d : Code) (l : Launch), s.ready .c 2 st → s.launch? st.handle = some l →
    let flag := fun (b : Bool) (k : Nat) => if b then 2 ^ k else 0
    let gives := fun (n : Word) (v : Nat) =>
      completes (exec (.srd d n) s) (s.passedAs .c 2 (st.setX d ⟨BitVec.ofNat 64 v, false⟩))
    gives 0x0 st.win.toNat ∧ gives 0x1 st.c.sbase.toNat ∧ gives 0x2 st.c.slim.toNat ∧ gives 0x3 st.spdist.toNat ∧
    gives 0x4 st.splim.toNat ∧ gives 0x5 st.c.slotmode.toNat ∧
    gives 0x6 (min 7 (l.prio.val + l.aged) * 64 + st.cls.bits.toNat * 16 + flag st.ovr 3 + flag st.resumed 2
      + flag st.gang 1 + flag st.det 0) ∧
    gives 0x7 st.index.toNat ∧ gives 0x8 st.launch.toNat ∧ gives 0x9 st.phase.toNat ∧ gives 0xA s.focusTile.val ∧
    gives 0xB st.c.depth.toNat ∧ gives 0xC st.argbase.toNat ∧
    (∀ n : Word, 13 ≤ n.toNat → raises (.srd d n) s .c 0 .illegal)) ∧
  (∀ (s : State) (st : Strand) (a : Code), s.ready .c 2 st →
    let v := (st.x? a).val
    let clean := (st.x? a).poison = false
    let own := fun (n : Word) (g : Engine) => reaches (exec (.swr a n) s) fun t => ∃ st', t.strand s.focusTile = some st' ∧
      st'.c.sbase = g.sbase ∧ st'.c.slim = g.slim ∧ st'.c.slotmode = g.slotmode ∧ st'.win = st.win ∧
      (∀ e, e ≠ .c → st'.eng e = st.eng e) ∧ st'.swrs.getLast? = some ⟨st.c.pos, n.toNat, v⟩
    (∀ n : Word, n ≠ 0 → n ≠ 1 → n ≠ 2 → n ≠ 5 → raises (.swr a n) s .c 0 .illegal) ∧
    (∀ n : Word, n = 0 ∨ n = 1 ∨ n = 2 ∨ n = 5 → ¬clean → raises (.swr a n) s .c 0 .poisonSync) ∧
    (clean → 16 ≤ v.toNat → v.toNat ≤ 1024 →
      completes (exec (.swr a 0) s) (s.passedAs .c 2 { st with win := v.setWidth 11 })) ∧
    (clean → (v.toNat < 16 ∨ 1024 < v.toNat) → raises (.swr a 0) s .c 0 .illegal) ∧
    (clean → st.c.depth.toNat ≤ 16 → v.toNat % 16 = 0 → v.toNat < 2 ^ 22 → v.toNat ≤ st.c.slim.toNat →
      own 1 { st.c with sbase := v.setWidth 22 }) ∧
    (clean → st.c.depth.toNat ≤ 16 → v.toNat % 16 = 0 → v.toNat ≤ 0x200000 → st.c.sbase.toNat ≤ v.toNat →
      own 2 { st.c with slim := v.setWidth 22 }) ∧
    (clean → v.toNat ≤ 1 → own 5 { st.c with slotmode := v.setWidth 1 }) ∧
    (clean → (v.toNat % 16 ≠ 0 ∨ 2 ^ 22 ≤ v.toNat ∨ st.c.slim.toNat < v.toNat ∨ 16 < st.c.depth.toNat) →
      raises (.swr a 1) s .c 0 .illegal) ∧
    (clean → (v.toNat % 16 ≠ 0 ∨ 0x200000 < v.toNat ∨ v.toNat < st.c.sbase.toNat ∨ 16 < st.c.depth.toNat) →
      raises (.swr a 2) s .c 0 .illegal) ∧
    (clean → 1 < v.toNat → raises (.swr a 5) s .c 0 .illegal))

/-- TICK, MSLOT and CTRR give the step counter, the slot of a tick, and the performance counters (R417, R425, R444, R446, R447).
TICK gives psc, and a second TICK of the strand in one tick waits for the next. MSLOT gives start, length and mask of the first
slot not ended at the tick asked for, and raises POISON-SYNC or ILLEGAL otherwise. CTRR gives each strand counter (of counter
11, how many accesses were split since it was last read is a free value up to their number, log 32) and the tile core's window
counts, and raises ILLEGAL for unused numbers. -/
def Obligations.TimeAndCounters : Prop :=
  (∀ (s : State) (st : Strand) (d a : Code), s.ready .c 2 st →
    let gives := fun (i : Instr) (v : DWord) => completes (exec i s) (s.passedAs .c 2 (st.setX d ⟨v, false⟩))
    (st.lastTick ≠ some s.psc → completes (exec (.tick d) s)
      (s.passedAs .c 2 { st.setX d ⟨s.psc, false⟩ with lastTick := some s.psc })) ∧
    (st.lastTick = some s.psc → completes (exec (.tick d) s) s) ∧
    ((st.x? a).poison = true → ∀ n, raises (.mslot d a n) s .c 0 .poisonSync) ∧
    ((st.x? a).poison = false →
      gives (.mslot d a 0) (slotAt (st.x? a).val).1 ∧ gives (.mslot d a 1) (slotAt (st.x? a).val).2.1 ∧
      gives (.mslot d a 2) (slotAt (st.x? a).val).2.2 ∧ ∀ n : Word, 3 ≤ n.toNat → raises (.mslot d a n) s .c 0 .illegal) ∧
    (∀ n : Fin 17, n ≠ 11 → gives (.ctrr d (BitVec.ofNat 32 n.val)) (st.perf.get n)) ∧
    (reaches (exec (.ctrr d 11) s) fun t => ∃ st' k, k ≤ st.splits ∧ t.strand s.focusTile = some st' ∧ st'.splits = 0 ∧
      st'.perf.get 11 = (st.count 11 k).perf.get 11 ∧ (d ≠ 0 → st'.x? d = ⟨st'.perf.get 11, false⟩)) ∧
    (∀ n : Word, 17 ≤ n.toNat → n.toNat < 2 ^ 28 → raises (.ctrr d n) s .c 0 .illegal) ∧
    (∀ row : Nat, row < 2 → gives (.ctrr d (BitVec.ofNat 32 (2 ^ 29 + row))) (BitVec.ofNat 64 (spadWindow s s.focusTile row)))) ∧
  (∀ t : DWord, t.toNat + 32768 < 2 ^ 64 →
    let len := fun (x : Nat) => if x % 1048576 = 0 then 12288 else 1280
    let r := slotAt t
    r.1.toNat % 16384 = 0 ∧ r.2.1.toNat = len r.1.toNat ∧ t.toNat < r.1.toNat + r.2.1.toNat ∧
    r.2.2 = (if r.1.toNat % 1048576 = 0 then 15 else 1) ∧
    ∀ x : Nat, x % 16384 = 0 → t.toNat < x + len x → r.1.toNat ≤ x)

/-- TBIND, TUNB, TREAD, TVER, TSTAT, TSYNC, TSTMP, TRING and GSEL complete with what the record, its pins and stamps hold (R168,
R379, R391, R392, R393, R394, R395, R396). On a bound record slot whose request can be served, the tensor words complete with
the record's word, the pinned entry or without a pin the home's current one, the ring entry, the histogram, the words, phase
counts and launch accumulator that TSTAT selects, the stamp with the granule's state, and TSYNC's flush, which waits while a
Stamp of the strand under the record is under way (log 36). TBIND binds and pins, raises POISON-SYNC on poison and PROTECTION
for an index outside the table or an entry that is not live; TUNB unbinds; an unbound slot, an offset, entry or selector that is
not listed raises ILLEGAL, an element outside the tensor PROTECTION. GSEL records the strand's selector for a graph node's
launch and nothing for another, or raises POISON-SYNC. -/
def Obligations.RecordWords : Prop :=
  (∀ (s : State) (st : Strand) (d tc a : Code) (j : Job) (k : Fin 16) (i : BitVec 24), s.ready .c 2 st →
    k.val = tc.toNat → s.job? st.job = some j →
    let x := st.x? a
    let gives := fun (i : Instr) (s1 : State) (v : Nat) => completes (exec i s) (passWord (putX s1 s.focusTile d v) s.focusTile .c 2)
    let asked := fun (i off : Nat) (s1 : State) => recordRequest s s.focusTile st j i off = .ok s1
    let word := fun (s1 : State) (off w : Nat) => cacheWord s1 s.focusTile j (recAddr j i.toNat + off) = .ok w
    let mine := Pending.stampsOf (st.agent s.focusTile Eng.c.part) i.toNat
    let counts := (lookupNat j.counts i.toNat).getD {}
    let accum := ((s.launch? st.handle).bind fun l => lookupNat l.accums i.toNat).getD {}
    let field := fun (c : Delta) (k : Nat) =>
      [c.zero, c.nan, c.ovf, c.udf, c.n, (BitVec.ofInt 64 (c.max.getD (-128))).toNat].getD k 0
    completes (exec (.tunb tc) s) (s.passedAs .c 2 { st with slots := st.slots.set k.val none k.isLt }) ∧
    (st.slots.get k = none → ∀ n : Word, raises (.tsync tc) s .c 0 .illegal ∧ raises (.tver d tc) s .c 0 .illegal ∧
      raises (.tread d tc n) s .c 0 .illegal ∧ raises (.tring d tc n) s .c 0 .illegal ∧ raises (.tstat d tc n) s .c 0 .illegal ∧
      (n = BitVec.ofNat 32 k.val → x.poison = false → raises (.tstmp d a n) s .c 0 .illegal)) ∧
    (∀ n : Word, 16 ≤ n.toNat → raises (.tstmp d a n) s .c 0 .illegal) ∧
    (∀ n : Word, n.toNat < 16 → x.poison = true → raises (.tstmp d a n) s .c 0 .poisonSync) ∧
    (st.slots.get k = some i →
      (∀ e, pinOf s st i.toNat = some e → completes (exec (.tver d tc) s) (passWord (putX s s.focusTile d e.toNat) s.focusTile .c 2)) ∧
      (∀ e, pinOf s st i.toNat = none → ringAt s s.focusTile j i.toNat 0 = .ok e →
        completes (exec (.tver d tc) s) (passWord (putX s s.focusTile d e) s.focusTile .c 2)) ∧
      (∀ (n : Word) (w : Nat) (s1 : State), n.toNat % 8 = 0 → n.toNat ≤ 248 → asked i.toNat n.toNat s1 →
        word s1 n.toNat w → gives (.tread d tc n) s1 w) ∧
      (∀ n : Word, n.toNat % 8 ≠ 0 ∨ 248 < n.toNat → raises (.tread d tc n) s .c 0 .illegal) ∧
      (∀ (n : Word) (e : Nat) (s1 : State), n.toNat < 8 → asked i.toNat (0x30 + 4 * n.toNat / 8 * 8) s1 →
        ringAt s1 s.focusTile j i.toNat n.toNat = .ok e → gives (.tring d tc n) s1 e) ∧
      (∀ n : Word, 8 ≤ n.toNat → raises (.tring d tc n) s .c 0 .illegal) ∧
      (∀ (n : Word) (w0 w1 : Nat) (s1 s2 : State), n.toNat < 48 →
        let lo := 24 * n.toNat
        let at0 := 0x58 + 8 * (lo / 64)
        let at1 := 0x58 + 8 * ((lo + 23) / 64)
        asked i.toNat at0 s1 → recordRequest s1 s.focusTile st j i.toNat at1 = .ok s2 → word s2 at0 w0 → word s2 at1 w1 →
        gives (.tstat d tc n) s2 (bits (w1 * 2 ^ 64 + w0) (lo % 64 + 23) (lo % 64))) ∧
      (∀ (w : Nat) (s1 : State), asked i.toNat 0xE8 s1 → word s1 0xE8 w →
        gives (.tstat d tc 48) s1 (bits w 39 16) ∧ gives (.tstat d tc 49) s1 (bits w 63 40) ∧ gives (.tstat d tc 50) s1 (bits w 13 8)) ∧
      (∀ (n : Nat) (s1 : State), asked i.toNat 0 s1 →
        (n < 48 → gives (.tstat d tc (BitVec.ofNat 32 (64 + n))) s1 ((lookupNat counts.bins n).getD 0) ∧
          gives (.tstat d tc (BitVec.ofNat 32 (128 + n))) s1 ((lookupNat accum.bins n).getD 0)) ∧
        (n < 6 → gives (.tstat d tc (BitVec.ofNat 32 (112 + n))) s1 (field counts n) ∧
          gives (.tstat d tc (BitVec.ofNat 32 (176 + n))) s1 (field accum n))) ∧
      (∀ n : Word, (51 ≤ n.toNat ∧ n.toNat < 64) ∨ (118 ≤ n.toNat ∧ n.toNat < 128) ∨ 182 ≤ n.toNat →
        raises (.tstat d tc n) s .c 0 .illegal) ∧
      (∀ s1 : State, asked i.toNat 0 s1 → (∀ p ∈ s1.pending, mine p = false) → completes (exec (.tsync tc) s)
        (passWord (flushDeltas s1 s.focusTile (some i.toNat)) s.focusTile .c 2)) ∧
      (∀ s1 : State, asked i.toNat 0 s1 → (∃ p ∈ s1.pending, mine p = true) → waits (.tsync tc) s .c .writes) ∧
      (∀ (ws : List Nat) (b : Nat) (r : Bool) (n : Word) (s1 s2 : State), n = BitVec.ofNat 32 k.val → x.poison = false →
        let g := x.val.toNat / 65536
        let at_ := bits (ws.getD 5 0) 55 0 + g
        recordWords s s.focusTile j i.toNat = .ok ws →
        (bits (ws.getD 2 0) 39 0 ≤ x.val.toNat → raises (.tstmp d a n) s .c 0 .protection) ∧
        (x.val.toNat < bits (ws.getD 2 0) 39 0 →
          asked i.toNat 0x30 s1 → homeRequest s1 s.focusTile st j at_ 1 = .ok s2 → stampByte s2 s.focusTile j at_ = .ok b →
          inRing s2 s.focusTile j i.toNat b 8 = .ok r →
          gives (.tstmp d a n) s2 (b + (match granuleSeen s2 s.focusTile j i.toNat g with
            | none => 0 | some false => 1 | some true => 2) * 256 + (if r then 1024 else 0))))) ∧
    (x.poison = true → raises (.tbind tc a) s .c 0 .poisonSync) ∧
    (x.poison = false → j.rtsize ≤ x.val.toNat → raises (.tbind tc a) s .c 0 .protection) ∧
    (∀ (e : Nat) (ws : List Nat) (s1 : State), x.poison = false → x.val.toNat < j.rtsize → asked x.val.toNat 0x30 s1 →
      s1.job? st.job = some j → ringAt s1 s.focusTile j x.val.toNat 0 = .ok e → recordWords s1 s.focusTile j x.val.toNat = .ok ws →
      (bits e 24 24 = 0 → raises (.tbind tc a) s .c 0 .protection) ∧
      ∀ t, pinRecord s1 s.focusTile st x.val.toNat = .ok t →
        completes (exec (.tbind tc a) s) (passWord (t.updStrand s.focusTile fun q =>
          { q with slots := q.slots.set k.val (some (x.val.setWidth 24)) k.isLt }) s.focusTile .c 2))) ∧
  (∀ (s : State) (st : Strand) (a : Code) (i : BitVec 8), s.ready .c 1 st →
    ((st.x? a).poison = true → raises (.gsel a i) s .c 0 .poisonSync) ∧
    ((st.x? a).poison = false → reaches (exec (.gsel a i) s) fun t =>
      (∀ l l', s.launch? st.handle = some l → t.launch? st.handle = some l' →
        if l.node.isSome then
          l'.selectors.filter (fun e => e.1 == st.index) = [(st.index, (st.x? a).val.setWidth 8 + i)] ∧
          l'.selectors.filter (fun e => e.1 != st.index) = l.selectors.filter (fun e => e.1 != st.index)
        else l' = l) ∧
      t.strand s.focusTile = (s.passedAs .c 1 st).strand s.focusTile))

/-- SEMI, SEMD, SEMS and their wide twins change one semaphore, saturating; SEMW passes at its threshold and waits below it
(R301, R302, R427, R430, R431, R432, R434). On any engine with no write of its own outstanding and none held that its release
covers the changes complete on strand and die semaphores: saturating sum, difference floored at zero, or the value; no other
strand semaphore changes; another engine of the strand that waits on a strand semaphore whose new value reaches its threshold is
met; a strand semaphore above 31 raises ILLEGAL. SEMW and its wide twin pass where they have been met, whatever the value since,
or where the value has reached the threshold, bound from then on to see what the releases on the semaphore cover, and wait where
it has not. -/
def Obligations.Semaphores : Prop :=
  (∀ (s : State) (st : Strand) (e : Eng), s.strand s.focusTile = some st →
    (∀ p ∈ s.pending, p.agent ≠ st.agent s.focusTile e.part) →
    s.coversHeld (s.covers (st.agent s.focusTile e.part) (st.eng e).view) = false →
    let after := fun (op : SemOp) (q v : Nat) => match op with
      | .inc => min (q + v) (2 ^ 32 - 1) | .dec => q - v | .set => v
    let gives := fun (i : Instr) (op : SemOp) (die : BitVec 1) (n : BitVec 10) (v : Word) =>
      (die = 0 → 32 ≤ n.toNat → raises i s e e.tag .illegal) ∧
      (∀ h : n.toNat < 32, die = 0 → reaches (exec i s) fun t => ∃ st', t.strand s.focusTile = some st' ∧
        (st'.sems.get ⟨n.toNat, h⟩).toNat = after op (st.sems.get ⟨n.toNat, h⟩).toNat v.toNat ∧
        (∀ k : Fin 32, k.val ≠ n.toNat → st'.sems.get k = st.sems.get k) ∧ t.dies = s.dies ∧
        ∀ (w : Eng) (thr : Word), w ≠ e → (st.eng w).wait = some (.sem (n.setWidth 5) thr) →
          thr.toNat ≤ after op (st.sems.get ⟨n.toNat, h⟩).toNat v.toNat → (st'.eng w).woken.isSome = true) ∧
      (die = 1 → reaches (exec i s) fun t =>
        (dieSem t s.focusTile st.job n.toNat).toNat = after op (dieSem s s.focusTile st.job n.toNat).toNat v.toNat ∧
        ∃ st', t.strand s.focusTile = some st' ∧ st'.sems = st.sems)
    (st.slipStalled e 1 = false → ∀ die n, ∀ v : BitVec 13, gives (.semi e die n v) .inc die n (v.setWidth 32) ∧
      gives (.semd e die n v) .dec die n (v.setWidth 32) ∧ gives (.sems e die n v) .set die n (v.setWidth 32)) ∧
    (st.slipStalled e 2 = false → ∀ die n, ∀ v : Word, gives (.semiWide e die n v) .inc die n v ∧
      gives (.semdWide e die n v) .dec die n v ∧ gives (.semsWide e die n v) .set die n v)) ∧
  (∀ (s : State) (st : Strand) (e : Eng) (die : BitVec 1) (n : BitVec 10), (die = 0 → n.toNat < 32) →
    let q := (semValue s s.focusTile st (die == 1) n.toNat).toNat
    let w := fun (v : Word) => if die = 1 then Wait.dieSem n v else .sem (n.setWidth 5) v
    let acquired := s.bind s.focusTile e (semView s s.focusTile st (die == 1) n.toNat)
    let passes := fun (i : Instr) (len : Nat) (v : Word) =>
      (∀ x, (st.eng e).woken = some x → completes (exec i s) (passWord (s.bind s.focusTile e x.2) s.focusTile e len)) ∧
      ((st.eng e).woken = none → v.toNat ≤ q → completes (exec i s) (passWord acquired s.focusTile e len)) ∧
      ((st.eng e).woken = none → q < v.toNat → waits i s e (w v))
    (s.ready e 1 st → ∀ v : BitVec 13, passes (.semw e die n v) 1 (v.setWidth 32)) ∧
    (s.ready e 2 st → ∀ v : Word, passes (.semwWide e die n v) 2 v))

/-- BR, BRQ, CALL and RET go where their offset, outcome and return stack say; a target outside the text raises ILLEGAL (R39,
R40, R74, R171, R172). On each engine: BR goes to its target; BRQ waits without an outcome and else pops one and goes on or to
the target; CALL pushes the return index and goes; RET pops a call frame and returns, raising STACK-LIMIT on an empty stack and
ILLEGAL on a loop frame. A target outside the text raises ILLEGAL in all three transfers. -/
def Obligations.Branches : Prop :=
  ∀ (s : State) (st : Strand) (e : Eng) (off : BitVec 24), s.focusEng = e → s.ready e 1 st →
    let i := (st.eng e).pc
    let x : Int := i + off.toInt
    let inside := 0 ≤ x ∧ x < st.textLen
    let framed := fun (f : Frame) => s.updStrand s.focusTile fun q => q.updEng e fun g =>
      { g with frames := f :: g.frames, depth := g.depth + 1 }
    (inside →
      completes (exec (.br off) s) (s.wentTo s.focusTile e x.toNat) ∧
      ((st.eng e).outcomes = [] → waits (.brq off) s e .outcomeEmpty) ∧
      (∀ v rest, (st.eng e).outcomes = v :: rest →
        completes (exec (.brq off) s) ((popOutcome s s.focusTile e).wentTo s.focusTile e (if v = 0 then i + 1 else x.toNat))) ∧
      ((st.eng e).depth.toNat < 16 →
        completes (exec (.call off) s) ((framed ⟨false, 0, BitVec.ofNat 32 (i + 1)⟩).wentTo s.focusTile e x.toNat)) ∧
      (∀ t, pushFrame s s.focusTile st e ⟨false, 0, BitVec.ofNat 32 (i + 1)⟩ = .ok t →
        completes (exec (.call off) s) (t.wentTo s.focusTile e x.toNat))) ∧
    (¬inside → raises (.br off) s e 0 .illegal ∧ raises (.brq off) s e 0 .illegal ∧ raises (.call off) s e 0 .illegal) ∧
    ((st.eng e).frames = [] → raises .ret s e 0 .stackLimit) ∧
    (∀ f rest, (st.eng e).frames = f :: rest →
      (f.loop = true → raises .ret s e 0 .illegal) ∧
      (f.loop = false → f.index.toNat < st.textLen → ∀ t, popFrame s s.focusTile st e = .ok t →
        completes (exec .ret s) (t.wentTo s.focusTile e f.index.toNat)))

/-- LOOP, LOOPQ and ENDL run loop frames; the return stack holds 16 frames on chip, spills the oldest and fills it back
unchanged (R40, R74, R173). LOOP and LOOPQ enter a body with a frame of the trip count less one, or skip it at count zero; a
body that is empty or leaves the text raises ILLEGAL; ENDL goes back while the count lasts and then pops. Up to depth 16 frames
stay on chip; past it the oldest is written above sbase, STACK-LIMIT past slim, and a pop reads it back, or raises POISON-SYNC;
the sixteen bytes of a loop frame, or of a call frame whose count is zero, give the frame back (other bytes: log 50). -/
def Obligations.LoopsAndReturnStack : Prop :=
  (∀ (s s1 : State) (st : Strand) (e : Eng), s.focusEng = e → s.ready e 1 st →
    let i := (st.eng e).pc
    let body := fun (m : Nat) => 0 < m ∧ i + m + 1 < st.textLen ∧
      aheadWord s s.focusTile st e (st.eng e).pos (i + m) = .ok (s1, 0xA7000000)
    let enters := fun (k : Nat) (t : State) =>
      pushFrame s1 s.focusTile st e ⟨true, BitVec.ofNat 64 (k - 1), BitVec.ofNat 32 (i + 1)⟩ = .ok t
    (∀ k m : BitVec 12, body m.toNat →
      (k = 0 → completes (exec (.loop k m) s) (s1.wentTo s.focusTile e (i + m.toNat + 1))) ∧
      (k ≠ 0 → ∀ t, enters k.toNat t → completes (exec (.loop k m) s) (t.wentTo s.focusTile e (i + 1)))) ∧
    (∀ m : BitVec 24, body m.toNat →
      ((st.eng e).outcomes = [] → waits (.loopq m) s e .outcomeEmpty) ∧
      (∀ v rest, (st.eng e).outcomes = v :: rest →
        (v = 0 →
          completes (exec (.loopq m) s) ((popOutcome (goTo s1 s.focusTile e (i + m.toNat + 1)) s.focusTile e).counted s.focusTile e)) ∧
        (v ≠ 0 → ∀ t, enters v.toNat t →
          completes (exec (.loopq m) s) ((popOutcome (goTo t s.focusTile e (i + 1)) s.focusTile e).counted s.focusTile e)))) ∧
    (∀ m : Nat, (m = 0 ∨ st.textLen ≤ i + m) →
      (∀ k m' : BitVec 12, m'.toNat = m → raises (.loop k m') s e 0 .illegal) ∧
      (∀ m' : BitVec 24, m'.toNat = m → raises (.loopq m') s e 0 .illegal)) ∧
    ((st.eng e).frames = [] → raises .endl s e 0 .stackLimit) ∧
    (∀ f rest, (st.eng e).frames = f :: rest →
      (f.loop = false → raises .endl s e 0 .illegal) ∧
      (f.loop = true → f.count ≠ 0 → f.index.toNat < st.textLen → completes (exec .endl s)
        ((s.updStrand s.focusTile fun q => q.updEng e fun g => { g with frames := { f with count := f.count - 1 } :: rest }).wentTo
          s.focusTile e f.index.toNat)) ∧
      (f.loop = true → f.count = 0 → ∀ t, popFrame s s.focusTile st e = .ok t →
        completes (exec .endl s) (t.wentTo s.focusTile e (i + 1))))) ∧
  (∀ (s : State) (st : Strand) (t : Core) (e : Eng) (f : Frame), s.strand t = some st →
    let g := st.eng e
    let slot := fun (d : Nat) => g.sbase.toNat + 16 * (d - 17)
    (g.depth.toNat < 16 → pushFrame s t st e f =
      .ok (s.updStrand t fun q => q.updEng e fun g => { g with frames := f :: g.frames, depth := g.depth + 1 })) ∧
    (16 ≤ g.depth.toNat → g.slim.toNat < slot (g.depth.toNat + 1) + 16 →
      pushFrame s t st e f = .error (.fault .stackLimit)) ∧
    (∀ old front, g.frames = front ++ [old] → 16 ≤ g.depth.toNat → slot (g.depth.toNat + 1) + 16 ≤ g.slim.toNat →
      pushFrame s t st e f = .ok ((s.spadWrite (st.agent t e.part) {} (slot (g.depth.toNat + 1)) old.bytes false).updStrand t fun q =>
        q.updEng e fun g => { g with frames := f :: front, depth := g.depth + 1 })) ∧
    (g.depth.toNat ≤ 16 → popFrame s t st e =
      .ok (s.updStrand t fun q => q.updEng e fun g => { g with frames := g.frames.drop 1, depth := g.depth - 1 })) ∧
    (∀ s1 s2 lo hi p q, 16 < g.depth.toNat → spadRead s t e (slot g.depth.toNat) 8 = (s1, lo, p) →
      spadRead s1 t e (slot g.depth.toNat + 8) 8 = (s2, hi, q) →
      ((p || q) = true → popFrame s t st e = .error (.fault .poisonSync)) ∧
      (p = false → q = false → lo ++ hi = f.bytes → (f.loop = true ∨ f.count = 0) →
        popFrame s t st e = .ok (s2.updStrand t fun q => q.updEng e fun g =>
          { g with frames := g.frames.drop 1 ++ [f], depth := g.depth - 1 })))) ∧
  (∀ f : Frame, f.bytes.length = 16 ∧ (f.loop = true ∨ f.count = 0 → Frame.ofBytes f.bytes = some f))

/-- SAFE and SAFE.G pass without a stop request, count, and reset the safe distance when the last engine passes (R63, R175,
R401). With a valid table entry of its kind and no stop request, the word passes on each engine: index, text step and pass
counts move; spdist returns to 0 when this engine is the last to pass and is unchanged otherwise; memory, registers and tiles
are unchanged. The word of the other kind raises ILLEGAL. -/
def Obligations.SafePointsPassed : Prop :=
  ∀ (s s1 : State) (st : Strand) (e : Eng) (n : BitVec 16) (en : SafeEntry), s.focusEng = e → s.ready e 1 st →
    st.rebuild = none → safeEntry s s.focusTile st e n.toNat = .ok (s1, en) →
    let word := if en.g then Instr.safeG n else Instr.safe n
    let other := if en.g then Instr.safe n else Instr.safeG n
    let here := (st.eng e).pc
    raises other s e 0 .illegal ∧
    (st.stop = none → reaches (exec word s) fun t => ∃ q, t.strand s.focusTile = some q ∧
      (q.eng e).pc = here + 1 ∧ (q.eng e).steps = (st.eng e).steps + 1 ∧ (q.eng e).holding = (st.eng e).holding ∧
      (q.eng e).safes = (st.eng e).safes + 1 ∧ (q.eng e).gsafes = (st.eng e).gsafes + (if en.g then 1 else 0) ∧
      (q.spdist = st.spdist ∨ q.spdist = 0) ∧
      ((∀ k, k ≠ e → (st.eng e).safes < (st.eng k).safes) → q.spdist = 0) ∧
      ((∃ k, k ≠ e ∧ (st.eng k).safes ≤ (st.eng e).safes) → q.spdist = st.spdist) ∧
      t.mem = s1.mem ∧ q.regs = st.regs ∧ q.tiles = st.tiles)

/-- FENCE acquires, releases or both at its scope, NOP passes, END ends its engine (R176, R177, R178, R297, R298, R304, R305,
R306). On each engine: an acquire fence completes with the engine bound to what the releases of its scope cover; a release fence
completes with its release made at its scope, or waits; one of both kinds does both in that order; kind 0 raises ILLEGAL. NOP
completes. END ends the engine with its frames, outcomes and queues dropped, and raises ILLEGAL in rebuild mode. -/
def Obligations.FencesAndEnd : Prop :=
  ∀ (s : State) (st : Strand) (e : Eng), s.focusEng = e → s.ready e 1 st →
    let on := (st.eng e).pc + 1
    completes (exec .nop s) (s.wentTo s.focusTile e on) ∧
    (∀ sc : BitVec 2,
      completes (exec (.fence 2 sc) s) ((fenceAcquire s s.focusTile e (Scope.ofBits sc)).wentTo s.focusTile e on) ∧
      (∀ t, fenceRelease s s.focusTile e (Scope.ofBits sc) = .ok t →
        completes (exec (.fence 1 sc) s) (t.wentTo s.focusTile e on) ∧
        completes (exec (.fence 3 sc) s) ((fenceAcquire t s.focusTile e (Scope.ofBits sc)).wentTo s.focusTile e on)) ∧
      (∀ w, fenceRelease s s.focusTile e (Scope.ofBits sc) = .error (.wait w) →
        waits (.fence 1 sc) s e w ∧ waits (.fence 3 sc) s e w) ∧
      raises (.fence 0 sc) s e 0 .illegal) ∧
    (st.rebuild = none → completes (exec .endW s) ((s.setStrand s.focusTile ((st.discard e).updEng e fun g =>
      { g.goto (g.pc + 1) with ended := true, frames := [], depth := 0, outcomes := [] })).counted s.focusTile e)) ∧
    (st.rebuild ≠ none → raises .endW s e 0 .illegal)

/-- RESUME meets all engines in rebuild mode and sends them back; REP repeats the words that follow it (R41, R174, R179, R412).
RESUME raises ILLEGAL outside rebuild mode, waits for the other engines, and with depth, predicate depth and empty queues as the
context has them sends every engine to the word after the stop point, raising ILLEGAL otherwise. REP begins a repetition of its
engine's next own words, and raises ILLEGAL inside one; an engine that within a repetition reaches an S word, an own REP or the
end of the text raises ILLEGAL there (the place is the model's choice, log 72). -/
def Obligations.ResumeAndRep : Prop :=
  ∀ (s : State) (st : Strand) (e : Eng), s.ready e 1 st →
    (s.focusEng = e →
      (st.rebuild = none → raises .resume s e 0 .illegal) ∧
      (∀ r, st.rebuild = some r →
        ((∃ k, k ≠ e ∧ (st.eng k).wait ≠ some .resume) → waits .resume s e .resume) ∧
        ((∀ k, k ≠ e → (st.eng k).wait = some .resume) →
          ((st.eng e).depth = r.depth → st.pred.length = r.pd → st.queuesEmpty = true →
            reaches (exec .resume s) fun t => ∃ q, t.strand s.focusTile = some q ∧ q.rebuild = none ∧ q.spdist = 0 ∧
              ∀ k, (q.eng k).pc = r.back ∧ (q.eng k).steps = (st.eng k).steps + 1 ∧ (q.eng k).wait = none) ∧
          (¬((st.eng e).depth = r.depth ∧ st.pred.length = r.pd ∧ st.queuesEmpty = true) → raises .resume s e 0 .illegal)))) ∧
    (∀ (n : BitVec 6) (k : BitVec 16),
      ((st.eng e).rep ≠ none → raises (.rep e n k) s e e.tag .illegal) ∧
      ((st.eng e).rep = none → completes (exec (.rep e n k) s) ((s.updStrand s.focusTile fun q => q.updEng e fun g =>
        { g.pass 1 with rep := some { first := g.pc + 1, n := n.toNat + 1, left := k.toNat } }).counted s.focusTile e))) ∧
    (∀ (s0 s1 : State) (n : Nat) (rest : List Turn) (w : Word), s0.agenda = ⟨n, .engine s.focusTile e⟩ :: rest →
      s = { advance { s0 with agenda := rest } n with focusTile := s.focusTile, focusEng := e } → st.slipStalled e 1 = false →
      (st.eng e).ended = false → st.halted = false → st.halting = false → st.dead54 = false → (st.eng e).holding = false →
      st.spdist.toNat ≤ st.splim.toNat → (st.eng e).rep ≠ none →
      (st.textLen ≤ (st.eng e).pc → step s0 = .next (wordFault s s.focusTile e e.tag .illegal .atWord)) ∧
      ((st.eng e).pc < st.textLen → textWord s s.focusTile st e (st.eng e).pos (st.eng e).pc = .ok (s1, w) →
        ((Fields.ofWord w).tag = 5 ∨ ((Fields.ofWord w).tag = e.tag ∧ (Fields.ofWord w).maj = 30)) →
        step s0 = .next (wordFault s1 s.focusTile e e.tag .illegal .atWord)))

/-- The access engine's register words: operands, arithmetic, shape fields, shape records and windows (R104, R264, R265, R266,
R267, R268, R269). Sources are registers or C2A popped or peeked. AADD, ASUB, AADDI, AMULI, ALI, ALIW and AADDW complete with
their sums and products, poison ORed. HSET, HSETW and HGET write and read each shape field with its range; HLD loads an aligned
48-byte record of its exact address, and faults outside the address space, on poison and on an illegal shape; AWIN forms a
window from a shape at an aligned address in scratchpad. -/
def Obligations.AddressAndShapeWords : Prop :=
  (∀ (st : Strand) (a : Code) (v : Queued PWord) (rest : List (Queued PWord)),
    (∀ h : a.toNat < 16, srcA st a = .ok (st.addrs.get ⟨a.toNat, h⟩, st)) ∧
    (st.c2a = v :: rest →
      srcA st 24 = .ok (v.val, { st.took .a [v] with c2a := rest }) ∧ srcA st 25 = .ok (v.val, st.took .a [v])) ∧
    (st.c2a = [] → srcA st 24 = .error (.wait .pop) ∧ srcA st 25 = .error (.wait .pop)) ∧
    (16 ≤ a.toNat → a ≠ 24 → a ≠ 25 → srcA st a = .error (.fault .illegal))) ∧
  (∀ (s : State) (st st1 st2 : Strand) (d a b : Code) (x y : PWord),
    let gives := fun (i : Instr) (len : Nat) (q : Strand) (v : DWord) (p : Bool) =>
      (∀ h : d.toNat < 16, completes (exec i s) (s.passedAs .a len (q.setA ⟨d.toNat, h⟩ ⟨v, p⟩))) ∧
      (16 ≤ d.toNat → raises i s .a 1 .illegal)
    (s.ready .a 1 st →
      (∀ i, gives (.ali d i) 1 st (i.signExtend 64) false) ∧
      (srcA st a = .ok (x, st1) →
        (∀ i, gives (.aaddi d a i) 1 st1 (x.val + i.signExtend 64) x.poison) ∧
        (∀ i, gives (.amuli d a i) 1 st1 (x.val * i.signExtend 64) x.poison) ∧
        (srcA st1 b = .ok (y, st2) →
          gives (.aadd d a b) 1 st2 (x.val + y.val) (x.poison || y.poison) ∧
          gives (.asub d a b) 1 st2 (x.val - y.val) (x.poison || y.poison)))) ∧
    (s.ready .a 2 st →
      (∀ i, gives (.aliw d i) 2 st (i.signExtend 64) false) ∧
      (srcA st a = .ok (x, st1) → ∀ i, gives (.aaddw d a i) 2 st1 (x.val + i.signExtend 64) x.poison))) ∧
  (∀ (s : State) (st st1 : Strand) (d a : Code) (x : PWord) (hd : d.toNat < 16),
    let k : Fin 16 := ⟨d.toNat, hd⟩
    (s.ready .a 1 st →
      (srcA st a = .ok (x, st1) → ∀ f : BitVec 3,
        (x.poison = true → raises (.hset d a f) s .a 1 .poisonSync) ∧
        (x.poison = false →
          (∀ hf : f.toNat < 4, (x.val.toNat < 2 ^ 32 → completes (exec (.hset d a f) s) (s.passedAs .a 1
              (st1.setH k { st1.shapes.get k with ext := (st1.shapes.get k).ext.set f.toNat (x.val.setWidth 32) }))) ∧
            (2 ^ 32 ≤ x.val.toNat → raises (.hset d a f) s .a 1 .illegal)) ∧
          (∀ hf : f.toNat - 4 < 4, 4 ≤ f.toNat →
            (-(2 ^ 47) ≤ x.val.toInt → x.val.toInt < 2 ^ 47 → completes (exec (.hset d a f) s) (s.passedAs .a 1
              (st1.setH k { st1.shapes.get k with stride := (st1.shapes.get k).stride.set (f.toNat - 4) (x.val.setWidth 48) }))) ∧
            (¬(-(2 ^ 47) ≤ x.val.toInt ∧ x.val.toInt < 2 ^ 47) → raises (.hset d a f) s .a 1 .illegal)))) ∧
      (∀ (f : BitVec 3) (ha : a.toNat < 16),
        (∀ hf : f.toNat < 4, completes (exec (.hget d a f) s) (s.passedAs .a 1
          (st.setA k ⟨((st.shapes.get ⟨a.toNat, ha⟩).ext.get ⟨f.toNat, hf⟩).setWidth 64, false⟩))) ∧
        (∀ hf : f.toNat - 4 < 4, 4 ≤ f.toNat → completes (exec (.hget d a f) s) (s.passedAs .a 1
          (st.setA k ⟨((st.shapes.get ⟨a.toNat, ha⟩).stride.get ⟨f.toNat - 4, hf⟩).signExtend 64, false⟩))))) ∧
    (s.ready .a 2 st → ∀ (f : Code) (imm : Word),
      (∀ hf : f.toNat < 4, completes (exec (.hsetw d f imm) s) (s.passedAs .a 2
        (st.setH k { st.shapes.get k with ext := (st.shapes.get k).ext.set f.toNat imm }))) ∧
      (∀ hf : f.toNat - 4 < 4, 4 ≤ f.toNat → completes (exec (.hsetw d f imm) s) (s.passedAs .a 2
        (st.setH k { st.shapes.get k with stride := (st.shapes.get k).stride.set (f.toNat - 4) (imm.signExtend 48) }))) ∧
      (8 ≤ f.toNat → raises (.hsetw d f imm) s .a 1 .illegal))) ∧
  (∀ (s s1 : State) (st st1 q : Strand) (d a b : Code) (x : PWord) (l : Latch), s.ready .a 1 st → st.a.latch = none →
    srcA st a = .ok (x, st1) → x.poison = false →
    (∀ (hd : d.toNat < 16) (i : BitVec 14) (h : Shape),
      let addr : Int := x.val.toNat + i.toInt
      let at_ : PWord := ⟨BitVec.ofInt 64 addr, false⟩
      (addr % 16 ≠ 0 → raises (.hld d a i) s .a 1 .align) ∧
      (addr % 16 = 0 → addr < 0 → raises (.hld d a i) s .a 1 .translation) ∧
      (addr % 16 = 0 → Config.spadBytes ≤ addr → 2 ^ 56 < addr + 48 → raises (.hld d a i) s .a 1 .translation) ∧
      (addr % 16 = 0 → 0 ≤ addr → addr < Config.spadBytes → Config.spadBytes < addr + 48 → raises (.hld d a i) s .a 1 .protection) ∧
      (addr % 16 = 0 → (0 ≤ addr ∧ addr + 48 ≤ Config.spadBytes) ∨
          (Config.spadBytes ≤ addr ∧ addr + 48 ≤ 2 ^ 56 ∧ (s.slotNow && st.a.slotmode == 1) = false) →
        gatherWords s.focusTile at_ 6
          (s.setStrand s.focusTile { st1 with a := { st1.a with latch := some { addr := at_ } } }) = .done s1 →
        s1.strand s.focusTile = some q → q.a.latch = some l →
        (l.buf.any Prod.snd = true → raises (.hld d a i) s .a 1 .poisonSync) ∧
        (l.buf.any Prod.snd = false → shapeOfBytes (l.buf.map Prod.fst) = none → raises (.hld d a i) s .a 1 .illegal) ∧
        (l.buf.any Prod.snd = false → shapeOfBytes (l.buf.map Prod.fst) = some h →
          completes (exec (.hld d a i) s) (s1.passedAs .a 1 (q.setH ⟨d.toNat, hd⟩ h))))) ∧
    (∀ (hd : d.toNat % 8 < 8) (hb : b.toNat < 16) (w : Window), 16 ≤ d.toNat → d.toNat < 24 →
      windowWait st .a [d.toNat % 8] = .ok () →
      (Config.spadBytes ≤ x.val.toNat → raises (.awin d a b) s .a 1 .protection) ∧
      (x.val.toNat < Config.spadBytes → x.val.toNat % 64 ≠ 0 → raises (.awin d a b) s .a 1 .align) ∧
      (x.val.toNat < Config.spadBytes → x.val.toNat % 64 = 0 →
        windowOfShape x.val.toNat (st1.shapes.get ⟨b.toNat, hb⟩) = some w →
        completes (exec (.awin d a b) s) (s.passedAs .a 1 (st1.setW ⟨d.toNat % 8, hd⟩ w)))))

/-- ALD and ALD.S load an element into A2C or a traversal into scratchpad or a window; AST stores an element (R262, R271, R272,
R273, R274, R275). One aligned element of scratchpad goes to A2C with its poison, or is dropped for an ended consumer, and C2A's
head is stored. A load whose requests are all read is written to scratchpad in order from its destination, or row by row into a
window that takes the tag of a tagged load. -/
def Obligations.LoadsAndStores : Prop :=
  (∀ (s s1 : State) (st st1 q : Strand) (a b : Code) (x : PWord) (sz : BitVec 2) (hb : b.toNat < 16) (bs : List Byte) (p : Bool),
    s.ready .a 1 st → st.a.latch = none → srcA st a = .ok (x, st1) → x.poison = false →
    singleElement (st1.shapes.get ⟨b.toNat, hb⟩) →
    let z := 2 ^ sz.toNat
    let at_ := x.val.toNat
    let core := s.core s.focusTile
    at_ % z = 0 → at_ + z ≤ Config.spadBytes →
    (spadRead (s.setStrand s.focusTile st1) s.focusTile .a at_ z = (s1, bs, p) → s1.strand s.focusTile = some q →
      ((∀ u ∈ core.past, st1.a.view.sees u = true ∨ u.agent = st.agent s.focusTile 1) →
        bs = core.spad.bytes at_ z ∧ p = core.spad.poisoned at_ z) ∧
      (∀ i ∈ [Instr.ald 28 a b 0 0 sz, Instr.aldS 28 a b 0 0 sz],
        (st1.c.ended = false → st1.a2c.length < 8 → completes (exec i s) (s1.passedAs .a 1
          { q with a2c := q.a2c ++ [q.entry .a [] ⟨BitVec.ofNat 64 (natOfBytes bs), p⟩] })) ∧
        (st1.c.ended = true → completes (exec i s) (s1.passedAs .a 1 (q.count 13 1))))) ∧
    (∀ v rest, st1.c2a = v :: rest → completes (exec (.ast 24 a b 0 0 sz) s)
      (((s.spadWrite (st.agent s.focusTile 1) st1.a.sig.rels at_ (bytesOfNat z v.val.val.toNat) v.val.poison).setStrand s.focusTile
        { st1.took .a [v] with c2a := rest }).passed .a 1))) ∧
  (∀ (s s1 : State) (st st1 : Strand) (d a b : Code) (tc : BitVec 4) (r : BitVec 1) (sz : BitVec 2) (l : Latch)
    (k : Nat) (acc : List (Byte × Bool)) (spec : Bool), s.ready .a 1 st → st.a.latch = none →
    loadStart d a b tc r sz s s.focusTile st = .ok (st1, l) →
    let i := if spec then Instr.aldS d a b tc r sz else Instr.ald d a b tc r sz
    let z := 2 ^ sz.toNat
    let h := st1.shapes.get ⟨b.toNat % 16, Nat.mod_lt _ (by decide)⟩
    let g := { st1 with a := { st1.a with latch := some l, progress := 0 } }
    let from_ := s.setStrand s.focusTile g
    let me := st.agent s.focusTile 1
    (∀ hd : d.toNat < 16,
      readRun s.focusTile g spec (requests h l.addr.val.toNat z none 0).2 h.count 0 [] from_ = (s1, k, acc, none) →
      completes (exec i s) (passWord (writeStream me st1.a.sig.rels (fun o => (st1.addrs.get ⟨d.toNat, hd⟩).val.toNat + o)
        (max 1 (h.count * z)) acc.length 0 acc.reverse s1) s.focusTile .a 1)) ∧
    (∀ hw : 16 ≤ d.toNat ∧ d.toNat < 24,
      let w := st1.wins.get ⟨d.toNat - 16, by omega⟩
      let q := requests h l.addr.val.toNat z l.mx l.row.1
      readRun s.focusTile g spec q.2 q.1 0 [] (bindWindows from_ s.focusTile .a [d.toNat - 16]) = (s1, k, acc, none) →
      let s2 := writeStream me st1.a.sig.rels (fun o => w.rowAddr (o / l.row.2) + o % l.row.2) l.row.2 acc.length 0 acc.reverse s1
      completes (exec i s) (passWord ((noteWindow from_ (keepA s2 s.focusTile l k) s.focusTile (d.toNat - 16)).updStrand s.focusTile
        fun g => if l.tag.tv
          then g.setW ⟨d.toNat - 16, by omega⟩ { w with kind := 1, slot := l.tag.slot, ver := l.tag.ver } else g) s.focusTile .a 1)))

/-- ALD into A2V fills entries of 256 bytes with the load's tag; AST completes when its last piece is stored (R271, R273, R275,
R276). A load into A2V of up to one entry pushes the bytes read, zeros after them, with poison and the tag its check found; a
traversal of no elements pushes nothing. A store whose start is checked and whose pieces are all stored completes. -/
def Obligations.QueueLoadsAndStores : Prop :=
  ∀ (s s1 t : State) (st st1 st2 : Strand) (d a b : Code) (tc : BitVec 4) (r : BitVec 1) (sz : BitVec 2) (l : Latch)
    (k : Nat) (acc : List (Byte × Bool)) (spec : Bool), s.ready .a 1 st → st.a.latch = none →
    (loadStart 29 a b tc r sz s s.focusTile st = .ok (st1, l) → l.mx = none → l.buf = [] →
      let i := if spec then Instr.aldS 29 a b tc r sz else Instr.ald 29 a b tc r sz
      let z := 2 ^ sz.toNat
      let h := st1.shapes.get ⟨b.toNat % 16, Nat.mod_lt _ (by decide)⟩
      let g := { st1 with a := { st1.a with latch := some l, progress := 0 } }
      let from_ := s.setStrand s.focusTile g
      (h.count = 0 → completes (exec i s) (passWord from_ s.focusTile .a 1)) ∧
      (0 < h.count → h.count * z ≤ 256 →
        readRun s.focusTile g spec (requests h l.addr.val.toNat z none 512).2 h.count 0 [] from_ = (s1, k, acc, none) →
        s1.strand s.focusTile = some st2 → st2.v.ended = false → st2.a2v.length < 16 →
        completes (exec i s) (s1.passedAs .a 1 { st2 with
          a2v := st2.a2v ++ [st2.entry .a st2.a.sources ⟨lanesOf (acc.reverse.map Prod.fst), acc.reverse.any Prod.snd, l.tag⟩] }))) ∧
    (∀ g, storeStart d a b tc r sz s s.focusTile st = .ok s1 → s1.strand s.focusTile = some g → ∀ l, g.a.latch = some l →
      let h := st.shapes.get ⟨b.toNat % 16, Nat.mod_lt _ (by decide)⟩
      let q := requests h l.addr.val.toNat (2 ^ sz.toNat) (if d = 24 ∨ d = 25 then none else l.mx)
        (if d.toNat < 16 then h.e 0 else 512)
      storeGo s.focusTile d (2 ^ sz.toNat) q.1 q.2 (3 * q.1 + 4) s1 = .done t →
      completes (exec (.ast d a b tc r sz) s) (passWord t s.focusTile .a 1))

/-- CPY and PRMT issue a command within the limit, and the command reads, writes, frees its slot and raises its semaphore (R278,
R279, R280, R293, R309). With a free slot and after its release the word queues the command with its shapes, addresses and
semaphore, or does nothing but the semaphore for no elements (unchecked: the model's choice of log 55); it waits without a slot,
and faults outside its range or in a slot under STRICT. The command copies its destination units of 64 bytes, each read and
written at once, frees the slot and raises the semaphore unless its launch has faulted, waiting while the release covers a held
write or its die may not release; a slot that holds it leaves it with what it has copied and is counted once; a failed read or
write is an asynchronous fault. -/
def Obligations.CopiesIssueAndComplete : Prop :=
  (∀ (s s1 : State) (st st1 st2 : Strand) (d a b sc : Code) (e : BitVec 1) (x y : PWord) (permute : Bool)
    (hb : b.toNat < 16), s.ready .a 1 st → b.toNat % 2 = 0 → srcA st a = .ok (x, st1) → srcA st1 d = .ok (y, st2) →
    x.poison = false → y.poison = false → (e = 0 → sc = 0) →
    let i := if permute then Instr.prmt d a b sc e else Instr.cpy d a b sc e
    let src := st.shapes.get ⟨b.toNat, hb⟩
    let dst := st.shapes.get ⟨(b.toNat + 1) % 16, Nat.mod_lt _ (by decide)⟩
    let busy := (st.asyncs.filter fun c => c.permute == permute).length
    let inside := isLocal x.val.toNat = true ∧ isLocal y.val.toNat = true
    src.st 0 = 1 → dst.st 0 = 1 → src.count = dst.count → src.count ≤ 2 ^ 36 →
    let from_ := s.setStrand s.focusTile st2
    let sc_ := if permute then Scope.die else Scope.package
    let may := (src.count = 0 ∨ inside ∨ permute = false) ∧
      (src.count = 0 ∨ inside ∨ s.slotNow = false ∨ st.a.slotmode = 0) ∧
      (src.count ≠ 0 → checkTraversal src x.val.toNat 1 = .ok () ∧ checkTraversal dst y.val.toNat 1 = .ok ())
    ((if permute then 4 else 16) ≤ busy → waits i s .a .copySlot) ∧
    (busy < (if permute then 4 else 16) →
      (src.count ≠ 0 → ¬inside → permute = true → raises i s .a 1 .protection) ∧
      (src.count ≠ 0 → ¬inside → permute = false → checkTraversal src x.val.toNat 1 = .ok () →
        checkTraversal dst y.val.toNat 1 = .ok () → s.slotNow = true → st.a.slotmode = 1 → raises i s .a 1 .slotIntrusion) ∧
      (∀ w, may → release from_ s.focusTile .a sc_ = .error (.wait w) → waits i s .a w) ∧
      (∀ v, may → release from_ s.focusTile .a sc_ = .ok (s1, v) →
        (src.count = 0 →
          completes (exec i s) (passWord (if e = 1 then signalSem s1 s.focusTile (!permute) sc v else s1) s.focusTile .a 1)) ∧
        (src.count ≠ 0 → completes (exec i s) (passWord (s1.updStrand s.focusTile fun q => { q with
          seq := q.seq + 1
          asyncs := q.asyncs ++ [{ permute, src := x.val.toNat, dst := y.val.toNat, srcShape := src, dstShape := dst,
                                   sem := if e = 1 then some sc else none, seq := q.seq,
                                   clock := (s1.die (dieOf s.focusTile)).clock, view := v }] }) s.focusTile .a 1))))) ∧
  (∀ (s s1 : State) (tile : Core) (slot : Nat) (st : Strand) (x y : Async), copyAt s tile slot = some (st, x) →
    let i := if x.permute then Instr.permuteComplete tile slot else Instr.copyEngineComplete tile slot
    let gone := fun (q : State) => q.updStrand tile fun g => { g with asyncs := g.asyncs.eraseIdx slot }
    let put := fun (q : State) (z : Async) => q.updStrand tile fun g => { g with asyncs := g.asyncs.set slot z }
    let ran := copyUnits tile st (x.units.zipIdx.map fun u => (u.2, u.1)) x s
    let holds := fun (q : State) => (put q { y with held := true }).hold (.part tile x.part) (dieOf tile) 
    let part := s1.covers (st.agent tile (8 + 2 * x.seq)) y.view
    x.part = 8 + 2 * x.seq ∧
    (∀ c, ran = (s1, y, some (.fault c)) → completes (exec i s) (commandFault (gone s1) tile 1 c)) ∧
    (∀ a, ran = (s1, y, some (.wait (.held a))) →
      (x.held = true → y.done = x.done → exec i s = .next s) ∧
      (x.held = true → y.done ≠ x.done → completes (exec i s) (holds s1 a)) ∧
      (x.held = false → completes (exec i s) (holds (if s.slotNow then s1.updStrand tile (·.count 9 1) else s1) a))) ∧
    (∀ w, (∀ a, w ≠ .held a) → ran = (s1, y, some (.wait w)) →
      (y.done = x.done → exec i s = .next s) ∧ (y.done ≠ x.done → completes (exec i s) (put s1 { y with held := false }))) ∧
    (ran = (s1, y, none) →
      (x.sem = none ∨ st.dead54 = true → completes (exec i s) (gone s1)) ∧
      (∀ n, x.sem = some n → st.dead54 = false →
        (s1.coversHeld part = false → (x.permute = true ∨ s1.canRaise (dieOf tile) = true) → completes (exec i s)
          (signalSem (gone s1) tile (!x.permute) n part)) ∧
        (s1.coversHeld part = true ∨ (x.permute = false ∧ s1.canRaise (dieOf tile) = false) →
          (y.done = x.done → exec i s = .next s) ∧ (y.done ≠ x.done → completes (exec i s) (put s1 { y with held := false }))))) ∧
    (∀ (u : List (Nat × Nat)) (v v1 : View) (bs : List (Byte × Bool)), let from_ := byteAddrs x.srcShape x.src
      (∀ p ∈ u, p.1 < from_.foldl min (from_.headD 0) ∨ from_.foldl max 0 < p.1) →
      copyRead tile st x (u.map Prod.snd) s v = .ok (s1, v1, bs) → ∀ s2,
        partRuns s1 tile st x.part (unitRuns ((u.map Prod.fst).zip bs)) (some (st.wid (if x.permute then 1 else 6) x.seq)) = .ok s2 →
        copyOne tile st x u s v = .ok (s2, v1)) ∧
    (∀ u ∈ x.units, ∃ k, ∀ p ∈ u, p.1 / 64 = k))

/-- The scalar forms of AGTH, ASCA and AATM read, combine and update one element in scratchpad (R281, R282, R284, R285). AGTH
pushes the indexed element to A2C with its poison; ASCA combines the value with the element by its operation; AATM updates the
element and writes its old value to the address register. -/
def Obligations.GatherScatterAtomic : Prop :=
  ∀ (s s1 : State) (st : Strand) (a : Code) (ha : a.toNat < 16) (x : PWord) (k : Queued PWord) (rest : List (Queued PWord)),
    s.ready .a 1 st → st.a.latch = none → st.addrs.get ⟨a.toNat, ha⟩ = x → x.poison = false →
    x.val.toNat < Config.spadBytes → st.c2a = k :: rest → k.val.poison = false →
    let spad := (s.core s.focusTile).spad
    let me := st.agent s.focusTile 1
    let index := (k.val.val.setWidth 32).toNat
    let after := fun (q : Strand) (at_ z : Nat) =>
      (s.setStrand s.focusTile q).looked s.focusTile .a (lookNow spad spad.get (s.core s.focusTile).past me at_ z)
    (∀ (sz : BitVec 2) (q : Strand) (bs : List Byte) (p : Bool), let z := 2 ^ sz.toNat
      let at_ := x.val.toNat + index * z
      at_ % z = 0 → at_ + z ≤ Config.spadBytes → st.c.ended = false → st.a2c.length < 8 →
      spadRead (s.setStrand s.focusTile { st.took .a [k] with c2a := rest }) s.focusTile .a at_ z = (s1, bs, p) →
      s1.strand s.focusTile = some q →
      completes (exec (.agth 28 a 24 sz) s) (s1.passedAs .a 1
        { q with a2c := q.a2c ++ [q.entry .a [] ⟨BitVec.ofNat 64 (natOfBytes bs), p⟩] })) ∧
    (∀ (ty : BitVec 4) (o : BitVec 3) (v : Queued PWord) (more : List (Queued PWord)), let at_ := x.val.toNat + 4 * index
      rest = v :: more → ty = 2 ∨ ty = 6 ∨ ty = 8 → o.toNat < 3 → at_ % 4 = 0 → at_ + 4 ≤ Config.spadBytes →
      completes (exec (.asca 24 a 24 ty o) s)
        (((after { (st.took .a [k]).took .a [v] with c2a := more } at_ 4).spadWrite me st.a.sig.rels at_
          (bytesOfNat 4 (combine ty o.toNat (natOfBytes (spad.bytes at_ 4)) (v.val.val.setWidth 32).toNat))
          (spad.poisoned at_ 4 || v.val.poison)).passed .a 1)) ∧
    (∀ (ty : BitVec 4) (d : Code) (hd : d.toNat < 16) (o : BitVec 3), let at_ := x.val.toNat
      let w := intWidth ty
      ty = 2 ∨ ty = 6 ∨ ty = 3 ∨ ty = 7 → o.toNat < 7 → at_ % (w / 8) = 0 → at_ + w / 8 ≤ Config.spadBytes →
      let old := natOfBytes (spad.bytes at_ (w / 8))
      completes (exec (.aatm d a 24 ty o) s)
        ((((after { st.took .a [k] with c2a := rest } at_ (w / 8)).spadWrite me st.a.sig.rels at_
          (bytesOfNat (w / 8) (aatmNew ty o.toNat w old (k.val.val.toNat % 2 ^ w) 0)) (spad.poisoned at_ (w / 8))).updStrand
            s.focusTile fun q => q.setA ⟨d.toNat, hd⟩ ⟨extend ty old, spad.poisoned at_ (w / 8)⟩).passed .a 1))

/-- STU, REQT, SURV and APF complete: updated masters and codes written, survivors handed to the compactor, lines prefetched
(R267, R286, R287, R288, R289, R290, R291, R292, R364, R365). STU and REQT whose start their checks accept complete when every
element is done, in order, and fault on a poisoned, misplaced or oversized operand; SURV hands 32 aligned bytes, with what its
release covers, to the batch of its out-edge, or waits for the compactor, where in a deterministic job the first strand never
waits (log 27); APF brings the lines of a traversal of stride 1 into shared SRAM outside slots, and raises ILLEGAL otherwise.
What a stage leaves where a request of it fails is log 20. -/
def Obligations.StageWords : Prop :=
  ∀ (s s1 s2 s3 : State) (st st1 st2 g : Strand) (d a b : Code) (tc : BitVec 4), s.ready .a 1 st → st.a.latch = none →
    (∀ x, srcA st a = .ok (x, st1) → d = 26 ∨ d = 27 →
      (x.poison = true → raises (.stu d a tc) s .a 1 .poisonSync) ∧
      (x.poison = false → Config.spadBytes ≤ x.val.toNat → raises (.stu d a tc) s .a 1 .protection) ∧
      (x.poison = false → x.val.toNat < Config.spadBytes → x.val.toNat % 64 ≠ 0 → raises (.stu d a tc) s .a 1 .align)) ∧
    (∀ u l, stuStart d a tc s s.focusTile st = .ok s1 → s1.strand s.focusTile = some g → g.a.latch = some l →
      updateDesc (natOfBytes (l.buf.map Prod.fst)) = some u → elements s.focusTile u.n (stuElem s.focusTile u) 65 s1 = .done s2 →
      completes (exec (.stu d a tc) s) (passWord s2 s.focusTile .a 1)) ∧
    (∀ x y, (a.toNat < 16 ∨ a = 24 ∨ a = 25) → (d.toNat < 16 ∨ d = 24 ∨ d = 25) → b.toNat < 16 →
      srcA st a = .ok (x, st1) → srcA st1 d = .ok (y, st2) →
      ((x.poison || y.poison) = true → raises (.reqt d a b tc) s .a 1 .poisonSync) ∧
      (x.poison = false → y.poison = false → (bits x.val.toNat 63 40 ≠ 0 ∨ bits y.val.toNat 63 43 ≠ 0) →
        raises (.reqt d a b tc) s .a 1 .illegal)) ∧
    (reqtStart d a b tc s s.focusTile st = .ok s1 →
      let h := st.shapes.get ⟨b.toNat % 16, Nat.mod_lt _ (by decide)⟩
      elements s.focusTile h.count (reqtElem s.focusTile h) (h.count + 1) s1 = .done s2 →
      completes (exec (.reqt d a b tc) s) (passWord s2 s.focusTile .a 1)) ∧
    (∀ (x : PWord) (hb : b.toNat < 16), srcA st a = .ok (x, st1) →
      let h := st.shapes.get ⟨b.toNat, hb⟩
      let from_ := s.setStrand s.focusTile st1
      (h.st 0 = 1 → ((x.poison || s.slotNow || isLocal x.val.toNat) = true → completes (exec (.apf a b) s) (s.passedAs .a 1 st1)) ∧
        ∀ j, s.job? st.job = some j → x.poison = false → s.slotNow = false → isLocal x.val.toNat = false →
          completes (exec (.apf a b) s) (passWord ((h.lines x.val.toNat).foldl
            (fun s line => prefetch s s.focusTile j (128 * line)) from_) s.focusTile .a 1)) ∧
      (h.st 0 ≠ 1 → raises (.apf a b) s .a 1 .illegal)) ∧
    (∀ (e : BitVec 4) (x : PWord) l gh node gr k c, s.launch? st.handle = some l → l.node = some (gh, node) →
      s.graph? gh = some gr → outEdge gr node e.toNat = some k → (gr.batches.find? fun c => c.edge == k) = some c →
      srcA st a = .ok (x, st1) → x.poison = false → x.val.toNat < Config.spadBytes →
      (x.val.toNat % 32 ≠ 0 → raises (.surv a e) s .a 1 .align) ∧
      (x.val.toNat % 32 = 0 → c.started * c.bsize + c.cur.length + c.store.length < c.cap * c.bsize →
        let first := lowestLive s l = st.index.toNat
        (8192 ≤ compactorLoad s c.die → ¬(st.det = true ∧ first) → waits (.surv a e) s .a .compactor) ∧
        (∀ v rec_, compactorLoad s c.die < 8192 → st.det = false →
          release (s.setStrand s.focusTile st1) s.focusTile .a .package = .ok (s2, v) →
          spadBytes s2 s.focusTile .a x.val.toNat 32 = (s3, rec_) →
          reaches (exec (.surv a e) s) fun t => t.graph? gh = some { gr with batches := gr.batches.map fun o =>
            if o.edge = c.edge then { o with cur := o.cur ++ [(rec_.map Prod.fst, rec_.any Prod.snd, v)] } else o })))

/-- Tile operands, elements of a lane, and what a predicated write leaves in lanes, poison and tags (R182, R183, R185, R186,
R187, R190, R192). Sources are registers, sixteen entries of A2V or M2V, or one entry of C2V in every lane; words wait for
entries and raise ILLEGAL on a pair of one queue. A lane holds one 32-bit or two 16-bit elements. Lanes a predicated write skips
keep their values; a row keeps poison through kept lanes and loses its tag, one of which no lane is written too (the model's
choice of log 58). -/
def Obligations.VectorOperandsAndWrites : Prop :=
  (∀ (st : Strand) (a b : Code) (es rest : List (Queued Row)) (v : Queued PWord)
    (more : List (Queued PWord)), es.length = 16 →
    let taken := tileOfRows (es.map (·.val))
    (∀ h : a.toNat < 16, srcV st a = .ok (st.tiles.get ⟨a.toNat, h⟩, st)) ∧
    (st.a2v = es ++ rest →
      srcV st 16 = .ok (taken, { st.took .v es with a2v := rest }) ∧ srcV st 17 = .ok (taken, st.took .v es)) ∧
    (st.m2v = es ++ rest →
      srcV st 18 = .ok (taken, { st.took .v es with m2v := rest }) ∧ srcV st 19 = .ok (taken, st.took .v es)) ∧
    (st.a2v.length < 16 → srcV st 16 = .error (.wait .pop) ∧ srcV st 17 = .error (.wait .pop)) ∧
    (st.m2v.length < 16 → srcV st 18 = .error (.wait .pop) ∧ srcV st 19 = .error (.wait .pop)) ∧
    (st.c2v = v :: more → ∃ t, srcV st 20 = .ok (t, { st.took .v [v] with c2v := more }) ∧
      srcV st 21 = .ok (t, st.took .v [v]) ∧
      ∀ r c, r < 16 → c < 64 → t.lane r c = v.val.val.setWidth 32 ∧ (t.row r).poison = v.val.poison) ∧
    (st.c2v = [] → srcV st 20 = .error (.wait .pop) ∧ srcV st 21 = .error (.wait .pop)) ∧
    (∀ (ha : a.toNat < 16) (hb : b.toNat < 16),
      srcV2 st a b = .ok (st.tiles.get ⟨a.toNat, ha⟩, st.tiles.get ⟨b.toNat, hb⟩, st)) ∧
    (22 ≤ a.toNat ∨ 22 ≤ b.toNat → srcV2 st a b = .error (.fault .illegal)) ∧
    (∀ k ∈ [(16 : Code), 17], srcV2 st 16 k = .error (.fault .illegal)) ∧
    (∀ k ∈ [(18 : Code), 19], srcV2 st 18 k = .error (.fault .illegal))) ∧
  (∀ (st : Strand) (q : BitVec 1) (old new : Tile) (r c : Nat), r < 16 → c < 64 →
    let t := mergeTile st q old new
    let kept := ∃ k, k < 64 ∧ st.writes q r k = false
    let some_ := ∃ k, k < 64 ∧ st.writes q r k = true
    t.lane r c = (if st.writes q r c then new.lane r c else old.lane r c) ∧
    ((t.row r).poison = true ↔ (some_ ∧ (new.row r).poison = true) ∨ (kept ∧ (old.row r).poison = true)) ∧
    (kept → (t.row r).tag = {}) ∧ (¬kept → (t.row r).tag = (new.row r).tag) ∧
    (q = 0 → st.writes q r c = true) ∧ (st.pred = [] → st.writes q r c = true) ∧
    (∀ m rest, st.pred = m :: rest → q = 1 → st.writes q r c = m.getLsbD (64 * r + c))) ∧
  (∀ (ty : BitVec 4) (f : Word → Word → Word → Word) (a b d : Word),
    (ty = 2 ∨ ty = 6 ∨ ty = 8 → perElem ty f a b d = f a b d) ∧
    (ty = 1 ∨ ty = 5 ∨ ty = 9 →
      (perElem ty f a b d).extractLsb' 0 16 =
        (f ((a.extractLsb' 0 16).setWidth 32) ((b.extractLsb' 0 16).setWidth 32) ((d.extractLsb' 0 16).setWidth 32)).extractLsb' 0 16 ∧
      (perElem ty f a b d).extractLsb' 16 16 =
        (f ((a.extractLsb' 16 16).setWidth 32) ((b.extractLsb' 16 16).setWidth 32) ((d.extractLsb' 16 16).setWidth 32)).extractLsb' 0 16))

/-- VADD, VSUB, VMUL, VFMA, VMIN, VMAX, VAND, VOR, VXOR, the shifts and VMAC2 complete with each element's result (R136, R137,
R197, R198, R199). For every accepted type and rounding the words complete with each element's result under .p and the row's
poison; the integer forms wrap, the floating forms round once; VMAC2 adds two products of halves, saturates, and sets sat where
a written lane saturates. -/
def Obligations.VectorArithmetic : Prop :=
  (∀ (s : State) (st st1 : Strand) (d a b : Code) (q : BitVec 1) (x y : Tile), s.ready .v 1 st →
    srcV2 st a b = .ok (x, y, st1) →
    let old := st1.tiles.toList.getD d.toNat (Vector.replicate 16 blankRow)
    let gives := fun (i : Instr) (ty : BitVec 4) (third : Bool) (f : Word → Word → Word → Word) =>
      intoTile i s st1 d q (tileOf (fun r c => perElem ty f (x.lane r c) (y.lane r c) (old.lane r c))
        (fun r => (x.row r).poison || (y.row r).poison || (third && (old.row r).poison)))
    (∀ ty : BitVec 4, ty = 1 ∨ ty = 2 ∨ ty = 5 ∨ ty = 6 →
      gives (.vadd d a b ty 0 q) ty false (fun u v _ => u + v) ∧ gives (.vsub d a b ty 0 q) ty false (fun u v _ => u - v) ∧
      gives (.vmul d a b ty 0 q) ty false (fun u v _ => u * v) ∧ gives (.vfma d a b ty 0 q) ty true (fun u v w => u * v + w) ∧
      gives (.vmin d a b ty q) ty false (fun u v _ => if asInt ty u.toNat ≤ asInt ty v.toNat then u else v) ∧
      gives (.vmax d a b ty q) ty false (fun u v _ => if asInt ty v.toNat ≤ asInt ty u.toNat then u else v) ∧
      gives (.vshl d a b ty q) ty false (fun u v _ => BitVec.ofInt 32 (asInt ty u.toNat * (2 ^ (v.toNat % intWidth ty) : Nat))) ∧
      gives (.vshr d a b ty q) ty false (fun u v _ => BitVec.ofInt 32 (asInt ty u.toNat / (2 ^ (v.toNat % intWidth ty) : Nat))) ∧
      (∀ r rm, Rm.ofBits r = some rm → rm ≠ .rs → gives (.vrshr d a b ty r q) ty false
        (fun u v _ => BitVec.ofInt 32 (roundShift (asInt ty u.toNat) (v.toNat % intWidth ty) rm)))) ∧
    (∀ ty : BitVec 4, ty = 2 ∨ ty = 6 → gives (.vand d a b ty q) ty false (fun u v _ => u &&& v) ∧
      gives (.vor d a b ty q) ty false (fun u v _ => u ||| v) ∧ gives (.vxor d a b ty q) ty false (fun u v _ => u ^^^ v)) ∧
    (∀ ty f, vecFmt ty = some f →
      gives (.vmin d a b ty q) ty false (fun u v _ => fminmax f false u v) ∧
      gives (.vmax d a b ty q) ty false (fun u v _ => fminmax f true u v) ∧
      ∀ r rm, Rm.ofBits r = some rm → rm ≠ .rs →
        let down := rm == .rd
        gives (.vadd d a b ty r q) ty false (fun u v _ => round f rm ((f.decode u).add down (f.decode v))) ∧
        gives (.vsub d a b ty r q) ty false (fun u v _ => round f rm ((f.decode u).add down (f.decode v).neg)) ∧
        gives (.vmul d a b ty r q) ty false (fun u v _ => round f rm ((f.decode u).mul (f.decode v))) ∧
        gives (.vfma d a b ty r q) ty true
          (fun u v w => round f rm (((f.decode u).mul (f.decode v)).add down (f.decode w))))) ∧
  (∀ (s : State) (st st1 : Strand) (d a b : Code) (q : BitVec 1) (x y : Tile) (hd : d.toNat < 16), s.ready .v 1 st →
    srcV2 st a b = .ok (x, y, st1) →
    let old := st1.tiles.get ⟨d.toNat, hd⟩
    let sum := fun (r c : Nat) => mac2Sum (x.lane r c) (y.lane r c) (old.lane r c)
    let clamp := fun (v : Int) => max (-2147483648) (min v 2147483647)
    reaches (exec (.vmac2 d a b q) s) fun t => ∃ st', t.strand s.focusTile = some st' ∧
      (∀ r c, r < 16 → c < 64 → (st'.tiles.get ⟨d.toNat, hd⟩).lane r c =
        if st1.writes q r c then BitVec.ofInt 32 (clamp (sum r c)) else old.lane r c) ∧
      (st'.sat = true ↔ st1.sat = true ∨ ∃ r c, r < 16 ∧ c < 64 ∧ st1.writes q r c = true ∧ clamp (sum r c) ≠ sum r c) ∧
      st'.nan = st1.nan ∧ st'.fmt = st1.fmt ∧ (∀ k, k ≠ ⟨d.toNat, hd⟩ → st'.tiles.get k = st1.tiles.get k))

/-- VEXP2, VLOG2, VRCP, VRSQ, VTANH, VSIG, VABS, VNEG and VNOT complete with each element's function (R141, R200). The function
words complete for FP32 and BF16 by the spec's step sequences, VABS and VNEG by sign bits or integers of either width, VNOT by
complement, under .p. -/
def Obligations.VectorFunctions : Prop :=
  ∀ (s : State) (st st1 : Strand) (d a : Code) (q : BitVec 1) (x : Tile), s.ready .v 1 st → a.toNat < 22 →
    srcV st a = .ok (x, st1) →
    let gives := fun (i : Instr) (ty : BitVec 4) (f : Word → Word) =>
      intoTile i s st1 d q (tileOf (fun r c => perElem ty (fun u _ _ => f u) (x.lane r c) 0 0) (fun r => (x.row r).poison))
    let group := fun (ty : BitVec 4) (wrap : (Word → Word) → Word → Word) =>
      gives (.vexp2 d a ty q) ty (wrap exp2Seq) ∧ gives (.vlog2 d a ty q) ty (wrap log2Seq) ∧
      gives (.vrcp d a ty q) ty (wrap rcpSeq) ∧ gives (.vrsq d a ty q) ty (wrap rsqSeq) ∧
      gives (.vtanh d a ty q) ty (wrap tanhSeq) ∧ gives (.vsig d a ty q) ty (wrap sigSeq)
    group 8 (fun f u => f u) ∧ group 9 (fun f u => toBf16 (f (ofBf16 u))) ∧
    (∀ ty f, vecFmt ty = some f →
      gives (.vabs d a ty q) ty (fun u => if (f.decode u).isNan then f.nanCode else u &&& ~~~f.signBit) ∧
      gives (.vneg d a ty q) ty (fun u => if (f.decode u).isNan then f.nanCode else u ^^^ f.signBit)) ∧
    (∀ ty : BitVec 4, ty = 1 ∨ ty = 2 →
      gives (.vabs d a ty q) ty (fun u => BitVec.ofInt 32 ((asInt ty u.toNat).natAbs : Int)) ∧
      gives (.vneg d a ty q) ty (fun u => BitVec.ofInt 32 (-asInt ty u.toNat))) ∧
    (∀ ty : BitVec 4, ty = 2 ∨ ty = 6 → gives (.vnot d a ty q) ty (fun u => ~~~u))

/-- VPUSH, VELSE and VPEND push, complement and pop the predicate stack, with its depth limits (R191, R192, R193, R194). VPUSH
pushes the condition ANDed with the top, VELSE complements the top within the entry below it, VPEND pops; a full or empty stack
raises PREDICATE-DEPTH (a full one before any wait: the model's choice of log 57), a poisoned source POISON-SYNC. -/
def Obligations.PredicateStack : Prop :=
  ∀ (s : State) (st : Strand), s.ready .v 1 st →
    (st.pred = [] → raises .velse s .v 2 .predicateDepth ∧ raises .vpend s .v 2 .predicateDepth) ∧
    (∀ m rest, st.pred = m :: rest →
      completes (exec .vpend s) (s.passedAs .v 1 { st with pred := rest }) ∧
      reaches (exec .velse s) fun t => ∃ st' m', t.strand s.focusTile = some st' ∧ st'.pred = m' :: rest ∧
        ∀ k, k < 1024 → m'.getLsbD k = (!m.getLsbD k && (match rest with | [] => true | u :: _ => u.getLsbD k))) ∧
    (∀ (c a b : Code) (ty : BitVec 4) (x y : Tile) (st1 : Strand), srcV2 st a b = .ok (x, y, st1) →
      (ty = 8 ∧ c.toNat ≤ 6) ∨ ((ty = 2 ∨ ty = 6) ∧ c.toNat ≤ 5) →
      (8 ≤ st.pred.length → raises (.vpush c a b ty) s .v 2 .predicateDepth) ∧
      (st.pred.length < 8 → (∃ r, r < 16 ∧ ((x.row r).poison = true ∨ (y.row r).poison = true)) →
        raises (.vpush c a b ty) s .v 2 .poisonSync) ∧
      (st.pred.length < 8 → (∀ r, r < 16 → (x.row r).poison = false ∧ (y.row r).poison = false) →
        reaches (exec (.vpush c a b ty) s) fun t => ∃ st' m', t.strand s.focusTile = some st' ∧ st'.pred = m' :: st1.pred ∧
          ∀ r k, r < 16 → k < 64 → m'.getLsbD (64 * r + k) = (vecCond c.toNat ty (x.lane r k) (y.lane r k) && st1.p r k)))

/-- VSEL, VMOV, VROT, VSLIDE, VBCAST, VLI and VIOTA complete with every lane of the result and change no other register (R196,
R201, R202, R203, R204, R205). Each of the words completes with every lane as stated, other tiles, scalar registers, predicates
and memory unchanged; VMOV to V2A pushes sixteen rows, to V2C one lane with the sticky flags, which it clears; a row count out
of range raises ILLEGAL. -/
def Obligations.VectorMoves : Prop :=
  ∀ (s : State) (st : Strand) (d a b : Code) (hd : d.toNat < 16),
    let writes := fun (i : Instr) (lane : Nat → Nat → Word) => reaches (exec i s) fun t => ∃ st',
      t.strand s.focusTile = some st' ∧
      (∀ r c, r < 16 → c < 64 → (st'.tiles.get ⟨d.toNat, hd⟩).lane r c = lane r c) ∧
      (∀ k, k ≠ ⟨d.toNat, hd⟩ → st'.tiles.get k = st.tiles.get k) ∧ st'.regs = st.regs ∧ st'.pred = st.pred ∧ t.mem = s.mem
    let old := st.tiles.get ⟨d.toNat, hd⟩
    (s.ready .v 1 st →
      (∀ ty x y st1, ty = 8 ∨ ty = 2 → srcV2 st a b = .ok (x, y, st1) →
        writes (.vsel d a b ty) fun r c => if st1.p r c then x.lane r c else y.lane r c) ∧
      (∀ x st1, a.toNat < 22 → srcV st a = .ok (x, st1) →
        (∀ ty q, ty = 8 ∨ ty = 2 → writes (.vmov d a ty q) fun r c => if st1.writes q r c then x.lane r c else old.lane r c) ∧
        (∀ ty : BitVec 4, ty = 8 ∨ ty = 2 →
          (st1.a.ended = false → st1.v2a = [] →
            completes (exec (.vmov 22 a ty 0) s) (s.passedAs .v 1 { st1 with v2a := x.toList.map (st1.entry .v []) })) ∧
          (st1.c.ended = false → st1.v2c.length < 8 →
            completes (exec (.vmov 23 a ty 0) s) (s.passedAs .v 1 { st1 with
              v2c := st1.v2c ++ [st1.entry .v [] ⟨BitVec.ofNat 64 ((x.lane 0 0).toNat + 2 ^ 32 * st1.flagBits), (x.row 0).poison⟩]
              sat := false, nan := false, fmt := false }))) ∧
        (∀ n : BitVec 6,
          writes (.vrot d a 0 0 n) (fun r c => x.lane r ((c + 64 - n.toNat) % 64)) ∧
          writes (.vrot d a 0 1 n) (fun r c => x.lane r ((c + n.toNat) % 64)) ∧
          writes (.vbcast d a 0 n) (fun r _ => x.lane r n.toNat) ∧
          writes (.vslide d a 0 0 0 n) (fun r c => if c < n.toNat then 0 else x.lane r (c - n.toNat)) ∧
          writes (.vslide d a 0 1 1 n) (fun r c => if c + n.toNat < 64 then x.lane r (c + n.toNat) else x.lane r 63) ∧
          writes (.vslide d a 0 0 2 n) (fun r c => if c < n.toNat then old.lane r c else x.lane r (c - n.toNat)) ∧
          (n.toNat < 16 →
            writes (.vrot d a 1 0 n) (fun r c => x.lane ((r + 16 - n.toNat) % 16) c) ∧
            writes (.vbcast d a 1 n) (fun _ c => x.lane n.toNat c) ∧
            writes (.vslide d a 1 0 1 n) (fun r c => x.lane (r - n.toNat) c)) ∧
          (16 ≤ n.toNat → raises (.vrot d a 1 0 n) s .v 2 .illegal ∧ raises (.vbcast d a 1 n) s .v 2 .illegal)))) ∧
    (s.ready .v 2 st → ∀ imm : Word,
      writes (.vli d imm) (fun _ _ => imm) ∧ writes (.viota d 0) (fun _ c => BitVec.ofNat 32 c) ∧
      writes (.viota d 1) (fun r _ => BitVec.ofNat 32 r) ∧ (2 ≤ imm.toNat → raises (.viota d imm) s .v 2 .illegal))

/-- VRED over rows and columns, VPCNT and VCPR complete with the reduced, counted and compacted lanes (R140, R206, R207, R208).
Sum, maximum, minimum and absolute maximum reduce each row or column by the fixed tree with the identity for unselected lanes;
VPCNT writes the number of selected lanes to every lane; VCPR compacts the selected lanes of each row or column. -/
def Obligations.VectorReductions : Prop :=
  ∀ (s : State) (st : Strand) (d a : Code) (hd : d.toNat < 16),
    let writes := fun (i : Instr) (lane : Nat → Nat → Word) => reaches (exec i s) fun t => ∃ st',
      t.strand s.focusTile = some st' ∧
      (∀ r c, r < 16 → c < 64 → (st'.tiles.get ⟨d.toNat, hd⟩).lane r c = lane r c)
    (s.ready .v 1 st → ∀ (q : BitVec 1) x st1, a.toNat < 22 → srcV st a = .ok (x, st1) →
      let reduced := fun (axis : BitVec 1) (i : Instr) (f : Word → Word → Word) (zero : Word) =>
        let elem := fun (r c : Nat) => if st1.writes q r c then x.lane r c else zero
        let red := fun (l : List Word) => (tree f 6 l).headD 0
        writes i (fun r c => if axis = 1 then red ((List.range 16).map fun k => elem k c) else red ((List.range 64).map fun k => elem r k))
      ∀ ax : BitVec 1,
        reduced ax (.vredSum d a 8 ax q) fadd 0x80000000 ∧
        reduced ax (.vredMax d a 8 ax q) (fminmax .fp32 true) 0xFF800000 ∧
        reduced ax (.vredMin d a 8 ax q) (fminmax .fp32 false) 0x7F800000 ∧
        reduced ax (.vredAmax d a ax q) (fun u v => fminmax .fp32 true (u &&& 0x7FFFFFFF) (v &&& 0x7FFFFFFF)) 0 ∧
        (∀ ty : BitVec 4, ty = 2 ∨ ty = 6 →
          reduced ax (.vredSum d a ty ax q) (· + ·) 0 ∧
          reduced ax (.vredMax d a ty ax q) (minmaxElem ty true) (if ty = 2 then 0x80000000 else 0) ∧
          reduced ax (.vredMin d a ty ax q) (minmaxElem ty false) (if ty = 2 then 0x7FFFFFFF else 0xFFFFFFFF))) ∧
    (s.ready .v 2 st →
      writes (.vpcnt d) (fun _ _ => BitVec.ofNat 32 ((List.range 1024).countP fun k => st.p (k / 64) (k % 64))) ∧
      (∀ x st1, a.toNat < 22 → srcV st a = .ok (x, st1) →
        writes (.vcpr d a 0) (fun r c => (((List.range 64).filter fun k => st1.p r k).map fun k => x.lane r k).getD c 0) ∧
        writes (.vcpr d a 1) (fun r c => (((List.range 16).filter fun k => st1.p k c).map fun k => x.lane k c).getD r 0)))

/-- VCVT converts element by element; VQNT writes a record's codes and stamps; VDQ reads codes back under their version (R209,
R210, R211, R212, R213, R214, R215). VCVT completes for every pair of accepted formats under its rounding. VQNT quantises a tile
under its record with the tag of the current version and stamps what it covers. VDQ gives every element's value under the tile's
version and raises STALE-SCALE where row tags differ. -/
def Obligations.VectorConversions : Prop :=
  ∀ (s : State) (st : Strand) (d a b : Code) (r : BitVec 3) (q : BitVec 1), s.ready .v 1 st →
    (∀ (hd : d.toNat < 16) (ty : BitVec 4) rm x st1, a.toNat < 22 → srcV st a = .ok (x, st1) →
      Rm.ofBits r = some rm → rm ≠ .rs → ((cvtFmt ty.toNat).isSome || cvtInt ty.toNat) = true →
      ((cvtFmt b.toNat).isSome || cvtInt b.toNat) = true → ty.toNat ≠ b.toNat →
      reaches (exec (.vcvt d a b ty r q) s) fun t => ∃ st', t.strand s.focusTile = some st' ∧
        ∀ k c, k < 16 → c < 64 → (st'.tiles.get ⟨d.toNat, hd⟩).lane k c =
          if st1.writes q k c then
            packLane (fun j => if j < 64 then (cvtElem ty.toNat b.toNat rm (rowElem (x.row k) (cvtWidth ty.toNat) j)).1 else 0)
              (cvtWidth b.toNat) c
          else (st.tiles.get ⟨d.toNat, hd⟩).lane k c) ∧
    (∀ (hd : d.toNat < 16) (hb : b.toNat < 16) (ty : BitVec 4) rm x cv st1 st2 rec s1, a.toNat < 22 →
      srcV st a = .ok (x, st1) → popC2v st1 false = .ok (cv, st2) → cv.poison = false → Rm.ofBits r = some rm →
      recordOf s s.focusTile st ⟨b.toNat, hb⟩ = .ok rec → rec.fmt ≠ .e2m1 → ty.toNat = fmtCode rec.fmt ∨ ty = 8 →
      rec.fmt ≠ .fp32 →
      let e := bits cv.val.toNat 39 0
      let coded := (quantTile st2 rec rm q e x).1
      let bytes := quantBytes rec.fmt coded
      let tag : RowTag := ⟨true, BitVec.ofNat 4 b.toNat, rec.ver⟩
      let row := fun (k : Nat) => if k < usedRows rec.fmt
        then quantRow tag ((st2.tiles.get ⟨d.toNat, hd⟩).row k) ((bytes.drop (256 * k)).take 256) else blankRow
      stampRun s.focusTile st2 .v rec [] e (coded.map fun c => c.getD ⟨0, .zero, none, true⟩)
        (s.setStrand s.focusTile (st2.setV ⟨d.toNat, hd⟩ (tab 16 row))) = .ok s1 →
      completes (exec (.vqnt d a b ty r q) s) (passWord s1 s.focusTile .v 1)) ∧
    (∀ ty rm x cv st1 st2, d.toNat < 16 → b.toNat < 16 → ty ∈ [(8 : BitVec 4), 9, 10, 11, 12, 14] → a.toNat < 22 →
      srcV st a = .ok (x, st1) → popC2v st1 false = .ok (cv, st2) → cv.poison = true → Rm.ofBits r = some rm →
      raises (.vqnt d a b ty r q) s .v 2 .poisonSync) ∧
    (∀ (hd : d.toNat < 16) (ha : a.toNat < 16) (hb : b.toNat < 16) rm rec f sc v, Rm.ofBits r = some rm → rm ≠ .rs →
      let src := st.tiles.get ⟨a.toNat, ha⟩
      let g := (src.row 0).tag
      g.tv = true → g.slot.toNat = b.toNat → recordOf s s.focusTile st ⟨b.toNat, hb⟩ = .ok rec →
      lookupVersion s s.focusTile st rec.idx g.ver = .ok (f, sc, v) →
      ((∃ k, k < usedRows f ∧ (src.row k).tag ≠ g) → raises (.vdq d a b r q) s .v 2 .staleScale) ∧
      ((∀ k, k < usedRows f → (src.row k).tag = g) →
        reaches (exec (.vdq d a b r q) s) fun t => ∃ st', t.strand s.focusTile = some st' ∧
          ∀ j c, j < 16 → c < 64 → (st'.tiles.get ⟨d.toNat, hd⟩).lane j c =
            if st.writes q j c then round .fp32 rm (quantElem f sc
              (((List.range (usedRows f)).map fun k => src.row k).flatMap Row.bytes) (64 * j + c))
            else (st.tiles.get ⟨d.toNat, hd⟩).lane j c))

/-- MZERO, MSRST, MCPY, MADD and MSCALE in both forms complete over whole accumulators (R217, R227, R228). Each word completes
with every row of the accumulator as stated; register numbers and exponents out of range raise ILLEGAL, a poisoned exponent
POISON-SYNC, and an empty C2M waits. -/
def Obligations.AccumulatorWords : Prop :=
  ∀ (s : State) (st : Strand) (d a : Code) (hd : d.toNat < 4), s.ready .m 1 st →
    let writes := fun (i : Instr) (taken : Strand) (f : Nat → AccRow → AccRow) =>
      completes (exec i s) (s.passedAs .m 1 (taken.setAcc ⟨d.toNat, hd⟩ ((st.accs.get ⟨d.toNat, hd⟩).mapRows f)))
    let scaled := fun (e : Int) (x : AccRow) => { x with vals := x.vals.map fun v => ne32 ((f32 v).scale e) }
    writes (.mzero d) st (fun _ x => { x with vals := Vector.replicate 128 0, poison := false }) ∧
    writes (.msrst d) st (fun _ x => { x with smax := 0xFF800000, ssum := 0 }) ∧
    (∀ ha : a.toNat < 4, let src := st.accs.get ⟨a.toNat, ha⟩
      writes (.mcpy d a) st (fun r x => { x with vals := (accRow src r).vals, poison := (accRow src r).poison }) ∧
      writes (.madd d a) st (fun r x => { x with
        vals := tab 128 fun j => fadd (x.vals.toList.getD j 0) ((accRow src r).vals.toList.getD j 0)
        poison := x.poison || (accRow src r).poison })) ∧
    (4 ≤ a.toNat → raises (.mcpy d a) s .m 3 .illegal ∧ raises (.madd d a) s .m 3 .illegal) ∧
    (∀ i : BitVec 14,
      (-254 ≤ i.toInt ∧ i.toInt ≤ 254 → writes (.mscale d i) st (fun _ => scaled i.toInt)) ∧
      (¬(-254 ≤ i.toInt ∧ i.toInt ≤ 254) → raises (.mscale d i) s .m 3 .illegal)) ∧
    (∀ v rest (p : BitVec 1), st.c2m = v :: rest →
      (v.val.poison = true → raises (.mscaleC2m d p) s .m 3 .poisonSync) ∧
      (v.val.poison = false → -254 ≤ v.val.val.toInt ∧ v.val.val.toInt ≤ 254 →
        writes (.mscaleC2m d p) { st.took .m [v] with c2m := if p = 1 then v :: rest else rest } (fun _ => scaled v.val.val.toInt)) ∧
      (v.val.poison = false → ¬(-254 ≤ v.val.val.toInt ∧ v.val.val.toInt ≤ 254) → raises (.mscaleC2m d p) s .m 3 .illegal)) ∧
    (∀ p : BitVec 1, st.c2m = [] → waits (.mscaleC2m d p) s .m .pop)

/-- MMA updates exactly the cells its windows cover, by blocks of 32 products, with poison by row (R222, R225, R226). On two
readable windows with equal column counts MMA completes: every covered cell takes the accumulation under its mode and no other
cell changes; row poison ORs the window rows and the old row; windows, memory and scratchpad are unchanged. Unequal column
counts raise ILLEGAL. -/
def Obligations.MatrixMultiply : Prop :=
  ∀ (s : State) (st : Strand) (d a b : Code) (m : BitVec 2) (hd : d.toNat < 4) (ha : a.toNat < 8) (hb : b.toNat < 8)
    (wa wb : Window) (fa fb : Fmt) (sa sb : Int), s.ready .m 1 st → m ≠ 3 →
    windowWait st .m [a.toNat, b.toNat] = .ok () →
    taggedWindow s s.focusTile st ⟨a.toNat, ha⟩ = .ok (wa, fa, sa) →
    taggedWindow s s.focusTile st ⟨b.toNat, hb⟩ = .ok (wb, fb, sb) →
    (wa.cols ≠ wb.cols → raises (.mma d a b m) s .m 3 .illegal) ∧
    (wa.cols = wb.cols → reaches (exec (.mma d a b m) s) fun t => ∃ st', t.strand s.focusTile = some st' ∧
      let old := st.accs.get ⟨d.toNat, hd⟩
      let new := st'.accs.get ⟨d.toNat, hd⟩
      let spad := (spadSeen (bindWindows s s.focusTile .m [a.toNat, b.toNat]) s.focusTile .m (wa.ranges fa ++ wb.ranges fb)).2
      let bad := ∃ j, j < wb.rows ∧ windowPoison spad wb fb j = true
      (∀ i j, i < 128 → j < 128 → accVal new i j =
        if i < wa.rows ∧ j < wb.rows then
          mmaElem m.toNat (fun k => (windowElem spad wa fa sa i k).mul (windowElem spad wb fb sb j k)) wa.cols (accVal old i j)
        else accVal old i j) ∧
      (∀ i, i < 128 → ((accRow new i).poison = true ↔
        if i < wa.rows then windowPoison spad wa fa i = true ∨ bad ∨ (m ≠ 1 ∧ (accRow old i).poison = true)
        else (accRow old i).poison = true)) ∧
      (∀ k, k ≠ ⟨d.toNat, hd⟩ → st'.accs.get k = st.accs.get k) ∧ st'.wins = st.wins ∧ t.mem = s.mem ∧
      (t.core s.focusTile).spad = (s.core s.focusTile).spad)

/-- MSOFT and MOUT write windows; MDRN and MSIDE push accumulator rows and softmax sides to M2V (R229, R230, R231, R232, R233,
R234). MSOFT completes on a usable window with each row's softmax step, sides and probabilities; MOUT with each row quantised,
counted and stamped. MDRN pushes two entries a row where they fit and raises ILLEGAL past row 128; MSIDE pushes the two side
entries or waits. -/
def Obligations.MatrixOutputs : Prop :=
  (∀ (s : State) (st : Strand) (d a b : Code), s.ready .m 1 st →
    (∀ (hd : d.toNat < 4) (ha : a.toNat < 4) (hb : b.toNat < 8), d ≠ a →
      let w := st.wins.get ⟨b.toNat, hb⟩
      let sc := st.accs.get ⟨a.toNat, ha⟩
      let old := st.accs.get ⟨d.toNat, hd⟩
      let row := fun (r : Nat) => softRow (accRow old r) ((accRow sc r).vals.toList.take w.cols)
      windowWait st .m [b.toNat] = .ok () → w.tr = 0 → w.cols ≤ 128 → w.check .bf16 true = .ok () →
      completes (exec (.msoft d a b) s) (passWord
        ((writeWindow s s.focusTile st ⟨b.toNat, hb⟩ w .bf16
          (fun r j => ⟨(((List.range w.rows).map fun r => (row r).2).getD r []).getD j 0, .value, none, (accRow sc r).poison⟩)
          (fun _ _ => (0, false))).updStrand s.focusTile fun q =>
          (q.setAcc ⟨d.toNat, hd⟩ (old.mapRows fun r x =>
            if r < w.rows then { (row r).1 with poison := x.poison || (accRow sc r).poison } else x)).setW ⟨b.toNat, hb⟩
            { w with kind := 2, slot := 0, ver := 0 }) s.focusTile .m 1)) ∧
    (∀ (hd : d.toNat < 8) (ha : a.toNat < 4) (hb : b.toNat < 16) (r : BitVec 3) rm v rest rec s2, Rm.ofBits r = some rm →
      windowWait st .m [d.toNat] = .ok () → st.c2m = v :: rest → v.val.poison = false →
      let w := st.wins.get ⟨d.toNat, hd⟩
      let acc := st.accs.get ⟨a.toNat, ha⟩
      let st1 := { st.took .m [v] with c2m := rest }
      let e := bits v.val.val.toNat 39 0
      let dist := bits v.val.val.toNat 63 40
      let rows := (List.range w.rows).map fun i => moutRow rec rm st.phase (e + i * dist) w.cols (accRow acc i)
      recordOf s s.focusTile st ⟨b.toNat, hb⟩ = .ok rec → w.cols ≤ 128 → w.check rec.fmt true = .ok () →
      (rec.fmt = .e2m1 → e % 32 = 0 ∧ dist % 32 = 0) → e + (w.rows - 1) * dist + w.cols - 1 < rec.count →
      stampRows s.focusTile st1 .m rec ((List.range w.rows).map fun i => (e + i * dist, (rows.getD i ([], [])).1))
        (writeWindow (s.setStrand s.focusTile st1) s.focusTile st1 ⟨d.toNat, hd⟩ w rec.fmt
          (fun i j => (rows.getD i ([], [])).1.getD j ⟨0, .zero, none, true⟩)
          (fun i k => (rows.getD i ([], [])).2.getD k (0, true))) = .ok s2 →
      completes (exec (.mout d a b r) s) (passWord (s2.updStrand s.focusTile fun q =>
        q.setW ⟨d.toNat, hd⟩ { w with kind := 1, slot := BitVec.ofNat 4 b.toNat, ver := rec.ver }) s.focusTile .m 1))) ∧
  (∀ (s : State) (st : Strand) (a : Code) (ha : a.toNat < 4), s.ready .m 1 st → st.v.ended = false →
    let acc := st.accs.get ⟨a.toNat, ha⟩
    (∀ f c : BitVec 7,
      (128 < f.toNat + c.toNat + 1 → raises (.mdrn a f c) s .m 3 .illegal) ∧
      (f.toNat + c.toNat + 1 ≤ 128 → st.m.progress = 0 → st.m2v.length + 2 * (c.toNat + 1) ≤ 16 →
        completes (exec (.mdrn a f c) s) (s.passedAs .m 1 { st with
          m2v := st.m2v ++ (List.range (2 * (c.toNat + 1))).map fun k =>
            st.entry .m [] (drainEntry (accRow acc (f.toNat + k / 2)) (k % 2)) })) ∧
      (f.toNat + c.toNat + 1 ≤ 128 → st.m.progress = 0 → st.m2v.length = 16 → waits (.mdrn a f c) s .m .push)) ∧
    (∀ sel : BitVec 1,
      (st.m2v.length ≤ 14 → reaches (exec (.mside a sel) s) fun t => ∃ st' e0 e1, t.strand s.focusTile = some st' ∧
        st'.m2v = st.m2v ++ [st.entry .m [] e0, st.entry .m [] e1] ∧ st'.accs = st.accs ∧
        ∀ k, k < 64 →
          e0.lane k = (if sel = 1 then (accRow acc k).ssum else (accRow acc k).smax) ∧
          e1.lane k = (if sel = 1 then (accRow acc (64 + k)).ssum else (accRow acc (64 + k)).smax)) ∧
      (14 < st.m2v.length → waits (.mside a sel) s .m .push)))

/-- XLI, XLIW, XMOV, XADD, XADDI, XSTAT and XABORT complete: exchange registers, ticket statuses, aborts (R309, R312, R322,
R323, R324, R336, R337, R339). Sources are registers or C2X popped or peeked; the register words complete with their sums; XMOV
pushes X2C or waits. XSTAT gives a ticket's status to a register or X2C, EXPIRED for a ticket 64 or more issues old, QUEUED or
ACTIVE for one outstanding; XABORT ends the commands at and above the ticket, but waits for a tick in which its die may complete
a release (log 41) and while such a command's own release covers a held write; tickets are the low 32 bits of the operand (log
30); a poisoned or unissued ticket raises POISON-SYNC or ILLEGAL. -/
def Obligations.ExchangeRegistersAndTickets : Prop :=
  (∀ (s : State) (st st1 st2 : Strand) (d a b : Code) (x y : PWord),
    let gives := fun (i : Instr) (len : Nat) (q : Strand) (v : DWord) (p : Bool) =>
      (∀ h : d.toNat < 8, completes (exec i s) (s.passedAs .x len (q.setE ⟨d.toNat, h⟩ ⟨v, p⟩)))
    (∀ h : a.toNat < 8, srcX st a = .ok (st.xregs.get ⟨a.toNat, h⟩, st)) ∧
    (∀ v rest, st.c2x = v :: rest →
      srcX st 8 = .ok (v.val, { st.took .x [v] with c2x := rest }) ∧ srcX st 9 = .ok (v.val, st.took .x [v])) ∧
    (st.c2x = [] → srcX st 8 = .error (.wait .pop) ∧ srcX st 9 = .error (.wait .pop)) ∧
    (s.ready .x 1 st →
      (∀ i, gives (.xli d i) 1 st (i.signExtend 64) false) ∧
      (srcX st a = .ok (x, st1) →
        gives (.xmov d a) 1 st1 x.val x.poison ∧
        (st1.c.ended = false → st1.x2c.length < 8 →
          completes (exec (.xmov 10 a) s) (s.passedAs .x 1 { st1 with x2c := st1.x2c ++ [st1.entry .x [] x] })) ∧
        (st1.c.ended = false → 8 ≤ st1.x2c.length → waits (.xmov 10 a) s .x .push) ∧
        (∀ i, gives (.xaddi d a i) 1 st1 (x.val + i.signExtend 64) x.poison) ∧
        (srcX st1 b = .ok (y, st2) → gives (.xadd d a b) 1 st2 (x.val + y.val) (x.poison || y.poison)))) ∧
    (s.ready .x 2 st → ∀ i, gives (.xliw d i) 2 st (i.signExtend 64) false)) ∧
  (∀ (s : State) (st st1 : Strand) (d a : Code) (x : PWord), s.ready .x 1 st → srcX st a = .ok (x, st1) →
    let k : Word := x.val.setWidth 32
    (x.poison = true → d.toNat < 8 → raises (.xstat d a) s .x 4 .poisonSync ∧ raises (.xabort a) s .x 4 .poisonSync) ∧
    (x.poison = false → (k = 0 ∨ later k st1.tickets = true) → d.toNat < 8 →
      raises (.xstat d a) s .x 4 .illegal ∧ raises (.xabort a) s .x 4 .illegal) ∧
    (x.poison = false → k ≠ 0 → later k st1.tickets = false →
      (∀ h : d.toNat < 8, completes (exec (.xstat d a) s)
        (s.passedAs .x 1 (st1.setE ⟨d.toNat, h⟩ ⟨BitVec.ofNat 64 (ticketStatus st1 k), false⟩))) ∧
      (64 ≤ (st1.tickets - k).toNat → ticketStatus st1 k = 8) ∧
      (∀ c ∈ st1.cmds, c.ticket = k → (∀ c' ∈ st1.cmds, c'.ticket = k → c' = c) → (st1.tickets - k).toNat < 64 →
        ticketStatus st1 k = if c.active then 1 else 0) ∧
      (st1.c.ended = false →
        (st1.x2c.length < 8 → completes (exec (.xstat 10 a) s) (s.passedAs .x 1 { st1 with
          x2c := st1.x2c ++ [st1.entry .x [] ⟨BitVec.ofNat 64 (ticketStatus st1 k), false⟩] })) ∧
        (8 ≤ st1.x2c.length → waits (.xstat 10 a) s .x .push)) ∧
      let hit := st1.cmds.filter fun c => !later k c.ticket
      ((s.canRaise (dieOf s.focusTile) = false ∨ (∃ c ∈ hit, waitsHeld s s.focusTile st c = true)) → waits (.xabort a) s .x .writes) ∧
      (s.canRaise (dieOf s.focusTile) = true → (∀ c ∈ hit, waitsHeld s s.focusTile st c = false) →
        completes (exec (.xabort a) s) (passWord
          (hit.foldl (fun q c => finishCmd q s.focusTile c 4) (s.setStrand s.focusTile st1)) s.focusTile .x 1))))

/-- XCMD, XPUT, XGET and XBIND issue a command under the next ticket after a release, or wait with eight outstanding (R325,
R329, R330, R340, R341, R343). A command whose descriptor, binding, shapes and traversals pass their checks outside a slot is
placed at the end of the sequencer with the next ticket after a SYSTEM release; with eight outstanding the engine waits. -/
def Obligations.CommandIssue : Prop :=
  ∀ (s sa sb sc sd : State) (st st1 : Strand) (a b : Code) (i : BitVec 14) (x : PWord) (v : Nat) (p : Pline), s.ready .x 1 st →
    (a.toNat < 10 → 8 ≤ st.cmds.length →
      waits (.xcmd a i) s .x .commandSlot ∧ waits (.xput a i) s .x .commandSlot ∧ waits (.xget a i) s .x .commandSlot ∧
      (b.toNat < 10 → waits (.xbind a b) s .x .commandSlot)) ∧
    (st.cmds.length < 8 → srcX st a = .ok (x, st1) →
      let issued := fun (i : Instr) (now : State) (c : XCmd) =>
        (∀ s1 w, release now s.focusTile .x .system = .ok (s1, w) →
          completes (exec i s) (passWord (s1.updStrand s.focusTile fun q => { q with
            tickets := q.tickets + 1, cmds := q.cmds ++ [{ c with ticket := q.tickets + 1, view := w }] }) s.focusTile .x 1)) ∧
        (∀ w, release now s.focusTile .x .system = .error (.wait w) → waits i s .x w)
      (∀ (src dst : Shape) (es ed sv dv : Nat), readCommand (s.setStrand s.focusTile st1) s.focusTile x i = .ok (sa, v) →
        commandIllegal st v = false → calm s st (!isLocal (bits v 439 384) || !isLocal (bits v 503 448)) = true →
        sideSize sa s.focusTile st (bits v 194 194 == 1) (bits v 193 190) = .ok es →
        sideSize sa s.focusTile st (bits v 199 199 == 1) (bits v 198 195) = .ok ed →
        plineX true sa s.focusTile st (BitVec.ofNat 64 (bits v 303 288)) = .ok (sb, p) →
        readShape sb s.focusTile (16 * bits v 252 236) = .ok (sc, sv) → readShape sc s.focusTile (16 * bits v 269 253) = .ok (sd, dv) →
        needShape sv = .ok src → needShape dv = .ok dst →
        issueCounts (opOf v) src.count dst.count = true → checkTraversal src (bits v 439 384) es = .ok () →
        checkTraversal dst (bits v 503 448) ed = .ok () →
        issued (.xcmd a i) sd { ticket := 0, kind := 0, body := BitVec.ofNat 512 v, src, dst,
                                ins := if bits v 194 194 == 1 then st.slots.toList.getD (bits v 193 190) none else none,
                                outs := if bits v 199 199 == 1 then st.slots.toList.getD (bits v 198 195) none else none,
                                handle := BitVec.ofNat 16 (bits v 303 288) }) ∧
      (readCommand (s.setStrand s.focusTile st1) s.focusTile x i = .ok (sa, v) → bits v 511 504 = 0 → bits v 447 440 = 0 →
        bits v 351 344 = 0 → bits v 247 0 = 0 → (bits v 275 275 = 1 → bits v 274 274 = 0 → bits v 273 264 ≤ 31) →
        calm s st true = true → plineX true sa s.focusTile st (BitVec.ofNat 64 (bits v 303 288)) = .ok (sb, p) →
        (bits v 343 304 ≠ 0 →
          checkSpan (bits v 439 384) (bits v 439 384) ((bits v 439 384 : Int) + (bits v 343 304 : Nat) - 1) = .ok ()) →
        issued (.xput a i) sb { ticket := 0, kind := 1, body := BitVec.ofNat 512 v, src := unitShape, dst := unitShape,
                                handle := BitVec.ofNat 16 (bits v 303 288) } ∧
        issued (.xget a i) sb { ticket := 0, kind := 2, body := BitVec.ofNat 512 v, src := unitShape, dst := unitShape,
                                handle := BitVec.ofNat 16 (bits v 303 288) }) ∧
      (∀ (st2 : Strand) (y : PWord) (mask : Nat), srcX st1 b = .ok (y, st2) → x.poison = false → y.poison = false →
        calm s st false = true → plineX true (s.setStrand s.focusTile st2) s.focusTile st x.val = .ok (sa, p) →
        y.val.toNat % 64 = 0 → y.val.toNat + 512 ≤ Config.spadBytes → readSpad sa s.focusTile y.val.toNat 512 = .ok (sb, mask) →
        mask < 2 ^ p.nrank → bits mask p.own p.own = 1 →
        issued (.xbind a b) sb { ticket := 0, kind := 3, src := unitShape, dst := unitShape, handle := x.val.setWidth 16,
                                 mask := BitVec.ofNat 4096 mask }))

/-- An exchange command starts at the head of its sequencer, by its kind, its binding and its round (R309, R312, R326, R328,
R331, R332, R338, R340, R341, R343, R458). The head command that is not active starts, in a tick in which its die may complete a
release and while its own covers no held write (R309, R312, log 41): XBIND hands its mask to the fabric, or loses it where no
port is in service; a dead binding ends ABORTED; a transfer to itself or outside the binding ends MISMATCH (the model's choice
of log 75); a collective takes its round (numbered as log 14 says), ends PEER-ABORTED or MISMATCH where the round already is,
and without a wait reads its leaves. A binding that cannot be read is an asynchronous fault; what a slot holds waits. A wait
semaphore that has met its threshold, at the start or since, lets the command begin, bound to what its releases cover; not after
the timeout. -/
def Obligations.CommandsStart : Prop :=
  ∀ (s : State) (tile : Core) (st : Strand) (c : XCmd), headCmd s tile = some (st, c) →
    (s.unraised (dieOf tile) = false ∨ waitsHeld s tile st c = true →
      exec (.commandStart tile) s = .next s ∧ exec (.commandWaitSatisfied tile) s = .next s) ∧
    (s.unraised (dieOf tile) = true → waitsHeld s tile st c = false →
      let open_ := pline true s tile st c.part c.view (c.handle.setWidth 64)
      let f := cmdField c.body
      (c.active = true → exec (.commandStart tile) s = .next s) ∧
      (∀ s0 v p, c.active = false → open_ = .ok (s0, v, p) →
        let c1 := { c with active := true, held := false, ticks := 0, gen := p.gen, own := p.own, ftag := p.ftag, view := v
                           mask := if c.kind = 3 then c.mask else p.mask
                           tmo := if c.kind = 0 then f 351 320 else if c.kind = 3 then p.btmo else f 383 352 }
        let peer := bits c.body.toNat 287 276
        (c.kind = 3 → s.card.ports = 0 → completes (exec (.commandStart tile) s) (setHead s0 tile c1)) ∧
        (c.kind = 3 → s.card.ports ≠ 0 → s.chainFree (dieOf tile) = false → exec (.commandStart tile) s = .next s) ∧
        (c.kind = 3 → s.card.ports ≠ 0 → s.chainFree (dieOf tile) = true → completes (exec (.commandStart tile) s)
          (updRound (setHead s0 tile c1) p.ftag p.gen (2 ^ 25 - 1) fun r => r.take s.psc
            { ftag := p.ftag, gen := p.gen, rank := p.own, round := 2 ^ 25 - 1, op := 0, rop := 0, peer := 0, count := 0
              leaves := [], eloc := none, data := true, bind := some c.mask })) ∧
        (c.kind ≠ 3 → st.dead.contains (c.handle, p.gen) = true →
          completes (exec (.commandStart tile) s) (finishCmd s0 tile c 4)) ∧
        (c.kind ≠ 3 → c.kind ≠ 0 → st.dead.contains (c.handle, p.gen) = false →
          (sizeOf' c1 ≤ peer ∨ peer = boundRank p.mask p.own → completes (exec (.commandStart tile) s) (finishCmd s0 tile c 6)) ∧
          (peer < sizeOf' c1 → peer ≠ boundRank p.mask p.own → completes (exec (.commandStart tile) s) (setHead s0 tile c1))) ∧
        (∀ s1 n, c.kind = 0 → st.dead.contains (c.handle, p.gen) = false → nextRound s0 st c1 = (s1, n) →
          let now := f 200 200 = 1 ∧ waitMet s1 tile st c1 = true
          let c2 := fun (m : Option (DWord × View)) => { c1 with round := n, met := m }
          let seen := some (s.psc, semView s1 tile st (f 211 211 == 1) (f 210 201))
          ∀ m, (now → m = seen) → (¬ now → m = none) →
            let s2 := setHead s1 tile (c2 m)
            (∀ r, findRound s2 p.ftag p.gen n = some r → r.aborted = true →
              completes (exec (.commandStart tile) s) (finishCmd s2 tile (c2 m) 5)) ∧
            (∀ r, findRound s2 p.ftag p.gen n = some r → r.aborted = false → r.mismatched = true →
              completes (exec (.commandStart tile) s) (finishCmd s2 tile (c2 m) 6)) ∧
            ((∀ r, findRound s2 p.ftag p.gen n = some r → r.aborted = false ∧ r.mismatched = false) →
              completes (exec (.commandStart tile) s) (if f 200 200 = 0 then beginCmd s2 tile else s2)))) ∧
      (∀ h, c.active = false → open_ = .error h →
        (∀ x, h = .fault x → completes (exec (.commandStart tile) s) (asyncFault s tile x)) ∧
        (∀ w, h = .wait w → completes (exec (.commandStart tile) s) (waitHead s tile w))) ∧
      (c.kind = 0 → c.active = true → c.sent = false → c.cut = none →
        let met := fun (v : View) => { c with view := c.view.join v }
        (c.waited = false → f 200 200 = 1 →
          (∀ x, c.met = some x → completes (exec (.commandWaitSatisfied tile) s) (beginCmd (setHead s tile (met x.2)) tile)) ∧
          (c.met = none → waitMet s tile st c = true → completes (exec (.commandWaitSatisfied tile) s)
            (beginCmd (setHead s tile (met (semView s tile st (f 211 211 == 1) (f 210 201)))) tile))) ∧
        (c.waited = false → c.met = none → waitMet s tile st c = false → exec (.commandWaitSatisfied tile) s = .next s) ∧
        (c.waited = true →
          (∀ st2 c2, headCmd (beginCmd (setHead s tile c) tile) tile = some (st2, c2) → c2 ≠ c) →
          completes (exec (.commandWaitSatisfied tile) s) (beginCmd (setHead s tile c) tile))) ∧
      (c.cut.isSome = true → exec (.commandWaitSatisfied tile) s = .next s))

/-- Exchange commands end: finished, timed out, mismatched, peer-aborted, discarded, rebound or transferred; fabric messages are
kept (R327, R331, R332, R333, R334, R335, R338, R340, R341, R342, R343, R345). With every contribution there, outside major
slots, the command ends DONE with its result written (and counted where it reduces), or MISMATCH where members disagree; it ends
TIMEOUT once its timeout has expired, and takes no contribution that came later; a discarded contribution is an asynchronous
fault; XBIND ends DONE with the binding advanced where the masks of the round agree, MISMATCH at every rank that one of a whole
round's masks names where they differ, else TIMEOUT; XPUT and XGET end by what the peer answered. A contribution is kept for its
round; an abort or mismatch notice ends every command of the round or marks it for those to come (log 14). -/
def Obligations.CommandsEnd : Prop :=
  (∀ (s : State) (tile : Core) (st : Strand) (c : XCmd),
    (∀ inSwitch, freeHead (tryAgree s tile) tile = some (st, c) →
      let t := tryAgree s tile
      let own := (findRound t c.ftag c.gen c.round).bind fun r => r.msgs.find? fun m => m.rank == c.own
      let ms := if noTraffic c then own.toList else (gathered t c true).getD []
      let y := if countC c = 0 then [] else resultOf c (ms.map (·.leaves))
      let agree := noTraffic c = true ∨ (t.chainFree (dieOf tile) = true ∧ ∀ m ∈ ms, sameRound c m = true)
      let counted := fun (s1 : State) => if noTraffic c || decide (opOf c.body.toNat > 1) then s1
        else s1.updStrand tile (·.count (if inSwitch then 14 else 15) 1)
      (readyCmd t c = false → exec (.commandFinish tile inSwitch) s = .next s) ∧
      (noTraffic c = false → t.chainFree (dieOf tile) = false → exec (.commandFinish tile inSwitch) s = .next s) ∧
      (readyCmd t c = true → noTraffic c = false → t.chainFree (dieOf tile) = true → (∃ m ∈ ms, sameRound c m = false) →
        completes (exec (.commandFinish tile inSwitch) s) (finishCmd t tile c 6)) ∧
      (∀ s1, readyCmd t c = true → agree → writeResult t tile st c y = .ok s1 →
        (waitsHeld (counted s1) tile st c = true → exec (.commandFinish tile inSwitch) s = .next s) ∧
        (waitsHeld (counted s1) tile st c = false →
          completes (exec (.commandFinish tile inSwitch) s) (finishCmd (counted s1) tile c 2))) ∧
      (∀ h s1, readyCmd t c = true → agree → writeResult t tile st c y = .error (h, s1) →
        (∀ x, h = .fault x → completes (exec (.commandFinish tile inSwitch) s) (asyncFault s1 tile x)) ∧
        (∀ w, h = .wait w → completes (exec (.commandFinish tile inSwitch) s) (waitHead t tile w)))) ∧
    (freeHead s tile = some (st, c) →
      (c.kind ≠ 3 → c.active = true → c.cut.isSome = true → readyCmd s c = false →
        completes (exec (.commandTimeout tile) s) (finishCmd s tile c 3)) ∧
      (c.cut = none ∨ readyCmd s c = true → exec (.commandTimeout tile) s = .next s)) ∧
    (∀ now dt free early, c ∈ st.cmds → st.dead54 = false → c.active = true → c.cut = none → ∃ c1 ∈ (st.tick now dt free early).cmds,
      c1.ticket = c.ticket ∧ c1.ticks = c.ticks + free ∧ (c1.cut = some now ↔ c.tmo ≠ 0 ∧ c.tmo ≤ c.ticks + early)) ∧
    (∀ (r : Round) m t, c.cut = some t → m ∈ r.within c.cut → ∃ x ∈ r.came, x.1 = m.rank ∧ x.2.toNat ≤ t.toNat) ∧
    (∀ q, s.strand tile = some q → q.dead54 = false → s.chainFree (dieOf tile) = true →
      (q.statuses ≠ [] ∨ ∃ x ∈ q.cmds, x.active = true ∧ (x.sent = true ∨ x.kind ≠ 0)) →
      completes (exec (.switchDiscard tile) s) (asyncFault s tile .xMembership)) ∧
    (∀ bytes ok tracked, freeHead s tile = some (st, c) → c.active = true →
      let len := bits c.body.toNat 343 304
      let a := bits c.body.toNat 439 384
      let i := Instr.remoteTransfer tile bytes ok tracked
      (s.chainFree (dieOf tile) = false ∨ c.cut.isSome = true → exec i s = .next s) ∧
      (c.kind = 1 → bytes = [] → s.chainFree (dieOf tile) = true → c.cut = none →
        (∀ x, sourceBytes s tile st c a len = .error (.fault x) → completes (exec i s) (asyncFault s tile x)) ∧
        (∀ w, sourceBytes s tile st c a len = .error (.wait w) → completes (exec i s) (waitHead s tile w)) ∧
        (∀ s1 w, sourceBytes s tile st c a len = .ok (s1, w) →
          (st.det = true → tracked = true → completes (exec i s) (asyncFault s1 tile .detIllegal)) ∧
          (st.det = false ∨ tracked = false →
            completes (exec i s) (finishCmd s1 tile { c with view := w } (if ok then 2 else 7))))) ∧
      (c.kind = 2 → (ok = true → bytes.length = len) → bytes.length ≤ len → s.chainFree (dieOf tile) = true → c.cut = none →
        (∀ s1, getBytes tile st c a bytes s = .ok s1 →
          (waitsHeld s1 tile st c = true → exec i s = .next s) ∧
          (waitsHeld s1 tile st c = false → completes (exec i s) (finishCmd s1 tile c (if ok then 2 else 7)))) ∧
        (∀ w s1, getBytes tile st c a bytes s = .error (.wait w, s1) → completes (exec i s) (waitHead s tile w)) ∧
        (∀ x s1, getBytes tile st c a bytes s = .error (.fault x, s1) → completes (exec i s) (asyncFault s1 tile x))))) ∧
  (∀ (s : State) (tile : Core) (st : Strand) (c : XCmd), headCmd s tile = some (st, c) → c.kind = 3 → c.active = true →
    let mine := (findRound s c.ftag c.gen (2 ^ 25 - 1)).map fun r => (r.within c.cut).filterMap fun m => m.bind.map fun b => (m.rank, b)
    let whole := fun (ms : List (Nat × BitVec 4096)) (b : BitVec 4096) => ∀ q ∈ ranksOf b, ∃ m ∈ ms, m.1 = q
    (mine = none → bindOutcome s c = none) ∧
    (∀ ms, mine = some ms →
      (whole ms c.mask → (∀ m ∈ ms, c.mask.getLsbD m.1 = true → m.2 = c.mask) → bindOutcome s c = some true) ∧
      (whole ms c.mask → (∃ m ∈ ms, c.mask.getLsbD m.1 = true ∧ m.2 ≠ c.mask) → bindOutcome s c = some false) ∧
      (¬ whole ms c.mask → (∃ m ∈ ms, m.2.getLsbD c.own = true ∧ whole ms m.2) → bindOutcome s c = some false) ∧
      (¬ whole ms c.mask → (¬ ∃ m ∈ ms, m.2.getLsbD c.own = true ∧ whole ms m.2) → bindOutcome s c = none)) ∧
    ((bindOutcome s c = none ∨ s.chainFree (dieOf tile) = false) → exec (.bindRound tile) s = .next s) ∧
    (∀ same, bindOutcome s c = some same → s.chainFree (dieOf tile) = true →
      let hs := (bindHeads s tile c).filter fun x => bindOutcome s x.2.2 == some same
      let drop := fun (s1 : State) => updRound s1 c.ftag c.gen (2 ^ 25 - 1) fun q =>
        { q with msgs := q.msgs.filter fun m => !((ranksOf c.mask).contains m.rank || hs.any fun x => x.2.2.own == m.rank) }
      (same = false → completes (exec (.bindRound tile) s) (drop (hs.foldl (fun s x => finishCmd s x.1 x.2.2 6) s))) ∧
      (∀ h, same = true → hs = [h] →
        (∀ s1, rebind s h.1 h.2.1 h.2.2 = .ok s1 → completes (exec (.bindRound tile) s) (drop (finishCmd s1 h.1 h.2.2 2))) ∧
        (∀ x s1, rebind s h.1 h.2.1 h.2.2 = .error (.fault x, s1) → completes (exec (.bindRound tile) s) (drop (asyncFault s1 h.1 x))) ∧
        (∀ w s1, rebind s h.1 h.2.1 h.2.2 = .error (.wait w, s1) → completes (exec (.bindRound tile) s) (waitHead s tile w)))) ∧
    (c.cut.isSome = true → bindOutcome s c = none → completes (exec (.bindTimeout tile) s) (finishCmd s tile c 3)) ∧
    (c.cut = none ∨ (bindOutcome s c).isSome = true → exec (.bindTimeout tile) s = .next s)) ∧
  ((∀ (s : State) (msg : FabricMsg),
    let k := if msg.bind.isSome then 2 ^ 25 - 1 else msg.round
    let heads := allCoreIds.filter fun t => match headCmd s t with
      | some (_, c) => c.active && (c.kind == 0 || c.kind == 3) && c.ftag == msg.ftag && c.gen == msg.gen
          && (if c.kind == 3 then 2 ^ 25 - 1 else c.round) == k
      | none => false
    let comes := (s.slotNow && s.majorSlot) = false ∧ s.portFree msg.port.toNat = true ∧
      ∀ t ∈ heads, s.portTo msg.port.toNat (dieOf t) = true
    (comes → completes (exec (.contribution msg) s)
      (heads.foldl tryAgree (updRound s msg.ftag msg.gen k fun r => r.take s.psc msg))) ∧
    (¬ comes → exec (.contribution msg) s = .next s)) ∧
  (∀ (s : State) (ftag gen : Word) (round : Nat),
    let hs := roundHeads s ftag gen round
    let runs := fun (t : Core) (c : XCmd) => (∃ st, headCmd s t = some (st, c)) ∧ (c.kind = 0 ∨ c.kind = 3) ∧ c.active = true ∧
      c.cut = none ∧ c.ftag = ftag ∧ c.gen = gen ∧ (if c.kind = 3 then 2 ^ 25 - 1 else c.round) = round
    let comes := (s.slotNow && s.majorSlot) = false ∧ s.card.ports ≠ 0
    (∀ t c, (t, c) ∈ hs ↔ runs t c) ∧
    (comes → hs = [] →
      completes (exec (.peerAbort ftag gen round) s) (updRound s ftag gen round fun r => { r with aborted := true }) ∧
      completes (exec (.mismatchNotice ftag gen round) s) (updRound s ftag gen round fun r => { r with mismatched := true })) ∧
    (comes → hs ≠ [] →
      (∀ x ∈ hs, s.unraised (dieOf x.1) = true ∧ s.chainFree (dieOf x.1) = true ∧
        ∀ st, s.strand x.1 = some st → waitsHeld s x.1 st x.2 = false) →
      completes (exec (.peerAbort ftag gen round) s) (hs.foldl (fun s x => finishCmd s x.1 x.2 5) s) ∧
      completes (exec (.mismatchNotice ftag gen round) s) (hs.foldl (fun s x => finishCmd s x.1 x.2 6) s)) ∧
    (¬ comes → exec (.peerAbort ftag gen round) s = .next s ∧ exec (.mismatchNotice ftag gen round) s = .next s)))

/-- The ends of waits: SEMW at its threshold, a queue, a window and the slip window release the engine, which completes its word
(R34, R42, R166, R171, R187, R223, R269, R434). A waiting engine at SEMW that a change of its semaphore has met, or whose
semaphore stands at the threshold, at QGET or BRQ with an entry to pop or QPUT with room to push, at AWIN of a window that no
earlier word uses, or at NOP no longer beyond the slip window, completes the word by semwSucceed, queueWaitRelease,
windowWaitRelease and slipWindowRelease. For every other word the event is the engine's turn where that ends or changes the
wait, and changes nothing where it leaves the engine waiting as before. -/
def Obligations.WaitReleases : Prop :=
  ∀ (s s2 t : State) (tile : Core) (e : Eng) (st q : Strand) (w : Wait), s.strand tile = some st → (st.eng e).wait = some w →
    st.dead54 = false → st.spdist.toNat ≤ st.splim.toNat →
    let now := { s with focusTile := tile, focusEng := e }
    let ends := fun (i : Instr) => engineTurn s tile e = .next t →
      (waitOf t tile e ≠ waitOf s tile e → completes (exec i s) t) ∧
      (waitOf t tile e = waitOf s tile e → exec i s = .next s)
    let at_ := fun (i : Instr) => fetchTurn now tile e = .run i s2 ∧ s2.focusTile = tile ∧ s2.focusEng = e ∧ s2.ready e 1 q
    ((∃ n thr, w = .dieSem n thr) ∨ (∃ n thr, w = .sem n thr) → ends (.semwSucceed tile e) ∧
      ∀ die n v, at_ (.semw e die n v) → (die = 0 → n.toNat < 32) →
        (∀ x, (q.eng e).woken = some x →
          completes (exec (.semwSucceed tile e) s) (passWord (s2.bind tile e x.2) tile e 1)) ∧
        ((q.eng e).woken = none → v.toNat ≤ (semValue s2 tile q (die == 1) n.toNat).toNat →
          completes (exec (.semwSucceed tile e) s)
            (passWord (s2.bind tile e (semView s2 tile q (die == 1) n.toNat)) tile e 1))) ∧
    (w = .push ∨ w = .pop ∨ w = .outcomeFull ∨ w = .outcomeEmpty → ends (.queueWaitRelease tile e) ∧
      (∀ d v rest, e = .c → at_ (.qget d 0 0) → q.a2c = v :: rest → completes (exec (.queueWaitRelease tile e) s)
        (s2.passedAs .c 1 ({ q.took .c [v] with a2c := rest }.setX d v.val))) ∧
      (∀ a, e = .c → at_ (.qput 0 a) → q.a.ended = false → q.c2a.length < 8 → completes (exec (.queueWaitRelease tile e) s)
        (s2.passedAs .c 1 { q with c2a := q.c2a ++ [q.entry .c [] (q.x? a)] })) ∧
      (∀ v rest, at_ (.brq 1) → (q.eng e).outcomes = v :: rest → (q.eng e).pc + 1 < q.textLen →
        completes (exec (.queueWaitRelease tile e) s) ((popOutcome s2 tile e).wentTo tile e ((q.eng e).pc + 1)))) ∧
    (w = .window → ends (.windowWaitRelease tile e) ∧
      ∀ (d a b : Code) (x : PWord) (q1 : Strand) (r : Window) (hd : d.toNat % 8 < 8) (hb : b.toNat < 16), e = .a →
        at_ (.awin d a b) → 16 ≤ d.toNat → d.toNat < 24 → windowWait q .a [d.toNat % 8] = .ok () → srcA q a = .ok (x, q1) →
        x.poison = false → x.val.toNat < Config.spadBytes → x.val.toNat % 64 = 0 →
        windowOfShape x.val.toNat (q1.shapes.get ⟨b.toNat, hb⟩) = some r →
        completes (exec (.windowWaitRelease tile e) s) (s2.passedAs .a 1 (q1.setW ⟨d.toNat % 8, hd⟩ r))) ∧
    (w = .slip → ends (.slipWindowRelease tile e) ∧
      (at_ .nop → completes (exec (.slipWindowRelease tile e) s) (s2.wentTo tile e ((q.eng e).pc + 1))))

/-- Text fetches and page walks fill caches; writes are applied at their home in order, or fault when the directory is full
(R78, R245, R249, R251, R252, R255, R257, R299, R309, R312). A text fetch of a mapped, served word caches it, and the word is
what the engines then read; a walk or read that a slot holds is not made. A page walk caches the leaf on the die and the tile
core, or no leaf on a failed walk. A pending write whose clock gate is open, that nothing holds, with no earlier clashing write
before it, is applied at its home with its identity; one that a slot or an extension holds joins the requests held; a full
directory drops it and ends its launch with DET-ILLEGAL. -/
def Obligations.FetchWalkAndHome : Prop :=
  (∀ (s : State) (tile : Core) (j : Job) (addr : DWord),
    let gate := walkGate s tile 7 j addr.toNat
    let walked := touchWalk s tile j addr.toNat
    (∀ st, s.strand tile = some st → s.job? st.job = some j → addr.toNat % 4 = 0 →
      let acc := if addr.toNat < tableBase st then Access.fetch else .read
      (∀ h, gate = .error h → exec (.textFetch tile addr) s = .next s) ∧
      (gate = .ok () → (∀ c, translate s (some tile) (dieOf tile) j addr.toNat acc = .error c →
          completes (exec (.textFetch tile addr) s) s) ∧
        (∀ l, translate s (some tile) (dieOf tile) j addr.toNat acc = .ok l →
          (∀ h, requestGate s tile 7 l = .error h → exec (.textFetch tile addr) s = .next s) ∧
          (requestGate s tile 7 l = .ok () → (s.readPhys l.key l.pa 4).2 = true →
            completes (exec (.textFetch tile addr) s) (walked.touch l false)) ∧
          (requestGate s tile 7 l = .ok () → (s.readPhys l.key l.pa 4).2 = false →
            let word := BitVec.ofNat 32 (natOfBytes (s.readPhys l.key l.pa 4).1)
            reaches (exec (.textFetch tile addr) s) fun t =>
              (t.core tile).text = ⟨st.job, addr.toNat, word⟩ ::
                (s.core tile).text.filter (fun x => !(x.job == st.job && x.va == addr.toNat)) ∧
              t.strand tile = some st ∧ t.mem = (walked.touch l false).mem ∧ (t.core tile).spad = (s.core tile).spad ∧
              ∀ e pos i, lookupNat st.decoded pos = none → st.textBase + 4 * i = addr.toNat →
                ∃ t', textWord t tile st e pos i = .ok (t', word))))) ∧
    (∀ job, s.job? job = some j → addr.toNat < 2 ^ 56 →
      (∀ h, gate = .error h → exec (.pageWalk tile job addr) s = .next s) ∧
      (gate = .ok () → (∀ c, pageWalk s j addr.toNat = .error c → completes (exec (.pageWalk tile job addr) s) walked) ∧
        (∀ x, pageWalk s j addr.toNat = .ok x → completes (exec (.pageWalk tile job addr) s)
          ((walked.updDie (dieOf tile) fun d => { d with tlb := cacheLeaf d.tlb 16384 x }).updCore tile fun k =>
            { k with tlb := cacheLeaf k.tlb 64 x }))))) ∧
  (∀ (s s0 : State) (k : Nat) (spill : Option Nat) (p : Pending), s.pending[k]? = some p →
    let inOrder := ∀ q ∈ s.pending.take k, q.clashes p = false
    (s.gate p.clock = false ∨ ¬inOrder ∨ (∃ line, spill = some line ∧ (s.resident line = none ∨ spillTag s line = none)) →
      exec (.homeWriteApply k spill) s = .next s) ∧
    (s.gate p.clock = true → inOrder →
      (match spill with
        | none => s0 = s
        | some line => (s.resident line).isSome = true ∧ (spillTag s line).isSome = true ∧ s0 = s.evict line) →
      (writeHeld s p = true → completes (exec (.homeWriteApply k spill) s) (s.hold (.write p.id) p.agent.die p.addr)) ∧
      (writeHeld s p = false →
        let s1 := { s0 with pending := s0.pending.eraseIdx k }
        (directoryFull s1 p.addr p.wid = true → completes (exec (.homeWriteApply k spill) s)
          (takeFault s1 p.agent.handle { code := 0x0D, core := BitVec.ofNat 8 p.agent.core.val, eng := 1, detail := 0,
                                         tick := s1.psc, strand := p.agent.strand })) ∧
        (directoryFull s1 p.addr p.wid = false → ∀ l j, s1.launch? p.agent.handle = some l → s1.job? l.job = some j →
          completes (exec (.homeWriteApply k spill) s) (s1.applyWrite p j.phase)))))

/-- A strand ends when its engines have ended and nothing is outstanding; deadlock, safe distance and undefined words fault
(R43, R54, R57, R63, R92, R295, R321, R413, R416, R460). A strand of a faulted launch without outstanding copies or engines at a
held request frees its tile core in a tick after the fault's, the destinations of its aborted commands left open; a strand whose
engines have ended with no copy and no command outstanding ends, counted in its launch, once its statistics can be written; it
does not end before. A deadlocked strand faults with the five causes in its detail; a strand past its safe-point distance
faults, not before, and with a stop pending only at the end of its tick; a word that no map defines raises ILLEGAL at the
engine. -/
def Obligations.StrandEnds : Prop :=
  ∀ (s : State) (tile : Core) (st : Strand), s.strand tile = some st →
    let holding := ∃ e a, (st.eng e).wait = some (.held a)
    (st.dead54 = true → st.asyncs = [] → ¬holding → st.deadAt ≠ s.psc →
      completes (exec (.strandEnd tile) s) (settle (freeCore (spoilAborted s tile st) tile none))) ∧
    (st.dead54 = true → (st.asyncs ≠ [] ∨ holding ∨ st.deadAt = s.psc) → exec (.strandEnd tile) s = .next s) ∧
    (st.dead54 = false → (∀ e, (st.eng e).ended = true) → st.asyncs = [] → st.cmds = [] → st.halted = false →
      deltasHeld s tile st = false →
      let s1 := (freeCore (flushDeltas (dropStop s tile) tile none) tile st.wantedBy).updLaunch st.handle fun l =>
        { l with ended := l.ended + 1 }
      completes (exec (.strandEnd tile) s)
        (settle (match s1.launch? st.handle with | some l => compactorRelease s1 l | none => s1))) ∧
    (st.dead54 = false → ((∃ e, (st.eng e).ended = false) ∨ st.asyncs ≠ [] ∨ st.cmds ≠ [] ∨ deltasHeld s tile st = true) →
      exec (.strandEnd tile) s = .next s) ∧
    (st.dead54 = false → st.splim.toNat < st.spdist.toNat → st.stop = none → completes (exec (.safeDistance tile) s)
      ((takeFault s st.handle (wordRecord s tile st .c 0 .safeDistance .tick)).updStrand tile fun q =>
        { q with faults := natInsert q.faults 5 })) ∧
    (st.stop.isSome = true → exec (.safeDistance tile) s = .next s) ∧
    (st.spdist.toNat ≤ st.splim.toNat → exec (.safeDistance tile) s = .next s) ∧
    (st.dead54 = false → st.halted = false → deadlocked s tile st = true → completes (exec (.strandDeadlock tile) s)
      (takeFault s st.handle { code := 0x05, core := BitVec.ofNat 8 tile.val, eng := 0
                               detail := BitVec.ofNat 20 (causeOf st.c + 16 * causeOf st.a + 256 * causeOf st.v
                                 + 4096 * causeOf st.m + 65536 * causeOf st.x), tick := s.psc, strand := st.index })) ∧
    (∀ e w s1, (st.eng e).pc < st.textLen → textWord s tile st e (st.eng e).pos (st.eng e).pc = .ok (s1, w) →
      (undefinedFirst w = true ∨ decode w (match textWord s1 tile st e ((st.eng e).pos + 1) ((st.eng e).pc + 1) with
        | .ok (_, imm) => imm
        | .error _ => 0) = none) →
      (5 ≤ (Fields.ofWord w).tag.toNat →
        completes (exec (.undefinedEncoding tile e) s) (wordFault s1 tile e 0 .illegal .atWord)) ∧
      ((Fields.ofWord w).tag = e.tag →
        completes (exec (.undefinedEncoding tile e) s) (wordFault s1 tile e e.tag .illegal .atWord)))

/-- An idle tile core takes its own oldest eligible strand, else steals; gangs are placed together; waiting launches rise;
strands resume (R29, R46, R47, R59, R61, R366, R367, R368, R379, R411). A tile core with work of its own takes the most urgent
class in turn and the oldest strand; without any it steals within reach; it never steals while it has its own. A gang is placed
when enough of its tile cores are free and not before, from its stopped strands if it had started. A launch waiting 2^20 ticks
per level rises a level. A stopped strand is placed again on an eligible tile core, unless it is outranked or not chosen there;
a placement waits while a slot or an extension holds what it reads. The model's choices: turns where no launch of a level has
one left (log 66); a gang takes its free tile cores in ascending order and counts among the rivals of each, and resuming goes by
the same choice as placing (log 39). -/
def Obligations.Placement : Prop :=
  ∀ (s : State) (tile source : Core) (l : Launch) (j : Job), s.job? l.job = some j →
    (∀ pick e, (s.core source).queue[pick]? = some e → entryFor s tile source e = some l →
      idleFor s tile (some l.handle) = true → l.resumable tile = false →
      let mine := fun (c : Core) => ∃ x ∈ (s.core c).queue, ∃ y, entryFor s tile c x = some y ∧ openTo s tile y = true
      let took := takeTurn (s.updCore source fun k => { k with queue := k.queue.eraseIdx pick }) l
      let places := (recordsFree s tile j l.bindings = true → ∀ s1, placeStrand took tile l j e.2 = some s1 →
          completes (exec (.strandPlacement tile source pick) s) (dealAll s1)) ∧
        (recordsFree s tile j l.bindings = false ∨ placeStrand took tile l j e.2 = none →
          exec (.strandPlacement tile source pick) s = .next s)
      (source = tile → (∀ x ∈ choices s tile, l.cls.bits.toNat ≤ x.cls.bits.toNat) →
        mayTakeTurn s l ((choices s tile).filter fun x => x.cls == l.cls) = true →
        (∀ x ∈ (s.core source).queue, x.1 = e.1 → e.2.toNat ≤ x.2.toNat) →
        places) ∧
      (source = tile → (∃ x ∈ choices s tile, x.cls.bits.toNat < l.cls.bits.toNat) →
        exec (.strandPlacement tile source pick) s = .next s) ∧
      (source ≠ tile → ¬mine tile → (dieOf source = dieOf tile ∨ ∀ c, c ≠ tile → dieOf c = dieOf tile → ¬mine c) →
        places) ∧
      (source ≠ tile → mine tile ∨ (dieOf source ≠ dieOf tile ∧ ∃ c, c ≠ tile ∧ dieOf c = dieOf tile ∧ mine c) →
        exec (.strandPlacement tile source pick) s = .next s)) ∧
    (∀ h, s.launch? h = some l →
      (l.pendingWork s = true → 2 ^ 20 * (l.aged + 1) ≤ l.waited → l.level < 7 →
        completes (exec (.priorityAgeing h) s) (s.updLaunch h fun l => { l with aged := l.aged + 1 })) ∧
      (∀ x index, (l.stopped.find? fun x => x.index == index) = some x →
        (outranked s tile l = true ∨ chosen s tile l = false → exec (.strandResume tile h index) s = .next s) ∧
        (l.gang = false → l.resumable tile = true → l.inScope x.die tile = true → idleFor s tile (some h) = true →
          chosen s tile l = true → outranked s tile l = false →
          (resumeWaits s tile l j x = true → exec (.strandResume tile h index) s = .next s) ∧
          (resumeWaits s tile l j x = false →
          completes (exec (.strandResume tile h index) s) (resumeStrand (takeTurn s l) tile l j x)))) ∧
      (gangWaiting s l = true →
        let held := fun (t : Core) => (s.core t).heldFor == some h
        let free := (l.cores.filter fun t => idleFor s t (some h)).filter fun t => held t || !outranked s t l
        let rivals := (free.filter fun t => !held t).flatMap fun t => (choices s t).filter fun y => y.cls == l.cls
        let unhold := fun (s : State) => s.allCores fun k => if k.heldFor == some h then { k with heldFor := none } else k
        mayTakeTurn s l (l :: rivals) = true →
        (l.started = false → free.length < l.count → exec (.gangPlacement h) s = .next s) ∧
        (l.started = false → l.count ≤ free.length →
          let on := free.take l.count
          let placed := on.zipIdx.foldlM (fun s x => match s.launch? h with
            | some l => if l.faulted then some s else placeStrand s x.1 l j (BitVec.ofNat 24 x.2)
            | none => some s) (unhold (takeTurn (s.updLaunch h fun l => { l with dealt := l.count }) l))
          ((∃ t ∈ on, recordsFree s t j l.bindings = false) ∨ placed = none → exec (.gangPlacement h) s = .next s) ∧
          ((∀ t ∈ on, recordsFree s t j l.bindings = true) → ∀ s1, placed = some s1 → completes (exec (.gangPlacement h) s) s1)) ∧
        (l.started = true → ∀ xs, assign l l.stopped free = some xs →
          ((∃ x ∈ xs, resumeWaits s x.2 l j x.1 = true) → exec (.gangPlacement h) s = .next s) ∧
          ((∀ x ∈ xs, resumeWaits s x.2 l j x.1 = false) →
            completes (exec (.gangPlacement h) s) (xs.foldl (fun s x => match s.launch? h with
              | some l => if l.faulted then s else resumeStrand s x.2 l j x.1
              | none => s) (unhold (takeTurn s l)))))))

/-- Stop requests, stop points, gang cuts and context saves go through their steps (R309, R312, R367, R368, R402, R403, R404,
R405, R410, R416). A stop cause sends requests to the strands it names, and none is sent without one; a request without a cause
is withdrawn before the save begins, never for a fenced tile core. At the stop point the state is checked, a cancelled strand is
discarded, a gang's candidates are cut at one count, the context is written to its slot, and its completion leaves the strand
waiting in its launch, unless its release has to wait. The model's choices: which requests are joined and withdrawn, up to a
gang's first context, and that the tile core is held for whichever launch asked (log 39); the context is written part by part,
in one step (log 37). -/
def Obligations.StopsAndContexts : Prop :=
  ∀ (s : State) (tile : Core) (st : Strand), s.strand tile = some st → st.dead54 = false →
    let set := stopSet s tile st
    (∀ s1, set.foldlM sendStop s = some s1 →
      (st.stop = none → (s.core tile).fenced = true →
        completes (exec (.stopRequest tile) s) (markStop s1 tile fun r => { r with wanted := none })) ∧
      (∀ h, (st.stop = none → (s.core tile).fenced = false) → asker s tile = some h →
        completes (exec (.stopRequest tile) s) (markStop s1 tile fun r => { r with wanted := some h }) ∧
        ∃ l ∈ s.launches, l.handle = h ∧ l.team.getLsbD tile.val = true ∧ l.cls.bits.toNat < st.cls.bits.toNat ∧
          l.faulted = false ∧ l.cancelled = false)) ∧
    ((st.stop = none → (s.core tile).fenced = false) → asker s tile = none → exec (.stopRequest tile) s = .next s) ∧
    (set.foldlM sendStop s = none → exec (.stopRequest tile) s = .next s) ∧
    (∀ r, st.stop = some r →
      let begun := (st.gang = true ∧ ∃ l, s.launch? st.handle = some l ∧ l.stopped ≠ []) ∨
        ∃ t ∈ set, ∃ q x, s.strand t = some q ∧ q.stop = some x ∧ x.saving = true
      let wanted := ∃ h, r.wanted = some h ∧ stillNeeded s h tile = true
      let s1 := markStop s tile fun r => { r with wanted := none }
      (r.cancel = true ∨ begun ∨ wanted ∨ (r.wanted = none ∧ ∃ t ∈ set, reasonHolds s t = true) →
        exec (.stopWithdraw tile) s = .next s) ∧
      (r.cancel = false → ¬begun → ¬wanted → (r.wanted = none → ∀ t ∈ set, reasonHolds s t = false) →
        ((∃ t ∈ set, reasonHolds s1 t = true) → completes (exec (.stopWithdraw tile) s) s1) ∧
        ((∀ t ∈ set, reasonHolds s1 t = false) → completes (exec (.stopWithdraw tile) s) (set.foldl dropStop s1))) ∧
      (st.stopped = true → r.checked = false →
        (st.queuesEmpty = false ∨ st.pred.length ≠ bits r.entry.2 27 24 →
          completes (exec (.stopPointReached tile) s) (wordFault s tile .c 0 .safeState .atWord)) ∧
        (st.queuesEmpty = true → st.pred.length = bits r.entry.2 27 24 →
          (r.cancel = true → st.asyncs = [] → st.cmds = [] →
            completes (exec (.stopPointReached tile) s) (discardStrand s tile)) ∧
          (r.cancel = false ∨ st.asyncs ≠ [] ∨ st.cmds ≠ [] → completes (exec (.stopPointReached tile) s)
            (s.setStrand tile { st with spdist := 0, stop := some { r with checked := true } })))) ∧
      (∀ j, st.stopped = true → r.checked = true → r.cancel = false → r.saving = false →
        (st.gang = true → r.cut = true) → st.asyncs = [] → st.cmds = [] → s.job? st.job = some j →
        (deltasHeld s tile st = true → exec (.contextSave tile) s = .next s) ∧
        (deltasHeld s tile st = false →
          let m := masksOf r.entry.2 st.c.depth.toNat
          let written := writeContext tile st (slotBase j (r.slot.getD 0))
            (contextParts st.countStop (s.core tile).spad m r.entry.1 r.entry.2) (flushDeltas s tile none)
          (∀ a s2, written = .error (.wait (.held a), s2) →
            completes (exec (.contextSave tile) s) (s.hold (.part tile 7) (dieOf tile) a)) ∧
          (∀ w s2, (∀ a, w ≠ .held a) → written = .error (.wait w, s2) → exec (.contextSave tile) s = .next s) ∧
          (∀ c s2, written = .error (.fault c, s2) → completes (exec (.contextSave tile) s) (wordFault s2 tile .c 0 c .async)) ∧
          (∀ s2, written = .ok s2 → completes (exec (.contextSave tile) s)
            (s2.updStrand tile fun q => { q with stop := some { r with saving := true } })))) ∧
      (r.saving = true →
        (r.cancel = true → completes (exec (.contextSaveComplete tile) s) (discardStrand s tile)) ∧
        (r.cancel = false → (s.canRaise (dieOf tile) = false ∨ s.coversHeld (strandCovers s tile st) = true) →
          exec (.contextSaveComplete tile) s = .next s) ∧
        (r.cancel = false → s.canRaise (dieOf tile) = true → s.coversHeld (strandCovers s tile st) = false →
          (∀ p ∈ s.pending, p.agent.mate (st.agent tile 0) = true → isHost p.addr = false ∧ homeDie p.addr ≠ dieOf tile) →
          let s1 := s.raiseEpoch (dieOf tile)
          completes (exec (.contextSaveComplete tile) s) (holdIdle (freeCore (s1.updLaunch st.handle fun l => { l with
            stopped := l.stopped ++ [{ index := st.index, slot := r.slot.getD 0, die := dieOf tile, back := st.c.pc + 1,
                                       view := strandCovers s1 tile st, clock := (s1.die (dieOf tile)).clock
                                       signals := Eng.all.map fun e => (st.eng e).sig, lastTick := st.lastTick }] }) tile r.wanted))))) ∧
    (∀ l, s.launch? st.handle = some l → l.gang = true →
      (∀ x ∈ s.strandsOf st.handle, x.2.stopped = true ∧ ∃ r, x.2.stop = some r ∧ r.checked = true ∧ r.cancel = false ∧ r.cut = false) →
      let ss := s.strandsOf st.handle
      let q := (ss.map fun x => x.2.candidate).foldl max 0
      ((∀ x ∈ ss, x.2.candidate = q) → completes (exec (.gangCut st.handle) s)
        (ss.foldl (fun s x => s.updStrand x.1 fun st =>
          { st with stop := st.stop.map fun (r : Stop) => { r with cut := true } }) s)) ∧
      ((∃ x ∈ ss, x.2.candidate < q) → completes (exec (.gangCut st.handle) s)
        (ss.foldl (fun s x => if x.2.candidate < q then
            s.updStrand x.1 fun st => { (st.allEngs fun g => { g with holding := false }) with
              stop := st.stop.map fun (r : Stop) => { r with checked := false, atLeast := q } }
          else s) s)))

/-- Every packet of a queue that may act executes: its words replace shadow registers, then it has its effect and is behind
(R45, R47, R309, R349, R350, R351, R352, R353, R356, R357, R369, R438). For the packet in hand of a queue whose front end acts:
NOP, BEGIN, COMMIT and INDIRECT complete with nothing more; CANCEL cancels its counter's work; PHASE holds its queue at the
current phase and passes otherwise; LAUNCH arms its counter and adds the launch, or completes it at once for no strand or an
empty team, and is not executed while its counter is PENDING; COPY, FILL and GRAPH start their work; WAIT passes with what its
counter released or holds; SIGNAL holds until its die may complete the release (R309 and the model's choice of log 41; CANCEL is
not ready before, log 62). A counter that a slot or an extension holds keeps the packet waiting; a lost write, or a counter that
cannot be reached, halts the queue instead. -/
def Obligations.PacketsExecute : Prop :=
  ∀ (s : State) (q : BitVec 8) (k : Queue) (p : Packet) (rest : List Packet) (j : Job), s.queue? q = some k →
    k.batch = p :: rest → s.job? k.job = some j → queueReady s k = true → k.bell = none → k.halted = false → k.tearing = false →
    k.hold = .none → (p.bar = true → queueWork s q = false) →
    let sh := applyWords k.shadow p.mask.toNat p.words
    let k1 := { k with shadow := sh }
    let n := bits (creg sh 16) 15 0
    let gate := s.gateStep (.queue q) s.leaderDie (packetRanges j p.op.toNat sh)
    let go := s.letGo (.queue q)
    let done := fun (s1 : State) => finishPacket (s1.updQueue q fun k => { k with shadow := sh }) q
    let held := fun (s1 : State) (h : Hold) => s1.updQueue q fun k => { k with shadow := sh, hold := h }
    let halts := fun (i : Instr) (s1 : State) => completes (exec i s) (haltQueue s1 q errAddress p.ord)
    let code := fun (o : BitVec 8) => p.op = o ∧ k.lostWrite = false ∧ gate = none
    let all : List (BitVec 8 × Instr) := [(1, .launchPacket q), (2, .graphPacket q), (3, .beginPacket q), (4, .commitPacket q),
      (5, .waitPacket q), (6, .signalPacket q), (7, .copyPacket q), (8, .fillPacket q), (9, .indirectPacket q), (10, .cancelPacket q),
      (11, .phasePacket q), (12, .nopPacket q)]
    (∀ x ∈ all, p.op = x.1 → (k.lostWrite = true → halts x.2 s) ∧
      (∀ s1, k.lostWrite = false → gate = some s1 → completes (exec x.2 s) s1)) ∧
    (code 3 → completes (exec (.beginPacket q) s) (done go)) ∧
    (code 4 → completes (exec (.commitPacket q) s) (done go)) ∧
    (code 12 → completes (exec (.nopPacket q) s) (done go)) ∧
    (code 9 → completes (exec (.indirectPacket q) s) (done go)) ∧
    (code 10 →
      let c := bits (creg sh 23) 15 0
      ((c = 0 ∨ ∀ h ∈ cancelled go k.job c, cancelReady go h = true) →
        completes (exec (.cancelPacket q) s) (done (cancelCounter go k.job c))) ∧
      ((c ≠ 0 ∧ ∃ h ∈ cancelled go k.job c, cancelReady go h = false) → exec (.cancelPacket q) s = .next s)) ∧
    (code 11 → BitVec.ofNat 32 (creg sh 24) = j.phase →
      completes (exec (.phasePacket q) s) (held (go.updQueue q fun k => { k with atPhase := true }) .phase)) ∧
    (code 11 → BitVec.ofNat 32 (creg sh 24) ≠ j.phase → completes (exec (.phasePacket q) s) (done go)) ∧
    (∀ c, counterState go j n = .error c → (code 1 → halts (.launchPacket q) go) ∧ (code 7 → halts (.copyPacket q) go) ∧
      (code 8 → halts (.fillPacket q) go)) ∧
    (∀ e, code 2 → readGraph go j (creg sh 17) = .error e →
      (e = errHeld → exec (.graphPacket q) s = .next s) ∧ (e ≠ errHeld → halts (.graphPacket q) go)) ∧
    (∀ v s1, counterState go j n = .ok v → armCounter go j n = .ok s1 →
      let l := launchFrom s1 k.job q (nextIdent k1) j.phase none s1.fresh sh
      let s2 := bumpSeq s1 q 1
      let copy := fun (fill : Bool) =>
        if creg sh 19 = 0 then done (settle (finishCounter s2 k.job q n {}))
        else done { s2 with fresh := s2.fresh + 1, copies := s2.copies ++ [{
          handle := s2.fresh, job := k.job, queue := q, ident := nextIdent k1, phase := j.phase, src := creg sh 17
          dst := creg sh 18, len := creg sh 19, pattern := if fill then some (sh.get 20) else none, counter := n
          view := (dispatchAcq s2 k.job k.acq).at s2.leaderDie }] }
      let bad := fun (d : BitVec 20) =>
        ({ also := { fault := true }, record := some { code := 0, core := 0, eng := 5, detail := d, tick := 0, strand := 0 } } : Final)
      let atOnceEnds := fun (f : Final) =>
        completes (exec (.launchPacket q) s) (done (settle (finishCounter s2 k.job q l.counter f)))
      (code 1 → v = 1 → exec (.launchPacket q) s = .next s) ∧
      (code 1 → v ≠ 1 → 0 < l.count → l.cores ≠ [] → (l.gang = true → l.count ≤ l.cores.length) →
        completes (exec (.launchPacket q) s) (done (addLaunch s2 l k.acq))) ∧
      (code 1 → v ≠ 1 → l.count = 0 → atOnceEnds {}) ∧
      (code 1 → v ≠ 1 → 0 < l.count → l.cores = [] → atOnceEnds (bad 1)) ∧
      (code 1 → v ≠ 1 → l.cores ≠ [] → l.gang = true → l.cores.length < l.count → atOnceEnds (bad 2)) ∧
      (code 7 → v = 1 → exec (.copyPacket q) s = .next s) ∧
      (code 7 → v ≠ 1 → completes (exec (.copyPacket q) s) (copy false)) ∧
      (code 8 → v = 1 → exec (.fillPacket q) s = .next s) ∧
      (code 8 → v ≠ 1 → completes (exec (.fillPacket q) s) (copy true)) ∧
      (∀ d, code 2 → readGraph go j (creg sh 17) = .ok d →
        let g : Graph := { handle := s1.fresh, job := k.job, queue := q, counter := n, base := (nextIdent k1).toNat
                           phase := j.phase, images := d.images, edges := d.edges, batches := batchesOf s1 j d, acq := k.acq }
        (v = 1 → exec (.graphPacket q) s = .next s) ∧
        (v ≠ 1 → completes (exec (.graphPacket q) s)
          (done (settle (bumpSeq { s1 with graphs := s1.graphs ++ [g], fresh := s1.fresh + 1 } q 256)))))) ∧
    (
      let c := bits (creg sh 21) 15 0
      let acquires := fun (r : Released) =>
        completes (exec (.waitPacket q) s) (done (go.updQueue k.q fun k => { k with acq := k.acq.join r }))
      (∀ r, code 5 → k.met = some r → acquires r) ∧
      (∀ v, counterState go j c = .ok v → k.met = none → (code 5 → v ≠ 1 → acquires (counterRel j c)) ∧
        (code 5 → v = 1 → completes (exec (.waitPacket q) s) (held go .wait)))) ∧
    (
      let c := bits (creg sh 22) 15 0
      (code 6 → c = 0 → completes (exec (.signalPacket q) s) (done go)) ∧
      (∀ v s1, c ≠ 0 → counterState go j c = .ok v → armCounter go j c = .ok s1 →
        (code 6 → v = 1 → exec (.signalPacket q) s = .next s) ∧
        (code 6 → v ≠ 1 → (queueWork s1 q = true ∨ s1.unraised s1.leaderDie = false) →
          completes (exec (.signalPacket q) s) (held s1 .signal)) ∧
        (∀ s2, code 6 → v ≠ 1 → queueWork s1 q = false → s1.unraised s1.leaderDie = true → finalCounter s1 j c {} = .ok s2 →
          completes (exec (.signalPacket q) s) (done (settle ((counterMet s2 j.no c
            { wide := (k.acq.at s1.leaderDie).join (frontCovers s1).wide }).raiseEpoch s2.leaderDie)))) ∧
        (∀ e, code 6 → v ≠ 1 → queueWork s1 q = false → s1.unraised s1.leaderDie = true → finalCounter s1 j c {} = .error e →
          halts (.signalPacket q) s1)))

/-- Doorbells move a queue's tail or are refused; held queues go on when their wait is over; copies and fills complete (R22,
R247, R309, R312, R347, R349, R351, R353, R355, R371, R435, R439). WAIT goes on when its counter is not PENDING, or once it has
been final while the WAIT waited; SIGNAL and a bar bit when the queue's earlier work has completed, none before (SIGNAL in a
tick in which its die may complete a release: R309, log 41). A doorbell with a bad value is refused at the card, is kept by the
card alone where the Fepel Link has failed (the model's choice of log 67), is on its way in a major slot, and waits at its queue
for a leader that acts (logs 13 and 46); one out of range or misaligned halts its queue, any other moves the tail and lets a
halted queue go on from its state block. A copy or fill goes unit by unit, keeps what it has copied where a unit waits, and ends
its counter with POISONED or FAULT where that applies, as a release: not while a write it covers is held, nor twice in a tick
(log 41). -/
def Obligations.QueuesGoOn : Prop :=
  ∀ (s : State) (q : BitVec 8),
    (∀ k p rest j, s.queue? q = some k → k.batch = p :: rest → s.job? k.job = some j → queueReady s k = true → k.bell = none →
      k.halted = false → k.tearing = false →
      let go := s.letGo (.queue q)
      let gate := s.gateStep (.queue q) s.leaderDie (packetRanges j p.op.toNat k.shadow)
      let done := fun (s1 : State) => finishPacket (s1.updQueue q fun g => { g with shadow := k.shadow }) q
      let acquires := fun (r : Released) =>
        completes (exec (.waitSatisfied q) s) (done (go.updQueue k.q fun k => { k with acq := k.acq.join r }))
      let c := bits (creg k.shadow 21) 15 0
      let n := bits (creg k.shadow 22) 15 0
      (k.hold = .wait → p.op = 5 →
        (∀ s1, gate = some s1 → completes (exec (.waitSatisfied q) s) s1) ∧
        (∀ r, gate = none → k.met = some r → acquires r) ∧
        (∀ v, gate = none → k.met = none → counterState go j c = .ok v →
          (v = 1 → exec (.waitSatisfied q) s = .next s) ∧ (v ≠ 1 → acquires (counterRel j c)))) ∧
      (k.hold = .signal → p.op = 6 → n ≠ 0 → gate = none →
        ((queueWork go q = true ∨ go.unraised go.leaderDie = false) → exec (.signalPacket q) s = .next s) ∧
        (∀ s2, queueWork go q = false → go.unraised go.leaderDie = true → finalCounter go j n {} = .ok s2 →
          completes (exec (.signalPacket q) s) (done (settle ((counterMet s2 j.no n
            { wide := (k.acq.at go.leaderDie).join (frontCovers go).wide }).raiseEpoch s2.leaderDie)))) ∧
        (∀ e, queueWork go q = false → go.unraised go.leaderDie = true → finalCounter go j n {} = .error e →
          completes (exec (.signalPacket q) s) (haltQueue go q errAddress p.ord))) ∧
      (k.hold = .none → p.bar = true →
        (queueWork s q = true → exec (.barRelease q) s = .next s) ∧
        (queueWork s q = false → completes (exec (.barRelease q) s)
          (s.updQueue q fun k => { k with batch := { p with bar := false } :: rest })))) ∧
    (∀ k, s.queue? q = some k → (queueReady s k = false → exec (.nopPacket q) s = .next s) ∧
      (∀ value, queueReady s k = true → k.bell = some value → completes (exec (.nopPacket q) s) (takeBell s q)) ∧
      (∀ j, queueReady s k = true → k.bell = none → k.batch = [] → s.job? k.job = some j →
        completes (exec (.nopPacket q) s) (frontEnd s q))) ∧
    (∀ value : DWord,
      let kept := setDoorbell s q (value.setWidth 40)
      let belled := kept.updQueue q fun k => { k with bell := some value }
      let legal := s.card.stage = 7 ∧ bits value.toNat 63 40 = 0
      let busy := (s.slotNow && s.majorSlot) || s.extensions.any fun x => x.1 == 5
      let arrives := legal ∧ s.card.fepel = true ∧ busy = false
      (¬ legal → completes (exec (.doorbell q value) s) (refuseWrite s (8 * q.toNat))) ∧
      (legal → s.card.fepel = false → completes (exec (.doorbell q value) s) kept) ∧
      (legal → s.card.fepel = true → busy = true → exec (.doorbell q value) s = .next s) ∧
      (arrives → (∀ k, s.queue? q = some k → queueReady belled { k with bell := some value } = false) →
        completes (exec (.doorbell q value) s) belled) ∧
      (∀ k j, arrives → s.queue? q = some k → s.job? k.job = some j → queueReady belled { k with bell := some value } = true →
        let s1 := belled.updQueue q fun k => { k with bell := none }
        let s2 := s1.updQueue q fun k =>
          { k with tail := value.toNat, unread := k.unread + (value.toNat + 2 ^ k.lg - k.tail) % 2 ^ k.lg }
        (value.toNat % 8 ≠ 0 ∨ 2 ^ k.lg ≤ value.toNat → completes (exec (.doorbell q value) s) (haltQueue s1 q errDoorbell 0)) ∧
        (value.toNat % 8 = 0 → value.toNat < 2 ^ k.lg →
          completes (exec (.doorbell q value) s)
            (if k.halted then resumeQueue s2 q { k with bell := some value } j else frontEnd s2 q)))) ∧
    (∀ w j, s.copies.find? (fun x => x.handle == w.handle) = some w → s.job? w.job = some j →
      let ran := frontUnits j (w.units.zipIdx.map fun x => (x.2, x.1)) w s
      let i := Instr.copyFillComplete w.handle
      ((frontReady s = false ∨ s.unraised s.leaderDie = false) → exec i s = .next s) ∧
      (∀ s1 w1, frontReady s = true → s.unraised s.leaderDie = true →
        (ran = (s1, w1, none) → completes (exec i s) (copyEnd s1 w1 none)) ∧
        (∀ c, ran = (s1, w1, some (.fault c)) → completes (exec i s) (copyEnd s1 w1 (some c))) ∧
        (∀ a, ran = (s1, w1, some (.wait (.held a))) →
          completes (exec i s) ((putWork s1 { w1 with held := true }).hold (.work w1.handle) s1.leaderDie a)) ∧
        (∀ x, (∀ a, x ≠ .held a) → ran = (s1, w1, some (.wait x)) → completes (exec i s) (putWork s1 { w1 with held := false }))) ∧
      (∀ e, let v := s.covers (workAgent s.leaderDie w.handle) w.view
        let f : Final := match e with
          | none => { also := { poisoned := w.poisoned } }
          | some c => { also := { poisoned := w.poisoned, fault := true }, nflt := 1
                        record := some { code := FaultCode.bits c, core := 0, eng := 5, detail := 0, tick := s.psc, strand := 0 } }
        let s1 := finishCounter { s with copies := s.copies.filter fun x => x.handle != w.handle } w.job w.queue w.counter f { wide := v }
        (counterFree s w.job w.counter = true → s.coversHeld v = false → copyEnd s w e = settle (s1.raiseEpoch s1.leaderDie)) ∧
        (counterFree s w.job w.counter = false ∨ s.coversHeld v = true → copyEnd s w e = putWork s w)) ∧
      (∀ k u s1 v bs l p s2, w.bytes j u s = .ok (s1, v, bs) → j.det = false → mayIssue s1 (.work w.handle) = true →
        let va := (u.head?.map Prod.fst).getD 0
        s1.heldAt none s1.leaderDie j va u.length = none → translate s1 none s1.leaderDie j va .write = .ok l →
        s1.number (workAgent s1.leaderDie w.handle) {} l (bs.map Prod.fst) (bs.any Prod.snd) none = (p, s2) →
        directoryFull s1 l.pa none = false →
        frontOne j w k u s = .ok (s2.applyWrite { p with mixed := if bs.all Prod.snd then [] else bs.map Prod.snd } j.phase,
          { w with view := { v with ids := natInsert v.ids p.id }, done := natInsert w.done k, held := false
                   poisoned := w.poisoned || (bs.any Prod.snd && !isHost l.pa) })) ∧
      (∀ u ∈ w.units, ∃ k, ∀ p ∈ u, p.1 / 64 = k) ∧
      (∀ u v, w.pattern = some v →
        w.bytes j u s = .ok (s, w.view, u.map fun x => (BitVec.ofNat 8 (v.toNat / 2 ^ (8 * ((x.1 - w.dst) % 8))), false))))

/-- Launches complete when nothing of theirs is to come; phases close when every queue stands at them, then advance (R50, R57,
R247, R307, R309, R360, R363, R371, R377, R388, R423, R440). A launch that may complete ends, once nothing holds what it writes
and a leader acts, with its merges, flushes, granules and counter, as a release, and its node takes its status. A compaction
batch starts when full and not before (its header with it: the model's choice of log 65); a failed write of it is a fault of its
source. A phase closes with every touched record evaluated when every queue of the job stands at it and no work is left, not
while work is left; both wait while a slot or an extension holds what they write, and the leader's die takes every die's clock;
an evaluated phase advances with deferred updates applied, the new parity's directory emptied, and the queues' launch sequences
at zero; a phase counter that cannot be written halts the job's queues (the model's choice of log 64). -/
def Obligations.LaunchesAndPhases : Prop :=
  ∀ (s : State),
    (∀ l, s.launch? l.handle = some l → mayComplete s l = true → frontEndActs s = true → s.agentReady s.leaderDie = true →
      completionFree s l = true → (l.scope.toNat ≥ 2 → s.unraised s.leaderDie = true) →
      let gate := s.gateStep (.launch l.handle) s.leaderDie (completionRanges s l)
      (∀ s1, gate = some s1 → completes (exec (.launchCompletion l.handle) s) s1) ∧
      (∀ s1 l1, gate = none → lastWork (s.letGo (.launch l.handle)) l = (s1, l1) →
        let s2 := settleGranules s1 l1
        let s3 := finishCounter { s2 with launches := s2.launches.filter fun x => x.handle != l.handle } l1.job l1.queue l1.counter
          l1.final l1.rel
        let s4 := s3.updJob l1.job fun j => { j with done := j.done.join l1.rel }
        let s5 := if l1.scope.toNat ≥ 2 then s4.raiseEpoch s4.leaderDie else s4
        (l1.node = none → completes (exec (.launchCompletion l.handle) s) (settle s5)) ∧
        (∀ gh n, l1.node = some (gh, n) →
          completes (exec (.launchCompletion l.handle) s) (settle (setNode s5 gh n l1.final false l1.rel))))) ∧
    (∀ l, s.launch? l.handle = some l → (mayComplete s l = false ∨ frontEndActs s = false ∨ s.agentReady s.leaderDie = false) →
      exec (.launchCompletion l.handle) s = .next s) ∧
    (∀ g edge b, s.graph? g.handle = some g → g.batches.find? (fun b => b.edge == edge) = some b →
      (b.cur.length < b.bsize → exec (.compactionBatch g.handle edge) s = .next s) ∧
      (b.bsize ≤ b.cur.length → s.agentReady b.die = true →
        (b.launch = none → counterFree s g.job (nodeCounter g b.target) = true ∧ mayArm s g.job (nodeCounter g b.target) = true) →
        let gate := s.gateStep (.edge g.handle edge) b.die (batchRanges s g.job b false)
        (∀ s1, gate = some s1 → completes (exec (.compactionBatch g.handle edge) s) s1) ∧
        (∀ s1 e, gate = none → startBatch (s.letGo (.edge g.handle edge)) g.handle edge = (s1, e) →
          (e = none → completes (exec (.compactionBatch g.handle edge) s) s1) ∧
          (∀ c n h, e = some c → g.running.find? (fun x => x.1 == b.source) = some (n, h) →
            completes (exec (.compactionBatch g.handle edge) s)
              (takeFault s1 h { code := c.bits, core := 0, eng := 5, detail := 0, tick := s.psc, strand := 0 }))))) ∧
    (∀ job j, s.job? job = some j →
      let qs := s.queues.filter fun k => k.job == job
      let go := s.letGo (.job job)
      let gate := s.gateStep (.job job) s.leaderDie (counterRange j 0xFFFF)
      let close := j.evaluated = false ∧ qs ≠ [] ∧ (∀ k ∈ qs, k.atPhase = true ∧ k.halted = false) ∧ jobWork s job = false ∧
        frontReady s = true ∧ derailleursReady s = true
      let raised := fun (s1 : State) => joinAll (([0, 1, 2, 3] : List (Fin 4)).foldl State.raiseEpoch s1)
      let s1 := (List.range j.rtsize).foldl (fun s i => phaseCloseRecord s job i) go
      let s2 := raised (s1.updJob job fun j =>
        { j with evaluated := true, acq := j.acq.join { wide := closeReleases s1 j }, done := {} })
      (∀ x, close → (List.range j.rtsize).findSome? (homeHeld s j) = some x →
        completes (exec (.phaseClose job) s) (s.hold (.job job) x.1 x.2)) ∧
      (∀ x, close → (∀ i < j.rtsize, homeHeld s j i = none) → gate = some x → completes (exec (.phaseClose job) s) x) ∧
      (close → (∀ i < j.rtsize, homeHeld s j i = none) → gate = none →
        (∀ w s3, counterWord s2 j 0xFFFF 0 = .ok w →
          putCounter s2 j 0xFFFF (w / 2 ^ 32 * 2 ^ 32 + (if j.emergency then 256 else 0) + 8) 0 0 0 = .ok s3 →
          completes (exec (.phaseClose job) s) s3) ∧
        (∀ c, counterWord s2 j 0xFFFF 0 = .error c → completes (exec (.phaseClose job) s) (phaseWriteLost s2 job))) ∧
      (jobWork s job = true → exec (.phaseClose job) s = .next s) ∧
      (j.evaluated = true → frontReady s = true → derailleursReady s = true →
        (∀ x, j.deferred.findSome? (updateHeld s j) = some x → completes (exec (.phaseAdvance job) s) (s.hold (.job job) x.1 x.2)) ∧
        (∀ x, (∀ u ∈ j.deferred, updateHeld s j u = none) → gate = some x → completes (exec (.phaseAdvance job) s) x) ∧
        ((∀ u ∈ j.deferred, updateHeld s j u = none) → gate = none →
          let next := j.phase + 1
          let a := j.deferred.foldl (fun s u => applyUpdate s job u) go
          let s3 := raised (a.updJob job fun j => { j with
            phase := next, deferred := [], evaluated := false, emergency := false, acq := j.acq.join { wide := closeReleases a j } })
          let s4 := armPhase (if j.det then
              { s3 with dies := s3.dies.map fun d => { d with writers := d.writers.filter fun w => w.phase.toNat % 2 != next.toNat % 2 } }
            else s3) j next
          let mine := s4.queues.filter fun k => k.job == job
          completes (exec (.phaseAdvance job) s) (mine.foldl (fun s k => if k.atPhase then finishPacket s k.q else s)
            (mine.foldl (fun s k => s.updQueue k.q fun k => { k with lseq := 0 }) s4)))) ∧
      (j.evaluated = false → exec (.phaseAdvance job) s = .next s))

/-- Drain leads, slot bodies, slot ends, extensions, error windows and link events complete at their time (R243, R309, R419,
R423, R426, R444, R456, R457, R458, R468, R469, R470). At its tick the drain lead begins and the slot body takes its readings,
none of 115 degrees or more (a thermal trip's: log 12), a major one noting the dies' epochs; the slot's end begins the
extensions of unfinished actions and after a major slot joins clocks, sets the duty of 16 to 64 sixteenths, 16 while hot, writes
the sensor block where a leader and the Fepel Link can, and stands the findings of the scrub step, all within its 2 MiB of each
stack. An extension's end is counted and logged under the start of its slot, the catch-up slot's until a later one has started
(log 44), in a ring of 4,096 records. Error windows begin again in each period's tick, once, but for lasting sources, with a
summary of the corrected errors (its form is the model's choice of log 73); retried flits are counted; a lost link leaves
service and is signalled; a trained link enters service within the skew limit. -/
def Obligations.CalendarAndLinks : Prop :=
  (∀ (s : State), s.card.hold = false →
    (s.inLead = true → s.inBody = false → s.slot = .outside →
      completes (exec .drainLeadStart s) { s with slot := .lead }) ∧
    (s.inLead = false → exec .drainLeadStart s = .next s) ∧
    (∀ temps volts, (∃ x ∈ temps, 115 ≤ x) → exec (.slotBodyStart temps volts) s = .next s) ∧
    (∀ temps volts, temps.length = 4 → volts.length = 4 → (∀ x ∈ temps, x < 115) → s.inBody = true → s.slot ≠ .body →
      reaches (exec (.slotBodyStart temps volts) s) fun t =>
        t.slot = .body ∧ t.psc = s.psc ∧ t.mem = s.mem ∧ t.card.hot = hotAfter s.card.hot temps ∧ ∀ d : Fin 4,
          (t.die d).temp = temps.getD d.val 0 ∧ (t.die d).volt = volts.getD d.val 0 ∧ (t.die d).clock = (s.die d).clock ∧
          (s.majorSlot = false → (t.die d).noted = (s.die d).noted) ∧
          (s.majorSlot = true → ∀ k : Fin 4, (t.die d).noted.get k = (s.die k).clock.get k)) ∧
    (∀ sweep, s.inBody = false → s.slot = .body → (∀ x ∈ sweep.overruns, resourceOk x.1 x.2 (wasMajor s) = true) →
      let s2 := sweep.overruns.foldl (fun s x => beginExtension s x.1 x.2) { s with slot := .outside }
      (wasMajor s = false → completes (exec (.slotEnd sweep) s) (settle (publish s2))) ∧
      (wasMajor s = true → sweep.dieTemps.length = 4 → sweep.stackTemps.length = 12 → 16 ≤ sweep.duty.toNat → sweep.duty.toNat ≤ 64 →
        (hotAfter s.card.hot sweep.dieTemps = true → sweep.duty = 16) → (∀ x ∈ sweep.dieTemps ++ sweep.stackTemps, x < 115) →
        (∀ g, g ∈ sweep.scrubbed ∨ g ∈ sweep.corrected → scrubs s g = true) →
        let s3 : State := { s2 with
            card := { reportSensors s2 (sensorBytes s2 sweep) with duty := sweep.duty, hot := hotAfter s.card.hot sweep.dieTemps }
            scrub := (s2.scrub + 2097152) % 68719476736
            dies := tab 4 fun k =>
              let d := s2.dies.toList.getD k Die.reset
              { d with clock := d.clock.join d.noted, temp := sweep.dieTemps.getD k 0 } }
        completes (exec (.slotEnd sweep) s) (settle (publish
          (sweep.corrected.foldl (fun s g => correctedError s (homeDie (32 * g)) 2 (BitVec.ofNat 16 (pseudoChannel (32 * g))))
            (sweep.scrubbed.foldl (fun s g => memPoisoned s g false) s3)))))) ∧
    (∀ bs, (s.card.fepel = true → (∀ d, s.leader = some d → (s.die d).alive = true) → s.leader ≠ none →
        reportSensors s bs = { s.card with sensors := bs, sensorsOld := s.card.sensors, sensorsAt := some s.psc }) ∧
      (s.card.fepel = false ∨ s.leader = none ∨ (∃ d, s.leader = some d ∧ (s.die d).alive = false) → reportSensors s bs = s.card)) ∧
    (∀ g, scrubs s g = true ↔ 32 * g < 824633720832 ∧ s.scrub ≤ stackOffset (32 * g) ∧ stackOffset (32 * g) < s.scrub + 2097152 ∧
      ∀ p ∈ s.pending, overlap p.addr p.bytes.length (32 * g) 32 = false) ∧
    (∀ kind unit x, s.extensions.find? (fun y => y.1 == kind && y.2.1 == unit) = some x →
      let started := s.psc.toNat - x.2.2
      let slot := started - started % 16384
      let start := if slot < s.catchUp then s.aligned else BitVec.ofNat 64 slot
      let s1 := { s with extensions := s.extensions.erase x, ovlast := s.psc
                         ovcnt := if s.ovcnt = 0xFFFFFFFF then s.ovcnt else s.ovcnt + 1 }
      completes (exec (.extensionEnd kind unit) s) (settle (publish (countWindow (signalHost
        (logEvent s1 s1.leaderDie 0x41 kind unit (BitVec.ofNat 32 x.2.2) start) (.event 0x41 kind unit)) 9 kind unit)))) ∧
    (∀ d code kind unit detail tick, ((logEvent s d code kind unit detail tick).die d).events =
      (if (s.die d).events.length < 4096 then (s.die d).events else (s.die d).events.drop 1) ++ [⟨tick, code, kind, unit, detail⟩])) ∧
  (∀ (s : State) (kind : BitVec 4) (unit : BitVec 16),
    (let open_ := s.windows.filter fun x => !s.lasting.contains (x.1, x.2.1)
     let sum := open_.filter fun x => x.1 == 0 || x.1 == 2 || x.1 == 4
     let s1 := { s with windows := s.windows.filter (fun x => s.lasting.contains (x.1, x.2.1)), lastWindow := open_, windowAt := s.psc }
     (s.card.hold = false → s.psc.toNat % Config.windowPeriod = 0 → s.windowAt ≠ s.psc →
        completes (exec .errorWindowReset s) (resetWindows s)) ∧
      (sum = [] → resetWindows s = s1) ∧ (sum ≠ [] → resetWindows s = signalHost s1 (.summary sum))) ∧
    (s.windowAt = s.psc → exec .errorWindowReset s = .next s) ∧
    (∀ dt, (resetDue s dt = true ↔ ∃ k, k < dt ∧ (s.psc.toNat + k) % Config.windowPeriod = 0 ∧
      (k = 0 → s.windowAt ≠ s.psc))) ∧
    (∀ dt, (passTicks s dt).lastWindow = [] ∧
      (resetDue s dt = true → (passTicks s dt).windows = (resetWindows s).windows) ∧
      (resetDue s dt = false → (passTicks s dt).windows = s.windows)) ∧
    (s.psc.toNat % Config.windowPeriod ≠ 0 → exec .errorWindowReset s = .next s) ∧
    (kind = 3 → unit.toNat < 4 → completes (exec (.flitRetried kind unit) s) (countWindow s 6 kind unit)) ∧
    (kind = 4 → unit.toNat < 12 → completes (exec (.flitRetried kind unit) s) (countWindow s 7 kind unit)) ∧
    (kind = 5 → unit = 0 → completes (exec (.flitRetried kind unit) s) (countWindow s 8 kind unit)) ∧
    (kind = 3 → unit.toNat < 4 → s.card.edges.getLsbD unit.toNat = true → reaches (exec (.linkFailure kind unit) s) fun t =>
      t.card.edges = s.card.edges &&& ~~~(BitVec.ofNat 4 (2 ^ unit.toNat)) ∧ t.card.interrupts = .event 0x43 3 unit :: s.card.interrupts) ∧
    (kind = 4 → unit.toNat < 12 → s.card.ports.getLsbD unit.toNat = true → reaches (exec (.linkFailure kind unit) s) fun t =>
      t.card.ports = s.card.ports &&& ~~~(BitVec.ofNat 12 (2 ^ unit.toNat)) ∧ t.card.interrupts = .event 0x43 4 unit :: s.card.interrupts) ∧
    (kind = 5 → unit = 0 → s.card.fepel = true → reaches (exec (.linkFailure kind unit) s) fun t =>
      t.card.fepel = false ∧ t.card.interrupts = .event 0x43 5 unit :: s.card.interrupts) ∧
    (∀ (port : BitVec 4) (skew : Nat), s.card.stage = 7 → port.toNat < 12 → s.card.ports.getLsbD port.toNat = false →
      s.lasting.contains (7, port.toNat) = false →
      (skew ≤ 4 → completes (exec (.linkTrained port skew) s)
        { s with card := { s.card with ports := s.card.ports ||| BitVec.ofNat 12 (2 ^ port.toNat) } }) ∧
      (4 < skew → completes (exec (.linkTrained port skew) s) (linkDown s 4 port.toNat 0))))

/-- The leader lease is renewed, stops and lapses; the boot stages follow in order with the image's checks and error codes
(R326, R348, R371, R372, R496, R424, R426, R465, R466). The holder renews a live lease after its period, stops in the margin,
and after a lapse the lowest live die leads, publishes the calendar, goes on with every queue whose batch has not begun from its
state block (or halts one it cannot read), and takes the doorbells that wait; not while a slot or an extension holds a state
block (the takeover and the waiting doorbells are read so from R348, R372 and R496 in log 46). Boot goes from link training to
READY stage by stage; the image is requested in the tick after the link has trained, its checks (SHAKE256 of the key, then XMSS)
fail in order with codes 1 to 6, and an accepted image stands in every supervisor and gives its version; the security floor
never falls (what the floor holds at MEMORIES_READY, and how long stage 3 lasts, are log 26's). -/
def Obligations.LeaseAndBoot : Prop :=
  (∀ (s : State) (d : Fin 4), s.leader = some d →
    ((s.die d).alive = true → 0 < (s.die d).lease → Config.renewTicks ≤ (s.die d).sinceRenew →
      completes (exec .leaseRenew s)
        (settle (takeBells { (s.updDie d fun k => { k with lease := Config.leaseTicks, sinceRenew := 0 }) with leaderStopped := false }))) ∧
    ((s.die d).alive = false → exec .leaseRenew s = .next s) ∧
    ((s.die d).lease ≤ Config.stopMargin → s.leaderStopped = false → completes (exec .leaderStop s) { s with leaderStopped := true }) ∧
    (Config.stopMargin < (s.die d).lease → exec .leaderStop s = .next s) ∧
    ((s.die d).lease ≠ 0 → exec .leaseLapse s = .next s) ∧
    (∀ n : Fin 4, (s.die d).lease = 0 → (s.die n).alive = true → (∀ m : Fin 4, m.val < n.val → (s.die m).alive = false) →
      let s1 := { (s.updDie n fun k => { k with lease := Config.leaseTicks, sinceRenew := 0 }) with
        leader := some n, leaderStopped := false }
      (s.agentReady n = true → (∀ k ∈ s.queues, blockReachable s n k = true) → completes (exec .leaseLapse s)
        (settle (takeBells (s1.queues.foldl (fun s k => takeOver s k.q) (publish s1))))) ∧
      ((s.agentReady n = false ∨ ∃ k ∈ s.queues, blockReachable s n k = false) → exec .leaseLapse s = .next s)) ∧
    (∀ q k j, s.queue? q = some k → s.job? k.job = some j → k.halted = false → k.tearing = false → k.uncommitted = true →
      s.unheld none d j k.state 512 = true →
      (∀ b, s.agentRead none d j k.state 288 = .ok (b, false) →
        let w := fun (o : Nat) => natOfBytes ((b.drop o).take 8)
        let h := w 256 % 2 ^ k.lg
        takeOver s q = frontEnd (s.updQueue q fun k =>
          { k with head := h, unread := if h = k.head then k.unread else (k.tail + 2 ^ k.lg - h) % 2 ^ k.lg
                   shadow := tab 32 fun i => BitVec.ofNat 64 (w (8 * i))
                   lseq := if w 280 % 2 ^ 24 = k.lseq % 2 ^ 24 then k.lseq else w 280 % 2 ^ 24
                   batch := [], hold := .none, atPhase := false }) q) ∧
      (∀ b, s.agentRead none d j k.state 288 = .ok (b, true) → takeOver s q = haltQueue s q errAddress 0) ∧
      (∀ c, s.agentRead none d j k.state 288 = .error c → takeOver s q = haltQueue s q errAddress 0))) ∧
  (∀ (s : State),
    (s.card.stage = 1 →
      completes (exec (.fepelLinkTrained true) s) { s with card := { s.card with stage := 2, fepel := true } } ∧
      completes (exec (.fepelLinkTrained false) s) { s with card := { s.card with stage := 0xFF, err := 1 } }) ∧
    (s.card.stage = 2 → ∀ dt, (passTicks s dt).card.stage = 3) ∧
    (∀ image whole, s.card.stage = 3 →
      let len := imageNum image 8 8
      let magic := imageNum image 0 4 = 0x44314450 ∧ imageNum image 4 4 = 1 ∧ imageNum image 0x5C 4 = 0 ∧ imageNum image 0xB64 28 = 0
      let whole1 := whole = true ∧ magic
      let fits := len ≤ 4191360 ∧ 0xB80 + len ≤ image.length
      let body := image.take 0x60 ++ (image.drop 0xB80).take len
      let key := (image.drop 0x18).take 68
      let known := natOfBytes (shake256 key) = s.card.keyHash.toNat
      let signed := xmssVerify key ((image.drop 0x60).take 2820) body = true
      let fails := fun (e : BitVec 8) => completes (exec (.imageDelivered image whole) s)
        ({ s with card := { s.card with stage := 0xFF, err := e } }.updDie 0 fun d => { d with image })
      (whole = false → fails 1) ∧ (whole = true → ¬magic → fails 2) ∧ (whole1 → ¬fits → fails 3) ∧
      (whole1 → fits → ¬known → fails 4) ∧
      (whole1 → fits → known →
        (¬signed → fails 5) ∧ (signed → imageNum image 0x10 8 < s.card.floor.toNat → fails 6) ∧
        (signed → s.card.floor.toNat ≤ imageNum image 0x10 8 → completes (exec (.imageDelivered image whole) s)
          { s with dies := s.dies.map fun (d : Die) => { d with image }
                   card := { s.card with stage := 4, svn := BitVec.ofNat 32 (imageNum image 0x10 8)
                                         version := BitVec.ofNat 64 (imageNum image 0x10 8) } }))) ∧
    (∀ image whole, s.card.stage ≠ 3 → exec (.imageDelivered image whole) s = .next s) ∧
    (∀ alive : BitVec 4, s.card.stage = 4 → alive ≠ 0 → reaches (exec (.memoriesReady alive) s) fun t =>
      t.card.stage = 5 ∧ t.card.edges = 15 ∧ t.leaderStopped = false ∧
      (t.card.floor = s.card.floor ∨ t.card.floor = s.card.version) ∧ s.card.floor.toNat ≤ t.card.floor.toNat ∧
      (∀ d : Fin 4, (t.die d).alive = alive.getLsbD d.val) ∧
      ∃ n : Fin 4, t.leader = some n ∧ alive.getLsbD n.val = true ∧ (∀ m : Fin 4, m.val < n.val → alive.getLsbD m.val = false) ∧
        (t.die n).lease = Config.leaseTicks) ∧
    (∀ ports, s.card.stage = 5 →
      reaches (exec (.pscAlignment ports none) s) (fun t => t.card.stage = 6 ∧ t.card.ports = ports ∧ t.psc = s.psc ∧ t.aligned = s.psc) ∧
      (∀ v : DWord, ports ≠ 0 → s.psc.toNat ≤ v.toNat → reaches (exec (.pscAlignment ports (some v)) s) fun t =>
        t.card.stage = 6 ∧ t.card.ports = ports ∧ t.psc = v ∧ t.aligned = v ∧ v.toNat + Config.majorLen ≤ t.catchUp)) ∧
    (s.card.stage = 6 → reaches (exec .bootReady s) fun t => t.card.stage = 7 ∧ ∃ a, t.calendar = some a ∧ a % 64 = 0 ∧ a < Config.dieBytes) ∧
    (s.card.stage ≠ 6 → exec .bootReady s = .next s))

/-- The card's registers take legal writes, refuse and count others; reset, thermal trip and power loss leave the package held
(R461, R462, R463, R465, R466, R467, R469, R470). The power cap takes 600 to 2,200; other writes, and doorbells before READY,
are refused and counted, a write of boot status among them. Reset control holds the package in reset with its jobs gone, starts
the boot, or clears the trip; a hold leaves the doorbells, the cap and the latched trip standing, and may be cleared while the
trip is latched (log 26). A reading of 115 degrees trips; below it no trip occurs. A hold, a trip or a loss of power leaves the
floor raised or not by an accepted image and a burn under way spent or not, nothing else of them changed. Reads give the boot
status, the reset control, the cap, the count, a doorbell's last value and the sensor block's words, and zero at other offsets
(log 26). -/
def Obligations.CardRegisters : Prop :=
  ∀ (s : State) (v : DWord),
    (600 ≤ v.toNat → v.toNat ≤ 2200 →
      completes (exec (.powerCap v) s) { s with card := { s.card with powerCap := v.setWidth 12 } }) ∧
    (v.toNat < 600 ∨ 2200 < v.toNat → completes (exec (.powerCap v) s) (refuseWrite s 0x1010) ∧
      completes (exec (.registerWriteRefused 0x1010 v) s) (refuseWrite s 0x1010)) ∧
    completes (exec (.registerWriteRefused 0x1000 v) s) (refuseWrite s 0x1000) ∧
    (s.card.stage ≠ 7 → ∀ n, n < 256 → completes (exec (.registerWriteRefused (8 * n) v) s) (refuseWrite s (8 * n))) ∧
    (∀ n, 0x1000000 ≤ n → exec (.registerWriteRefused n v) s = .next s) ∧
    (∀ n, (refuseWrite s n).card.refused = s.card.refused + 1 ∧ (refuseWrite s n).card.interrupts = .refused n :: s.card.interrupts) ∧
    (bits v.toNat 63 2 ≠ 0 → completes (exec (.resetHold v) s) (refuseWrite s 0x1008)) ∧
    (v = 0 → s.card.hold = true → completes (exec (.resetHold v) s)
      { s with psc := 0, card := { s.card with hold := false, stage := 1 } }) ∧
    (v = 0 → s.card.hold = false → completes (exec (.resetHold v) s) s) ∧
    (v = 1 ∨ v = 3 → reaches (exec (.resetHold v) s) fun t =>
      t.card.hold = true ∧ t.card.stage = 0 ∧ t.jobs = [] ∧ t.launches = [] ∧ t.queues = [] ∧ t.psc = 0 ∧
      t.card.trip = (s.card.trip && v != 3) ∧ t.card.powerCap = s.card.powerCap ∧ t.card.doorbells = s.card.doorbells ∧
      t.card.keyHash = s.card.keyHash ∧
      (t.card.floor = s.card.floor ∨ s.card.stage = 4 ∧ s.card.floor.toNat < s.card.version.toNat ∧ t.card.floor = s.card.version) ∧
      (t.card.spent = s.card.spent ∨ burnPending s = true ∧ t.card.spent = s.card.spent + 1 ∧ t.card.block = none) ∧
      ∀ c, (t.core c).strand = none) ∧
    (v = 2 → s.card.hold = false → completes (exec (.tripClear v) s) { s with card := { s.card with trip := false } }) ∧
    (v.getLsbD 1 = false → exec (.tripClear v) s = .next s) ∧
    completes (exec .cardReset s) { s with card := { s.card with powerCap := 2200 } } ∧
    (∀ temps : List Int, temps.length = 16 → (∃ x ∈ temps, 115 ≤ x) → reaches (exec (.thermalTrip temps) s) fun t =>
      t.card.trip = true ∧ t.card.hold = true ∧ t.jobs = [] ∧ ∀ c, (t.core c).strand = none) ∧
    (∀ temps : List Int, (∀ x ∈ temps, x < 115) → exec (.thermalTrip temps) s = .next s) ∧
    (∀ written : Bool, reaches (exec (.powerLoss written) s) fun t =>
      t.card.hold = true ∧ t.jobs = [] ∧ t.keys = [] ∧ (∀ c, (t.core c).strand = none) ∧
      (written = false → t.card.floor = s.card.floor ∧ t.card.spent = s.card.spent) ∧
      (t.card.floor = s.card.floor ∨ s.card.stage = 4 ∧ t.card.floor = s.card.version) ∧
      (t.card.spent = s.card.spent ∨ burnPending s = true ∧ t.card.spent = s.card.spent + 1) ∧ t.card.keyHash = s.card.keyHash) ∧
    (registerRead s 0x1000 = (BitVec.ofNat 64 (s.card.stage.toNat * 2 ^ 40 + s.card.err.toNat * 2 ^ 32 + s.card.svn.toNat), s) ∧
      registerRead s 0x1008 = (BitVec.ofNat 64 (s.card.hold.toNat + 2 * s.card.trip.toNat), s) ∧
      registerRead s 0x1010 = (s.card.powerCap.setWidth 64, s) ∧ registerRead s 0x1020 = (s.card.refused, s) ∧
      (∀ q : BitVec 8, ∀ w, registerRead (setDoorbell s q w) (8 * q.toNat) = (w.setWidth 64, setDoorbell s q w)) ∧
      (∀ k, k < 32 → s.card.sensorsAt ≠ some s.psc →
        registerRead s (0x2000 + 8 * k) = (BitVec.ofNat 64 (natOfBytes ((s.card.sensors.drop (8 * k)).take 8)), s)) ∧
      ∀ o, (0x800 ≤ o ∧ o < 0x1000) ∨ (0x1028 ≤ o ∧ o < 0x2000) ∨ 0x2100 ≤ o → registerRead s o = (0, s))

/-- The mailbox and the requests about jobs and queues: create, tear down, register, with refusals by body word (R52, R247,
R346, R370, R423, R427, R463, R464). A mailbox write is refused when not READY, misaligned or full (64 waiting beside the one
being served: log 26), and else appended; a request of a reserved code is REFUSED. A bad header is REFUSED with 255 and a bad
body word with its index. CREATE-JOB gives the job its number and blocks or is EXHAUSTED; TEARDOWN-JOB tears the job's queues
and ends when nothing of it runs, leaving none of its translations and text cached (log 47); REGISTER-QUEUE checks its words,
then is BUSY or writes the state block (log 25); TEARDOWN-QUEUE cancels and drops the queue. What a slot or an extension holds
of it makes a request wait. -/
def Obligations.JobAndQueueRequests : Prop :=
  ((∀ (s : State) (addr : DWord),
    let most := if s.card.serving.isSome then 65 else 64
    (s.card.stage ≠ 7 ∨ addr.toNat % 64 ≠ 0 ∨ most ≤ s.card.mailbox.length →
      completes (exec (.supervisorMailbox addr) s) (refuseWrite s 0x1018)) ∧
    (s.card.stage = 7 → addr.toNat % 64 = 0 → s.card.mailbox.length < most → (s.card.mailbox ≠ [] ∨ mailReady s = false) →
      completes (exec (.supervisorMailbox addr) s) { s with card := { s.card with mailbox := s.card.mailbox ++ [addr] } }) ∧
    (s.card.stage = 7 → addr.toNat % 64 = 0 → s.card.mailbox = [] → mailReady s = true →
      let b := blockAt s addr
      (1 ≤ b.code ∧ b.code ≤ 14 → completes (exec (.supervisorMailbox addr) s) { s with card := { s.card with mailbox := [addr] } }) ∧
      (b.code = 0 ∨ 14 < b.code → reaches (exec (.supervisorMailbox addr) s) fun t =>
        t = { writeReply s b.cpl b.seq .refused 255 0 with card := { (writeReply s b.cpl b.seq .refused 255 0).card with mailbox := [] } }))) ∧
  ∀ (s : State) (a : DWord) (rest : List DWord), s.card.mailbox = a :: rest → mailReady s = true →
    let b := blockAt s a
    let served := fun (code len : Nat) => b.code = code ∧ b.ok = true ∧ b.len = len
    let answers := fun (i : Instr) (s1 : State) (r : Reply) (reason result : Nat) =>
      completes (exec i s) (finishRequest s1 b.cpl b.seq r reason result)
    (b.code = 13 → b.ok = false → answers .calendarRequest s .refused 255 0) ∧
    (b.code = 9 → b.len ≠ 72 → answers .attest s .refused 255 0) ∧
    (∀ jobno b0 b1 b2 b3, served 1 128 →
      let i := Instr.createJob jobno b0 b1 b2 b3
      let picks : Vector Nat 4 := ⟨#[b0.toNat, b1.toNat, b2.toNat, b3.toNat], rfl⟩
      (∀ w, firstBad (descriptorBad s b) = some w → answers i s .refused w 0) ∧
      (firstBad (descriptorBad s b) = none → (∃ d ∈ dieIds, ∀ k, k < 16 → blockFree s d k = false) → answers i s .exhausted 0 0) ∧
      (firstBad (descriptorBad s b) = none → s.job? jobno = none → (∀ d ∈ dieIds, blockFree s d (picks.get d) = true) →
        (∀ d ∈ dieIds, ∃ k, k < 16 ∧ blockFree s d k = true) →
        let j := jobFrom b jobno (picks.map fun k => 1024 * k)
        let s1 := clearBlocks { s with jobs := s.jobs ++ [j]
                                       dies := if j.det then s.dies.map fun d => { d with writers := d.writers.filter fun w => w.phase.toNat % 2 != 0 }
                                         else s.dies } j.dsb
        (s1.heldAt none s1.leaderDie j (counterAddr j 0xFFFF) 32 = none → answers i (armPhase s1 j 0) .done 0 jobno.toNat) ∧
        (s1.heldAt none s1.leaderDie j (counterAddr j 0xFFFF) 32 ≠ none → exec i s = .next s))) ∧
    (served 2 8 →
      let no := BitVec.ofNat 32 (b.word 0)
      (2 ^ 32 ≤ b.word 0 → b.word 0 < 2 ^ 64 → answers .teardownJob s .refused 0 0) ∧
      let qs := (s.queues.filter fun k => k.job == no).map fun k => k.q
      let free := (∀ q ∈ qs, ∀ h ∈ queueLaunches s q, cancelReady s h = true) ∧ ∀ k ∈ s.queues, k.job = no → queueReady s k = true
      (b.word 0 < 2 ^ 32 → s.job? no = none → free → answers .teardownJob s .refused 0 0) ∧
      (∀ j, b.word 0 < 2 ^ 32 → s.job? no = some j → free →
        let s1 := (qs.foldl tearQueue s).updJob no fun j => { j with tearing := true }
        completes (exec .teardownJob s) { s1 with card := { s1.card with serving := some { seq := b.seq, cpl := b.cpl, job := no } } })) ∧
    (served 3 72 → (∀ j, s.job? (BitVec.ofNat 32 (bits (b.word 6) 63 32)) = some j → s.unheld none s.leaderDie j (b.word 7) 512 = true) →
      let q := BitVec.ofNat 8 (b.word 0)
      (∀ w, firstBad (queueBad s b) = some w → answers .registerQueue s .refused w 0) ∧
      (∀ k, firstBad (queueBad s b) = none → s.queue? q = some k → answers .registerQueue s .busy 0 0) ∧
      (firstBad (queueBad s b) = none → s.queue? q = none →
        let s1 : State := { s with queues := s.queues ++ [{ q, job := BitVec.ofNat 32 (bits (b.word 6) 63 32), ring := b.word 8
                                                            state := b.word 7, lg := bits (b.word 6) 31 27
                                                            shadow := Vector.replicate 32 0 }] }
        (∀ s2, writeBlock s1 q = .ok s2 → answers .registerQueue s2 .done 0 0) ∧
        (∀ c, writeBlock s1 q = .error c → answers .registerQueue (s1.updQueue q fun k => { k with lostWrite := true }) .done 0 0))) ∧
    (served 4 8 →
      (256 ≤ b.word 0 → b.word 0 < 2 ^ 64 → answers .teardownQueue s .refused 0 0) ∧
      (∀ k, b.word 0 < 256 → s.queue? (BitVec.ofNat 8 (b.word 0)) = some k → queueReady s k = true →
        (∀ h ∈ queueLaunches s (BitVec.ofNat 8 (b.word 0)), cancelReady s h = true) →
        answers .teardownQueue (tearQueue s (BitVec.ofNat 8 (b.word 0))) .done 0 0))) ∧
  (∀ (s : State) (r : Request) (j : Job), s.card.serving = some r → s.job? r.job = some j →
    (jobRuns s r.job = true ∨ hostReady s = false → exec .jobTeardownComplete s = .next s) ∧
    (jobRuns s r.job = false → hostReady s = true → completes (exec .jobTeardownComplete s) (finishRequest (removeJob s j) r.cpl r.seq .done 0 0)) ∧
    (removeJob s j).jobs = s.jobs.filter (fun k => k.no != j.no) ∧
    ∀ t : Core, ((removeJob s j).core t).tlb = (s.core t).tlb.filter (fun e => e.job != j.no) ∧
      ((removeJob s j).core t).text = (s.core t).text.filter (fun e => e.job != j.no))

/-- Requests about records, policies, invalidation, keys and deterministic reservations answer as their checks say (R247, R252,
R256, R257, R283, R309, R375, R376, R377, R387, R464). A record's creation or deletion and a policy entry are applied at once,
as a release, or deferred with result 2 while a launch of the job runs, and wait while a slot or an extension holds what they
write; bad words are REFUSED by index. INVALIDATE leaves no cached leaf or text word of the range, which lies within 2^56; LOAD-
KEY writes back what shared SRAM holds under the slot and replaces the key, or is BUSY while a job uses it; RESERVE-DET records
the bases of every die or is BUSY while a deterministic job exists. -/
def Obligations.RecordAndKeyRequests : Prop :=
  ∀ (s : State) (a : DWord) (rest : List DWord), s.card.mailbox = a :: rest → mailReady s = true →
    let b := blockAt s a
    let served := fun (code len : Nat) => b.code = code ∧ b.ok = true ∧ b.len = len
    let answers := fun (i : Instr) (s1 : State) (r : Reply) (reason result : Nat) =>
      completes (exec i s) (finishRequest s1 b.cpl b.seq r reason result)
    let no := BitVec.ofNat 32 (bits (b.word 0) 63 32)
    let index := bits (b.word 0) 23 0
    let kind := bits (b.word 0) 31 30
    let running := s.launches.any fun l => l.job == no
    let later := fun (i : Instr) (u : RecordUpdate) =>
      (running = true → answers i (s.updJob no fun j => { j with deferred := j.deferred ++ [u] }) .done 0 2) ∧
      (∀ j, s.job? no = some j → running = false → updateHeld s j u = none → derailleursReady s = true →
        answers i (joinAll (([0, 1, 2, 3] : List (Fin 4)).foldl State.raiseEpoch (applyUpdate s no u))) .done 0 1) ∧
      (∀ j, s.job? no = some j → running = false → (updateHeld s j u ≠ none ∨ derailleursReady s = false) → exec i s = .next s)
    (served 5 264 → kind = 0 →
      (s.job? no = none → answers .recordCreate s .refused 0 0) ∧
      (∀ j w, s.job? no = some j → firstBad ((bits (b.word 0) 29 24 != 0 || decide (index ≥ j.rtsize)) :: imageBad s j b) = some w →
        answers .recordCreate s .refused w 0) ∧
      (∀ j, s.job? no = some j → firstBad ((bits (b.word 0) 29 24 != 0 || decide (index ≥ j.rtsize)) :: imageBad s j b) = none →
        later .recordCreate { kind := 0, index, image := b.bytes })) ∧
    (b.code = 5 → b.ok = true → kind = 3 → answers .recordCreate s .refused 0 0) ∧
    (served 5 8 → kind = 1 →
      (s.job? no = none → answers .recordDelete s .refused 0 0) ∧
      (∀ j, s.job? no = some j → j.rtsize ≤ index → answers .recordDelete s .refused 0 0) ∧
      (∀ j, s.job? no = some j → bits (b.word 0) 29 24 = 0 → index < j.rtsize →
        later .recordDelete { kind := 1, index, image := [] })) ∧
    (served 5 24 → kind = 2 → ∀ j, s.job? no = some j →
      (index ≠ 0 → answers .policySet s .refused 0 0) ∧
      (index = 0 → bits (b.word 1) 63 24 = 0 → bits (b.word 1) 4 3 = 0 → bits (b.word 2) 31 0 = 0 →
        later .policySet { kind := 2, index := bits (b.word 0) 29 24, image := b.bytes })) ∧
    (served 6 24 →
      let n := BitVec.ofNat 32 (b.word 0)
      (∀ j, b.word 0 < 2 ^ 32 → s.job? n = some j → b.word 1 % 65536 = 0 → b.word 1 < 2 ^ 56 → b.word 2 % 65536 = 0 →
        b.word 1 + b.word 2 ≤ 2 ^ 56 →
        let s1 := invalidate s n (b.word 1) (b.word 2)
        answers .invalidate s1 .done 0 0 ∧
        ∀ t : Core, (∀ e ∈ (s1.core t).tlb, e.meets n (b.word 1) (b.word 2) = false) ∧
          ∀ e ∈ (s1.core t).text, e.job = n → e.va < b.word 1 ∨ b.word 1 + b.word 2 ≤ e.va) ∧
      (∀ j, b.word 0 < 2 ^ 32 → s.job? n = some j → (b.word 1 % 65536 ≠ 0 ∨ 2 ^ 56 ≤ b.word 1) → answers .invalidate s .refused 1 0) ∧
      (∀ j, b.word 0 < 2 ^ 32 → s.job? n = some j → b.word 1 % 65536 = 0 → b.word 1 < 2 ^ 56 →
        (b.word 2 % 65536 ≠ 0 ∨ 2 ^ 56 < b.word 1 + b.word 2) → answers .invalidate s .refused 2 0)) ∧
    (served 7 72 →
      let slot := BitVec.ofNat 12 (b.word 0)
      (b.word 0 < 2 ^ 12 → (∃ j ∈ s.jobs, j.key = slot) → answers .loadKey s .busy 0 0) ∧
      (b.word 0 < 2 ^ 12 → (∀ j ∈ s.jobs, j.key ≠ slot) → answers .loadKey
        { dropKeyLines s slot with keys := (slot, BitVec.ofNat 512 (natOfBytes b.bytes)) :: s.keys.filter fun k => k.1 != slot } .done 0 0)) ∧
    (served 10 96 →
      let fits := ∀ i, i < 12 → i / 3 * 0x3000000000 ≤ b.word i ∧
        b.word i + [0x180000000, 0x10000000, 0x40000000].getD (i % 3) 0 ≤ (i / 3 + 1) * 0x3000000000
      (fits → (∃ j ∈ s.jobs, j.det = true) → answers .reserveDet s .busy 0 0) ∧
      (fits → (∀ j ∈ s.jobs, j.det = false) → reaches (exec .reserveDet s) fun t => ∀ d : Fin 4,
        (t.die d).reserved = true ∧ (t.die d).identity = b.word (3 * d.val) ∧ (t.die d).directory = b.word (3 * d.val + 1) ∧
        (t.die d).merge = b.word (3 * d.val + 2)))

/-- Debugger requests halt, resume, read and write a strand; reports give attestations, events, windows, the calendar and fenced
cores (R415, R416, R424, R445, R456, R459, R464, R467). DEBUG halts the strand it names at its engines' next word boundaries,
waiting words left unbegun (a word partway that waits for another engine of the strand keeps what it holds: log 63), resumes it,
and reads or writes a span of its image only while halted (the model's choice of log 24 otherwise; an image with a spare bit set
is refused by the model's choice of log 60); a span that runs past the image is REFUSED at word 2, host memory past the window
at its word (log 25), other wrong words likewise. ATTEST signs with the next leaf and is EXHAUSTED without a block; READ-EVENTS
(which removes no record: log 25), READ-WINDOWS, the calendar and the fenced mask are written to the host (at the host window's
addresses: log 25) or returned. -/
def Obligations.DebugAndReportRequests : Prop :=
  (∀ (s : State) (a : DWord) (rest : List DWord) (tile : Core) (st : Strand), s.card.mailbox = a :: rest → mailReady s = true →
    let b := blockAt s a
    let answers := fun (i : Instr) (s1 : State) (r : Reply) (reason result : Nat) =>
      completes (exec i s) (finishRequest s1 b.cpl b.seq r reason result)
    b.code = 8 → b.ok = true → b.len = 32 →
    let action := bits (b.word 0) 63 56
    (3 < action → answers .debugHalt s .refused 0 0) ∧
    (action = 1 → bits (b.word 0) 55 8 ≠ 0 → answers .debugResume s .refused 0 0) ∧
    (action = 1 → bits (b.word 0) 55 0 = tile.val → bits (b.word 1) 63 32 = 0 → s.strand tile = none →
      answers .debugResume s .refused 1 0) ∧
    (bits (b.word 0) 55 0 = tile.val → bits (b.word 1) 63 32 = 0 → s.strand tile = some st → st.job = BitVec.ofNat 32 (b.word 1) →
      let o := bits (b.word 2) 31 0
      let host := hostPhys (b.word 3)
      (action = 0 → st.stop.isSome = true → (∃ e, (st.eng e).holding = true) → exec .debugHalt s = .next s) ∧
      (action = 0 → (st.stop = none ∨ ∀ e, (st.eng e).holding = false) →
        ((∀ e, st.short e = false) →
          answers .debugHalt (s.setStrand tile { Eng.all.foldl Strand.unbegin st with halted := true, halting := false }) .done 0 0) ∧
        ((∃ e, st.short e = true) → completes (exec .debugHalt s) (s.setStrand tile { st with halting := true }))) ∧
      (action = 1 → answers .debugResume (s.setStrand tile { st with halted := false }) .done 0 0) ∧
      (action = 2 → st.halted = false → answers .debugRead s .refused 0 0) ∧
      (action = 3 → st.halted = false → answers .debugWrite s .refused 0 0) ∧
      (∀ img s1, st.halted = true → drawImage s tile st = (img, s1) →
        let n := bits (b.word 2) 63 32
        let new := debugApply s1 tile st (img.take o ++ s1.mem.bytes host n ++ img.drop (o + n))
        (img.length < o + n → (action = 2 → answers .debugRead s .refused 2 0) ∧ (action = 3 → answers .debugWrite s .refused 2 0)) ∧
        (o + n ≤ img.length → 2 ^ 47 < b.word 3 + n →
          (action = 2 → answers .debugRead s .refused 3 0) ∧ (action = 3 → answers .debugWrite s .refused 3 0)) ∧
        (o + n ≤ img.length → b.word 3 + n ≤ 2 ^ 47 →
          (action = 2 → answers .debugRead (hostStore s1 host ((img.drop o).take n)) .done 0 n) ∧
          (∀ s2, action = 3 → new = some s2 → answers .debugWrite s2 .done 0 n) ∧
          (action = 3 → new = none → answers .debugWrite s .refused 3 0)))) ∧
    (∀ e, (st.eng e).progress = 0 → (st.eng e).latch = none → (st.unbegin e).eng e = { st.eng e with wait := none }) ∧
    (∀ e l, (st.eng e).progress = 0 → (st.eng e).latch = some l → l.moved = false →
      (st.unbegin e).eng e = { st.eng e with wait := none, latch := none } ∧
      (st.unbegin e).c2a = l.popped.1 ++ st.c2a ∧ (st.unbegin e).c2m = l.popped.2.1 ++ st.c2m ∧ (st.unbegin e).v2a = l.popped.2.2 ++ st.v2a) ∧
    (∀ e, (0 < (st.eng e).progress ∨ ∃ l, (st.eng e).latch = some l ∧ l.moved = true) →
      (st.unbegin e).eng e = { st.eng e with wait := none } ∧
      (st.short e = true ↔ ∀ w, (st.eng e).wait = some w → w.internal st.named st.headBlocked = false)) ∧
    (∀ e, (st.eng e).progress = 0 → (∀ l, (st.eng e).latch = some l → l.moved = false) → st.short e = false)) ∧
  (∀ (s : State) (a : DWord) (rest : List DWord), s.card.mailbox = a :: rest → mailReady s = true →
    let b := blockAt s a
    let served := fun (code len : Nat) => b.code = code ∧ b.ok = true ∧ b.len = len
    let answers := fun (i : Instr) (s1 : State) (r : Reply) (result : Nat) =>
      completes (exec i s) (finishRequest s1 b.cpl b.seq r 0 result)
    (served 9 72 →
      let sign := fun (leaf : Nat) => xmssSign leaf ((b.body.take 8).flatMap fun w => bytesOfNat 8 w)
      (2 ^ 47 < b.word 8 + 2828 → completes (exec .attest s) (finishRequest s b.cpl b.seq .refused 8 0)) ∧
      (b.word 8 + 2828 ≤ 2 ^ 47 →
      let attests := fun (block i spent : Nat) => answers .attest
        (hostStore { s with card := { s.card with spent, block := some (block, i + 1) } } (hostPhys (b.word 8))
          (bytesOfNat 8 (1024 * block + i) ++ sign (1024 * block + i)))
        .done (1024 * block + i)
      (∀ block i, s.card.block = some (block, i) → i < 1024 → attests block i s.card.spent) ∧
      ((s.card.block = none ∨ ∃ block, s.card.block = some (block, 1024)) →
        (s.card.spent < 1024 → attests s.card.spent 0 (s.card.spent + 1)) ∧
        (1024 ≤ s.card.spent → answers .attest s .exhausted 0)))) ∧
    (served 11 24 → ∀ d : Fin 4, b.word 0 = d.val →
      let rs := (s.die d).events.take (b.word 2)
      (2 ^ 47 < b.word 1 + 16 * rs.length → completes (exec .readEvents s) (finishRequest s b.cpl b.seq .refused 1 0)) ∧
      (b.word 1 + 16 * rs.length ≤ 2 ^ 47 → answers .readEvents (hostStore s (hostPhys (b.word 1)) (rs.flatMap EventRec.bytes)) .done ((s.die d).lost.toNat * 2 ^ 32 + rs.length))) ∧
    (served 12 8 →
      let units := [192, 192, 512, 512, 768, 768, 4, 12, 1, 29]
      let counts := units.zipIdx.flatMap fun x => (List.range x.1).map fun u => windowCount s x.2 u
      counts.length = 2990 ∧
      (2 ^ 47 < b.word 0 + 4 * 2990 → completes (exec .readWindows s) (finishRequest s b.cpl b.seq .refused 0 0)) ∧
      (b.word 0 + 4 * 2990 ≤ 2 ^ 47 →
        answers .readWindows (hostStore s (hostPhys (b.word 0)) (counts.flatMap fun n => bytesOfNat 4 n)) .done 2990)) ∧
    (served 13 0 → ∀ pa, s.calendar = some pa → answers .calendarRequest s .done pa) ∧
    (served 14 8 →
      (2 ^ 47 < b.word 0 + 24 → completes (exec .fencedRequest s) (finishRequest s b.cpl b.seq .refused 0 0)) ∧
      (b.word 0 + 24 ≤ 2 ^ 47 → answers .fencedRequest (hostStore s (hostPhys (b.word 0)) (bytesOfNat 24 (fencedMask s).toNat)) .done 0) ∧
      ∀ t : Core, (fencedMask s).getLsbD t.val = (s.core t).fenced))
end

