-- ==== Sys2Proof/Laws/Memory.lean ====
section
/-! SUPPORT. The canonical form of a memory is kept by every operation on it, and what a byte reads as after each. -/

namespace Sys2Proof.Machine

theorem cellsWf_mono {lo lo' : Nat} (h : lo' ≤ lo) : ∀ {cs : List Host.Cell}, cellsWf lo cs = true → cellsWf lo' cs = true
  | [], _ => rfl
  | (x, b) :: cs, hw => by
    simp only [cellsWf, Bool.and_eq_true, decide_eq_true_eq] at hw ⊢
    exact ⟨⟨by omega, hw.1.2⟩, hw.2⟩

theorem cellSet_wf {a : Nat} {b : Byte} : ∀ {cs : List Host.Cell} {lo : Nat}, cellsWf lo cs = true → lo ≤ a →
    cellsWf lo (cellSet cs a b) = true
  | [], lo, _, ha => by
    unfold cellSet
    split
    · rfl
    · simp_all [cellsWf]
  | (x, y) :: cs, lo, hw, ha => by
    simp only [cellsWf, Bool.and_eq_true, decide_eq_true_eq] at hw
    obtain ⟨⟨h1, h2⟩, h3⟩ := hw
    unfold cellSet
    split
    · simp only [cellsWf, Bool.and_eq_true, decide_eq_true_eq]
      exact ⟨⟨h1, h2⟩, cellSet_wf h3 (by omega)⟩
    · split
      · subst_vars
        split
        · exact cellsWf_mono (by omega) h3
        · simp_all [cellsWf]
      · split
        · simp_all [cellsWf]
        · simp only [cellsWf, Bool.and_eq_true, decide_eq_true_eq]
          refine ⟨⟨ha, by simpa using ‹¬b = 0›⟩, ⟨by omega, h2⟩, h3⟩

theorem cellGet_lt : ∀ {cs : List Host.Cell} {lo a : Nat}, cellsWf lo cs = true → a < lo → cellGet cs a = 0
  | [], _, _, _, _ => rfl
  | (x, y) :: cs, lo, a, hw, ha => by
    simp only [cellsWf, Bool.and_eq_true, decide_eq_true_eq] at hw
    unfold cellGet
    rw [if_neg (by omega)]
    exact cellGet_lt hw.2 (by omega)

theorem cellGet_cellSet {a : Nat} {b : Byte} {c : Nat} : ∀ {cs : List Host.Cell} {lo : Nat}, cellsWf lo cs = true →
    cellGet (cellSet cs a b) c = if c = a then b else cellGet cs c
  | [], lo, _ => by
    unfold cellSet
    split
    · subst_vars; simp [cellGet]
    · by_cases hc : c = a
      · subst hc; simp [cellGet]
      · simp [cellGet, hc, Ne.symm hc]
  | (x, y) :: cs, lo, hw => by
    simp only [cellsWf, Bool.and_eq_true, decide_eq_true_eq] at hw
    obtain ⟨⟨h1, h2⟩, h3⟩ := hw
    unfold cellSet
    split
    · simp only [cellGet]
      rw [cellGet_cellSet h3]
      by_cases hc : c = a
      · subst hc
        rw [if_neg (by omega)]
        simp
      · simp [hc]
    · split
      · subst_vars
        split
        · by_cases hc : c = x
          · subst hc; subst_vars; rw [if_pos rfl]; exact cellGet_lt h3 (by omega)
          · simp [hc, cellGet, Ne.symm hc]
        · by_cases hc : c = x
          · subst hc; simp [cellGet]
          · simp [hc, cellGet, Ne.symm hc]
      · split
        · by_cases hc : c = a
          · subst hc; subst_vars
            rw [if_pos rfl]
            simp only [cellGet]
            rw [if_neg (by omega)]
            exact cellGet_lt h3 (by omega)
          · simp [hc]
        · by_cases hc : c = a
          · subst hc; simp [cellGet]
          · simp [hc, cellGet, Ne.symm hc]

theorem Mem.wf_empty : ({} : Mem).wf = true := rfl

@[simp] theorem Mem.set_wf {m : Mem} (h : m.wf = true) (a : Nat) (b : Byte) : (m.set a b).wf = true :=
  cellSet_wf h (Nat.zero_le a)

@[simp] theorem Mem.get_set {m : Mem} (h : m.wf = true) (a c : Nat) (b : Byte) :
    (m.set a b).get c = if c = a then b else m.get c :=
  cellGet_cellSet h

@[simp] theorem Mem.setBytes_wf : ∀ (bs : List Byte) {m : Mem} (a : Nat), m.wf = true → (m.setBytes a bs).wf = true
  | [], _, _, h => h
  | b :: bs, _, a, h => Mem.setBytes_wf bs (a + 1) (Mem.set_wf h a b)

/-- A byte after bytes are written from `a` upward. -/
theorem Mem.get_setBytes : ∀ (bs : List Byte) {m : Mem} (a c : Nat), m.wf = true →
    (m.setBytes a bs).get c = if a ≤ c ∧ c < a + bs.length then bs.getD (c - a) 0 else m.get c
  | [], m, a, c, _ => by simp only [Mem.setBytes, List.length_nil]; rw [if_neg (by omega)]
  | b :: bs, m, a, c, h => by
    rw [Mem.setBytes, Mem.get_setBytes bs (a + 1) c (Mem.set_wf h a b), Mem.get_set h]
    simp only [List.length_cons]
    by_cases h1 : c = a
    · subst h1
      rw [if_neg (by omega), if_pos rfl, if_pos (by omega)]
      simp
    · by_cases h2 : a ≤ c ∧ c < a + (bs.length + 1)
      · rw [if_pos (by omega), if_pos h2]
        obtain ⟨k, rfl⟩ : ∃ k, c = a + 1 + k := ⟨c - a - 1, by omega⟩
        rw [show a + 1 + k - (a + 1) = k by omega, show a + 1 + k - a = k + 1 by omega]
        simp
      · rw [if_neg (by omega), if_neg h1, if_neg h2]

@[simp] theorem Mem.poisonGranule_cells (m : Mem) (g : Nat) : (m.poisonGranule g).cells = m.cells := rfl

@[simp] theorem Mem.poisonGranules_cells : ∀ (gs : List Nat) (m : Mem), (gs.foldl Mem.poisonGranule m).cells = m.cells
  | [], _ => rfl
  | g :: gs, m => (Mem.poisonGranules_cells gs (m.poisonGranule g)).trans rfl

@[simp] theorem Mem.store_cells (m : Mem) (a : Nat) (bs : List Byte) (p : Bool) :
    (m.store a bs p).cells = (m.setBytes a bs).cells := by
  unfold Mem.store
  dsimp only
  split
  · exact Mem.poisonGranules_cells _ _
  · rfl

@[simp] theorem Mem.store_wf {m : Mem} (h : m.wf = true) (a : Nat) (bs : List Byte) (p : Bool) :
    (m.store a bs p).wf = true := by
  have h1 := Mem.setBytes_wf bs a h
  unfold Mem.wf at h1 ⊢
  rw [Mem.store_cells]
  exact h1

/-- A byte after a store. -/
theorem Mem.get_store {m : Mem} (h : m.wf = true) (a c : Nat) (bs : List Byte) (p : Bool) :
    (m.store a bs p).get c = if a ≤ c ∧ c < a + bs.length then bs.getD (c - a) 0 else m.get c := by
  rw [← Mem.get_setBytes bs a c h]
  unfold Mem.get
  rw [Mem.store_cells]

@[simp] theorem Mem.poisonGranule_wf {m : Mem} (h : m.wf = true) (g : Nat) : (m.poisonGranule g).wf = true := h

end Sys2Proof.Machine
end

