-- ==== Sys2Proof/Laws/State.lean ====
section
/-! SUPPORT. What each update of the state leaves alone, one lemma per field and update, and what reading after an update
gives. -/

namespace Sys2Proof.Machine


/-! `State.setCore` changes `cores` only. -/

@[simp] theorem State.setCore_psc (s : State) (t : Core) (k : TileCore) : (s.setCore t k).psc = s.psc := rfl
@[simp] theorem State.setCore_focusTile (s : State) (t : Core) (k : TileCore) : (s.setCore t k).focusTile = s.focusTile := rfl
@[simp] theorem State.setCore_focusEng (s : State) (t : Core) (k : TileCore) : (s.setCore t k).focusEng = s.focusEng := rfl
@[simp] theorem State.setCore_agenda (s : State) (t : Core) (k : TileCore) : (s.setCore t k).agenda = s.agenda := rfl
@[simp] theorem State.setCore_draws (s : State) (t : Core) (k : TileCore) : (s.setCore t k).draws = s.draws := rfl
@[simp] theorem State.setCore_fresh (s : State) (t : Core) (k : TileCore) : (s.setCore t k).fresh = s.fresh := rfl
@[simp] theorem State.setCore_dies (s : State) (t : Core) (k : TileCore) : (s.setCore t k).dies = s.dies := rfl
@[simp] theorem State.setCore_mem (s : State) (t : Core) (k : TileCore) : (s.setCore t k).mem = s.mem := rfl
@[simp] theorem State.setCore_pending (s : State) (t : Core) (k : TileCore) : (s.setCore t k).pending = s.pending := rfl
@[simp] theorem State.setCore_past (s : State) (t : Core) (k : TileCore) : (s.setCore t k).past = s.past := rfl
@[simp] theorem State.setCore_writes (s : State) (t : Core) (k : TileCore) : (s.setCore t k).writes = s.writes := rfl
@[simp] theorem State.setCore_applied (s : State) (t : Core) (k : TileCore) : (s.setCore t k).applied = s.applied := rfl
@[simp] theorem State.setCore_tags (s : State) (t : Core) (k : TileCore) : (s.setCore t k).tags = s.tags := rfl
@[simp] theorem State.setCore_seals (s : State) (t : Core) (k : TileCore) : (s.setCore t k).seals = s.seals := rfl
@[simp] theorem State.setCore_keys (s : State) (t : Core) (k : TileCore) : (s.setCore t k).keys = s.keys := rfl
@[simp] theorem State.setCore_sram (s : State) (t : Core) (k : TileCore) : (s.setCore t k).sram = s.sram := rfl
@[simp] theorem State.setCore_holds (s : State) (t : Core) (k : TileCore) : (s.setCore t k).holds = s.holds := rfl
@[simp] theorem State.setCore_scrub (s : State) (t : Core) (k : TileCore) : (s.setCore t k).scrub = s.scrub := rfl
@[simp] theorem State.setCore_pairs (s : State) (t : Core) (k : TileCore) : (s.setCore t k).pairs = s.pairs := rfl
@[simp] theorem State.setCore_jobs (s : State) (t : Core) (k : TileCore) : (s.setCore t k).jobs = s.jobs := rfl
@[simp] theorem State.setCore_queues (s : State) (t : Core) (k : TileCore) : (s.setCore t k).queues = s.queues := rfl
@[simp] theorem State.setCore_launches (s : State) (t : Core) (k : TileCore) : (s.setCore t k).launches = s.launches := rfl
@[simp] theorem State.setCore_graphs (s : State) (t : Core) (k : TileCore) : (s.setCore t k).graphs = s.graphs := rfl
@[simp] theorem State.setCore_copies (s : State) (t : Core) (k : TileCore) : (s.setCore t k).copies = s.copies := rfl
@[simp] theorem State.setCore_rounds (s : State) (t : Core) (k : TileCore) : (s.setCore t k).rounds = s.rounds := rfl
@[simp] theorem State.setCore_turns (s : State) (t : Core) (k : TileCore) : (s.setCore t k).turns = s.turns := rfl
@[simp] theorem State.setCore_served (s : State) (t : Core) (k : TileCore) : (s.setCore t k).served = s.served := rfl
@[simp] theorem State.setCore_slot (s : State) (t : Core) (k : TileCore) : (s.setCore t k).slot = s.slot := rfl
@[simp] theorem State.setCore_extensions (s : State) (t : Core) (k : TileCore) : (s.setCore t k).extensions = s.extensions := rfl
@[simp] theorem State.setCore_catchUp (s : State) (t : Core) (k : TileCore) : (s.setCore t k).catchUp = s.catchUp := rfl
@[simp] theorem State.setCore_aligned (s : State) (t : Core) (k : TileCore) : (s.setCore t k).aligned = s.aligned := rfl
@[simp] theorem State.setCore_ovcnt (s : State) (t : Core) (k : TileCore) : (s.setCore t k).ovcnt = s.ovcnt := rfl
@[simp] theorem State.setCore_ovlast (s : State) (t : Core) (k : TileCore) : (s.setCore t k).ovlast = s.ovlast := rfl
@[simp] theorem State.setCore_calendar (s : State) (t : Core) (k : TileCore) : (s.setCore t k).calendar = s.calendar := rfl
@[simp] theorem State.setCore_windows (s : State) (t : Core) (k : TileCore) : (s.setCore t k).windows = s.windows := rfl
@[simp] theorem State.setCore_lasting (s : State) (t : Core) (k : TileCore) : (s.setCore t k).lasting = s.lasting := rfl
@[simp] theorem State.setCore_lastWindow (s : State) (t : Core) (k : TileCore) : (s.setCore t k).lastWindow = s.lastWindow := rfl
@[simp] theorem State.setCore_windowAt (s : State) (t : Core) (k : TileCore) : (s.setCore t k).windowAt = s.windowAt := rfl
@[simp] theorem State.setCore_card (s : State) (t : Core) (k : TileCore) : (s.setCore t k).card = s.card := rfl
@[simp] theorem State.setCore_leader (s : State) (t : Core) (k : TileCore) : (s.setCore t k).leader = s.leader := rfl
@[simp] theorem State.setCore_leaderStopped (s : State) (t : Core) (k : TileCore) : (s.setCore t k).leaderStopped = s.leaderStopped := rfl

/-! `State.updCore` changes `cores` only. -/

@[simp] theorem State.updCore_psc (s : State) (t : Core) (f : TileCore → TileCore) : (s.updCore t f).psc = s.psc := rfl
@[simp] theorem State.updCore_focusTile (s : State) (t : Core) (f : TileCore → TileCore) : (s.updCore t f).focusTile = s.focusTile := rfl
@[simp] theorem State.updCore_focusEng (s : State) (t : Core) (f : TileCore → TileCore) : (s.updCore t f).focusEng = s.focusEng := rfl
@[simp] theorem State.updCore_agenda (s : State) (t : Core) (f : TileCore → TileCore) : (s.updCore t f).agenda = s.agenda := rfl
@[simp] theorem State.updCore_draws (s : State) (t : Core) (f : TileCore → TileCore) : (s.updCore t f).draws = s.draws := rfl
@[simp] theorem State.updCore_fresh (s : State) (t : Core) (f : TileCore → TileCore) : (s.updCore t f).fresh = s.fresh := rfl
@[simp] theorem State.updCore_dies (s : State) (t : Core) (f : TileCore → TileCore) : (s.updCore t f).dies = s.dies := rfl
@[simp] theorem State.updCore_mem (s : State) (t : Core) (f : TileCore → TileCore) : (s.updCore t f).mem = s.mem := rfl
@[simp] theorem State.updCore_pending (s : State) (t : Core) (f : TileCore → TileCore) : (s.updCore t f).pending = s.pending := rfl
@[simp] theorem State.updCore_past (s : State) (t : Core) (f : TileCore → TileCore) : (s.updCore t f).past = s.past := rfl
@[simp] theorem State.updCore_writes (s : State) (t : Core) (f : TileCore → TileCore) : (s.updCore t f).writes = s.writes := rfl
@[simp] theorem State.updCore_applied (s : State) (t : Core) (f : TileCore → TileCore) : (s.updCore t f).applied = s.applied := rfl
@[simp] theorem State.updCore_tags (s : State) (t : Core) (f : TileCore → TileCore) : (s.updCore t f).tags = s.tags := rfl
@[simp] theorem State.updCore_seals (s : State) (t : Core) (f : TileCore → TileCore) : (s.updCore t f).seals = s.seals := rfl
@[simp] theorem State.updCore_keys (s : State) (t : Core) (f : TileCore → TileCore) : (s.updCore t f).keys = s.keys := rfl
@[simp] theorem State.updCore_sram (s : State) (t : Core) (f : TileCore → TileCore) : (s.updCore t f).sram = s.sram := rfl
@[simp] theorem State.updCore_holds (s : State) (t : Core) (f : TileCore → TileCore) : (s.updCore t f).holds = s.holds := rfl
@[simp] theorem State.updCore_scrub (s : State) (t : Core) (f : TileCore → TileCore) : (s.updCore t f).scrub = s.scrub := rfl
@[simp] theorem State.updCore_pairs (s : State) (t : Core) (f : TileCore → TileCore) : (s.updCore t f).pairs = s.pairs := rfl
@[simp] theorem State.updCore_jobs (s : State) (t : Core) (f : TileCore → TileCore) : (s.updCore t f).jobs = s.jobs := rfl
@[simp] theorem State.updCore_queues (s : State) (t : Core) (f : TileCore → TileCore) : (s.updCore t f).queues = s.queues := rfl
@[simp] theorem State.updCore_launches (s : State) (t : Core) (f : TileCore → TileCore) : (s.updCore t f).launches = s.launches := rfl
@[simp] theorem State.updCore_graphs (s : State) (t : Core) (f : TileCore → TileCore) : (s.updCore t f).graphs = s.graphs := rfl
@[simp] theorem State.updCore_copies (s : State) (t : Core) (f : TileCore → TileCore) : (s.updCore t f).copies = s.copies := rfl
@[simp] theorem State.updCore_rounds (s : State) (t : Core) (f : TileCore → TileCore) : (s.updCore t f).rounds = s.rounds := rfl
@[simp] theorem State.updCore_turns (s : State) (t : Core) (f : TileCore → TileCore) : (s.updCore t f).turns = s.turns := rfl
@[simp] theorem State.updCore_served (s : State) (t : Core) (f : TileCore → TileCore) : (s.updCore t f).served = s.served := rfl
@[simp] theorem State.updCore_slot (s : State) (t : Core) (f : TileCore → TileCore) : (s.updCore t f).slot = s.slot := rfl
@[simp] theorem State.updCore_extensions (s : State) (t : Core) (f : TileCore → TileCore) : (s.updCore t f).extensions = s.extensions := rfl
@[simp] theorem State.updCore_catchUp (s : State) (t : Core) (f : TileCore → TileCore) : (s.updCore t f).catchUp = s.catchUp := rfl
@[simp] theorem State.updCore_aligned (s : State) (t : Core) (f : TileCore → TileCore) : (s.updCore t f).aligned = s.aligned := rfl
@[simp] theorem State.updCore_ovcnt (s : State) (t : Core) (f : TileCore → TileCore) : (s.updCore t f).ovcnt = s.ovcnt := rfl
@[simp] theorem State.updCore_ovlast (s : State) (t : Core) (f : TileCore → TileCore) : (s.updCore t f).ovlast = s.ovlast := rfl
@[simp] theorem State.updCore_calendar (s : State) (t : Core) (f : TileCore → TileCore) : (s.updCore t f).calendar = s.calendar := rfl
@[simp] theorem State.updCore_windows (s : State) (t : Core) (f : TileCore → TileCore) : (s.updCore t f).windows = s.windows := rfl
@[simp] theorem State.updCore_lasting (s : State) (t : Core) (f : TileCore → TileCore) : (s.updCore t f).lasting = s.lasting := rfl
@[simp] theorem State.updCore_lastWindow (s : State) (t : Core) (f : TileCore → TileCore) : (s.updCore t f).lastWindow = s.lastWindow := rfl
@[simp] theorem State.updCore_windowAt (s : State) (t : Core) (f : TileCore → TileCore) : (s.updCore t f).windowAt = s.windowAt := rfl
@[simp] theorem State.updCore_card (s : State) (t : Core) (f : TileCore → TileCore) : (s.updCore t f).card = s.card := rfl
@[simp] theorem State.updCore_leader (s : State) (t : Core) (f : TileCore → TileCore) : (s.updCore t f).leader = s.leader := rfl
@[simp] theorem State.updCore_leaderStopped (s : State) (t : Core) (f : TileCore → TileCore) : (s.updCore t f).leaderStopped = s.leaderStopped := rfl

/-! `State.setStrand` changes `cores` only. -/

@[simp] theorem State.setStrand_psc (s : State) (t : Core) (st : Strand) : (s.setStrand t st).psc = s.psc := rfl
@[simp] theorem State.setStrand_focusTile (s : State) (t : Core) (st : Strand) : (s.setStrand t st).focusTile = s.focusTile := rfl
@[simp] theorem State.setStrand_focusEng (s : State) (t : Core) (st : Strand) : (s.setStrand t st).focusEng = s.focusEng := rfl
@[simp] theorem State.setStrand_agenda (s : State) (t : Core) (st : Strand) : (s.setStrand t st).agenda = s.agenda := rfl
@[simp] theorem State.setStrand_draws (s : State) (t : Core) (st : Strand) : (s.setStrand t st).draws = s.draws := rfl
@[simp] theorem State.setStrand_fresh (s : State) (t : Core) (st : Strand) : (s.setStrand t st).fresh = s.fresh := rfl
@[simp] theorem State.setStrand_dies (s : State) (t : Core) (st : Strand) : (s.setStrand t st).dies = s.dies := rfl
@[simp] theorem State.setStrand_mem (s : State) (t : Core) (st : Strand) : (s.setStrand t st).mem = s.mem := rfl
@[simp] theorem State.setStrand_pending (s : State) (t : Core) (st : Strand) : (s.setStrand t st).pending = s.pending := rfl
@[simp] theorem State.setStrand_past (s : State) (t : Core) (st : Strand) : (s.setStrand t st).past = s.past := rfl
@[simp] theorem State.setStrand_writes (s : State) (t : Core) (st : Strand) : (s.setStrand t st).writes = s.writes := rfl
@[simp] theorem State.setStrand_applied (s : State) (t : Core) (st : Strand) : (s.setStrand t st).applied = s.applied := rfl
@[simp] theorem State.setStrand_tags (s : State) (t : Core) (st : Strand) : (s.setStrand t st).tags = s.tags := rfl
@[simp] theorem State.setStrand_seals (s : State) (t : Core) (st : Strand) : (s.setStrand t st).seals = s.seals := rfl
@[simp] theorem State.setStrand_keys (s : State) (t : Core) (st : Strand) : (s.setStrand t st).keys = s.keys := rfl
@[simp] theorem State.setStrand_sram (s : State) (t : Core) (st : Strand) : (s.setStrand t st).sram = s.sram := rfl
@[simp] theorem State.setStrand_holds (s : State) (t : Core) (st : Strand) : (s.setStrand t st).holds = s.holds := rfl
@[simp] theorem State.setStrand_scrub (s : State) (t : Core) (st : Strand) : (s.setStrand t st).scrub = s.scrub := rfl
@[simp] theorem State.setStrand_pairs (s : State) (t : Core) (st : Strand) : (s.setStrand t st).pairs = s.pairs := rfl
@[simp] theorem State.setStrand_jobs (s : State) (t : Core) (st : Strand) : (s.setStrand t st).jobs = s.jobs := rfl
@[simp] theorem State.setStrand_queues (s : State) (t : Core) (st : Strand) : (s.setStrand t st).queues = s.queues := rfl
@[simp] theorem State.setStrand_launches (s : State) (t : Core) (st : Strand) : (s.setStrand t st).launches = s.launches := rfl
@[simp] theorem State.setStrand_graphs (s : State) (t : Core) (st : Strand) : (s.setStrand t st).graphs = s.graphs := rfl
@[simp] theorem State.setStrand_copies (s : State) (t : Core) (st : Strand) : (s.setStrand t st).copies = s.copies := rfl
@[simp] theorem State.setStrand_rounds (s : State) (t : Core) (st : Strand) : (s.setStrand t st).rounds = s.rounds := rfl
@[simp] theorem State.setStrand_turns (s : State) (t : Core) (st : Strand) : (s.setStrand t st).turns = s.turns := rfl
@[simp] theorem State.setStrand_served (s : State) (t : Core) (st : Strand) : (s.setStrand t st).served = s.served := rfl
@[simp] theorem State.setStrand_slot (s : State) (t : Core) (st : Strand) : (s.setStrand t st).slot = s.slot := rfl
@[simp] theorem State.setStrand_extensions (s : State) (t : Core) (st : Strand) : (s.setStrand t st).extensions = s.extensions := rfl
@[simp] theorem State.setStrand_catchUp (s : State) (t : Core) (st : Strand) : (s.setStrand t st).catchUp = s.catchUp := rfl
@[simp] theorem State.setStrand_aligned (s : State) (t : Core) (st : Strand) : (s.setStrand t st).aligned = s.aligned := rfl
@[simp] theorem State.setStrand_ovcnt (s : State) (t : Core) (st : Strand) : (s.setStrand t st).ovcnt = s.ovcnt := rfl
@[simp] theorem State.setStrand_ovlast (s : State) (t : Core) (st : Strand) : (s.setStrand t st).ovlast = s.ovlast := rfl
@[simp] theorem State.setStrand_calendar (s : State) (t : Core) (st : Strand) : (s.setStrand t st).calendar = s.calendar := rfl
@[simp] theorem State.setStrand_windows (s : State) (t : Core) (st : Strand) : (s.setStrand t st).windows = s.windows := rfl
@[simp] theorem State.setStrand_lasting (s : State) (t : Core) (st : Strand) : (s.setStrand t st).lasting = s.lasting := rfl
@[simp] theorem State.setStrand_lastWindow (s : State) (t : Core) (st : Strand) : (s.setStrand t st).lastWindow = s.lastWindow := rfl
@[simp] theorem State.setStrand_windowAt (s : State) (t : Core) (st : Strand) : (s.setStrand t st).windowAt = s.windowAt := rfl
@[simp] theorem State.setStrand_card (s : State) (t : Core) (st : Strand) : (s.setStrand t st).card = s.card := rfl
@[simp] theorem State.setStrand_leader (s : State) (t : Core) (st : Strand) : (s.setStrand t st).leader = s.leader := rfl
@[simp] theorem State.setStrand_leaderStopped (s : State) (t : Core) (st : Strand) : (s.setStrand t st).leaderStopped = s.leaderStopped := rfl

/-! `State.updStrand` changes `cores` only. -/

@[simp] theorem State.updStrand_psc (s : State) (t : Core) (f : Strand → Strand) : (s.updStrand t f).psc = s.psc := rfl
@[simp] theorem State.updStrand_focusTile (s : State) (t : Core) (f : Strand → Strand) : (s.updStrand t f).focusTile = s.focusTile := rfl
@[simp] theorem State.updStrand_focusEng (s : State) (t : Core) (f : Strand → Strand) : (s.updStrand t f).focusEng = s.focusEng := rfl
@[simp] theorem State.updStrand_agenda (s : State) (t : Core) (f : Strand → Strand) : (s.updStrand t f).agenda = s.agenda := rfl
@[simp] theorem State.updStrand_draws (s : State) (t : Core) (f : Strand → Strand) : (s.updStrand t f).draws = s.draws := rfl
@[simp] theorem State.updStrand_fresh (s : State) (t : Core) (f : Strand → Strand) : (s.updStrand t f).fresh = s.fresh := rfl
@[simp] theorem State.updStrand_dies (s : State) (t : Core) (f : Strand → Strand) : (s.updStrand t f).dies = s.dies := rfl
@[simp] theorem State.updStrand_mem (s : State) (t : Core) (f : Strand → Strand) : (s.updStrand t f).mem = s.mem := rfl
@[simp] theorem State.updStrand_pending (s : State) (t : Core) (f : Strand → Strand) : (s.updStrand t f).pending = s.pending := rfl
@[simp] theorem State.updStrand_past (s : State) (t : Core) (f : Strand → Strand) : (s.updStrand t f).past = s.past := rfl
@[simp] theorem State.updStrand_writes (s : State) (t : Core) (f : Strand → Strand) : (s.updStrand t f).writes = s.writes := rfl
@[simp] theorem State.updStrand_applied (s : State) (t : Core) (f : Strand → Strand) : (s.updStrand t f).applied = s.applied := rfl
@[simp] theorem State.updStrand_tags (s : State) (t : Core) (f : Strand → Strand) : (s.updStrand t f).tags = s.tags := rfl
@[simp] theorem State.updStrand_seals (s : State) (t : Core) (f : Strand → Strand) : (s.updStrand t f).seals = s.seals := rfl
@[simp] theorem State.updStrand_keys (s : State) (t : Core) (f : Strand → Strand) : (s.updStrand t f).keys = s.keys := rfl
@[simp] theorem State.updStrand_sram (s : State) (t : Core) (f : Strand → Strand) : (s.updStrand t f).sram = s.sram := rfl
@[simp] theorem State.updStrand_holds (s : State) (t : Core) (f : Strand → Strand) : (s.updStrand t f).holds = s.holds := rfl
@[simp] theorem State.updStrand_scrub (s : State) (t : Core) (f : Strand → Strand) : (s.updStrand t f).scrub = s.scrub := rfl
@[simp] theorem State.updStrand_pairs (s : State) (t : Core) (f : Strand → Strand) : (s.updStrand t f).pairs = s.pairs := rfl
@[simp] theorem State.updStrand_jobs (s : State) (t : Core) (f : Strand → Strand) : (s.updStrand t f).jobs = s.jobs := rfl
@[simp] theorem State.updStrand_queues (s : State) (t : Core) (f : Strand → Strand) : (s.updStrand t f).queues = s.queues := rfl
@[simp] theorem State.updStrand_launches (s : State) (t : Core) (f : Strand → Strand) : (s.updStrand t f).launches = s.launches := rfl
@[simp] theorem State.updStrand_graphs (s : State) (t : Core) (f : Strand → Strand) : (s.updStrand t f).graphs = s.graphs := rfl
@[simp] theorem State.updStrand_copies (s : State) (t : Core) (f : Strand → Strand) : (s.updStrand t f).copies = s.copies := rfl
@[simp] theorem State.updStrand_rounds (s : State) (t : Core) (f : Strand → Strand) : (s.updStrand t f).rounds = s.rounds := rfl
@[simp] theorem State.updStrand_turns (s : State) (t : Core) (f : Strand → Strand) : (s.updStrand t f).turns = s.turns := rfl
@[simp] theorem State.updStrand_served (s : State) (t : Core) (f : Strand → Strand) : (s.updStrand t f).served = s.served := rfl
@[simp] theorem State.updStrand_slot (s : State) (t : Core) (f : Strand → Strand) : (s.updStrand t f).slot = s.slot := rfl
@[simp] theorem State.updStrand_extensions (s : State) (t : Core) (f : Strand → Strand) : (s.updStrand t f).extensions = s.extensions := rfl
@[simp] theorem State.updStrand_catchUp (s : State) (t : Core) (f : Strand → Strand) : (s.updStrand t f).catchUp = s.catchUp := rfl
@[simp] theorem State.updStrand_aligned (s : State) (t : Core) (f : Strand → Strand) : (s.updStrand t f).aligned = s.aligned := rfl
@[simp] theorem State.updStrand_ovcnt (s : State) (t : Core) (f : Strand → Strand) : (s.updStrand t f).ovcnt = s.ovcnt := rfl
@[simp] theorem State.updStrand_ovlast (s : State) (t : Core) (f : Strand → Strand) : (s.updStrand t f).ovlast = s.ovlast := rfl
@[simp] theorem State.updStrand_calendar (s : State) (t : Core) (f : Strand → Strand) : (s.updStrand t f).calendar = s.calendar := rfl
@[simp] theorem State.updStrand_windows (s : State) (t : Core) (f : Strand → Strand) : (s.updStrand t f).windows = s.windows := rfl
@[simp] theorem State.updStrand_lasting (s : State) (t : Core) (f : Strand → Strand) : (s.updStrand t f).lasting = s.lasting := rfl
@[simp] theorem State.updStrand_lastWindow (s : State) (t : Core) (f : Strand → Strand) : (s.updStrand t f).lastWindow = s.lastWindow := rfl
@[simp] theorem State.updStrand_windowAt (s : State) (t : Core) (f : Strand → Strand) : (s.updStrand t f).windowAt = s.windowAt := rfl
@[simp] theorem State.updStrand_card (s : State) (t : Core) (f : Strand → Strand) : (s.updStrand t f).card = s.card := rfl
@[simp] theorem State.updStrand_leader (s : State) (t : Core) (f : Strand → Strand) : (s.updStrand t f).leader = s.leader := rfl
@[simp] theorem State.updStrand_leaderStopped (s : State) (t : Core) (f : Strand → Strand) : (s.updStrand t f).leaderStopped = s.leaderStopped := rfl

/-! `State.allCores` changes `cores` only. -/

@[simp] theorem State.allCores_psc (s : State) (f : TileCore → TileCore) : (s.allCores f).psc = s.psc := rfl
@[simp] theorem State.allCores_focusTile (s : State) (f : TileCore → TileCore) : (s.allCores f).focusTile = s.focusTile := rfl
@[simp] theorem State.allCores_focusEng (s : State) (f : TileCore → TileCore) : (s.allCores f).focusEng = s.focusEng := rfl
@[simp] theorem State.allCores_agenda (s : State) (f : TileCore → TileCore) : (s.allCores f).agenda = s.agenda := rfl
@[simp] theorem State.allCores_draws (s : State) (f : TileCore → TileCore) : (s.allCores f).draws = s.draws := rfl
@[simp] theorem State.allCores_fresh (s : State) (f : TileCore → TileCore) : (s.allCores f).fresh = s.fresh := rfl
@[simp] theorem State.allCores_dies (s : State) (f : TileCore → TileCore) : (s.allCores f).dies = s.dies := rfl
@[simp] theorem State.allCores_mem (s : State) (f : TileCore → TileCore) : (s.allCores f).mem = s.mem := rfl
@[simp] theorem State.allCores_pending (s : State) (f : TileCore → TileCore) : (s.allCores f).pending = s.pending := rfl
@[simp] theorem State.allCores_past (s : State) (f : TileCore → TileCore) : (s.allCores f).past = s.past := rfl
@[simp] theorem State.allCores_writes (s : State) (f : TileCore → TileCore) : (s.allCores f).writes = s.writes := rfl
@[simp] theorem State.allCores_applied (s : State) (f : TileCore → TileCore) : (s.allCores f).applied = s.applied := rfl
@[simp] theorem State.allCores_tags (s : State) (f : TileCore → TileCore) : (s.allCores f).tags = s.tags := rfl
@[simp] theorem State.allCores_seals (s : State) (f : TileCore → TileCore) : (s.allCores f).seals = s.seals := rfl
@[simp] theorem State.allCores_keys (s : State) (f : TileCore → TileCore) : (s.allCores f).keys = s.keys := rfl
@[simp] theorem State.allCores_sram (s : State) (f : TileCore → TileCore) : (s.allCores f).sram = s.sram := rfl
@[simp] theorem State.allCores_holds (s : State) (f : TileCore → TileCore) : (s.allCores f).holds = s.holds := rfl
@[simp] theorem State.allCores_scrub (s : State) (f : TileCore → TileCore) : (s.allCores f).scrub = s.scrub := rfl
@[simp] theorem State.allCores_pairs (s : State) (f : TileCore → TileCore) : (s.allCores f).pairs = s.pairs := rfl
@[simp] theorem State.allCores_jobs (s : State) (f : TileCore → TileCore) : (s.allCores f).jobs = s.jobs := rfl
@[simp] theorem State.allCores_queues (s : State) (f : TileCore → TileCore) : (s.allCores f).queues = s.queues := rfl
@[simp] theorem State.allCores_launches (s : State) (f : TileCore → TileCore) : (s.allCores f).launches = s.launches := rfl
@[simp] theorem State.allCores_graphs (s : State) (f : TileCore → TileCore) : (s.allCores f).graphs = s.graphs := rfl
@[simp] theorem State.allCores_copies (s : State) (f : TileCore → TileCore) : (s.allCores f).copies = s.copies := rfl
@[simp] theorem State.allCores_rounds (s : State) (f : TileCore → TileCore) : (s.allCores f).rounds = s.rounds := rfl
@[simp] theorem State.allCores_turns (s : State) (f : TileCore → TileCore) : (s.allCores f).turns = s.turns := rfl
@[simp] theorem State.allCores_served (s : State) (f : TileCore → TileCore) : (s.allCores f).served = s.served := rfl
@[simp] theorem State.allCores_slot (s : State) (f : TileCore → TileCore) : (s.allCores f).slot = s.slot := rfl
@[simp] theorem State.allCores_extensions (s : State) (f : TileCore → TileCore) : (s.allCores f).extensions = s.extensions := rfl
@[simp] theorem State.allCores_catchUp (s : State) (f : TileCore → TileCore) : (s.allCores f).catchUp = s.catchUp := rfl
@[simp] theorem State.allCores_aligned (s : State) (f : TileCore → TileCore) : (s.allCores f).aligned = s.aligned := rfl
@[simp] theorem State.allCores_ovcnt (s : State) (f : TileCore → TileCore) : (s.allCores f).ovcnt = s.ovcnt := rfl
@[simp] theorem State.allCores_ovlast (s : State) (f : TileCore → TileCore) : (s.allCores f).ovlast = s.ovlast := rfl
@[simp] theorem State.allCores_calendar (s : State) (f : TileCore → TileCore) : (s.allCores f).calendar = s.calendar := rfl
@[simp] theorem State.allCores_windows (s : State) (f : TileCore → TileCore) : (s.allCores f).windows = s.windows := rfl
@[simp] theorem State.allCores_lasting (s : State) (f : TileCore → TileCore) : (s.allCores f).lasting = s.lasting := rfl
@[simp] theorem State.allCores_lastWindow (s : State) (f : TileCore → TileCore) : (s.allCores f).lastWindow = s.lastWindow := rfl
@[simp] theorem State.allCores_windowAt (s : State) (f : TileCore → TileCore) : (s.allCores f).windowAt = s.windowAt := rfl
@[simp] theorem State.allCores_card (s : State) (f : TileCore → TileCore) : (s.allCores f).card = s.card := rfl
@[simp] theorem State.allCores_leader (s : State) (f : TileCore → TileCore) : (s.allCores f).leader = s.leader := rfl
@[simp] theorem State.allCores_leaderStopped (s : State) (f : TileCore → TileCore) : (s.allCores f).leaderStopped = s.leaderStopped := rfl

/-! `State.setDie` changes `dies` only. -/

@[simp] theorem State.setDie_psc (s : State) (d : Fin 4) (k : Die) : (s.setDie d k).psc = s.psc := rfl
@[simp] theorem State.setDie_focusTile (s : State) (d : Fin 4) (k : Die) : (s.setDie d k).focusTile = s.focusTile := rfl
@[simp] theorem State.setDie_focusEng (s : State) (d : Fin 4) (k : Die) : (s.setDie d k).focusEng = s.focusEng := rfl
@[simp] theorem State.setDie_agenda (s : State) (d : Fin 4) (k : Die) : (s.setDie d k).agenda = s.agenda := rfl
@[simp] theorem State.setDie_draws (s : State) (d : Fin 4) (k : Die) : (s.setDie d k).draws = s.draws := rfl
@[simp] theorem State.setDie_fresh (s : State) (d : Fin 4) (k : Die) : (s.setDie d k).fresh = s.fresh := rfl
@[simp] theorem State.setDie_cores (s : State) (d : Fin 4) (k : Die) : (s.setDie d k).cores = s.cores := rfl
@[simp] theorem State.setDie_mem (s : State) (d : Fin 4) (k : Die) : (s.setDie d k).mem = s.mem := rfl
@[simp] theorem State.setDie_pending (s : State) (d : Fin 4) (k : Die) : (s.setDie d k).pending = s.pending := rfl
@[simp] theorem State.setDie_past (s : State) (d : Fin 4) (k : Die) : (s.setDie d k).past = s.past := rfl
@[simp] theorem State.setDie_writes (s : State) (d : Fin 4) (k : Die) : (s.setDie d k).writes = s.writes := rfl
@[simp] theorem State.setDie_applied (s : State) (d : Fin 4) (k : Die) : (s.setDie d k).applied = s.applied := rfl
@[simp] theorem State.setDie_tags (s : State) (d : Fin 4) (k : Die) : (s.setDie d k).tags = s.tags := rfl
@[simp] theorem State.setDie_seals (s : State) (d : Fin 4) (k : Die) : (s.setDie d k).seals = s.seals := rfl
@[simp] theorem State.setDie_keys (s : State) (d : Fin 4) (k : Die) : (s.setDie d k).keys = s.keys := rfl
@[simp] theorem State.setDie_sram (s : State) (d : Fin 4) (k : Die) : (s.setDie d k).sram = s.sram := rfl
@[simp] theorem State.setDie_holds (s : State) (d : Fin 4) (k : Die) : (s.setDie d k).holds = s.holds := rfl
@[simp] theorem State.setDie_scrub (s : State) (d : Fin 4) (k : Die) : (s.setDie d k).scrub = s.scrub := rfl
@[simp] theorem State.setDie_pairs (s : State) (d : Fin 4) (k : Die) : (s.setDie d k).pairs = s.pairs := rfl
@[simp] theorem State.setDie_jobs (s : State) (d : Fin 4) (k : Die) : (s.setDie d k).jobs = s.jobs := rfl
@[simp] theorem State.setDie_queues (s : State) (d : Fin 4) (k : Die) : (s.setDie d k).queues = s.queues := rfl
@[simp] theorem State.setDie_launches (s : State) (d : Fin 4) (k : Die) : (s.setDie d k).launches = s.launches := rfl
@[simp] theorem State.setDie_graphs (s : State) (d : Fin 4) (k : Die) : (s.setDie d k).graphs = s.graphs := rfl
@[simp] theorem State.setDie_copies (s : State) (d : Fin 4) (k : Die) : (s.setDie d k).copies = s.copies := rfl
@[simp] theorem State.setDie_rounds (s : State) (d : Fin 4) (k : Die) : (s.setDie d k).rounds = s.rounds := rfl
@[simp] theorem State.setDie_turns (s : State) (d : Fin 4) (k : Die) : (s.setDie d k).turns = s.turns := rfl
@[simp] theorem State.setDie_served (s : State) (d : Fin 4) (k : Die) : (s.setDie d k).served = s.served := rfl
@[simp] theorem State.setDie_slot (s : State) (d : Fin 4) (k : Die) : (s.setDie d k).slot = s.slot := rfl
@[simp] theorem State.setDie_extensions (s : State) (d : Fin 4) (k : Die) : (s.setDie d k).extensions = s.extensions := rfl
@[simp] theorem State.setDie_catchUp (s : State) (d : Fin 4) (k : Die) : (s.setDie d k).catchUp = s.catchUp := rfl
@[simp] theorem State.setDie_aligned (s : State) (d : Fin 4) (k : Die) : (s.setDie d k).aligned = s.aligned := rfl
@[simp] theorem State.setDie_ovcnt (s : State) (d : Fin 4) (k : Die) : (s.setDie d k).ovcnt = s.ovcnt := rfl
@[simp] theorem State.setDie_ovlast (s : State) (d : Fin 4) (k : Die) : (s.setDie d k).ovlast = s.ovlast := rfl
@[simp] theorem State.setDie_calendar (s : State) (d : Fin 4) (k : Die) : (s.setDie d k).calendar = s.calendar := rfl
@[simp] theorem State.setDie_windows (s : State) (d : Fin 4) (k : Die) : (s.setDie d k).windows = s.windows := rfl
@[simp] theorem State.setDie_lasting (s : State) (d : Fin 4) (k : Die) : (s.setDie d k).lasting = s.lasting := rfl
@[simp] theorem State.setDie_lastWindow (s : State) (d : Fin 4) (k : Die) : (s.setDie d k).lastWindow = s.lastWindow := rfl
@[simp] theorem State.setDie_windowAt (s : State) (d : Fin 4) (k : Die) : (s.setDie d k).windowAt = s.windowAt := rfl
@[simp] theorem State.setDie_card (s : State) (d : Fin 4) (k : Die) : (s.setDie d k).card = s.card := rfl
@[simp] theorem State.setDie_leader (s : State) (d : Fin 4) (k : Die) : (s.setDie d k).leader = s.leader := rfl
@[simp] theorem State.setDie_leaderStopped (s : State) (d : Fin 4) (k : Die) : (s.setDie d k).leaderStopped = s.leaderStopped := rfl

/-! `State.updDie` changes `dies` only. -/

@[simp] theorem State.updDie_psc (s : State) (d : Fin 4) (f : Die → Die) : (s.updDie d f).psc = s.psc := rfl
@[simp] theorem State.updDie_focusTile (s : State) (d : Fin 4) (f : Die → Die) : (s.updDie d f).focusTile = s.focusTile := rfl
@[simp] theorem State.updDie_focusEng (s : State) (d : Fin 4) (f : Die → Die) : (s.updDie d f).focusEng = s.focusEng := rfl
@[simp] theorem State.updDie_agenda (s : State) (d : Fin 4) (f : Die → Die) : (s.updDie d f).agenda = s.agenda := rfl
@[simp] theorem State.updDie_draws (s : State) (d : Fin 4) (f : Die → Die) : (s.updDie d f).draws = s.draws := rfl
@[simp] theorem State.updDie_fresh (s : State) (d : Fin 4) (f : Die → Die) : (s.updDie d f).fresh = s.fresh := rfl
@[simp] theorem State.updDie_cores (s : State) (d : Fin 4) (f : Die → Die) : (s.updDie d f).cores = s.cores := rfl
@[simp] theorem State.updDie_mem (s : State) (d : Fin 4) (f : Die → Die) : (s.updDie d f).mem = s.mem := rfl
@[simp] theorem State.updDie_pending (s : State) (d : Fin 4) (f : Die → Die) : (s.updDie d f).pending = s.pending := rfl
@[simp] theorem State.updDie_past (s : State) (d : Fin 4) (f : Die → Die) : (s.updDie d f).past = s.past := rfl
@[simp] theorem State.updDie_writes (s : State) (d : Fin 4) (f : Die → Die) : (s.updDie d f).writes = s.writes := rfl
@[simp] theorem State.updDie_applied (s : State) (d : Fin 4) (f : Die → Die) : (s.updDie d f).applied = s.applied := rfl
@[simp] theorem State.updDie_tags (s : State) (d : Fin 4) (f : Die → Die) : (s.updDie d f).tags = s.tags := rfl
@[simp] theorem State.updDie_seals (s : State) (d : Fin 4) (f : Die → Die) : (s.updDie d f).seals = s.seals := rfl
@[simp] theorem State.updDie_keys (s : State) (d : Fin 4) (f : Die → Die) : (s.updDie d f).keys = s.keys := rfl
@[simp] theorem State.updDie_sram (s : State) (d : Fin 4) (f : Die → Die) : (s.updDie d f).sram = s.sram := rfl
@[simp] theorem State.updDie_holds (s : State) (d : Fin 4) (f : Die → Die) : (s.updDie d f).holds = s.holds := rfl
@[simp] theorem State.updDie_scrub (s : State) (d : Fin 4) (f : Die → Die) : (s.updDie d f).scrub = s.scrub := rfl
@[simp] theorem State.updDie_pairs (s : State) (d : Fin 4) (f : Die → Die) : (s.updDie d f).pairs = s.pairs := rfl
@[simp] theorem State.updDie_jobs (s : State) (d : Fin 4) (f : Die → Die) : (s.updDie d f).jobs = s.jobs := rfl
@[simp] theorem State.updDie_queues (s : State) (d : Fin 4) (f : Die → Die) : (s.updDie d f).queues = s.queues := rfl
@[simp] theorem State.updDie_launches (s : State) (d : Fin 4) (f : Die → Die) : (s.updDie d f).launches = s.launches := rfl
@[simp] theorem State.updDie_graphs (s : State) (d : Fin 4) (f : Die → Die) : (s.updDie d f).graphs = s.graphs := rfl
@[simp] theorem State.updDie_copies (s : State) (d : Fin 4) (f : Die → Die) : (s.updDie d f).copies = s.copies := rfl
@[simp] theorem State.updDie_rounds (s : State) (d : Fin 4) (f : Die → Die) : (s.updDie d f).rounds = s.rounds := rfl
@[simp] theorem State.updDie_turns (s : State) (d : Fin 4) (f : Die → Die) : (s.updDie d f).turns = s.turns := rfl
@[simp] theorem State.updDie_served (s : State) (d : Fin 4) (f : Die → Die) : (s.updDie d f).served = s.served := rfl
@[simp] theorem State.updDie_slot (s : State) (d : Fin 4) (f : Die → Die) : (s.updDie d f).slot = s.slot := rfl
@[simp] theorem State.updDie_extensions (s : State) (d : Fin 4) (f : Die → Die) : (s.updDie d f).extensions = s.extensions := rfl
@[simp] theorem State.updDie_catchUp (s : State) (d : Fin 4) (f : Die → Die) : (s.updDie d f).catchUp = s.catchUp := rfl
@[simp] theorem State.updDie_aligned (s : State) (d : Fin 4) (f : Die → Die) : (s.updDie d f).aligned = s.aligned := rfl
@[simp] theorem State.updDie_ovcnt (s : State) (d : Fin 4) (f : Die → Die) : (s.updDie d f).ovcnt = s.ovcnt := rfl
@[simp] theorem State.updDie_ovlast (s : State) (d : Fin 4) (f : Die → Die) : (s.updDie d f).ovlast = s.ovlast := rfl
@[simp] theorem State.updDie_calendar (s : State) (d : Fin 4) (f : Die → Die) : (s.updDie d f).calendar = s.calendar := rfl
@[simp] theorem State.updDie_windows (s : State) (d : Fin 4) (f : Die → Die) : (s.updDie d f).windows = s.windows := rfl
@[simp] theorem State.updDie_lasting (s : State) (d : Fin 4) (f : Die → Die) : (s.updDie d f).lasting = s.lasting := rfl
@[simp] theorem State.updDie_lastWindow (s : State) (d : Fin 4) (f : Die → Die) : (s.updDie d f).lastWindow = s.lastWindow := rfl
@[simp] theorem State.updDie_windowAt (s : State) (d : Fin 4) (f : Die → Die) : (s.updDie d f).windowAt = s.windowAt := rfl
@[simp] theorem State.updDie_card (s : State) (d : Fin 4) (f : Die → Die) : (s.updDie d f).card = s.card := rfl
@[simp] theorem State.updDie_leader (s : State) (d : Fin 4) (f : Die → Die) : (s.updDie d f).leader = s.leader := rfl
@[simp] theorem State.updDie_leaderStopped (s : State) (d : Fin 4) (f : Die → Die) : (s.updDie d f).leaderStopped = s.leaderStopped := rfl

/-! `State.updJob` changes `jobs` only. -/

@[simp] theorem State.updJob_psc (s : State) (n : Word) (f : Job → Job) : (s.updJob n f).psc = s.psc := rfl
@[simp] theorem State.updJob_focusTile (s : State) (n : Word) (f : Job → Job) : (s.updJob n f).focusTile = s.focusTile := rfl
@[simp] theorem State.updJob_focusEng (s : State) (n : Word) (f : Job → Job) : (s.updJob n f).focusEng = s.focusEng := rfl
@[simp] theorem State.updJob_agenda (s : State) (n : Word) (f : Job → Job) : (s.updJob n f).agenda = s.agenda := rfl
@[simp] theorem State.updJob_draws (s : State) (n : Word) (f : Job → Job) : (s.updJob n f).draws = s.draws := rfl
@[simp] theorem State.updJob_fresh (s : State) (n : Word) (f : Job → Job) : (s.updJob n f).fresh = s.fresh := rfl
@[simp] theorem State.updJob_cores (s : State) (n : Word) (f : Job → Job) : (s.updJob n f).cores = s.cores := rfl
@[simp] theorem State.updJob_dies (s : State) (n : Word) (f : Job → Job) : (s.updJob n f).dies = s.dies := rfl
@[simp] theorem State.updJob_mem (s : State) (n : Word) (f : Job → Job) : (s.updJob n f).mem = s.mem := rfl
@[simp] theorem State.updJob_pending (s : State) (n : Word) (f : Job → Job) : (s.updJob n f).pending = s.pending := rfl
@[simp] theorem State.updJob_past (s : State) (n : Word) (f : Job → Job) : (s.updJob n f).past = s.past := rfl
@[simp] theorem State.updJob_writes (s : State) (n : Word) (f : Job → Job) : (s.updJob n f).writes = s.writes := rfl
@[simp] theorem State.updJob_applied (s : State) (n : Word) (f : Job → Job) : (s.updJob n f).applied = s.applied := rfl
@[simp] theorem State.updJob_tags (s : State) (n : Word) (f : Job → Job) : (s.updJob n f).tags = s.tags := rfl
@[simp] theorem State.updJob_seals (s : State) (n : Word) (f : Job → Job) : (s.updJob n f).seals = s.seals := rfl
@[simp] theorem State.updJob_keys (s : State) (n : Word) (f : Job → Job) : (s.updJob n f).keys = s.keys := rfl
@[simp] theorem State.updJob_sram (s : State) (n : Word) (f : Job → Job) : (s.updJob n f).sram = s.sram := rfl
@[simp] theorem State.updJob_holds (s : State) (n : Word) (f : Job → Job) : (s.updJob n f).holds = s.holds := rfl
@[simp] theorem State.updJob_scrub (s : State) (n : Word) (f : Job → Job) : (s.updJob n f).scrub = s.scrub := rfl
@[simp] theorem State.updJob_pairs (s : State) (n : Word) (f : Job → Job) : (s.updJob n f).pairs = s.pairs := rfl
@[simp] theorem State.updJob_queues (s : State) (n : Word) (f : Job → Job) : (s.updJob n f).queues = s.queues := rfl
@[simp] theorem State.updJob_launches (s : State) (n : Word) (f : Job → Job) : (s.updJob n f).launches = s.launches := rfl
@[simp] theorem State.updJob_graphs (s : State) (n : Word) (f : Job → Job) : (s.updJob n f).graphs = s.graphs := rfl
@[simp] theorem State.updJob_copies (s : State) (n : Word) (f : Job → Job) : (s.updJob n f).copies = s.copies := rfl
@[simp] theorem State.updJob_rounds (s : State) (n : Word) (f : Job → Job) : (s.updJob n f).rounds = s.rounds := rfl
@[simp] theorem State.updJob_turns (s : State) (n : Word) (f : Job → Job) : (s.updJob n f).turns = s.turns := rfl
@[simp] theorem State.updJob_served (s : State) (n : Word) (f : Job → Job) : (s.updJob n f).served = s.served := rfl
@[simp] theorem State.updJob_slot (s : State) (n : Word) (f : Job → Job) : (s.updJob n f).slot = s.slot := rfl
@[simp] theorem State.updJob_extensions (s : State) (n : Word) (f : Job → Job) : (s.updJob n f).extensions = s.extensions := rfl
@[simp] theorem State.updJob_catchUp (s : State) (n : Word) (f : Job → Job) : (s.updJob n f).catchUp = s.catchUp := rfl
@[simp] theorem State.updJob_aligned (s : State) (n : Word) (f : Job → Job) : (s.updJob n f).aligned = s.aligned := rfl
@[simp] theorem State.updJob_ovcnt (s : State) (n : Word) (f : Job → Job) : (s.updJob n f).ovcnt = s.ovcnt := rfl
@[simp] theorem State.updJob_ovlast (s : State) (n : Word) (f : Job → Job) : (s.updJob n f).ovlast = s.ovlast := rfl
@[simp] theorem State.updJob_calendar (s : State) (n : Word) (f : Job → Job) : (s.updJob n f).calendar = s.calendar := rfl
@[simp] theorem State.updJob_windows (s : State) (n : Word) (f : Job → Job) : (s.updJob n f).windows = s.windows := rfl
@[simp] theorem State.updJob_lasting (s : State) (n : Word) (f : Job → Job) : (s.updJob n f).lasting = s.lasting := rfl
@[simp] theorem State.updJob_lastWindow (s : State) (n : Word) (f : Job → Job) : (s.updJob n f).lastWindow = s.lastWindow := rfl
@[simp] theorem State.updJob_windowAt (s : State) (n : Word) (f : Job → Job) : (s.updJob n f).windowAt = s.windowAt := rfl
@[simp] theorem State.updJob_card (s : State) (n : Word) (f : Job → Job) : (s.updJob n f).card = s.card := rfl
@[simp] theorem State.updJob_leader (s : State) (n : Word) (f : Job → Job) : (s.updJob n f).leader = s.leader := rfl
@[simp] theorem State.updJob_leaderStopped (s : State) (n : Word) (f : Job → Job) : (s.updJob n f).leaderStopped = s.leaderStopped := rfl

/-! `State.updLaunch` changes `launches` only. -/

@[simp] theorem State.updLaunch_psc (s : State) (h : Nat) (f : Launch → Launch) : (s.updLaunch h f).psc = s.psc := rfl
@[simp] theorem State.updLaunch_focusTile (s : State) (h : Nat) (f : Launch → Launch) : (s.updLaunch h f).focusTile = s.focusTile := rfl
@[simp] theorem State.updLaunch_focusEng (s : State) (h : Nat) (f : Launch → Launch) : (s.updLaunch h f).focusEng = s.focusEng := rfl
@[simp] theorem State.updLaunch_agenda (s : State) (h : Nat) (f : Launch → Launch) : (s.updLaunch h f).agenda = s.agenda := rfl
@[simp] theorem State.updLaunch_draws (s : State) (h : Nat) (f : Launch → Launch) : (s.updLaunch h f).draws = s.draws := rfl
@[simp] theorem State.updLaunch_fresh (s : State) (h : Nat) (f : Launch → Launch) : (s.updLaunch h f).fresh = s.fresh := rfl
@[simp] theorem State.updLaunch_cores (s : State) (h : Nat) (f : Launch → Launch) : (s.updLaunch h f).cores = s.cores := rfl
@[simp] theorem State.updLaunch_dies (s : State) (h : Nat) (f : Launch → Launch) : (s.updLaunch h f).dies = s.dies := rfl
@[simp] theorem State.updLaunch_mem (s : State) (h : Nat) (f : Launch → Launch) : (s.updLaunch h f).mem = s.mem := rfl
@[simp] theorem State.updLaunch_pending (s : State) (h : Nat) (f : Launch → Launch) : (s.updLaunch h f).pending = s.pending := rfl
@[simp] theorem State.updLaunch_past (s : State) (h : Nat) (f : Launch → Launch) : (s.updLaunch h f).past = s.past := rfl
@[simp] theorem State.updLaunch_writes (s : State) (h : Nat) (f : Launch → Launch) : (s.updLaunch h f).writes = s.writes := rfl
@[simp] theorem State.updLaunch_applied (s : State) (h : Nat) (f : Launch → Launch) : (s.updLaunch h f).applied = s.applied := rfl
@[simp] theorem State.updLaunch_tags (s : State) (h : Nat) (f : Launch → Launch) : (s.updLaunch h f).tags = s.tags := rfl
@[simp] theorem State.updLaunch_seals (s : State) (h : Nat) (f : Launch → Launch) : (s.updLaunch h f).seals = s.seals := rfl
@[simp] theorem State.updLaunch_keys (s : State) (h : Nat) (f : Launch → Launch) : (s.updLaunch h f).keys = s.keys := rfl
@[simp] theorem State.updLaunch_sram (s : State) (h : Nat) (f : Launch → Launch) : (s.updLaunch h f).sram = s.sram := rfl
@[simp] theorem State.updLaunch_holds (s : State) (h : Nat) (f : Launch → Launch) : (s.updLaunch h f).holds = s.holds := rfl
@[simp] theorem State.updLaunch_scrub (s : State) (h : Nat) (f : Launch → Launch) : (s.updLaunch h f).scrub = s.scrub := rfl
@[simp] theorem State.updLaunch_pairs (s : State) (h : Nat) (f : Launch → Launch) : (s.updLaunch h f).pairs = s.pairs := rfl
@[simp] theorem State.updLaunch_jobs (s : State) (h : Nat) (f : Launch → Launch) : (s.updLaunch h f).jobs = s.jobs := rfl
@[simp] theorem State.updLaunch_queues (s : State) (h : Nat) (f : Launch → Launch) : (s.updLaunch h f).queues = s.queues := rfl
@[simp] theorem State.updLaunch_graphs (s : State) (h : Nat) (f : Launch → Launch) : (s.updLaunch h f).graphs = s.graphs := rfl
@[simp] theorem State.updLaunch_copies (s : State) (h : Nat) (f : Launch → Launch) : (s.updLaunch h f).copies = s.copies := rfl
@[simp] theorem State.updLaunch_rounds (s : State) (h : Nat) (f : Launch → Launch) : (s.updLaunch h f).rounds = s.rounds := rfl
@[simp] theorem State.updLaunch_turns (s : State) (h : Nat) (f : Launch → Launch) : (s.updLaunch h f).turns = s.turns := rfl
@[simp] theorem State.updLaunch_served (s : State) (h : Nat) (f : Launch → Launch) : (s.updLaunch h f).served = s.served := rfl
@[simp] theorem State.updLaunch_slot (s : State) (h : Nat) (f : Launch → Launch) : (s.updLaunch h f).slot = s.slot := rfl
@[simp] theorem State.updLaunch_extensions (s : State) (h : Nat) (f : Launch → Launch) : (s.updLaunch h f).extensions = s.extensions := rfl
@[simp] theorem State.updLaunch_catchUp (s : State) (h : Nat) (f : Launch → Launch) : (s.updLaunch h f).catchUp = s.catchUp := rfl
@[simp] theorem State.updLaunch_aligned (s : State) (h : Nat) (f : Launch → Launch) : (s.updLaunch h f).aligned = s.aligned := rfl
@[simp] theorem State.updLaunch_ovcnt (s : State) (h : Nat) (f : Launch → Launch) : (s.updLaunch h f).ovcnt = s.ovcnt := rfl
@[simp] theorem State.updLaunch_ovlast (s : State) (h : Nat) (f : Launch → Launch) : (s.updLaunch h f).ovlast = s.ovlast := rfl
@[simp] theorem State.updLaunch_calendar (s : State) (h : Nat) (f : Launch → Launch) : (s.updLaunch h f).calendar = s.calendar := rfl
@[simp] theorem State.updLaunch_windows (s : State) (h : Nat) (f : Launch → Launch) : (s.updLaunch h f).windows = s.windows := rfl
@[simp] theorem State.updLaunch_lasting (s : State) (h : Nat) (f : Launch → Launch) : (s.updLaunch h f).lasting = s.lasting := rfl
@[simp] theorem State.updLaunch_lastWindow (s : State) (h : Nat) (f : Launch → Launch) : (s.updLaunch h f).lastWindow = s.lastWindow := rfl
@[simp] theorem State.updLaunch_windowAt (s : State) (h : Nat) (f : Launch → Launch) : (s.updLaunch h f).windowAt = s.windowAt := rfl
@[simp] theorem State.updLaunch_card (s : State) (h : Nat) (f : Launch → Launch) : (s.updLaunch h f).card = s.card := rfl
@[simp] theorem State.updLaunch_leader (s : State) (h : Nat) (f : Launch → Launch) : (s.updLaunch h f).leader = s.leader := rfl
@[simp] theorem State.updLaunch_leaderStopped (s : State) (h : Nat) (f : Launch → Launch) : (s.updLaunch h f).leaderStopped = s.leaderStopped := rfl

/-! `State.updQueue` changes `queues` only. -/

@[simp] theorem State.updQueue_psc (s : State) (q : BitVec 8) (f : Queue → Queue) : (s.updQueue q f).psc = s.psc := rfl
@[simp] theorem State.updQueue_focusTile (s : State) (q : BitVec 8) (f : Queue → Queue) : (s.updQueue q f).focusTile = s.focusTile := rfl
@[simp] theorem State.updQueue_focusEng (s : State) (q : BitVec 8) (f : Queue → Queue) : (s.updQueue q f).focusEng = s.focusEng := rfl
@[simp] theorem State.updQueue_agenda (s : State) (q : BitVec 8) (f : Queue → Queue) : (s.updQueue q f).agenda = s.agenda := rfl
@[simp] theorem State.updQueue_draws (s : State) (q : BitVec 8) (f : Queue → Queue) : (s.updQueue q f).draws = s.draws := rfl
@[simp] theorem State.updQueue_fresh (s : State) (q : BitVec 8) (f : Queue → Queue) : (s.updQueue q f).fresh = s.fresh := rfl
@[simp] theorem State.updQueue_cores (s : State) (q : BitVec 8) (f : Queue → Queue) : (s.updQueue q f).cores = s.cores := rfl
@[simp] theorem State.updQueue_dies (s : State) (q : BitVec 8) (f : Queue → Queue) : (s.updQueue q f).dies = s.dies := rfl
@[simp] theorem State.updQueue_mem (s : State) (q : BitVec 8) (f : Queue → Queue) : (s.updQueue q f).mem = s.mem := rfl
@[simp] theorem State.updQueue_pending (s : State) (q : BitVec 8) (f : Queue → Queue) : (s.updQueue q f).pending = s.pending := rfl
@[simp] theorem State.updQueue_past (s : State) (q : BitVec 8) (f : Queue → Queue) : (s.updQueue q f).past = s.past := rfl
@[simp] theorem State.updQueue_writes (s : State) (q : BitVec 8) (f : Queue → Queue) : (s.updQueue q f).writes = s.writes := rfl
@[simp] theorem State.updQueue_applied (s : State) (q : BitVec 8) (f : Queue → Queue) : (s.updQueue q f).applied = s.applied := rfl
@[simp] theorem State.updQueue_tags (s : State) (q : BitVec 8) (f : Queue → Queue) : (s.updQueue q f).tags = s.tags := rfl
@[simp] theorem State.updQueue_seals (s : State) (q : BitVec 8) (f : Queue → Queue) : (s.updQueue q f).seals = s.seals := rfl
@[simp] theorem State.updQueue_keys (s : State) (q : BitVec 8) (f : Queue → Queue) : (s.updQueue q f).keys = s.keys := rfl
@[simp] theorem State.updQueue_sram (s : State) (q : BitVec 8) (f : Queue → Queue) : (s.updQueue q f).sram = s.sram := rfl
@[simp] theorem State.updQueue_holds (s : State) (q : BitVec 8) (f : Queue → Queue) : (s.updQueue q f).holds = s.holds := rfl
@[simp] theorem State.updQueue_scrub (s : State) (q : BitVec 8) (f : Queue → Queue) : (s.updQueue q f).scrub = s.scrub := rfl
@[simp] theorem State.updQueue_pairs (s : State) (q : BitVec 8) (f : Queue → Queue) : (s.updQueue q f).pairs = s.pairs := rfl
@[simp] theorem State.updQueue_jobs (s : State) (q : BitVec 8) (f : Queue → Queue) : (s.updQueue q f).jobs = s.jobs := rfl
@[simp] theorem State.updQueue_launches (s : State) (q : BitVec 8) (f : Queue → Queue) : (s.updQueue q f).launches = s.launches := rfl
@[simp] theorem State.updQueue_graphs (s : State) (q : BitVec 8) (f : Queue → Queue) : (s.updQueue q f).graphs = s.graphs := rfl
@[simp] theorem State.updQueue_copies (s : State) (q : BitVec 8) (f : Queue → Queue) : (s.updQueue q f).copies = s.copies := rfl
@[simp] theorem State.updQueue_rounds (s : State) (q : BitVec 8) (f : Queue → Queue) : (s.updQueue q f).rounds = s.rounds := rfl
@[simp] theorem State.updQueue_turns (s : State) (q : BitVec 8) (f : Queue → Queue) : (s.updQueue q f).turns = s.turns := rfl
@[simp] theorem State.updQueue_served (s : State) (q : BitVec 8) (f : Queue → Queue) : (s.updQueue q f).served = s.served := rfl
@[simp] theorem State.updQueue_slot (s : State) (q : BitVec 8) (f : Queue → Queue) : (s.updQueue q f).slot = s.slot := rfl
@[simp] theorem State.updQueue_extensions (s : State) (q : BitVec 8) (f : Queue → Queue) : (s.updQueue q f).extensions = s.extensions := rfl
@[simp] theorem State.updQueue_catchUp (s : State) (q : BitVec 8) (f : Queue → Queue) : (s.updQueue q f).catchUp = s.catchUp := rfl
@[simp] theorem State.updQueue_aligned (s : State) (q : BitVec 8) (f : Queue → Queue) : (s.updQueue q f).aligned = s.aligned := rfl
@[simp] theorem State.updQueue_ovcnt (s : State) (q : BitVec 8) (f : Queue → Queue) : (s.updQueue q f).ovcnt = s.ovcnt := rfl
@[simp] theorem State.updQueue_ovlast (s : State) (q : BitVec 8) (f : Queue → Queue) : (s.updQueue q f).ovlast = s.ovlast := rfl
@[simp] theorem State.updQueue_calendar (s : State) (q : BitVec 8) (f : Queue → Queue) : (s.updQueue q f).calendar = s.calendar := rfl
@[simp] theorem State.updQueue_windows (s : State) (q : BitVec 8) (f : Queue → Queue) : (s.updQueue q f).windows = s.windows := rfl
@[simp] theorem State.updQueue_lasting (s : State) (q : BitVec 8) (f : Queue → Queue) : (s.updQueue q f).lasting = s.lasting := rfl
@[simp] theorem State.updQueue_lastWindow (s : State) (q : BitVec 8) (f : Queue → Queue) : (s.updQueue q f).lastWindow = s.lastWindow := rfl
@[simp] theorem State.updQueue_windowAt (s : State) (q : BitVec 8) (f : Queue → Queue) : (s.updQueue q f).windowAt = s.windowAt := rfl
@[simp] theorem State.updQueue_card (s : State) (q : BitVec 8) (f : Queue → Queue) : (s.updQueue q f).card = s.card := rfl
@[simp] theorem State.updQueue_leader (s : State) (q : BitVec 8) (f : Queue → Queue) : (s.updQueue q f).leader = s.leader := rfl
@[simp] theorem State.updQueue_leaderStopped (s : State) (q : BitVec 8) (f : Queue → Queue) : (s.updQueue q f).leaderStopped = s.leaderStopped := rfl

/-! `State.updGraph` changes `graphs` only. -/

@[simp] theorem State.updGraph_psc (s : State) (h : Nat) (f : Graph → Graph) : (s.updGraph h f).psc = s.psc := rfl
@[simp] theorem State.updGraph_focusTile (s : State) (h : Nat) (f : Graph → Graph) : (s.updGraph h f).focusTile = s.focusTile := rfl
@[simp] theorem State.updGraph_focusEng (s : State) (h : Nat) (f : Graph → Graph) : (s.updGraph h f).focusEng = s.focusEng := rfl
@[simp] theorem State.updGraph_agenda (s : State) (h : Nat) (f : Graph → Graph) : (s.updGraph h f).agenda = s.agenda := rfl
@[simp] theorem State.updGraph_draws (s : State) (h : Nat) (f : Graph → Graph) : (s.updGraph h f).draws = s.draws := rfl
@[simp] theorem State.updGraph_fresh (s : State) (h : Nat) (f : Graph → Graph) : (s.updGraph h f).fresh = s.fresh := rfl
@[simp] theorem State.updGraph_cores (s : State) (h : Nat) (f : Graph → Graph) : (s.updGraph h f).cores = s.cores := rfl
@[simp] theorem State.updGraph_dies (s : State) (h : Nat) (f : Graph → Graph) : (s.updGraph h f).dies = s.dies := rfl
@[simp] theorem State.updGraph_mem (s : State) (h : Nat) (f : Graph → Graph) : (s.updGraph h f).mem = s.mem := rfl
@[simp] theorem State.updGraph_pending (s : State) (h : Nat) (f : Graph → Graph) : (s.updGraph h f).pending = s.pending := rfl
@[simp] theorem State.updGraph_past (s : State) (h : Nat) (f : Graph → Graph) : (s.updGraph h f).past = s.past := rfl
@[simp] theorem State.updGraph_writes (s : State) (h : Nat) (f : Graph → Graph) : (s.updGraph h f).writes = s.writes := rfl
@[simp] theorem State.updGraph_applied (s : State) (h : Nat) (f : Graph → Graph) : (s.updGraph h f).applied = s.applied := rfl
@[simp] theorem State.updGraph_tags (s : State) (h : Nat) (f : Graph → Graph) : (s.updGraph h f).tags = s.tags := rfl
@[simp] theorem State.updGraph_seals (s : State) (h : Nat) (f : Graph → Graph) : (s.updGraph h f).seals = s.seals := rfl
@[simp] theorem State.updGraph_keys (s : State) (h : Nat) (f : Graph → Graph) : (s.updGraph h f).keys = s.keys := rfl
@[simp] theorem State.updGraph_sram (s : State) (h : Nat) (f : Graph → Graph) : (s.updGraph h f).sram = s.sram := rfl
@[simp] theorem State.updGraph_holds (s : State) (h : Nat) (f : Graph → Graph) : (s.updGraph h f).holds = s.holds := rfl
@[simp] theorem State.updGraph_scrub (s : State) (h : Nat) (f : Graph → Graph) : (s.updGraph h f).scrub = s.scrub := rfl
@[simp] theorem State.updGraph_pairs (s : State) (h : Nat) (f : Graph → Graph) : (s.updGraph h f).pairs = s.pairs := rfl
@[simp] theorem State.updGraph_jobs (s : State) (h : Nat) (f : Graph → Graph) : (s.updGraph h f).jobs = s.jobs := rfl
@[simp] theorem State.updGraph_queues (s : State) (h : Nat) (f : Graph → Graph) : (s.updGraph h f).queues = s.queues := rfl
@[simp] theorem State.updGraph_launches (s : State) (h : Nat) (f : Graph → Graph) : (s.updGraph h f).launches = s.launches := rfl
@[simp] theorem State.updGraph_copies (s : State) (h : Nat) (f : Graph → Graph) : (s.updGraph h f).copies = s.copies := rfl
@[simp] theorem State.updGraph_rounds (s : State) (h : Nat) (f : Graph → Graph) : (s.updGraph h f).rounds = s.rounds := rfl
@[simp] theorem State.updGraph_turns (s : State) (h : Nat) (f : Graph → Graph) : (s.updGraph h f).turns = s.turns := rfl
@[simp] theorem State.updGraph_served (s : State) (h : Nat) (f : Graph → Graph) : (s.updGraph h f).served = s.served := rfl
@[simp] theorem State.updGraph_slot (s : State) (h : Nat) (f : Graph → Graph) : (s.updGraph h f).slot = s.slot := rfl
@[simp] theorem State.updGraph_extensions (s : State) (h : Nat) (f : Graph → Graph) : (s.updGraph h f).extensions = s.extensions := rfl
@[simp] theorem State.updGraph_catchUp (s : State) (h : Nat) (f : Graph → Graph) : (s.updGraph h f).catchUp = s.catchUp := rfl
@[simp] theorem State.updGraph_aligned (s : State) (h : Nat) (f : Graph → Graph) : (s.updGraph h f).aligned = s.aligned := rfl
@[simp] theorem State.updGraph_ovcnt (s : State) (h : Nat) (f : Graph → Graph) : (s.updGraph h f).ovcnt = s.ovcnt := rfl
@[simp] theorem State.updGraph_ovlast (s : State) (h : Nat) (f : Graph → Graph) : (s.updGraph h f).ovlast = s.ovlast := rfl
@[simp] theorem State.updGraph_calendar (s : State) (h : Nat) (f : Graph → Graph) : (s.updGraph h f).calendar = s.calendar := rfl
@[simp] theorem State.updGraph_windows (s : State) (h : Nat) (f : Graph → Graph) : (s.updGraph h f).windows = s.windows := rfl
@[simp] theorem State.updGraph_lasting (s : State) (h : Nat) (f : Graph → Graph) : (s.updGraph h f).lasting = s.lasting := rfl
@[simp] theorem State.updGraph_lastWindow (s : State) (h : Nat) (f : Graph → Graph) : (s.updGraph h f).lastWindow = s.lastWindow := rfl
@[simp] theorem State.updGraph_windowAt (s : State) (h : Nat) (f : Graph → Graph) : (s.updGraph h f).windowAt = s.windowAt := rfl
@[simp] theorem State.updGraph_card (s : State) (h : Nat) (f : Graph → Graph) : (s.updGraph h f).card = s.card := rfl
@[simp] theorem State.updGraph_leader (s : State) (h : Nat) (f : Graph → Graph) : (s.updGraph h f).leader = s.leader := rfl
@[simp] theorem State.updGraph_leaderStopped (s : State) (h : Nat) (f : Graph → Graph) : (s.updGraph h f).leaderStopped = s.leaderStopped := rfl

/-! `State.draw` counts one open value. -/

@[simp] theorem State.draw_psc (s : State) : s.draw.2.psc = s.psc := rfl
@[simp] theorem State.draw_focusTile (s : State) : s.draw.2.focusTile = s.focusTile := rfl
@[simp] theorem State.draw_focusEng (s : State) : s.draw.2.focusEng = s.focusEng := rfl
@[simp] theorem State.draw_agenda (s : State) : s.draw.2.agenda = s.agenda := rfl
@[simp] theorem State.draw_fresh (s : State) : s.draw.2.fresh = s.fresh := rfl
@[simp] theorem State.draw_cores (s : State) : s.draw.2.cores = s.cores := rfl
@[simp] theorem State.draw_dies (s : State) : s.draw.2.dies = s.dies := rfl
@[simp] theorem State.draw_mem (s : State) : s.draw.2.mem = s.mem := rfl
@[simp] theorem State.draw_pending (s : State) : s.draw.2.pending = s.pending := rfl
@[simp] theorem State.draw_past (s : State) : s.draw.2.past = s.past := rfl
@[simp] theorem State.draw_writes (s : State) : s.draw.2.writes = s.writes := rfl
@[simp] theorem State.draw_applied (s : State) : s.draw.2.applied = s.applied := rfl
@[simp] theorem State.draw_tags (s : State) : s.draw.2.tags = s.tags := rfl
@[simp] theorem State.draw_seals (s : State) : s.draw.2.seals = s.seals := rfl
@[simp] theorem State.draw_keys (s : State) : s.draw.2.keys = s.keys := rfl
@[simp] theorem State.draw_sram (s : State) : s.draw.2.sram = s.sram := rfl
@[simp] theorem State.draw_holds (s : State) : s.draw.2.holds = s.holds := rfl
@[simp] theorem State.draw_scrub (s : State) : s.draw.2.scrub = s.scrub := rfl
@[simp] theorem State.draw_pairs (s : State) : s.draw.2.pairs = s.pairs := rfl
@[simp] theorem State.draw_jobs (s : State) : s.draw.2.jobs = s.jobs := rfl
@[simp] theorem State.draw_queues (s : State) : s.draw.2.queues = s.queues := rfl
@[simp] theorem State.draw_launches (s : State) : s.draw.2.launches = s.launches := rfl
@[simp] theorem State.draw_graphs (s : State) : s.draw.2.graphs = s.graphs := rfl
@[simp] theorem State.draw_copies (s : State) : s.draw.2.copies = s.copies := rfl
@[simp] theorem State.draw_rounds (s : State) : s.draw.2.rounds = s.rounds := rfl
@[simp] theorem State.draw_turns (s : State) : s.draw.2.turns = s.turns := rfl
@[simp] theorem State.draw_served (s : State) : s.draw.2.served = s.served := rfl
@[simp] theorem State.draw_slot (s : State) : s.draw.2.slot = s.slot := rfl
@[simp] theorem State.draw_extensions (s : State) : s.draw.2.extensions = s.extensions := rfl
@[simp] theorem State.draw_catchUp (s : State) : s.draw.2.catchUp = s.catchUp := rfl
@[simp] theorem State.draw_aligned (s : State) : s.draw.2.aligned = s.aligned := rfl
@[simp] theorem State.draw_ovcnt (s : State) : s.draw.2.ovcnt = s.ovcnt := rfl
@[simp] theorem State.draw_ovlast (s : State) : s.draw.2.ovlast = s.ovlast := rfl
@[simp] theorem State.draw_calendar (s : State) : s.draw.2.calendar = s.calendar := rfl
@[simp] theorem State.draw_windows (s : State) : s.draw.2.windows = s.windows := rfl
@[simp] theorem State.draw_lasting (s : State) : s.draw.2.lasting = s.lasting := rfl
@[simp] theorem State.draw_lastWindow (s : State) : s.draw.2.lastWindow = s.lastWindow := rfl
@[simp] theorem State.draw_windowAt (s : State) : s.draw.2.windowAt = s.windowAt := rfl
@[simp] theorem State.draw_card (s : State) : s.draw.2.card = s.card := rfl
@[simp] theorem State.draw_leader (s : State) : s.draw.2.leader = s.leader := rfl
@[simp] theorem State.draw_leaderStopped (s : State) : s.draw.2.leaderStopped = s.leaderStopped := rfl

/-! Reading after an update. -/

@[simp] theorem State.core_setCore (s : State) (t u : Core) (k : TileCore) :
    (s.setCore t k).core u = if u = t then k else s.core u := by
  show (s.cores.set t.val k t.isLt)[u.val] = if u = t then k else s.cores[u.val]
  rw [Vector.getElem_set]
  simp only [Fin.ext_iff, eq_comm]

@[simp] theorem State.core_updCore (s : State) (t u : Core) (f : TileCore → TileCore) :
    (s.updCore t f).core u = if u = t then f (s.core t) else s.core u := by
  simp only [State.updCore, State.core_setCore]

@[simp] theorem State.strand_setStrand (s : State) (t u : Core) (st : Strand) :
    (s.setStrand t st).strand u = if u = t then some st else s.strand u := by
  simp only [State.strand, State.setStrand, State.core_updCore]
  split <;> rfl

@[simp] theorem State.strand_updStrand (s : State) (t u : Core) (f : Strand → Strand) :
    (s.updStrand t f).strand u = if u = t then (s.strand t).map f else s.strand u := by
  simp only [State.strand, State.updStrand, State.core_updCore]
  split <;> rfl

@[simp] theorem State.spad_setStrand (s : State) (t u : Core) (st : Strand) :
    ((s.setStrand t st).core u).spad = (s.core u).spad := by
  simp only [State.setStrand, State.core_updCore]
  split <;> simp_all

@[simp] theorem State.spad_updStrand (s : State) (t u : Core) (f : Strand → Strand) :
    ((s.updStrand t f).core u).spad = (s.core u).spad := by
  simp only [State.updStrand, State.core_updCore]
  split <;> simp_all

@[simp] theorem State.die_setDie (s : State) (d e : Fin 4) (k : Die) :
    (s.setDie d k).die e = if e = d then k else s.die e := by
  show (s.dies.set d.val k d.isLt)[e.val] = if e = d then k else s.dies[e.val]
  rw [Vector.getElem_set]
  simp only [Fin.ext_iff, eq_comm]

@[simp] theorem State.die_updDie (s : State) (d e : Fin 4) (f : Die → Die) :
    (s.updDie d f).die e = if e = d then f (s.die d) else s.die e := by
  simp only [State.updDie, State.die_setDie]

@[simp] theorem State.core_allCores (s : State) (f : TileCore → TileCore) (t : Core) :
    (s.allCores f).core t = f (s.core t) := by
  show (tab 192 fun i => f (if h : i < 192 then s.cores.get ⟨i, h⟩ else {}))[t.val] = f (s.cores.get t)
  simp [tab, t.isLt]


/-! `Strand.setEng` and `Strand.updEng` change one engine only. -/

@[simp] theorem Strand.eng_setEng (st : Strand) (e e' : Eng) (g : Engine) :
    (st.setEng e g).eng e' = if e' = e then g else st.eng e' := by
  cases e <;> cases e' <;> rfl

@[simp] theorem Strand.eng_updEng (st : Strand) (e e' : Eng) (f : Engine → Engine) :
    (st.updEng e f).eng e' = if e' = e then f (st.eng e) else st.eng e' := by
  simp only [Strand.updEng, Strand.eng_setEng]

@[simp] theorem Strand.setEng_index (st : Strand) (e : Eng) (g : Engine) : (st.setEng e g).index = st.index := by cases e <;> rfl
@[simp] theorem Strand.setEng_job (st : Strand) (e : Eng) (g : Engine) : (st.setEng e g).job = st.job := by cases e <;> rfl
@[simp] theorem Strand.setEng_handle (st : Strand) (e : Eng) (g : Engine) : (st.setEng e g).handle = st.handle := by cases e <;> rfl
@[simp] theorem Strand.setEng_launch (st : Strand) (e : Eng) (g : Engine) : (st.setEng e g).launch = st.launch := by cases e <;> rfl
@[simp] theorem Strand.setEng_phase (st : Strand) (e : Eng) (g : Engine) : (st.setEng e g).phase = st.phase := by cases e <;> rfl
@[simp] theorem Strand.setEng_argbase (st : Strand) (e : Eng) (g : Engine) : (st.setEng e g).argbase = st.argbase := by cases e <;> rfl
@[simp] theorem Strand.setEng_cls (st : Strand) (e : Eng) (g : Engine) : (st.setEng e g).cls = st.cls := by cases e <;> rfl
@[simp] theorem Strand.setEng_gang (st : Strand) (e : Eng) (g : Engine) : (st.setEng e g).gang = st.gang := by cases e <;> rfl
@[simp] theorem Strand.setEng_det (st : Strand) (e : Eng) (g : Engine) : (st.setEng e g).det = st.det := by cases e <;> rfl
@[simp] theorem Strand.setEng_ovr (st : Strand) (e : Eng) (g : Engine) : (st.setEng e g).ovr = st.ovr := by cases e <;> rfl
@[simp] theorem Strand.setEng_resumed (st : Strand) (e : Eng) (g : Engine) : (st.setEng e g).resumed = st.resumed := by cases e <;> rfl
@[simp] theorem Strand.setEng_textBase (st : Strand) (e : Eng) (g : Engine) : (st.setEng e g).textBase = st.textBase := by cases e <;> rfl
@[simp] theorem Strand.setEng_textLen (st : Strand) (e : Eng) (g : Engine) : (st.setEng e g).textLen = st.textLen := by cases e <;> rfl
@[simp] theorem Strand.setEng_regs (st : Strand) (e : Eng) (g : Engine) : (st.setEng e g).regs = st.regs := by cases e <;> rfl
@[simp] theorem Strand.setEng_win (st : Strand) (e : Eng) (g : Engine) : (st.setEng e g).win = st.win := by cases e <;> rfl
@[simp] theorem Strand.setEng_spdist (st : Strand) (e : Eng) (g : Engine) : (st.setEng e g).spdist = st.spdist := by cases e <;> rfl
@[simp] theorem Strand.setEng_splim (st : Strand) (e : Eng) (g : Engine) : (st.setEng e g).splim = st.splim := by cases e <;> rfl
@[simp] theorem Strand.setEng_tiles (st : Strand) (e : Eng) (g : Engine) : (st.setEng e g).tiles = st.tiles := by cases e <;> rfl
@[simp] theorem Strand.setEng_pred (st : Strand) (e : Eng) (g : Engine) : (st.setEng e g).pred = st.pred := by cases e <;> rfl
@[simp] theorem Strand.setEng_sat (st : Strand) (e : Eng) (g : Engine) : (st.setEng e g).sat = st.sat := by cases e <;> rfl
@[simp] theorem Strand.setEng_nan (st : Strand) (e : Eng) (g : Engine) : (st.setEng e g).nan = st.nan := by cases e <;> rfl
@[simp] theorem Strand.setEng_fmt (st : Strand) (e : Eng) (g : Engine) : (st.setEng e g).fmt = st.fmt := by cases e <;> rfl
@[simp] theorem Strand.setEng_accs (st : Strand) (e : Eng) (g : Engine) : (st.setEng e g).accs = st.accs := by cases e <;> rfl
@[simp] theorem Strand.setEng_wins (st : Strand) (e : Eng) (g : Engine) : (st.setEng e g).wins = st.wins := by cases e <;> rfl
@[simp] theorem Strand.setEng_ledger (st : Strand) (e : Eng) (g : Engine) : (st.setEng e g).ledger = st.ledger := by cases e <;> rfl
@[simp] theorem Strand.setEng_swrs (st : Strand) (e : Eng) (g : Engine) : (st.setEng e g).swrs = st.swrs := by cases e <;> rfl
@[simp] theorem Strand.setEng_addrs (st : Strand) (e : Eng) (g : Engine) : (st.setEng e g).addrs = st.addrs := by cases e <;> rfl
@[simp] theorem Strand.setEng_shapes (st : Strand) (e : Eng) (g : Engine) : (st.setEng e g).shapes = st.shapes := by cases e <;> rfl
@[simp] theorem Strand.setEng_xregs (st : Strand) (e : Eng) (g : Engine) : (st.setEng e g).xregs = st.xregs := by cases e <;> rfl
@[simp] theorem Strand.setEng_c2a (st : Strand) (e : Eng) (g : Engine) : (st.setEng e g).c2a = st.c2a := by cases e <;> rfl
@[simp] theorem Strand.setEng_c2v (st : Strand) (e : Eng) (g : Engine) : (st.setEng e g).c2v = st.c2v := by cases e <;> rfl
@[simp] theorem Strand.setEng_c2m (st : Strand) (e : Eng) (g : Engine) : (st.setEng e g).c2m = st.c2m := by cases e <;> rfl
@[simp] theorem Strand.setEng_c2x (st : Strand) (e : Eng) (g : Engine) : (st.setEng e g).c2x = st.c2x := by cases e <;> rfl
@[simp] theorem Strand.setEng_a2c (st : Strand) (e : Eng) (g : Engine) : (st.setEng e g).a2c = st.a2c := by cases e <;> rfl
@[simp] theorem Strand.setEng_v2c (st : Strand) (e : Eng) (g : Engine) : (st.setEng e g).v2c = st.v2c := by cases e <;> rfl
@[simp] theorem Strand.setEng_x2c (st : Strand) (e : Eng) (g : Engine) : (st.setEng e g).x2c = st.x2c := by cases e <;> rfl
@[simp] theorem Strand.setEng_a2v (st : Strand) (e : Eng) (g : Engine) : (st.setEng e g).a2v = st.a2v := by cases e <;> rfl
@[simp] theorem Strand.setEng_v2a (st : Strand) (e : Eng) (g : Engine) : (st.setEng e g).v2a = st.v2a := by cases e <;> rfl
@[simp] theorem Strand.setEng_m2v (st : Strand) (e : Eng) (g : Engine) : (st.setEng e g).m2v = st.m2v := by cases e <;> rfl
@[simp] theorem Strand.setEng_sems (st : Strand) (e : Eng) (g : Engine) : (st.setEng e g).sems = st.sems := by cases e <;> rfl
@[simp] theorem Strand.setEng_semViews (st : Strand) (e : Eng) (g : Engine) : (st.setEng e g).semViews = st.semViews := by cases e <;> rfl
@[simp] theorem Strand.setEng_winViews (st : Strand) (e : Eng) (g : Engine) : (st.setEng e g).winViews = st.winViews := by cases e <;> rfl
@[simp] theorem Strand.setEng_slots (st : Strand) (e : Eng) (g : Engine) : (st.setEng e g).slots = st.slots := by cases e <;> rfl
@[simp] theorem Strand.setEng_tickets (st : Strand) (e : Eng) (g : Engine) : (st.setEng e g).tickets = st.tickets := by cases e <;> rfl
@[simp] theorem Strand.setEng_statuses (st : Strand) (e : Eng) (g : Engine) : (st.setEng e g).statuses = st.statuses := by cases e <;> rfl
@[simp] theorem Strand.setEng_cmds (st : Strand) (e : Eng) (g : Engine) : (st.setEng e g).cmds = st.cmds := by cases e <;> rfl
@[simp] theorem Strand.setEng_dead (st : Strand) (e : Eng) (g : Engine) : (st.setEng e g).dead = st.dead := by cases e <;> rfl
@[simp] theorem Strand.setEng_asyncs (st : Strand) (e : Eng) (g : Engine) : (st.setEng e g).asyncs = st.asyncs := by cases e <;> rfl
@[simp] theorem Strand.setEng_records (st : Strand) (e : Eng) (g : Engine) : (st.setEng e g).records = st.records := by cases e <;> rfl
@[simp] theorem Strand.setEng_deltas (st : Strand) (e : Eng) (g : Engine) : (st.setEng e g).deltas = st.deltas := by cases e <;> rfl
@[simp] theorem Strand.setEng_gangCount (st : Strand) (e : Eng) (g : Engine) : (st.setEng e g).gangCount = st.gangCount := by cases e <;> rfl
@[simp] theorem Strand.setEng_stop (st : Strand) (e : Eng) (g : Engine) : (st.setEng e g).stop = st.stop := by cases e <;> rfl
@[simp] theorem Strand.setEng_rebuild (st : Strand) (e : Eng) (g : Engine) : (st.setEng e g).rebuild = st.rebuild := by cases e <;> rfl
@[simp] theorem Strand.setEng_halted (st : Strand) (e : Eng) (g : Engine) : (st.setEng e g).halted = st.halted := by cases e <;> rfl
@[simp] theorem Strand.setEng_halting (st : Strand) (e : Eng) (g : Engine) : (st.setEng e g).halting = st.halting := by cases e <;> rfl
@[simp] theorem Strand.setEng_dead54 (st : Strand) (e : Eng) (g : Engine) : (st.setEng e g).dead54 = st.dead54 := by cases e <;> rfl
@[simp] theorem Strand.setEng_deadAt (st : Strand) (e : Eng) (g : Engine) : (st.setEng e g).deadAt = st.deadAt := by cases e <;> rfl
@[simp] theorem Strand.setEng_faults (st : Strand) (e : Eng) (g : Engine) : (st.setEng e g).faults = st.faults := by cases e <;> rfl
@[simp] theorem Strand.setEng_aborted (st : Strand) (e : Eng) (g : Engine) : (st.setEng e g).aborted = st.aborted := by cases e <;> rfl
@[simp] theorem Strand.setEng_perf (st : Strand) (e : Eng) (g : Engine) : (st.setEng e g).perf = st.perf := by cases e <;> rfl
@[simp] theorem Strand.setEng_splits (st : Strand) (e : Eng) (g : Engine) : (st.setEng e g).splits = st.splits := by cases e <;> rfl
@[simp] theorem Strand.setEng_lastTick (st : Strand) (e : Eng) (g : Engine) : (st.setEng e g).lastTick = st.lastTick := by cases e <;> rfl
@[simp] theorem Strand.setEng_seq (st : Strand) (e : Eng) (g : Engine) : (st.setEng e g).seq = st.seq := by cases e <;> rfl
@[simp] theorem Strand.setEng_decoded (st : Strand) (e : Eng) (g : Engine) : (st.setEng e g).decoded = st.decoded := by cases e <;> rfl
@[simp] theorem Strand.setEng_points (st : Strand) (e : Eng) (g : Engine) : (st.setEng e g).points = st.points := by cases e <;> rfl
@[simp] theorem Strand.updEng_index (st : Strand) (e : Eng) (f : Engine → Engine) : (st.updEng e f).index = st.index := by cases e <;> rfl
@[simp] theorem Strand.updEng_job (st : Strand) (e : Eng) (f : Engine → Engine) : (st.updEng e f).job = st.job := by cases e <;> rfl
@[simp] theorem Strand.updEng_handle (st : Strand) (e : Eng) (f : Engine → Engine) : (st.updEng e f).handle = st.handle := by cases e <;> rfl
@[simp] theorem Strand.updEng_launch (st : Strand) (e : Eng) (f : Engine → Engine) : (st.updEng e f).launch = st.launch := by cases e <;> rfl
@[simp] theorem Strand.updEng_phase (st : Strand) (e : Eng) (f : Engine → Engine) : (st.updEng e f).phase = st.phase := by cases e <;> rfl
@[simp] theorem Strand.updEng_argbase (st : Strand) (e : Eng) (f : Engine → Engine) : (st.updEng e f).argbase = st.argbase := by cases e <;> rfl
@[simp] theorem Strand.updEng_cls (st : Strand) (e : Eng) (f : Engine → Engine) : (st.updEng e f).cls = st.cls := by cases e <;> rfl
@[simp] theorem Strand.updEng_gang (st : Strand) (e : Eng) (f : Engine → Engine) : (st.updEng e f).gang = st.gang := by cases e <;> rfl
@[simp] theorem Strand.updEng_det (st : Strand) (e : Eng) (f : Engine → Engine) : (st.updEng e f).det = st.det := by cases e <;> rfl
@[simp] theorem Strand.updEng_ovr (st : Strand) (e : Eng) (f : Engine → Engine) : (st.updEng e f).ovr = st.ovr := by cases e <;> rfl
@[simp] theorem Strand.updEng_resumed (st : Strand) (e : Eng) (f : Engine → Engine) : (st.updEng e f).resumed = st.resumed := by cases e <;> rfl
@[simp] theorem Strand.updEng_textBase (st : Strand) (e : Eng) (f : Engine → Engine) : (st.updEng e f).textBase = st.textBase := by cases e <;> rfl
@[simp] theorem Strand.updEng_textLen (st : Strand) (e : Eng) (f : Engine → Engine) : (st.updEng e f).textLen = st.textLen := by cases e <;> rfl
@[simp] theorem Strand.updEng_regs (st : Strand) (e : Eng) (f : Engine → Engine) : (st.updEng e f).regs = st.regs := by cases e <;> rfl
@[simp] theorem Strand.updEng_win (st : Strand) (e : Eng) (f : Engine → Engine) : (st.updEng e f).win = st.win := by cases e <;> rfl
@[simp] theorem Strand.updEng_spdist (st : Strand) (e : Eng) (f : Engine → Engine) : (st.updEng e f).spdist = st.spdist := by cases e <;> rfl
@[simp] theorem Strand.updEng_splim (st : Strand) (e : Eng) (f : Engine → Engine) : (st.updEng e f).splim = st.splim := by cases e <;> rfl
@[simp] theorem Strand.updEng_tiles (st : Strand) (e : Eng) (f : Engine → Engine) : (st.updEng e f).tiles = st.tiles := by cases e <;> rfl
@[simp] theorem Strand.updEng_pred (st : Strand) (e : Eng) (f : Engine → Engine) : (st.updEng e f).pred = st.pred := by cases e <;> rfl
@[simp] theorem Strand.updEng_sat (st : Strand) (e : Eng) (f : Engine → Engine) : (st.updEng e f).sat = st.sat := by cases e <;> rfl
@[simp] theorem Strand.updEng_nan (st : Strand) (e : Eng) (f : Engine → Engine) : (st.updEng e f).nan = st.nan := by cases e <;> rfl
@[simp] theorem Strand.updEng_fmt (st : Strand) (e : Eng) (f : Engine → Engine) : (st.updEng e f).fmt = st.fmt := by cases e <;> rfl
@[simp] theorem Strand.updEng_accs (st : Strand) (e : Eng) (f : Engine → Engine) : (st.updEng e f).accs = st.accs := by cases e <;> rfl
@[simp] theorem Strand.updEng_wins (st : Strand) (e : Eng) (f : Engine → Engine) : (st.updEng e f).wins = st.wins := by cases e <;> rfl
@[simp] theorem Strand.updEng_ledger (st : Strand) (e : Eng) (f : Engine → Engine) : (st.updEng e f).ledger = st.ledger := by cases e <;> rfl
@[simp] theorem Strand.updEng_swrs (st : Strand) (e : Eng) (f : Engine → Engine) : (st.updEng e f).swrs = st.swrs := by cases e <;> rfl
@[simp] theorem Strand.updEng_addrs (st : Strand) (e : Eng) (f : Engine → Engine) : (st.updEng e f).addrs = st.addrs := by cases e <;> rfl
@[simp] theorem Strand.updEng_shapes (st : Strand) (e : Eng) (f : Engine → Engine) : (st.updEng e f).shapes = st.shapes := by cases e <;> rfl
@[simp] theorem Strand.updEng_xregs (st : Strand) (e : Eng) (f : Engine → Engine) : (st.updEng e f).xregs = st.xregs := by cases e <;> rfl
@[simp] theorem Strand.updEng_c2a (st : Strand) (e : Eng) (f : Engine → Engine) : (st.updEng e f).c2a = st.c2a := by cases e <;> rfl
@[simp] theorem Strand.updEng_c2v (st : Strand) (e : Eng) (f : Engine → Engine) : (st.updEng e f).c2v = st.c2v := by cases e <;> rfl
@[simp] theorem Strand.updEng_c2m (st : Strand) (e : Eng) (f : Engine → Engine) : (st.updEng e f).c2m = st.c2m := by cases e <;> rfl
@[simp] theorem Strand.updEng_c2x (st : Strand) (e : Eng) (f : Engine → Engine) : (st.updEng e f).c2x = st.c2x := by cases e <;> rfl
@[simp] theorem Strand.updEng_a2c (st : Strand) (e : Eng) (f : Engine → Engine) : (st.updEng e f).a2c = st.a2c := by cases e <;> rfl
@[simp] theorem Strand.updEng_v2c (st : Strand) (e : Eng) (f : Engine → Engine) : (st.updEng e f).v2c = st.v2c := by cases e <;> rfl
@[simp] theorem Strand.updEng_x2c (st : Strand) (e : Eng) (f : Engine → Engine) : (st.updEng e f).x2c = st.x2c := by cases e <;> rfl
@[simp] theorem Strand.updEng_a2v (st : Strand) (e : Eng) (f : Engine → Engine) : (st.updEng e f).a2v = st.a2v := by cases e <;> rfl
@[simp] theorem Strand.updEng_v2a (st : Strand) (e : Eng) (f : Engine → Engine) : (st.updEng e f).v2a = st.v2a := by cases e <;> rfl
@[simp] theorem Strand.updEng_m2v (st : Strand) (e : Eng) (f : Engine → Engine) : (st.updEng e f).m2v = st.m2v := by cases e <;> rfl
@[simp] theorem Strand.updEng_sems (st : Strand) (e : Eng) (f : Engine → Engine) : (st.updEng e f).sems = st.sems := by cases e <;> rfl
@[simp] theorem Strand.updEng_semViews (st : Strand) (e : Eng) (f : Engine → Engine) : (st.updEng e f).semViews = st.semViews := by cases e <;> rfl
@[simp] theorem Strand.updEng_winViews (st : Strand) (e : Eng) (f : Engine → Engine) : (st.updEng e f).winViews = st.winViews := by cases e <;> rfl
@[simp] theorem Strand.updEng_slots (st : Strand) (e : Eng) (f : Engine → Engine) : (st.updEng e f).slots = st.slots := by cases e <;> rfl
@[simp] theorem Strand.updEng_tickets (st : Strand) (e : Eng) (f : Engine → Engine) : (st.updEng e f).tickets = st.tickets := by cases e <;> rfl
@[simp] theorem Strand.updEng_statuses (st : Strand) (e : Eng) (f : Engine → Engine) : (st.updEng e f).statuses = st.statuses := by cases e <;> rfl
@[simp] theorem Strand.updEng_cmds (st : Strand) (e : Eng) (f : Engine → Engine) : (st.updEng e f).cmds = st.cmds := by cases e <;> rfl
@[simp] theorem Strand.updEng_dead (st : Strand) (e : Eng) (f : Engine → Engine) : (st.updEng e f).dead = st.dead := by cases e <;> rfl
@[simp] theorem Strand.updEng_asyncs (st : Strand) (e : Eng) (f : Engine → Engine) : (st.updEng e f).asyncs = st.asyncs := by cases e <;> rfl
@[simp] theorem Strand.updEng_records (st : Strand) (e : Eng) (f : Engine → Engine) : (st.updEng e f).records = st.records := by cases e <;> rfl
@[simp] theorem Strand.updEng_deltas (st : Strand) (e : Eng) (f : Engine → Engine) : (st.updEng e f).deltas = st.deltas := by cases e <;> rfl
@[simp] theorem Strand.updEng_gangCount (st : Strand) (e : Eng) (f : Engine → Engine) : (st.updEng e f).gangCount = st.gangCount := by cases e <;> rfl
@[simp] theorem Strand.updEng_stop (st : Strand) (e : Eng) (f : Engine → Engine) : (st.updEng e f).stop = st.stop := by cases e <;> rfl
@[simp] theorem Strand.updEng_rebuild (st : Strand) (e : Eng) (f : Engine → Engine) : (st.updEng e f).rebuild = st.rebuild := by cases e <;> rfl
@[simp] theorem Strand.updEng_halted (st : Strand) (e : Eng) (f : Engine → Engine) : (st.updEng e f).halted = st.halted := by cases e <;> rfl
@[simp] theorem Strand.updEng_halting (st : Strand) (e : Eng) (f : Engine → Engine) : (st.updEng e f).halting = st.halting := by cases e <;> rfl
@[simp] theorem Strand.updEng_dead54 (st : Strand) (e : Eng) (f : Engine → Engine) : (st.updEng e f).dead54 = st.dead54 := by cases e <;> rfl
@[simp] theorem Strand.updEng_deadAt (st : Strand) (e : Eng) (f : Engine → Engine) : (st.updEng e f).deadAt = st.deadAt := by cases e <;> rfl
@[simp] theorem Strand.updEng_faults (st : Strand) (e : Eng) (f : Engine → Engine) : (st.updEng e f).faults = st.faults := by cases e <;> rfl
@[simp] theorem Strand.updEng_aborted (st : Strand) (e : Eng) (f : Engine → Engine) : (st.updEng e f).aborted = st.aborted := by cases e <;> rfl
@[simp] theorem Strand.updEng_perf (st : Strand) (e : Eng) (f : Engine → Engine) : (st.updEng e f).perf = st.perf := by cases e <;> rfl
@[simp] theorem Strand.updEng_splits (st : Strand) (e : Eng) (f : Engine → Engine) : (st.updEng e f).splits = st.splits := by cases e <;> rfl
@[simp] theorem Strand.updEng_lastTick (st : Strand) (e : Eng) (f : Engine → Engine) : (st.updEng e f).lastTick = st.lastTick := by cases e <;> rfl
@[simp] theorem Strand.updEng_seq (st : Strand) (e : Eng) (f : Engine → Engine) : (st.updEng e f).seq = st.seq := by cases e <;> rfl
@[simp] theorem Strand.updEng_decoded (st : Strand) (e : Eng) (f : Engine → Engine) : (st.updEng e f).decoded = st.decoded := by cases e <;> rfl
@[simp] theorem Strand.updEng_points (st : Strand) (e : Eng) (f : Engine → Engine) : (st.updEng e f).points = st.points := by cases e <;> rfl

/-! `Strand.allEngs` changes the engines only. -/

@[simp] theorem Strand.eng_allEngs (st : Strand) (f : Engine → Engine) (e : Eng) : (st.allEngs f).eng e = f (st.eng e) := by
  cases e <;> rfl
@[simp] theorem Strand.allEngs_index (st : Strand) (f : Engine → Engine) : (st.allEngs f).index = st.index := rfl
@[simp] theorem Strand.allEngs_job (st : Strand) (f : Engine → Engine) : (st.allEngs f).job = st.job := rfl
@[simp] theorem Strand.allEngs_handle (st : Strand) (f : Engine → Engine) : (st.allEngs f).handle = st.handle := rfl
@[simp] theorem Strand.allEngs_launch (st : Strand) (f : Engine → Engine) : (st.allEngs f).launch = st.launch := rfl
@[simp] theorem Strand.allEngs_phase (st : Strand) (f : Engine → Engine) : (st.allEngs f).phase = st.phase := rfl
@[simp] theorem Strand.allEngs_argbase (st : Strand) (f : Engine → Engine) : (st.allEngs f).argbase = st.argbase := rfl
@[simp] theorem Strand.allEngs_cls (st : Strand) (f : Engine → Engine) : (st.allEngs f).cls = st.cls := rfl
@[simp] theorem Strand.allEngs_gang (st : Strand) (f : Engine → Engine) : (st.allEngs f).gang = st.gang := rfl
@[simp] theorem Strand.allEngs_det (st : Strand) (f : Engine → Engine) : (st.allEngs f).det = st.det := rfl
@[simp] theorem Strand.allEngs_ovr (st : Strand) (f : Engine → Engine) : (st.allEngs f).ovr = st.ovr := rfl
@[simp] theorem Strand.allEngs_resumed (st : Strand) (f : Engine → Engine) : (st.allEngs f).resumed = st.resumed := rfl
@[simp] theorem Strand.allEngs_textBase (st : Strand) (f : Engine → Engine) : (st.allEngs f).textBase = st.textBase := rfl
@[simp] theorem Strand.allEngs_textLen (st : Strand) (f : Engine → Engine) : (st.allEngs f).textLen = st.textLen := rfl
@[simp] theorem Strand.allEngs_regs (st : Strand) (f : Engine → Engine) : (st.allEngs f).regs = st.regs := rfl
@[simp] theorem Strand.allEngs_win (st : Strand) (f : Engine → Engine) : (st.allEngs f).win = st.win := rfl
@[simp] theorem Strand.allEngs_spdist (st : Strand) (f : Engine → Engine) : (st.allEngs f).spdist = st.spdist := rfl
@[simp] theorem Strand.allEngs_splim (st : Strand) (f : Engine → Engine) : (st.allEngs f).splim = st.splim := rfl
@[simp] theorem Strand.allEngs_tiles (st : Strand) (f : Engine → Engine) : (st.allEngs f).tiles = st.tiles := rfl
@[simp] theorem Strand.allEngs_pred (st : Strand) (f : Engine → Engine) : (st.allEngs f).pred = st.pred := rfl
@[simp] theorem Strand.allEngs_sat (st : Strand) (f : Engine → Engine) : (st.allEngs f).sat = st.sat := rfl
@[simp] theorem Strand.allEngs_nan (st : Strand) (f : Engine → Engine) : (st.allEngs f).nan = st.nan := rfl
@[simp] theorem Strand.allEngs_fmt (st : Strand) (f : Engine → Engine) : (st.allEngs f).fmt = st.fmt := rfl
@[simp] theorem Strand.allEngs_accs (st : Strand) (f : Engine → Engine) : (st.allEngs f).accs = st.accs := rfl
@[simp] theorem Strand.allEngs_wins (st : Strand) (f : Engine → Engine) : (st.allEngs f).wins = st.wins := rfl
@[simp] theorem Strand.allEngs_ledger (st : Strand) (f : Engine → Engine) : (st.allEngs f).ledger = st.ledger := rfl
@[simp] theorem Strand.allEngs_swrs (st : Strand) (f : Engine → Engine) : (st.allEngs f).swrs = st.swrs := rfl
@[simp] theorem Strand.allEngs_addrs (st : Strand) (f : Engine → Engine) : (st.allEngs f).addrs = st.addrs := rfl
@[simp] theorem Strand.allEngs_shapes (st : Strand) (f : Engine → Engine) : (st.allEngs f).shapes = st.shapes := rfl
@[simp] theorem Strand.allEngs_xregs (st : Strand) (f : Engine → Engine) : (st.allEngs f).xregs = st.xregs := rfl
@[simp] theorem Strand.allEngs_c2a (st : Strand) (f : Engine → Engine) : (st.allEngs f).c2a = st.c2a := rfl
@[simp] theorem Strand.allEngs_c2v (st : Strand) (f : Engine → Engine) : (st.allEngs f).c2v = st.c2v := rfl
@[simp] theorem Strand.allEngs_c2m (st : Strand) (f : Engine → Engine) : (st.allEngs f).c2m = st.c2m := rfl
@[simp] theorem Strand.allEngs_c2x (st : Strand) (f : Engine → Engine) : (st.allEngs f).c2x = st.c2x := rfl
@[simp] theorem Strand.allEngs_a2c (st : Strand) (f : Engine → Engine) : (st.allEngs f).a2c = st.a2c := rfl
@[simp] theorem Strand.allEngs_v2c (st : Strand) (f : Engine → Engine) : (st.allEngs f).v2c = st.v2c := rfl
@[simp] theorem Strand.allEngs_x2c (st : Strand) (f : Engine → Engine) : (st.allEngs f).x2c = st.x2c := rfl
@[simp] theorem Strand.allEngs_a2v (st : Strand) (f : Engine → Engine) : (st.allEngs f).a2v = st.a2v := rfl
@[simp] theorem Strand.allEngs_v2a (st : Strand) (f : Engine → Engine) : (st.allEngs f).v2a = st.v2a := rfl
@[simp] theorem Strand.allEngs_m2v (st : Strand) (f : Engine → Engine) : (st.allEngs f).m2v = st.m2v := rfl
@[simp] theorem Strand.allEngs_sems (st : Strand) (f : Engine → Engine) : (st.allEngs f).sems = st.sems := rfl
@[simp] theorem Strand.allEngs_semViews (st : Strand) (f : Engine → Engine) : (st.allEngs f).semViews = st.semViews := rfl
@[simp] theorem Strand.allEngs_winViews (st : Strand) (f : Engine → Engine) : (st.allEngs f).winViews = st.winViews := rfl
@[simp] theorem Strand.allEngs_slots (st : Strand) (f : Engine → Engine) : (st.allEngs f).slots = st.slots := rfl
@[simp] theorem Strand.allEngs_tickets (st : Strand) (f : Engine → Engine) : (st.allEngs f).tickets = st.tickets := rfl
@[simp] theorem Strand.allEngs_statuses (st : Strand) (f : Engine → Engine) : (st.allEngs f).statuses = st.statuses := rfl
@[simp] theorem Strand.allEngs_cmds (st : Strand) (f : Engine → Engine) : (st.allEngs f).cmds = st.cmds := rfl
@[simp] theorem Strand.allEngs_dead (st : Strand) (f : Engine → Engine) : (st.allEngs f).dead = st.dead := rfl
@[simp] theorem Strand.allEngs_asyncs (st : Strand) (f : Engine → Engine) : (st.allEngs f).asyncs = st.asyncs := rfl
@[simp] theorem Strand.allEngs_records (st : Strand) (f : Engine → Engine) : (st.allEngs f).records = st.records := rfl
@[simp] theorem Strand.allEngs_deltas (st : Strand) (f : Engine → Engine) : (st.allEngs f).deltas = st.deltas := rfl
@[simp] theorem Strand.allEngs_gangCount (st : Strand) (f : Engine → Engine) : (st.allEngs f).gangCount = st.gangCount := rfl
@[simp] theorem Strand.allEngs_stop (st : Strand) (f : Engine → Engine) : (st.allEngs f).stop = st.stop := rfl
@[simp] theorem Strand.allEngs_rebuild (st : Strand) (f : Engine → Engine) : (st.allEngs f).rebuild = st.rebuild := rfl
@[simp] theorem Strand.allEngs_halted (st : Strand) (f : Engine → Engine) : (st.allEngs f).halted = st.halted := rfl
@[simp] theorem Strand.allEngs_halting (st : Strand) (f : Engine → Engine) : (st.allEngs f).halting = st.halting := rfl
@[simp] theorem Strand.allEngs_dead54 (st : Strand) (f : Engine → Engine) : (st.allEngs f).dead54 = st.dead54 := rfl
@[simp] theorem Strand.allEngs_deadAt (st : Strand) (f : Engine → Engine) : (st.allEngs f).deadAt = st.deadAt := rfl
@[simp] theorem Strand.allEngs_faults (st : Strand) (f : Engine → Engine) : (st.allEngs f).faults = st.faults := rfl
@[simp] theorem Strand.allEngs_aborted (st : Strand) (f : Engine → Engine) : (st.allEngs f).aborted = st.aborted := rfl
@[simp] theorem Strand.allEngs_perf (st : Strand) (f : Engine → Engine) : (st.allEngs f).perf = st.perf := rfl
@[simp] theorem Strand.allEngs_splits (st : Strand) (f : Engine → Engine) : (st.allEngs f).splits = st.splits := rfl
@[simp] theorem Strand.allEngs_lastTick (st : Strand) (f : Engine → Engine) : (st.allEngs f).lastTick = st.lastTick := rfl
@[simp] theorem Strand.allEngs_seq (st : Strand) (f : Engine → Engine) : (st.allEngs f).seq = st.seq := rfl
@[simp] theorem Strand.allEngs_decoded (st : Strand) (f : Engine → Engine) : (st.allEngs f).decoded = st.decoded := rfl
@[simp] theorem Strand.allEngs_points (st : Strand) (f : Engine → Engine) : (st.allEngs f).points = st.points := rfl

/-! `Strand.count` changes `perf` only, `Strand.trimLedger` what engines no longer need only. -/

@[simp] theorem Strand.eng_count (st : Strand) (i : Fin 17) (n : Nat) (e : Eng) : (st.count i n).eng e = st.eng e := by cases e <;> rfl
@[simp] theorem Strand.eng_trimLedger (st : Strand) (e : Eng) : st.trimLedger.eng e = st.eng e := by cases e <;> rfl
@[simp] theorem Strand.count_index (st : Strand) (i : Fin 17) (n : Nat) : (st.count i n).index = st.index := rfl
@[simp] theorem Strand.count_job (st : Strand) (i : Fin 17) (n : Nat) : (st.count i n).job = st.job := rfl
@[simp] theorem Strand.count_handle (st : Strand) (i : Fin 17) (n : Nat) : (st.count i n).handle = st.handle := rfl
@[simp] theorem Strand.count_launch (st : Strand) (i : Fin 17) (n : Nat) : (st.count i n).launch = st.launch := rfl
@[simp] theorem Strand.count_phase (st : Strand) (i : Fin 17) (n : Nat) : (st.count i n).phase = st.phase := rfl
@[simp] theorem Strand.count_argbase (st : Strand) (i : Fin 17) (n : Nat) : (st.count i n).argbase = st.argbase := rfl
@[simp] theorem Strand.count_cls (st : Strand) (i : Fin 17) (n : Nat) : (st.count i n).cls = st.cls := rfl
@[simp] theorem Strand.count_gang (st : Strand) (i : Fin 17) (n : Nat) : (st.count i n).gang = st.gang := rfl
@[simp] theorem Strand.count_det (st : Strand) (i : Fin 17) (n : Nat) : (st.count i n).det = st.det := rfl
@[simp] theorem Strand.count_ovr (st : Strand) (i : Fin 17) (n : Nat) : (st.count i n).ovr = st.ovr := rfl
@[simp] theorem Strand.count_resumed (st : Strand) (i : Fin 17) (n : Nat) : (st.count i n).resumed = st.resumed := rfl
@[simp] theorem Strand.count_textBase (st : Strand) (i : Fin 17) (n : Nat) : (st.count i n).textBase = st.textBase := rfl
@[simp] theorem Strand.count_textLen (st : Strand) (i : Fin 17) (n : Nat) : (st.count i n).textLen = st.textLen := rfl
@[simp] theorem Strand.count_c (st : Strand) (i : Fin 17) (n : Nat) : (st.count i n).c = st.c := rfl
@[simp] theorem Strand.count_a (st : Strand) (i : Fin 17) (n : Nat) : (st.count i n).a = st.a := rfl
@[simp] theorem Strand.count_v (st : Strand) (i : Fin 17) (n : Nat) : (st.count i n).v = st.v := rfl
@[simp] theorem Strand.count_m (st : Strand) (i : Fin 17) (n : Nat) : (st.count i n).m = st.m := rfl
@[simp] theorem Strand.count_x (st : Strand) (i : Fin 17) (n : Nat) : (st.count i n).x = st.x := rfl
@[simp] theorem Strand.count_regs (st : Strand) (i : Fin 17) (n : Nat) : (st.count i n).regs = st.regs := rfl
@[simp] theorem Strand.count_win (st : Strand) (i : Fin 17) (n : Nat) : (st.count i n).win = st.win := rfl
@[simp] theorem Strand.count_spdist (st : Strand) (i : Fin 17) (n : Nat) : (st.count i n).spdist = st.spdist := rfl
@[simp] theorem Strand.count_splim (st : Strand) (i : Fin 17) (n : Nat) : (st.count i n).splim = st.splim := rfl
@[simp] theorem Strand.count_tiles (st : Strand) (i : Fin 17) (n : Nat) : (st.count i n).tiles = st.tiles := rfl
@[simp] theorem Strand.count_pred (st : Strand) (i : Fin 17) (n : Nat) : (st.count i n).pred = st.pred := rfl
@[simp] theorem Strand.count_sat (st : Strand) (i : Fin 17) (n : Nat) : (st.count i n).sat = st.sat := rfl
@[simp] theorem Strand.count_nan (st : Strand) (i : Fin 17) (n : Nat) : (st.count i n).nan = st.nan := rfl
@[simp] theorem Strand.count_fmt (st : Strand) (i : Fin 17) (n : Nat) : (st.count i n).fmt = st.fmt := rfl
@[simp] theorem Strand.count_accs (st : Strand) (i : Fin 17) (n : Nat) : (st.count i n).accs = st.accs := rfl
@[simp] theorem Strand.count_wins (st : Strand) (i : Fin 17) (n : Nat) : (st.count i n).wins = st.wins := rfl
@[simp] theorem Strand.count_ledger (st : Strand) (i : Fin 17) (n : Nat) : (st.count i n).ledger = st.ledger := rfl
@[simp] theorem Strand.count_swrs (st : Strand) (i : Fin 17) (n : Nat) : (st.count i n).swrs = st.swrs := rfl
@[simp] theorem Strand.count_addrs (st : Strand) (i : Fin 17) (n : Nat) : (st.count i n).addrs = st.addrs := rfl
@[simp] theorem Strand.count_shapes (st : Strand) (i : Fin 17) (n : Nat) : (st.count i n).shapes = st.shapes := rfl
@[simp] theorem Strand.count_xregs (st : Strand) (i : Fin 17) (n : Nat) : (st.count i n).xregs = st.xregs := rfl
@[simp] theorem Strand.count_c2a (st : Strand) (i : Fin 17) (n : Nat) : (st.count i n).c2a = st.c2a := rfl
@[simp] theorem Strand.count_c2v (st : Strand) (i : Fin 17) (n : Nat) : (st.count i n).c2v = st.c2v := rfl
@[simp] theorem Strand.count_c2m (st : Strand) (i : Fin 17) (n : Nat) : (st.count i n).c2m = st.c2m := rfl
@[simp] theorem Strand.count_c2x (st : Strand) (i : Fin 17) (n : Nat) : (st.count i n).c2x = st.c2x := rfl
@[simp] theorem Strand.count_a2c (st : Strand) (i : Fin 17) (n : Nat) : (st.count i n).a2c = st.a2c := rfl
@[simp] theorem Strand.count_v2c (st : Strand) (i : Fin 17) (n : Nat) : (st.count i n).v2c = st.v2c := rfl
@[simp] theorem Strand.count_x2c (st : Strand) (i : Fin 17) (n : Nat) : (st.count i n).x2c = st.x2c := rfl
@[simp] theorem Strand.count_a2v (st : Strand) (i : Fin 17) (n : Nat) : (st.count i n).a2v = st.a2v := rfl
@[simp] theorem Strand.count_v2a (st : Strand) (i : Fin 17) (n : Nat) : (st.count i n).v2a = st.v2a := rfl
@[simp] theorem Strand.count_m2v (st : Strand) (i : Fin 17) (n : Nat) : (st.count i n).m2v = st.m2v := rfl
@[simp] theorem Strand.count_sems (st : Strand) (i : Fin 17) (n : Nat) : (st.count i n).sems = st.sems := rfl
@[simp] theorem Strand.count_semViews (st : Strand) (i : Fin 17) (n : Nat) : (st.count i n).semViews = st.semViews := rfl
@[simp] theorem Strand.count_winViews (st : Strand) (i : Fin 17) (n : Nat) : (st.count i n).winViews = st.winViews := rfl
@[simp] theorem Strand.count_slots (st : Strand) (i : Fin 17) (n : Nat) : (st.count i n).slots = st.slots := rfl
@[simp] theorem Strand.count_tickets (st : Strand) (i : Fin 17) (n : Nat) : (st.count i n).tickets = st.tickets := rfl
@[simp] theorem Strand.count_statuses (st : Strand) (i : Fin 17) (n : Nat) : (st.count i n).statuses = st.statuses := rfl
@[simp] theorem Strand.count_cmds (st : Strand) (i : Fin 17) (n : Nat) : (st.count i n).cmds = st.cmds := rfl
@[simp] theorem Strand.count_dead (st : Strand) (i : Fin 17) (n : Nat) : (st.count i n).dead = st.dead := rfl
@[simp] theorem Strand.count_asyncs (st : Strand) (i : Fin 17) (n : Nat) : (st.count i n).asyncs = st.asyncs := rfl
@[simp] theorem Strand.count_records (st : Strand) (i : Fin 17) (n : Nat) : (st.count i n).records = st.records := rfl
@[simp] theorem Strand.count_deltas (st : Strand) (i : Fin 17) (n : Nat) : (st.count i n).deltas = st.deltas := rfl
@[simp] theorem Strand.count_gangCount (st : Strand) (i : Fin 17) (n : Nat) : (st.count i n).gangCount = st.gangCount := rfl
@[simp] theorem Strand.count_stop (st : Strand) (i : Fin 17) (n : Nat) : (st.count i n).stop = st.stop := rfl
@[simp] theorem Strand.count_rebuild (st : Strand) (i : Fin 17) (n : Nat) : (st.count i n).rebuild = st.rebuild := rfl
@[simp] theorem Strand.count_halted (st : Strand) (i : Fin 17) (n : Nat) : (st.count i n).halted = st.halted := rfl
@[simp] theorem Strand.count_halting (st : Strand) (i : Fin 17) (n : Nat) : (st.count i n).halting = st.halting := rfl
@[simp] theorem Strand.count_dead54 (st : Strand) (i : Fin 17) (n : Nat) : (st.count i n).dead54 = st.dead54 := rfl
@[simp] theorem Strand.count_deadAt (st : Strand) (i : Fin 17) (n : Nat) : (st.count i n).deadAt = st.deadAt := rfl
@[simp] theorem Strand.count_faults (st : Strand) (i : Fin 17) (n : Nat) : (st.count i n).faults = st.faults := rfl
@[simp] theorem Strand.count_aborted (st : Strand) (i : Fin 17) (n : Nat) : (st.count i n).aborted = st.aborted := rfl
@[simp] theorem Strand.count_splits (st : Strand) (i : Fin 17) (n : Nat) : (st.count i n).splits = st.splits := rfl
@[simp] theorem Strand.count_lastTick (st : Strand) (i : Fin 17) (n : Nat) : (st.count i n).lastTick = st.lastTick := rfl
@[simp] theorem Strand.count_seq (st : Strand) (i : Fin 17) (n : Nat) : (st.count i n).seq = st.seq := rfl
@[simp] theorem Strand.count_decoded (st : Strand) (i : Fin 17) (n : Nat) : (st.count i n).decoded = st.decoded := rfl
@[simp] theorem Strand.count_points (st : Strand) (i : Fin 17) (n : Nat) : (st.count i n).points = st.points := rfl
@[simp] theorem Strand.trimLedger_index (st : Strand) : st.trimLedger.index = st.index := rfl
@[simp] theorem Strand.trimLedger_job (st : Strand) : st.trimLedger.job = st.job := rfl
@[simp] theorem Strand.trimLedger_handle (st : Strand) : st.trimLedger.handle = st.handle := rfl
@[simp] theorem Strand.trimLedger_launch (st : Strand) : st.trimLedger.launch = st.launch := rfl
@[simp] theorem Strand.trimLedger_phase (st : Strand) : st.trimLedger.phase = st.phase := rfl
@[simp] theorem Strand.trimLedger_argbase (st : Strand) : st.trimLedger.argbase = st.argbase := rfl
@[simp] theorem Strand.trimLedger_cls (st : Strand) : st.trimLedger.cls = st.cls := rfl
@[simp] theorem Strand.trimLedger_gang (st : Strand) : st.trimLedger.gang = st.gang := rfl
@[simp] theorem Strand.trimLedger_det (st : Strand) : st.trimLedger.det = st.det := rfl
@[simp] theorem Strand.trimLedger_ovr (st : Strand) : st.trimLedger.ovr = st.ovr := rfl
@[simp] theorem Strand.trimLedger_resumed (st : Strand) : st.trimLedger.resumed = st.resumed := rfl
@[simp] theorem Strand.trimLedger_textBase (st : Strand) : st.trimLedger.textBase = st.textBase := rfl
@[simp] theorem Strand.trimLedger_textLen (st : Strand) : st.trimLedger.textLen = st.textLen := rfl
@[simp] theorem Strand.trimLedger_c (st : Strand) : st.trimLedger.c = st.c := rfl
@[simp] theorem Strand.trimLedger_a (st : Strand) : st.trimLedger.a = st.a := rfl
@[simp] theorem Strand.trimLedger_v (st : Strand) : st.trimLedger.v = st.v := rfl
@[simp] theorem Strand.trimLedger_m (st : Strand) : st.trimLedger.m = st.m := rfl
@[simp] theorem Strand.trimLedger_x (st : Strand) : st.trimLedger.x = st.x := rfl
@[simp] theorem Strand.trimLedger_regs (st : Strand) : st.trimLedger.regs = st.regs := rfl
@[simp] theorem Strand.trimLedger_win (st : Strand) : st.trimLedger.win = st.win := rfl
@[simp] theorem Strand.trimLedger_spdist (st : Strand) : st.trimLedger.spdist = st.spdist := rfl
@[simp] theorem Strand.trimLedger_splim (st : Strand) : st.trimLedger.splim = st.splim := rfl
@[simp] theorem Strand.trimLedger_tiles (st : Strand) : st.trimLedger.tiles = st.tiles := rfl
@[simp] theorem Strand.trimLedger_pred (st : Strand) : st.trimLedger.pred = st.pred := rfl
@[simp] theorem Strand.trimLedger_sat (st : Strand) : st.trimLedger.sat = st.sat := rfl
@[simp] theorem Strand.trimLedger_nan (st : Strand) : st.trimLedger.nan = st.nan := rfl
@[simp] theorem Strand.trimLedger_fmt (st : Strand) : st.trimLedger.fmt = st.fmt := rfl
@[simp] theorem Strand.trimLedger_accs (st : Strand) : st.trimLedger.accs = st.accs := rfl
@[simp] theorem Strand.trimLedger_wins (st : Strand) : st.trimLedger.wins = st.wins := rfl
@[simp] theorem Strand.trimLedger_swrs (st : Strand) : st.trimLedger.swrs = st.swrs := rfl
@[simp] theorem Strand.trimLedger_addrs (st : Strand) : st.trimLedger.addrs = st.addrs := rfl
@[simp] theorem Strand.trimLedger_shapes (st : Strand) : st.trimLedger.shapes = st.shapes := rfl
@[simp] theorem Strand.trimLedger_xregs (st : Strand) : st.trimLedger.xregs = st.xregs := rfl
@[simp] theorem Strand.trimLedger_c2a (st : Strand) : st.trimLedger.c2a = st.c2a := rfl
@[simp] theorem Strand.trimLedger_c2v (st : Strand) : st.trimLedger.c2v = st.c2v := rfl
@[simp] theorem Strand.trimLedger_c2m (st : Strand) : st.trimLedger.c2m = st.c2m := rfl
@[simp] theorem Strand.trimLedger_c2x (st : Strand) : st.trimLedger.c2x = st.c2x := rfl
@[simp] theorem Strand.trimLedger_a2c (st : Strand) : st.trimLedger.a2c = st.a2c := rfl
@[simp] theorem Strand.trimLedger_v2c (st : Strand) : st.trimLedger.v2c = st.v2c := rfl
@[simp] theorem Strand.trimLedger_x2c (st : Strand) : st.trimLedger.x2c = st.x2c := rfl
@[simp] theorem Strand.trimLedger_a2v (st : Strand) : st.trimLedger.a2v = st.a2v := rfl
@[simp] theorem Strand.trimLedger_v2a (st : Strand) : st.trimLedger.v2a = st.v2a := rfl
@[simp] theorem Strand.trimLedger_m2v (st : Strand) : st.trimLedger.m2v = st.m2v := rfl
@[simp] theorem Strand.trimLedger_sems (st : Strand) : st.trimLedger.sems = st.sems := rfl
@[simp] theorem Strand.trimLedger_semViews (st : Strand) : st.trimLedger.semViews = st.semViews := rfl
@[simp] theorem Strand.trimLedger_winViews (st : Strand) : st.trimLedger.winViews = st.winViews := rfl
@[simp] theorem Strand.trimLedger_slots (st : Strand) : st.trimLedger.slots = st.slots := rfl
@[simp] theorem Strand.trimLedger_tickets (st : Strand) : st.trimLedger.tickets = st.tickets := rfl
@[simp] theorem Strand.trimLedger_statuses (st : Strand) : st.trimLedger.statuses = st.statuses := rfl
@[simp] theorem Strand.trimLedger_cmds (st : Strand) : st.trimLedger.cmds = st.cmds := rfl
@[simp] theorem Strand.trimLedger_dead (st : Strand) : st.trimLedger.dead = st.dead := rfl
@[simp] theorem Strand.trimLedger_asyncs (st : Strand) : st.trimLedger.asyncs = st.asyncs := rfl
@[simp] theorem Strand.trimLedger_records (st : Strand) : st.trimLedger.records = st.records := rfl
@[simp] theorem Strand.trimLedger_deltas (st : Strand) : st.trimLedger.deltas = st.deltas := rfl
@[simp] theorem Strand.trimLedger_gangCount (st : Strand) : st.trimLedger.gangCount = st.gangCount := rfl
@[simp] theorem Strand.trimLedger_stop (st : Strand) : st.trimLedger.stop = st.stop := rfl
@[simp] theorem Strand.trimLedger_rebuild (st : Strand) : st.trimLedger.rebuild = st.rebuild := rfl
@[simp] theorem Strand.trimLedger_halted (st : Strand) : st.trimLedger.halted = st.halted := rfl
@[simp] theorem Strand.trimLedger_halting (st : Strand) : st.trimLedger.halting = st.halting := rfl
@[simp] theorem Strand.trimLedger_dead54 (st : Strand) : st.trimLedger.dead54 = st.dead54 := rfl
@[simp] theorem Strand.trimLedger_deadAt (st : Strand) : st.trimLedger.deadAt = st.deadAt := rfl
@[simp] theorem Strand.trimLedger_faults (st : Strand) : st.trimLedger.faults = st.faults := rfl
@[simp] theorem Strand.trimLedger_aborted (st : Strand) : st.trimLedger.aborted = st.aborted := rfl
@[simp] theorem Strand.trimLedger_perf (st : Strand) : st.trimLedger.perf = st.perf := rfl
@[simp] theorem Strand.trimLedger_splits (st : Strand) : st.trimLedger.splits = st.splits := rfl
@[simp] theorem Strand.trimLedger_lastTick (st : Strand) : st.trimLedger.lastTick = st.lastTick := rfl
@[simp] theorem Strand.trimLedger_seq (st : Strand) : st.trimLedger.seq = st.seq := rfl

/-! Passing a word and going to a text index change the position of an engine only. -/

@[simp] theorem Engine.pass_ended (g : Engine) (n : Nat) : (g.pass n).ended = g.ended := by
  unfold Engine.pass; dsimp only; (repeat' split) <;> rfl
@[simp] theorem Engine.pass_frames (g : Engine) (n : Nat) : (g.pass n).frames = g.frames := by
  unfold Engine.pass; dsimp only; (repeat' split) <;> rfl
@[simp] theorem Engine.pass_depth (g : Engine) (n : Nat) : (g.pass n).depth = g.depth := by
  unfold Engine.pass; dsimp only; (repeat' split) <;> rfl
@[simp] theorem Engine.pass_outcomes (g : Engine) (n : Nat) : (g.pass n).outcomes = g.outcomes := by
  unfold Engine.pass; dsimp only; (repeat' split) <;> rfl
@[simp] theorem Engine.pass_sbase (g : Engine) (n : Nat) : (g.pass n).sbase = g.sbase := by
  unfold Engine.pass; dsimp only; (repeat' split) <;> rfl
@[simp] theorem Engine.pass_slim (g : Engine) (n : Nat) : (g.pass n).slim = g.slim := by
  unfold Engine.pass; dsimp only; (repeat' split) <;> rfl
@[simp] theorem Engine.pass_slotmode (g : Engine) (n : Nat) : (g.pass n).slotmode = g.slotmode := by
  unfold Engine.pass; dsimp only; (repeat' split) <;> rfl
@[simp] theorem Engine.pass_safes (g : Engine) (n : Nat) : (g.pass n).safes = g.safes := by
  unfold Engine.pass; dsimp only; (repeat' split) <;> rfl
@[simp] theorem Engine.pass_gsafes (g : Engine) (n : Nat) : (g.pass n).gsafes = g.gsafes := by
  unfold Engine.pass; dsimp only; (repeat' split) <;> rfl
@[simp] theorem Engine.pass_holding (g : Engine) (n : Nat) : (g.pass n).holding = g.holding := by
  unfold Engine.pass; dsimp only; (repeat' split) <;> rfl
@[simp] theorem Engine.pass_view (g : Engine) (n : Nat) : (g.pass n).view = g.view := by
  unfold Engine.pass; dsimp only; (repeat' split) <;> rfl
@[simp] theorem Engine.pass_sig (g : Engine) (n : Nat) : (g.pass n).sig = g.sig := by
  unfold Engine.pass; dsimp only; (repeat' split) <;> rfl
@[simp] theorem Engine.goto_ended (g : Engine) (n : Nat) : (g.goto n).ended = g.ended := rfl
@[simp] theorem Engine.goto_frames (g : Engine) (n : Nat) : (g.goto n).frames = g.frames := rfl
@[simp] theorem Engine.goto_depth (g : Engine) (n : Nat) : (g.goto n).depth = g.depth := rfl
@[simp] theorem Engine.goto_outcomes (g : Engine) (n : Nat) : (g.goto n).outcomes = g.outcomes := rfl
@[simp] theorem Engine.goto_sbase (g : Engine) (n : Nat) : (g.goto n).sbase = g.sbase := rfl
@[simp] theorem Engine.goto_slim (g : Engine) (n : Nat) : (g.goto n).slim = g.slim := rfl
@[simp] theorem Engine.goto_slotmode (g : Engine) (n : Nat) : (g.goto n).slotmode = g.slotmode := rfl
@[simp] theorem Engine.goto_rep (g : Engine) (n : Nat) : (g.goto n).rep = g.rep := rfl
@[simp] theorem Engine.goto_safes (g : Engine) (n : Nat) : (g.goto n).safes = g.safes := rfl
@[simp] theorem Engine.goto_gsafes (g : Engine) (n : Nat) : (g.goto n).gsafes = g.gsafes := rfl
@[simp] theorem Engine.goto_holding (g : Engine) (n : Nat) : (g.goto n).holding = g.holding := rfl
@[simp] theorem Engine.goto_view (g : Engine) (n : Nat) : (g.goto n).view = g.view := rfl
@[simp] theorem Engine.goto_sig (g : Engine) (n : Nat) : (g.goto n).sig = g.sig := rfl
@[simp] theorem Engine.goto_woken (g : Engine) (n : Nat) : (g.goto n).woken = g.woken := rfl
@[simp] theorem Engine.goto_sources (g : Engine) (n : Nat) : (g.goto n).sources = g.sources := rfl
@[simp] theorem Engine.pass_wait (g : Engine) (n : Nat) : (g.pass n).wait = none := by
  unfold Engine.pass; dsimp only; (repeat' split) <;> rfl
@[simp] theorem Engine.goto_wait (g : Engine) (n : Nat) : (g.goto n).wait = none := rfl
@[simp] theorem Engine.pass_progress (g : Engine) (n : Nat) : (g.pass n).progress = 0 := by
  unfold Engine.pass; dsimp only; (repeat' split) <;> rfl
@[simp] theorem Engine.goto_progress (g : Engine) (n : Nat) : (g.goto n).progress = 0 := rfl
@[simp] theorem Engine.pass_latch (g : Engine) (n : Nat) : (g.pass n).latch = none := by
  unfold Engine.pass; dsimp only; (repeat' split) <;> rfl
@[simp] theorem Engine.goto_latch (g : Engine) (n : Nat) : (g.goto n).latch = none := rfl
@[simp] theorem Engine.pass_sources (g : Engine) (n : Nat) : (g.pass n).sources = [] := by
  unfold Engine.pass; dsimp only; (repeat' split) <;> rfl
@[simp] theorem Engine.pass_woken (g : Engine) (n : Nat) : (g.pass n).woken = none := by
  unfold Engine.pass; dsimp only; (repeat' split) <;> rfl
@[simp] theorem Engine.goto_pc (g : Engine) (n : Nat) : (g.goto n).pc = n := rfl

end Sys2Proof.Machine
end

