-- ==== Sys2Proof/Laws/Ops.lean ====
section
/-! SUPPORT. What the shared operations answer, said once: the runners of words, waits and faults. -/

namespace Sys2Proof.Machine

/-! A word begun. -/

theorem Strand.updEng_self (st : Strand) (e : Eng) (f : Engine → Engine) (h : f (st.eng e) = st.eng e) : st.updEng e f = st := by
  unfold Strand.updEng
  rw [h]
  cases e <;> rfl

theorem State.setStrand_self {s : State} {t : Core} {st : Strand} (h : s.strand t = some st) : s.setStrand t st = s := by
  have hk : { s.core t with strand := some st } = s.core t := by
    unfold State.strand at h
    rw [← h]
  simp only [State.setStrand, State.updCore, hk, State.setCore]
  have : s.cores.set t.val (s.core t) t.isLt = s.cores := by
    ext i hi
    simp only [Vector.getElem_set]
    split
    · subst_vars; rfl
    · rfl
  rw [this]

/-- A word that waits without having popped or changed anything keeps nothing of itself. -/
@[simp] theorem keepBegun_self (s : State) (t : Core) (e : Eng) : keepBegun s s t e = s := by
  unfold keepBegun
  split
  · rename_i a b ha hb
    rw [ha] at hb
    cases hb
    split
    · rfl
    · rename_i l hl
      have : (a.updEng e fun g => { g with latch := some { l with
          popped := (l.popped.1 ++ a.c2a.take (a.c2a.length - a.c2a.length), l.popped.2.1 ++ a.c2m.take (a.c2m.length - a.c2m.length),
            l.popped.2.2 ++ a.v2a.take (a.v2a.length - a.v2a.length))
          moved := l.moved || !(s.writes == s.writes && a.a2c == a.a2c && a.a2v == a.a2v && a.m2v == a.m2v && s.jobs == s.jobs
            && s.pairs == s.pairs && a.deltas == a.deltas) } }) = a := by
        apply Strand.updEng_self
        simp [← hl]
      dsimp only
      rw [this]
      exact State.setStrand_self ha
  · rfl

/-! The runners: a word of an engine whose strand is ready passes, waits or takes its fault; nothing else happens. -/

theorem runAs_done {s : State} {e : Eng} {rec : BitVec 3} {len : Nat} {f : State → Core → Strand → WordResult} {st : Strand}
    {t : State} (hr : s.ready e len st) (h : f s s.focusTile st = .done t) :
    runAs e rec len f s = .next (passWord t s.focusTile e len) := by
  simp only [runAs, hr.1, hr.2, h, Bool.false_eq_true, if_false]

theorem runAs_stay {s : State} {e : Eng} {rec : BitVec 3} {len : Nat} {f : State → Core → Strand → WordResult} {st : Strand}
    {w : Wait} {t : State} (hr : s.ready e len st) (h : f s s.focusTile st = .stay w t) :
    runAs e rec len f s = .next (setWait (keepBegun s t s.focusTile e) s.focusTile e w) := by
  simp only [runAs, hr.1, hr.2, h, Bool.false_eq_true, if_false]

theorem runAs_trap {s : State} {e : Eng} {rec : BitVec 3} {len : Nat} {f : State → Core → Strand → WordResult} {st : Strand}
    {c : FaultCode} {pr : Precision} {t : State} (hr : s.ready e len st) (h : f s s.focusTile st = .trap c pr t) :
    runAs e rec len f s = .next (wordFault t s.focusTile e rec c pr) := by
  simp only [runAs, hr.1, hr.2, h, Bool.false_eq_true, if_false]

theorem runAs_stalled {s : State} {e : Eng} {rec : BitVec 3} {len : Nat} {f : State → Core → Strand → WordResult}
    {st : Strand} (h : s.strand s.focusTile = some st) (hs : st.slipStalled e len = true) :
    runAs e rec len f s = .next (setWait s s.focusTile e .slip) := by
  simp only [runAs, h, hs, if_true]

theorem runAs_noStrand {s : State} {e : Eng} {rec : BitVec 3} {len : Nat} {f : State → Core → Strand → WordResult}
    (h : s.strand s.focusTile = none) : runAs e rec len f s = .refused .noStrand := by
  simp only [runAs, h]

theorem machineWord_done {s : State} {e : Eng} {len : Nat} {f : State → Core → Strand → WordResult} {st : Strand} {t : State}
    (hr : s.ready e len st) (h : f s s.focusTile st = .done t) :
    machineWord e len f s = .next (passWord t s.focusTile e len) := runAs_done hr h

theorem checkedWord_ok {s : State} {e : Eng} {len : Nat} {f : State → Core → Strand → Except Halt State} {st : Strand}
    {t : State} (hr : s.ready e len st) (h : f s s.focusTile st = .ok t) :
    checkedWord e len f s = .next (passWord t s.focusTile e len) :=
  by unfold checkedWord machineWord; exact runAs_done hr (by rw [h]; rfl)

theorem checkedWord_wait {s : State} {e : Eng} {len : Nat} {f : State → Core → Strand → Except Halt State} {st : Strand}
    {w : Wait} (hr : s.ready e len st) (h : f s s.focusTile st = .error (.wait w)) :
    checkedWord e len f s = .next (setWait s s.focusTile e w) := by
  unfold checkedWord machineWord
  rw [runAs_stay (t := s) (w := w) hr (by rw [h]; rfl), keepBegun_self]

theorem checkedWord_fault {s : State} {e : Eng} {len : Nat} {f : State → Core → Strand → Except Halt State} {st : Strand}
    {c : FaultCode} (hr : s.ready e len st) (h : f s s.focusTile st = .error (.fault c)) :
    checkedWord e len f s = .next (wordFault s s.focusTile e e.tag c .atWord) :=
  by unfold checkedWord machineWord; exact runAs_trap hr (by rw [h]; rfl)

theorem strandWord_ok {s : State} {e : Eng} {len : Nat} {f : Strand → Except Halt Strand} {st st' : Strand}
    (hr : s.ready e len st) (h : f st = .ok st') : strandWord e len f s = .next (s.passedAs e len st') :=
  by unfold strandWord; exact checkedWord_ok hr (by rw [h]; rfl)

theorem strandWord_wait {s : State} {e : Eng} {len : Nat} {f : Strand → Except Halt Strand} {st : Strand} {w : Wait}
    (hr : s.ready e len st) (h : f st = .error (.wait w)) :
    strandWord e len f s = .next (setWait s s.focusTile e w) :=
  by unfold strandWord; exact checkedWord_wait hr (by rw [h]; rfl)

theorem strandWord_fault {s : State} {e : Eng} {len : Nat} {f : Strand → Except Halt Strand} {st : Strand} {c : FaultCode}
    (hr : s.ready e len st) (h : f st = .error (.fault c)) :
    strandWord e len f s = .next (wordFault s s.focusTile e e.tag c .atWord) :=
  by unfold strandWord; exact checkedWord_fault hr (by rw [h]; rfl)

theorem placedWord_ok {s : State} {e : Eng} {rec : BitVec 3} {f : State → Core → Strand → Eng → Except Halt State}
    {st : Strand} {t : State} (hr : s.ready e 1 st) (h : f s s.focusTile st e = .ok t) :
    placedWord e rec f s = .next (t.updStrand s.focusTile fun q => (q.count (engCounter e) 1).trimLedger) := by
  simp only [placedWord, hr.1, hr.2, h, Bool.false_eq_true, if_false]

theorem placedWord_wait {s : State} {e : Eng} {rec : BitVec 3} {f : State → Core → Strand → Eng → Except Halt State}
    {st : Strand} {w : Wait} (hr : s.ready e 1 st) (h : f s s.focusTile st e = .error (.wait w)) :
    placedWord e rec f s = .next (setWait s s.focusTile e w) := by
  simp only [placedWord, hr.1, hr.2, h, Bool.false_eq_true, if_false]

theorem placedWord_fault {s : State} {e : Eng} {rec : BitVec 3} {f : State → Core → Strand → Eng → Except Halt State}
    {st : Strand} {c : FaultCode} (hr : s.ready e 1 st) (h : f s s.focusTile st e = .error (.fault c)) :
    placedWord e rec f s = .next (wordFault s s.focusTile e rec c .atWord) := by
  simp only [placedWord, hr.1, hr.2, h, Bool.false_eq_true, if_false]

/-- Everything a word's runner can answer. -/
theorem runAs_cases (e : Eng) (rec : BitVec 3) (len : Nat) (f : State → Core → Strand → WordResult) (s : State) :
    (s.strand s.focusTile = none ∧ runAs e rec len f s = .refused .noStrand) ∨
    (∃ st, s.strand s.focusTile = some st ∧ st.slipStalled e len = true ∧
      runAs e rec len f s = .next (setWait s s.focusTile e .slip)) ∨
    (∃ st t, s.ready e len st ∧ f s s.focusTile st = .done t ∧ runAs e rec len f s = .next (passWord t s.focusTile e len)) ∨
    (∃ st w t, s.ready e len st ∧ f s s.focusTile st = .stay w t ∧
      runAs e rec len f s = .next (setWait (keepBegun s t s.focusTile e) s.focusTile e w)) ∨
    (∃ st c pr t, s.ready e len st ∧ f s s.focusTile st = .trap c pr t ∧
      runAs e rec len f s = .next (wordFault t s.focusTile e rec c pr)) := by
  cases h : s.strand s.focusTile with
  | none => exact .inl ⟨rfl, runAs_noStrand h⟩
  | some st =>
    cases hs : st.slipStalled e len with
    | true => exact .inr (.inl ⟨st, rfl, hs, runAs_stalled h hs⟩)
    | false =>
      have hr : s.ready e len st := ⟨h, hs⟩
      cases hf : f s s.focusTile st with
      | done t => exact .inr (.inr (.inl ⟨st, t, hr, hf, runAs_done hr hf⟩))
      | stay w t => exact .inr (.inr (.inr (.inl ⟨st, w, t, hr, hf, runAs_stay hr hf⟩)))
      | trap c pr t => exact .inr (.inr (.inr (.inr ⟨st, c, pr, t, hr, hf, runAs_trap hr hf⟩)))

/-! Memory through the shared operations: only stores and poison touch it. -/

@[simp] theorem State.mem_passWord (s : State) (t : Core) (e : Eng) (len : Nat) : (passWord s t e len).mem = s.mem := rfl
@[simp] theorem State.mem_hold (s : State) (w : Holder) (d : Fin 4) (a : Nat) : (s.hold w d a).mem = s.mem := rfl
@[simp] theorem State.cores_hold (s : State) (w : Holder) (d : Fin 4) (a : Nat) : (s.hold w d a).cores = s.cores := rfl
@[simp] theorem State.mem_setWaitOn (b : Bool) (s : State) (t : Core) (e : Eng) (w : Wait) : (setWaitOn b s t e w).mem = s.mem := by
  unfold setWaitOn; cases w <;> simp
@[simp] theorem State.spad_setWaitOn (b : Bool) (s : State) (t u : Core) (e : Eng) (w : Wait) :
    ((setWaitOn b s t e w).core u).spad = (s.core u).spad := by
  unfold setWaitOn
  rw [State.spad_updStrand]
  split
  · simp only [State.core, State.cores_hold]
  · rfl
@[simp] theorem State.mem_setWait (s : State) (t : Core) (e : Eng) (w : Wait) : (setWait s t e w).mem = s.mem := State.mem_setWaitOn _ _ _ _ _
@[simp] theorem State.mem_keepBegun (s s' : State) (t : Core) (e : Eng) : (keepBegun s s' t e).mem = s'.mem := by
  unfold keepBegun; split
  · split <;> rfl
  · rfl
@[simp] theorem State.spad_keepBegun (s s' : State) (t u : Core) (e : Eng) :
    ((keepBegun s s' t e).core u).spad = (s'.core u).spad := by
  unfold keepBegun; split
  · split
    · rfl
    · exact State.spad_setStrand _ _ _ _
  · rfl
@[simp] theorem State.spad_passWord (s : State) (t u : Core) (e : Eng) (len : Nat) :
    ((passWord s t e len).core u).spad = (s.core u).spad := State.spad_updStrand _ _ _ _
@[simp] theorem State.spad_setWait (s : State) (t u : Core) (e : Eng) (w : Wait) :
    ((setWait s t e w).core u).spad = (s.core u).spad := State.spad_setWaitOn _ _ _ _ _ _

@[simp] theorem State.mem_takeFault (s : State) (h : Nat) (r : FaultRec) : (takeFault s h r).mem = s.mem := rfl
@[simp] theorem State.spad_takeFault (s : State) (h : Nat) (r : FaultRec) (t : Core) :
    ((takeFault s h r).core t).spad = (s.core t).spad := by
  simp only [takeFault, State.core, State.updJob_cores]
  change (State.core (State.allCores _ _) t).spad = _
  rw [State.core_allCores]
  rfl

@[simp] theorem State.mem_wordFault (s : State) (t : Core) (e : Eng) (rec : BitVec 3) (c : FaultCode) (pr : Precision) :
    (wordFault s t e rec c pr).mem = s.mem := by
  unfold wordFault
  split <;> simp
@[simp] theorem State.spad_wordFault (s : State) (t u : Core) (e : Eng) (rec : BitVec 3) (c : FaultCode) (pr : Precision) :
    ((wordFault s t e rec c pr).core u).spad = (s.core u).spad := by
  unfold wordFault
  split <;> simp

theorem State.memWf_of_eq {s t : State} (h : s.memWf) (h1 : t.mem = s.mem) (h2 : ∀ u, (t.core u).spad = (s.core u).spad) :
    t.memWf := ⟨by rw [h1]; exact h.1, fun u => by rw [h2]; exact h.2 u⟩

theorem State.memWf_passWord {s : State} (h : s.memWf) (t : Core) (e : Eng) (len : Nat) : (passWord s t e len).memWf :=
  State.memWf_of_eq h (by simp) (by simp)
theorem State.memWf_setWait {s : State} (h : s.memWf) (t : Core) (e : Eng) (w : Wait) : (setWait s t e w).memWf :=
  State.memWf_of_eq h (by simp) (by simp)
theorem State.memWf_keepBegun {s' : State} (h : s'.memWf) (s : State) (t : Core) (e : Eng) : (keepBegun s s' t e).memWf :=
  State.memWf_of_eq h (by simp) (by simp)
theorem State.memWf_wordFault {s : State} (h : s.memWf) (t : Core) (e : Eng) (rec : BitVec 3) (c : FaultCode)
    (pr : Precision) : (wordFault s t e rec c pr).memWf :=
  State.memWf_of_eq h (by simp) (by simp)
theorem State.memWf_setStrand {s : State} (h : s.memWf) (t : Core) (st : Strand) : (s.setStrand t st).memWf :=
  State.memWf_of_eq h (by simp) (by simp)
theorem State.memWf_updStrand {s : State} (h : s.memWf) (t : Core) (f : Strand → Strand) : (s.updStrand t f).memWf :=
  State.memWf_of_eq h (by simp) (by simp)

theorem State.memWf_spadStore {s : State} (h : s.memWf) (t : Core) (a : Nat) (bs : List Byte) (p : Bool) :
    (s.spadStore t a bs p).memWf := by
  refine ⟨h.1, fun u => ?_⟩
  simp only [State.spadStore, State.core_updCore]
  split
  · exact Mem.store_wf (h.2 t) a bs p
  · exact h.2 u

theorem State.mem_sealLine_wf {s : State} (h : s.mem.wf = true) (k : BitVec 12) (l : Nat) : (s.sealLine k l).mem.wf = true := by
  unfold State.sealLine
  split
  · exact h
  · dsimp only
    split
    · split
      · exact h
      · exact Mem.setBytes_wf _ _ h
    · exact h
theorem State.cores_sealLine (s : State) (k : BitVec 12) (l : Nat) : (s.sealLine k l).cores = s.cores := by
  unfold State.sealLine
  split
  · rfl
  · dsimp only
    split
    · split <;> rfl
    · rfl

theorem State.memWf_ite {c : Prop} [Decidable c] {s t : State} (hs : s.memWf) (ht : t.memWf) : (if c then s else t).memWf := by
  split <;> assumption

theorem State.memWf_of_mem {s t : State} (h : s.memWf) (h1 : t.mem.wf = true) (h2 : t.cores = s.cores) : t.memWf :=
  ⟨h1, fun u => by simp only [State.core, h2]; exact h.2 u⟩

theorem State.memWf_sealLine {s : State} (h : s.memWf) (k : BitVec 12) (l : Nat) : (s.sealLine k l).memWf :=
  State.memWf_of_mem h (State.mem_sealLine_wf h.1 k l) (State.cores_sealLine s k l)

theorem State.memWf_spillTag {s s' : State} (h : s.memWf) {line : Nat} (e : spillTag s line = some s') : s'.memWf := by
  unfold spillTag at e
  dsimp only at e
  split at e
  · cases e; exact h
  · split at e
    · cases e; exact State.memWf_of_mem h (Mem.setBytes_wf _ _ h.1) rfl
    · split at e
      · cases e
      · cases e
        refine State.memWf_of_mem h ?_ ?_
        · dsimp only
          split
          · exact Mem.setBytes_wf _ _ (Mem.setBytes_wf _ _ h.1)
          · exact Mem.setBytes_wf _ _ (Mem.setBytes_wf _ _ h.1)
        · dsimp only
          split <;> rfl

theorem State.memWf_repoison {s : State} (h : s.memWf) (g : Nat) (b : Bool) : (s.repoison g b).memWf := h

/-- A fold of steps that keep the canonical form keeps it. -/
theorem State.memWf_foldl {α : Type} {f : State → α → State} (hf : ∀ s a, s.memWf → (f s a).memWf) :
    ∀ (l : List α) {s : State}, s.memWf → (l.foldl f s).memWf
  | [], _, h => h
  | a :: l, _, h => State.memWf_foldl hf l (hf _ a h)

theorem State.memWf_evict {s : State} (h : s.memWf) (line : Nat) : (s.evict line).memWf := by
  unfold State.evict
  split
  · rename_i x s1 _ e
    have h0 : s1.memWf := State.memWf_spillTag h e
    have h1 : State.memWf { s1 with sram := s1.sram.filter fun y => y.line != line } := h0
    exact State.memWf_ite h1 (State.memWf_foldl (fun s i hs => State.memWf_ite hs (State.memWf_repoison hs _ _)) _ h1)
  · exact h

theorem State.memWf_fill {s : State} (h : s.memWf) (key : BitVec 12) (line : Nat) : (s.fill key line).memWf := by
  unfold State.fill
  dsimp only
  have add : ∀ {s : State} (l : List SramLine), s.memWf → State.memWf { s with sram := l } := fun _ h => h
  refine State.memWf_ite h ?_
  have he := State.memWf_evict h line
  generalize s.evict line = s0 at he ⊢
  have h1 : s0.draw.2.memWf := he
  have h2 := State.memWf_evict h1
  refine State.memWf_ite (State.memWf_ite he (add _ he)) (State.memWf_ite (State.memWf_ite he (add _ he)) ?_)
  exact State.memWf_ite (State.memWf_ite (h2 _) (add _ (h2 _))) (h2 _)

theorem State.memWf_touch {s : State} (h : s.memWf) (l : Leaf) (w : Bool) : (s.touch l w).memWf :=
  State.memWf_ite (State.memWf_ite (State.memWf_evict h _) h) (State.memWf_fill h _ _)

theorem State.memWf_touchRange {s : State} (h : s.memWf) (core : Option Core) (d : Fin 4) (j : Job) (va n : Nat) :
    (s.touchRange core d j va n).memWf := by
  refine State.memWf_foldl (fun s p hs => ?_) _ h
  split
  · exact State.memWf_ite hs (State.memWf_fill hs _ _)
  · exact hs

theorem Mem.storeRun_wf {m : Mem} (h : m.wf = true) (a : Nat) (bs : List (Byte × Bool)) : (m.storeRun a bs).wf = true := by
  unfold Mem.storeRun
  generalize pieces 32 (bs.length / 32 + 2) a bs = ps
  induction ps generalizing m with
  | nil => exact h
  | cons p ps ih => exact ih (Mem.store_wf h _ _ _)

theorem State.memWf_setGranule {s : State} (h : s.memWf) (job : Word) (r g : Nat) (v : Option Bool) :
    (setGranule s job r g v).memWf := h

theorem State.memWf_markStamp {s : State} (h : s.memWf) (p : Pending) : (s.markStamp p).memWf := by
  unfold State.markStamp
  split
  · exact State.memWf_ite h (State.memWf_setGranule h _ _ _ _)
  · exact h

/-- A write applied at its home keeps the canonical form, whatever it is. -/
theorem State.memWf_applyWrite {s : State} (h : s.memWf) (p : Pending) (now : Word) (m : Bool) : (s.applyWrite p now m).memWf := by
  unfold State.applyWrite
  dsimp only
  have h0 := State.memWf_markStamp h p
  generalize s.markStamp p = s0 at h0 ⊢
  refine State.memWf_ite (State.memWf_of_mem h0 (Mem.storeRun_wf h0.1 _ _) rfl) (State.memWf_ite h0 ?_)
  have h1 := State.memWf_sealLine (State.memWf_touch h0 ⟨p.addr, 0, p.key, p.nc⟩ true) p.key (p.addr / 128)
  generalize (s0.touch ⟨p.addr, 0, p.key, p.nc⟩ true).sealLine p.key (p.addr / 128) = s1 at h1 ⊢
  have h2 : ∀ tags, State.memWf { (s1.note p).soil (p.addr / 128) with mem := s1.mem.storeRun p.addr p.run, tags } :=
    fun tags => ⟨Mem.storeRun_wf h1.1 _ _, h1.2⟩
  refine State.memWf_ite ?_ (h2 _)
  generalize hs : spillTag _ (p.addr / 128) = o
  cases o with
  | none => exact h2 _
  | some s3 => exact State.memWf_spillTag (h2 _) hs

theorem State.memWf_writeNow {s : State} (h : s.memWf) (me : Agent) (l : Leaf) (bs : List Byte) (p : Bool) (wid : Option WriterId)
    (now : Word) (m : Bool) : (s.writeNow me l bs p wid now m).memWf := by
  unfold State.writeNow
  exact State.memWf_applyWrite (s := (s.number me {} l bs p wid).2) h _ now m

/-- Whatever an agent writes, memory stays in canonical form, up to the page at which a write fails too. -/
theorem State.memWf_writeAs {s : State} (h : s.memWf) (me : Agent) (core : Option Core) (j : Job) (va : Nat)
    (bs : List Byte) (p : Bool) (wid : Option WriterId) : (s.writeAs me core j va bs p wid).1.memWf := by
  unfold State.writeAs
  generalize pieces 64 (bs.length / 64 + 2) va bs = ps
  generalize hr : ((s, none) : State × Option FaultCode) = r0
  have h0 : r0.1.memWf := by subst hr; exact h
  clear hr
  induction ps generalizing r0 with
  | nil => exact h0
  | cons q ps ih =>
    rw [List.foldl_cons]
    refine ih _ ?_
    split
    · exact h0
    · split
      · exact h0
      · dsimp only
        rw [apply_ite Prod.fst]
        exact State.memWf_ite h0 (State.memWf_writeNow h0 _ _ _ _ _ _ _)

theorem State.memWf_agentWrite {s : State} (h : s.memWf) (core : Option Core) (d : Fin 4) (j : Job) (va : Nat)
    (bs : List Byte) (p : Bool) (wid : Option WriterId) : (s.agentWrite core d j va bs p wid).1.memWf :=
  State.memWf_writeAs h _ core j va bs p wid

theorem State.memWf_soil {s : State} (h : s.memWf) (line : Nat) : (s.soil line).memWf := h

theorem State.memWf_hostStore {s : State} (h : s.memWf) (a : Nat) (bs : List Byte) : (hostStore s a bs).memWf := by
  unfold hostStore
  exact State.memWf_foldl (fun _ _ hs => State.memWf_soil hs _) _ ⟨Mem.store_wf h.1 a bs false, h.2⟩

end Sys2Proof.Machine
end

