-- ==== Sys2Proof/WellFormed.lean ====
section
/-! DEFINITION. Well-formed instructions: the checks of R84, R86 to R92 and of each instruction's own rule that its word alone
decides. A word that fails one raises ILLEGAL. -/

namespace Sys2Proof

/-! Operand codes by engine and role (R90). -/

/-- A code below 16: `a`, `h`, `v` and `t` registers. -/
def Code.low16 (c : Code) : Bool := decide (c.toNat < 16)
/-- A code below 8: `e` registers, windows of the matrix engine, HSETW's field. -/
def Code.low8 (c : Code) : Bool := decide (c.toNat < 8)
/-- An accumulator. -/
def Code.acc (c : Code) : Bool := decide (c.toNat < 4)
/-- A source of the address role: `a0` to `a15`, `c2a`, `c2a.pk`. -/
def Code.srcA (c : Code) : Bool := decide (c.toNat < 16) || c == 24 || c == 25
/-- An entry of `v2a`, popped or peeked. -/
def Code.v2a (c : Code) : Bool := c == 26 || c == 27
/-- An entry of `c2a`, popped or peeked. -/
def Code.c2a (c : Code) : Bool := c == 24 || c == 25
/-- A window of the access engine. -/
def Code.winA (c : Code) : Bool := decide (16 ≤ c.toNat) && decide (c.toNat < 24)
/-- A source of the vector engine. -/
def Code.srcV (c : Code) : Bool := decide (c.toNat < 22)
/-- A destination of the vector engine that may be a queue. -/
def Code.dstV (c : Code) : Bool := decide (c.toNat < 16) || c == 22 || c == 23
/-- A source of the exchange engine. -/
def Code.srcX (c : Code) : Bool := decide (c.toNat < 10)
/-- A destination of the exchange engine. -/
def Code.dstX (c : Code) : Bool := decide (c.toNat < 8) || c == 10

/-- Two sources of the vector engine, which may not need 32 entries of one queue (R187). -/
def Code.pairV (a b : Code) : Bool :=
  Code.srcV a && Code.srcV b && !((a == 16 && (b == 16 || b == 17)) || (a == 18 && (b == 18 || b == 19)))

/-! Type and rounding codes (R86, R87). -/

/-- An integer type. -/
def tyInt (t : BitVec 4) : Bool := decide (t.toNat < 8)
/-- `.f32` or `.bf16`. -/
def tyFloat (t : BitVec 4) : Bool := t == 8 || t == 9
/-- The integer types of lanes: `.i16`, `.i32`, `.n16`, `.n32`. -/
def tyLane (t : BitVec 4) : Bool := t == 1 || t == 2 || t == 5 || t == 6
/-- A rounding code other than `.rs` (R130). -/
def rmPlain (r : BitVec 3) : Bool := decide (r.toNat < 4)
/-- A rounding code. -/
def rmAny (r : BitVec 3) : Bool := decide (r.toNat < 5)
/-- A type of R209. -/
def tyCvt (n : Nat) : Bool := n == 1 || n == 2 || n == 5 || n == 6 || (decide (8 ≤ n) && decide (n ≤ 13))
/-- A shift or move amount within its axis (R106). -/
def axisOk (x : BitVec 1) (n : BitVec 6) : Bool := x == 0 || decide (n.toNat < 16)

/-- Selectors of TSTAT (R394). -/
def statSel (n : Nat) : Bool :=
  decide (n ≤ 50) || (decide (64 ≤ n) && decide (n < 118)) || (decide (128 ≤ n) && decide (n < 182))
/-- Selectors of CTRR (R442). -/
def ctrrSel (n : Nat) : Bool :=
  let k := n % 2 ^ 28
  match n / 2 ^ 28 with
  | 0 => decide (n < 17)
  | 1 => decide (1 ≤ k) && decide (k ≤ 0xFFFF)
  | 2 => decide (k ≤ 1)
  | _ => false

/-- A semaphore that exists (R95). -/
def semOk (die : BitVec 1) (n : BitVec 10) : Bool := die == 1 || decide (n.toNat ≤ 31)

/-- Whether an instruction's word alone is legal; a machine step has no word. -/
def Instr.wf : Instr → Bool
  | .add _ _ _ t | .sub _ _ _ t | .mul _ _ _ t | .mulh _ _ _ t | .div _ _ _ t | .rem _ _ _ t | .and _ _ _ t
  | .or _ _ _ t | .xor _ _ _ t | .shl _ _ _ t | .shr _ _ _ t | .min _ _ _ t | .max _ _ _ t => tyInt t
  | .cmp _ _ _ t c => tyInt t && decide (c.toNat < 6)
  | .qput q _ => decide (q.toNat < 4)
  | .qget _ q _ => decide (q.toNat < 3)
  | .srd _ n => decide (n.toNat < 13)
  | .swr _ n => n == 0 || n == 1 || n == 2 || n == 5
  | .mslot _ _ n => decide (n.toNat < 3)
  | .ctrr _ n => ctrrSel n.toNat
  | .tbind t _ => Code.low16 t
  | .tunb t => Code.low16 t
  | .tread _ t n => Code.low16 t && n.toNat % 8 == 0 && decide (n.toNat ≤ 248)
  | .tver _ t => Code.low16 t
  | .tstat _ t n => Code.low16 t && statSel n.toNat
  | .tsync t => Code.low16 t
  | .tstmp _ _ n => decide (n.toNat < 16)
  | .tring _ t n => Code.low16 t && decide (n.toNat < 8)
  | .semi _ d n _ => semOk d n
  | .semd _ d n _ => semOk d n
  | .sems _ d n _ => semOk d n
  | .semw _ d n _ => semOk d n
  | .semiWide _ d n _ => semOk d n
  | .semdWide _ d n _ => semOk d n
  | .semsWide _ d n _ => semOk d n
  | .semwWide _ d n _ => semOk d n
  | .loop _ m => m != 0
  | .loopq m => m != 0
  | .fence k _ => k != 0
  | .aadd d a b => Code.low16 d && Code.srcA a && Code.srcA b
  | .asub d a b => Code.low16 d && Code.srcA a && Code.srcA b
  | .aaddi d a _ => Code.low16 d && Code.srcA a
  | .amuli d a _ => Code.low16 d && Code.srcA a
  | .ali d _ => Code.low16 d
  | .aliw d _ => Code.low16 d
  | .aaddw d a _ => Code.low16 d && Code.srcA a
  | .hset d a _ => Code.low16 d && Code.srcA a
  | .hsetw d f _ => Code.low16 d && Code.low8 f
  | .hget d a _ => Code.low16 d && Code.low16 a
  | .hld d a _ => Code.low16 d && Code.srcA a
  | .awin d a b => Code.winA d && Code.srcA a && Code.low16 b
  | .ald d a b t r _ | .aldS d a b t r _ =>
    (decide (d.toNat < 24) || d == 28 || d == 29) && Code.srcA a && Code.low16 b && (r == 1 || t == 0) &&
      !(r == 1 && (Code.low16 d || d == 28))
  | .ast d a b t r _ =>
    (Code.low16 d || Code.c2a d || Code.v2a d) && Code.srcA a && Code.low16 b && (r == 1 || t == 0)
  | .cpy d a b s e | .prmt d a b s e =>
    Code.srcA d && Code.srcA a && Code.low16 b && b.toNat % 2 == 0 && (e == 1 || s == 0)
  | .agth d a b _ =>
    Code.srcA a && (Code.v2a b || Code.c2a b) && (if Code.v2a b then Code.low16 d || d == 29 else d == 28)
  | .asca d a b t o =>
    Code.srcA a && (t == 2 || t == 6 || t == 8) && decide (o.toNat < 3) && (Code.v2a b || Code.c2a b) &&
      (if Code.v2a b then Code.v2a d else Code.c2a d)
  | .aatm d a b t o =>
    Code.srcA a && Code.srcA b && (Code.low16 d || d == 28) && (t == 2 || t == 6 || t == 8 || t == 3 || t == 7) &&
      !(t == 8 && decide (3 ≤ o.toNat) && decide (o.toNat ≤ 5))
  | .stu d a _ => Code.srcA a && Code.v2a d
  | .reqt d a b _ => Code.srcA d && Code.srcA a && Code.low16 b
  | .surv a _ => Code.srcA a
  | .apf a b => Code.srcA a && Code.low16 b
  | .vadd d a b t r _ | .vsub d a b t r _ | .vmul d a b t r _ | .vfma d a b t r _ =>
    Code.low16 d && Code.pairV a b && ((tyFloat t && rmPlain r) || (tyLane t && r == 0))
  | .vmin d a b t _ | .vmax d a b t _ => Code.low16 d && Code.pairV a b && (tyFloat t || tyLane t)
  | .vand d a b t _ | .vor d a b t _ | .vxor d a b t _ => Code.low16 d && Code.pairV a b && (t == 2 || t == 6)
  | .vshl d a b t _ | .vshr d a b t _ => Code.low16 d && Code.pairV a b && tyLane t
  | .vrshr d a b t r _ => Code.low16 d && Code.pairV a b && tyLane t && rmPlain r
  | .vmac2 d a b _ => Code.low16 d && Code.pairV a b
  | .vexp2 d a t _ | .vlog2 d a t _ | .vrcp d a t _ | .vrsq d a t _ | .vtanh d a t _ | .vsig d a t _ =>
    Code.low16 d && Code.srcV a && tyFloat t
  | .vabs d a t _ | .vneg d a t _ => Code.low16 d && Code.srcV a && (tyFloat t || t == 1 || t == 2)
  | .vnot d a t _ => Code.low16 d && Code.srcV a && (t == 2 || t == 6)
  | .vpush c a b t => decide (c.toNat ≤ 6) && (t == 8 || ((t == 2 || t == 6) && c != 6)) && Code.pairV a b
  | .vsel d a b t => (t == 8 || t == 2) && Code.low16 d && Code.pairV a b
  | .vcvt d a b t r _ =>
    Code.low16 d && Code.srcV a && tyCvt t.toNat && tyCvt b.toNat && t.toNat != b.toNat && rmPlain r
  | .vqnt d a b t r q =>
    (Code.low16 d || (d == 22 && q == 0)) && Code.srcV a && Code.low16 b &&
      ((decide (8 ≤ t.toNat) && decide (t.toNat ≤ 12)) || t == 14) && rmAny r
  | .vdq d a b r _ => Code.low16 d && decide (a.toNat < 18) && Code.low16 b && rmPlain r
  | .vrot d a x _ n => Code.low16 d && Code.srcV a && axisOk x n
  | .vslide d a x _ f n => Code.low16 d && Code.srcV a && axisOk x n && f != 3
  | .vbcast d a x n => Code.low16 d && Code.srcV a && axisOk x n
  | .vredSum d a t _ _ | .vredMax d a t _ _ | .vredMin d a t _ _ =>
    Code.dstV d && Code.srcV a && (t == 8 || t == 2 || t == 6)
  | .vredAmax d a _ _ => Code.dstV d && Code.srcV a
  | .vmov d a t q => (t == 8 || t == 2) && (Code.low16 d || ((d == 22 || d == 23) && q == 0)) && Code.srcV a
  | .vli d _ => Code.low16 d
  | .viota d n => Code.low16 d && decide (n.toNat < 2)
  | .vcpr d a n => decide (n.toNat < 2) && (Code.low16 d || d == 22) && Code.srcV a
  | .vpcnt d => Code.dstV d
  | .mzero d => Code.acc d
  | .mma d a b m => Code.acc d && Code.low8 a && Code.low8 b && m != 3
  | .msoft d a b => Code.acc d && Code.acc a && Code.low8 b && d != a
  | .mscale d i => Code.acc d && decide (-254 ≤ i.toInt) && decide (i.toInt ≤ 254)
  | .mscaleC2m d _ => Code.acc d
  | .mout d a b r => Code.low8 d && Code.acc a && Code.low16 b && rmAny r
  | .mdrn a f c => Code.acc a && decide (f.toNat + c.toNat + 1 ≤ 128)
  | .mside a _ => Code.acc a
  | .msrst d => Code.acc d
  | .mcpy d a | .madd d a => Code.acc d && Code.acc a
  | .xcmd a _ | .xput a _ | .xget a _ => Code.srcX a
  | .xbind a b => Code.srcX a && Code.srcX b
  | .xstat d a | .xmov d a => Code.dstX d && Code.srcX a
  | .xabort a => Code.srcX a
  | .xli d _ | .xliw d _ => Code.low8 d
  | .xadd d a b => Code.low8 d && Code.srcX a && Code.srcX b
  | .xaddi d a _ => Code.low8 d && Code.srcX a
  | .sel _ _ _ | .addi _ _ _ | .andi _ _ _ | .shli _ _ _ | .shri _ _ _ | .sari _ _ _ | .li _ _ | .argl _ _ _
  | .bset _ | .gsel _ _ | .check _ | .ori _ _ _ | .xori _ _ _ | .liw _ _ | .lih _ _ | .args _ _ _ | .tick _
  | .semwSucceed _ _ | .rep _ _ _ | .br _ | .brq _ | .call _ | .safe _ | .safeG _ | .queueWaitRelease _ _
  | .windowWaitRelease _ _ | .slipWindowRelease _ _ | .textFetch _ _ | .strandPlacement _ _ _ | .gangPlacement _
  | .priorityAgeing _ | .strandEnd _ | .launchCompletion _ | .strandDeadlock _ | .safeDistance _ | .stopRequest _
  | .stopWithdraw _ | .stopPointReached _ | .gangCut _ | .contextSave _ | .contextSaveComplete _
  | .strandResume _ _ _ | .doorbell _ _ | .launchPacket _ | .graphPacket _ | .beginPacket _ | .commitPacket _
  | .waitPacket _ | .waitSatisfied _ | .signalPacket _ | .barRelease _ | .copyPacket _ | .fillPacket _
  | .copyFillComplete _ | .indirectPacket _ | .cancelPacket _ | .phasePacket _ | .nopPacket _ | .phaseClose _
  | .phaseAdvance _ | .compactionBatch _ _ | .commandStart _ | .commandWaitSatisfied _ | .contribution _
  | .commandFinish _ _ | .commandTimeout _ | .peerAbort _ _ _ | .mismatchNotice _ _ _ | .switchDiscard _
  | .bindRound _ | .bindTimeout _ | .remoteTransfer _ _ _ _ | .copyEngineComplete _ _ | .permuteComplete _ _
  | .homeWriteApply _ _ | .pageWalk _ _ _ | .slotBodyStart _ _ | .slotEnd _ | .extensionEnd _ _ | .linkFailure _ _
  | .resetHold _ | .tripClear _ | .powerCap _ | .registerWriteRefused _ _ | .fepelLinkTrained _ | .imageDelivered _ _
  | .memoriesReady _ | .pscAlignment _ _ | .thermalTrip _ | .createJob _ _ _ _ _ | .undefinedEncoding _ _
  | .supervisorMailbox _ | .linkTrained _ _ | .powerLoss _ | .flitRetried _ _ | .ret | .endl | .resume | .nop | .endW
  | .velse | .vpend | .drainLeadStart | .errorWindowReset | .leaseRenew | .leaderStop | .leaseLapse | .bootReady
  | .teardownJob | .jobTeardownComplete | .registerQueue | .teardownQueue | .recordCreate | .recordDelete
  | .policySet | .invalidate | .loadKey | .debugHalt | .debugResume | .debugRead | .debugWrite | .attest
  | .reserveDet | .readEvents | .readWindows | .calendarRequest | .fencedRequest | .cardReset => true

end Sys2Proof
end

