-- ==== Sys2Proof/Laws/PerInstr.lean ====
section
/-! SUPPORT. Statements about the instruction as syntax, made once for each constructor: the family RoundTrip says that
decoding what the encoder gives answers the instruction itself, with every operand at every value. -/

namespace Sys2Proof

theorem Fields.ofWord_toWord (f : Fields) : Fields.ofWord f.toWord = f := by
  obtain ⟨t, m, d, a, b, n⟩ := f
  simp only [Fields.ofWord, Fields.toWord, Fields.mk.injEq]
  refine ⟨?_, ?_, ?_, ?_, ?_, ?_⟩ <;>
  · apply BitVec.eq_of_getLsbD_eq
    intro i hi
    simp only [BitVec.getLsbD_extractLsb', BitVec.getLsbD_append, hi, decide_true, Bool.true_and]
    repeat' (first | omega | split)
    all_goals (congr 1; omega)

theorem ext_append_low {v w : Nat} (x : BitVec v) (y : BitVec w) (s k : Nat) (h : s + k ≤ w) :
    (x ++ y).extractLsb' s k = y.extractLsb' s k := by
  apply BitVec.eq_of_getLsbD_eq
  intro i hi
  simp only [BitVec.getLsbD_extractLsb', BitVec.getLsbD_append, hi, decide_true, Bool.true_and]
  rw [if_pos (by omega)]
theorem ext_append_high {v w : Nat} (x : BitVec v) (y : BitVec w) (s k : Nat) (h : w ≤ s) :
    (x ++ y).extractLsb' s k = x.extractLsb' (s - w) k := by
  apply BitVec.eq_of_getLsbD_eq
  intro i hi
  simp only [BitVec.getLsbD_extractLsb', BitVec.getLsbD_append, hi, decide_true, Bool.true_and]
  rw [if_neg (by omega)]
  congr 1
  omega
theorem join10 (i : BitVec 10) : (i.extractLsb' 5 5 ++ i.extractLsb' 0 5 : BitVec 10) = i := by
  apply BitVec.eq_of_getLsbD_eq
  intro k hk
  simp only [BitVec.getLsbD_extractLsb', BitVec.getLsbD_append]
  split <;> simp only [*, decide_true, Bool.true_and, show k - 5 < 5 by omega] <;> (congr 1; omega)
theorem join14 (i : BitVec 14) : (i.extractLsb' 9 5 ++ i.extractLsb' 0 9 : BitVec 14) = i := by
  apply BitVec.eq_of_getLsbD_eq
  intro k hk
  simp only [BitVec.getLsbD_extractLsb', BitVec.getLsbD_append]
  split <;> simp only [*, decide_true, Bool.true_and, show k - 9 < 5 by omega] <;> (congr 1; omega)
theorem join19 (i : BitVec 19) : (i.extractLsb' 14 5 ++ i.extractLsb' 9 5 ++ i.extractLsb' 0 9 : BitVec 19) = i := by
  apply BitVec.eq_of_getLsbD_eq
  intro k hk
  simp only [BitVec.getLsbD_extractLsb', BitVec.getLsbD_append]
  repeat' (first | omega | split)
  all_goals (simp only [*, decide_true, Bool.true_and, show k - 9 - 5 < 5 by omega]; congr 1; omega)
theorem join24 (i : BitVec 24) :
    (i.extractLsb' 19 5 ++ i.extractLsb' 14 5 ++ i.extractLsb' 9 5 ++ i.extractLsb' 0 9 : BitVec 24) = i := by
  apply BitVec.eq_of_getLsbD_eq
  intro k hk
  simp only [BitVec.getLsbD_extractLsb', BitVec.getLsbD_append]
  repeat' (first | omega | split)
  all_goals (simp only [*, decide_true, Bool.true_and, show k - 9 - 5 - 5 < 5 by omega]; congr 1; omega)

@[simp] theorem lo1_1 (x : BitVec 1) (y : BitVec 1) (s k : Nat) (h : s + k ≤ 1) :
    BitVec.extractLsb' (n := 2) s k (x ++ y) = y.extractLsb' s k := ext_append_low x y s k h
@[simp] theorem hi1_1 (x : BitVec 1) (y : BitVec 1) (s k : Nat) (h : 1 ≤ s) :
    BitVec.extractLsb' (n := 2) s k (x ++ y) = x.extractLsb' (s - 1) k := ext_append_high x y s k h
@[simp] theorem lo1_7 (x : BitVec 1) (y : BitVec 7) (s k : Nat) (h : s + k ≤ 7) :
    BitVec.extractLsb' (n := 8) s k (x ++ y) = y.extractLsb' s k := ext_append_low x y s k h
@[simp] theorem hi1_7 (x : BitVec 1) (y : BitVec 7) (s k : Nat) (h : 7 ≤ s) :
    BitVec.extractLsb' (n := 8) s k (x ++ y) = x.extractLsb' (s - 7) k := ext_append_high x y s k h
@[simp] theorem lo1_10 (x : BitVec 1) (y : BitVec 10) (s k : Nat) (h : s + k ≤ 10) :
    BitVec.extractLsb' (n := 11) s k (x ++ y) = y.extractLsb' s k := ext_append_low x y s k h
@[simp] theorem hi1_10 (x : BitVec 1) (y : BitVec 10) (s k : Nat) (h : 10 ≤ s) :
    BitVec.extractLsb' (n := 11) s k (x ++ y) = x.extractLsb' (s - 10) k := ext_append_high x y s k h
@[simp] theorem lo1_13 (x : BitVec 1) (y : BitVec 13) (s k : Nat) (h : s + k ≤ 13) :
    BitVec.extractLsb' (n := 14) s k (x ++ y) = y.extractLsb' s k := ext_append_low x y s k h
@[simp] theorem hi1_13 (x : BitVec 1) (y : BitVec 13) (s k : Nat) (h : 13 ≤ s) :
    BitVec.extractLsb' (n := 14) s k (x ++ y) = x.extractLsb' (s - 13) k := ext_append_high x y s k h
@[simp] theorem lo2_2 (x : BitVec 2) (y : BitVec 2) (s k : Nat) (h : s + k ≤ 2) :
    BitVec.extractLsb' (n := 4) s k (x ++ y) = y.extractLsb' s k := ext_append_low x y s k h
@[simp] theorem hi2_2 (x : BitVec 2) (y : BitVec 2) (s k : Nat) (h : 2 ≤ s) :
    BitVec.extractLsb' (n := 4) s k (x ++ y) = x.extractLsb' (s - 2) k := ext_append_high x y s k h
@[simp] theorem lo2_6 (x : BitVec 2) (y : BitVec 6) (s k : Nat) (h : s + k ≤ 6) :
    BitVec.extractLsb' (n := 8) s k (x ++ y) = y.extractLsb' s k := ext_append_low x y s k h
@[simp] theorem hi2_6 (x : BitVec 2) (y : BitVec 6) (s k : Nat) (h : 6 ≤ s) :
    BitVec.extractLsb' (n := 8) s k (x ++ y) = x.extractLsb' (s - 6) k := ext_append_high x y s k h
@[simp] theorem lo2_7 (x : BitVec 2) (y : BitVec 7) (s k : Nat) (h : s + k ≤ 7) :
    BitVec.extractLsb' (n := 9) s k (x ++ y) = y.extractLsb' s k := ext_append_low x y s k h
@[simp] theorem hi2_7 (x : BitVec 2) (y : BitVec 7) (s k : Nat) (h : 7 ≤ s) :
    BitVec.extractLsb' (n := 9) s k (x ++ y) = x.extractLsb' (s - 7) k := ext_append_high x y s k h
@[simp] theorem lo3_6 (x : BitVec 3) (y : BitVec 6) (s k : Nat) (h : s + k ≤ 6) :
    BitVec.extractLsb' (n := 9) s k (x ++ y) = y.extractLsb' s k := ext_append_low x y s k h
@[simp] theorem hi3_6 (x : BitVec 3) (y : BitVec 6) (s k : Nat) (h : 6 ≤ s) :
    BitVec.extractLsb' (n := 9) s k (x ++ y) = x.extractLsb' (s - 6) k := ext_append_high x y s k h
@[simp] theorem lo4_1 (x : BitVec 4) (y : BitVec 1) (s k : Nat) (h : s + k ≤ 1) :
    BitVec.extractLsb' (n := 5) s k (x ++ y) = y.extractLsb' s k := ext_append_low x y s k h
@[simp] theorem hi4_1 (x : BitVec 4) (y : BitVec 1) (s k : Nat) (h : 1 ≤ s) :
    BitVec.extractLsb' (n := 5) s k (x ++ y) = x.extractLsb' (s - 1) k := ext_append_high x y s k h
@[simp] theorem lo4_3 (x : BitVec 4) (y : BitVec 3) (s k : Nat) (h : s + k ≤ 3) :
    BitVec.extractLsb' (n := 7) s k (x ++ y) = y.extractLsb' s k := ext_append_low x y s k h
@[simp] theorem hi4_3 (x : BitVec 4) (y : BitVec 3) (s k : Nat) (h : 3 ≤ s) :
    BitVec.extractLsb' (n := 7) s k (x ++ y) = x.extractLsb' (s - 3) k := ext_append_high x y s k h
@[simp] theorem lo4_4 (x : BitVec 4) (y : BitVec 4) (s k : Nat) (h : s + k ≤ 4) :
    BitVec.extractLsb' (n := 8) s k (x ++ y) = y.extractLsb' s k := ext_append_low x y s k h
@[simp] theorem hi4_4 (x : BitVec 4) (y : BitVec 4) (s k : Nat) (h : 4 ≤ s) :
    BitVec.extractLsb' (n := 8) s k (x ++ y) = x.extractLsb' (s - 4) k := ext_append_high x y s k h
@[simp] theorem lo4_5 (x : BitVec 4) (y : BitVec 5) (s k : Nat) (h : s + k ≤ 5) :
    BitVec.extractLsb' (n := 9) s k (x ++ y) = y.extractLsb' s k := ext_append_low x y s k h
@[simp] theorem hi4_5 (x : BitVec 4) (y : BitVec 5) (s k : Nat) (h : 5 ≤ s) :
    BitVec.extractLsb' (n := 9) s k (x ++ y) = x.extractLsb' (s - 5) k := ext_append_high x y s k h
@[simp] theorem lo5_1 (x : BitVec 5) (y : BitVec 1) (s k : Nat) (h : s + k ≤ 1) :
    BitVec.extractLsb' (n := 6) s k (x ++ y) = y.extractLsb' s k := ext_append_low x y s k h
@[simp] theorem hi5_1 (x : BitVec 5) (y : BitVec 1) (s k : Nat) (h : 1 ≤ s) :
    BitVec.extractLsb' (n := 6) s k (x ++ y) = x.extractLsb' (s - 1) k := ext_append_high x y s k h
@[simp] theorem lo5_2 (x : BitVec 5) (y : BitVec 2) (s k : Nat) (h : s + k ≤ 2) :
    BitVec.extractLsb' (n := 7) s k (x ++ y) = y.extractLsb' s k := ext_append_low x y s k h
@[simp] theorem hi5_2 (x : BitVec 5) (y : BitVec 2) (s k : Nat) (h : 2 ≤ s) :
    BitVec.extractLsb' (n := 7) s k (x ++ y) = x.extractLsb' (s - 2) k := ext_append_high x y s k h
@[simp] theorem lo6_3 (x : BitVec 6) (y : BitVec 3) (s k : Nat) (h : s + k ≤ 3) :
    BitVec.extractLsb' (n := 9) s k (x ++ y) = y.extractLsb' s k := ext_append_low x y s k h
@[simp] theorem hi6_3 (x : BitVec 6) (y : BitVec 3) (s k : Nat) (h : 3 ≤ s) :
    BitVec.extractLsb' (n := 9) s k (x ++ y) = x.extractLsb' (s - 3) k := ext_append_high x y s k h
@[simp] theorem lo6_8 (x : BitVec 6) (y : BitVec 8) (s k : Nat) (h : s + k ≤ 8) :
    BitVec.extractLsb' (n := 14) s k (x ++ y) = y.extractLsb' s k := ext_append_low x y s k h
@[simp] theorem hi6_8 (x : BitVec 6) (y : BitVec 8) (s k : Nat) (h : 8 ≤ s) :
    BitVec.extractLsb' (n := 14) s k (x ++ y) = x.extractLsb' (s - 8) k := ext_append_high x y s k h
@[simp] theorem lo7_1 (x : BitVec 7) (y : BitVec 1) (s k : Nat) (h : s + k ≤ 1) :
    BitVec.extractLsb' (n := 8) s k (x ++ y) = y.extractLsb' s k := ext_append_low x y s k h
@[simp] theorem hi7_1 (x : BitVec 7) (y : BitVec 1) (s k : Nat) (h : 1 ≤ s) :
    BitVec.extractLsb' (n := 8) s k (x ++ y) = x.extractLsb' (s - 1) k := ext_append_high x y s k h
@[simp] theorem lo7_2 (x : BitVec 7) (y : BitVec 2) (s k : Nat) (h : s + k ≤ 2) :
    BitVec.extractLsb' (n := 9) s k (x ++ y) = y.extractLsb' s k := ext_append_low x y s k h
@[simp] theorem hi7_2 (x : BitVec 7) (y : BitVec 2) (s k : Nat) (h : 2 ≤ s) :
    BitVec.extractLsb' (n := 9) s k (x ++ y) = x.extractLsb' (s - 2) k := ext_append_high x y s k h
@[simp] theorem lo7_7 (x : BitVec 7) (y : BitVec 7) (s k : Nat) (h : s + k ≤ 7) :
    BitVec.extractLsb' (n := 14) s k (x ++ y) = y.extractLsb' s k := ext_append_low x y s k h
@[simp] theorem hi7_7 (x : BitVec 7) (y : BitVec 7) (s k : Nat) (h : 7 ≤ s) :
    BitVec.extractLsb' (n := 14) s k (x ++ y) = x.extractLsb' (s - 7) k := ext_append_high x y s k h
@[simp] theorem lo8_1 (x : BitVec 8) (y : BitVec 1) (s k : Nat) (h : s + k ≤ 1) :
    BitVec.extractLsb' (n := 9) s k (x ++ y) = y.extractLsb' s k := ext_append_low x y s k h
@[simp] theorem hi8_1 (x : BitVec 8) (y : BitVec 1) (s k : Nat) (h : 1 ≤ s) :
    BitVec.extractLsb' (n := 9) s k (x ++ y) = x.extractLsb' (s - 1) k := ext_append_high x y s k h
@[simp] theorem lo8_6 (x : BitVec 8) (y : BitVec 6) (s k : Nat) (h : s + k ≤ 6) :
    BitVec.extractLsb' (n := 14) s k (x ++ y) = y.extractLsb' s k := ext_append_low x y s k h
@[simp] theorem hi8_6 (x : BitVec 8) (y : BitVec 6) (s k : Nat) (h : 6 ≤ s) :
    BitVec.extractLsb' (n := 14) s k (x ++ y) = x.extractLsb' (s - 6) k := ext_append_high x y s k h
@[simp] theorem lo8_16 (x : BitVec 8) (y : BitVec 16) (s k : Nat) (h : s + k ≤ 16) :
    BitVec.extractLsb' (n := 24) s k (x ++ y) = y.extractLsb' s k := ext_append_low x y s k h
@[simp] theorem hi8_16 (x : BitVec 8) (y : BitVec 16) (s k : Nat) (h : 16 ≤ s) :
    BitVec.extractLsb' (n := 24) s k (x ++ y) = x.extractLsb' (s - 16) k := ext_append_high x y s k h
@[simp] theorem lo10_4 (x : BitVec 10) (y : BitVec 4) (s k : Nat) (h : s + k ≤ 4) :
    BitVec.extractLsb' (n := 14) s k (x ++ y) = y.extractLsb' s k := ext_append_low x y s k h
@[simp] theorem hi10_4 (x : BitVec 10) (y : BitVec 4) (s k : Nat) (h : 4 ≤ s) :
    BitVec.extractLsb' (n := 14) s k (x ++ y) = x.extractLsb' (s - 4) k := ext_append_high x y s k h
@[simp] theorem lo11_3 (x : BitVec 11) (y : BitVec 3) (s k : Nat) (h : s + k ≤ 3) :
    BitVec.extractLsb' (n := 14) s k (x ++ y) = y.extractLsb' s k := ext_append_low x y s k h
@[simp] theorem hi11_3 (x : BitVec 11) (y : BitVec 3) (s k : Nat) (h : 3 ≤ s) :
    BitVec.extractLsb' (n := 14) s k (x ++ y) = x.extractLsb' (s - 3) k := ext_append_high x y s k h
@[simp] theorem lo11_13 (x : BitVec 11) (y : BitVec 13) (s k : Nat) (h : s + k ≤ 13) :
    BitVec.extractLsb' (n := 24) s k (x ++ y) = y.extractLsb' s k := ext_append_low x y s k h
@[simp] theorem hi11_13 (x : BitVec 11) (y : BitVec 13) (s k : Nat) (h : 13 ≤ s) :
    BitVec.extractLsb' (n := 24) s k (x ++ y) = x.extractLsb' (s - 13) k := ext_append_high x y s k h
@[simp] theorem lo12_12 (x : BitVec 12) (y : BitVec 12) (s k : Nat) (h : s + k ≤ 12) :
    BitVec.extractLsb' (n := 24) s k (x ++ y) = y.extractLsb' s k := ext_append_low x y s k h
@[simp] theorem hi12_12 (x : BitVec 12) (y : BitVec 12) (s k : Nat) (h : 12 ≤ s) :
    BitVec.extractLsb' (n := 24) s k (x ++ y) = x.extractLsb' (s - 12) k := ext_append_high x y s k h
@[simp] theorem lo20_2 (x : BitVec 20) (y : BitVec 2) (s k : Nat) (h : s + k ≤ 2) :
    BitVec.extractLsb' (n := 22) s k (x ++ y) = y.extractLsb' s k := ext_append_low x y s k h
@[simp] theorem hi20_2 (x : BitVec 20) (y : BitVec 2) (s k : Nat) (h : 2 ≤ s) :
    BitVec.extractLsb' (n := 22) s k (x ++ y) = x.extractLsb' (s - 2) k := ext_append_high x y s k h
@[simp] theorem lo22_2 (x : BitVec 22) (y : BitVec 2) (s k : Nat) (h : s + k ≤ 2) :
    BitVec.extractLsb' (n := 24) s k (x ++ y) = y.extractLsb' s k := ext_append_low x y s k h
@[simp] theorem hi22_2 (x : BitVec 22) (y : BitVec 2) (s k : Nat) (h : 2 ≤ s) :
    BitVec.extractLsb' (n := 24) s k (x ++ y) = x.extractLsb' (s - 2) k := ext_append_high x y s k h

namespace Laws.RoundTrip

/-- The words the encoder gives are words the decoder reads back as the same instruction, of the length it has. -/
def Statement (i : Instr) : Prop :=
  ∀ w imm, encode i = some (w, imm) → decode w (imm.getD 0) = some i ∧ isWide w = imm.isSome

theorem ofNone {i : Instr} (h : encode i = none) : Statement i := by
  intro w imm h'; rw [h] at h'; cases h'

theorem ofFields {i : Instr} {f : Fields} {o : Option Word} (h : encode i = some (f.toWord, o))
    (hd : decodeFields f (o.getD 0) = some i) (hw : (f.maj == 31) = o.isSome) : Statement i := by
  intro w imm h'
  rw [h] at h'
  obtain ⟨rfl, rfl⟩ := Prod.mk.inj (Option.some.inj h')
  have h1 := Fields.ofWord_toWord f
  refine ⟨by rw [decode, h1]; exact hd, ?_⟩
  rw [← hw]
  have h2 := congrArg Fields.maj h1
  simp only [Fields.ofWord] at h2
  simp only [isWide, h2]

theorem ofRri {i : Instr} {t : BitVec 3} {m : BitVec 5} {d a : Code} {n : BitVec 14} (h : encode i = some (rri t m d a n))
    (hd : ∀ f : Fields, f.tag = t → f.maj = m → f.d = d → f.a = a → f.imm14 = n → decodeFields f 0 = some i)
    (hw : (m == 31) = false) : Statement i :=
  ofFields h (hd _ rfl rfl rfl rfl (join14 n)) hw

theorem ofRi19 {i : Instr} {t : BitVec 3} {m : BitVec 5} {d : Code} {n : BitVec 19} (h : encode i = some (ri19 t m d n))
    (hd : ∀ f : Fields, f.tag = t → f.maj = m → f.d = d → f.imm19 = n → decodeFields f 0 = some i)
    (hw : (m == 31) = false) : Statement i :=
  ofFields h (hd _ rfl rfl rfl (join19 n)) hw

theorem ofBr24 {i : Instr} {t : BitVec 3} {m : BitVec 5} {n : BitVec 24} (h : encode i = some (br24 t m n))
    (hd : ∀ f : Fields, f.tag = t → f.maj = m → f.off24 = n → decodeFields f 0 = some i)
    (hw : (m == 31) = false) : Statement i :=
  ofFields h (hd _ rfl rfl (join24 n)) hw

theorem ofWide {i : Instr} {t : BitVec 3} {d a : Code} {n : BitVec 14} {imm : Word}
    (h : encode i = some (wideWord t d a n imm))
    (hd : ∀ f : Fields, f.tag = t → f.maj = 31 → f.d = d → f.a = a → f.imm14 = n → decodeFields f imm = some i) :
    Statement i :=
  ofFields h (hd _ rfl rfl rfl rfl (join14 n)) rfl

theorem bit_cases (b : BitVec 1) : b = 0 ∨ b = 1 := by
  revert b; decide

theorem add (d : Code) (a : Code) (b : Code) (t : BitVec 4) : Statement (.add d a b t) := by
  exact ofFields rfl (by simp [decodeFields, decodeC, onlyIf, Fields.ty]) rfl
theorem sub (d : Code) (a : Code) (b : Code) (t : BitVec 4) : Statement (.sub d a b t) := by
  exact ofFields rfl (by simp [decodeFields, decodeC, onlyIf, Fields.ty]) rfl
theorem mul (d : Code) (a : Code) (b : Code) (t : BitVec 4) : Statement (.mul d a b t) := by
  exact ofFields rfl (by simp [decodeFields, decodeC, onlyIf, Fields.ty]) rfl
theorem mulh (d : Code) (a : Code) (b : Code) (t : BitVec 4) : Statement (.mulh d a b t) := by
  exact ofFields rfl (by simp [decodeFields, decodeC, onlyIf, Fields.ty]) rfl
theorem div (d : Code) (a : Code) (b : Code) (t : BitVec 4) : Statement (.div d a b t) := by
  exact ofFields rfl (by simp [decodeFields, decodeC, onlyIf, Fields.ty]) rfl
theorem rem (d : Code) (a : Code) (b : Code) (t : BitVec 4) : Statement (.rem d a b t) := by
  exact ofFields rfl (by simp [decodeFields, decodeC, onlyIf, Fields.ty]) rfl
theorem and (d : Code) (a : Code) (b : Code) (t : BitVec 4) : Statement (.and d a b t) := by
  exact ofFields rfl (by simp [decodeFields, decodeC, onlyIf, Fields.ty]) rfl
theorem or (d : Code) (a : Code) (b : Code) (t : BitVec 4) : Statement (.or d a b t) := by
  exact ofFields rfl (by simp [decodeFields, decodeC, onlyIf, Fields.ty]) rfl
theorem xor (d : Code) (a : Code) (b : Code) (t : BitVec 4) : Statement (.xor d a b t) := by
  exact ofFields rfl (by simp [decodeFields, decodeC, onlyIf, Fields.ty]) rfl
theorem shl (d : Code) (a : Code) (b : Code) (t : BitVec 4) : Statement (.shl d a b t) := by
  exact ofFields rfl (by simp [decodeFields, decodeC, onlyIf, Fields.ty]) rfl
theorem shr (d : Code) (a : Code) (b : Code) (t : BitVec 4) : Statement (.shr d a b t) := by
  exact ofFields rfl (by simp [decodeFields, decodeC, onlyIf, Fields.ty]) rfl
theorem min (d : Code) (a : Code) (b : Code) (t : BitVec 4) : Statement (.min d a b t) := by
  exact ofFields rfl (by simp [decodeFields, decodeC, onlyIf, Fields.ty]) rfl
theorem max (d : Code) (a : Code) (b : Code) (t : BitVec 4) : Statement (.max d a b t) := by
  exact ofFields rfl (by simp [decodeFields, decodeC, onlyIf, Fields.ty]) rfl
theorem cmp (d : Code) (a : Code) (b : Code) (t : BitVec 4) (c : BitVec 4) : Statement (.cmp d a b t c) := by
  exact ofFields rfl (by simp [decodeFields, decodeC, onlyIf, Fields.ty, Fields.q]) rfl
theorem sel (d : Code) (a : Code) (b : Code) : Statement (.sel d a b) := by
  exact ofFields rfl (by simp [decodeFields, decodeC, onlyIf]) rfl
theorem addi (d : Code) (a : Code) (i : BitVec 14) : Statement (.addi d a i) := 
  ofRri rfl (fun f h1 h2 h3 h4 h5 => by simp [decodeFields, decodeC, onlyIf, h1, h2, h3, h4, h5]) rfl
theorem andi (d : Code) (a : Code) (i : BitVec 14) : Statement (.andi d a i) := 
  ofRri rfl (fun f h1 h2 h3 h4 h5 => by simp [decodeFields, decodeC, onlyIf, h1, h2, h3, h4, h5]) rfl
theorem shli (d : Code) (a : Code) (n : BitVec 6) : Statement (.shli d a n) := 
  ofRri rfl (fun f h1 h2 h3 h4 h5 => by simp [decodeFields, decodeC, onlyIf, h1, h2, h3, h4, h5]) rfl
theorem shri (d : Code) (a : Code) (n : BitVec 6) : Statement (.shri d a n) := 
  ofRri rfl (fun f h1 h2 h3 h4 h5 => by simp [decodeFields, decodeC, onlyIf, h1, h2, h3, h4, h5]) rfl
theorem sari (d : Code) (a : Code) (n : BitVec 6) : Statement (.sari d a n) := 
  ofRri rfl (fun f h1 h2 h3 h4 h5 => by simp [decodeFields, decodeC, onlyIf, h1, h2, h3, h4, h5]) rfl
theorem li (d : Code) (i : BitVec 19) : Statement (.li d i) := 
  ofRi19 rfl (fun f h1 h2 h3 h4 => by simp [decodeFields, decodeC, onlyIf, h1, h2, h3, h4]) rfl
theorem argl (d : Code) (a : Code) (i : BitVec 14) : Statement (.argl d a i) := 
  ofRri rfl (fun f h1 h2 h3 h4 h5 => by simp [decodeFields, decodeC, onlyIf, h1, h2, h3, h4, h5]) rfl
theorem qput (q : Code) (a : Code) : Statement (.qput q a) := by
  exact ofFields rfl (by simp [decodeFields, decodeC, onlyIf]) rfl
theorem qget (d : Code) (q : Code) (k : BitVec 1) : Statement (.qget d q k) := by
  exact ofFields rfl (by simp [decodeFields, decodeC, onlyIf, Fields.ty, Fields.q]) rfl
theorem bset (a : Code) : Statement (.bset a) := by
  exact ofFields rfl (by simp [decodeFields, decodeC, onlyIf]) rfl
theorem gsel (a : Code) (i : BitVec 8) : Statement (.gsel a i) := 
  ofRri rfl (fun f h1 h2 h3 h4 h5 => by simp [decodeFields, decodeC, onlyIf, h1, h2, h3, h4, h5]) rfl
theorem check (a : Code) : Statement (.check a) := by
  exact ofFields rfl (by simp [decodeFields, decodeC, onlyIf]) rfl
theorem ori (d : Code) (a : Code) (imm : Word) : Statement (.ori d a imm) := 
  ofWide rfl (fun f h1 h2 h3 h4 h5 => by simp [decodeFields, decodeC, onlyIf, decodeCWide, h1, h2, h3, h4, h5])
theorem xori (d : Code) (a : Code) (imm : Word) : Statement (.xori d a imm) := 
  ofWide rfl (fun f h1 h2 h3 h4 h5 => by simp [decodeFields, decodeC, onlyIf, decodeCWide, h1, h2, h3, h4, h5])
theorem liw (d : Code) (imm : Word) : Statement (.liw d imm) := 
  ofWide rfl (fun f h1 h2 h3 h4 h5 => by simp [decodeFields, decodeC, onlyIf, decodeCWide, h1, h2, h3, h4, h5])
theorem lih (d : Code) (imm : Word) : Statement (.lih d imm) := 
  ofWide rfl (fun f h1 h2 h3 h4 h5 => by simp [decodeFields, decodeC, onlyIf, decodeCWide, h1, h2, h3, h4, h5])
theorem args (d : Code) (a : Code) (imm : Word) : Statement (.args d a imm) := 
  ofWide rfl (fun f h1 h2 h3 h4 h5 => by simp [decodeFields, decodeC, onlyIf, decodeCWide, h1, h2, h3, h4, h5])
theorem srd (d : Code) (imm : Word) : Statement (.srd d imm) := 
  ofWide rfl (fun f h1 h2 h3 h4 h5 => by simp [decodeFields, decodeC, onlyIf, decodeCWide, h1, h2, h3, h4, h5])
theorem swr (a : Code) (imm : Word) : Statement (.swr a imm) := 
  ofWide rfl (fun f h1 h2 h3 h4 h5 => by simp [decodeFields, decodeC, onlyIf, decodeCWide, h1, h2, h3, h4, h5])
theorem tick (d : Code) : Statement (.tick d) := 
  ofWide rfl (fun f h1 h2 h3 h4 h5 => by simp [decodeFields, decodeC, onlyIf, decodeCWide, h1, h2, h3, h4, h5])
theorem mslot (d : Code) (a : Code) (imm : Word) : Statement (.mslot d a imm) := 
  ofWide rfl (fun f h1 h2 h3 h4 h5 => by simp [decodeFields, decodeC, onlyIf, decodeCWide, h1, h2, h3, h4, h5])
theorem ctrr (d : Code) (imm : Word) : Statement (.ctrr d imm) := 
  ofWide rfl (fun f h1 h2 h3 h4 h5 => by simp [decodeFields, decodeC, onlyIf, decodeCWide, h1, h2, h3, h4, h5])
theorem tbind (t : Code) (a : Code) : Statement (.tbind t a) := 
  ofWide rfl (fun f h1 h2 h3 h4 h5 => by simp [decodeFields, decodeC, onlyIf, decodeCWide, h1, h2, h3, h4, h5])
theorem tunb (t : Code) : Statement (.tunb t) := 
  ofWide rfl (fun f h1 h2 h3 h4 h5 => by simp [decodeFields, decodeC, onlyIf, decodeCWide, h1, h2, h3, h4, h5])
theorem tread (d : Code) (t : Code) (imm : Word) : Statement (.tread d t imm) := 
  ofWide rfl (fun f h1 h2 h3 h4 h5 => by simp [decodeFields, decodeC, onlyIf, decodeCWide, h1, h2, h3, h4, h5])
theorem tver (d : Code) (t : Code) : Statement (.tver d t) := 
  ofWide rfl (fun f h1 h2 h3 h4 h5 => by simp [decodeFields, decodeC, onlyIf, decodeCWide, h1, h2, h3, h4, h5])
theorem tstat (d : Code) (t : Code) (imm : Word) : Statement (.tstat d t imm) := 
  ofWide rfl (fun f h1 h2 h3 h4 h5 => by simp [decodeFields, decodeC, onlyIf, decodeCWide, h1, h2, h3, h4, h5])
theorem tsync (t : Code) : Statement (.tsync t) := 
  ofWide rfl (fun f h1 h2 h3 h4 h5 => by simp [decodeFields, decodeC, onlyIf, decodeCWide, h1, h2, h3, h4, h5])
theorem tstmp (d : Code) (a : Code) (imm : Word) : Statement (.tstmp d a imm) := 
  ofWide rfl (fun f h1 h2 h3 h4 h5 => by simp [decodeFields, decodeC, onlyIf, decodeCWide, h1, h2, h3, h4, h5])
theorem tring (d : Code) (t : Code) (imm : Word) : Statement (.tring d t imm) := 
  ofWide rfl (fun f h1 h2 h3 h4 h5 => by simp [decodeFields, decodeC, onlyIf, decodeCWide, h1, h2, h3, h4, h5])
theorem semi (e : Eng) (die : BitVec 1) (n : BitVec 10) (v : BitVec 13) : Statement (.semi e die n v) := by
  cases e <;> exact ofBr24 rfl (fun f h1 h2 h3 => by simp [decodeFields, decodeC, decodeA, decodeV, decodeM, decodeX, decodeShared, onlyIf, Eng.tag, h1, h2, h3]) rfl
theorem semd (e : Eng) (die : BitVec 1) (n : BitVec 10) (v : BitVec 13) : Statement (.semd e die n v) := by
  cases e <;> exact ofBr24 rfl (fun f h1 h2 h3 => by simp [decodeFields, decodeC, decodeA, decodeV, decodeM, decodeX, decodeShared, onlyIf, Eng.tag, h1, h2, h3]) rfl
theorem sems (e : Eng) (die : BitVec 1) (n : BitVec 10) (v : BitVec 13) : Statement (.sems e die n v) := by
  cases e <;> exact ofBr24 rfl (fun f h1 h2 h3 => by simp [decodeFields, decodeC, decodeA, decodeV, decodeM, decodeX, decodeShared, onlyIf, Eng.tag, h1, h2, h3]) rfl
theorem semw (e : Eng) (die : BitVec 1) (n : BitVec 10) (v : BitVec 13) : Statement (.semw e die n v) := by
  cases e <;> exact ofBr24 rfl (fun f h1 h2 h3 => by simp [decodeFields, decodeC, decodeA, decodeV, decodeM, decodeX, decodeShared, onlyIf, Eng.tag, h1, h2, h3]) rfl
theorem semiWide (e : Eng) (die : BitVec 1) (n : BitVec 10) (v : Word) : Statement (.semiWide e die n v) := by
  rcases bit_cases die with rfl | rfl <;> cases e <;> exact ofWide rfl (fun f h1 h2 h3 h4 h5 => by
    simp [decodeFields, decodeC, decodeA, decodeV, decodeM, decodeX, decodeCWide, decodeSemWide, onlyIf, Eng.tag, h1, h2, h3, h4, h5, join10])
theorem semdWide (e : Eng) (die : BitVec 1) (n : BitVec 10) (v : Word) : Statement (.semdWide e die n v) := by
  rcases bit_cases die with rfl | rfl <;> cases e <;> exact ofWide rfl (fun f h1 h2 h3 h4 h5 => by
    simp [decodeFields, decodeC, decodeA, decodeV, decodeM, decodeX, decodeCWide, decodeSemWide, onlyIf, Eng.tag, h1, h2, h3, h4, h5, join10])
theorem semsWide (e : Eng) (die : BitVec 1) (n : BitVec 10) (v : Word) : Statement (.semsWide e die n v) := by
  rcases bit_cases die with rfl | rfl <;> cases e <;> exact ofWide rfl (fun f h1 h2 h3 h4 h5 => by
    simp [decodeFields, decodeC, decodeA, decodeV, decodeM, decodeX, decodeCWide, decodeSemWide, onlyIf, Eng.tag, h1, h2, h3, h4, h5, join10])
theorem semwWide (e : Eng) (die : BitVec 1) (n : BitVec 10) (v : Word) : Statement (.semwWide e die n v) := by
  rcases bit_cases die with rfl | rfl <;> cases e <;> exact ofWide rfl (fun f h1 h2 h3 h4 h5 => by
    simp [decodeFields, decodeC, decodeA, decodeV, decodeM, decodeX, decodeCWide, decodeSemWide, onlyIf, Eng.tag, h1, h2, h3, h4, h5, join10])
theorem semwSucceed (tile : Core) (e : Eng) : Statement (.semwSucceed tile e) := ofNone rfl
theorem rep (e : Eng) (n : BitVec 6) (k : BitVec 16) : Statement (.rep e n k) := by
  cases e <;> exact ofBr24 rfl (fun f h1 h2 h3 => by simp [decodeFields, decodeC, decodeA, decodeV, decodeM, decodeX, decodeShared, onlyIf, Eng.tag, h1, h2, h3]) rfl
theorem br (o : BitVec 24) : Statement (.br o) := 
  ofBr24 rfl (fun f h1 h2 h3 => by simp [decodeFields, decodeS, onlyIf, h1, h2, h3]) rfl
theorem brq (o : BitVec 24) : Statement (.brq o) := 
  ofBr24 rfl (fun f h1 h2 h3 => by simp [decodeFields, decodeS, onlyIf, h1, h2, h3]) rfl
theorem call (o : BitVec 24) : Statement (.call o) := 
  ofBr24 rfl (fun f h1 h2 h3 => by simp [decodeFields, decodeS, onlyIf, h1, h2, h3]) rfl
theorem loop (k : BitVec 12) (m : BitVec 12) : Statement (.loop k m) := 
  ofBr24 rfl (fun f h1 h2 h3 => by simp [decodeFields, decodeS, onlyIf, h1, h2, h3]) rfl
theorem loopq (m : BitVec 24) : Statement (.loopq m) := 
  ofBr24 rfl (fun f h1 h2 h3 => by simp [decodeFields, decodeS, onlyIf, h1, h2, h3]) rfl
theorem safe (i : BitVec 16) : Statement (.safe i) := 
  ofBr24 rfl (fun f h1 h2 h3 => by simp [decodeFields, decodeS, onlyIf, h1, h2, h3]) rfl
theorem safeG (i : BitVec 16) : Statement (.safeG i) := 
  ofBr24 rfl (fun f h1 h2 h3 => by simp [decodeFields, decodeS, onlyIf, h1, h2, h3]) rfl
theorem fence (k : BitVec 2) (s : BitVec 2) : Statement (.fence k s) := 
  ofBr24 rfl (fun f h1 h2 h3 => by simp [decodeFields, decodeS, onlyIf, h1, h2, h3]) rfl
theorem aadd (d : Code) (a : Code) (b : Code) : Statement (.aadd d a b) := by
  exact ofFields rfl (by simp [decodeFields, decodeA, onlyIf]) rfl
theorem asub (d : Code) (a : Code) (b : Code) : Statement (.asub d a b) := by
  exact ofFields rfl (by simp [decodeFields, decodeA, onlyIf]) rfl
theorem aaddi (d : Code) (a : Code) (i : BitVec 14) : Statement (.aaddi d a i) := 
  ofRri rfl (fun f h1 h2 h3 h4 h5 => by simp [decodeFields, decodeA, onlyIf, h1, h2, h3, h4, h5]) rfl
theorem amuli (d : Code) (a : Code) (i : BitVec 14) : Statement (.amuli d a i) := 
  ofRri rfl (fun f h1 h2 h3 h4 h5 => by simp [decodeFields, decodeA, onlyIf, h1, h2, h3, h4, h5]) rfl
theorem ali (d : Code) (i : BitVec 19) : Statement (.ali d i) := 
  ofRi19 rfl (fun f h1 h2 h3 h4 => by simp [decodeFields, decodeA, onlyIf, h1, h2, h3, h4]) rfl
theorem aliw (d : Code) (imm : Word) : Statement (.aliw d imm) := 
  ofWide rfl (fun f h1 h2 h3 h4 h5 => by simp [decodeFields, decodeA, onlyIf, h1, h2, h3, h4, h5])
theorem aaddw (d : Code) (a : Code) (imm : Word) : Statement (.aaddw d a imm) := 
  ofWide rfl (fun f h1 h2 h3 h4 h5 => by simp [decodeFields, decodeA, onlyIf, h1, h2, h3, h4, h5])
theorem hset (d : Code) (a : Code) (f : BitVec 3) : Statement (.hset d a f) := 
  ofRri rfl (fun f h1 h2 h3 h4 h5 => by simp [decodeFields, decodeA, onlyIf, h1, h2, h3, h4, h5]) rfl
theorem hsetw (d : Code) (f : Code) (imm : Word) : Statement (.hsetw d f imm) := 
  ofWide rfl (fun f h1 h2 h3 h4 h5 => by simp [decodeFields, decodeA, onlyIf, h1, h2, h3, h4, h5])
theorem hget (d : Code) (a : Code) (f : BitVec 3) : Statement (.hget d a f) := 
  ofRri rfl (fun f h1 h2 h3 h4 h5 => by simp [decodeFields, decodeA, onlyIf, h1, h2, h3, h4, h5]) rfl
theorem hld (d : Code) (a : Code) (i : BitVec 14) : Statement (.hld d a i) := 
  ofRri rfl (fun f h1 h2 h3 h4 h5 => by simp [decodeFields, decodeA, onlyIf, h1, h2, h3, h4, h5]) rfl
theorem awin (d : Code) (a : Code) (b : Code) : Statement (.awin d a b) := by
  exact ofFields rfl (by simp [decodeFields, decodeA, onlyIf]) rfl
theorem ald (d : Code) (a : Code) (b : Code) (t : BitVec 4) (r : BitVec 1) (s : BitVec 2) : Statement (.ald d a b t r s) := by
  exact ofFields rfl (by simp [decodeFields, decodeA, onlyIf, Fields.ty]) rfl
theorem aldS (d : Code) (a : Code) (b : Code) (t : BitVec 4) (r : BitVec 1) (s : BitVec 2) : Statement (.aldS d a b t r s) := by
  exact ofFields rfl (by simp [decodeFields, decodeA, onlyIf, Fields.ty]) rfl
theorem ast (d : Code) (a : Code) (b : Code) (t : BitVec 4) (r : BitVec 1) (s : BitVec 2) : Statement (.ast d a b t r s) := by
  exact ofFields rfl (by simp [decodeFields, decodeA, onlyIf, Fields.ty]) rfl
theorem cpy (d : Code) (a : Code) (b : Code) (s : Code) (e : BitVec 1) : Statement (.cpy d a b s e) := by
  exact ofFields rfl (by simp [decodeFields, decodeA, onlyIf]) rfl
theorem prmt (d : Code) (a : Code) (b : Code) (s : Code) (e : BitVec 1) : Statement (.prmt d a b s e) := by
  exact ofFields rfl (by simp [decodeFields, decodeA, onlyIf]) rfl
theorem agth (d : Code) (a : Code) (b : Code) (s : BitVec 2) : Statement (.agth d a b s) := by
  exact ofFields rfl (by simp [decodeFields, decodeA, onlyIf]) rfl
theorem asca (d : Code) (a : Code) (b : Code) (t : BitVec 4) (o : BitVec 3) : Statement (.asca d a b t o) := by
  exact ofFields rfl (by simp [decodeFields, decodeA, onlyIf, Fields.ty, Fields.rm]) rfl
theorem aatm (d : Code) (a : Code) (b : Code) (t : BitVec 4) (o : BitVec 3) : Statement (.aatm d a b t o) := by
  exact ofFields rfl (by simp [decodeFields, decodeA, onlyIf, Fields.ty, Fields.rm]) rfl
theorem stu (d : Code) (a : Code) (t : BitVec 4) : Statement (.stu d a t) := by
  exact ofFields rfl (by simp [decodeFields, decodeA, onlyIf, Fields.ty]) rfl
theorem reqt (d : Code) (a : Code) (b : Code) (t : BitVec 4) : Statement (.reqt d a b t) := by
  exact ofFields rfl (by simp [decodeFields, decodeA, onlyIf, Fields.ty]) rfl
theorem surv (a : Code) (e : BitVec 4) : Statement (.surv a e) := 
  ofRri rfl (fun f h1 h2 h3 h4 h5 => by simp [decodeFields, decodeA, onlyIf, h1, h2, h3, h4, h5]) rfl
theorem apf (a : Code) (b : Code) : Statement (.apf a b) := by
  exact ofFields rfl (by simp [decodeFields, decodeA, onlyIf]) rfl
theorem vadd (d : Code) (a : Code) (b : Code) (t : BitVec 4) (r : BitVec 3) (q : BitVec 1) : Statement (.vadd d a b t r q) := by
  exact ofFields rfl (by simp [decodeFields, decodeV, onlyIf, Fields.ty, Fields.rm, Fields.ax, tv, Fields.q]) rfl
theorem vsub (d : Code) (a : Code) (b : Code) (t : BitVec 4) (r : BitVec 3) (q : BitVec 1) : Statement (.vsub d a b t r q) := by
  exact ofFields rfl (by simp [decodeFields, decodeV, onlyIf, Fields.ty, Fields.rm, Fields.ax, tv, Fields.q]) rfl
theorem vmul (d : Code) (a : Code) (b : Code) (t : BitVec 4) (r : BitVec 3) (q : BitVec 1) : Statement (.vmul d a b t r q) := by
  exact ofFields rfl (by simp [decodeFields, decodeV, onlyIf, Fields.ty, Fields.rm, Fields.ax, tv, Fields.q]) rfl
theorem vfma (d : Code) (a : Code) (b : Code) (t : BitVec 4) (r : BitVec 3) (q : BitVec 1) : Statement (.vfma d a b t r q) := by
  exact ofFields rfl (by simp [decodeFields, decodeV, onlyIf, Fields.ty, Fields.rm, Fields.ax, tv, Fields.q]) rfl
theorem vmin (d : Code) (a : Code) (b : Code) (t : BitVec 4) (q : BitVec 1) : Statement (.vmin d a b t q) := by
  exact ofFields rfl (by simp [decodeFields, decodeV, onlyIf, Fields.ty, Fields.rm, Fields.ax, tv, Fields.q]) rfl
theorem vmax (d : Code) (a : Code) (b : Code) (t : BitVec 4) (q : BitVec 1) : Statement (.vmax d a b t q) := by
  exact ofFields rfl (by simp [decodeFields, decodeV, onlyIf, Fields.ty, Fields.rm, Fields.ax, tv, Fields.q]) rfl
theorem vand (d : Code) (a : Code) (b : Code) (t : BitVec 4) (q : BitVec 1) : Statement (.vand d a b t q) := by
  exact ofFields rfl (by simp [decodeFields, decodeV, onlyIf, Fields.ty, Fields.rm, Fields.ax, tv, Fields.q]) rfl
theorem vor (d : Code) (a : Code) (b : Code) (t : BitVec 4) (q : BitVec 1) : Statement (.vor d a b t q) := by
  exact ofFields rfl (by simp [decodeFields, decodeV, onlyIf, Fields.ty, Fields.rm, Fields.ax, tv, Fields.q]) rfl
theorem vxor (d : Code) (a : Code) (b : Code) (t : BitVec 4) (q : BitVec 1) : Statement (.vxor d a b t q) := by
  exact ofFields rfl (by simp [decodeFields, decodeV, onlyIf, Fields.ty, Fields.rm, Fields.ax, tv, Fields.q]) rfl
theorem vshl (d : Code) (a : Code) (b : Code) (t : BitVec 4) (q : BitVec 1) : Statement (.vshl d a b t q) := by
  exact ofFields rfl (by simp [decodeFields, decodeV, onlyIf, Fields.ty, Fields.rm, Fields.ax, tv, Fields.q]) rfl
theorem vshr (d : Code) (a : Code) (b : Code) (t : BitVec 4) (q : BitVec 1) : Statement (.vshr d a b t q) := by
  exact ofFields rfl (by simp [decodeFields, decodeV, onlyIf, Fields.ty, Fields.rm, Fields.ax, tv, Fields.q]) rfl
theorem vrshr (d : Code) (a : Code) (b : Code) (t : BitVec 4) (r : BitVec 3) (q : BitVec 1) : Statement (.vrshr d a b t r q) := by
  exact ofFields rfl (by simp [decodeFields, decodeV, onlyIf, Fields.ty, Fields.rm, Fields.ax, tv, Fields.q]) rfl
theorem vmac2 (d : Code) (a : Code) (b : Code) (q : BitVec 1) : Statement (.vmac2 d a b q) := by
  exact ofFields rfl (by simp [decodeFields, decodeV, onlyIf, Fields.ty, Fields.rm, Fields.ax, tv, Fields.q]) rfl
theorem vexp2 (d : Code) (a : Code) (t : BitVec 4) (q : BitVec 1) : Statement (.vexp2 d a t q) := by
  exact ofFields rfl (by simp [decodeFields, decodeV, onlyIf, Fields.ty, Fields.rm, Fields.ax, tv, Fields.q]) rfl
theorem vlog2 (d : Code) (a : Code) (t : BitVec 4) (q : BitVec 1) : Statement (.vlog2 d a t q) := by
  exact ofFields rfl (by simp [decodeFields, decodeV, onlyIf, Fields.ty, Fields.rm, Fields.ax, tv, Fields.q]) rfl
theorem vrcp (d : Code) (a : Code) (t : BitVec 4) (q : BitVec 1) : Statement (.vrcp d a t q) := by
  exact ofFields rfl (by simp [decodeFields, decodeV, onlyIf, Fields.ty, Fields.rm, Fields.ax, tv, Fields.q]) rfl
theorem vrsq (d : Code) (a : Code) (t : BitVec 4) (q : BitVec 1) : Statement (.vrsq d a t q) := by
  exact ofFields rfl (by simp [decodeFields, decodeV, onlyIf, Fields.ty, Fields.rm, Fields.ax, tv, Fields.q]) rfl
theorem vtanh (d : Code) (a : Code) (t : BitVec 4) (q : BitVec 1) : Statement (.vtanh d a t q) := by
  exact ofFields rfl (by simp [decodeFields, decodeV, onlyIf, Fields.ty, Fields.rm, Fields.ax, tv, Fields.q]) rfl
theorem vsig (d : Code) (a : Code) (t : BitVec 4) (q : BitVec 1) : Statement (.vsig d a t q) := by
  exact ofFields rfl (by simp [decodeFields, decodeV, onlyIf, Fields.ty, Fields.rm, Fields.ax, tv, Fields.q]) rfl
theorem vabs (d : Code) (a : Code) (t : BitVec 4) (q : BitVec 1) : Statement (.vabs d a t q) := by
  exact ofFields rfl (by simp [decodeFields, decodeV, onlyIf, Fields.ty, Fields.rm, Fields.ax, tv, Fields.q]) rfl
theorem vneg (d : Code) (a : Code) (t : BitVec 4) (q : BitVec 1) : Statement (.vneg d a t q) := by
  exact ofFields rfl (by simp [decodeFields, decodeV, onlyIf, Fields.ty, Fields.rm, Fields.ax, tv, Fields.q]) rfl
theorem vnot (d : Code) (a : Code) (t : BitVec 4) (q : BitVec 1) : Statement (.vnot d a t q) := by
  exact ofFields rfl (by simp [decodeFields, decodeV, onlyIf, Fields.ty, Fields.rm, Fields.ax, tv, Fields.q]) rfl
theorem vpush (c : Code) (a : Code) (b : Code) (t : BitVec 4) : Statement (.vpush c a b t) := by
  exact ofFields rfl (by simp [decodeFields, decodeV, onlyIf, Fields.ty]) rfl
theorem vsel (d : Code) (a : Code) (b : Code) (t : BitVec 4) : Statement (.vsel d a b t) := by
  exact ofFields rfl (by simp [decodeFields, decodeV, onlyIf, Fields.ty]) rfl
theorem vcvt (d : Code) (a : Code) (b : Code) (t : BitVec 4) (r : BitVec 3) (q : BitVec 1) : Statement (.vcvt d a b t r q) := by
  exact ofFields rfl (by simp [decodeFields, decodeV, onlyIf, Fields.ty, Fields.rm, Fields.ax, tv, Fields.q]) rfl
theorem vqnt (d : Code) (a : Code) (b : Code) (t : BitVec 4) (r : BitVec 3) (q : BitVec 1) : Statement (.vqnt d a b t r q) := by
  exact ofFields rfl (by simp [decodeFields, decodeV, onlyIf, Fields.ty, Fields.rm, Fields.ax, tv, Fields.q]) rfl
theorem vdq (d : Code) (a : Code) (b : Code) (r : BitVec 3) (q : BitVec 1) : Statement (.vdq d a b r q) := by
  exact ofFields rfl (by simp [decodeFields, decodeV, onlyIf, Fields.ty, Fields.rm, Fields.ax, tv, Fields.q]) rfl
theorem vrot (d : Code) (a : Code) (x : BitVec 1) (u : BitVec 1) (n : BitVec 6) : Statement (.vrot d a x u n) := 
  ofRri rfl (fun f h1 h2 h3 h4 h5 => by simp [decodeFields, decodeV, onlyIf, h1, h2, h3, h4, h5]) rfl
theorem vslide (d : Code) (a : Code) (x : BitVec 1) (u : BitVec 1) (f : BitVec 2) (n : BitVec 6) : Statement (.vslide d a x u f n) := 
  ofRri rfl (fun f h1 h2 h3 h4 h5 => by simp [decodeFields, decodeV, onlyIf, h1, h2, h3, h4, h5]) rfl
theorem vbcast (d : Code) (a : Code) (x : BitVec 1) (n : BitVec 6) : Statement (.vbcast d a x n) := 
  ofRri rfl (fun f h1 h2 h3 h4 h5 => by simp [decodeFields, decodeV, onlyIf, h1, h2, h3, h4, h5]) rfl
theorem vredSum (d : Code) (a : Code) (t : BitVec 4) (x : BitVec 1) (q : BitVec 1) : Statement (.vredSum d a t x q) := by
  exact ofFields rfl (by simp [decodeFields, decodeV, onlyIf, Fields.ty, Fields.rm, Fields.ax, tv, Fields.q]) rfl
theorem vredMax (d : Code) (a : Code) (t : BitVec 4) (x : BitVec 1) (q : BitVec 1) : Statement (.vredMax d a t x q) := by
  exact ofFields rfl (by simp [decodeFields, decodeV, onlyIf, Fields.ty, Fields.rm, Fields.ax, tv, Fields.q]) rfl
theorem vredMin (d : Code) (a : Code) (t : BitVec 4) (x : BitVec 1) (q : BitVec 1) : Statement (.vredMin d a t x q) := by
  exact ofFields rfl (by simp [decodeFields, decodeV, onlyIf, Fields.ty, Fields.rm, Fields.ax, tv, Fields.q]) rfl
theorem vredAmax (d : Code) (a : Code) (x : BitVec 1) (q : BitVec 1) : Statement (.vredAmax d a x q) := by
  exact ofFields rfl (by simp [decodeFields, decodeV, onlyIf, Fields.ty, Fields.rm, Fields.ax, tv, Fields.q]) rfl
theorem vmov (d : Code) (a : Code) (t : BitVec 4) (q : BitVec 1) : Statement (.vmov d a t q) := by
  exact ofFields rfl (by simp [decodeFields, decodeV, onlyIf, Fields.ty, Fields.rm, Fields.ax, tv, Fields.q]) rfl
theorem vli (d : Code) (imm : Word) : Statement (.vli d imm) := 
  ofWide rfl (fun f h1 h2 h3 h4 h5 => by simp [decodeFields, decodeV, onlyIf, h1, h2, h3, h4, h5])
theorem viota (d : Code) (imm : Word) : Statement (.viota d imm) := 
  ofWide rfl (fun f h1 h2 h3 h4 h5 => by simp [decodeFields, decodeV, onlyIf, h1, h2, h3, h4, h5])
theorem vcpr (d : Code) (a : Code) (imm : Word) : Statement (.vcpr d a imm) := 
  ofWide rfl (fun f h1 h2 h3 h4 h5 => by simp [decodeFields, decodeV, onlyIf, h1, h2, h3, h4, h5])
theorem vpcnt (d : Code) : Statement (.vpcnt d) := 
  ofWide rfl (fun f h1 h2 h3 h4 h5 => by simp [decodeFields, decodeV, onlyIf, h1, h2, h3, h4, h5])
theorem mzero (d : Code) : Statement (.mzero d) := by
  exact ofFields rfl (by simp [decodeFields, decodeM, onlyIf]) rfl
theorem mma (d : Code) (a : Code) (b : Code) (m : BitVec 2) : Statement (.mma d a b m) := by
  exact ofFields rfl (by simp [decodeFields, decodeM, onlyIf]) rfl
theorem msoft (d : Code) (a : Code) (b : Code) : Statement (.msoft d a b) := by
  exact ofFields rfl (by simp [decodeFields, decodeM, onlyIf]) rfl
theorem mscale (d : Code) (i : BitVec 14) : Statement (.mscale d i) := 
  ofRri rfl (fun f h1 h2 h3 h4 h5 => by simp [decodeFields, decodeM, onlyIf, h1, h2, h3, h4, h5]) rfl
theorem mscaleC2m (d : Code) (p : BitVec 1) : Statement (.mscaleC2m d p) := by
  rcases bit_cases p with rfl | rfl <;> exact ofFields rfl (by simp [decodeFields, decodeM, onlyIf, Fields.imm14]) rfl
theorem mout (d : Code) (a : Code) (b : Code) (r : BitVec 3) : Statement (.mout d a b r) := by
  exact ofFields rfl (by simp [decodeFields, decodeM, onlyIf]) rfl
theorem mdrn (a : Code) (f : BitVec 7) (c : BitVec 7) : Statement (.mdrn a f c) := 
  ofRri rfl (fun f h1 h2 h3 h4 h5 => by simp [decodeFields, decodeM, onlyIf, h1, h2, h3, h4, h5]) rfl
theorem mside (a : Code) (s : BitVec 1) : Statement (.mside a s) := 
  ofRri rfl (fun f h1 h2 h3 h4 h5 => by simp [decodeFields, decodeM, onlyIf, h1, h2, h3, h4, h5]) rfl
theorem msrst (d : Code) : Statement (.msrst d) := by
  exact ofFields rfl (by simp [decodeFields, decodeM, onlyIf]) rfl
theorem mcpy (d : Code) (a : Code) : Statement (.mcpy d a) := by
  exact ofFields rfl (by simp [decodeFields, decodeM, onlyIf]) rfl
theorem madd (d : Code) (a : Code) : Statement (.madd d a) := by
  exact ofFields rfl (by simp [decodeFields, decodeM, onlyIf]) rfl
theorem xcmd (a : Code) (i : BitVec 14) : Statement (.xcmd a i) := 
  ofRri rfl (fun f h1 h2 h3 h4 h5 => by simp [decodeFields, decodeX, onlyIf, h1, h2, h3, h4, h5]) rfl
theorem xbind (a : Code) (b : Code) : Statement (.xbind a b) := by
  exact ofFields rfl (by simp [decodeFields, decodeX, onlyIf]) rfl
theorem xput (a : Code) (i : BitVec 14) : Statement (.xput a i) := 
  ofRri rfl (fun f h1 h2 h3 h4 h5 => by simp [decodeFields, decodeX, onlyIf, h1, h2, h3, h4, h5]) rfl
theorem xget (a : Code) (i : BitVec 14) : Statement (.xget a i) := 
  ofRri rfl (fun f h1 h2 h3 h4 h5 => by simp [decodeFields, decodeX, onlyIf, h1, h2, h3, h4, h5]) rfl
theorem xstat (d : Code) (a : Code) : Statement (.xstat d a) := by
  exact ofFields rfl (by simp [decodeFields, decodeX, onlyIf]) rfl
theorem xabort (a : Code) : Statement (.xabort a) := by
  exact ofFields rfl (by simp [decodeFields, decodeX, onlyIf]) rfl
theorem xmov (d : Code) (a : Code) : Statement (.xmov d a) := by
  exact ofFields rfl (by simp [decodeFields, decodeX, onlyIf]) rfl
theorem xli (d : Code) (i : BitVec 19) : Statement (.xli d i) := 
  ofRi19 rfl (fun f h1 h2 h3 h4 => by simp [decodeFields, decodeX, onlyIf, h1, h2, h3, h4]) rfl
theorem xadd (d : Code) (a : Code) (b : Code) : Statement (.xadd d a b) := by
  exact ofFields rfl (by simp [decodeFields, decodeX, onlyIf]) rfl
theorem xaddi (d : Code) (a : Code) (i : BitVec 14) : Statement (.xaddi d a i) := 
  ofRri rfl (fun f h1 h2 h3 h4 h5 => by simp [decodeFields, decodeX, onlyIf, h1, h2, h3, h4, h5]) rfl
theorem xliw (d : Code) (imm : Word) : Statement (.xliw d imm) := 
  ofWide rfl (fun f h1 h2 h3 h4 h5 => by simp [decodeFields, decodeX, onlyIf, h1, h2, h3, h4, h5])
theorem queueWaitRelease (tile : Core) (e : Eng) : Statement (.queueWaitRelease tile e) := ofNone rfl
theorem windowWaitRelease (tile : Core) (e : Eng) : Statement (.windowWaitRelease tile e) := ofNone rfl
theorem slipWindowRelease (tile : Core) (e : Eng) : Statement (.slipWindowRelease tile e) := ofNone rfl
theorem textFetch (tile : Core) (addr : DWord) : Statement (.textFetch tile addr) := ofNone rfl
theorem strandPlacement (tile : Core) (source : Core) (pick : Nat) : Statement (.strandPlacement tile source pick) := ofNone rfl
theorem gangPlacement (launch : Nat) : Statement (.gangPlacement launch) := ofNone rfl
theorem priorityAgeing (launch : Nat) : Statement (.priorityAgeing launch) := ofNone rfl
theorem strandEnd (tile : Core) : Statement (.strandEnd tile) := ofNone rfl
theorem launchCompletion (launch : Nat) : Statement (.launchCompletion launch) := ofNone rfl
theorem strandDeadlock (tile : Core) : Statement (.strandDeadlock tile) := ofNone rfl
theorem safeDistance (tile : Core) : Statement (.safeDistance tile) := ofNone rfl
theorem stopRequest (tile : Core) : Statement (.stopRequest tile) := ofNone rfl
theorem stopWithdraw (tile : Core) : Statement (.stopWithdraw tile) := ofNone rfl
theorem stopPointReached (tile : Core) : Statement (.stopPointReached tile) := ofNone rfl
theorem gangCut (launch : Nat) : Statement (.gangCut launch) := ofNone rfl
theorem contextSave (tile : Core) : Statement (.contextSave tile) := ofNone rfl
theorem contextSaveComplete (tile : Core) : Statement (.contextSaveComplete tile) := ofNone rfl
theorem strandResume (tile : Core) (launch : Nat) (index : BitVec 24) : Statement (.strandResume tile launch index) := ofNone rfl
theorem doorbell (q : BitVec 8) (value : DWord) : Statement (.doorbell q value) := ofNone rfl
theorem launchPacket (q : BitVec 8) : Statement (.launchPacket q) := ofNone rfl
theorem graphPacket (q : BitVec 8) : Statement (.graphPacket q) := ofNone rfl
theorem beginPacket (q : BitVec 8) : Statement (.beginPacket q) := ofNone rfl
theorem commitPacket (q : BitVec 8) : Statement (.commitPacket q) := ofNone rfl
theorem waitPacket (q : BitVec 8) : Statement (.waitPacket q) := ofNone rfl
theorem waitSatisfied (q : BitVec 8) : Statement (.waitSatisfied q) := ofNone rfl
theorem signalPacket (q : BitVec 8) : Statement (.signalPacket q) := ofNone rfl
theorem barRelease (q : BitVec 8) : Statement (.barRelease q) := ofNone rfl
theorem copyPacket (q : BitVec 8) : Statement (.copyPacket q) := ofNone rfl
theorem fillPacket (q : BitVec 8) : Statement (.fillPacket q) := ofNone rfl
theorem copyFillComplete (work : Nat) : Statement (.copyFillComplete work) := ofNone rfl
theorem indirectPacket (q : BitVec 8) : Statement (.indirectPacket q) := ofNone rfl
theorem cancelPacket (q : BitVec 8) : Statement (.cancelPacket q) := ofNone rfl
theorem phasePacket (q : BitVec 8) : Statement (.phasePacket q) := ofNone rfl
theorem nopPacket (q : BitVec 8) : Statement (.nopPacket q) := ofNone rfl
theorem phaseClose (job : Word) : Statement (.phaseClose job) := ofNone rfl
theorem phaseAdvance (job : Word) : Statement (.phaseAdvance job) := ofNone rfl
theorem compactionBatch (graph : Nat) (edge : Nat) : Statement (.compactionBatch graph edge) := ofNone rfl
theorem commandStart (tile : Core) : Statement (.commandStart tile) := ofNone rfl
theorem commandWaitSatisfied (tile : Core) : Statement (.commandWaitSatisfied tile) := ofNone rfl
theorem contribution (msg : FabricMsg) : Statement (.contribution msg) := ofNone rfl
theorem commandFinish (tile : Core) (inSwitch : Bool) : Statement (.commandFinish tile inSwitch) := ofNone rfl
theorem commandTimeout (tile : Core) : Statement (.commandTimeout tile) := ofNone rfl
theorem peerAbort (ftag : Word) (gen : Word) (round : Nat) : Statement (.peerAbort ftag gen round) := ofNone rfl
theorem mismatchNotice (ftag : Word) (gen : Word) (round : Nat) : Statement (.mismatchNotice ftag gen round) := ofNone rfl
theorem switchDiscard (tile : Core) : Statement (.switchDiscard tile) := ofNone rfl
theorem bindRound (tile : Core) : Statement (.bindRound tile) := ofNone rfl
theorem bindTimeout (tile : Core) : Statement (.bindTimeout tile) := ofNone rfl
theorem remoteTransfer (tile : Core) (bytes : List (Byte × Bool)) (ok : Bool) (tracked : Bool) : Statement (.remoteTransfer tile bytes ok tracked) := ofNone rfl
theorem copyEngineComplete (tile : Core) (slot : Nat) : Statement (.copyEngineComplete tile slot) := ofNone rfl
theorem permuteComplete (tile : Core) (slot : Nat) : Statement (.permuteComplete tile slot) := ofNone rfl
theorem homeWriteApply (k : Nat) (spill : Option Nat) : Statement (.homeWriteApply k spill) := ofNone rfl
theorem pageWalk (tile : Core) (job : Word) (addr : DWord) : Statement (.pageWalk tile job addr) := ofNone rfl
theorem slotBodyStart (temps : List Int) (volts : List Int) : Statement (.slotBodyStart temps volts) := ofNone rfl
theorem slotEnd (sweep : Sweep) : Statement (.slotEnd sweep) := ofNone rfl
theorem extensionEnd (kind : BitVec 4) (unit : BitVec 16) : Statement (.extensionEnd kind unit) := ofNone rfl
theorem linkFailure (kind : BitVec 4) (unit : BitVec 16) : Statement (.linkFailure kind unit) := ofNone rfl
theorem resetHold (value : DWord) : Statement (.resetHold value) := ofNone rfl
theorem tripClear (value : DWord) : Statement (.tripClear value) := ofNone rfl
theorem powerCap (value : DWord) : Statement (.powerCap value) := ofNone rfl
theorem registerWriteRefused (offset : Nat) (value : DWord) : Statement (.registerWriteRefused offset value) := ofNone rfl
theorem fepelLinkTrained (ok : Bool) : Statement (.fepelLinkTrained ok) := ofNone rfl
theorem imageDelivered (image : List Byte) (whole : Bool) : Statement (.imageDelivered image whole) := ofNone rfl
theorem memoriesReady (alive : BitVec 4) : Statement (.memoriesReady alive) := ofNone rfl
theorem pscAlignment (ports : BitVec 12) (reference : Option DWord) : Statement (.pscAlignment ports reference) := ofNone rfl
theorem thermalTrip (temps : List Int) : Statement (.thermalTrip temps) := ofNone rfl
theorem createJob (jobno : Word) (b0 : BitVec 4) (b1 : BitVec 4) (b2 : BitVec 4) (b3 : BitVec 4) : Statement (.createJob jobno b0 b1 b2 b3) := ofNone rfl
theorem undefinedEncoding (tile : Core) (e : Eng) : Statement (.undefinedEncoding tile e) := ofNone rfl
theorem supervisorMailbox (addr : DWord) : Statement (.supervisorMailbox addr) := ofNone rfl
theorem linkTrained (port : BitVec 4) (skew : Nat) : Statement (.linkTrained port skew) := ofNone rfl
theorem powerLoss (floorWritten : Bool) : Statement (.powerLoss floorWritten) := ofNone rfl
theorem flitRetried (kind : BitVec 4) (unit : BitVec 16) : Statement (.flitRetried kind unit) := ofNone rfl
theorem ret : Statement (.ret) := 
  ofBr24 rfl (fun f h1 h2 h3 => by simp [decodeFields, decodeS, onlyIf, h1, h2, h3]) rfl
theorem endl : Statement (.endl) := 
  ofBr24 rfl (fun f h1 h2 h3 => by simp [decodeFields, decodeS, onlyIf, h1, h2, h3]) rfl
theorem resume : Statement (.resume) := 
  ofBr24 rfl (fun f h1 h2 h3 => by simp [decodeFields, decodeS, onlyIf, h1, h2, h3]) rfl
theorem nop : Statement (.nop) := 
  ofBr24 rfl (fun f h1 h2 h3 => by simp [decodeFields, decodeS, onlyIf, h1, h2, h3]) rfl
theorem endW : Statement (.endW) := 
  ofBr24 rfl (fun f h1 h2 h3 => by simp [decodeFields, decodeS, onlyIf, h1, h2, h3]) rfl
theorem velse : Statement (.velse) := by
  exact ofFields rfl (by simp [decodeFields, decodeV, onlyIf]) rfl
theorem vpend : Statement (.vpend) := by
  exact ofFields rfl (by simp [decodeFields, decodeV, onlyIf]) rfl
theorem drainLeadStart : Statement (.drainLeadStart) := ofNone rfl
theorem errorWindowReset : Statement (.errorWindowReset) := ofNone rfl
theorem leaseRenew : Statement (.leaseRenew) := ofNone rfl
theorem leaderStop : Statement (.leaderStop) := ofNone rfl
theorem leaseLapse : Statement (.leaseLapse) := ofNone rfl
theorem bootReady : Statement (.bootReady) := ofNone rfl
theorem teardownJob : Statement (.teardownJob) := ofNone rfl
theorem jobTeardownComplete : Statement (.jobTeardownComplete) := ofNone rfl
theorem registerQueue : Statement (.registerQueue) := ofNone rfl
theorem teardownQueue : Statement (.teardownQueue) := ofNone rfl
theorem recordCreate : Statement (.recordCreate) := ofNone rfl
theorem recordDelete : Statement (.recordDelete) := ofNone rfl
theorem policySet : Statement (.policySet) := ofNone rfl
theorem invalidate : Statement (.invalidate) := ofNone rfl
theorem loadKey : Statement (.loadKey) := ofNone rfl
theorem debugHalt : Statement (.debugHalt) := ofNone rfl
theorem debugResume : Statement (.debugResume) := ofNone rfl
theorem debugRead : Statement (.debugRead) := ofNone rfl
theorem debugWrite : Statement (.debugWrite) := ofNone rfl
theorem attest : Statement (.attest) := ofNone rfl
theorem reserveDet : Statement (.reserveDet) := ofNone rfl
theorem readEvents : Statement (.readEvents) := ofNone rfl
theorem readWindows : Statement (.readWindows) := ofNone rfl
theorem calendarRequest : Statement (.calendarRequest) := ofNone rfl
theorem fencedRequest : Statement (.fencedRequest) := ofNone rfl
theorem cardReset : Statement (.cardReset) := ofNone rfl

end Laws.RoundTrip
end Sys2Proof
end

