-- ==== Sys2Proof/Tests/Slice0.lean ====
section
/-! SUPPORT. Tests of the model: terms that are not well-formed, words written out from the encodings, and for every
obligation with hypotheses a state or operands that meet them. -/

open Sys2Proof Sys2Proof.Machine
namespace Sys2Proof.Tests
set_option maxRecDepth 100000
set_option Elab.async false

/-! Well-formedness: one term for each check, which the check refuses. -/

theorem test_ill_formed_integer_types :
    Instr.wf (.add 0 0 0 8) = false ∧ Instr.wf (.sub 0 0 0 9) = false ∧ Instr.wf (.mul 0 0 0 10) = false ∧
    Instr.wf (.mulh 0 0 0 11) = false ∧ Instr.wf (.div 0 0 0 12) = false ∧ Instr.wf (.rem 0 0 0 13) = false ∧
    Instr.wf (.and 0 0 0 14) = false ∧ Instr.wf (.or 0 0 0 15) = false ∧ Instr.wf (.xor 0 0 0 8) = false ∧
    Instr.wf (.shl 0 0 0 8) = false ∧ Instr.wf (.shr 0 0 0 8) = false ∧ Instr.wf (.min 0 0 0 8) = false ∧
    Instr.wf (.max 0 0 0 8) = false ∧ Instr.wf (.cmp 0 0 0 8 0) = false ∧ Instr.wf (.cmp 0 0 0 3 6) = false := by
  decide

theorem test_ill_formed_scalar_words :
    Instr.wf (.qput 4 0) = false ∧ Instr.wf (.qget 0 3 0) = false ∧ Instr.wf (.srd 0 13) = false ∧
    Instr.wf (.swr 0 3) = false ∧ Instr.wf (.mslot 0 0 3) = false ∧ Instr.wf (.ctrr 0 17) = false ∧
    Instr.wf (.ctrr 0 0x10000000) = false ∧ Instr.wf (.ctrr 0 0x10010000) = false ∧
    Instr.wf (.ctrr 0 0x20000002) = false ∧ Instr.wf (.ctrr 0 0x30000000) = false := by decide

theorem test_ill_formed_record_words :
    Instr.wf (.tbind 16 0) = false ∧ Instr.wf (.tunb 16) = false ∧ Instr.wf (.tread 0 16 0) = false ∧
    Instr.wf (.tread 0 0 4) = false ∧ Instr.wf (.tread 0 0 256) = false ∧ Instr.wf (.tver 0 16) = false ∧
    Instr.wf (.tstat 0 16 0) = false ∧ Instr.wf (.tstat 0 0 51) = false ∧ Instr.wf (.tstat 0 0 118) = false ∧
    Instr.wf (.tstat 0 0 182) = false ∧ Instr.wf (.tsync 16) = false ∧ Instr.wf (.tstmp 0 0 16) = false ∧
    Instr.wf (.tring 0 16 0) = false ∧ Instr.wf (.tring 0 0 8) = false := by decide

theorem test_ill_formed_semaphores_and_flow :
    Instr.wf (.semi .c 0 32 1) = false ∧ Instr.wf (.semd .a 0 32 1) = false ∧ Instr.wf (.sems .v 0 32 1) = false ∧
    Instr.wf (.semw .m 0 32 1) = false ∧ Instr.wf (.semiWide .x 0 32 1) = false ∧
    Instr.wf (.semdWide .c 0 32 1) = false ∧ Instr.wf (.semsWide .c 0 32 1) = false ∧
    Instr.wf (.semwWide .c 0 32 1) = false ∧ Instr.wf (.loop 1 0) = false ∧ Instr.wf (.loopq 0) = false ∧
    Instr.wf (.fence 0 1) = false := by decide

theorem test_ill_formed_address_words :
    Instr.wf (.aadd 16 0 0) = false ∧ Instr.wf (.aadd 0 16 0) = false ∧ Instr.wf (.aadd 0 0 26) = false ∧
    Instr.wf (.asub 0 0 23) = false ∧ Instr.wf (.aaddi 16 0 0) = false ∧ Instr.wf (.amuli 0 26 0) = false ∧
    Instr.wf (.ali 24 0) = false ∧ Instr.wf (.aliw 16 0) = false ∧ Instr.wf (.aaddw 0 16 0) = false ∧
    Instr.wf (.hset 16 0 0) = false ∧ Instr.wf (.hsetw 0 8 0) = false ∧ Instr.wf (.hget 0 24 0) = false ∧
    Instr.wf (.hld 16 0 0) = false ∧ Instr.wf (.awin 0 0 0) = false ∧ Instr.wf (.awin 16 0 16) = false := by decide

theorem test_ill_formed_transfers :
    Instr.wf (.ald 24 0 0 0 1 0) = false ∧ Instr.wf (.ald 0 16 0 0 1 0) = false ∧
    Instr.wf (.ald 16 0 16 0 1 0) = false ∧ Instr.wf (.ald 16 0 0 1 0 0) = false ∧
    Instr.wf (.ald 0 0 0 0 1 0) = false ∧ Instr.wf (.aldS 28 0 0 0 1 0) = false ∧
    Instr.wf (.ast 16 0 0 0 1 0) = false ∧ Instr.wf (.ast 0 0 0 1 0 0) = false ∧
    Instr.wf (.cpy 16 0 0 0 0) = false ∧ Instr.wf (.cpy 0 0 1 0 0) = false ∧ Instr.wf (.cpy 0 0 0 1 0) = false ∧
    Instr.wf (.prmt 0 26 0 0 0) = false ∧ Instr.wf (.agth 28 0 26 0) = false ∧ Instr.wf (.agth 29 0 24 0) = false ∧
    Instr.wf (.agth 28 0 0 0) = false := by decide

theorem test_ill_formed_updates :
    Instr.wf (.asca 24 0 24 1 0) = false ∧ Instr.wf (.asca 24 0 24 2 3) = false ∧
    Instr.wf (.asca 26 0 24 2 0) = false ∧ Instr.wf (.asca 24 0 26 2 0) = false ∧
    Instr.wf (.aatm 16 0 0 2 0) = false ∧ Instr.wf (.aatm 0 0 0 0 0) = false ∧ Instr.wf (.aatm 0 0 0 8 3) = false ∧
    Instr.wf (.stu 24 0 8) = false ∧ Instr.wf (.stu 26 16 8) = false ∧ Instr.wf (.reqt 16 0 0 8) = false ∧
    Instr.wf (.reqt 0 0 16 8) = false ∧ Instr.wf (.surv 16 0) = false ∧ Instr.wf (.apf 16 0) = false ∧
    Instr.wf (.apf 0 16) = false := by decide

theorem test_ill_formed_tile_arithmetic :
    Instr.wf (.vadd 16 0 0 8 0 0) = false ∧ Instr.wf (.vadd 0 16 16 8 0 0) = false ∧
    Instr.wf (.vsub 0 18 19 8 0 0) = false ∧ Instr.wf (.vmul 0 0 0 8 4 0) = false ∧
    Instr.wf (.vfma 0 0 0 2 1 0) = false ∧ Instr.wf (.vmin 0 0 0 0 0) = false ∧ Instr.wf (.vmax 0 22 0 8 0) = false ∧
    Instr.wf (.vand 0 0 0 8 0) = false ∧ Instr.wf (.vor 0 0 0 1 0) = false ∧ Instr.wf (.vxor 0 0 0 9 0) = false ∧
    Instr.wf (.vshl 0 0 0 8 0) = false ∧ Instr.wf (.vshr 0 0 0 3 0) = false ∧ Instr.wf (.vrshr 0 0 0 2 4 0) = false ∧
    Instr.wf (.vmac2 0 16 17 0) = false := by decide

theorem test_ill_formed_tile_functions :
    Instr.wf (.vexp2 0 0 2 0) = false ∧ Instr.wf (.vlog2 16 0 8 0) = false ∧ Instr.wf (.vrcp 0 22 8 0) = false ∧
    Instr.wf (.vrsq 0 0 10 0) = false ∧ Instr.wf (.vtanh 0 0 1 0) = false ∧ Instr.wf (.vsig 0 0 0 0) = false ∧
    Instr.wf (.vabs 0 0 6 0) = false ∧ Instr.wf (.vneg 0 0 5 0) = false ∧ Instr.wf (.vnot 0 0 8 0) = false ∧
    Instr.wf (.vpush 7 0 0 8) = false ∧ Instr.wf (.vpush 6 0 0 2) = false ∧ Instr.wf (.vpush 0 16 16 8) = false ∧
    Instr.wf (.vsel 0 0 0 6) = false ∧ Instr.wf (.vcvt 0 0 8 8 0 0) = false ∧ Instr.wf (.vcvt 0 0 0 8 0 0) = false ∧
    Instr.wf (.vcvt 0 0 2 8 4 0) = false := by decide

theorem test_ill_formed_quantisation_and_moves :
    Instr.wf (.vqnt 0 0 0 13 0 0) = false ∧ Instr.wf (.vqnt 0 0 0 8 5 0) = false ∧ Instr.wf (.vqnt 22 0 0 8 0 1) = false ∧
    Instr.wf (.vqnt 0 0 16 8 0 0) = false ∧ Instr.wf (.vdq 0 18 0 0 0) = false ∧ Instr.wf (.vdq 0 0 0 4 0) = false ∧
    Instr.wf (.vrot 0 0 1 0 16) = false ∧ Instr.wf (.vslide 0 0 0 0 3 0) = false ∧ Instr.wf (.vbcast 0 0 1 16) = false ∧
    Instr.wf (.vredSum 0 0 9 0 0) = false ∧ Instr.wf (.vredMax 16 0 8 0 0) = false ∧
    Instr.wf (.vredMin 0 22 8 0 0) = false ∧ Instr.wf (.vredAmax 17 0 0 0) = false ∧ Instr.wf (.vmov 0 0 9 0) = false ∧
    Instr.wf (.vmov 22 0 8 1) = false ∧ Instr.wf (.vli 16 0) = false ∧ Instr.wf (.viota 0 2) = false ∧
    Instr.wf (.vcpr 0 0 2) = false ∧ Instr.wf (.vcpr 23 0 0) = false ∧ Instr.wf (.vpcnt 16) = false := by decide

theorem test_ill_formed_matrix_words :
    Instr.wf (.mzero 4) = false ∧ Instr.wf (.mma 0 8 0 0) = false ∧ Instr.wf (.mma 0 0 0 3) = false ∧
    Instr.wf (.msoft 1 1 0) = false ∧ Instr.wf (.msoft 0 4 0) = false ∧ Instr.wf (.mscale 0 255) = false ∧
    Instr.wf (.mscale 0 0x3F01) = false ∧ Instr.wf (.mscaleC2m 4 0) = false ∧ Instr.wf (.mout 8 0 0 0) = false ∧
    Instr.wf (.mout 0 0 0 5) = false ∧ Instr.wf (.mdrn 4 0 0) = false ∧ Instr.wf (.mdrn 0 127 1) = false ∧
    Instr.wf (.mside 4 0) = false ∧ Instr.wf (.msrst 4) = false ∧ Instr.wf (.mcpy 0 4) = false ∧
    Instr.wf (.madd 4 0) = false := by decide

theorem test_ill_formed_exchange_words :
    Instr.wf (.xcmd 10 0) = false ∧ Instr.wf (.xbind 0 10) = false ∧ Instr.wf (.xput 10 0) = false ∧
    Instr.wf (.xget 10 0) = false ∧ Instr.wf (.xstat 8 0) = false ∧ Instr.wf (.xabort 10) = false ∧
    Instr.wf (.xmov 9 0) = false ∧ Instr.wf (.xmov 0 10) = false ∧ Instr.wf (.xli 8 0) = false ∧
    Instr.wf (.xadd 0 0 10) = false ∧ Instr.wf (.xaddi 10 0 0) = false ∧ Instr.wf (.xliw 8 0) = false := by decide

/-! Reserved words (R30, R92): no neighbour's meaning. -/

theorem test_reserved_words :
    decode 0 0 = none ∧ decode 0x01000001 0 = none ∧ decode 0x12003000 0 = none ∧ decode 0x1F00000B 0 = none ∧
    decode 0x36000000 0 = none ∧ decode 0x4E001200 0 = none ∧ decode 0x50100000 0 = none ∧ decode 0x64048000 0 = none ∧
    decode 0x8B000000 0 = none ∧ decode 0xA4000001 0 = none ∧ decode 0xAE000000 0 = none ∧ decode 0xC1000000 0 = none ∧
    decode 0xE1000000 0 = none := by decide

/-! Decoding (R73 to R110): words with every field at a value of its own, written out from the opcode maps of the
ISA reference; the words of the wide forms from R83, R96, R101, R103, R107 and R110. -/

theorem test_decode_integer :
    decode 0x01B37320 0 = some (.add 22 13 25 9) ∧
    decode 0x02B37320 0 = some (.sub 22 13 25 9) ∧
    decode 0x03B37320 0 = some (.mul 22 13 25 9) ∧
    decode 0x04B37320 0 = some (.mulh 22 13 25 9) ∧
    decode 0x05B37320 0 = some (.div 22 13 25 9) ∧
    decode 0x06B37320 0 = some (.rem 22 13 25 9) ∧
    decode 0x07B37320 0 = some (.and 22 13 25 9) ∧
    decode 0x08B37320 0 = some (.or 22 13 25 9) ∧
    decode 0x09B37320 0 = some (.xor 22 13 25 9) ∧
    decode 0x0AB37320 0 = some (.shl 22 13 25 9) ∧
    decode 0x0BB37320 0 = some (.shr 22 13 25 9) ∧
    decode 0x0CB37320 0 = some (.min 22 13 25 9) ∧
    decode 0x0DB37320 0 = some (.max 22 13 25 9) ∧
    decode 0x0EB3732A 0 = some (.cmp 22 13 25 9 5) := by decide

theorem test_decode_scalar :
    decode 0x0FB37200 0 = some (.sel 22 13 25) ∧
    decode 0x10B35A35 0 = some (.addi 22 13 6709) ∧
    decode 0x11B35A35 0 = some (.andi 22 13 6709) ∧
    decode 0x12B3402D 0 = some (.shli 22 13 45) ∧
    decode 0x12B3502D 0 = some (.shri 22 13 45) ∧
    decode 0x12B3602D 0 = some (.sari 22 13 45) ∧
    decode 0x13B49A35 0 = some (.li 22 301621) ∧
    decode 0x14B35A35 0 = some (.argl 22 13 6709) ∧
    decode 0x150B4000 0 = some (.qput 1 13) ∧
    decode 0x16B04060 0 = some (.qget 22 1 0) ∧
    decode 0x17034000 0 = some (.bset 13) ∧
    decode 0x18034035 0 = some (.gsel 13 53) ∧
    decode 0x19034000 0 = some (.check 13) := by decide

theorem test_decode_semaphores :
    decode 0x1AD4FC35 0 = some (.semi .c 1 679 7221) ∧
    decode 0x3BD4FC35 0 = some (.semd .a 1 679 7221) ∧
    decode 0x5CD4FC35 0 = some (.sems .v 1 679 7221) ∧
    decode 0x7DD4FC35 0 = some (.semw .m 1 679 7221) ∧
    decode 0x9E2D9C35 0 = some (.rep .x 45 39989) ∧
    decode 0x3FB36400 0xC3A59D17 = some (.semiWide .a 1 717 0xC3A59D17) ∧
    decode 0x5FB36C00 0xC3A59D17 = some (.semdWide .v 1 717 0xC3A59D17) ∧
    decode 0x7FB37400 0xC3A59D17 = some (.semsWide .m 1 717 0xC3A59D17) ∧
    decode 0x9FB37C00 0xC3A59D17 = some (.semwWide .x 1 717 0xC3A59D17) := by decide

theorem test_decode_flow :
    decode 0xA1C3A59D 0 = some (.br 12821917) ∧
    decode 0xA2C3A59D 0 = some (.brq 12821917) ∧
    decode 0xA3C3A59D 0 = some (.call 12821917) ∧
    decode 0xA4000000 0 = some .ret ∧
    decode 0xA5C3532D 0 = some (.loop 3125 813) ∧
    decode 0xA6B5C32D 0 = some (.loopq 11911981) ∧
    decode 0xA7000000 0 = some .endl ∧
    decode 0xA8009A35 0 = some (.safe 39477) ∧
    decode 0xA9009A35 0 = some (.safeG 39477) ∧
    decode 0xAA000000 0 = some .resume ∧
    decode 0xAB000009 0 = some (.fence 2 1) ∧
    decode 0xAC000000 0 = some .nop ∧
    decode 0xAD000000 0 = some .endW := by decide

theorem test_decode_addresses :
    decode 0x21B37200 0 = some (.aadd 22 13 25) ∧
    decode 0x22B37200 0 = some (.asub 22 13 25) ∧
    decode 0x23B35A35 0 = some (.aaddi 22 13 6709) ∧
    decode 0x24B35A35 0 = some (.amuli 22 13 6709) ∧
    decode 0x25B49A35 0 = some (.ali 22 301621) ∧
    decode 0x26B34005 0 = some (.hset 22 13 5) ∧
    decode 0x27B34005 0 = some (.hget 22 13 5) ∧
    decode 0x28B35A35 0 = some (.hld 22 13 6709) ∧
    decode 0x29B37200 0 = some (.awin 22 13 25) ∧
    decode 0x3FB00001 0xC3A59D17 = some (.aliw 22 0xC3A59D17) ∧
    decode 0x3FB34002 0xC3A59D17 = some (.aaddw 22 13 0xC3A59D17) ∧
    decode 0x3FB34003 0xC3A59D17 = some (.hsetw 22 13 0xC3A59D17) := by decide

theorem test_decode_access :
    decode 0x2AB37334 0 = some (.ald 22 13 25 9 1 1) ∧
    decode 0x2BB37334 0 = some (.aldS 22 13 25 9 1 1) ∧
    decode 0x2CB37334 0 = some (.ast 22 13 25 9 1 1) ∧
    decode 0x2DB37358 0 = some (.cpy 22 13 25 21 1) ∧
    decode 0x2EB37358 0 = some (.prmt 22 13 25 21 1) ∧
    decode 0x2FB37204 0 = some (.agth 22 13 25 1) ∧
    decode 0x30B37338 0 = some (.asca 22 13 25 9 6) ∧
    decode 0x31B37338 0 = some (.aatm 22 13 25 9 6) ∧
    decode 0x32B34138 0 = some (.stu 22 13 9) ∧
    decode 0x33B37338 0 = some (.reqt 22 13 25 9) ∧
    decode 0x34034001 0 = some (.surv 13 1) ∧
    decode 0x35037200 0 = some (.apf 13 25) := by decide

theorem test_decode_tile_arithmetic :
    decode 0x41B3732D 0 = some (.vadd 22 13 25 9 3 1) ∧
    decode 0x42B3732D 0 = some (.vsub 22 13 25 9 3 1) ∧
    decode 0x43B3732D 0 = some (.vmul 22 13 25 9 3 1) ∧
    decode 0x44B3732D 0 = some (.vfma 22 13 25 9 3 1) ∧
    decode 0x45B37321 0 = some (.vmin 22 13 25 9 1) ∧
    decode 0x46B37321 0 = some (.vmax 22 13 25 9 1) ∧
    decode 0x47B37321 0 = some (.vand 22 13 25 9 1) ∧
    decode 0x48B37321 0 = some (.vor 22 13 25 9 1) ∧
    decode 0x49B37321 0 = some (.vxor 22 13 25 9 1) ∧
    decode 0x4AB37321 0 = some (.vshl 22 13 25 9 1) ∧
    decode 0x4BB37321 0 = some (.vshr 22 13 25 9 1) ∧
    decode 0x4CB3732D 0 = some (.vrshr 22 13 25 9 3 1) ∧
    decode 0x4DB37221 0 = some (.vmac2 22 13 25 1) := by decide

theorem test_decode_tile_functions :
    decode 0x4EB34121 0 = some (.vexp2 22 13 9 1) ∧
    decode 0x4EB34321 0 = some (.vlog2 22 13 9 1) ∧
    decode 0x4EB34521 0 = some (.vrcp 22 13 9 1) ∧
    decode 0x4EB34721 0 = some (.vrsq 22 13 9 1) ∧
    decode 0x4EB34921 0 = some (.vtanh 22 13 9 1) ∧
    decode 0x4EB34B21 0 = some (.vsig 22 13 9 1) ∧
    decode 0x4EB34D21 0 = some (.vabs 22 13 9 1) ∧
    decode 0x4EB34F21 0 = some (.vneg 22 13 9 1) ∧
    decode 0x4EB35121 0 = some (.vnot 22 13 9 1) ∧
    decode 0x4F2B7320 0 = some (.vpush 5 13 25 9) ∧
    decode 0x50000000 0 = some .velse ∧
    decode 0x50080000 0 = some .vpend ∧
    decode 0x51B37320 0 = some (.vsel 22 13 25 9) := by decide

theorem test_decode_tile_moves :
    decode 0x52B3732D 0 = some (.vcvt 22 13 25 9 3 1) ∧
    decode 0x53B3732D 0 = some (.vqnt 22 13 25 9 3 1) ∧
    decode 0x54B3730D 0 = some (.vdq 22 13 25 3 1) ∧
    decode 0x55B3602D 0 = some (.vrot 22 13 1 0 45) ∧
    decode 0x56B3642D 0 = some (.vslide 22 13 1 0 1 45) ∧
    decode 0x57B3602D 0 = some (.vbcast 22 13 1 45) ∧
    decode 0x58B34123 0 = some (.vredSum 22 13 9 1 1) ∧
    decode 0x58B34323 0 = some (.vredMax 22 13 9 1 1) ∧
    decode 0x58B34523 0 = some (.vredMin 22 13 9 1 1) ∧
    decode 0x58B34703 0 = some (.vredAmax 22 13 1 1) ∧
    decode 0x59B34121 0 = some (.vmov 22 13 9 1) ∧
    decode 0x5FB00001 0xC3A59D17 = some (.vli 22 0xC3A59D17) ∧
    decode 0x5FB00002 0xC3A59D17 = some (.viota 22 0xC3A59D17) ∧
    decode 0x5FB34003 0xC3A59D17 = some (.vcpr 22 13 0xC3A59D17) ∧
    decode 0x5FB00004 0x00000000 = some (.vpcnt 22) := by decide

theorem test_decode_matrix :
    decode 0x61B00000 0 = some (.mzero 22) ∧
    decode 0x62B37300 0 = some (.mma 22 13 25 2) ∧
    decode 0x63B37200 0 = some (.msoft 22 13 25) ∧
    decode 0x64B01A35 0 = some (.mscale 22 6709) ∧
    decode 0x64B44000 0 = some (.mscaleC2m 22 1) ∧
    decode 0x65B372C0 0 = some (.mout 22 13 25 3) ∧
    decode 0x66034285 0 = some (.mdrn 13 5 5) ∧
    decode 0x67036000 0 = some (.mside 13 1) ∧
    decode 0x68B00000 0 = some (.msrst 22) ∧
    decode 0x69B34000 0 = some (.mcpy 22 13) ∧
    decode 0x6AB34000 0 = some (.madd 22 13) := by decide

theorem test_decode_exchange :
    decode 0x81035A35 0 = some (.xcmd 13 6709) ∧
    decode 0x82037200 0 = some (.xbind 13 25) ∧
    decode 0x83035A35 0 = some (.xput 13 6709) ∧
    decode 0x84035A35 0 = some (.xget 13 6709) ∧
    decode 0x85B34000 0 = some (.xstat 22 13) ∧
    decode 0x86034000 0 = some (.xabort 13) ∧
    decode 0x87B34000 0 = some (.xmov 22 13) ∧
    decode 0x88B49A35 0 = some (.xli 22 301621) ∧
    decode 0x89B37200 0 = some (.xadd 22 13 25) ∧
    decode 0x8AB35A35 0 = some (.xaddi 22 13 6709) ∧
    decode 0x9FB00001 0xC3A59D17 = some (.xliw 22 0xC3A59D17) := by decide

theorem test_decode_system_words :
    decode 0x1FB34001 0xC3A59D17 = some (.ori 22 13 0xC3A59D17) ∧
    decode 0x1FB34002 0xC3A59D17 = some (.xori 22 13 0xC3A59D17) ∧
    decode 0x1FB34005 0xC3A59D17 = some (.args 22 13 0xC3A59D17) ∧
    decode 0x1FB34009 0xC3A59D17 = some (.mslot 22 13 0xC3A59D17) ∧
    decode 0x1FB00003 0xC3A59D17 = some (.liw 22 0xC3A59D17) ∧
    decode 0x1FB00004 0xC3A59D17 = some (.lih 22 0xC3A59D17) ∧
    decode 0x1FB00006 0xC3A59D17 = some (.srd 22 0xC3A59D17) ∧
    decode 0x1FB0000A 0xC3A59D17 = some (.ctrr 22 0xC3A59D17) ∧
    decode 0x1F034007 0xC3A59D17 = some (.swr 13 0xC3A59D17) ∧
    decode 0x1FB00008 0x00000000 = some (.tick 22) := by decide

theorem test_decode_record_words :
    decode 0x1FB34012 0xC3A59D17 = some (.tread 22 13 0xC3A59D17) ∧
    decode 0x1FB34014 0xC3A59D17 = some (.tstat 22 13 0xC3A59D17) ∧
    decode 0x1FB34016 0xC3A59D17 = some (.tstmp 22 13 0xC3A59D17) ∧
    decode 0x1FB34017 0xC3A59D17 = some (.tring 22 13 0xC3A59D17) ∧
    decode 0x1FB34010 0x00000000 = some (.tbind 22 13) ∧
    decode 0x1FB34013 0x00000000 = some (.tver 22 13) ∧
    decode 0x1FB00011 0x00000000 = some (.tunb 22) ∧
    decode 0x1FB00015 0x00000000 = some (.tsync 22) := by decide

/-! Witnesses: a state and operands that meet the hypotheses of each statement. -/

/-- The placed program's strand on tile core 0, outside every slot and with no text cached, with the strand, memory or machine changed as a test needs. -/
def calm : State := ({ State.reset.withFetchWord 32 0 with psc := 20000 } : State).updCore 0 fun k => { k with text := [] }
def st0 : Strand := Strand.placed (demoLaunch 1) demoJob 0
def withSt (f : Strand → Strand) : State := calm.updStrand 0 f
def atEng (e : Eng) (f : Strand → Strand) : State := { withSt f with focusEng := e }
/-- Bytes put into the mapped page at virtual address 2^44. -/
def withPage (s : State) (off : Nat) (bs : List Byte) : State := { s with mem := s.mem.setBytes (0x200000 + off) bs }

theorem ready_with (e : Eng) (f : Strand → Strand) (len : Nat) (h : (f st0).slipStalled e len = false) :
    (withSt f).ready e len (f st0) := ⟨rfl, h⟩
theorem ready_at (g e : Eng) (f : Strand → Strand) (len : Nat) (h : (f st0).slipStalled e len = false) :
    (atEng g f).ready e len (f st0) := ⟨rfl, h⟩

/-- An answer is a value: a check that evaluates. -/
def isOk {ε α : Type} [DecidableEq α] (r : Except ε α) (v : α) : Bool := match r with | .ok x => decide (x = v) | .error _ => false
theorem eq_of_isOk {ε α : Type} [DecidableEq α] {r : Except ε α} {v : α} (h : isOk r v = true) : r = .ok v := by
  cases r <;> simp_all [isOk]
def succeeds {ε α : Type} (r : Except ε α) : Bool := match r with | .ok _ => true | .error _ => false
def okAnd {ε α : Type} (r : Except ε α) (p : α → Bool) : Bool := match r with | .ok x => p x | .error _ => false
theorem ok_and {ε α : Type} {r : Except ε α} {p : α → Bool} (h : okAnd r p = true) : ∃ v, r = .ok v ∧ p v = true := by
  cases r <;> simp_all [okAnd]
/-- The answer's second part is a value. -/
def gives {ε α β : Type} [DecidableEq β] (r : Except ε (α × β)) (v : β) : Bool := okAnd r fun x => decide (x.2 = v)
theorem ok_of_gives {ε α β : Type} [DecidableEq β] {r : Except ε (α × β)} {v : β} (h : gives r v = true) : ∃ a, r = .ok (a, v) := by
  obtain ⟨⟨a, b⟩, h1, h2⟩ := ok_and h
  exact ⟨a, by simp_all⟩
theorem ok_of_succeeds {ε α : Type} {r : Except ε α} (h : succeeds r = true) : ∃ v, r = .ok v := by
  cases r <;> simp_all [succeeds]

theorem test_witness_StepRunsDecoded :
    let s := State.reset.withFetchWord 32 0x01198E60
    let now := { advance { s with agenda := [] } 0 with focusTile := 0, focusEng := .c }
    s.agenda = [⟨0, .engine 0 .c⟩] ∧ now.strand 0 = some st0 ∧ st0.c.ended = false ∧ st0.halted = false ∧ st0.dead54 = false ∧
      st0.c.holding = false ∧ st0.spdist.toNat ≤ st0.splim.toNat ∧ st0.c.pc + wordLen 0x01198E60 ≤ st0.textLen ∧
      (∃ s1, textWord now 0 st0 .c st0.c.pos st0.c.pc = .ok (s1, 0x01198E60)) ∧ isWide 0x01198E60 = false ∧
      (Fields.ofWord 0x01198E60).tag = Eng.tag .c ∧ st0.c.rep = none ∧ decode 0x01198E60 0 = some (.add 3 6 7 3) :=
  ⟨rfl, rfl, rfl, rfl, rfl, rfl, by decide, by decide, ok_of_gives (by decide +kernel), by decide, by decide, rfl, by decide⟩

theorem test_witness_StepRunsDecoded_wide :
    let s := State.reset.withFetchWord 64 0x123456781F380003
    let now := { advance { s with agenda := [] } 0 with focusTile := 0, focusEng := .c }
    now.strand 0 = some st0 ∧ isWide 0x1F380003 = true ∧ decode 0x1F380003 0x12345678 = some (.liw 7 0x12345678) ∧
      okAnd (textWord now 0 st0 .c st0.c.pos 0) (fun x => decide (x.2 = 0x1F380003) &&
        gives (textWord x.1 0 st0 .c (st0.c.pos + 1) 1) 0x12345678) = true :=
  ⟨rfl, by decide, by decide, by decide +kernel⟩

theorem test_witness_OtherEnginesWordSteppedOver :
    let s := { State.reset.withFetchWord 32 0x4D10C220 with agenda := [⟨0, .engine 0 .c⟩] }
    let now := { advance { s with agenda := [] } 0 with focusTile := 0, focusEng := .c }
    now.strand 0 = some st0 ∧ (∃ s1, textWord now 0 st0 .c st0.c.pos 0 = .ok (s1, 0x4D10C220)) ∧ isWide 0x4D10C220 = false ∧
      (Fields.ofWord 0x4D10C220).tag = 2 ∧ (∀ i, decode 0x4D10C220 0 = some i → windowsOf i = []) ∧ st0.slipStalled .c 1 = false := by
  refine ⟨rfl, ok_of_gives (by decide +kernel), by decide, by decide, ?_, by decide⟩
  intro i h
  have h2 : decode 0x4D10C220 0 = some (.vmac2 2 3 1 0) := by decide
  rw [h2] at h; cases h; decide

theorem test_witness_SlipWindowStalls :
    let f := fun (q : Strand) => q.updEng .c fun g => { g with steps := 256 }
    encode (.li 5 4) = some (0x13280004, none) ∧ (Fields.ofWord 0x13280004).tag = Eng.tag .c ∧
      (withSt f).strand 0 = some (f st0) ∧ (f st0).slipStalled .c 1 = true ∧ (f st0).c.rep = none ∧
      (f st0).a.ended = false ∧ (f st0).a.steps.toNat = 0 := ⟨by decide, by decide, rfl, by decide, rfl, rfl, rfl⟩

theorem test_witness_FaultsTaken : calm.launch? 1 = some (demoLaunch 1) ∧ calm.strand 0 = some st0 ∧ st0.handle = 1 := ⟨rfl, rfl, rfl⟩

theorem test_witness_StepKeepsMemory : State.reset.memWf := ⟨rfl, fun t => by
  have h : (State.reset.core t).spad = {} := by simp [State.reset, State.core]
  rw [h]; rfl⟩

theorem test_witness_control : calm.ready .c 1 st0 ∧ calm.ready .c 2 st0 ∧ (7 : BitVec 4).toNat < 8 ∧ calm.launch? st0.handle = some (demoLaunch 1) ∧
    (st0.x? 5).poison = false := ⟨⟨rfl, by decide⟩, ⟨rfl, by decide⟩, by decide, rfl, rfl⟩

theorem test_witness_CheckWord : let f := fun (q : Strand) => q.setX 5 ⟨0, true⟩
    (withSt f).ready .c 1 (f st0) ∧ ((f st0).x? 5).poison = true ∧ ((f st0).x? 6).poison = false :=
  ⟨ready_with .c _ 1 (by decide), by decide, by decide⟩

/-- The greatest argument index, and the argument word at the placed program's argument base. -/
theorem test_witness_ArgumentReads :
    ((st0.x? 0).val.toInt + 0 < 2 ^ 24 ∧ 0 ≤ (st0.x? 0).val.toInt + 0) ∧ st0.argbase.toNat % 8 = 0 ∧ Config.spadBytes ≤ 2 ^ 44 ∧
      ∃ v, elemRead calm 0 st0 .c st0.c.slotmode (2 ^ 44) 8 = .ok v := ⟨by decide, by decide, by decide, ok_of_succeeds (by decide +kernel)⟩

theorem test_witness_QueuePushesAndPops :
    let f := fun (q : Strand) => { q with a2c := [{ val := ⟨7, false⟩ }], c2a := List.replicate 8 { val := ⟨1, false⟩ }, v := { q.v with ended := true } }
    (withSt f).ready .c 1 (f st0) ∧ (f st0).a2c = [{ val := ⟨7, false⟩ }] ∧ 8 ≤ (f st0).c2a.length ∧ (f st0).v.ended = true ∧
      (∀ e, ((f st0).eng e).ended = false → ((f st0).eng e).outcomes.length < 8) ∧
      (∃ e, ((({ f st0 with a := { st0.a with outcomes := List.replicate 8 0 } } : Strand)).eng e).ended = false ∧
        8 ≤ ((({ f st0 with a := { st0.a with outcomes := List.replicate 8 0 } } : Strand)).eng e).outcomes.length) :=
  ⟨ready_with .c _ 1 (by decide), rfl, by decide, rfl, fun e => by cases e <;> decide, .a, by decide⟩

/-- The boundary values of `win`, and of `sbase` and `slim`. -/
theorem test_witness_SystemRegisters : calm.ready .c 2 st0 ∧ (16 ≤ (16 : DWord).toNat ∧ (1024 : DWord).toNat ≤ 1024) ∧
    (let f := fun (q : Strand) => q.setX 5 ⟨0x200000, false⟩
     (withSt f).ready .c 2 (f st0) ∧ ((f st0).x? 5).val.toNat ≤ (f st0).c.slim.toNat ∧ (f st0).c.sbase.toNat ≤ ((f st0).x? 5).val.toNat ∧
       (f st0).c.depth.toNat ≤ 16 ∧ ((f st0).x? 5).val.toNat % 16 = 0) :=
  ⟨⟨rfl, by decide⟩, by decide, ready_with .c _ 2 (by decide), by decide, by decide, by decide, by decide⟩

theorem test_witness_TimeAndCounters : calm.ready .c 2 st0 ∧ st0.lastTick ≠ some calm.psc ∧ st0.splits = 0 ∧ (st0.x? 5).poison = false ∧ (2 ^ 63 : Nat) + 32768 < 2 ^ 64 :=
  ⟨⟨rfl, by decide⟩, by decide, rfl, rfl, by decide⟩

/-- A job whose records, counters, policies and save area lie in the mapped page. -/
def job1 : Job := { demoJob with rtbase := 2 ^ 44 + 0x1000, rtsize := 4, ctbase := 2 ^ 44 + 0x2000, nc := 8, pobase := 2 ^ 44 + 0x3000 }
/-- A record of 1,024 BF16 elements at 0x8000 of the page: one live ring entry, its stamps at 0x5000, its master at 0x9000. -/
def recordBytes : List Byte := bytesOfNat 8 0 ++ bytesOfNat 8 (2 ^ 44 + 0x8000) ++ bytesOfNat 8 1024 ++ bytesOfNat 8 (2 ^ 44 + 0x9000) ++ bytesOfNat 8 0 ++
  bytesOfNat 8 (2 ^ 44 + 0x5000) ++ bytesOfNat 8 (ringEntry .bf16 0 1)
def recorded (f : Strand → Strand) : State := { withPage (withSt f) 0x1000 recordBytes with jobs := [job1] }
def slot5 (q : Strand) : Strand := { q with slots := q.slots.set 5 (some 0) }

theorem test_witness_RecordWords : let s := recorded slot5; let st := slot5 st0
    s.ready .c 2 st ∧ s.job? st.job = some job1 ∧ st.slots.get 5 = some 0 ∧ st.slots.get 4 = none ∧
      okAnd (recordRequest s 0 st job1 0 0x10) (fun s1 => isOk (cacheWord s1 0 job1 (recAddr job1 0 + 0x10)) 1024) = true ∧
      okAnd (recordRequest s 0 st job1 0 0x30) (fun s1 => isOk (ringAt s1 0 job1 0 0) (ringEntry .bf16 0 1) &&
        succeeds (pinRecord s1 0 st 0) && decide (s1.pending = [] ∧ s1.job? st.job = some job1) &&
        decide (pinOf s st 0 = none) && isOk (ringAt s 0 job1 0 0) (ringEntry .bf16 0 1) && okAnd (recordWords s 0 job1 0) (fun ws => decide (st.x? 5 = ⟨0, false⟩ ∧ 0 < bits (ws.getD 2 0) 39 0) &&
          okAnd (homeRequest s1 0 st job1 (bits (ws.getD 5 0) 55 0) 1) (fun s2 =>
            isOk (stampByte s2 0 job1 (bits (ws.getD 5 0) 55 0)) 0 && isOk (inRing s2 0 job1 0 0 8) false))) = true :=
  ⟨⟨rfl, by decide⟩, rfl, rfl, rfl, by decide +kernel, by decide +kernel⟩

theorem test_witness_Semaphores : (∀ e : Eng, calm.ready e 1 st0 ∧ calm.ready e 2 st0 ∧ (st0.eng e).woken = none) ∧ calm.pending = [] ∧
    (31 : BitVec 10).toNat < 32 ∧ ¬ (32 : BitVec 10).toNat < 32 ∧ (semValue calm 0 st0 false 31).toNat = 0 :=
  ⟨fun e => by cases e <;> exact ⟨⟨rfl, by decide⟩, ⟨rfl, by decide⟩, rfl⟩, rfl, by decide, by decide, by decide⟩

/-! Flow. -/

/-- A text of 64 words whose table holds entry 0: a SAFE point without a stub. -/
def short (q : Strand) : Strand := { q with textLen := 64 }
def tabled (f : Strand → Strand) (g : Nat) : State :=
  withPage (withSt f) 256 (bytesOfNat 16 1 ++ bytesOfNat 16 (0xFFFFFFFF * 2 ^ 32 + g * 2 ^ 23))
def loopText (f : Strand → Strand) : State := withPage (withSt f) 8 (bytesOfWord 0xA7000000)

theorem test_witness_Branches : (∀ e : Eng, (atEng e short).ready e 1 (short st0)) ∧
    (0 ≤ (0 : Int) + (63 : BitVec 24).toInt ∧ (0 : Int) + (63 : BitVec 24).toInt < 64) ∧ ¬ ((0 : Int) + (64 : BitVec 24).toInt < 64) ∧
    ¬ (0 ≤ (0 : Int) + (0xFFFFFF : BitVec 24).toInt) ∧
    (∃ t, pushFrame (atEng .v short) 0 (short st0) .v ⟨false, 0, 1⟩ = .ok t) ∧
    (let f := fun (q : Strand) => { short q with c := { q.c with frames := [⟨false, 0, 63⟩], depth := 1, outcomes := [1] } }
     (atEng .c f).ready .c 1 (f st0) ∧ (63 : Word).toNat < (f st0).textLen ∧ ∃ t, popFrame (atEng .c f) 0 (f st0) .c = .ok t) :=
  ⟨fun e => by cases e <;> exact ready_at _ _ short 1 (by decide), by decide, by decide, by decide, ⟨_, rfl⟩,
    ready_at .c .c _ 1 (by decide), by decide, ⟨_, rfl⟩⟩

/-- A loop body of one word and its ENDL; a stack of 17 frames whose oldest lies in scratchpad, its slot ending at `slim`. -/
theorem test_witness_LoopsAndReturnStack :
    (∀ e : Eng, ({ loopText short with focusEng := e } : State).ready e 1 (short st0)) ∧
    (0 < 2 ∧ 0 + 2 + 1 < (short st0).textLen ∧ ∀ e : Eng, ∃ s1, aheadWord (loopText short) 0 (short st0) e 0 (0 + 2) = .ok (s1, 0xA7000000)) ∧
    ((short st0).textLen ≤ 0 + 64) ∧
    (let g := fun (q : Strand) => { q with c := { q.c with frames := List.replicate 16 ⟨true, 5, 3⟩, depth := 16, sbase := 0x1FFFF0 } }
     (g st0).c.frames = List.replicate 15 ⟨true, 5, 3⟩ ++ [⟨true, 5, 3⟩] ∧
       (g st0).c.sbase.toNat + 16 * ((g st0).c.depth.toNat + 1 - 17) + 16 ≤ (g st0).c.slim.toNat ∧ (withSt g).strand 0 = some (g st0)) ∧
    (let g := fun (q : Strand) => { q with c := { q.c with depth := 17, sbase := 0 } }
     let s := (withSt g).spadStore 0 0 (Frame.bytes ⟨true, 5, 3⟩) false
     let r := spadRead s 0 .c 0 8
     let q := spadRead r.1 0 .c 8 8
     r.2.2 = false ∧ q.2.2 = false ∧ r.2.1 ++ q.2.1 = Frame.bytes ⟨true, 5, 3⟩) :=
  ⟨fun e => ⟨rfl, by cases e <;> decide⟩, ⟨by decide, by decide, fun e => ok_of_gives (by cases e <;> decide +kernel)⟩, by decide,
    ⟨rfl, by decide, rfl⟩, by decide +kernel⟩

theorem test_witness_SafePointsPassed : (∀ e : Eng, ({ tabled short 0 with focusEng := e } : State).ready e 1 (short st0)) ∧
    (short st0).rebuild = none ∧ (short st0).stop = none ∧ (∀ e : Eng, okAnd (safeEntry (tabled short 0) 0 (short st0) e 0) (fun r => !r.2.g) = true ∧
      okAnd (safeEntry (tabled short 1) 0 (short st0) e 0) (fun r => r.2.g) = true) ∧
    (let f := fun (q : Strand) => { short q with a := { q.a with safes := 1 }, v := { q.v with safes := 1 }, m := { q.m with safes := 1 }, x := { q.x with safes := 1 } }
     ∀ k, k ≠ Eng.c → (f st0).c.safes < ((f st0).eng k).safes) :=
  ⟨fun e => ⟨rfl, by cases e <;> decide⟩, rfl, rfl, fun e => by cases e <;> exact ⟨by decide +kernel, by decide +kernel⟩,
    fun k => by cases k <;> decide⟩

/-- A store of the access engine of tile core 0, not applied yet. -/
def store0 : Pending := { id := 0, agent := st0.agent 0 1, clock := VClock.zero, carried := {}, addr := 0x200040, bytes := [1], poison := false
                          key := 0, nc := false, wid := none }

theorem test_witness_FencesAndEnd : (∀ e : Eng, (atEng e id).ready e 1 st0) ∧ st0.rebuild = none ∧
    (∃ t, fenceRelease (atEng .a id) 0 .a .system = .ok t) ∧
    (let s := { atEng .a id with pending := [store0] }; fenceRelease s 0 .a .system = .error (.wait .writes)) :=
  ⟨fun e => by cases e <;> exact ready_at _ _ id 1 (by decide), rfl, ⟨_, rfl⟩, rfl⟩

/-- All engines but one wait at RESUME; an engine within a repetition, at a strand-wide word and at the end of the text. -/
theorem test_witness_ResumeAndRep :
    (let f := fun (q : Strand) => { (q.allEngs fun g => { g with wait := some .resume }) with rebuild := some ⟨0, 0, 9⟩ }
     (atEng .c f).ready .c 1 (f st0) ∧ (∀ k, k ≠ Eng.c → ((f st0).eng k).wait = some .resume) ∧ (f st0).c.depth = 0 ∧
       (f st0).pred.length = 0 ∧ (f st0).queuesEmpty = true) ∧ st0.v.rep = none ∧
    (let f := fun (q : Strand) => { short q with v := { q.v with rep := some { first := 0, n := 1, left := 2 } } }
     let s0 := { withPage (withSt f) 0 (bytesOfWord 0xA2FFFFFB) with agenda := [⟨0, .engine 0 .v⟩] }
     let s := { advance { s0 with agenda := [] } 0 with focusTile := 0, focusEng := .v }
     s.ready .v 1 (f st0) ∧ (f st0).v.rep ≠ none ∧ (f st0).v.pc < (f st0).textLen ∧ (f st0).spdist.toNat ≤ (f st0).splim.toNat ∧
       (∃ s1, textWord s 0 (f st0) .v (f st0).v.pos 0 = .ok (s1, 0xA2FFFFFB)) ∧ (Fields.ofWord 0xA2FFFFFB).tag = 5) ∧
    (let f := fun (q : Strand) => { short q with v := { q.v with pc := 64, rep := some { first := 0, n := 65, left := 1 } } }
     (withSt f).ready .v 1 (f st0) ∧ (f st0).textLen ≤ (f st0).v.pc) :=
  ⟨⟨ready_at .c .c _ 1 (by decide), fun k _ => by cases k <;> rfl, rfl, rfl, rfl⟩, rfl,
    ⟨⟨rfl, by decide⟩, by decide, by decide, by decide, ok_of_gives (by decide +kernel), by decide⟩, ready_with .v _ 1 (by decide), by decide⟩

/-! The access engine. -/

/-- An entry of a queue of words. -/
def entry (n : DWord) : Queued PWord := { val := ⟨n, false⟩ }

/-- An address register, and a shape of one element. -/
def addressed (a : DWord) (q : Strand) : Strand := { q with addrs := q.addrs.set 3 ⟨a, false⟩, c2a := [entry 7, entry 9] }
def scratched (f : Strand → Strand) : State := (withSt f).spadStore 0 0x100 ((List.range 64).map fun i => BitVec.ofNat 8 (7 * i + 3)) false

theorem test_witness_AddressAndShapeWords : let f := addressed 0x1000
    (withSt f).ready .a 1 (f st0) ∧ (f st0).a.latch = none ∧ (withSt f).ready .a 2 (f st0) ∧ srcA (f st0) 3 = .ok (⟨0x1000, false⟩, f st0) ∧
      srcA (f st0) 24 = .ok (⟨7, false⟩, { (f st0).took .a [entry 7] with c2a := [entry 9] }) ∧
      ((2 ^ 32 - 1 : DWord).toNat < 2 ^ 32 ∧ (2 ^ 47 - 1 : DWord).toInt < 2 ^ 47 ∧ ¬ (2 ^ 47 : DWord).toInt < 2 ^ 47) ∧
      (((0x1000 : Int) + (8 : BitVec 14).toInt) % 16 ≠ 0 ∧ (0 : Int) + (0x3FF0 : BitVec 14).toInt < 0) ∧
      (0x1000 % 16 = 0 ∧ 0x1000 + 48 ≤ Config.spadBytes ∧
        (match gatherWords 0 ⟨0x1000, false⟩ 6 ((withSt f).setStrand 0 { f st0 with a := { (f st0).a with latch := some { addr := ⟨0x1000, false⟩ } } }) with
          | .done s1 => (match (s1.strand 0).bind fun q => q.a.latch with
            | some l => l.buf.any Prod.snd == false && (shapeOfBytes (l.buf.map Prod.fst)).isSome
            | none => false)
          | _ => false) = true) ∧
      (0x1000 % 64 = 0 ∧ (windowOfShape 0x1000 (st0.shapes.get 0)).isSome = true ∧ windowWait (f st0) .a [0] = .ok ()) :=
  ⟨⟨rfl, by decide⟩, rfl, ⟨rfl, by decide⟩, rfl, rfl, by decide, by decide, ⟨by decide, by decide, by decide +kernel⟩,
    by decide, by decide, rfl⟩

/-- A whole load, its requests all read. -/
def loads (d : Code) (sz : BitVec 2) (lim : Nat) (s : State) (st : Strand) : Bool :=
  okAnd (loadStart d 3 0 0 0 sz s 0 st) fun r =>
    let g := { r.1 with a := { r.1.a with latch := some r.2, progress := 0 } }
    let h := r.1.shapes.get 0
    let e := readRun 0 g false (requests h r.2.addr.val.toNat (2 ^ sz.toNat) none lim).2 h.count 0 [] (s.setStrand 0 g)
    e.2.2.2.isNone && r.2.mx.isNone && r.2.buf.isEmpty && decide (0 < h.count)

/-- The last element of scratchpad. -/
theorem test_witness_LoadsAndStores : let f := addressed 0x1FFFF8
    (scratched f).ready .a 1 (f st0) ∧ (f st0).a.latch = none ∧ srcA (f st0) 3 = .ok (⟨0x1FFFF8, false⟩, f st0) ∧
      (0x1FFFF8 : Nat) % 2 ^ 3 = 0 ∧ 0x1FFFF8 + 2 ^ 3 ≤ Config.spadBytes ∧ singleElement ((f st0).shapes.get 0) ∧
      loads 5 2 0 (scratched f) (f st0) = true ∧ (f st0).c.ended = false ∧ (f st0).a2c.length < 8 :=
  ⟨⟨rfl, by decide⟩, rfl, rfl, by decide, by decide, fun k hk => by
    have : k = 0 ∨ k = 1 ∨ k = 2 ∨ k = 3 := by omega
    rcases this with rfl | rfl | rfl | rfl <;> decide, by decide +kernel, rfl, by decide⟩

theorem test_witness_QueueLoadsAndStores : let f := addressed 0x100
    (scratched f).ready .a 1 (f st0) ∧ loads 29 2 512 (scratched f) (f st0) = true ∧ (f st0).v.ended = false ∧ (f st0).a2v.length < 16 ∧
      okAnd (storeStart 24 3 0 0 0 2 (scratched f) 0 (f st0)) (fun s1 => match (s1.strand 0).bind fun q => q.a.latch with
        | some l =>
          let q := requests ((f st0).shapes.get 0) l.addr.val.toNat 4 none 512
          (match storeGo 0 24 4 q.1 q.2 (3 * q.1 + 4) s1 with | .done _ => true | _ => false)
        | none => false) = true :=
  ⟨⟨rfl, by decide⟩, by decide +kernel, rfl, by decide, by decide +kernel⟩

/-- Shapes 2 and 3 of 64 bytes, stride 1. -/
def copying (q : Strand) : Strand :=
  let h : Shape := { ext := #v[64, 1, 1, 1], stride := #v[1, 0, 0, 0] }
  { addressed 0x100 q with shapes := (q.shapes.set 2 h).set 3 h, addrs := (q.addrs.set 3 ⟨0x100, false⟩).set 4 ⟨0x400, false⟩ }
def copy1 : Async :=
  { permute := false, src := 0x100, dst := 0x400, srcShape := { ext := #v[64, 1, 1, 1], stride := #v[1, 0, 0, 0] },
    dstShape := { ext := #v[64, 1, 1, 1], stride := #v[1, 0, 0, 0] }, sem := some 3, seq := 0, clock := VClock.zero }

/-- Whether a copy is held (true) or faults (false) on its way. -/
def copyHalts (s : State) (st : Strand) (x : Async) : Option Bool :=
  match (copyUnits 0 st (x.units.zipIdx.map fun u => (u.2, u.1)) x s).2.2 with
  | some (.wait (.held _)) => some true
  | some (.fault _) => some false
  | _ => none

theorem test_witness_CopiesIssueAndComplete : let f := copying
    (scratched f).ready .a 1 (f st0) ∧ srcA (f st0) 3 = .ok (⟨0x100, false⟩, f st0) ∧ srcA (f st0) 4 = .ok (⟨0x400, false⟩, f st0) ∧
      ((f st0).shapes.get 2).count = 64 ∧ ((f st0).shapes.get 2).st 0 = 1 ∧ checkTraversal ((f st0).shapes.get 2) 0x100 1 = .ok () ∧
      (∃ t, release (scratched f) 0 .a .package = .ok t) ∧ isLocal 0x100 = true ∧
      (let g := fun (q : Strand) => { q with asyncs := [copy1] }
       let s := scratched g
       copyAt s 0 0 = some (g st0, copy1) ∧ (g st0).dead54 = false ∧
         (match (copyUnits 0 (g st0) (copy1.units.zipIdx.map fun u => (u.2, u.1)) copy1 s).2.2 with | none => true | some _ => false) = true ∧
         s.canRaise (dieOf 0) = true ∧ copyHalts { s with psc := 0 } (g st0) { copy1 with dst := 2 ^ 44 + 0x400 } = some true ∧
         copyHalts s (g st0) { copy1 with dst := 2 ^ 46 } = some false ∧
         okAnd (copyRead 0 (g st0) copy1 ((List.range 64).map (0x100 + ·)) s {}) (fun r =>
           succeeds (partRun r.1 0 (g st0) 8 0x400 r.2.2 (some ((g st0).wid 6 0)))) = true) :=
  ⟨⟨rfl, by decide⟩, rfl, rfl, by decide, by decide, eq_of_isOk (by decide +kernel), ⟨_, rfl⟩, by decide,
    rfl, rfl, by decide +kernel, by decide +kernel, by decide +kernel, by decide +kernel, by decide +kernel⟩

theorem test_witness_GatherScatterAtomic : let f := addressed 0x100
    (scratched f).ready .a 1 (f st0) ∧ (f st0).addrs.get 3 = ⟨0x100, false⟩ ∧ (f st0).c2a = [entry 7, entry 9] ∧
      (0x100 + 7 * 4) % 4 = 0 ∧ 0x100 + 7 * 4 + 4 ≤ Config.spadBytes ∧ (f st0).c.ended = false ∧ (f st0).a2c.length < 8 ∧ (f st0).a.latch = none :=
  ⟨⟨rfl, by decide⟩, rfl, rfl, by decide, by decide, rfl, by decide, rfl⟩

/-! The update stage, the vector engine and the matrix engine. -/

/-- An update of one element: momentum at 0xC000 of the page, nearest rounding, no variance. -/
def updateBytes : List Byte := bytesOfNat 64 ((2 ^ 44 + 0xC000) * 2 ^ 128 + 0x3F800000 * 2 ^ 288)
def aRow : Row := { lanes := Vector.replicate 64 0x3F800000 }
def updating (q : Strand) : Strand :=
  { slot5 (addressed 0x100 q) with v2a := [{ val := aRow }], addrs := (q.addrs.set 3 ⟨0x100, false⟩).set 4 ⟨0, false⟩ }
def staged : State := (recorded updating).spadStore 0 0x100 updateBytes false

/-- STU and REQT, all their elements. -/
def stuGoes (s : State) (st : Strand) (d a : Code) (tc : BitVec 4) : Bool :=
  okAnd (stuStart d a tc s 0 st) fun s1 => match (s1.strand 0).bind fun q => q.a.latch with
    | some l => match updateDesc (natOfBytes (l.buf.map Prod.fst)) with
      | some u => decide (u.n = 1) && (match elements 0 u.n (stuElem 0 u) 65 s1 with | .done _ => true | _ => false)
      | none => false
    | none => false
def reqtGoes (s : State) (st : Strand) (d a b : Code) (tc : BitVec 4) (h : Shape) : Bool :=
  okAnd (reqtStart d a b tc s 0 st) fun s1 =>
    decide (0 < h.count) && (match elements 0 h.count (reqtElem 0 h) (h.count + 1) s1 with | .done _ => true | _ => false)

theorem test_witness_StageWords : staged.ready .a 1 (updating st0) ∧ (updating st0).a.latch = none ∧ stuGoes staged (updating st0) 26 3 5 = true ∧
    reqtGoes staged (updating st0) 4 4 2 5 ((updating st0).shapes.get 2) = true ∧ ((updating st0).shapes.get 2).st 0 ≠ 1 ∧
    ((copying st0).shapes.get 2).st 0 = 1 :=
  ⟨⟨rfl, by decide⟩, rfl, by decide +kernel, by decide +kernel, by decide, by decide⟩

/-- A node with one out-edge, whose batches have room. -/
def batch1 (held : Nat) : Batches :=
  { edge := 0, source := 0, target := 1, bsize := 4, area := 2 ^ 44, cap := 16384, die := 0,
    store := List.replicate held (7, 0, [], false, {}) }
def graph1 (held : Nat) : Graph :=
  { handle := 9, job := 1, queue := 0, counter := 0, base := 2 ^ 44, phase := 0, images := [], edges := [0x0001000000000000], batches := [batch1 held] }
def noded (held : Nat) : State :=
  { scratched (addressed 0x100) with launches := [{ demoLaunch 1 with node := some (9, 0) }], graphs := [graph1 held] }

theorem test_witness_Surv : let s := noded 0; let l := { demoLaunch 1 with node := some (9, 0) }
    s.launch? st0.handle = some l ∧ l.node = some (9, 0) ∧ s.graph? 9 = some (graph1 0) ∧ outEdge (graph1 0) 0 (0 : BitVec 4).toNat = some 0 ∧
      ((graph1 0).batches.find? fun c => c.edge == 0) = some (batch1 0) ∧ srcA (addressed 0x100 st0) 3 = .ok (⟨0x100, false⟩, addressed 0x100 st0) ∧
      0x100 % 32 = 0 ∧ 0x101 % 32 ≠ 0 ∧ (batch1 0).started * 4 + 0 + 0 < 16384 * 4 ∧ compactorLoad s 0 < 8192 ∧ 8192 ≤ compactorLoad (noded 8192) 0 ∧ st0.det = false ∧
      (∃ t, release (s.setStrand 0 (addressed 0x100 st0)) 0 .a .package = .ok t) :=
  ⟨rfl, rfl, rfl, by decide, by decide, rfl, by decide, by decide, by decide, by decide +kernel, by decide +kernel, rfl, ⟨_, rfl⟩⟩

def fed (q : Strand) : Strand :=
  { q with a2v := List.replicate 16 { val := aRow }, m2v := List.replicate 16 { val := aRow }, c2v := [{ val := ⟨7, true⟩ }], c2m := [entry 0], pred := [2 ^ 1023] }

theorem test_witness_VectorOperandsAndWrites : let st := fed st0; let es : List (Queued Row) := List.replicate 16 { val := aRow }
    es.length = 16 ∧ st.a2v = es ++ [] ∧ st.m2v = es ++ [] ∧ st.c2v = [{ val := ⟨7, true⟩ }] ∧ st0.a2v.length < 16 ∧ st0.m2v.length < 16 ∧
      st0.c2v = [] ∧ (15 : Code).toNat < 16 ∧ 22 ≤ (22 : Code).toNat ∧
      st.writes 1 15 63 = true ∧ st.writes 1 15 62 = false ∧ st.pred = [2 ^ 1023] :=
  ⟨rfl, rfl, rfl, rfl, by decide, by decide, rfl, by decide, by decide, by decide +kernel, by decide +kernel, rfl⟩

theorem test_witness_VectorArithmetic : calm.ready .v 1 st0 ∧ srcV2 st0 1 2 = .ok (st0.tiles.get 1, st0.tiles.get 2, st0) ∧
    vecFmt 8 = some .fp32 ∧ vecFmt 9 = some .bf16 ∧ (∀ r : BitVec 3, r.toNat < 4 → ∃ rm, Rm.ofBits r = some rm ∧ rm ≠ .rs) :=
  ⟨⟨rfl, by decide⟩, rfl, rfl, rfl, by decide⟩

theorem test_witness_VectorFunctions : calm.ready .v 1 st0 ∧ (21 : Code).toNat < 22 ∧
    srcV (fed st0) 21 = .ok (Vector.replicate 16 { lanes := Vector.replicate 64 7, poison := true }, (fed st0).took .v [({ val := ⟨7, true⟩ } : Queued PWord)]) :=
  ⟨⟨rfl, by decide⟩, by decide, rfl⟩

theorem test_witness_PredicateStack : calm.ready .v 1 st0 ∧ st0.pred = [] ∧ (withSt fed).ready .v 1 (fed st0) ∧ (fed st0).pred = [2 ^ 1023] ∧
    srcV2 st0 1 2 = .ok (st0.tiles.get 1, st0.tiles.get 2, st0) ∧ (∀ r, r < 16 → ((st0.tiles.get 1).row r).poison = false) ∧
    (let f := fun (q : Strand) => { q with pred := List.replicate 8 1, tiles := q.tiles.set 1 (Vector.replicate 16 { aRow with poison := true }) }
     (withSt f).ready .v 1 (f st0) ∧ 8 ≤ (f st0).pred.length ∧ (((f st0).tiles.get 1).row 0).poison = true) :=
  ⟨⟨rfl, by decide⟩, rfl, ⟨rfl, by decide⟩, rfl, rfl, by decide +kernel, ⟨rfl, by decide⟩, by decide, rfl⟩

theorem test_witness_VectorMoves : calm.ready .v 1 st0 ∧ calm.ready .v 2 st0 ∧ srcV2 st0 1 2 = .ok (st0.tiles.get 1, st0.tiles.get 2, st0) ∧
    srcV st0 1 = .ok (st0.tiles.get 1, st0) ∧ st0.a.ended = false ∧ st0.v2a = [] ∧ st0.c.ended = false ∧ st0.v2c.length < 8 ∧
    (15 : BitVec 6).toNat < 16 ∧ 16 ≤ (16 : BitVec 6).toNat ∧ 2 ≤ (2 : Word).toNat :=
  ⟨⟨rfl, by decide⟩, ⟨rfl, by decide⟩, rfl, rfl, rfl, rfl, rfl, by decide, by decide, by decide, by decide⟩

theorem test_witness_VectorReductions : (withSt fed).ready .v 1 (fed st0) ∧ (withSt fed).ready .v 2 (fed st0) ∧
    srcV (fed st0) 1 = .ok (st0.tiles.get 1, fed st0) ∧ (1 : Code).toNat < 22 := ⟨⟨rfl, by decide⟩, ⟨rfl, by decide⟩, rfl, by decide⟩

/-- Tile register 1 tagged with slot 5 and version 1. -/
def tagged (q : Strand) : Strand :=
  { slot5 q with pred := [2 ^ 1023], c2v := [entry 0], c2m := [entry 0], tiles := q.tiles.set 1 (Vector.replicate 16 { aRow with tag := ⟨true, 5, 1⟩ }),
                 wins := (q.wins.set 2 ⟨0, 0, 2, 0, 31, 0, 1, 4⟩).set 3 ⟨1, 5, 1, 0, 31, 1, 1, 8⟩ }

theorem test_witness_VectorConversions : let s := recorded tagged; let st := tagged st0
    s.ready .v 1 st ∧ Rm.ofBits 0 = some .rne ∧ cvtFmt 8 = some .fp32 ∧ cvtInt 2 = true ∧ srcV st 1 = .ok (st.tiles.get 1, st) ∧
      popC2v st false = .ok (⟨0, false⟩, { st.took .v [entry 0] with c2v := [] }) ∧
      (∃ rec, recordOf s 0 st 5 = .ok rec ∧ (rec.fmt == .bf16 && decide ((9 : BitVec 4).toNat = fmtCode rec.fmt) &&
        (let z := { st.took .v [entry 0] with c2v := [] }
         match stampRun 0 z .v rec [] 0 ((quantTile z rec .rne 1 0 (st.tiles.get 1)).1.map fun c => c.getD ⟨0, .zero, none, true⟩) s with
         | .ok _ => true | _ => false)) = true) ∧
      (((st.tiles.get 1).row 0).tag = ⟨true, 5, 1⟩ ∧ (∀ k, k < usedRows .bf16 → ((st.tiles.get 1).row k).tag = ((st.tiles.get 1).row 0).tag)) ∧
      lookupVersion s 0 st 0 1 = .ok (.bf16, 0, 1) :=
  ⟨⟨rfl, by decide⟩, rfl, rfl, rfl, rfl, rfl, ok_and (by decide +kernel), ⟨by decide +kernel, by decide +kernel⟩, eq_of_isOk (by decide +kernel)⟩

theorem test_witness_AccumulatorWords : calm.ready .m 1 st0 ∧ st0.c2m = [] ∧ (withSt fed).ready .m 1 (fed st0) ∧ (fed st0).c2m = [entry 0] ∧
    (-254 ≤ (-254 : BitVec 14).toInt ∧ (254 : BitVec 14).toInt ≤ 254) ∧ ¬ ((255 : BitVec 14).toInt ≤ 254) ∧ (3 : Code).toNat < 4 ∧ 4 ≤ (4 : Code).toNat :=
  ⟨⟨rfl, by decide⟩, rfl, ⟨rfl, by decide⟩, rfl, by decide, by decide, by decide, by decide⟩

theorem test_witness_MatrixMultiply : let s := recorded tagged; let st := tagged st0
    s.ready .m 1 st ∧ windowWait st .m [2, 3] = .ok () ∧ taggedWindow s 0 st 2 = .ok (st.wins.get 2, .bf16, 0) ∧
      taggedWindow s 0 st 3 = .ok (st.wins.get 3, .bf16, 0) ∧ (st.wins.get 2).cols = (st.wins.get 3).cols ∧
      (let z := { st with wins := st.wins.set 3 ⟨0, 0, 2, 0, 63, 0, 1, 4⟩ }
       taggedWindow s 0 z 3 = .ok (z.wins.get 3, .bf16, 0) ∧ (z.wins.get 2).cols ≠ (z.wins.get 3).cols) :=
  ⟨⟨rfl, by decide⟩, rfl, eq_of_isOk (by decide +kernel), eq_of_isOk (by decide +kernel), by decide, eq_of_isOk (by decide +kernel), by decide⟩

/-- MOUT as far as its stamps. -/
def moutGoes (s : State) (st : Strand) (w : Window) (acc : Acc) : Bool :=
  okAnd (recordOf s 0 st 5) fun rec =>
    let rows := (List.range w.rows).map fun i => moutRow rec .rne st.phase (0 + i * 0) w.cols (accRow acc i)
    succeeds (w.check rec.fmt true) && decide (0 + (w.rows - 1) * 0 + w.cols - 1 < rec.count) && rec.fmt != .e2m1 &&
      succeeds (stampRows 0 { st.took .m [entry 0] with c2m := [] } .m rec ((List.range w.rows).map fun i => (0 + i * 0, (rows.getD i ([], [])).1))
        (writeWindow (s.setStrand 0 { st.took .m [entry 0] with c2m := [] }) 0 { st.took .m [entry 0] with c2m := [] } 2 w rec.fmt
          (fun i j => (rows.getD i ([], [])).1.getD j ⟨0, .zero, none, true⟩) (fun i k => (rows.getD i ([], [])).2.getD k (0, true))))

theorem test_witness_MatrixOutputs : let s := recorded tagged; let st := tagged st0
    s.ready .m 1 st ∧ windowWait st .m [2] = .ok () ∧ (st.wins.get 2).tr = 0 ∧ (st.wins.get 2).cols ≤ 128 ∧
      (st.wins.get 2).check .bf16 true = .ok () ∧ st.c2m = [entry 0] ∧ moutGoes s st (st.wins.get 2) (st.accs.get 0) = true ∧
      st.v.ended = false ∧ 128 < (127 : BitVec 7).toNat + (1 : BitVec 7).toNat + 1 ∧ (127 : BitVec 7).toNat + (0 : BitVec 7).toNat + 1 ≤ 128 ∧
      st.m.progress = 0 ∧ st.m2v.length + 2 * (0 + 1) ≤ 16 ∧ (fed st0).m2v.length = 16 ∧ st.m2v.length ≤ 14 ∧ 14 < (fed st0).m2v.length :=
  ⟨⟨rfl, by decide⟩, rfl, rfl, by decide, eq_of_isOk (by decide +kernel), rfl, by decide +kernel, rfl, by decide, by decide, rfl, by decide,
    by decide, by decide, by decide⟩

/-! The exchange engine. -/

/-- Little-endian 64-bit words. -/
def words64 (ws : List Nat) : List Byte := ws.flatMap fun w => bytesOfNat 8 w
/-- A shape record of `n` elements, 4 bytes apart. -/
def shapeBytes (n : Nat) : List Byte := bytesOfNat 4 n ++ bytesOfNat 4 1 ++ bytesOfNat 4 1 ++ bytesOfNat 4 1 ++ words64 [4, 0, 0, 0]
/-- A job with one paceline entry: fabric tag 5, two ranks, rank 0 this package's, generation 7, 100 ticks for XBIND. -/
def job2 : Job := { job1 with pcbase := 2 ^ 44 + 0x6000, pcount := 1 }
def entryBytes : List Byte := words64 [1, 0, 0, 5 * 2 ^ 36, 2 * 2 ^ 32 + 2 * 2 ^ 48, 7 + 100 * 2 ^ 32, 2 ^ 44 + 0x6200, 2 ^ 44 + 0x6100]
/-- An all-reduce of two elements from 0x1000 to 0x2000; a transfer of 64 bytes at 0x1000 with rank 1. -/
def collectiveWords : List Nat := [0, 0, 0, 2 ^ 49, 4, 1000, 0x1000, 0x2000]
def transferWords : List Nat := [0, 0, 0, 0, 2 ^ 20 + 64 * 2 ^ 48, 1000 * 2 ^ 32, 0x1000, 2 ^ 44]
/-- The mapped page's leaf, as its tile core has it cached. -/
def cachedLeaf : TlbEntry := { job := 1, vpage := 2 ^ 28, lg := 16, pbase := 0x200000, dm := 0, key := 0, w := true, r := true, x := true, nc := false }
def exchanging (f : Strand → Strand) : State :=
  (((({ withPage (withPage (recorded f) 0x6000 entryBytes) 0x6200 [3] with jobs := [job2], card := { calm.card with ports := 0xFFF } } : State).updCore 0 fun k => { k with tlb := [cachedLeaf] }).spadStore 0 0x100
    (words64 collectiveWords) false).spadStore 0 0x140 (words64 transferWords) false).spadStore 0 0x200 (shapeBytes 2) false
def masked (f : Strand → Strand) : State := (exchanging f).spadStore 0 0x400 [3] false

/-- The handle checks give this entry. -/
def opens (s : State) (st : Strand) (c : XCmd) (p : Pline) : Bool :=
  okAnd (pline true s 0 st c.part c.view (c.handle.setWidth 64)) fun x => decide (x.2.2 = p)
def group5 : Pline := { cur := 2 ^ 44 + 0x6200, btmo := 100, gen := 7, nrank := 2, own := 0, ftag := 5, mask := 3 }
def xAt (a : DWord) (q : Strand) : Strand := { q with xregs := q.xregs.set 1 ⟨a, false⟩ }
/-- Ticket 9 issued and 8 outstanding. -/
def queuedCmd (k : BitVec 2) (body : List Nat) : XCmd :=
  { ticket := 8, kind := k, body := BitVec.ofNat 512 (natOfBytes (words64 body)),
    src := { ext := #v[2, 1, 1, 1], stride := #v[4, 0, 0, 0] }, dst := { ext := #v[2, 1, 1, 1], stride := #v[4, 0, 0, 0] }, mask := 3 }
def activeCmd (k : BitVec 2) (body : List Nat) : XCmd := { queuedCmd k body with active := true, gen := 7, ftag := 5, own := 0, round := 0 }
def outstanding (cs : List XCmd) (q : Strand) : Strand := { q with cmds := cs, tickets := 9, c2x := [entry 8] }

theorem test_witness_ExchangeRegistersAndTickets : let f := fun (q : Strand) => outstanding [queuedCmd 0 collectiveWords] (xAt 8 q)
    (exchanging f).ready .x 1 (f st0) ∧ (exchanging f).ready .x 2 (f st0) ∧ srcX (f st0) 1 = .ok (⟨8, false⟩, f st0) ∧ (f st0).c2x = [entry 8] ∧
      st0.c2x = [] ∧ (f st0).c.ended = false ∧ (f st0).x2c.length < 8 ∧ 8 ≤ (List.replicate 8 (entry 0)).length ∧
      (8 : Word) ≠ 0 ∧ later 8 (f st0).tickets = false ∧ later 10 (f st0).tickets = true ∧ ((f st0).tickets - 8).toNat < 64 ∧
      64 ≤ ((f st0).tickets - 0xFFFFFFC9).toNat ∧ later 0xFFFFFFC9 (f st0).tickets = false ∧ (7 : Code).toNat < 8 ∧
      srcX ((fun (q : Strand) => { q with xregs := q.xregs.set 1 ⟨8, true⟩ }) st0) 1 =
        .ok (⟨8, true⟩, (fun (q : Strand) => { q with xregs := q.xregs.set 1 ⟨8, true⟩ }) st0) :=
  ⟨⟨rfl, by decide⟩, ⟨rfl, by decide⟩, rfl, rfl, rfl, rfl, by decide, by decide, by decide, by decide, by decide, by decide, by decide, by decide,
    by decide, rfl⟩

/-- Every condition of an XCMD's issue, and its release. -/
def issueGoes (s : State) (st : Strand) (x : PWord) : Bool :=
  okAnd (readCommand s 0 x 0) fun x => let sa := x.1; let v := x.2
    !commandIllegal st v && bits v 303 288 == 0 && calm' sa && isOk (sideSize sa 0 st (bits v 194 194 == 1) (bits v 193 190)) 4 &&
    isOk (sideSize sa 0 st (bits v 199 199 == 1) (bits v 198 195)) 4 &&
    okAnd (plineX true sa 0 st (BitVec.ofNat 64 (bits v 303 288))) fun x => decide (x.2 = group5) &&
    okAnd (readShape x.1 0 (16 * bits v 252 236)) fun src => okAnd (readShape src.1 0 (16 * bits v 269 253)) fun dst =>
    okAnd (needShape src.2) fun hs => okAnd (needShape dst.2) fun hd =>
      issueCounts (opOf v) hs.count hd.count && succeeds (checkTraversal hs (bits v 439 384) 4) &&
        succeeds (checkTraversal hd (bits v 503 448) 4) && succeeds (release dst.1 0 .x .system)
where
  calm' (s : State) : Bool := !s.slotNow
/-- Every condition of a transfer's issue, and its release. -/
def transferGoes (s : State) (st : Strand) (x : PWord) : Bool :=
  okAnd (readCommand s 0 x 64) fun x => let v := x.2
    decide (bits v 511 504 = 0 ∧ bits v 447 440 = 0 ∧ bits v 351 344 = 0 ∧ bits v 247 0 = 0 ∧ bits v 275 275 = 0 ∧ bits v 303 288 = 0) &&
    decide (bits v 343 304 ≠ 0) && succeeds (checkSpan (bits v 439 384) (bits v 439 384) ((bits v 439 384 : Int) + (bits v 343 304 : Nat) - 1)) &&
    okAnd (plineX true x.1 0 st 0) fun y => succeeds (release y.1 0 .x .system)
/-- The mask that an XBIND reads. -/
def bindGoes (s : State) (st : Strand) (a : Nat) : Bool :=
  okAnd (plineX true s 0 st 0) fun x => okAnd (readSpad x.1 0 a 512) fun y =>
    decide (y.2 = 3 ∧ y.2 < 2 ^ x.2.nrank ∧ bits y.2 x.2.own x.2.own = 1) && succeeds (release y.1 0 .x .system)

/-- Register 0 names the group; the commands are at 0x100 and 0x140, the mask of an XBIND at 0x400. -/
def issuing (q : Strand) : Strand := { q with xregs := (q.xregs.set 1 ⟨0x100, false⟩).set 2 ⟨0x400, false⟩ }

theorem test_witness_CommandIssue_ready : (masked issuing).ready .x 1 (issuing st0) ∧ (issuing st0).cmds.length < 8 ∧
    srcX (issuing st0) 1 = .ok (⟨0x100, false⟩, issuing st0) ∧ srcX (issuing st0) 0 = .ok (⟨0, false⟩, issuing st0) ∧
    srcX (issuing st0) 2 = .ok (⟨0x400, false⟩, issuing st0) ∧ 0x400 % 64 = 0 ∧ 0x400 + 512 ≤ Config.spadBytes :=
  ⟨⟨rfl, by decide +kernel⟩, by decide +kernel, rfl, rfl, rfl, by decide, by decide⟩

theorem test_witness_CommandIssue : issueGoes (masked issuing) (issuing st0) ⟨0x100, false⟩ = true := by decide +kernel
theorem test_witness_CommandIssue_transfer : transferGoes (masked issuing) (issuing st0) ⟨0x100, false⟩ = true := by decide +kernel
theorem test_witness_CommandIssue_bind : bindGoes (masked issuing) (issuing st0) 0x400 = true ∧ (masked issuing).slotNow = false :=
  ⟨by decide +kernel, by decide +kernel⟩

theorem test_witness_CommandIssue_full : let g := outstanding (List.replicate 8 (queuedCmd 1 transferWords))
    (withSt g).ready .x 1 (g st0) ∧ 8 ≤ (g st0).cmds.length := ⟨⟨rfl, by decide⟩, by decide⟩

/-- Rounds 0 of the group, as the fabric may have left them. -/
def roundMsg (rank : Nat) : FabricMsg :=
  { ftag := 5, gen := 7, rank, round := 0, op := 0, rop := 0, peer := 0, count := 2, leaves := [(0x3F800000, false), (0x40000000, false)],
    eloc := some 1, data := true, bind := none }
def inRound (r : Round) (s : State) : State := { s with rounds := [r] }

theorem test_witness_CommandsStart : let f := outstanding [queuedCmd 0 collectiveWords]; let s := exchanging f; let c := queuedCmd 0 collectiveWords
    headCmd s 0 = some (f st0, c) ∧ c.active = false ∧ s.unraised (dieOf 0) = true ∧ s.chainFree 0 = true ∧ opens s (f st0) c group5 = true ∧ waitsHeld s 0 (f st0) c = false ∧ c.kind = 0 ∧
      (f st0).dead.contains (c.handle, group5.gen) = false ∧ (∃ s1 n, nextRound s (f st0) c = (s1, n)) ∧
      (findRound (inRound { ftag := 5, gen := 7, round := 0, aborted := true } s) 5 7 0).isSome = true ∧
      (findRound s 5 7 0) = none ∧ (queuedCmd 3 []).kind = 3 ∧
      (let c := { activeCmd 0 [0, 0, 0, 2 ^ 49 + 2 ^ 8, 4, 0, 0x1000, 0x2000] with ticket := 8 }
       c.kind = 0 ∧ c.active = true ∧ c.waited = false ∧ cmdField c.body 200 200 = 1 ∧ headCmd (exchanging (outstanding [c])) 0 = some (outstanding [c] st0, c) ∧
         waitMet (exchanging (outstanding [c])) 0 (outstanding [c] st0) c = true ∧
         (let c := { c with body := BitVec.ofNat 512 (natOfBytes (words64 [0, 0, 0, 2 ^ 49 + 2 ^ 8, 4, 2 ^ 32, 0x1000, 0x2000])) }
          waitMet (exchanging (outstanding [c])) 0 (outstanding [c] st0) c = false)) :=
  ⟨rfl, rfl, by decide +kernel, by decide +kernel, by decide +kernel, by decide +kernel, rfl, rfl, ⟨_, _, rfl⟩, by decide, rfl, rfl, rfl, rfl, rfl,
    by decide +kernel, rfl, by decide +kernel, by decide +kernel⟩

/-- A transfer with rank 1 and with rank 0 itself; a handle dead at its generation; a job without entries. -/
theorem test_witness_CommandsStart_transfers : let c := queuedCmd 1 transferWords; let f := outstanding [c]
    headCmd (exchanging f) 0 = some (f st0, c) ∧ sizeOf' { c with mask := 3 } = 2 ∧ bits c.body.toNat 287 276 = 1 ∧ boundRank 3 0 = 0 ∧
      ({ f st0 with dead := [(0, 7)] } : Strand).dead.contains (c.handle, (7 : Word)) = true ∧
      pline true (recorded f) 0 (f st0) c.part {} 0 = .error (.fault .xMembership) :=
  ⟨rfl, by decide +kernel, by decide +kernel, by decide +kernel, rfl, rfl⟩

def meeting (ms : List FabricMsg) (c : XCmd) : State := inRound { ftag := 5, gen := 7, round := 0, msgs := ms } (exchanging (outstanding [c]))
def sentCmd : XCmd := { activeCmd 0 collectiveWords with waited := true, sent := true, tmo := 1000 }
/-- A check that gives a value, or the given fault. -/
def lands {ε α : Type} (r : Except ε α) : Bool := match r with | .ok _ => true | .error _ => false

/-- Both contributions are there, and agree; one more does not; a timeout that has expired; a round cut off. -/
theorem test_witness_CommandsEnd : let s := meeting [roundMsg 0, roundMsg 1] sentCmd
    tryAgree s 0 = s ∧ freeHead s 0 = some (outstanding [sentCmd] st0, sentCmd) ∧ s.chainFree 0 = true ∧
      readyCmd s sentCmd = true ∧ noTraffic sentCmd = false ∧ gathered s sentCmd true = some [roundMsg 0, roundMsg 1] ∧
      (∀ m ∈ [roundMsg 0, roundMsg 1], sameRound sentCmd m = true) ∧ (∃ m ∈ [roundMsg 0, { roundMsg 1 with count := 3 }], sameRound sentCmd m = false) ∧
      lands (writeResult s 0 (outstanding [sentCmd] st0) sentCmd (resultOf sentCmd [(roundMsg 0).leaves, (roundMsg 1).leaves])) = true := by
  refine ⟨rfl, rfl, ?_, ?_, ?_, ?_, ?_, ?_, ?_⟩ <;> decide +kernel

theorem test_witness_CommandsEnd_timeout : let c := { sentCmd with cut := some 20100 }
    freeHead (meeting [] c) 0 = some (outstanding [c] st0, c) ∧ c.kind ≠ 3 ∧ c.active = true ∧ readyCmd (meeting [] c) c = false ∧
      (outstanding [sentCmd] st0).dead54 = false ∧ sentCmd ∈ (outstanding [sentCmd] st0).cmds ∧ sentCmd.cut = none ∧
      (∃ x ∈ (outstanding [sentCmd] st0).cmds, x.active = true ∧ x.sent = true) :=
  ⟨rfl, by decide, rfl, by decide +kernel, rfl, by simp [outstanding], rfl, sentCmd, by simp [outstanding], rfl, rfl⟩

/-- In time, and too late for a timeout that expired at 20100. -/
theorem test_witness_CommandsEnd_within : let r := { ftag := 5, gen := 7, round := 0, msgs := [roundMsg 0, roundMsg 1], came := [(0, 20100), (1, 20101)] : Round }
    r.within (some 20100) = [roundMsg 0] ∧ r.within none = [roundMsg 0, roundMsg 1] := by decide +kernel

theorem test_witness_CommandsEnd_transfers : let p := activeCmd 1 transferWords; let g := activeCmd 2 transferWords
    let s := exchanging (outstanding [p]); let bs := List.replicate 64 ((5 : Byte), false)
    freeHead s 0 = some (outstanding [p] st0, p) ∧ s.chainFree 0 = true ∧ succeeds (sourceBytes s 0 (outstanding [p] st0) p 0x1000 64) = true ∧
      bits g.body.toNat 343 304 = 64 ∧ bits g.body.toNat 439 384 = 0x1000 ∧
      lands (getBytes 0 (outstanding [g] st0) g 0x1000 bs (exchanging (outstanding [g]))) = true ∧
      (match sourceBytes calm 0 st0 p (2 ^ 46) 64 with | .error (.fault .translation) => true | _ => false) = true :=
  ⟨rfl, by decide +kernel, by decide +kernel, by decide +kernel, by decide +kernel, by decide +kernel, by decide +kernel⟩

def bindCmd : XCmd := { activeCmd 3 [] with tmo := 100 }
/-- A rebinding in which ranks 0 and 1 have named these masks. -/
def binding (c : XCmd) (mask0 mask1 : BitVec 4096) : State :=
  let b := fun (r : Nat) (m : BitVec 4096) => { roundMsg r with round := 2 ^ 25 - 1, bind := some m }
  inRound { ftag := 5, gen := 7, round := 2 ^ 25 - 1, msgs := [b 0 mask0, b 1 mask1] } (exchanging (outstanding [c]))

/-- Masks that agree, that differ, that differ and name a rank whose mask is missing, and none; the table as it is rebound. -/
theorem test_witness_Rebindings : let s := binding bindCmd 3 3
    bindOutcome s bindCmd = some true ∧ bindOutcome (binding bindCmd 3 1) bindCmd = some false ∧
    bindOutcome (binding { bindCmd with mask := 7 } 3 3) { bindCmd with mask := 7 } = some false ∧
    bindOutcome (binding { bindCmd with mask := 7 } 7 7) { bindCmd with mask := 7 } = none ∧
    bindOutcome (exchanging (outstanding [bindCmd])) bindCmd = none ∧ headCmd s 0 = some (outstanding [bindCmd] st0, bindCmd) ∧
    bindCmd.kind = 3 ∧ bindCmd.active = true ∧ s.chainFree 0 = true ∧
    ((bindHeads s 0 bindCmd).filter fun x => bindOutcome s x.2.2 == some true) = [(0, outstanding [bindCmd] st0, bindCmd)] ∧
    lands (rebind s 0 (outstanding [bindCmd] st0) bindCmd) = true :=
  ⟨by decide +kernel, by decide +kernel, by decide +kernel, by decide +kernel, by decide +kernel, rfl, rfl, rfl, by decide +kernel,
    by decide +kernel, by decide +kernel⟩

/-- Messages meet a round while no slot or extension holds the links; the strand's command runs round 0. -/
theorem test_witness_FabricMessages : let s := meeting [] sentCmd
    (s.slotNow && s.majorSlot) = false ∧ s.card.ports ≠ 0 ∧ s.portFree 0 = true ∧ s.portTo 0 0 = true ∧
      (({ s with psc := 0 } : State).slotNow && ({ s with psc := 0 } : State).majorSlot) = true ∧
      roundHeads s 5 7 0 = [(0, sentCmd)] ∧ roundHeads s 5 7 1 = [] ∧ s.unraised 0 = true ∧
      waitsHeld s 0 (outstanding [sentCmd] st0) sentCmd = false ∧ sentCmd.ftag = 5 ∧ sentCmd.gen = 7 ∧ sentCmd.round = 0 :=
  ⟨by decide +kernel, by decide +kernel, by decide +kernel, by decide +kernel, by decide +kernel, by decide +kernel, by decide +kernel,
    by decide +kernel, by decide +kernel, rfl, rfl, rfl⟩

/-! Waits, caches, homes, ends, placement and stops. -/

/-- The placed program with another word, outside every slot. -/
def placed (w : Nat) : State := { State.reset.withFetchWord 32 w with psc := 20000 }
def isNext (o : Out) : Bool := match o with | .next _ => true | _ => false
theorem next_of {o : Out} (h : isNext o = true) : ∃ t, o = .next t := by
  cases o <;> simp_all [isNext]

theorem test_witness_WaitReleases :
    ∀ w ∈ [Wait.sem 3 0, .dieSem 3 0, .push, .pop, .outcomeFull, .outcomeEmpty, .window, .slip],
      let f := fun (q : Strand) => { q with c := { q.c with wait := some w } }
      let s := (placed 0x01198E60).updStrand 0 f
      s.strand 0 = some (f st0) ∧ ((f st0).eng .c).wait = some w ∧ ∃ t, engineTurn s 0 .c = .next t := by
  intro w hw
  simp only [List.mem_cons, List.not_mem_nil, or_false] at hw
  rcases hw with rfl | rfl | rfl | rfl | rfl | rfl | rfl | rfl <;> exact ⟨rfl, rfl, next_of (by decide +kernel)⟩

/-- An engine's turn runs an instruction, and the state in which it does has a property. -/
def turnRuns (s : State) (e : Eng) (i : Instr) (p : State → Strand → Bool) : Bool :=
  match fetchTurn { s with focusTile := 0, focusEng := e } 0 e with
  | .run j s2 => decide (j = i ∧ s2.focusTile = 0 ∧ s2.focusEng = e) && (match s2.strand 0 with
    | some q => !q.slipStalled e 1 && p s2 q
    | none => false)
  | .idle _ => false
/-- The placed strand waits, at an instruction written out by the encoder. -/
def waiting (i : Instr) (e : Eng) (w : Wait) (f : Strand → Strand) : State :=
  (placed ((encode i).getD (0, none)).1.toNat).updStrand 0 fun q => (f q).updEng e fun g => { g with wait := some w }

theorem test_witness_WaitReleases_ends :
    turnRuns (waiting (.semw .c 0 3 0) .c (.sem 3 0) id) .c (.semw .c 0 3 0) (fun s q => decide (0 ≤ (semValue s 0 q false 3).toNat)) = true ∧
    turnRuns (waiting (.qget 5 0 0) .c .pop fun q => { q with a2c := [entry 7] }) .c (.qget 5 0 0) (fun _ q => decide (q.a2c = [entry 7])) = true ∧
    turnRuns (waiting (.qput 0 5) .c .push id) .c (.qput 0 5) (fun _ q => !q.a.ended && decide (q.c2a.length < 8)) = true ∧
    turnRuns (waiting (.brq 1) .v .outcomeEmpty fun q => { short q with v := { q.v with outcomes := [1] } }) .v (.brq 1)
      (fun _ q => decide (q.v.outcomes = [1] ∧ q.v.pc + 1 < q.textLen)) = true ∧
    turnRuns (waiting (.awin 17 3 0) .a .window (addressed 0x1000)) .a (.awin 17 3 0) (fun _ q =>
      succeeds (windowWait q .a [1]) && (windowOfShape 0x1000 (q.shapes.get 0)).isSome && (okAnd (srcA q 3) fun x => decide (x.1 = ⟨0x1000, false⟩))) = true ∧
    turnRuns (waiting .nop .m .slip id) .m .nop (fun _ _ => true) = true :=
  ⟨by decide +kernel, by decide +kernel, by decide +kernel, by decide +kernel, by decide +kernel, by decide +kernel⟩

theorem test_witness_TextFetchAndPageWalk :
    calm.strand 0 = some st0 ∧ calm.job? st0.job = some demoJob ∧ (2 ^ 44 : DWord).toNat % 4 = 0 ∧ succeeds (walkGate calm 0 7 demoJob (2 ^ 44)) = true ∧
      (∃ l, translate calm (some 0) 0 demoJob (2 ^ 44) .fetch = .ok l ∧
        (succeeds (requestGate calm 0 7 l) && !(calm.readPhys l.key l.pa 4).2 &&
          (State.readPhys { calm with mem := { calm.mem with poison := [65536] } } l.key l.pa 4).2) = true) ∧
      lookupNat st0.decoded 0 = none ∧ st0.textBase + 4 * 0 = (2 ^ 44 : DWord).toNat ∧
      (∃ x, pageWalk calm demoJob (2 ^ 44) = .ok x) ∧ pageWalk calm demoJob (2 ^ 46) = .error .translation ∧ (2 ^ 46 : DWord).toNat < 2 ^ 56 :=
  ⟨rfl, rfl, by decide, by decide +kernel, ok_and (by decide +kernel), rfl, by decide, ok_of_succeeds (by decide +kernel), by decide +kernel, by decide⟩

/-- A word of a page that is not cacheable, and a walk's entries, are held in a slot. -/
theorem test_witness_TextFetchAndPageWalk_held : let s := State.reset.withFetchWord 32 0
    requestGate s 0 7 { pa := 0x200000, dm := 0, key := 0, nc := true } = .error (.wait (.held 0x200000)) ∧
      (match walkGate s 0 7 demoJob (2 ^ 44 + 2 ^ 30) with | .error (.wait (.held _)) => true | _ => false) = true := ⟨by decide +kernel, by decide +kernel⟩

def wid0 : WriterId := ⟨0, 0, 0, 1, 0⟩
def writeOf (wid : Option WriterId) : Pending := { store0 with addr := 0x210000, bytes := [1, 2, 3], wid := wid }

/-- A writer directory of `n` entries of another strand. -/
def crowded (n : Nat) : State := calm.updDie 0 fun d => { d with writers := List.replicate n { wid0 with strand := 5 } }
theorem crowded_writers (n : Nat) : ((crowded n).die (homeDie 0x210000)).writers = List.replicate n { wid0 with strand := 5 } := rfl
theorem full_of {s : State} {pa : Nat} {w x : WriterId} {n : Nat} (hn : directorySize ≤ n)
    (hl : (s.die (homeDie pa)).writers = List.replicate n x) (hp : x.phase.toNat % 2 = w.phase.toNat % 2)
    (hx : x.same w = false) : directoryFull s pa (some w) = true := by
  unfold directoryFull
  simp [hl, List.any_replicate, hx, hp, hn]

theorem test_witness_HomeWrites :
    (let p := writeOf none; let s := { calm with pending := [p, store0] }
     s.pending[0]? = some p ∧ s.gate p.clock = true ∧ writeHeld s p = false ∧ (∀ q ∈ s.pending.take 0, q.clashes p = false) ∧
       directoryFull { s with pending := s.pending.eraseIdx 0 } p.addr p.wid = false ∧
       s.launch? p.agent.handle = some (demoLaunch 1) ∧ s.job? (demoLaunch 1).job = some demoJob ∧ p.clashes p = true) ∧
    (let s := { calm with sram := [{ line := 7, key := 0 }], tags := [(7, wid0)] }; (s.resident 7).isSome = true ∧ (spillTag s 7).isSome = true) ∧
    writeHeld { calm with psc := 0 } { writeOf none with nc := true } = true ∧
    directoryFull (crowded 16777215) 0x210000 (some wid0) = true :=
  ⟨⟨rfl, rfl, by decide +kernel, by simp, rfl, rfl, rfl, by decide⟩, ⟨by decide, by decide +kernel⟩, by decide +kernel,
    full_of (by decide) (crowded_writers _) rfl rfl⟩

def endedAll (q : Strand) : Strand := q.allEngs fun g => { g with ended := true }
/-- VMOV from an empty C2V, the other engines ended. -/
def starving (q : Strand) : Strand := { endedAll q with v := { q.v with wait := some .pop } }

theorem test_witness_StrandEnds : (withSt endedAll).strand 0 = some (endedAll st0) ∧ (∀ e, ((endedAll st0).eng e).ended = true) ∧
    (endedAll st0).asyncs = [] ∧ (endedAll st0).cmds = [] ∧ (endedAll st0).halted = false ∧ (endedAll st0).dead54 = false ∧
    deltasHeld calm 0 (endedAll st0) = false ∧ (∃ e, (st0.eng e).ended = false) ∧ ({ st0 with spdist := 0xFFFFFFFF } : Strand).splim.toNat < ({ st0 with spdist := 0xFFFFFFFF } : Strand).spdist.toNat ∧
    st0.spdist.toNat ≤ st0.splim.toNat ∧
    (let s := (placed 0x590D0100).updStrand 0 starving
     s.strand 0 = some (starving st0) ∧ deadlocked s 0 (starving st0) = true) :=
  ⟨rfl, fun e => by cases e <;> rfl, rfl, rfl, rfl, rfl, rfl, ⟨.c, rfl⟩, by decide, by decide, rfl, by decide +kernel⟩

/-- An undefined word of tag 7, and one of the control engine. -/
def readsWord (w : Nat) : Bool :=
  okAnd (textWord (placed w) 0 st0 .c st0.c.pos 0) fun x => decide (x.2 = BitVec.ofNat 32 w) && gives (textWord x.1 0 st0 .c (st0.c.pos + 1) 1) 0
theorem test_witness_StrandEnds_undefined : (st0.eng .c).pc < st0.textLen ∧
    (readsWord 0xFFFFFFFF = true ∧ undefinedFirst 0xFFFFFFFF = true ∧ 5 ≤ (Fields.ofWord 0xFFFFFFFF).tag.toNat) ∧
    (readsWord 0x1FFFFFFF = true ∧ decode 0x1FFFFFFF 0 = none ∧ (Fields.ofWord 0x1FFFFFFF).tag = Eng.tag .c) :=
  ⟨by decide, ⟨by decide +kernel, by decide, by decide⟩, by decide +kernel, by decide, by decide⟩

/-- A launch of 300 strands over the first 8 tile cores, with strands queued on tile core 5 (die 0). -/
def wideLaunch : Launch := { demoLaunch 1 with team := 255, count := 300, dealt := 40 }
def queued : State := { calm with launches := [wideLaunch] }.updCore 5 fun k => { k with queue := [(1, 20), (1, 30)] }

theorem test_witness_Placement : queued.job? wideLaunch.job = some demoJob ∧ (queued.core 5).queue[0]? = some (1, 20) ∧
    entryFor queued 5 5 (1, 20) = some wideLaunch ∧ entryFor queued 7 5 (1, 20) = some wideLaunch ∧ idleFor queued 5 (some 1) = true ∧
    idleFor queued 7 (some 1) = true ∧ wideLaunch.resumable 5 = false ∧ recordsFree queued 5 demoJob wideLaunch.bindings = true ∧
    choices queued 5 = [wideLaunch] ∧ mayTakeTurn queued wideLaunch ((choices queued 5).filter fun x => x.cls == wideLaunch.cls) = true ∧
    (queued.core 7).queue = [] ∧ openTo queued 5 wideLaunch = true ∧ dieOf 5 = dieOf 7 ∧
    (let s := { queued with launches := [wideLaunch, { wideLaunch with handle := 2, cls := .live }] }.updCore 5 fun k => { k with queue := [(1, 20), (2, 3)] }
     (choices s 5).any (fun x => decide (x.cls.bits.toNat < wideLaunch.cls.bits.toNat)) = true) := by
  refine ⟨rfl, ?_, ?_, ?_, ?_, ?_, ?_, ?_, ?_, ?_, ?_, ?_, ?_, ?_⟩ <;> decide +kernel

def waitingLaunch : Launch := { wideLaunch with waited := 2 ^ 20, stopped := [{ index := 3, slot := 0, die := 0, back := 5 }] }
def gangLaunch (n : Nat) : Launch := { demoLaunch 2 with team := 2 ^ 48 + 127, count := n, dealt := 0, gang := true, started := false }
def stoppedGang : Launch := { gangLaunch 2 with started := true, dealt := 2, stopped := [{ index := 0, slot := 0, die := 0, back := 5 }, { index := 1, slot := 1, die := 1, back := 5 }] }
def ganged (l : Launch) : State := { calm with launches := [demoLaunch 1, l] }

theorem test_witness_Placement_others :
    (let s := { calm with launches := [waitingLaunch] }
     s.launch? 1 = some waitingLaunch ∧ waitingLaunch.pendingWork s = true ∧ 2 ^ 20 * (waitingLaunch.aged + 1) ≤ waitingLaunch.waited ∧
       waitingLaunch.level < 7 ∧ (waitingLaunch.stopped.find? fun x => x.index == 3) = some { index := 3, slot := 0, die := 0, back := 5 } ∧
       idleFor s 5 (some 1) = true ∧ waitingLaunch.resumable 5 = true ∧ waitingLaunch.inScope 0 5 = true ∧ chosen s 5 waitingLaunch = true ∧
       outranked s 5 waitingLaunch = false ∧ resumeWaits s 5 waitingLaunch demoJob { index := 3, slot := 0, die := 0, back := 5 } = false) ∧
    (let l := gangLaunch 2; let s := ganged l
     s.launch? 2 = some l ∧ gangWaiting s l = true ∧ recordsFree s 8 demoJob l.bindings = true ∧ mayTakeTurn s l [l] = true ∧
       (l.cores.filter fun t => idleFor s t (some 2)).all (fun t => !outranked s t l && (choices s t).isEmpty) = true ∧
       l.count ≤ (l.cores.filter fun t => idleFor s t (some 2)).length) ∧
    (let l := gangLaunch 8; (l.cores.filter fun t => idleFor (ganged l) t (some 2)).length < l.count) ∧
    (let l := stoppedGang; let s := ganged l
     gangWaiting s l = true ∧ (∀ x ∈ l.stopped, resumeWaits s 48 l demoJob x = false) ∧
       ∃ xs, assign l l.stopped (l.cores.filter fun t => idleFor s t (some 2)) = some xs) :=
  ⟨⟨rfl, by decide +kernel, by decide, by decide, by decide, by decide +kernel, by decide +kernel, by decide +kernel, by decide +kernel,
      by decide +kernel, by decide +kernel⟩,
    ⟨rfl, by decide +kernel, by decide +kernel, by decide +kernel, by decide +kernel, by decide +kernel⟩, by decide +kernel,
    by decide +kernel, by decide +kernel, Option.isSome_iff_exists.mp (by decide +kernel)⟩

/-- A job with four save slots in the mapped page. -/
def job3 : Job := { job1 with spbase := 2 ^ 44 + 0x4000, spcount := 4 }
def saving (f : Strand → Strand) : State := { withSt f with jobs := [job3] }
def request : Stop := { c := 9, slot := some 0, cancel := false }
def stopping (r : Stop) (q : Strand) : Strand := { (q.allEngs fun g => { g with holding := true }) with stop := some r }

/-- A launch of LIVE class that wants the placed strand's tile core. -/
def outbid : State := { ganged { gangLaunch 1 with cls := .live, team := 1 } with jobs := [job3] }
/-- The request that it has sent. -/
def asked (r : Stop) : State := { outbid with cores := (saving (stopping r)).cores }

theorem test_witness_StopsAndContexts : calm.strand 0 = some st0 ∧ st0.dead54 = false ∧ asker calm 0 = none ∧ st0.stop = none ∧
    (let s := (saving id).updCore 0 fun k => { k with fenced := true }
     (s.core 0).fenced = true ∧ ((stopSet s 0 st0).foldlM sendStop s).isSome = true) ∧
    (asker outbid 0 = some 2 ∧ ((stopSet outbid 0 st0).foldlM sendStop outbid).isSome = true) ∧
    ((stopSet calm 0 st0).foldlM sendStop calm).isNone = true ∧
    (let s := saving (stopping request)
     s.strand 0 = some (stopping request st0) ∧ (∀ t ∈ stopSet s 0 (stopping request st0), reasonHolds s t = false) ∧
       request.saving = false ∧ request.wanted = none ∧
       (stopping request st0).stopped = true ∧ (stopping request st0).queuesEmpty = true ∧
       (stopping request st0).pred.length = bits request.entry.2 27 24 ∧
       ({ stopping request st0 with pred := [1] } : Strand).pred.length ≠ bits request.entry.2 27 24) ∧
    stillNeeded (asked { request with wanted := some 2 }) 2 0 = true ∧
    (let s := (saving (stopping { request with debug := true }))
     ∃ t ∈ stopSet s 0 (stopping { request with debug := true } st0), reasonHolds s t = true) :=
  ⟨rfl, rfl, by decide +kernel, rfl, ⟨by decide +kernel, by decide +kernel⟩, ⟨by decide +kernel, by decide +kernel⟩, by decide +kernel,
    ⟨rfl, by decide +kernel, rfl, rfl, rfl, rfl, rfl, by decide⟩, by decide +kernel, 0, by decide +kernel, by decide +kernel⟩

/-- The context of the placed strand, as it is written. -/
def contextGoes (s : State) (st : Strand) (r : Stop) : Bool :=
  let m := masksOf r.entry.2 st.c.depth.toNat
  match writeContext 0 st (slotBase job3 (r.slot.getD 0)) (contextParts st.countStop (s.core 0).spad m r.entry.1 r.entry.2) (flushDeltas s 0 none) with
  | .ok _ => true
  | .error _ => false

theorem test_witness_StopsAndContexts_saves :
    (let r := { request with checked := true }; let s := saving (stopping r)
     deltasHeld s 0 (stopping r st0) = false ∧ contextGoes s (stopping r st0) r = true ∧ s.job? 1 = some job3) ∧
    (let r := { request with checked := true, saving := true }; let s := saving (stopping r)
     s.canRaise (dieOf 0) = true ∧ s.pending = [] ∧ (stopping r st0).stop = some r) ∧
    (let f := fun (q : Strand) => { stopping { request with checked := true } q with gang := true }
     let s := { saving f with launches := [{ demoLaunch 1 with gang := true }] }
     s.strandsOf 1 = [(0, f st0)] ∧ (f st0).stopped = true ∧ (f st0).candidate = 1) :=
  ⟨⟨by decide +kernel, by decide +kernel, rfl⟩, ⟨by decide +kernel, rfl, rfl⟩, ⟨by decide +kernel, rfl, by decide⟩⟩

/-- A semaphore wait whose threshold was met before the value fell again; a strand stopped by a fault of an earlier tick, and of this one. -/
theorem test_witness_WaitReleases_woken :
    turnRuns (waiting (.semw .c 0 3 9) .c (.sem 3 9) fun q => { q with c := { q.c with woken := some (9, {}) } }) .c (.semw .c 0 3 9)
      (fun s q => decide (q.c.woken = some (9, {}) ∧ (semValue s 0 q false 3).toNat = 0)) = true := by decide +kernel

theorem test_witness_StrandEnds_dead : let f := fun (q : Strand) => { q with dead54 := true, deadAt := 19999 }
    (withSt f).strand 0 = some (f st0) ∧ (f st0).dead54 = true ∧ (f st0).asyncs = [] ∧ (f st0).deadAt ≠ calm.psc ∧
      ({ f st0 with deadAt := 20000 } : Strand).deadAt = calm.psc ∧ (∀ e a, ((f st0).eng e).wait ≠ some (.held a)) ∧
      ({ f st0 with x := { st0.x with wait := some (.held 0) } } : Strand).x.wait = some (.held 0) :=
  ⟨rfl, rfl, rfl, by decide, by decide, fun e a => by cases e <;> exact nofun, rfl⟩

/-! The front end, graphs and phases. -/

/-- The leader's front end acts on die 0. -/
def acting (s : State) : State :=
  { (s.updDie 0 fun d => { d with alive := true, lease := 940000 }) with leader := some 0, card := { s.card with stage := 7, hold := false, fepel := true } }
def job4 : Job := { job2 with spbase := 2 ^ 44 + 0x4000, spcount := 4 }
def packet (op : BitVec 8) (mask : Word) (ws : List DWord) : Packet := { op, bar := false, mask, words := ws, start := 0, next := 8, ord := 0 }
def queue3 (p : Packet) : Queue :=
  { q := 3, job := 1, ring := 2 ^ 44 + 0xA000, state := 2 ^ 44 + 0xB000, lg := 12, shadow := Vector.replicate 32 0, batch := [p] }
/-- The placed machine with its front end acting on one queue; counter 2 is PENDING. -/
def fronted (k : Queue) : State := { acting (withPage calm 0x2040 [1]) with jobs := [job4], queues := [k] }

theorem test_witness_PacketsExecute :
    (let p := packet 12 0 []; let k := queue3 p; let s := fronted k
     s.queue? 3 = some k ∧ k.batch = [p] ∧ s.job? k.job = some job4 ∧ queueReady s k = true ∧ k.bell = none ∧ k.halted = false ∧ k.tearing = false ∧
       k.lostWrite = false ∧ k.hold = .none ∧ queueWork s 3 = false ∧
       s.gateStep (.queue 3) s.leaderDie (packetRanges job4 12 (applyWords k.shadow 0 [])) = none ∧
       (let s := { s with holds := [⟨.job 1, 0, 0x202060⟩, ⟨.queue 3, 0, 0x202060⟩] }
        queueReady s k = true ∧ (s.gateStep (.queue 3) 0 (packetRanges job4 12 k.shadow)).isSome = true) ∧
       counterState s job4 0 = .ok 0 ∧ (∃ t, armCounter s job4 0 = .ok t) ∧
       counterState s job4 2 = .ok 1 ∧ counterState s job4 3 = .ok 0 ∧ (∃ t, armCounter s job4 3 = .ok t)) ∧
    (let p := packet 1 0x1000A [3 * 2 ^ 32 + 64, 1, 0]; let k := queue3 p; let s := fronted k
     let l := launchFrom s k.job 3 (nextIdent k) 0 none s.fresh (applyWords k.shadow p.mask.toNat p.words)
     0 < l.count ∧ l.cores ≠ [] ∧ l.gang = false) ∧
    (let p := packet 2 0x20000 [2 ^ 44 + 0x7000]; let k := queue3 p; let s := fronted k
     let s := { s with mem := s.mem.setBytes 0x207000 [1] }
     ∃ d, readGraph s job4 (creg (applyWords k.shadow p.mask.toNat p.words) 17) = .ok d) ∧
    (let l := launchFrom calm 1 3 0 0 none 7 (applyWords (Vector.replicate 32 0) 2 [3 * 2 ^ 32]); 0 < l.count ∧ l.cores = []) :=
  ⟨⟨rfl, rfl, rfl, by decide +kernel, rfl, rfl, rfl, rfl, rfl, by decide +kernel, rfl, by decide +kernel, by decide +kernel, ok_of_succeeds (by decide +kernel), by decide +kernel,
      by decide +kernel, ok_of_succeeds (by decide +kernel)⟩,
    ⟨by decide +kernel, by decide +kernel, by decide +kernel⟩, ok_of_succeeds (by decide +kernel), by decide +kernel, by decide +kernel⟩

def holding (op : BitVec 8) (h : Hold) (n : DWord) : Queue :=
  { queue3 (packet op 0 []) with hold := h, shadow := (Vector.replicate 32 0 |>.set 21 n).set 22 n }

theorem test_witness_QueuesGoOn :
    (let s := fronted (holding 5 .wait 3); counterState s job4 (bits (creg (holding 5 .wait 3).shadow 21) 15 0) = .ok 0) ∧
    (let s := fronted (holding 5 .wait 2); counterState s job4 (bits (creg (holding 5 .wait 2).shadow 21) 15 0) = .ok 1) ∧
    (let s := fronted (holding 6 .signal 3)
     bits (creg (holding 6 .signal 3).shadow 22) 15 0 ≠ 0 ∧ queueWork s 3 = false ∧ queueReady s (holding 6 .signal 3) = true ∧ s.unraised s.leaderDie = true ∧
       succeeds (finalCounter s job4 3 {}) = true ∧
       queueWork { s with launches := [{ demoLaunch 1 with queue := 3 }] } 3 = true) ∧
    (let s := fronted (queue3 (packet 12 0 []))
     s.card.stage = 7 ∧ s.card.fepel = true ∧ (s.slotNow && s.majorSlot) = false ∧ s.agentReady s.leaderDie = true ∧ queueReady s { queue3 (packet 12 0 []) with bell := some 0xFF8 } = true ∧ bits (0xFF8 : DWord).toNat 63 40 = 0 ∧ (0xFF8 : DWord).toNat % 8 = 0 ∧ (0xFF8 : DWord).toNat < 2 ^ (queue3 (packet 12 0 [])).lg ∧
       ¬ ((0x1000 : DWord).toNat < 2 ^ (queue3 (packet 12 0 [])).lg) ∧ (0xFF9 : DWord).toNat % 8 ≠ 0 ∧ bits (2 ^ 40 : DWord).toNat 63 40 ≠ 0 ∧
       s.queue? 4 = none) :=
  ⟨by decide +kernel, by decide +kernel,
    ⟨by decide +kernel, by decide +kernel, by decide +kernel, by decide +kernel, by decide +kernel, by decide +kernel⟩,
    rfl, rfl, by decide +kernel, by decide +kernel, by decide +kernel, by decide, by decide, by decide, by decide, by decide, by decide, rfl⟩

/-- A copy of 16 bytes within the page, one to an unmapped page, and a fill. -/
def copyWork (dst : Nat) (v : Option DWord) : CopyWork :=
  { handle := 40, job := 1, queue := 3, ident := 0, phase := 0, src := 2 ^ 44 + 0xC000, dst, len := 16, pattern := v, counter := 0 }
def copyingFrom (w : CopyWork) : State := { fronted (queue3 (packet 12 0 [])) with copies := [w] }
def copyEnds (w : CopyWork) : Option Halt := (frontUnits job4 (w.units.zipIdx.map fun x => (x.2, x.1)) w (copyingFrom w)).2.2
/-- One unit of a copy, its bytes and its page. -/
def unitGoes (w : CopyWork) : Bool :=
  let s := copyingFrom w
  match w.units with
  | [] => false
  | u :: _ => okAnd (w.bytes job4 u s) fun x =>
      let va := (u.head?.map Prod.fst).getD 0
      mayIssue x.1 (.work w.handle) && (x.1.heldAt none x.1.leaderDie job4 va u.length).isNone &&
        okAnd (translate x.1 none x.1.leaderDie job4 va .write) fun l => !directoryFull x.1 l.pa none && decide (u.length = 16)

theorem test_witness_QueuesGoOn_copies : let w := copyWork (2 ^ 44 + 0xD000) none; let s := copyingFrom w
    s.copies.find? (fun x => x.handle == w.handle) = some w ∧ s.job? w.job = some job4 ∧ job4.det = false ∧
      frontReady s = true ∧ s.unraised s.leaderDie = true ∧ copyEnds w = none ∧ unitGoes w = true ∧
      copyEnds (copyWork (2 ^ 46) none) = some (.fault .translation) ∧
      counterFree s w.job w.counter = true ∧ s.coversHeld (s.covers (workAgent s.leaderDie w.handle) w.view) = false ∧ (copyWork (2 ^ 44 + 0xD000) (some 7)).pattern = some 7 :=
  ⟨rfl, rfl, rfl, by decide +kernel, by decide +kernel, by decide +kernel, by decide +kernel, by decide +kernel, by decide +kernel,
    by decide +kernel, rfl⟩

/-- The placed launch with its strand ended. -/
def endedLaunch : Launch := { demoLaunch 1 with ended := 1 }
def finished : State := { acting (calm.updCore 0 fun k => { k with strand := none }) with launches := [endedLaunch], jobs := [job4] }
def batching (n : Nat) : State := { finished with graphs := [{ graph1 0 with batches := [{ batch1 0 with cur := List.replicate n ([], false, {}) }], images := [Vector.replicate 32 0, Vector.replicate 32 0] }] }
/-- The job with its one queue at the phase. -/
def phased (e : Bool) : State :=
  { finished with launches := [], jobs := [{ job4 with evaluated := e }], queues := [{ queue3 (packet 11 0 []) with hold := .phase, atPhase := true }] }
def phaseGoes (s : State) : Bool :=
  let s2 := ([0, 1, 2, 3] : List (Fin 4)).foldl State.raiseEpoch
    (((List.range job4.rtsize).foldl (fun s i => phaseCloseRecord s 1 i) s).updJob 1 fun j => { j with evaluated := true })
  okAnd (counterWord s2 { job4 with evaluated := false } 0xFFFF 0) fun w =>
    succeeds (putCounter s2 { job4 with evaluated := false } 0xFFFF (w / 2 ^ 32 * 2 ^ 32 + 8) 0 0 0)

theorem test_witness_LaunchesAndPhases : finished.launch? endedLaunch.handle = some endedLaunch ∧ mayComplete finished endedLaunch = true ∧
    frontEndActs finished = true ∧ completionFree finished endedLaunch = true ∧
    finished.gateStep (.launch 1) finished.leaderDie (completionRanges finished endedLaunch) = none ∧ finished.agentReady finished.leaderDie = true ∧ finished.unraised finished.leaderDie = true ∧
    endedLaunch.node = none ∧ (∃ t l, lastWork finished endedLaunch = (t, l)) ∧
    (let s := batching 4
     ∃ g b, s.graph? 9 = some g ∧ g.batches.find? (fun b => b.edge == 0) = some b ∧ b.bsize ≤ b.cur.length ∧ s.agentReady b.die = true ∧
       (b.launch = none → counterFree s g.job (nodeCounter g b.target) = true ∧ mayArm s g.job (nodeCounter g b.target) = true) ∧
       s.gateStep (.edge 9 0) b.die (batchRanges s g.job b false) = none ∧ (startBatch s 9 0).2 = none) ∧
    (let s := batching 3; ∃ g b, s.graph? 9 = some g ∧ g.batches.find? (fun b => b.edge == 0) = some b ∧ b.cur.length < b.bsize) ∧
    ((phased false).job? 1 = some { job4 with evaluated := false } ∧ frontReady (phased false) = true ∧ derailleursReady (phased false) = true ∧
      (∀ k ∈ (phased false).queues, k.atPhase = true ∧ k.halted = false) ∧ jobWork (phased false) 1 = false ∧
      (∀ i < job4.rtsize, homeHeld (phased false) job4 i = none) ∧
      (phased false).gateStep (.job 1) 0 (counterRange job4 0xFFFF) = none ∧ phaseGoes (phased false) = true ∧
      jobWork calm 1 = true ∧ (phased true).job? 1 = some { job4 with evaluated := true }) :=
  ⟨rfl, by decide +kernel, by decide +kernel, by decide +kernel, by decide +kernel, by decide +kernel, by decide +kernel, rfl, ⟨_, _, rfl⟩,
    ⟨_, _, rfl, rfl, by decide +kernel, by decide +kernel, fun _ => by decide +kernel, by decide +kernel, by decide +kernel⟩,
    ⟨_, _, rfl, rfl, by decide +kernel⟩, rfl, by decide +kernel, by decide +kernel, by simp [phased, queue3], by decide +kernel, by decide +kernel,
    by decide +kernel, by decide +kernel, by decide +kernel, rfl⟩

/-! The calendar, the card and the supervisor. -/

def sweep0 : Sweep :=
  { power := 900, dieTemps := [60, 60, 60, 60], stackTemps := List.replicate 12 60, inlet := 30, duty := 64, scrubbed := [5], corrected := [6],
    overruns := [(6, 3)] }
def atTick (t : DWord) (p : SlotPhase) : State := { acting calm with psc := t, slot := p }
def linked : State := { acting calm with card := { (acting calm).card with edges := 15, ports := 8, fepel := true } }
def extended : State := { acting calm with extensions := [(6, 3, 500)] }

theorem test_witness_CalendarAndLinks :
    ((atTick 16383 .outside).card.hold = false ∧ (atTick 16383 .outside).inLead = true ∧ (atTick 16383 .outside).inBody = false ∧
      (atTick 20000 .outside).inLead = false) ∧
    ((atTick 16384 .lead).inBody = true ∧ (atTick 16384 .lead).majorSlot = false ∧ (atTick 1048576 .lead).majorSlot = true) ∧
    ((atTick 17664 .body).inBody = false ∧ wasMajor (atTick 17664 .body) = false ∧ wasMajor (atTick 12288 .body) = true ∧
      (atTick 12288 .body).inBody = false ∧ (sweep0.overruns.all fun x => resourceOk x.1 x.2 false) = true ∧
      hotAfter (atTick 12288 .body).card.hot sweep0.dieTemps = false ∧ hotAfter false [105, 60, 60, 60] = true ∧ scrubs (atTick 12288 .body) 5 = true ∧
      scrubs (atTick 12288 .body) 262144 = false ∧ sweep0.dieTemps.length = 4 ∧ sweep0.stackTemps.length = 12 ∧ 16 ≤ sweep0.duty.toNat ∧ sweep0.duty.toNat ≤ 64) ∧
    (extended.extensions.find? (fun y => y.1 == 6 && y.2.1 == 3) = some (6, 3, 500) ∧ (extended.die extended.leaderDie).events.length < 4096) ∧
    ((1073741824 : DWord).toNat % Config.windowPeriod = 0 ∧ (1073741825 : DWord).toNat % Config.windowPeriod ≠ 0) ∧
    ((acting calm).card.stage = 7 ∧ (acting calm).card.ports.getLsbD 3 = false ∧ (acting calm).lasting.contains (7, 3) = false ∧
      linked.card.edges.getLsbD 3 = true ∧ (linked.card.ports).getLsbD 3 = true ∧ linked.card.fepel = true) := by
  refine ⟨⟨rfl, ?_, ?_, ?_⟩, ⟨?_, ?_, ?_⟩, ⟨?_, ?_, ?_, ?_, ?_, ?_, ?_, ?_, ?_, ?_, ?_, ?_, ?_⟩, ⟨rfl, ?_⟩, ⟨?_, ?_⟩, ⟨rfl, rfl, rfl, ?_, ?_, rfl⟩⟩ <;> decide +kernel

/-- The lease of die 0, with what the leader has left of it and since its last renewal. -/
def leased (alive : Bool) (left since : Nat) : State :=
  (acting calm).updDie 0 fun d => { d with alive, lease := left, sinceRenew := since }
def bootAt (k : BitVec 8) : State := { State.reset with card := { State.reset.card with stage := k, hold := false } }
/-- An image whose header is right, with 8 bytes of body. -/
def image0 : List Byte := bytesOfNat 4 0x44314450 ++ bytesOfNat 4 1 ++ bytesOfNat 8 8 ++ bytesOfNat 8 3 ++ List.replicate 0xB70 0

theorem test_witness_LeaseAndBoot :
    ((leased true 500000 480000).leader = some 0 ∧ ((leased true 500000 480000).die 0).alive = true ∧ (∀ k ∈ (leased true 500000 480000).queues, k.bell = none) ∧ Config.renewTicks ≤ ((leased true 500000 480000).die 0).sinceRenew ∧
      0 < ((leased true 500000 480000).die 0).lease ∧ ((leased false 0 0).die 0).alive = false ∧
      ((leased true 94000 0).die 0).lease ≤ Config.stopMargin ∧ (leased true 94000 0).leaderStopped = false ∧
      (let s := (leased false 0 0).updDie 2 fun d => { d with alive := true }
       s.agentReady 2 = true ∧ (s.die 0).lease = 0 ∧ (s.die 2).alive = true ∧ ∀ m : Fin 4, m.val < 2 → (s.die m).alive = false)) ∧
    (imageNum image0 0 4 = 0x44314450 ∧ imageNum image0 4 4 = 1 ∧ imageNum image0 0x5C 4 = 0 ∧ imageNum image0 0xB64 28 = 0 ∧
      imageNum image0 8 8 ≤ 4191360 ∧ 0xB80 + imageNum image0 8 8 ≤ image0.length ∧ (bootAt 2).card.stage = 2 ∧ (bootAt 3).card.stage = 3 ∧
      imageNum [] 0 4 ≠ 0x44314450 ∧ ¬ (0xB80 + imageNum image0 8 8 ≤ (image0.take 0xB80).length)) ∧
    ((bootAt 4).card.stage = 4 ∧ (5 : BitVec 4) ≠ 0 ∧ (bootAt 5).card.stage = 5 ∧ (bootAt 5).psc.toNat ≤ (7 : DWord).toNat ∧
      (bootAt 6).card.stage = 6) := by
  refine ⟨⟨rfl, ?_, ?_, ?_, ?_, ?_, ?_, rfl, ?_, ?_, ?_, ?_⟩, ⟨?_, ?_, ?_, ?_, ?_, ?_, rfl, rfl, ?_, ?_⟩, rfl, ?_, rfl, ?_, rfl⟩ <;> decide +kernel

theorem test_witness_LeaderLease_takeOver : let k := queue3 (packet 12 0 []); let s := fronted k
    (let s := ((s.updDie 0 fun d => { d with alive := false, lease := 0 }).updDie 2 fun d => { d with alive := true })
     s.queues = [k] ∧ blockReachable s 2 k = true ∧ blockReachable { s with psc := 0 } 2 k = false) ∧ s.unheld none 0 job4 k.state 512 = true ∧
    s.leader = some 0 ∧ s.queue? 3 = some k ∧ s.job? k.job = some job4 ∧ k.halted = false ∧ k.tearing = false ∧ k.uncommitted = true ∧
      okAnd (s.agentRead none 0 job4 k.state 288) (fun x => !x.2) = true ∧
      (match s.agentRead none 0 job4 (2 ^ 46) 288 with | .ok _ => false | .error _ => true) = true :=
  ⟨⟨rfl, by decide +kernel, by decide +kernel⟩, by decide +kernel, rfl, rfl, rfl, rfl, rfl, rfl, by decide +kernel, by decide +kernel⟩

/-- The image whose key's hash is in one-time storage, and the same image where it is not; no signature. A signature that holds is out of
the reach of a test: it takes some 1,700 permutations. -/
def keyed0 (h : BitVec 256) : State := { bootAt 3 with card := { (bootAt 3).card with keyHash := h } }
def key0 : List Byte := (image0.drop 0x18).take 68

theorem test_witness_LeaseAndBoot_image : (keyed0 0).card.stage = 3 ∧ natOfBytes (shake256 key0) ≠ (keyed0 0).card.keyHash.toNat ∧
    natOfBytes (shake256 key0) = (keyed0 (BitVec.ofNat 256 (natOfBytes (shake256 key0)))).card.keyHash.toNat ∧
    xmssVerify key0 ((image0.drop 0x60).take 2820) (image0.take 0x60 ++ (image0.drop 0xB80).take 8) = false :=
  ⟨rfl, by decide +kernel, by decide +kernel, by decide +kernel⟩

theorem test_witness_CardRegisters : (600 ≤ (600 : DWord).toNat ∧ (2200 : DWord).toNat ≤ 2200) ∧ (599 : DWord).toNat < 600 ∧
    2200 < (2201 : DWord).toNat ∧ bits (4 : DWord).toNat 63 2 ≠ 0 ∧ State.reset.card.hold = true ∧ (acting calm).card.hold = false ∧
    (1 : DWord).getLsbD 1 = false ∧ (∃ x ∈ List.replicate 15 (60 : Int) ++ [115], 115 ≤ x) ∧ (∀ x ∈ List.replicate 16 (114 : Int), x < 115) := by
  refine ⟨?_, ?_, ?_, ?_, rfl, rfl, ?_, ⟨115, ?_, ?_⟩, ?_⟩ <;> decide

/-- A floor that may rise at a stop in stage 4, and a burn that may be cut short. -/
theorem test_witness_CardRegisters_stops : (let s := { bootAt 4 with card := { (bootAt 4).card with version := 7 } }
    s.card.stage = 4 ∧ s.card.floor.toNat < s.card.version.toNat) ∧ State.reset.card.sensorsAt ≠ some (0 : DWord) := ⟨⟨rfl, by decide +kernel⟩, by decide⟩

/-- A request at the head of the mailbox, its block at host address 0x1000 and its completion record at 0x8000. -/
def asking (s : State) (code len : Nat) (body : List Nat) : State :=
  { s with card := { s.card with mailbox := [0x1000] }
           mem := s.mem.setBytes (hostPhys 0x1000) (words64 [code * 2 ^ 56 + len * 2 ^ 32 + 77, 0x8000] ++ bytesOfNat 48 0 ++ words64 body) }
def fronting : State := fronted (queue3 (packet 12 0 []))
def idle : State := { acting (calm.updCore 0 fun k => { k with strand := none }) with jobs := [], queues := [], launches := [], graphs := [] }
def asks (s : State) (code len : Nat) : Bool :=
  mailReady s && decide ((blockAt s 0x1000).code = code ∧ (blockAt s 0x1000).ok = true ∧ (blockAt s 0x1000).len = len)

def jobWords (key : Nat) : List Nat :=
  [2 ^ 56 + key * 2 ^ 36, 0x100000, 2 ^ 44, 4, 2 ^ 44, 0, 0, 2 ^ 44 + 0x10000, 8, 0, 0, 0, 0, 0, 0, 0]
def queueWords : List Nat := [4, 1, 0, 0, 0, 0, 1 * 2 ^ 32 + 12 * 2 ^ 27, 2 ^ 44 + 0xB000, 2 ^ 44 + 0xA000]
def keyed (s : State) : State := { s with keys := [(0, 7)] }

theorem test_witness_JobAndQueueRequests :
    ((acting calm).card.stage = 7 ∧ (0x1000 : DWord).toNat % 64 = 0 ∧ (0x1008 : DWord).toNat % 64 ≠ 0 ∧
      (let s := asking idle 6 24 []; 1 ≤ (blockAt s 0x1000).code ∧ (blockAt s 0x1000).code ≤ 14)) ∧
    (let s := asking (keyed idle) 1 128 (jobWords 0)
     asks s 1 128 = true ∧ firstBad (descriptorBad s (blockAt s 0x1000)) = none ∧ s.job? 9 = none ∧
       (∀ d ∈ dieIds, blockFree s d 5 = true) ∧ (∀ d ∈ dieIds, ∃ k, k < 16 ∧ blockFree s d k = true)) ∧
    (let s := asking (keyed idle) 1 128 (jobWords 2); ∃ w, firstBad (descriptorBad s (blockAt s 0x1000)) = some w) ∧
    (let s := asking fronting 2 8 [1]; asks s 2 8 = true ∧ (blockAt s 0x1000).word 0 = 1 ∧ s.job? 1 = some job4) ∧
    (let s := asking fronting 2 8 [2 ^ 32]; 2 ^ 32 ≤ (blockAt s 0x1000).word 0 ∧ (blockAt s 0x1000).word 0 < 2 ^ 64) ∧
    (let s := asking fronting 3 72 queueWords
     asks s 3 72 = true ∧ firstBad (queueBad s (blockAt s 0x1000)) = none ∧ s.queue? 4 = none) ∧
    (let s := asking fronting 3 72 (3 :: queueWords.drop 1)
     firstBad (queueBad s (blockAt s 0x1000)) = none ∧ (s.queue? 3).isSome = true ∧ (blockAt s 0x1000).word 0 = 3) ∧
    (let s := asking fronting 4 8 [3]; asks s 4 8 = true ∧ (blockAt s 0x1000).word 0 = 3 ∧ (s.queue? 3).isSome = true) := by
  refine ⟨⟨rfl, ?_, ?_, ?_⟩, ⟨?_, ?_, ?_, ?_, ?_⟩, Option.isSome_iff_exists.mp ?_, ⟨?_, ?_, rfl⟩, ?_, ⟨?_, ?_, rfl⟩, ⟨?_, ?_, ?_⟩, ⟨?_, ?_, ?_⟩⟩ <;>
    decide +kernel

/-- What the homes of a new job's counters, of a queue's state block and of a torn-down job's queues ask for: nothing is held. -/
theorem test_witness_JobAndQueueRequests_held :
    (let s := asking (keyed idle) 1 128 (jobWords 0)
     let j := jobFrom (blockAt s 0x1000) 9 (Vector.replicate 4 0)
     (clearBlocks { s with jobs := s.jobs ++ [j] } j.dsb).heldAt none 0 j (counterAddr j 0xFFFF) 32 = none) ∧
    (let s := asking fronting 3 72 queueWords; s.job? 1 = some job4 ∧ s.unheld none s.leaderDie job4 ((blockAt s 0x1000).word 7) 512 = true) ∧
    (let s := asking fronting 2 8 [1]
     (∀ q ∈ (s.queues.filter fun k => k.job == 1).map fun k => k.q, ∀ h ∈ queueLaunches s q, cancelReady s h = true) ∧
       ∀ k ∈ s.queues, k.job = 1 → queueReady s k = true) ∧
    (let s := asking fronting 9 64 []; s.card.mailbox = [0x1000] ∧ (blockAt s 0x1000).code = 9 ∧ (blockAt s 0x1000).len ≠ 72) := by
  refine ⟨?_, ⟨rfl, ?_⟩, ⟨?_, ?_⟩, ?_⟩ <;> decide +kernel

/-- A deterministic job whose sixteen blocks leave none free; a teardown under way. -/
theorem test_witness_JobAndQueueRequests_others :
    (let s := { keyed idle with jobs := (List.range 16).map fun k => { demoJob with no := BitVec.ofNat 32 (10 + k), dsb := Vector.replicate 4 (1024 * k) } }
     ∃ d ∈ dieIds, ∀ k, k < 16 → blockFree s d k = false) ∧
    (let s := { asking fronting 2 8 [1] with card := { (asking fronting 2 8 [1]).card with serving := some ⟨77, 0x8000, 1⟩ } }
     s.job? 1 = some job4 ∧ frontReady s = true ∧ s.card.fepel = true ∧ jobRuns s 1 = true) ∧
    jobRuns { idle with jobs := [job4] } 1 = false ∧
    (let s := asking fronting 13 8 [0]; (blockAt s 0x1000).code = 13 ∧ (blockAt { s with mem := s.mem.setBytes (hostPhys 0x1000) [1, 2, 3, 4, 7] } 0x1000).ok = false) := by
  refine ⟨⟨0, ?_, ?_⟩, ⟨rfl, ?_, rfl, ?_⟩, ?_, ?_, ?_⟩ <;> decide +kernel

/-- The image of the record in the mapped page, with a policy whose entry is zero. -/
def imageWords : List Nat := [1 * 2 ^ 32 + 2, 8 * 0, 2 ^ 44 + 0x8000, 64, 0, 0, 2 ^ 44 + 0x5000, ringEntry .bf16 0 0] ++ List.replicate 25 0

theorem test_witness_RecordAndKeyRequests :
    (let s := asking fronting 5 264 imageWords
     asks s 5 264 = true ∧ bits ((blockAt s 0x1000).word 0) 31 30 = 0 ∧ s.job? 1 = some job4 ∧ (s.launches.any fun l => l.job == 1) = true ∧
       firstBad ((bits ((blockAt s 0x1000).word 0) 29 24 != 0 || decide (bits ((blockAt s 0x1000).word 0) 23 0 ≥ job4.rtsize)) ::
         imageBad s job4 (blockAt s 0x1000)) = none) ∧
    (let s := asking idle 5 8 [1 * 2 ^ 32 + 2 ^ 30 + 2]; asks s 5 8 = true ∧ bits ((blockAt s 0x1000).word 0) 31 30 = 1 ∧ s.job? 1 = none) ∧
    (let s := asking fronting 5 8 [1 * 2 ^ 32 + 2 ^ 30 + 2]
     bits ((blockAt s 0x1000).word 0) 23 0 < job4.rtsize ∧ bits ((blockAt s 0x1000).word 0) 29 24 = 0) ∧
    (let s := asking fronting 5 24 [1 * 2 ^ 32 + 2 ^ 31, 0, 0]; asks s 5 24 = true ∧ bits ((blockAt s 0x1000).word 0) 31 30 = 2) ∧
    (let s := asking fronting 5 8 [1 * 2 ^ 32 + 3 * 2 ^ 30]; bits ((blockAt s 0x1000).word 0) 31 30 = 3) ∧
    (let s := asking fronting 6 24 [1, 2 ^ 44, 0x10000]
     asks s 6 24 = true ∧ (blockAt s 0x1000).word 1 % 65536 = 0 ∧ (blockAt s 0x1000).word 2 % 65536 = 0) ∧
    (let s := asking fronting 7 72 [5, 1, 2, 3, 4, 5, 6, 7, 8]
     asks s 7 72 = true ∧ (blockAt s 0x1000).word 0 = 5 ∧ (∀ j ∈ s.jobs, j.key ≠ 5) ∧ ∃ j ∈ s.jobs, j.key = 0) ∧
    (let ws := (List.range 12).map fun i => i / 3 * 0x3000000000 + i % 3 * 0x200000000
     let s := asking fronting 10 96 ws
     asks s 10 96 = true ∧ (∀ i, i < 12 → i / 3 * 0x3000000000 ≤ (blockAt s 0x1000).word i ∧
       (blockAt s 0x1000).word i + [0x180000000, 0x10000000, 0x40000000].getD (i % 3) 0 ≤ (i / 3 + 1) * 0x3000000000) ∧
       ∀ j ∈ s.jobs, j.det = false) := by
  refine ⟨⟨?_, ?_, rfl, ?_, ?_⟩, ⟨?_, ?_, ?_⟩, ⟨?_, ?_⟩, ⟨?_, ?_⟩, ?_, ⟨?_, ?_, ?_⟩, ⟨?_, ?_, ?_, ?_⟩, ⟨?_, ?_, ?_⟩⟩ <;> decide +kernel

/-- A deletion that nothing holds and no launch delays, and one that a slot holds. -/
theorem test_witness_RecordAndKeyRequests_now : let u : RecordUpdate := { kind := 1, index := 2, image := [] }
    (let s := { asking fronting 5 8 [1 * 2 ^ 32 + 2 ^ 30 + 2] with launches := [] }
     asks s 5 8 = true ∧ s.job? 1 = some job4 ∧ (s.launches.any fun l => l.job == 1) = false ∧ updateHeld s job4 u = none ∧
       derailleursReady s = true) ∧
    (let s := { fronting with holds := [⟨.job 1, 0, 0x202060⟩], extensions := [(6, 0, 20000), (6, 1, 20000), (6, 2, 20000)] }
     updateHeld s job4 u ≠ none) := by
  refine ⟨⟨?_, rfl, ?_, ?_, ?_⟩, ?_⟩ <;> decide +kernel

/-- A halted strand and a request for no bytes of its image, which lie within every image, and a host range that ends beyond 2^47. The image
itself, 334,656 bytes, is out of the reach of a test. -/
theorem test_witness_DebugAndReportRequests_images : let st := { st0 with halted := true }
    let s := (asking fronting 8 32 [2 * 2 ^ 56, 1, 0, 0x9000]).setStrand 0 st
    s.strand 0 = some st ∧ asks s 8 32 = true ∧ bits ((blockAt s 0x1000).word 0) 63 56 = 2 ∧ (blockAt s 0x1000).span = (0, 0) ∧
      0 + 0 ≤ (drawImage s 0 st).1.length ∧ (blockAt s 0x1000).word 3 + 0 ≤ 2 ^ 47 ∧ 2 ^ 47 < 2 ^ 47 + 64 :=
  ⟨rfl, by decide +kernel, by decide +kernel, by decide +kernel, Nat.zero_le _, by decide +kernel, by decide⟩

/-- A word partway that waits on another engine, and one that does not. -/
theorem test_witness_DebugAndReportRequests_short :
    ({ st0 with m := { st0.m with progress := 1, wait := some .push } } : Strand).short .m = false ∧
    ({ st0 with m := { st0.m with progress := 1, wait := some (.held 0) } } : Strand).short .m = true ∧ (∀ e, st0.short e = false) :=
  ⟨by decide +kernel, by decide +kernel, fun e => by cases e <;> decide +kernel⟩

/-- The access engine keeps a popped address. -/
def latched : Strand := { st0 with a := { st0.a with latch := some { addr := ⟨0, false⟩ } } }

theorem test_witness_DebugAndReportRequests :
    (let s := asking fronting 8 32 [0, 1, 64 * 2 ^ 32, 0x9000]
     asks s 8 32 = true ∧ bits ((blockAt s 0x1000).word 0) 63 56 = 0 ∧ bits ((blockAt s 0x1000).word 0) 55 0 = 0 ∧
       bits ((blockAt s 0x1000).word 1) 63 32 = 0 ∧ s.strand 0 = some st0 ∧ st0.job = BitVec.ofNat 32 ((blockAt s 0x1000).word 1) ∧
       st0.stop = none ∧ st0.halted = false ∧ ({ st0 with halted := true } : Strand).halted = true ∧
       latched.a.latch = some { addr := ⟨0, false⟩ } ∧ ({ addr := ⟨0, false⟩ } : Latch).moved = false) ∧
    (let s := asking fronting 8 32 [1 * 2 ^ 56 + 5, 1, 0, 0]; bits ((blockAt s 0x1000).word 0) 63 56 = 1 ∧ s.strand 5 = none) ∧
    (let s := asking fronting 8 32 [4 * 2 ^ 56, 1, 0, 0]; 3 < bits ((blockAt s 0x1000).word 0) 63 56) ∧
    (let s := asking fronting 9 72 [1, 2, 3, 4, 5, 6, 7, 8, 0x9000]; asks s 9 72 = true ∧ s.card.block = none ∧ s.card.spent < 1024) ∧
    (let s := asking fronting 11 24 [3, 0x9000, 10]; asks s 11 24 = true ∧ (blockAt s 0x1000).word 0 = 3) ∧
    (let s := asking fronting 12 8 [0x9000]; asks s 12 8 = true) ∧
    (let s := asking { fronting with calendar := some 0x4000 } 13 0 []; asks s 13 0 = true ∧ s.calendar = some 0x4000) ∧
    (let s := asking fronting 14 8 [0x9000]; asks s 14 8 = true) := by
  refine ⟨⟨?_, ?_, ?_, ?_, rfl, ?_, rfl, rfl, rfl, rfl, rfl⟩, ⟨?_, ?_⟩, ?_, ⟨?_, rfl, ?_⟩, ⟨?_, ?_⟩, ?_, ⟨?_, rfl⟩, ?_⟩ <;> decide +kernel

/-- SHAKE256 of no bytes, as FIPS 202's published examples have it. -/
theorem test_shake256_empty : natOfBytes (shake256 []).reverse = 0x46b9dd2b0ba88d13233b3feb743eeb243fcd52ea62b81b82b50c27646ed5762f := by decide +kernel

/-! Encodings, stores and frames. -/

theorem test_witness_EncodedBytesDecode : (encode (.lih 31 0xFFFFFFFF)).isSome = true ∧ (encode (.vrshr 15 20 21 6 4 1)).isSome = true ∧
    (encode (.semwWide .x 1 1023 0xFFFFFFFF)).isSome = true := ⟨by decide, by decide, by decide⟩

theorem test_witness_StoresChangeOnlyTheirBytes : State.reset.memWf ∧ (writeOf (some wid0)).addr % 128 + (writeOf (some wid0)).bytes.length ≤ 128 ∧
    (let s := { calm with tags := [(0x210000 / 128, { wid0 with strand := 9 })] }
     losesTo wid0 (lookupNat s.tags ((writeOf (some wid0)).addr / 128)) 0 = true ∧ isHost 0x210000 = false) ∧
    losesTo wid0 (lookupNat calm.tags ((writeOf (some wid0)).addr / 128)) 0 = false ∧ (∀ d, (calm.die d).reserved = false) ∧
    0 < [(5 : Byte)].length :=
  ⟨test_witness_StepKeepsMemory, by decide, ⟨by decide, by decide⟩, by decide, by decide, by decide⟩

theorem test_witness_WordsFrame : (calm.strand calm.focusTile).isSome = true ∧ (st0.eng .v).rep = none := ⟨rfl, rfl⟩

theorem test_witness_NopOnlySteps : (atEng .m id).focusEng = .m ∧ (atEng .m id).ready .m 1 st0 :=
  ⟨rfl, ready_at .m .m id 1 (by decide)⟩

theorem test_witness_ScalarRegisters : (31 : Code) ≠ 0 ∧ (30 : Code) ≠ 31 := by decide


/-- The worked values of FIPS 197: a product (section 4.2), a substituted byte (5.1.1) and its inverse, and the first word that the
key schedule of appendix A.3 adds. -/
theorem test_aes_pieces : fieldMul 0x57 0x83 = 0xC1 ∧ subByte 0x53 = 0xED ∧ unsubByte 0xED = 0x53 ∧
    ((keyWords ((bytesOfNat 32 0x603DEB1015CA71BE2B73AEF0857D77811F352C073B6108D72D9810A30914DFF4).reverse)).getD 8 []) = [0x9B, 0xA3, 0x54, 0x11] ∧
    shiftRows true (shiftRows false ((List.range 16).map (BitVec.ofNat 8))) = (List.range 16).map (BitVec.ofNat 8) :=
  ⟨by decide +kernel, by decide +kernel, by decide +kernel, by decide +kernel, by decide +kernel⟩

end Sys2Proof.Tests
end

section
/-! PROOFS. The round trip of the encoder and the decoder on bytes (R6, R73, R75, R79, R92): the round trip on words, which
Laws.RoundTrip states one constructor at a time, carried to the bytes of a text. -/

namespace Sys2Proof

namespace Laws.RoundTrip

/-- The family RoundTrip for any instruction. The constructors that a text word encodes are listed by the map that defines
them; the rest are machine steps, which the encoder answers with `none`. -/
theorem ofInstr (i : Instr) : Statement i := by
  cases i with
  -- the control engine
  | add => apply add | sub => apply sub | mul => apply mul | mulh => apply mulh | div => apply div | rem => apply rem
  | and => apply and | or => apply or | xor => apply xor | shl => apply shl | shr => apply shr | min => apply min
  | max => apply max | cmp => apply cmp | sel => apply sel | addi => apply addi | andi => apply andi
  | shli => apply shli | shri => apply shri | sari => apply sari | li => apply li | argl => apply argl
  | qput => apply qput | qget => apply qget | bset => apply bset | gsel => apply gsel | check => apply check
  | ori => apply ori | xori => apply xori | liw => apply liw | lih => apply lih | args => apply args
  | srd => apply srd | swr => apply swr | tick => apply tick | mslot => apply mslot | ctrr => apply ctrr
  | tbind => apply tbind | tunb => apply tunb | tread => apply tread | tver => apply tver | tstat => apply tstat
  | tsync => apply tsync | tstmp => apply tstmp | tring => apply tring
  -- the shared majors of every engine
  | semi => apply semi | semd => apply semd | sems => apply sems | semw => apply semw | semiWide => apply semiWide
  | semdWide => apply semdWide | semsWide => apply semsWide | semwWide => apply semwWide | rep => apply rep
  -- the strand-wide map
  | br => apply br | brq => apply brq | call => apply call | loop => apply loop | loopq => apply loopq
  | safe => apply safe | safeG => apply safeG | fence => apply fence
  -- the access engine
  | aadd => apply aadd | asub => apply asub | aaddi => apply aaddi | amuli => apply amuli | ali => apply ali
  | aliw => apply aliw | aaddw => apply aaddw | hset => apply hset | hsetw => apply hsetw | hget => apply hget
  | hld => apply hld | awin => apply awin | ald => apply ald | aldS => apply aldS | ast => apply ast
  | cpy => apply cpy | prmt => apply prmt | agth => apply agth | asca => apply asca | aatm => apply aatm
  | stu => apply stu | reqt => apply reqt | surv => apply surv | apf => apply apf
  -- the vector engine
  | vadd => apply vadd | vsub => apply vsub | vmul => apply vmul | vfma => apply vfma | vmin => apply vmin
  | vmax => apply vmax | vand => apply vand | vor => apply vor | vxor => apply vxor | vshl => apply vshl
  | vshr => apply vshr | vrshr => apply vrshr | vmac2 => apply vmac2 | vexp2 => apply vexp2 | vlog2 => apply vlog2
  | vrcp => apply vrcp | vrsq => apply vrsq | vtanh => apply vtanh | vsig => apply vsig | vabs => apply vabs
  | vneg => apply vneg | vnot => apply vnot | vpush => apply vpush | vsel => apply vsel | vcvt => apply vcvt
  | vqnt => apply vqnt | vdq => apply vdq | vrot => apply vrot | vslide => apply vslide | vbcast => apply vbcast
  | vredSum => apply vredSum | vredMax => apply vredMax | vredMin => apply vredMin | vredAmax => apply vredAmax
  | vmov => apply vmov | vli => apply vli | viota => apply viota | vcpr => apply vcpr | vpcnt => apply vpcnt
  -- the matrix engine
  | mzero => apply mzero | mma => apply mma | msoft => apply msoft | mscale => apply mscale
  | mscaleC2m => apply mscaleC2m | mout => apply mout | mdrn => apply mdrn | mside => apply mside
  | msrst => apply msrst | mcpy => apply mcpy | madd => apply madd
  -- the exchange engine
  | xcmd => apply xcmd | xbind => apply xbind | xput => apply xput | xget => apply xget | xstat => apply xstat
  | xabort => apply xabort | xmov => apply xmov | xli => apply xli | xadd => apply xadd | xaddi => apply xaddi
  | xliw => apply xliw
  -- words without an operand
  | ret => apply ret | endl => apply endl | resume => apply resume | nop => apply nop | endW => apply endW
  | velse => apply velse | vpend => apply vpend
  -- machine steps
  | _ => exact ofNone rfl

end Laws.RoundTrip

/-- The four bytes of a text word are that word, read little-endian. -/
@[simp] theorem wordOfBytes_of_bytesOfWord (w : Word) :
    wordOfBytes (w.extractLsb' 0 8) (w.extractLsb' 8 8) (w.extractLsb' 16 8) (w.extractLsb' 24 8) = w := by
  rw [wordOfBytes, BitVec.extractLsb'_append_extractLsb'_eq_extractLsb' (by rfl),
    BitVec.extractLsb'_append_extractLsb'_eq_extractLsb' (by rfl),
    BitVec.extractLsb'_append_extractLsb'_eq_extractLsb' (by rfl), BitVec.extractLsb'_eq_self]

/-- No map stands under the reserved tags 0b110 and 0b111 (R30), so a word that decodes has neither. -/
theorem not_six_le_tag_of_decode {w imm : Word} {i : Instr} (h : decode w imm = some i) :
    ¬ 6 ≤ (Fields.ofWord w).tag.toNat := by
  unfold decode decodeFields at h
  split at h
  case h_7 => cases h
  all_goals omega

/-- A word that is no wide form decodes from its own four bytes. -/
theorem decodeBytes_narrow {w : Word} {i : Instr} (hd : decode w 0 = some i) (hw : isWide w = false) (rest : List Byte) :
    decodeBytes (bytesOfWord w ++ rest) = .ok (i, rest) := by
  simp only [bytesOfWord, List.cons_append, List.nil_append, decodeBytes, wordOfBytes_of_bytesOfWord, ge_iff_le,
    not_six_le_tag_of_decode hd, hw, hd, if_false, Bool.false_eq_true]

/-- A wide form (R83) decodes from its own four bytes and the four of its immediate word. -/
theorem decodeBytes_wide {w imm : Word} {i : Instr} (hd : decode w imm = some i) (hw : isWide w = true) (rest : List Byte) :
    decodeBytes (bytesOfWord w ++ bytesOfWord imm ++ rest) = .ok (i, rest) := by
  simp [decodeBytes, bytesOfWord, hd, hw, not_six_le_tag_of_decode hd]

theorem encodeBytes_of_narrow {i : Instr} {w : Word} (h : encode i = some (w, none)) : encodeBytes i = bytesOfWord w := by
  simp [encodeBytes, h]

theorem encodeBytes_of_wide {i : Instr} {w imm : Word} (h : encode i = some (w, some imm)) :
    encodeBytes i = bytesOfWord w ++ bytesOfWord imm := by
  simp [encodeBytes, h]

theorem len_of_narrow {i : Instr} {w : Word} (h : encode i = some (w, none)) : i.len = 1 := by
  simp [Instr.len, h]

theorem len_of_wide {i : Instr} {w imm : Word} (h : encode i = some (w, some imm)) : i.len = 2 := by
  simp [Instr.len, h]

/-- Settles O2: an instruction of one text word and one of two are the two forms of the encoding; in each the words decode to
the instruction (`Laws.RoundTrip.ofInstr`) and the bytes give the words back. -/
theorem encodedBytesDecode : Obligations.EncodedBytesDecode := by
  unfold Obligations.EncodedBytesDecode
  intro i rest hi
  obtain ⟨⟨w, imm⟩, he⟩ := Option.isSome_iff_exists.mp hi
  obtain ⟨hd, hw⟩ := Laws.RoundTrip.ofInstr i w imm he
  cases imm with
  | none =>
    rw [encodeBytes_of_narrow he, len_of_narrow he]
    exact ⟨decodeBytes_narrow hd hw rest, rfl⟩
  | some imm =>
    rw [encodeBytes_of_wide he, len_of_wide he]
    exact ⟨decodeBytes_wide hd hw rest, rfl⟩

end Sys2Proof
end

section
/-! PROOFS. Queues that go on, doorbells, and the units of a COPY or FILL (R309, R312, R347, R349, R353, R355, R371): what a
packet that holds its queue comes to is said once by `packetStep_of_held`, what a doorbell comes to by the lemmas on `takeBell`. -/

namespace Sys2Proof.Machine

/-! What these steps execute. -/

theorem exec_waitSatisfied (q : BitVec 8) (s : State) : exec (.waitSatisfied q) s = execWaitSatisfied q s := rfl
theorem exec_signalPacket (q : BitVec 8) (s : State) : exec (.signalPacket q) s = execSignalPacket q s := rfl
theorem exec_barRelease (q : BitVec 8) (s : State) : exec (.barRelease q) s = execBarRelease q s := rfl
theorem exec_nopPacket (q : BitVec 8) (s : State) :
    exec (.nopPacket q) s = packetStep q 12 .none (fun s _ _ => .done s) s := rfl
theorem exec_doorbell (q : BitVec 8) (v : DWord) (s : State) : exec (.doorbell q v) s = execDoorbell q v s := rfl
theorem exec_copyFillComplete (h : Nat) (s : State) : exec (.copyFillComplete h) s = execCopyFillComplete h s := rfl

/-! Queues looked up after an update. -/

/-- An update that keeps the queue's number is what a look-up of that queue shows. -/
theorem State.queue?_updQueue {s : State} {q : BitVec 8} {f : Queue → Queue} (hf : ∀ k, (f k).q = k.q) :
    (s.updQueue q f).queue? q = (s.queue? q).map f := by
  have keeps : ((fun k : Queue => k.q == q) ∘ fun k => if k.q == q then f k else k) = fun k => k.q == q := by
    funext k
    show ((if k.q == q then f k else k).q == q) = (k.q == q)
    split <;> simp only [hf]
  rw [State.queue?, State.updQueue, List.find?_map, keeps, State.queue?]
  cases found : s.queues.find? fun k => k.q == q with
  | none => rfl
  | some k =>
    have hq : (k.q == q) = true := List.find?_some (p := fun k : Queue => k.q == q) found
    simp only [Option.map_some, hq, if_true]

/-- A queue whose front end is ready has a leader that acts (R371). -/
theorem frontEndActs_of_queueReady {s : State} {k : Queue} (h : queueReady s k = true) : frontEndActs s = true := by
  simp only [queueReady, Bool.and_eq_true] at h
  exact h.1.1

/-! A packet in hand (R349, R352). -/

/-- The queue's front end is ready, no doorbell waits on it, it runs, and `p` is the packet in hand. -/
structure PacketInHand (s : State) (q : BitVec 8) (k : Queue) (p : Packet) (rest : List Packet) (j : Job) : Prop where
  queue : s.queue? q = some k
  batch : k.batch = p :: rest
  job : s.job? k.job = some j
  ready : queueReady s k = true
  bell : k.bell = none
  halted : k.halted = false
  tearing : k.tearing = false

/-- What the packet in hand makes of its execution: it is behind, holds its queue, waits or halts it. -/
def Executed.out (s : State) (q : BitVec 8) (shadow : Vector DWord 32) (ord : Nat) : Executed → Out
  | .done s1 => .next (finishPacket (s1.updQueue q fun k => { k with shadow }) q)
  | .hold h s1 => .next (s1.updQueue q fun k => { k with shadow, hold := h })
  | .later => .next s
  | .halt s1 => .next (haltQueue s1 q errAddress ord)

section
variable {s : State} {q : BitVec 8} {k : Queue} {p : Packet} {rest : List Packet} {j : Job} {op : Nat} {h : Hold}
  {f : State → Queue → Job → Executed}

/-- A packet that holds its queue executes again with the shadow registers as they are, which its words have replaced already;
it waits on while a slot or an extension holds its counter (R247, R312). -/
theorem packetStep_of_held (hand : PacketInHand s q k p rest j) (hop : p.op.toNat = op) (hold : k.hold = h) (hh : h ≠ .none) :
    packetStep q op h f s = (s.gateStep (.queue q) s.leaderDie (packetRanges j p.op.toNat k.shadow)).elim
      ((f (s.letGo (.queue q)) k j).out s q k.shadow p.ord) .next := by
  obtain ⟨hqueue, hbatch, hjob, hready, hbell, hhalted, htearing⟩ := hand
  cases k
  dsimp only at *
  subst hop hold hbatch hbell hhalted htearing
  cases gate : s.gateStep (.queue q) s.leaderDie (packetRanges j p.op.toNat _) with
  | some s1 => simp [packetStep, hqueue, hready, hjob, hh, gate]
  | none =>
    cases outcome : f (s.letGo (.queue q)) _ j <;>
      simp [packetStep, hqueue, hready, hjob, hh, gate, outcome, Executed.out, notDue]

/-- No packet executes on a queue that the front end does not serve. -/
theorem packetStep_of_not_ready (hq : s.queue? q = some k) (hr : queueReady s k = false) : packetStep q op h f s = .next s := by
  simp [packetStep, hq, hr, notDue]

/-- A doorbell that waits is taken before any packet. -/
theorem packetStep_of_bell {v : DWord} (hq : s.queue? q = some k) (hr : queueReady s k = true) (hb : k.bell = some v) :
    packetStep q op h f s = .next (takeBell s q) := by
  simp [packetStep, hq, hr, hb]

/-- A queue with no packet in hand goes on reading. -/
theorem packetStep_of_batch_nil (hq : s.queue? q = some k) (hr : queueReady s k = true) (hb : k.bell = none)
    (hn : k.batch = []) (hj : s.job? k.job = some j) : packetStep q op h f s = .next (frontEnd s q) := by
  simp [packetStep, hq, hr, hb, hn, hj]

/-! WAIT, SIGNAL and the bar bit (R349, R351, R435). -/

/-- A WAIT whose counter has been final while it waited goes on, whatever the counter holds now (R435). -/
theorem waitPacketOp_of_met {r : Released} (hm : k.met = some r) :
    waitPacketOp s k j = .done (s.updQueue k.q fun k => { k with acq := k.acq.join r }) := by
  simp only [waitPacketOp, hm]

/-- A WAIT holds its queue while its counter is PENDING. -/
theorem waitPacketOp_of_pending (hm : k.met = none) (hv : counterState s j (bits (creg k.shadow 21) 15 0) = .ok 1) :
    waitPacketOp s k j = .hold .wait s := by
  simp only [waitPacketOp, hm, hv, if_true]

/-- A WAIT whose counter is not PENDING acquires what the counter released. -/
theorem waitPacketOp_of_not_pending {v : Nat} (hm : k.met = none)
    (hv : counterState s j (bits (creg k.shadow 21) 15 0) = .ok v) (h1 : v ≠ 1) :
    waitPacketOp s k j =
      .done (s.updQueue k.q fun k' => { k' with acq := k'.acq.join (counterRel j (bits (creg k.shadow 21) 15 0)) }) := by
  simp only [waitPacketOp, hm, hv, h1, if_false]

/-- A SIGNAL that holds its queue waits on while earlier work is left or its die has completed a release in this tick (R309, log 41). -/
theorem signalOp_held_later (hold : k.hold = .signal) (hn : bits (creg k.shadow 22) 15 0 ≠ 0)
    (hw : queueWork s q = true ∨ s.unraised s.leaderDie = false) : signalOp q s k j = .later := by
  have waiting : (queueWork s q || !s.unraised s.leaderDie) = true := by simpa using hw
  simp [signalOp, hold, hn, waiting]

/-- A SIGNAL that holds its queue completes its counter once nothing is left to wait for, as a release. -/
theorem signalOp_held_done {s1 : State} (hold : k.hold = .signal) (hn : bits (creg k.shadow 22) 15 0 ≠ 0)
    (hw : queueWork s q = false) (hu : s.unraised s.leaderDie = true)
    (hf : finalCounter s j (bits (creg k.shadow 22) 15 0) {} = .ok s1) :
    signalOp q s k j = .done (settle ((counterMet s1 j.no (bits (creg k.shadow 22) 15 0)
      { wide := (k.acq.at s.leaderDie).join (frontCovers s).wide }).raiseEpoch s1.leaderDie)) := by
  simp [signalOp, hold, hn, hw, hu, hf]

/-- A SIGNAL that holds its queue halts it where its counter cannot be written (R496). -/
theorem signalOp_held_halt {e : FaultCode} (hold : k.hold = .signal) (hn : bits (creg k.shadow 22) 15 0 ≠ 0)
    (hw : queueWork s q = false) (hu : s.unraised s.leaderDie = true)
    (hf : finalCounter s j (bits (creg k.shadow 22) 15 0) {} = .error e) : signalOp q s k j = .halt s := by
  simp [signalOp, hold, hn, hw, hu, hf]

/-- What a WAIT that holds its queue comes to: where it would hold it again, it waits on. -/
def waitAgain (s : State) (k : Queue) (j : Job) : Executed :=
  match waitPacketOp s k j with
  | .hold _ _ => .later
  | r => r

theorem execWaitSatisfied_of_held (hand : PacketInHand s q k p rest j) (hop : p.op = 5) (hold : k.hold = .wait) :
    execWaitSatisfied q s = (s.gateStep (.queue q) s.leaderDie (packetRanges j p.op.toNat k.shadow)).elim
      ((waitAgain (s.letGo (.queue q)) k j).out s q k.shadow p.ord) .next := by
  have again : execWaitSatisfied q s = packetStep q 5 .wait waitAgain s := by
    simp only [execWaitSatisfied, hand.queue, hold, bne_self_eq_false, Bool.false_eq_true, if_false] <;> rfl
  rw [again, packetStep_of_held hand (by rw [hop]; rfl) hold (by decide)]

theorem execSignalPacket_of_held (hand : PacketInHand s q k p rest j) (hop : p.op = 6) (hold : k.hold = .signal)
    (gate : s.gateStep (.queue q) s.leaderDie (packetRanges j p.op.toNat k.shadow) = none) :
    execSignalPacket q s = (signalOp q (s.letGo (.queue q)) k j).out s q k.shadow p.ord := by
  rw [execSignalPacket, packetStep_of_held hand (by rw [hop]; rfl) hold (by decide), gate, Option.elim_none]

end

/-- A bar bit keeps its packet while earlier work of the queue is left (R349). -/
theorem execBarRelease_of_work {s : State} {q : BitVec 8} (hw : queueWork s q = true) : execBarRelease q s = .next s := by
  unfold execBarRelease
  split
  · rfl
  · split
    · rfl
    · simp [hw, notDue]

/-- A bar bit goes once no earlier work of the queue is left. -/
theorem execBarRelease_of_no_work {s : State} {q : BitVec 8} {k : Queue} {p : Packet} {rest : List Packet} {j : Job}
    (hand : PacketInHand s q k p rest j) (hold : k.hold = .none) (hbar : p.bar = true) (hw : queueWork s q = false) :
    execBarRelease q s = .next (s.updQueue q fun k => { k with batch := { p with bar := false } :: rest }) := by
  simp [execBarRelease, hand.queue, hand.batch, hand.halted, frontEndActs_of_queueReady hand.ready, hold, hbar, hw]

/-! Doorbells (R347, R355, R461). -/

/-- The state in which the card keeps a doorbell's value and the queue has it to take. -/
def rungBell (s : State) (q : BitVec 8) (value : DWord) : State :=
  (setDoorbell s q (value.setWidth 40)).updQueue q fun k => { k with bell := some value }

section
variable {s : State} {q : BitVec 8} {value : DWord}

theorem queue?_rungBell : (rungBell s q value).queue? q = (s.queue? q).map fun k => { k with bell := some value } :=
  State.queue?_updQueue fun _ => rfl

/-- The card refuses a doorbell before its boot has ended, and a value of more than 40 bits (R461). -/
theorem execDoorbell_of_refused (bad : ¬ (s.card.stage = 7 ∧ bits value.toNat 63 40 = 0)) :
    execDoorbell q value s = .next (refuseWrite s (8 * q.toNat)) := by
  have refused : (s.card.stage != 7 || bits value.toNat 63 40 != 0) = true := by
    simpa only [Bool.or_eq_true, bne_iff_ne, ne_eq, ← not_and_or] using bad
  rw [execDoorbell, if_pos refused]

/-- What the card does with a doorbell that it accepts depends on the Fepel Link (R22, R247). -/
theorem execDoorbell_of_legal (legal : s.card.stage = 7 ∧ bits value.toNat 63 40 = 0) :
    execDoorbell q value s =
      if s.card.fepel = false then .next (setDoorbell s q (value.setWidth 40))
      else if ((s.slotNow && s.majorSlot) || s.extensions.any fun x => x.1 == 5) = true then .next s
      else .next (takeBell (rungBell s q value) q) := by
  obtain ⟨hstage, hbits⟩ := legal
  simp only [execDoorbell, hstage, hbits, bne_self_eq_false, Bool.or_self, Bool.false_eq_true, if_false, Bool.not_eq_true'] <;> rfl

/-- A doorbell that the card accepts comes to its queue where the Fepel Link is in service and nothing holds it. -/
theorem execDoorbell_of_arrives (legal : s.card.stage = 7 ∧ bits value.toNat 63 40 = 0) (link : s.card.fepel = true)
    (free : ((s.slotNow && s.majorSlot) || s.extensions.any fun x => x.1 == 5) = false) :
    execDoorbell q value s = .next (takeBell (rungBell s q value) q) := by
  rw [execDoorbell_of_legal legal, if_neg (by simp [link]), if_neg (ne_true_of_eq_false free)]

/-- A doorbell waits at a queue that the front end does not serve, and nothing takes one of a queue that is not registered. -/
theorem takeBell_of_not_ready (hr : ∀ k, s.queue? q = some k → queueReady s k = false) : takeBell s q = s := by
  unfold takeBell
  split
  · rfl
  next k hk =>
    split
    · simp [hr k hk]
    · rfl

variable {k : Queue} {j : Job}

/-- A doorbell that is misaligned or out of the ring halts its queue (R355). -/
theorem takeBell_of_bad (hk : s.queue? q = some k) (hb : k.bell = some value) (hj : s.job? k.job = some j)
    (hr : queueReady s k = true) (bad : value.toNat % 8 ≠ 0 ∨ 2 ^ k.lg ≤ value.toNat) :
    takeBell s q = haltQueue (s.updQueue q fun k => { k with bell := none }) q errDoorbell 0 := by
  simp only [takeBell, hk, hb, hj, hr, Bool.not_true, Bool.false_eq_true, if_false, ge_iff_le, bad, if_true]

/-- Any other doorbell moves the tail (R347), and a halted queue goes on from its state block (R355). -/
theorem takeBell_of_good (hk : s.queue? q = some k) (hb : k.bell = some value) (hj : s.job? k.job = some j)
    (hr : queueReady s k = true) (aligned : value.toNat % 8 = 0) (inside : value.toNat < 2 ^ k.lg) :
    takeBell s q =
      let s2 := (s.updQueue q fun k => { k with bell := none }).updQueue q fun k =>
        { k with tail := value.toNat, unread := k.unread + (value.toNat + 2 ^ k.lg - k.tail) % 2 ^ k.lg }
      if k.halted then resumeQueue s2 q k j else frontEnd s2 q := by
  have good : ¬ (value.toNat % 8 ≠ 0 ∨ value.toNat ≥ 2 ^ k.lg) := by omega
  simp only [takeBell, hk, hb, hj, hr, Bool.not_true, Bool.false_eq_true, if_false, good]

end

/-! The units of a COPY or FILL (R353). -/

/-- The bytes that are gathered into one unit lie in one aligned run of 64 (R280). -/
theorem exists_unit_of_mem_gatherUnits {l u : List (Nat × Nat)} (hu : u ∈ gatherUnits l) : ∃ k, ∀ p ∈ u, p.1 / 64 = k := by
  obtain ⟨k, -, rfl⟩ := List.mem_map.mp hu
  exact ⟨k, fun p hp => by simpa using (List.mem_filter.mp hp).2⟩

theorem CopyWork.bytes_of_pattern {w : CopyWork} {v : DWord} (hv : w.pattern = some v) (j : Job) (u : List (Nat × Nat)) (s : State) :
    w.bytes j u s =
      .ok (s, w.view, u.map fun x => (BitVec.ofNat 8 (v.toNat / 2 ^ (8 * ((x.1 - w.dst) % 8))), false)) := by
  simp only [CopyWork.bytes, hv]

/-- What nothing holds, and whose turn it is, the front end reaches at its leaf. -/
theorem frontAccess_of_free {s : State} {j : Job} {w : CopyWork} {va n : Nat} {acc : Access} {l : Leaf}
    (free : s.heldAt none s.leaderDie j va n = none) (leaf : translate s none s.leaderDie j va acc = .ok l)
    (may : mayIssue s (.work w.handle) = true) : frontAccess s j w va n acc = .ok l := by
  simp only [frontAccess, free, leaf, may, if_true]

/-- A unit of a job that is not deterministic is written under no writer, once its bytes are read and nothing holds it. -/
theorem frontOne_of_free {j : Job} {w : CopyWork} {k : Nat} {u : List (Nat × Nat)} {s s1 s2 : State} {v : View}
    {bs : List (Byte × Bool)} {l : Leaf} {p : Pending} (hb : w.bytes j u s = .ok (s1, v, bs)) (hd : j.det = false)
    (access : frontAccess s1 j w ((u.head?.map Prod.fst).getD 0) u.length .write = .ok l)
    (hn : s1.number (workAgent s1.leaderDie w.handle) {} l (bs.map Prod.fst) (bs.any Prod.snd) none = (p, s2))
    (room : directoryFull s1 l.pa none = false) :
    frontOne j w k u s = .ok (s2.applyWrite { p with mixed := if bs.all Prod.snd then [] else bs.map Prod.snd } j.phase,
      { w with view := { v with ids := natInsert v.ids p.id }, done := natInsert w.done k, held := false
               poisoned := w.poisoned || (bs.any Prod.snd && !isHost l.pa) }) := by
  simp [frontOne, hb, hd, access, hn, room, bind, Except.bind]

section
variable {s : State} {w : CopyWork} {j : Job}

/-- A COPY or FILL does nothing where the front end cannot act, or its die may not complete a release in this tick (R309, log 41). -/
theorem execCopyFillComplete_of_not_ready (hr : frontReady s = false ∨ s.unraised s.leaderDie = false) :
    execCopyFillComplete w.handle s = .next s := by
  have waiting : (!frontReady s || !s.unraised s.leaderDie) = true := by simpa using hr
  unfold execCopyFillComplete
  split
  · rfl
  · split
    · rfl
    · rw [if_pos waiting]; rfl

/-- A COPY or FILL runs its units as far as they go. -/
theorem execCopyFillComplete_of_ready (hw : s.copies.find? (fun x => x.handle == w.handle) = some w)
    (hj : s.job? w.job = some j) (hr : frontReady s = true) (hu : s.unraised s.leaderDie = true) :
    execCopyFillComplete w.handle s =
      .next (copyGone (frontUnits j (w.units.zipIdx.map fun x => (x.2, x.1)) w s) fun s w => copyEnd s w none) := by
  simp [execCopyFillComplete, hw, hj, hr, hu]

/-- A unit that waits for anything but a slot or an extension leaves the work unheld. -/
theorem copyGone_of_wait {x : Wait} {ended : State → CopyWork → State} (hx : ∀ a, x ≠ .held a) :
    copyGone (s, w, some (.wait x)) ended = putWork s { w with held := false } := by
  cases x with
  | held a => exact absurd rfl (hx a)
  | _ => rfl

/-- The status with which a COPY or FILL ends its counter: of the bytes that it wrote poisoned, and of its fault. -/
def CopyWork.final (w : CopyWork) (tick : DWord) : Option FaultCode → Final
  | none => { also := { poisoned := w.poisoned } }
  | some c => { also := { poisoned := w.poisoned, fault := true }, nflt := 1
                record := some { code := c.bits, core := 0, eng := 5, detail := 0, tick, strand := 0 } }

/-- A COPY or FILL that has ended completes its counter as a release of what it has written (R309, R439). -/
theorem copyEnd_of_free {e : Option FaultCode} (hc : counterFree s w.job w.counter = true)
    (hv : s.coversHeld (s.covers (workAgent s.leaderDie w.handle) w.view) = false) :
    copyEnd s w e =
      let s1 := finishCounter { s with copies := s.copies.filter fun x => x.handle != w.handle } w.job w.queue w.counter
        (w.final s.psc e) { wide := s.covers (workAgent s.leaderDie w.handle) w.view }
      settle (s1.raiseEpoch s1.leaderDie) := by
  simp only [copyEnd, hc, hv, Bool.not_true, Bool.or_self, Bool.false_eq_true, if_false]
  cases e <;> rfl

/-- The counter of a COPY or FILL stays open while it is held, or the release covers a held write (R312). -/
theorem copyEnd_of_held {e : Option FaultCode} (hh : counterFree s w.job w.counter = false ∨
      s.coversHeld (s.covers (workAgent s.leaderDie w.handle) w.view) = true) : copyEnd s w e = putWork s w := by
  have waiting : (!counterFree s w.job w.counter || s.coversHeld (s.covers (workAgent s.leaderDie w.handle) w.view)) = true := by
    simpa using hh
  simp only [copyEnd, waiting, if_true]

end

end Sys2Proof.Machine

namespace Sys2Proof

open Sys2Proof.Machine

/-- Settles O53: a held packet by `packetStep_of_held` and what WAIT and SIGNAL make of their counter, a doorbell by the lemmas on
`takeBell`, a COPY or FILL by what its units come to. -/
theorem queuesGoOn : Obligations.QueuesGoOn := by
  unfold Obligations.QueuesGoOn completes
  intro s q
  simp only [exec_waitSatisfied, exec_signalPacket, exec_barRelease, exec_nopPacket, exec_doorbell, exec_copyFillComplete]
  refine ⟨?packets, ?nop, ?doorbell, ?copies⟩
  case packets =>
    intro k p rest j hqueue hbatch hjob hready hbell hhalted htearing
    have hand : PacketInHand s q k p rest j := ⟨hqueue, hbatch, hjob, hready, hbell, hhalted, htearing⟩
    refine ⟨fun hold hop => ?wait, fun hold hop hn gate => ?signal, fun hold hbar => ?bar⟩
    case wait =>
      rw [execWaitSatisfied_of_held hand hop hold]
      refine ⟨fun s1 gate => ?_, fun r gate hm => ?_, fun v gate hm hv => ⟨fun h1 => ?_, fun h1 => ?_⟩⟩
      · rw [gate, Option.elim_some]
      · simp only [gate, Option.elim_none, waitAgain, waitPacketOp_of_met hm, Executed.out]
      · subst h1
        simp only [gate, Option.elim_none, waitAgain, waitPacketOp_of_pending hm hv, Executed.out]
      · simp only [gate, Option.elim_none, waitAgain, waitPacketOp_of_not_pending hm hv h1, Executed.out]
    case signal =>
      rw [execSignalPacket_of_held hand hop hold gate]
      refine ⟨fun hw => ?_, fun s2 hw hu hf => ?_, fun e hw hu hf => ?_⟩
      · simp only [signalOp_held_later hold hn hw, Executed.out]
      · simp only [signalOp_held_done hold hn hw hu hf, Executed.out]
      · simp only [signalOp_held_halt hold hn hw hu hf, Executed.out]
    case bar => exact ⟨execBarRelease_of_work, execBarRelease_of_no_work hand hold hbar⟩
  case nop =>
    exact fun k hk => ⟨packetStep_of_not_ready hk, fun _ => packetStep_of_bell hk,
      fun _ hr hb hn hj => packetStep_of_batch_nil hk hr hb hn hj⟩
  case doorbell =>
    intro value
    have found {k : Queue} (hk : s.queue? q = some k) : (rungBell s q value).queue? q = some { k with bell := some value } := by
      rw [queue?_rungBell, hk, Option.map_some]
    refine ⟨fun bad => ?refused, fun legal cut => ?cut, fun legal link busy => ?busy, fun ⟨legal, link, free⟩ unready => ?kept,
      fun k j ⟨legal, link, free⟩ hk hj hr => ?taken⟩
    case refused => exact execDoorbell_of_refused bad
    case cut => rw [execDoorbell_of_legal legal, if_pos cut]
    case busy => rw [execDoorbell_of_legal legal, if_neg (by simp [link]), if_pos busy]
    case kept =>
      rw [execDoorbell_of_arrives legal link free, takeBell_of_not_ready]
      · rfl
      · intro k' hk'
        rw [queue?_rungBell] at hk'
        obtain ⟨k, hk, rfl⟩ := Option.map_eq_some_iff.mp hk'
        exact unready k hk
    case taken =>
      rw [execDoorbell_of_arrives legal link free]
      refine ⟨fun bad => ?_, fun aligned inside => ?_⟩
      · rw [takeBell_of_bad (found hk) rfl hj hr bad]
        rfl
      · rw [takeBell_of_good (found hk) rfl hj hr aligned inside]
        rfl
  case copies =>
    intro w j hw hj
    refine ⟨execCopyFillComplete_of_not_ready, fun s1 w1 hr hu => ?runs, fun e => ⟨?ends, copyEnd_of_held⟩, ?unit,
      fun u hu => exists_unit_of_mem_gatherUnits hu, fun u v hv => CopyWork.bytes_of_pattern hv j u s⟩
    case runs =>
      rw [execCopyFillComplete_of_ready hw hj hr hu]
      refine ⟨fun ran => ?_, fun c ran => ?_, fun a ran => ?_, fun x hx ran => ?_⟩ <;> rw [ran]
      · rfl
      · rfl
      · rfl
      · rw [copyGone_of_wait hx]
    case ends => exact copyEnd_of_free
    case unit =>
      intro k u s1 v bs l p s2 hb hd may free leaf hn room
      exact frontOne_of_free hb hd (frontAccess_of_free free leaf may) hn room

end Sys2Proof
end

section
/-! PROOFS. What reset leaves (R52, R461, R465). -/

namespace Sys2Proof.Machine

/-- Every tile core at reset is an empty one. -/
theorem State.core_reset (t : Core) : State.reset.core t = {} := Vector.getElem_replicate t.isLt

end Sys2Proof.Machine

namespace Sys2Proof

open Sys2Proof.Machine

/-- Settles O3: the scalars are the fields of the literal, and what stands on a tile core is `State.core_reset`. -/
theorem resetLeaves : Obligations.ResetLeaves := by
  unfold Obligations.ResetLeaves
  refine ⟨rfl, rfl, rfl, rfl, rfl, rfl, fun t => ?_, fun _ => rfl, Mem.wf_empty, fun t => ?_⟩
  · rw [State.strand, State.core_reset]
  · rw [State.core_reset]
    exact Mem.wf_empty

end Sys2Proof
end

section
/-! PROOFS. An engine's turn (R31, R33, R41, R73, R417): what `fetchTurn` comes to for a word of the engine's own, for a word of
another engine, and where a repetition allows no word. -/

namespace Sys2Proof.Machine

/-! Words that the opcode maps define. -/

theorem isWide_eq (w : Word) : isWide w = ((Fields.ofWord w).maj == 31) := rfl

theorem maj_of_isWide {w : Word} (h : isWide w = true) : (Fields.ofWord w).maj.toNat = 31 := by
  rw [isWide_eq, beq_iff_eq] at h
  rw [h]
  rfl

theorem wordLen_of_narrow {w : Word} (h : isWide w = false) : wordLen w = 1 := by simp [wordLen, h]

theorem wordLen_of_wide {w : Word} (h : isWide w = true) : wordLen w = 2 := by simp [wordLen, h]

theorem decodeSemWide_eq_none {e : Eng} {f : Fields} {imm : Word}
    (h : (f.imm14.extractLsb' 13 1 == 1 && f.imm14.extractLsb' 0 10 == 0) = false) : decodeSemWide e f imm = none := by
  unfold decodeSemWide
  dsimp only
  rw [if_neg (ne_true_of_eq_false h)]

/-- A wide word whose sub14 its map does not list decodes to nothing, whatever its immediate word is (R92). -/
theorem decode_of_not_wideDefined {w imm : Word} (hw : isWide w = true) (h : wideDefined w = false) : decode w imm = none := by
  have hmaj := maj_of_isWide hw
  unfold decode decodeFields
  unfold wideDefined at h
  dsimp only at h
  generalize Fields.ofWord w = f at *
  split
  case h_1 htag =>
    simp only [htag, Bool.or_eq_false_iff, Bool.and_eq_false_iff (y := decide _), decide_eq_false_iff_not] at h
    obtain ⟨⟨hsem, hlow⟩, hhigh⟩ := h
    simp only [decodeC, hmaj]
    unfold decodeCWide
    split
    case h_19 => exact decodeSemWide_eq_none hsem
    all_goals omega
  case h_2 htag =>
    simp only [htag, Bool.or_eq_false_iff, Bool.and_eq_false_iff (y := decide _), decide_eq_false_iff_not] at h
    obtain ⟨hsem, hlow⟩ := h
    simp only [decodeA, hmaj]
    split
    case h_4 => exact decodeSemWide_eq_none hsem
    all_goals omega
  case h_3 htag =>
    simp only [htag, Bool.or_eq_false_iff, Bool.and_eq_false_iff (y := decide _), decide_eq_false_iff_not] at h
    obtain ⟨hsem, hlow⟩ := h
    simp only [decodeV, hmaj]
    split
    case h_5 => exact decodeSemWide_eq_none hsem
    all_goals omega
  case h_4 htag =>
    simp only [htag] at h
    simp only [decodeM, hmaj]
    exact decodeSemWide_eq_none h
  case h_5 htag =>
    simp only [htag, Bool.or_eq_false_iff, beq_eq_false_iff_ne] at h
    obtain ⟨hsem, hlow⟩ := h
    simp only [decodeX, hmaj]
    exact decodeSemWide_eq_none hsem
  case h_6 => simp only [decodeS, hmaj]
  case h_7 => rfl

/-- A word that some immediate word completes is one that its map lists. -/
theorem undefinedFirst_of_decode {w imm : Word} {i : Instr} (h : decode w imm = some i) : undefinedFirst w = false := by
  have htag : ¬ (Fields.ofWord w).tag.toNat ≥ 6 := by
    intro big
    unfold decode decodeFields at h
    split at h <;> first | omega | cases h
  cases hw : isWide w with
  | false => simp [undefinedFirst, hw, htag]
  | true =>
    cases hd : wideDefined w with
    | true => simp [undefinedFirst, hd, htag]
    | false => simp [decode_of_not_wideDefined hw hd] at h

theorem decodeShared_ne_swr {e : Eng} {f : Fields} {a : Code} {r : Word} : decodeShared e f ≠ some (.swr a r) := by
  unfold decodeShared onlyIf
  intro h
  dsimp only at h
  split at h <;> simp at h

theorem decodeSemWide_ne_swr {e : Eng} {f : Fields} {imm : Word} {a : Code} {r : Word} :
    decodeSemWide e f imm ≠ some (.swr a r) := by
  unfold decodeSemWide
  intro h
  dsimp only at h
  split at h
  · split at h <;> simp at h
  · cases h

/-- No map but the control engine's has an SWR. -/
theorem tag_of_decodeFields_swr {f : Fields} {imm r : Word} {a : Code} (h : decodeFields f imm = some (.swr a r)) :
    decodeC f imm = some (.swr a r) := by
  unfold decodeFields at h
  split at h
  case h_1 => exact h
  case h_2 =>
    unfold decodeA at h
    grind [onlyIf, decodeShared_ne_swr, decodeSemWide_ne_swr]
  case h_3 =>
    unfold decodeV at h
    grind [onlyIf, decodeShared_ne_swr, decodeSemWide_ne_swr]
  case h_4 =>
    unfold decodeM at h
    grind [onlyIf, decodeShared_ne_swr, decodeSemWide_ne_swr]
  case h_5 =>
    unfold decodeX at h
    grind [onlyIf, decodeShared_ne_swr, decodeSemWide_ne_swr]
  case h_6 =>
    unfold decodeS at h
    grind [onlyIf]
  case h_7 => cases h

/-- SWR is a wide form. -/
theorem isWide_of_decode_swr {w imm r : Word} {a : Code} (h : decode w imm = some (.swr a r)) : isWide w = true := by
  rw [isWide_eq, beq_iff_eq]
  have hc := tag_of_decodeFields_swr h
  generalize Fields.ofWord w = f at *
  unfold decodeC at hc
  dsimp only at hc
  split at hc
  case h_26 hm => exact BitVec.eq_of_toNat_eq hm
  all_goals grind [onlyIf, decodeShared_ne_swr]

/-! Turns. -/

/-- The engine may take its turn: nothing of R413, R415 or R54 keeps it, and its strand is within its safe distance. -/
structure MayTurn (s : State) (t : Core) (e : Eng) (st : Strand) : Prop where
  strand : s.strand t = some st
  ended : (st.eng e).ended = false
  halted : st.halted = false
  halting : st.halting = false
  live : st.dead54 = false
  holding : (st.eng e).holding = false
  within : st.spdist.toNat ≤ st.splim.toNat

theorem Strand.overdue_of_within {st : Strand} (h : st.spdist.toNat ≤ st.splim.toNat) (now : DWord) : st.overdue now = false := by
  simp [Strand.overdue, h]

theorem fetchedLate_of_live {old : Strand} (h : old.dead54 = false) (s : State) (t : Core) (pos word : Nat) :
    fetchedLate s t old pos word = none := by
  simp [fetchedLate, h]

/-- What an engine does in its turn stands where its strand is live and within its safe distance. -/
theorem keepTurn_of_live {s u : State} {t : Core} {e : Eng} {st : Strand} (hs : s.strand t = some st) (live : st.dead54 = false)
    (within : st.spdist.toNat ≤ st.splim.toNat) : keepTurn s u t e = u := by
  unfold keepTurn
  rw [hs]
  cases u.strand t with
  | none => rfl
  | some q => simp [live, Strand.overdue_of_within within]

theorem turnBy_of_run {ex : Instr → State → Out} {s s' : State} {t : Core} {e : Eng} {st : Strand} {i : Instr}
    (hs : s.strand t = some st) (live : st.dead54 = false) (within : st.spdist.toNat ≤ st.splim.toNat)
    (h : fetchTurn { s with focusTile := t, focusEng := e } t e = .run i s') : turnBy ex s t e = ex i s' := by
  simp only [turnBy, h]
  cases ex i s' with
  | next u => simp only [keepTurn_of_live hs live within]
  | fault r => rfl
  | refused r => rfl

theorem turnBy_of_idle {ex : Instr → State → Out} {s s' : State} {t : Core} {e : Eng} {st : Strand}
    (hs : s.strand t = some st) (live : st.dead54 = false) (within : st.spdist.toNat ≤ st.splim.toNat)
    (h : fetchTurn { s with focusTile := t, focusEng := e } t e = .idle s') : turnBy ex s t e = .next s' := by
  simp only [turnBy, h, keepTurn_of_live hs live within]

theorem step_of_engine {s : State} {n : Nat} {t : Core} {e : Eng} {rest : List Turn} (h : s.agenda = ⟨n, .engine t e⟩ :: rest) :
    step s = turnBy exec (advance { s with agenda := rest } n) t e := by
  simp only [step, h]; rfl

theorem step_of_event {s : State} {n : Nat} {i : Instr} {rest : List Turn} (h : s.agenda = ⟨n, .event i⟩ :: rest) :
    step s = exec i (advance { s with agenda := rest } n) := by
  simp only [step, h]

theorem step_of_nil {s : State} (h : s.agenda = []) : step s = .next (advance s 1) := by
  simp only [step, h]

/-! The word of a turn. -/

/-- A word that the engine executes (R31, R41): its own but in a repetition of count 0 or an own REP within a repetition, or a strand-wide
one outside a repetition. -/
def Engine.executes (g : Engine) (e : Eng) (w : Word) : Prop :=
  ((Fields.ofWord w).tag = 5 ∧ g.rep = none) ∨
    ((Fields.ofWord w).tag = e.tag ∧ ∀ r, g.rep = some r → r.left ≠ 0 ∧ (Fields.ofWord w).maj ≠ 30)

/-- A repetition forbids the word (R41). -/
def Engine.forbids (g : Engine) (e : Eng) (w : Word) : Bool :=
  g.rep.isSome && ((Fields.ofWord w).tag == 5 || ((Fields.ofWord w).tag == e.tag && (Fields.ofWord w).maj == 30))

/-- The word is the engine's to execute, as far as its tag and a repetition of count 0 tell (R31, R41). -/
def Engine.takes (g : Engine) (e : Eng) (w : Word) : Bool :=
  decide ((Fields.ofWord w).tag.toNat ≥ 5) ||
    ((Fields.ofWord w).tag == e.tag && !(match g.rep with | some r => r.left == 0 | none => false))

/-- What a turn comes to once its word is fetched, for a strand whose launch has not faulted. -/
def turnOfWord (s : State) (t : Core) (e : Eng) (st : Strand) (w : Word) : Turned :=
  let g := st.eng e
  let mine := g.takes e w
  if g.forbids e w then .idle (if st.slipStalled e 1 then setWait s t e .slip else wordFault s t e e.tag .illegal .atWord)
  else if mine && undefinedFirst w then .run (.undefinedEncoding t e) s
  else if !isWide w then (if mine then turnOf s t e w 0 else .idle (stepOver s t st e w 0))
  else if g.pc + 1 ≥ st.textLen then
    if mine then .idle (wordFault s t e (if (Fields.ofWord w).tag == 5 then 0 else e.tag) .illegal .atWord)
    else .idle (stepOver s t st e w 0)
  else
    match textWord s t st e (g.pos + 1) (g.pc + 1) with
    | .error h => fetchHalt s t e h
    | .ok (s2, imm) => if mine then turnOf s2 t e w imm else .idle (stepOver s2 t st e w imm)

section
variable {s s1 s2 : State} {t : Core} {e : Eng} {st : Strand} {g : Engine} {w imm : Word} {i : Instr}

/-- The turn of an engine past the end of its text (R33). -/
theorem fetchTurn_of_end (h : MayTurn s t e st) (hpc : st.textLen ≤ (st.eng e).pc) :
    fetchTurn s t e = .idle (wordFault s t e e.tag .illegal .atWord) := by
  obtain ⟨hs, ended, halted, halting, live, holding, within⟩ := h
  simp [fetchTurn, hs, ended, halted, halting, live, holding, Strand.overdue_of_within within, hpc]

/-- A turn that nothing keeps goes by its word. -/
theorem fetchTurn_of_word (h : MayTurn s t e st) (hpc : (st.eng e).pc < st.textLen)
    (hw : textWord s t st e (st.eng e).pos (st.eng e).pc = .ok (s1, w)) : fetchTurn s t e = turnOfWord s1 t e st w := by
  obtain ⟨hs, ended, halted, halting, live, holding, within⟩ := h
  have inside : ¬ (st.eng e).pc ≥ st.textLen := by omega
  simp only [fetchTurn, hs, ended, halted, halting, live, holding, Strand.overdue_of_within within, hw, fetchedLate_of_live live, inside,
    if_false, Bool.false_or, Bool.false_and, Bool.and_false, Bool.not_false, Bool.false_eq_true]
  rfl

theorem turnOf_of_decode (h : decode w imm = some i) : turnOf s t e w imm = .run i s := by simp only [turnOf, h]

theorem Eng.tag_ne_five (e : Eng) : e.tag ≠ 5 := by cases e <;> decide

theorem Engine.executes.not_forbids (h : g.executes e w) : g.forbids e w = false := by
  unfold Engine.forbids
  cases hr : g.rep with
  | none => rfl
  | some r =>
    obtain ⟨-, hn⟩ | ⟨ht, hrep⟩ := h
    · simp [hn] at hr
    · simp only [ht, beq_eq_false_iff_ne.mpr (hrep r hr).2, beq_eq_false_iff_ne.mpr (Eng.tag_ne_five e), Bool.and_false, Bool.or_false]

theorem Engine.executes.takes (h : g.executes e w) : g.takes e w = true := by
  unfold Engine.takes
  obtain ⟨ht, -⟩ | ⟨ht, hrep⟩ := h
  · simp [ht]
  · cases hr : g.rep with
    | none => simp [ht]
    | some r => simp [ht, (hrep r hr).1]

/-- An engine runs the instruction of a one-word form of its own. -/
theorem turnOfWord_of_narrow (h : (st.eng e).executes e w) (hn : isWide w = false) (hd : decode w 0 = some i) :
    turnOfWord s t e st w = .run i s := by
  simp only [turnOfWord, h.not_forbids, h.takes, undefinedFirst_of_decode hd, hn, Bool.and_false, Bool.not_false, Bool.false_eq_true,
    if_true, if_false, turnOf_of_decode hd]

/-- An engine runs the instruction of a wide form of its own with its immediate word. -/
theorem turnOfWord_of_wide (h : (st.eng e).executes e w) (hn : isWide w = true) (hpc : (st.eng e).pc + 1 < st.textLen)
    (hi : textWord s t st e ((st.eng e).pos + 1) ((st.eng e).pc + 1) = .ok (s2, imm)) (hd : decode w imm = some i) :
    turnOfWord s t e st w = .run i s2 := by
  have inside : ¬ (st.eng e).pc + 1 ≥ st.textLen := by omega
  simp only [turnOfWord, h.not_forbids, h.takes, undefinedFirst_of_decode hd, hn, hi, inside, Bool.and_false, Bool.not_true,
    Bool.false_eq_true, if_true, if_false, turnOf_of_decode hd]

/-- A word of another engine's tag is not the engine's to execute. -/
theorem Engine.not_takes (ht : (Fields.ofWord w).tag ≠ e.tag) (h5 : (Fields.ofWord w).tag.toNat < 5) : g.takes e w = false := by
  simp [Engine.takes, ht, h5]

theorem Engine.not_forbids (ht : (Fields.ofWord w).tag ≠ e.tag) (h5 : (Fields.ofWord w).tag.toNat < 5) : g.forbids e w = false := by
  have five : (Fields.ofWord w).tag ≠ 5 := fun h => by simp [h] at h5
  simp only [Engine.forbids, beq_eq_false_iff_ne.mpr ht, beq_eq_false_iff_ne.mpr five, Bool.false_and, Bool.or_false, Bool.and_false]

/-- An engine steps over a one-word form of another engine's tag (R31). -/
theorem turnOfWord_of_other (ht : (Fields.ofWord w).tag ≠ e.tag) (h5 : (Fields.ofWord w).tag.toNat < 5) (hn : isWide w = false) :
    turnOfWord s t e st w = .idle (stepOver s t st e w 0) := by
  simp only [turnOfWord, Engine.not_takes ht h5, Engine.not_forbids ht h5, hn, Bool.false_and, Bool.not_false, Bool.false_eq_true,
    if_true, if_false]

/-- Within a repetition, an S word or an own REP is ILLEGAL where the engine reaches it (R41, log 72). -/
theorem turnOfWord_of_forbids (h : (st.eng e).forbids e w = true) (hslip : st.slipStalled e 1 = false) :
    turnOfWord s t e st w = .idle (wordFault s t e e.tag .illegal .atWord) := by
  simp only [turnOfWord, h, hslip, if_true, Bool.false_eq_true, if_false]

/-- The engine of another tag than an engine's is another engine. -/
theorem Eng.ofTag_ne {tag : BitVec 3} (h5 : tag.toNat < 5) (ht : tag ≠ e.tag) : ((Eng.ofTag tag).getD .c == e) = false := by
  have known : ∃ k : Eng, k.tag = tag := by
    have cases5 : tag = 0 ∨ tag = 1 ∨ tag = 2 ∨ tag = 3 ∨ tag = 4 := by bv_omega
    obtain rfl | rfl | rfl | rfl | rfl := cases5
    exacts [⟨.c, rfl⟩, ⟨.a, rfl⟩, ⟨.v, rfl⟩, ⟨.m, rfl⟩, ⟨.x, rfl⟩]
  obtain ⟨k, rfl⟩ := known
  rw [Eng.ofTag_tag, Option.getD_some, beq_eq_false_iff_ne]
  exact fun h => ht (congrArg Eng.tag h)

/-- A one-word form of another engine that names no window costs its text step only (R31, R33). -/
theorem stepOver_of_narrow (hslip : st.slipStalled e 1 = false) (hn : isWide w = false) (ht : (Fields.ofWord w).tag ≠ e.tag)
    (h5 : (Fields.ofWord w).tag.toNat < 5) (hwin : ∀ i, decode w 0 = some i → windowsOf i = []) :
    stepOver s t st e w 0 = s.updStrand t fun q => (q.updEng e fun g => g.pass 1 false).trimLedger := by
  simp only [stepOver, wordLen_of_narrow hn, hslip, Eng.ofTag_ne h5 ht, Bool.false_eq_true, if_false]
  split
  next hd => exact absurd (isWide_of_decode_swr hd) (ne_true_of_eq_false hn)
  next i _ hd => simp only [hwin i hd, List.isEmpty_nil, Bool.not_true, Bool.and_false, Bool.false_eq_true, if_false]
  next => rfl

end

end Sys2Proof.Machine

namespace Sys2Proof

open Sys2Proof.Machine

/-- Settles O5: nothing keeps the turn, so it goes by its word (`fetchTurn_of_word`), which the engine executes. -/
theorem stepRunsDecoded : Obligations.StepRunsDecoded := by
  unfold Obligations.StepRunsDecoded
  refine ⟨?engine, fun _ _ _ _ h => step_of_event h, fun _ h => step_of_nil h⟩
  case engine =>
    intro s s1 s2 n tile e rest st w imm i hagenda now hs ended halted halting live holding within hpc hw himm executes hd
    have turn : MayTurn now tile e st := ⟨hs, ended, halted, halting, live, holding, within⟩
    have len : 1 ≤ wordLen w := by unfold wordLen; split <;> omega
    have runs : fetchTurn now tile e = .run i s2 := by
      rw [fetchTurn_of_word turn (by omega) hw]
      cases hn : isWide w with
      | false =>
        obtain ⟨rfl, rfl⟩ : s2 = s1 ∧ imm = 0 := by simpa [hn] using himm
        exact turnOfWord_of_narrow executes hn hd
      | true =>
        rw [wordLen_of_wide hn] at hpc
        exact turnOfWord_of_wide executes hn (by omega) (by simpa [hn] using himm) hd
    rw [step_of_engine hagenda]
    exact turnBy_of_run hs live within runs

/-- Settles O6: the word is not the engine's to execute, and stepping over it is `stepOver_of_narrow`. -/
theorem otherEnginesWordSteppedOver : Obligations.OtherEnginesWordSteppedOver := by
  unfold Obligations.OtherEnginesWordSteppedOver
  intro s s1 n tile e rest st w hagenda now hs ended halted halting live holding within hpc hw hn ht h5 hwin hslip
  have turn : MayTurn now tile e st := ⟨hs, ended, halted, halting, live, holding, within⟩
  have stepped : fetchTurn now tile e = .idle (stepOver s1 tile st e w 0) := by
    rw [fetchTurn_of_word turn hpc hw, turnOfWord_of_other ht h5 hn]
  rw [step_of_engine hagenda, ← stepOver_of_narrow hslip hn ht h5 hwin]
  exact turnBy_of_idle hs live within stepped

end Sys2Proof
end

section
/-! PROOFS. The frame of a word (R33, R446): what passing it, waiting on it, and going to a text index leave unchanged.
-/

namespace Sys2Proof.Machine

/-! Updates of the strand of a tile core. -/

theorem State.core_updStrand_of_ne {s : State} {t u : Core} (h : u ≠ t) (f : Strand → Strand) : (s.updStrand t f).core u = s.core u := by
  simp [State.updStrand, h]

theorem State.core_setStrand_of_ne {s : State} {t u : Core} (h : u ≠ t) (st : Strand) : (s.setStrand t st).core u = s.core u := by
  simp [State.setStrand, h]

theorem State.strand_hold (s : State) (who : Holder) (d : Fin 4) (a : Nat) (u : Core) : (s.hold who d a).strand u = s.strand u := rfl

/-- What a word leaves alone around its own effect on its strand: memory, the scratchpads, the other tile cores, and everything the
words of a strand do not stand in. -/
structure State.KeepsAround (s : State) (u : State) : Prop where
  mem : u.mem = s.mem
  psc : u.psc = s.psc
  launches : u.launches = s.launches
  jobs : u.jobs = s.jobs
  queues : u.queues = s.queues
  dies : u.dies = s.dies
  pending : u.pending = s.pending
  card : u.card = s.card
  spad : ∀ t, (u.core t).spad = (s.core t).spad
  core : ∀ t, t ≠ s.focusTile → u.core t = s.core t

theorem State.KeepsAround.updStrand (s : State) (f : Strand → Strand) : s.KeepsAround (s.updStrand s.focusTile f) :=
  ⟨rfl, rfl, rfl, rfl, rfl, rfl, rfl, rfl, fun t => State.spad_updStrand s _ t f, fun _ ht => State.core_updStrand_of_ne ht f⟩

theorem State.KeepsAround.setStrand (s : State) (st : Strand) : s.KeepsAround (s.setStrand s.focusTile st) :=
  ⟨rfl, rfl, rfl, rfl, rfl, rfl, rfl, rfl, fun t => State.spad_setStrand s _ t st, fun _ ht => State.core_setStrand_of_ne ht st⟩

theorem State.KeepsAround.hold (s : State) (who : Holder) (d : Fin 4) (a : Nat) : s.KeepsAround (s.hold who d a) :=
  ⟨rfl, rfl, rfl, rfl, rfl, rfl, rfl, rfl, fun _ => rfl, fun _ _ => rfl⟩

theorem State.KeepsAround.trans {s u v : State} (h : s.KeepsAround u) (hf : u.focusTile = s.focusTile) (k : u.KeepsAround v) :
    s.KeepsAround v :=
  ⟨k.mem.trans h.mem, k.psc.trans h.psc, k.launches.trans h.launches, k.jobs.trans h.jobs, k.queues.trans h.queues,
   k.dies.trans h.dies, k.pending.trans h.pending, k.card.trans h.card, fun t => (k.spad t).trans (h.spad t),
   fun t ht => (k.core t (by rw [hf]; exact ht)).trans (h.core t ht)⟩

section
variable {s : State} {t : Core} {e : Eng} {st : Strand}

/-! Positions. -/

theorem Engine.growth_of_no_rep {g : Engine} (h : g.rep = none) (len : Nat) : g.growth len = len := by simp only [Engine.growth, h]

theorem Engine.pass_pc_of_no_rep {g : Engine} (h : g.rep = none) (len : Nat) : (g.pass len).pc = g.pc + len := by
  simp only [Engine.pass, h]

theorem Engine.pass_steps_of_no_rep {g : Engine} (h : g.rep = none) (len : Nat) :
    (g.pass len).steps = g.steps + BitVec.ofNat 64 len := by
  simp only [Engine.pass, h, Engine.growth_of_no_rep h]

@[simp] theorem Engine.goto_steps (g : Engine) (pc : Nat) : (g.goto pc).steps = g.steps + 1 := rfl

/-! The strand once a word is passed, waits, or has gone to a text index. -/

theorem State.strand_passed (h : s.strand s.focusTile = some st) (e : Eng) (len : Nat) :
    (s.passed e len).strand s.focusTile = some ((st.updEng e fun g => g.pass len).count (engCounter e) 1).trimLedger := by
  simp [State.passed, passWord, h]

theorem State.strand_passedAs (s : State) (e : Eng) (len : Nat) (st : Strand) :
    (s.passedAs e len st).strand s.focusTile = some ((st.updEng e fun g => g.pass len).count (engCounter e) 1).trimLedger :=
  State.strand_passed (s := s.setStrand s.focusTile st) (by simp) e len

theorem State.strand_wentTo (h : s.strand t = some st) (e : Eng) (pc : Nat) :
    (s.wentTo t e pc).strand t = some ((st.updEng e fun g => g.goto pc).count (engCounter e) 1).trimLedger := by
  simp [State.wentTo, State.counted, goTo, h]

/-- The strand of an engine that waits: a request that a slot holds is counted the first time (R446). -/
def Strand.waiting (st : Strand) (inSlot : Bool) (e : Eng) (w : Wait) : Strand :=
  (if w.isHeld && inSlot && !(match (st.eng e).wait with | some x => x.isHeld | none => false) then st.count 9 1 else st).updEng e
    fun g => { g with wait := some w }

theorem State.strand_setWait (h : s.strand t = some st) (e : Eng) (w : Wait) :
    (setWait s t e w).strand t = some (st.waiting s.slotNow e w) := by
  cases w with
  | held a =>
    show (State.updStrand (s.hold _ _ a) t _).strand t = _
    rw [State.strand_updStrand, if_pos rfl, State.strand_hold, h]
    rfl
  | _ =>
    show (State.updStrand s t _).strand t = _
    rw [State.strand_updStrand, if_pos rfl, h]
    rfl

/-- Waiting moves the counter of held requests at most, and the engine's wait. -/
theorem Strand.waiting_cases (st : Strand) (inSlot : Bool) (e : Eng) (w : Wait) :
    st.waiting inSlot e w = st.updEng e (fun g => { g with wait := some w }) ∨
      st.waiting inSlot e w = (st.count 9 1).updEng e fun g => { g with wait := some w } := by
  unfold Strand.waiting
  generalize (w.isHeld && inSlot && _) = first
  cases first
  · exact .inl rfl
  · exact .inr rfl

theorem Strand.eng_waiting (st : Strand) (inSlot : Bool) (e : Eng) (w : Wait) :
    (st.waiting inSlot e w).eng e = { st.eng e with wait := some w } := by
  obtain h | h := st.waiting_cases inSlot e w <;> simp [h]

theorem State.keepsAround_passed (s : State) (e : Eng) (len : Nat) : s.KeepsAround (s.passed e len) := .updStrand s _

theorem State.keepsAround_passedAs (s : State) (e : Eng) (len : Nat) (st : Strand) : s.KeepsAround (s.passedAs e len st) :=
  (State.KeepsAround.setStrand s st).trans rfl (State.keepsAround_passed (s.setStrand s.focusTile st) e len)

theorem State.keepsAround_wentTo (s : State) (e : Eng) (pc : Nat) : s.KeepsAround (s.wentTo s.focusTile e pc) :=
  (State.KeepsAround.updStrand s _).trans rfl (.updStrand (goTo s s.focusTile e pc) _)

theorem State.keepsAround_setWait (s : State) (e : Eng) (w : Wait) : s.KeepsAround (setWait s s.focusTile e w) := by
  cases w with
  | held a => exact (State.KeepsAround.hold s _ _ a).trans rfl (.updStrand (s.hold _ _ a) _)
  | _ => exact .updStrand s _

end

end Sys2Proof.Machine

namespace Sys2Proof

open Sys2Proof.Machine

/-- Settles O9: what stands around the strand is `State.KeepsAround`, and the strand itself is `State.strand_passedAs`,
`State.strand_setWait` and `State.strand_wentTo`. -/
theorem wordsFrame : Obligations.WordsFrame := by
  unfold Obligations.WordsFrame
  intro s e len st w pc _ keeps same
  have around {u : State} (h : s.KeepsAround u) : keeps u :=
    ⟨h.mem, h.psc, h.launches, h.jobs, h.queues, h.dies, h.pending, h.card, h.spad, h.core⟩
  refine ⟨⟨_, State.strand_passedAs s e len st, around (State.keepsAround_passedAs s e len st), ?_, ?_⟩, fun p hp => ?_, fun p hp => ?_⟩
  · simp +contextual [same]
  · simp +contextual [Engine.pass_pc_of_no_rep, Engine.pass_steps_of_no_rep]
  · refine ⟨_, State.strand_setWait hp e w, around (State.keepsAround_setWait s e w), ?_, Strand.eng_waiting p _ e w⟩
    obtain h | h := p.waiting_cases s.slotNow e w <;> simp +contextual [h, same]
  · refine ⟨_, State.strand_wentTo hp e pc, around (State.keepsAround_wentTo s e pc), ?_, ?_⟩
    · simp +contextual [same]
    · simp

end Sys2Proof
end

section
/-! PROOFS. The slip window and TICK (R34, R441): a second TICK of a strand in one tick is not executed in it, and leaves its engine as
it is even where the slip window stalls it. -/

namespace Sys2Proof.Machine

/-- A second TICK of a strand in one tick changes nothing (R441). -/
theorem exec_tick_again {s : State} {st : Strand} (hs : s.strand s.focusTile = some st) (h : st.lastTick = some s.psc) (d : Code) :
    exec (.tick d) s = .next s := by
  show execTick d s = .next s
  simp only [execTick, hs, h, beq_self_eq_true, if_true, notDue]

/-- A strand whose control engine is 300 text steps ahead of the others, and which has executed a TICK in the tick 0. -/
def tickedAhead : Strand := { Strand.placed (demoLaunch 1) demoJob 0 with c := { steps := 300 }, lastTick := some 0 }

/-- The package at reset, with that strand on the tile core in focus. -/
def tickedState : State := State.reset.setStrand 0 tickedAhead

theorem strand_tickedState : tickedState.strand tickedState.focusTile = some tickedAhead := by
  show (State.reset.setStrand 0 tickedAhead).strand 0 = _
  rw [State.strand_setStrand, if_pos rfl]

/-- Its next TICK, of two text words, would take it 302 text steps ahead, and `win` is 256. -/
theorem tickedAhead_stalled : tickedAhead.slipStalled .c 2 = true := by decide

end Sys2Proof.Machine

namespace Sys2Proof

open Sys2Proof.Machine

/-- Refutes O7: the slip window stalls the control engine of `tickedState` before its TICK, but the strand has executed a TICK in that
tick already, so that `exec` leaves the engine as it is and not waiting on the window. -/
theorem not_slipWindowStalls : ¬ Obligations.SlipWindowStalls := by
  unfold Obligations.SlipWindowStalls
  rintro ⟨stalls, -⟩
  have waiting : exec (.tick 1) tickedState = .next (setWait tickedState tickedState.focusTile .c .slip) :=
    stalls tickedState (.tick 1) _ _ .c tickedAhead rfl (.inl (by decide)) strand_tickedState tickedAhead_stalled
  rw [exec_tick_again strand_tickedState rfl] at waiting
  have strands := congrArg (fun s : State => s.strand tickedState.focusTile) (Host.Outcome.next.inj waiting)
  rw [State.strand_setWait strand_tickedState, strand_tickedState] at strands
  have waits := congrArg (fun st : Strand => (st.eng .c).wait) (Option.some.inj strands)
  rw [Strand.eng_waiting] at waits
  cases waits

end Sys2Proof
end

section
/-! PROOFS. Taking a fault (R53, R54, R56, R416, R437, R450, R451, R460): the launch that `takeFault` leaves, each tile core, and which of
two records stays. -/

namespace Sys2Proof.Machine

/-- An update that keeps the launch's handle is what a look-up of that launch shows. -/
theorem State.launch?_updLaunch {s : State} {h : Nat} {f : Launch → Launch} (hf : ∀ l, (f l).handle = l.handle) :
    (s.updLaunch h f).launch? h = (s.launch? h).map f := by
  have keeps : ((fun l : Launch => l.handle == h) ∘ fun l => if l.handle == h then f l else l) = fun l => l.handle == h := by
    funext l
    show ((if l.handle == h then f l else l).handle == h) = (l.handle == h)
    split <;> simp only [hf]
  rw [State.launch?, State.updLaunch, List.find?_map, keeps, State.launch?]
  cases found : s.launches.find? fun l => l.handle == h with
  | none => rfl
  | some l =>
    have hl : (l.handle == h) = true := List.find?_some (p := fun l : Launch => l.handle == h) found
    simp only [Option.map_some, hl, if_true]

/-- A launch marked by a fault (R54, R56, R437): the earliest record stays, and nothing of it is left to place. -/
def Launch.faultedBy (l : Launch) (r : FaultRec) : Launch :=
  { l with faulted := true, record := some (match l.record with | some q => firstFault q r | none => r),
           nflt := min (l.nflt + 1) (2 ^ 32 - 1), dealt := l.count, stopped := [] }

theorem launch?_takeFault (s : State) (h : Nat) (r : FaultRec) :
    (takeFault s h r).launch? h = (s.launch? h).map fun l => l.faultedBy r :=
  State.launch?_updLaunch (s := s) (f := fun l => l.faultedBy r) fun _ => rfl

/-- A tile core once a launch has faulted: its strand of the launch stops, and queued strands of the launch are gone (R54). -/
theorem core_takeFault (s : State) (h : Nat) (r : FaultRec) (t : Core) :
    (takeFault s h r).core t = { s.core t with
      strand := (s.core t).strand.map fun st => if st.handle == h then st.stopByFault s.psc else st
      queue := (s.core t).queue.filter fun e => e.1 != h
      heldFor := if (s.core t).heldFor == some h then none else (s.core t).heldFor } := by
  simp only [takeFault, State.core, State.updJob_cores]
  change State.core (State.allCores _ _) t = _
  rw [State.core_allCores]
  rfl

theorem strand_takeFault (s : State) (h : Nat) (r : FaultRec) (t : Core) :
    (takeFault s h r).strand t = (s.strand t).map fun st => if st.handle == h then st.stopByFault s.psc else st := by
  rw [State.strand, core_takeFault]
  rfl

theorem strand_takeFault_of_ne {s : State} {h : Nat} {r : FaultRec} {t : Core} {st : Strand} (hs : s.strand t = some st)
    (hh : st.handle ≠ h) : (takeFault s h r).strand t = some st := by
  simp [strand_takeFault, hs, hh]

theorem strand_takeFault_of_eq {s : State} {h : Nat} {r : FaultRec} {t : Core} {st : Strand} (hs : s.strand t = some st)
    (hh : st.handle = h) : (takeFault s h r).strand t = some (st.stopByFault s.psc) := by
  simp [strand_takeFault, hs, hh]

/-! Which record stays (R56). -/

theorem firstFault_cases (a b : FaultRec) : firstFault a b = a ∨ firstFault a b = b := by
  unfold firstFault
  (repeat' split) <;> simp

/-- The record that stays is of the earliest tick, then of the lowest tile core, then of the lowest engine. -/
theorem firstFault_least (a b : FaultRec) {x : FaultRec} (hx : x = a ∨ x = b) :
    (firstFault a b).tick.toNat ≤ x.tick.toNat ∧
      ((firstFault a b).tick = x.tick → (firstFault a b).core.toNat ≤ x.core.toNat) ∧
      ((firstFault a b).tick = x.tick → (firstFault a b).core = x.core → (firstFault a b).eng.toNat ≤ x.eng.toNat) := by
  unfold firstFault
  by_cases ht : a.tick = b.tick
  · by_cases hc : a.core = b.core
    · simp only [ht, hc, bne_self_eq_false, Bool.false_eq_true, if_false]
      obtain rfl | rfl := hx <;> split <;> simp [ht, hc] <;> omega
    · simp only [ht, bne_self_eq_false, Bool.false_eq_true, if_false, bne_iff_ne, ne_eq, hc, not_false_eq_true, if_true]
      obtain rfl | rfl := hx <;> split <;> simp [ht, hc, Ne.symm hc] <;> omega
  · simp only [bne_iff_ne, ne_eq, ht, not_false_eq_true, if_true]
    obtain rfl | rfl := hx <;> split <;> simp [ht, Ne.symm ht] <;> omega

/-! A tick of a strand that a fault has stopped (R54, R451, R460). -/

/-- A tick changes nothing of a strand's engines but what the discarding of a stopped strand's queues changes. -/
theorem Strand.eng_tick_of_dead {st : Strand} (h : st.dead54 = true) (now : DWord) (dt free early : Nat) (e : Eng) :
    (st.tick now dt free early).eng e = st.discardQueues.eng e := by
  simp only [Strand.tick, h, if_true, Strand.eng_count]
  cases e <;> rfl

theorem Strand.eng_discardQueues (st : Strand) (e : Eng) :
    st.discardQueues.eng e =
      { st.eng e with outcomes := [], wait := match (st.eng e).wait with | some (.held a) => some (.held a) | _ => none } := by
  cases e <;> rfl

theorem Strand.wait_discardQueues (st : Strand) (e : Eng) (w : Wait) :
    (st.discardQueues.eng e).wait = some w ↔ (st.eng e).wait = some w ∧ w.isHeld = true := by
  rw [Strand.eng_discardQueues]
  cases (st.eng e).wait with
  | none => simp
  | some x => cases x <;> cases w <;> simp [Wait.isHeld]

end Sys2Proof.Machine

namespace Sys2Proof

open Sys2Proof.Machine

/-- Settles O10: `launch?_takeFault` and `core_takeFault` say what a fault leaves of the launch and of each tile core, a tick of a stopped
strand discards its queues, and `firstFault_least` says which record stays. -/
theorem faultsTaken : Obligations.FaultsTaken := by
  unfold Obligations.FaultsTaken
  refine ⟨fun s h r l hl => ?taken, fun st now dt free early dead => ?ticked,
    fun a b => ⟨firstFault_cases a b, fun x hx => firstFault_least a b hx⟩, fun s t st e rec c pr hs => ?word⟩
  case taken =>
    refine ⟨⟨l.faultedBy r, ?_, rfl, rfl, rfl, fun none => ?_, fun q some => ?_⟩, fun u st hs hh => strand_takeFault_of_ne hs hh,
      fun u st hs hh => ⟨fun live => ?_, fun dead => ?_⟩, fun u x hx => ?_, fun x hx => ?_, rfl, rfl, rfl,
      fun u => State.spad_takeFault s h r u⟩
    · rw [launch?_takeFault, hl, Option.map_some]
    · simp only [Launch.faultedBy, none]
    · simp only [Launch.faultedBy, some]
    · simp [strand_takeFault_of_eq hs hh, Strand.stopByFault, live]
    · simp [strand_takeFault_of_eq hs hh, Strand.stopByFault, dead]
    · rw [core_takeFault] at hx
      simpa using (List.mem_filter.mp hx).2
    · simpa using (List.mem_filter.mp hx).2
  case ticked =>
    have outcomes : ∀ e, ((st.tick now dt free early).eng e).outcomes = [] ∧
        ∀ w, ((st.tick now dt free early).eng e).wait = some w ↔ (st.eng e).wait = some w ∧ w.isHeld = true := fun e => by
      rw [Strand.eng_tick_of_dead dead]
      exact ⟨by rw [Strand.eng_discardQueues], Strand.wait_discardQueues st e⟩
    intro q
    refine ⟨?_, ?_, ?_, ?_, ?_, ?_, ?_, ?_, ?_, ?_, ?_, ?_, ?_, ?_, outcomes⟩ <;>
      simp [q, Strand.tick, dead, Strand.discardQueues, Strand.allEngs]
  case word =>
    simp only [wordFault, hs, wordRecord, beq_iff_eq]

end Sys2Proof
end

section
/-! PROOFS. The control engine's queue words (R38, R165, R166, R167, R317, R319, R320): what `pushN` and `takeN` make of one entry, and
what BSET leaves in the branch-outcome queues. -/

namespace Sys2Proof.Machine

section
variable {st : Strand} {e p k : Eng} {depth : Nat} {q rest : List (Queued PWord)} {v : PWord} {x : Queued PWord}

/-! One entry pushed or taken (R317, R318, R319). -/

theorem pushN_of_ended (h : (st.eng k).ended = true) : pushN st p k depth q [v] [] = .ok (q, st.count 13 1) := by
  simp only [pushN, h, if_true, List.length_singleton]

theorem pushN_of_room (h : (st.eng k).ended = false) (room : q.length < depth) :
    pushN st p k depth q [v] [] = .ok (q ++ [st.entry p [] v], st) := by
  have fits : ¬ q.length + 1 > depth := by omega
  simp [pushN, h, fits]

theorem pushN_of_full (h : (st.eng k).ended = false) (full : depth ≤ q.length) : pushN st p k depth q [v] [] = await .push := by
  have noRoom : q.length + 1 > depth := by omega
  simp [pushN, h, noRoom]

end

section
variable {s : State} {st : Strand} {f : Strand → Except Halt Strand} {now : List (Queued PWord)}

/-- A word that pushes one entry to a queue drops it for an ended consumer, pushes it where there is room, and else waits. -/
theorem strandWord_push {v : PWord} {k : Eng} {set : List (Queued PWord) → Strand → Strand} (hr : s.ready .c 1 st)
    (hf : f st = do let (q, st1) ← pushN st .c k 8 now [v] []; .ok (set q st1)) (hset : set now (st.count 13 1) = st.count 13 1) :
    ((st.eng k).ended = true → strandWord .c 1 f s = .next (s.passedAs .c 1 (st.count 13 1))) ∧
    ((st.eng k).ended = false → now.length < 8 →
      strandWord .c 1 f s = .next (s.passedAs .c 1 (set (now ++ [st.entry .c [] v]) st))) ∧
    ((st.eng k).ended = false → 8 ≤ now.length → strandWord .c 1 f s = .next (setWait s s.focusTile .c .push)) := by
  refine ⟨fun ended => strandWord_ok hr ?_, fun live room => strandWord_ok hr ?_, fun live full => strandWord_wait hr ?_⟩
  · rw [hf, pushN_of_ended ended]
    exact congrArg Except.ok hset
  · rw [hf, pushN_of_room live room]
    rfl
  · rw [hf, pushN_of_full live full]
    rfl

/-- A word that pops or peeks one entry of a queue writes it to its register, or waits. -/
theorem exec_qget_of_queue {d q : Code} {k : BitVec 1} {pop : Strand → Bool → Except Halt (PWord × Strand)}
    {set : List (Queued PWord) → Strand → Strand} (hr : s.ready .c 1 st)
    (hf : qgetOp d q k st = do let (v, st1) ← pop st (k == 1); .ok (st1.setX d v))
    (hpop : pop st (k == 1) = do let (v, q, st1) ← takeOne st .c now (k == 1); .ok (v, set q st1)) :
    (∀ v rest, now = v :: rest → exec (.qget d q k) s =
      .next (s.passedAs .c 1 ((set (if k == 1 then v :: rest else rest) (st.took .c [v])).setX d v.val))) ∧
    (now = [] → exec (.qget d q k) s = .next (setWait s s.focusTile .c .pop)) := by
  refine ⟨fun v rest some => strandWord_ok hr ?_, fun none => strandWord_wait hr ?_⟩
  · rw [hf, hpop, some]
    rfl
  · rw [hf, hpop, none]
    rfl

/-- A number that names no queue raises ILLEGAL (R165, R166). -/
theorem exec_qput_of_no_queue {q a : Code} (hr : s.ready .c 1 st) (hq : 4 ≤ q.toNat) :
    exec (.qput q a) s = .next (wordFault s s.focusTile .c 0 .illegal .atWord) := by
  refine strandWord_fault (e := .c) hr ?_
  dsimp only
  split <;> first | omega | rfl

theorem exec_qget_of_no_queue {d q : Code} {k : BitVec 1} (hr : s.ready .c 1 st) (hq : 3 ≤ q.toNat) :
    exec (.qget d q k) s = .next (wordFault s s.focusTile .c 0 .illegal .atWord) := by
  refine strandWord_fault (e := .c) hr ?_
  unfold qgetOp
  dsimp only
  split <;> first | omega | rfl

end

/-! BSET (R167, R319, R320). -/

/-- An outcome goes to one engine's queue, unless the engine has ended. -/
theorem outcomes_pushOutcome (v : Word) (st : Strand) (k e : Eng) :
    ((pushOutcome v st k).eng e).outcomes =
      if e = k ∧ (st.eng e).ended = false then (st.eng e).outcomes ++ [v] else (st.eng e).outcomes := by
  unfold pushOutcome
  cases h : (st.eng k).ended <;> by_cases he : e = k <;> simp_all

theorem ended_pushOutcome (v : Word) (st : Strand) (k e : Eng) : ((pushOutcome v st k).eng e).ended = (st.eng e).ended := by
  unfold pushOutcome
  split
  · rw [Strand.eng_count]
  · rw [Strand.eng_updEng]
    split
    · subst_vars; rfl
    · rfl

/-- BSET's value goes to every engine that has not ended. -/
theorem outcomes_pushOutcome_all (v : Word) (st : Strand) (e : Eng) :
    ((Eng.all.foldl (pushOutcome v) st).eng e).outcomes =
      if (st.eng e).ended then (st.eng e).outcomes else (st.eng e).outcomes ++ [v] := by
  cases h : (st.eng e).ended <;> cases e <;>
    simp [Eng.all, outcomes_pushOutcome, ended_pushOutcome, h]

section
variable {s : State} {st : Strand} {a : Code}

theorem clean_of_poison {v : PWord} (h : v.poison = true) : clean v = .error (.fault .poisonSync) := by simp only [clean, h, if_true]; rfl

theorem clean_of_clean {v : PWord} (h : v.poison = false) : clean v = .ok v.val := by simp [clean, h]

theorem exec_bset_of_poison (hr : s.ready .c 1 st) (hp : (st.x? a).poison = true) :
    exec (.bset a) s = .next (wordFault s s.focusTile .c 0 .poisonSync .atWord) :=
  strandWord_fault (e := .c) hr (by rw [bsetOp, clean_of_poison hp]; rfl)

/-- BSET waits while the branch-outcome queue of any engine that has not ended is full. -/
theorem exec_bset_of_full (hr : s.ready .c 1 st) (hp : (st.x? a).poison = false)
    (full : ∃ e, (st.eng e).ended = false ∧ 8 ≤ (st.eng e).outcomes.length) :
    exec (.bset a) s = .next (setWait s s.focusTile .c .outcomeFull) := by
  have any : (Eng.all.any fun e => !(st.eng e).ended && decide ((st.eng e).outcomes.length ≥ 8)) = true := by
    obtain ⟨e, live, len⟩ := full
    exact List.any_eq_true.mpr ⟨e, by cases e <;> decide, by simp [live, len]⟩
  refine strandWord_wait hr ?_
  simp only [bsetOp, clean_of_clean hp, bind, Except.bind, any, if_true]
  rfl

theorem exec_bset_of_room (hr : s.ready .c 1 st) (hp : (st.x? a).poison = false)
    (room : ∀ e, (st.eng e).ended = false → (st.eng e).outcomes.length < 8) :
    exec (.bset a) s = .next (s.passedAs .c 1 (Eng.all.foldl (pushOutcome ((st.x? a).val.setWidth 32)) st)) := by
  have none : (Eng.all.any fun e => !(st.eng e).ended && decide ((st.eng e).outcomes.length ≥ 8)) = false := by
    refine List.any_eq_false.mpr fun e _ => ?_
    cases live : (st.eng e).ended with
    | true => simp
    | false => simpa using room e live
  refine strandWord_ok hr ?_
  simp only [bsetOp, clean_of_clean hp, bind, Except.bind, none, Bool.false_eq_true, if_false]

end

end Sys2Proof.Machine

namespace Sys2Proof

open Sys2Proof.Machine

/-- Settles O17: QPUT is `strandWord_push` and QGET `exec_qget_of_queue` at each queue, and BSET by the queues it finds. -/
theorem queuePushesAndPops : Obligations.QueuePushesAndPops := by
  unfold Obligations.QueuePushesAndPops
  refine ⟨fun s st hr d q a v rest => ?queues, fun s st a hr => ⟨exec_bset_of_poison hr,
    fun hp => ⟨exec_bset_of_full hr hp, fun room => ?bset⟩⟩⟩
  case queues =>
    intro put seen get entry
    have got {k : Code} {now : List (Queued PWord)} {pop : Strand → Bool → Except Halt (PWord × Strand)}
        {set : List (Queued PWord) → Strand → Strand}
        (hf : ∀ b : BitVec 1, qgetOp d k b st = do let (v, st1) ← pop st (b == 1); .ok (st1.setX d v))
        (hpop : ∀ b, pop st b = do let (v, q, st1) ← takeOne st .c now b; .ok (v, set q st1)) (hset : set now seen = seen) :
        get k now (set rest seen) := by
      have popped := exec_qget_of_queue hr (hf 0) (hpop _)
      have peeked := exec_qget_of_queue hr (hf 1) (hpop _)
      refine ⟨fun some => ⟨popped.1 v rest some, ?_⟩, fun none => ⟨popped.2 none, peeked.2 none⟩⟩
      rw [← hset, some]
      exact peeked.1 v rest some
    refine ⟨?_, ?_, ?_, ?_, fun hq => exec_qput_of_no_queue hr hq, ?_, ?_, ?_, fun hq k => exec_qget_of_no_queue hr hq⟩
    · exact strandWord_push (set := fun q st => { st with c2a := q }) hr rfl rfl
    · exact strandWord_push (set := fun q st => { st with c2v := q }) hr rfl rfl
    · exact strandWord_push (set := fun q st => { st with c2m := q }) hr rfl rfl
    · exact strandWord_push (set := fun q st => { st with c2x := q }) hr rfl rfl
    · exact got (pop := popA2c) (set := fun q st => { st with a2c := q }) (fun _ => rfl) (fun _ => rfl) rfl
    · exact got (pop := popV2c) (set := fun q st => { st with v2c := q }) (fun _ => rfl) (fun _ => rfl) rfl
    · exact got (pop := popX2c) (set := fun q st => { st with x2c := q }) (fun _ => rfl) (fun _ => rfl) rfl
  case bset =>
    refine ⟨_, exec_bset_of_room hr hp room, _, State.strand_passedAs _ _ _ _, fun e => ?_⟩
    rw [← outcomes_pushOutcome_all]
    by_cases he : e = .c <;> simp [he]

end Sys2Proof
end

section
/-! PROOFS. The system registers (R34, R40, R153, R154, R155, R156, R157, R170): SRD by the register's value, SWR by whether the number
may be written and the value is in its range. -/

namespace Sys2Proof.Machine

section
variable {s : State} {st : Strand} {d a : Code} {n : Word}

/-- SRD writes the value of a register that exists (R153, R158). -/
theorem exec_srd_of_some {v : DWord} (hr : s.ready .c 2 st) (h : sysReg s s.focusTile st n.toNat = some v) :
    exec (.srd d n) s = .next (s.passedAs .c 2 (st.setX d ⟨v, false⟩)) :=
  checkedWord_ok (f := srdOp d n) hr (by simp only [srdOp, h])

theorem exec_srd_of_none (hr : s.ready .c 2 st) (h : sysReg s s.focusTile st n.toNat = none) :
    exec (.srd d n) s = .next (wordFault s s.focusTile .c 0 .illegal .atWord) :=
  checkedWord_fault (e := .c) (f := srdOp d n) hr (by simp only [srdOp, h]; rfl)

theorem sysReg_eq_none {t : Core} {k : Nat} (h : 13 ≤ k) : sysReg s t st k = none := by
  unfold sysReg
  split <;> first | omega | rfl

/-- `status` of a strand whose launch is there (R157). -/
theorem statusOf_of_launch {l : Launch} (h : s.launch? st.handle = some l) :
    statusOf s st = BitVec.ofNat 64 (min 7 (l.prio.val + l.aged) * 64 + st.cls.bits.toNat * 16 + (if st.ovr then 2 ^ 3 else 0)
      + (if st.resumed then 2 ^ 2 else 0) + (if st.gang then 2 ^ 1 else 0) + (if st.det then 2 ^ 0 else 0)) := by
  simp only [statusOf, h, Launch.level]

/-! SWR (R34, R154, R156, R170). -/

/-- The strand once a positional register has been written: the control engine's own copy, and the value that the others take as they pass
the word (R156). -/
def Strand.withPositional (st : Strand) (k : Nat) (v : DWord) : Strand :=
  { (st.trimSwrs.updEng .c fun g => swrOp.setPos g k v) with swrs := st.trimSwrs.swrs ++ [⟨st.c.pos, k, v⟩] }

theorem swrOp_of_unwritable (h : ¬ (n.toNat = 0 ∨ swrOp.positional n.toNat = true)) : swrOp a n st = .error (.fault .illegal) := by
  simp only [swrOp, Bool.or_eq_true, decide_eq_true_eq, h, if_false]
  rfl

theorem swrOp_of_poison (h : n.toNat = 0 ∨ swrOp.positional n.toNat = true) (hp : (st.x? a).poison = true) :
    swrOp a n st = .error (.fault .poisonSync) := by
  simp only [swrOp, Bool.or_eq_true, decide_eq_true_eq, h, if_true, clean_of_poison hp]
  rfl

theorem swrOp_of_not_allowed (h : n.toNat = 0 ∨ swrOp.positional n.toNat = true) (hp : (st.x? a).poison = false)
    (hv : swrAllowed st n.toNat (st.x? a).val.toNat = false) : swrOp a n st = .error (.fault .illegal) := by
  simp only [swrOp, Bool.or_eq_true, decide_eq_true_eq, h, if_true, clean_of_clean hp, bind, Except.bind, hv, Bool.not_false]
  rfl

theorem swrOp_of_win (hn : n.toNat = 0) (hp : (st.x? a).poison = false) (hv : swrAllowed st 0 (st.x? a).val.toNat = true) :
    swrOp a n st = .ok { st with win := (st.x? a).val.setWidth 11 } := by
  simp [swrOp, hn, clean_of_clean hp, bind, Except.bind, hv]

theorem swrOp_of_positional (hn : n.toNat ≠ 0) (h : swrOp.positional n.toNat = true) (hp : (st.x? a).poison = false)
    (hv : swrAllowed st n.toNat (st.x? a).val.toNat = true) : swrOp a n st = .ok (st.withPositional n.toNat (st.x? a).val) := by
  simp only [swrOp, hn, h, decide_false, Bool.false_or, if_true, clean_of_clean hp, bind, Except.bind, hv, Bool.not_true,
    Bool.false_eq_true, if_false, Strand.withPositional]

theorem Strand.eng_withPositional (st : Strand) (k : Nat) (v : DWord) (e : Eng) :
    (st.withPositional k v).eng e = if e = .c then swrOp.setPos st.c k v else st.eng e := by
  cases e <;> rfl

/-- A positional register written shows in the control engine alone, and stands last for the others (R156). -/
theorem exec_swr_of_positional (hr : s.ready .c 2 st) (hn : n.toNat ≠ 0) (h : swrOp.positional n.toNat = true)
    (hp : (st.x? a).poison = false) (hv : swrAllowed st n.toNat (st.x? a).val.toNat = true) :
    reaches (exec (.swr a n) s) fun t => ∃ st', t.strand s.focusTile = some st' ∧
      st'.c.sbase = (swrOp.setPos st.c n.toNat (st.x? a).val).sbase ∧ st'.c.slim = (swrOp.setPos st.c n.toNat (st.x? a).val).slim ∧
      st'.c.slotmode = (swrOp.setPos st.c n.toNat (st.x? a).val).slotmode ∧ st'.win = st.win ∧
      (∀ e, e ≠ .c → st'.eng e = st.eng e) ∧ st'.swrs.getLast? = some ⟨st.c.pos, n.toNat, (st.x? a).val⟩ := by
  have own : (st.withPositional n.toNat (st.x? a).val).c = swrOp.setPos st.c n.toNat (st.x? a).val := rfl
  refine ⟨_, strandWord_ok (f := swrOp a n) hr (swrOp_of_positional hn h hp hv), _, State.strand_passedAs _ _ _ _, ?_⟩
  have passed (st' : Strand) : ((st'.updEng .c fun g => g.pass 2).count (engCounter .c) 1).trimLedger.c = st'.c.pass 2 := rfl
  rw [passed, own]
  refine ⟨Engine.pass_sbase _ _, Engine.pass_slim _ _, Engine.pass_slotmode _ _, ?_, fun e he => ?_, ?_⟩
  · simp [Strand.withPositional, Strand.trimSwrs]
  · simp [Strand.eng_withPositional, he]
  · simp [Strand.withPositional]

end

end Sys2Proof.Machine

namespace Sys2Proof

open Sys2Proof.Machine

/-- Settles O18: SRD by `sysReg`, and SWR by whether the number may be written, the source is clean, and the value is in its range. -/
theorem systemRegisters : Obligations.SystemRegisters := by
  unfold Obligations.SystemRegisters
  refine ⟨fun s st d l hr hl => ?srd, fun s st a hr => ?swr⟩
  case srd =>
    intro flag gives
    have given {n : Word} {v : Nat} (h : sysReg s s.focusTile st n.toNat = some (BitVec.ofNat 64 v)) : gives n v :=
      exec_srd_of_some hr h
    refine ⟨given ?_, given ?_, given ?_, given ?_, given ?_, given ?_, given ?_, given ?_, given ?_, given ?_, given ?_, given ?_,
      given ?_, fun n hn => exec_srd_of_none hr (sysReg_eq_none hn)⟩
    case refine_7 => exact congrArg some (statusOf_of_launch hl)
    case refine_11 => rfl
    all_goals exact congrArg some (BitVec.ofNat_toNat 64 _).symm
  case swr =>
    intro v clean own
    have unwritable {n : Word} (h : ¬ (n.toNat = 0 ∨ swrOp.positional n.toNat = true)) : raises (.swr a n) s .c 0 .illegal :=
      strandWord_fault (e := .c) (f := swrOp a n) hr (swrOp_of_unwritable h)
    have refused {n : Word} (h : n.toNat = 0 ∨ swrOp.positional n.toNat = true) (hp : clean)
        (hv : swrAllowed st n.toNat v.toNat = false) : raises (.swr a n) s .c 0 .illegal :=
      strandWord_fault (e := .c) (f := swrOp a n) hr (swrOp_of_not_allowed h hp hv)
    refine ⟨fun n h0 h1 h2 h5 => unwritable ?_, fun n hn hp => ?_, fun hp lo hi => ?_, fun hp out => refused (.inl rfl) hp ?_,
      fun hp depth align big slim => ?_, fun hp depth align big sbase => ?_, fun hp one => ?_,
      fun hp out => refused (.inr rfl) hp ?_, fun hp out => refused (.inr rfl) hp ?_, fun hp out => refused (.inr rfl) hp ?_⟩
    · simp only [swrOp.positional, Bool.or_eq_true, decide_eq_true_eq]
      bv_omega
    · refine strandWord_fault (e := .c) (f := swrOp a n) hr (swrOp_of_poison ?_ (by simpa [clean] using hp))
      obtain rfl | rfl | rfl | rfl := hn <;> decide
    · exact strandWord_ok (f := swrOp a 0) hr (swrOp_of_win rfl hp (by simp [swrAllowed, v] at *; omega))
    · simp [swrAllowed]; omega
    · exact exec_swr_of_positional (n := 1) hr (by decide) rfl hp (show swrAllowed st 1 v.toNat = true by simp [swrAllowed]; omega)
    · exact exec_swr_of_positional (n := 2) hr (by decide) rfl hp (show swrAllowed st 2 v.toNat = true by simp [swrAllowed]; omega)
    · exact exec_swr_of_positional (n := 5) hr (by decide) rfl hp (show swrAllowed st 5 v.toNat = true by simp [swrAllowed]; omega)
    · simp [swrAllowed]; omega
    · simp [swrAllowed]; omega
    · simp [swrAllowed]; omega

end Sys2Proof
end

section
/-! PROOFS. Branches, calls, returns and loops (R39, R40, R74, R171 to R173): what each word answers, by its target, its outcome and the
return stack. -/

namespace Sys2Proof.Machine

section
variable {s s1 t : State} {st : Strand} {e : Eng} {f : State → Core → Strand → Eng → Except Halt State}

/-! Strand-wide words run by the engine in focus. -/

theorem flowWord_ok (he : s.focusEng = e) (hr : s.ready e 1 st) (h : f s s.focusTile st e = .ok t) :
    flowWord f s = .next (t.counted s.focusTile e) := by
  subst he
  exact placedWord_ok hr h

theorem flowWord_goTo {pc : Nat} (he : s.focusEng = e) (hr : s.ready e 1 st)
    (h : f s s.focusTile st e = .ok (goTo t s.focusTile e pc)) : flowWord f s = .next (t.wentTo s.focusTile e pc) :=
  flowWord_ok he hr h

theorem flowWord_wait {w : Wait} (he : s.focusEng = e) (hr : s.ready e 1 st) (h : f s s.focusTile st e = .error (.wait w)) :
    flowWord f s = .next (setWait s s.focusTile e w) := by
  subst he
  exact placedWord_wait hr h

theorem flowWord_fault {c : FaultCode} (he : s.focusEng = e) (hr : s.ready e 1 st)
    (h : f s s.focusTile st e = .error (.fault c)) : flowWord f s = .next (wordFault s s.focusTile e 0 c .atWord) := by
  subst he
  exact placedWord_fault hr h

/-! Targets (R74). -/

theorem targetOf_of_inside {i : Nat} {off : Int} (h : 0 ≤ (i : Int) + off ∧ (i : Int) + off < st.textLen) :
    targetOf st i off = .ok ((i : Int) + off).toNat := by
  have inside : ¬ ((i : Int) + off < 0 ∨ (i : Int) + off ≥ st.textLen) := by omega
  simp only [targetOf, Bool.or_eq_true, decide_eq_true_eq, inside, if_false]

theorem targetOf_of_outside {i : Nat} {off : Int} (h : ¬ (0 ≤ (i : Int) + off ∧ (i : Int) + off < st.textLen)) :
    targetOf st i off = .error (.fault .illegal) := by
  have outside : (i : Int) + off < 0 ∨ (i : Int) + off ≥ st.textLen := by omega
  simp only [targetOf, Bool.or_eq_true, decide_eq_true_eq, outside, if_true]
  rfl

/-- A text index as a target. -/
theorem targetOf_index {i : Nat} (h : i < st.textLen) : targetOf st i 0 = .ok i := by
  rw [targetOf_of_inside (by omega)]
  simp

theorem outcome_of_nil (h : (st.eng e).outcomes = []) : outcome st e = .error (.wait .outcomeEmpty) := by
  simp only [outcome, h]; rfl

theorem outcome_of_cons {v : Word} {rest : List Word} (h : (st.eng e).outcomes = v :: rest) : outcome st e = .ok v := by
  simp only [outcome, h]

/-! The return stack on chip (R40). -/

theorem pushFrame_of_shallow {k : Frame} {c : Core} (h : (st.eng e).depth.toNat < 16) :
    pushFrame s c st e k = .ok (s.updStrand c fun q => q.updEng e fun g => { g with frames := k :: g.frames, depth := g.depth + 1 }) := by
  have fits : (st.eng e).depth.toNat + 1 ≤ 16 := by omega
  simp only [pushFrame, fits, if_true]

theorem popFrame_of_shallow {c : Core} (h : (st.eng e).depth.toNat ≤ 16) :
    popFrame s c st e = .ok (s.updStrand c fun q => q.updEng e fun g => { g with frames := g.frames.drop 1, depth := g.depth - 1 }) := by
  simp only [popFrame, h, if_true]

/-! RET and ENDL at the top frame (R172, R173). -/

theorem retOp_of_nil {c : Core} (h : (st.eng e).frames = []) : retOp s c st e = .error (.fault .stackLimit) := by
  simp only [retOp, h]; rfl

theorem retOp_of_loop {c : Core} {k : Frame} {rest : List Frame} (h : (st.eng e).frames = k :: rest) (hk : k.loop = true) :
    retOp s c st e = .error (.fault .illegal) := by
  simp only [retOp, h, hk, if_true]; rfl

theorem retOp_of_call {c : Core} {k : Frame} {rest : List Frame} (h : (st.eng e).frames = k :: rest) (hk : k.loop = false)
    (hi : k.index.toNat < st.textLen) (hp : popFrame s c st e = .ok t) : retOp s c st e = .ok (goTo t c e k.index.toNat) := by
  simp only [retOp, h, hk, Bool.false_eq_true, if_false, targetOf_index hi, hp, bind, Except.bind]

end

end Sys2Proof.Machine

namespace Sys2Proof

open Sys2Proof.Machine

/-- Settles O22: each word by its target (`targetOf_of_inside`, `targetOf_of_outside`), its outcome and the return stack. -/
theorem branches : Obligations.Branches := by
  unfold Obligations.Branches
  intro s st e off he hr i x inside framed
  refine ⟨fun inn => ?inside, fun out => ⟨?_, ?_, ?_⟩, fun none => flowWord_fault he hr (retOp_of_nil none), fun f rest some =>
    ⟨fun loop => flowWord_fault he hr (retOp_of_loop some loop),
     fun call hi t hp => flowWord_goTo he hr (retOp_of_call some call hi hp)⟩⟩
  case inside =>
    have target : targetOf st (st.eng e).pc off.toInt = .ok x.toNat := targetOf_of_inside inn
    have calls {t : State} (hp : pushFrame s s.focusTile st e ⟨false, 0, BitVec.ofNat 32 (i + 1)⟩ = .ok t) :
        completes (exec (.call off) s) (t.wentTo s.focusTile e x.toNat) :=
      flowWord_goTo he hr (by simp only [callOp, target, bind, Except.bind]; rw [hp])
    refine ⟨?_, fun none => ?_, fun v rest some => ?_, fun shallow => calls (pushFrame_of_shallow shallow), fun t hp => calls hp⟩
    · exact flowWord_goTo he hr (by simp only [brOp, target, bind, Except.bind])
    · exact flowWord_wait he hr (by simp only [brqOp, target, outcome_of_nil none, bind, Except.bind])
    · refine flowWord_goTo he hr ?_
      simp only [brqOp, target, outcome_of_cons some, bind, Except.bind, bne_iff_ne, ne_eq, ite_not]
      rfl
  all_goals
    have target : targetOf st (st.eng e).pc off.toInt = .error (.fault .illegal) := targetOf_of_outside out
    refine flowWord_fault he hr ?_
    simp only [brOp, brqOp, callOp, target, bind, Except.bind]

end Sys2Proof
end

section
/-! PROOFS. Loops (R40, R74, R99, R173) and the return stack past depth 16 (R40): frames spilled above `sbase` and filled back, and the
sixteen bytes of a frame. -/

namespace Sys2Proof.Machine

/-! The bytes of a number. -/

theorem length_bytesOfNat : ∀ n v : Nat, (bytesOfNat n v).length = n
  | 0, _ => rfl
  | n + 1, v => by rw [bytesOfNat, List.length_cons, length_bytesOfNat n]

theorem natOfBytes_bytesOfNat : ∀ n v : Nat, natOfBytes (bytesOfNat n v) = v % 256 ^ n
  | 0, v => by simp [bytesOfNat, natOfBytes, Nat.mod_one]
  | n + 1, v => by
    rw [bytesOfNat, natOfBytes, natOfBytes_bytesOfNat n, BitVec.toNat_ofNat, pow_succ' 256 n, Nat.mod_mul]

/-- The fields of a frame's number. -/
theorem frameNumber_fields {c k i : Nat} (hk : k < 4) (hi : i < 2 ^ 32) :
    bits (c * 2 ^ 64 + k * 2 ^ 62 + i) 61 32 = 0 ∧ bits (c * 2 ^ 64 + k * 2 ^ 62 + i) 63 62 = k ∧
      (c * 2 ^ 64 + k * 2 ^ 62 + i) / 2 ^ 64 = c ∧ (c * 2 ^ 64 + k * 2 ^ 62 + i) % 2 ^ 32 = i := by
  unfold bits
  omega

theorem Frame.length_bytes (f : Frame) : f.bytes.length = 16 := length_bytesOfNat 16 _

/-- The sixteen bytes of a loop frame, or of a call frame whose count is zero, give the frame back (R40). -/
theorem Frame.ofBytes_bytes (f : Frame) (h : f.loop = true ∨ f.count = 0) : Frame.ofBytes f.bytes = some f := by
  obtain ⟨loop, count, index⟩ := f
  have hc := count.isLt
  obtain ⟨reserved, kind, high, low⟩ := frameNumber_fields (c := count.toNat) (k := if loop then 2 else 1) (by split <;> omega) index.isLt
  have number : natOfBytes (Frame.bytes ⟨loop, count, index⟩) = count.toNat * 2 ^ 64 + (if loop then 2 else 1) * 2 ^ 62 + index.toNat := by
    rw [Frame.bytes, natOfBytes_bytesOfNat]
    refine Nat.mod_eq_of_lt ?_
    have hi := index.isLt
    split <;> omega
  have hindex : BitVec.ofNat 32 (count.toNat * 2 ^ 64 + (if loop then 2 else 1) * 2 ^ 62 + index.toNat) = index :=
    BitVec.eq_of_toNat_eq (by rw [BitVec.toNat_ofNat, low])
  simp only [Frame.ofBytes, number, reserved, kind, high, hindex, bne_self_eq_false, Bool.false_eq_true, if_false]
  cases loop with
  | true => simp
  | false =>
    obtain rfl : count = 0 := by simpa using h
    rfl

section
variable {s s1 s2 t : State} {st : Strand} {e : Eng} {c : Core} {f old : Frame} {front : List Frame}

/-- An update of a strand is what it does to the strand that is there. -/
theorem State.updStrand_congr {k : State} {g h : Strand → Strand} (hgh : ∀ q, k.strand c = some q → g q = h q) :
    k.updStrand c g = k.updStrand c h := by
  have same : (k.core c).strand.map g = (k.core c).strand.map h := Option.map_congr hgh
  simp only [State.updStrand, State.updCore, same]

/-- Storing to scratchpad counts the access of the strand, and changes nothing else of any strand (R237). -/
theorem State.strand_spadWrite (s : State) (me : Agent) (k : Carried) (a : Nat) (bs : List Byte) (p : Bool) (u : Core) :
    (s.spadWrite me k a bs p).strand u =
      if u = me.core then (s.strand u).map fun q => { q with splits := q.splits + 1 } else s.strand u := by
  show (State.updStrand (s.updCore me.core _) me.core _).strand u = _
  rw [State.strand_updStrand]
  split
  · subst_vars
    simp only [State.strand, State.core_updCore, if_true]
    rfl
  · rename_i h
    simp only [State.strand, State.core_updCore, h, if_false]

/-! Frames spilled and filled back (R40). -/

/-- The place of the frame at a depth past 16: sixteen bytes each from `sbase` upward. -/
def Engine.spillSlot (g : Engine) (d : Nat) : Nat := g.sbase.toNat + 16 * (d - 17)

theorem pushFrame_of_full (hd : 16 ≤ (st.eng e).depth.toNat)
    (hs : (st.eng e).slim.toNat < (st.eng e).spillSlot ((st.eng e).depth.toNat + 1) + 16) :
    pushFrame s c st e f = .error (.fault .stackLimit) := by
  have deep : ¬ (st.eng e).depth.toNat + 1 ≤ 16 := by omega
  unfold Engine.spillSlot at hs
  simp only [pushFrame, deep, if_false, gt_iff_lt, hs, if_true]
  rfl

/-- Past depth 16 the oldest frame on chip is written above `sbase`. -/
theorem pushFrame_of_deep (hst : s.strand c = some st) (hf : (st.eng e).frames = front ++ [old]) (hd : 16 ≤ (st.eng e).depth.toNat)
    (hs : (st.eng e).spillSlot ((st.eng e).depth.toNat + 1) + 16 ≤ (st.eng e).slim.toNat) :
    pushFrame s c st e f =
      .ok ((s.spadWrite (st.agent c e.part) {} ((st.eng e).spillSlot ((st.eng e).depth.toNat + 1)) old.bytes false).updStrand c fun q =>
        q.updEng e fun g => { g with frames := f :: front, depth := g.depth + 1 }) := by
  have deep : ¬ (st.eng e).depth.toNat + 1 ≤ 16 := by omega
  have room : ¬ (st.eng e).spillSlot ((st.eng e).depth.toNat + 1) + 16 > (st.eng e).slim.toNat := by omega
  have last : ((st.eng e).frames.getLast?.getD default) = old := by simp [hf]
  unfold Engine.spillSlot at room ⊢
  simp only [pushFrame, deep, if_false, room, last]
  refine congrArg Except.ok (State.updStrand_congr fun q hq => ?_)
  rw [State.strand_spadWrite, if_pos (show c = (st.agent c e.part).core from rfl), hst] at hq
  obtain rfl := Option.some.inj hq
  have frames : ({ st with splits := st.splits + 1 } : Strand).eng e = st.eng e := by cases e <;> rfl
  simp only [Strand.updEng, frames, hf, List.dropLast_concat]

theorem popFrame_of_poison {lo hi : List Byte} {p q : Bool} (hd : 16 < (st.eng e).depth.toNat)
    (h1 : spadRead s c e ((st.eng e).spillSlot (st.eng e).depth.toNat) 8 = (s1, lo, p))
    (h2 : spadRead s1 c e ((st.eng e).spillSlot (st.eng e).depth.toNat + 8) 8 = (s2, hi, q)) (hp : (p || q) = true) :
    popFrame s c st e = .error (.fault .poisonSync) := by
  have deep : ¬ (st.eng e).depth.toNat ≤ 16 := by omega
  unfold Engine.spillSlot at h1 h2
  simp only [popFrame, deep, if_false, h1, h2, hp, if_true]
  rfl

theorem popFrame_of_deep {lo hi : List Byte} (hd : 16 < (st.eng e).depth.toNat)
    (h1 : spadRead s c e ((st.eng e).spillSlot (st.eng e).depth.toNat) 8 = (s1, lo, false))
    (h2 : spadRead s1 c e ((st.eng e).spillSlot (st.eng e).depth.toNat + 8) 8 = (s2, hi, false))
    (hf : Frame.ofBytes (lo ++ hi) = some f) :
    popFrame s c st e = .ok (s2.updStrand c fun q => q.updEng e fun g => { g with frames := g.frames.drop 1 ++ [f], depth := g.depth - 1 }) := by
  have deep : ¬ (st.eng e).depth.toNat ≤ 16 := by omega
  unfold Engine.spillSlot at h1 h2
  simp only [popFrame, deep, if_false, h1, h2, Bool.or_self, Bool.false_eq_true, hf]

/-! LOOP, LOOPQ and ENDL (R99, R173). -/

/-- The word at `m` after a loop's own is an ENDL, and the word after it is inside the text. -/
theorem loopChecks_of_body {m : Nat} (hm : 0 < m) (inside : (st.eng e).pc + m + 1 < st.textLen)
    (ahead : aheadWord s c st e (st.eng e).pos ((st.eng e).pc + m) = .ok (s1, 0xA7000000)) :
    loopChecks m s c st e = .ok (s1, (st.eng e).pc + m + 1) := by
  have body : ¬ (m = 0 ∨ (st.eng e).pc + m ≥ st.textLen) := by omega
  have target : targetOf st (st.eng e).pc (m + 1) = .ok ((st.eng e).pc + m + 1) := by
    rw [targetOf_of_inside (by omega)]
    exact congrArg Except.ok (by omega)
  simp only [loopChecks, endlAt, Bool.or_eq_true, decide_eq_true_eq, body, if_false, ahead, bind, Except.bind, need, beq_self_eq_true,
    if_true, target]

theorem loopChecks_of_no_body {m : Nat} (h : m = 0 ∨ st.textLen ≤ (st.eng e).pc + m) :
    loopChecks m s c st e = .error (.fault .illegal) := by
  simp only [loopChecks, endlAt, Bool.or_eq_true, decide_eq_true_eq, ge_iff_le, h, if_true, bind, Except.bind]
  rfl

theorem loopOp_zero (past : Nat) : loopOp 0 past s c st e = .ok (goTo s c e past) := rfl

theorem loopOp_of_enters {k past : Nat} (hk : k ≠ 0)
    (h : pushFrame s c st e ⟨true, BitVec.ofNat 64 (k - 1), BitVec.ofNat 32 ((st.eng e).pc + 1)⟩ = .ok t) :
    loopOp k past s c st e = .ok (goTo t c e ((st.eng e).pc + 1)) := by
  simp only [loopOp, hk, if_false, h, bind, Except.bind]

theorem exec_loop_ok {k m : BitVec 12} {past : Nat} (he : s.focusEng = e) (hr : s.ready e 1 st)
    (hc : loopChecks m.toNat s s.focusTile st e = .ok (s1, past)) (ho : loopOp k.toNat past s1 s.focusTile st e = .ok t) :
    exec (.loop k m) s = .next (t.counted s.focusTile e) := by
  show execLoop k m s = _
  unfold execLoop
  exact flowWord_ok he hr (by simp only [hc, ho, bind, Except.bind])

theorem exec_loop_fault {k m : BitVec 12} {code : FaultCode} (he : s.focusEng = e) (hr : s.ready e 1 st)
    (hc : loopChecks m.toNat s s.focusTile st e = .error (.fault code)) :
    exec (.loop k m) s = .next (wordFault s s.focusTile e 0 code .atWord) := by
  show execLoop k m s = _
  unfold execLoop
  exact flowWord_fault he hr (by simp only [hc, bind, Except.bind])

theorem exec_loopq_ok {m : BitVec 24} {past : Nat} {v : Word} (he : s.focusEng = e) (hr : s.ready e 1 st)
    (hc : loopChecks m.toNat s s.focusTile st e = .ok (s1, past)) (hv : outcome st e = .ok v)
    (ho : loopOp v.toNat past s1 s.focusTile st e = .ok t) :
    exec (.loopq m) s = .next ((popOutcome t s.focusTile e).counted s.focusTile e) := by
  show execLoopq m s = _
  unfold execLoopq
  exact flowWord_ok he hr (by simp only [hc, hv, ho, bind, Except.bind])

theorem exec_loopq_wait {m : BitVec 24} {past : Nat} {w : Wait} (he : s.focusEng = e) (hr : s.ready e 1 st)
    (hc : loopChecks m.toNat s s.focusTile st e = .ok (s1, past)) (hv : outcome st e = .error (.wait w)) :
    exec (.loopq m) s = .next (setWait s s.focusTile e w) := by
  show execLoopq m s = _
  unfold execLoopq
  exact flowWord_wait he hr (by simp only [hc, hv, bind, Except.bind])

theorem exec_loopq_fault {m : BitVec 24} {code : FaultCode} (he : s.focusEng = e) (hr : s.ready e 1 st)
    (hc : loopChecks m.toNat s s.focusTile st e = .error (.fault code)) :
    exec (.loopq m) s = .next (wordFault s s.focusTile e 0 code .atWord) := by
  show execLoopq m s = _
  unfold execLoopq
  exact flowWord_fault he hr (by simp only [hc, bind, Except.bind])

theorem endlOp_of_nil (h : (st.eng e).frames = []) : endlOp s c st e = .error (.fault .stackLimit) := by
  simp only [endlOp, h]; rfl

theorem endlOp_of_call (h : (st.eng e).frames = f :: front) (hf : f.loop = false) : endlOp s c st e = .error (.fault .illegal) := by
  simp only [endlOp, h, hf, Bool.not_false, if_true]; rfl

theorem endlOp_of_count (h : (st.eng e).frames = f :: front) (hf : f.loop = true) (hc : f.count ≠ 0) (hi : f.index.toNat < st.textLen) :
    endlOp s c st e = .ok (goTo (s.updStrand c fun q => q.updEng e fun g =>
      { g with frames := { f with count := f.count - 1 } :: front }) c e f.index.toNat) := by
  simp only [endlOp, h, hf, Bool.not_true, Bool.false_eq_true, if_false, bne_iff_ne, ne_eq, hc, not_false_eq_true, if_true,
    targetOf_index hi, bind, Except.bind]

theorem endlOp_of_last (h : (st.eng e).frames = f :: front) (hf : f.loop = true) (hc : f.count = 0)
    (hp : popFrame s c st e = .ok t) : endlOp s c st e = .ok (goTo t c e ((st.eng e).pc + 1)) := by
  simp only [endlOp, h, hf, Bool.not_true, Bool.false_eq_true, if_false, hc, bne_self_eq_false, hp, bind, Except.bind]

end

end Sys2Proof.Machine

namespace Sys2Proof

open Sys2Proof.Machine

/-- Settles O23: LOOP and LOOPQ by their checks and their trip count, ENDL by the top frame, and the return stack by its depth. -/
theorem loopsAndReturnStack : Obligations.LoopsAndReturnStack := by
  unfold Obligations.LoopsAndReturnStack
  refine ⟨fun s s1 st e he hr => ?words, fun s st t e f hs => ?stack, fun f => ⟨f.length_bytes, f.ofBytes_bytes⟩⟩
  case words =>
    intro i body enters
    have checked {m : Nat} (hb : body m) : loopChecks m s s.focusTile st e = .ok (s1, i + m + 1) :=
      loopChecks_of_body hb.1 hb.2.1 hb.2.2
    refine ⟨fun k m hb => ⟨fun zero => ?_, fun pos t ht => ?_⟩,
      fun m hb => ⟨fun none => ?_, fun v rest some => ⟨fun zero => ?_, fun pos t ht => ?_⟩⟩,
      fun m hm => ⟨fun k m' h => ?_, fun m' h => ?_⟩, fun none => flowWord_fault he hr (endlOp_of_nil none), fun f rest some =>
        ⟨fun call => flowWord_fault he hr (endlOp_of_call some call),
         fun loop count hi => flowWord_goTo he hr (endlOp_of_count some loop count hi),
         fun loop last t hp => flowWord_goTo he hr (endlOp_of_last some loop last hp)⟩⟩
    · subst zero
      exact exec_loop_ok he hr (checked hb) (loopOp_zero _)
    · exact exec_loop_ok he hr (checked hb) (loopOp_of_enters (fun h => pos (BitVec.eq_of_toNat_eq h)) ht)
    · exact exec_loopq_wait he hr (checked hb) (outcome_of_nil none)
    · subst zero
      exact exec_loopq_ok he hr (checked hb) (outcome_of_cons some) (loopOp_zero _)
    · exact exec_loopq_ok he hr (checked hb) (outcome_of_cons some) (loopOp_of_enters (fun h => pos (BitVec.eq_of_toNat_eq h)) ht)
    · exact exec_loop_fault he hr (loopChecks_of_no_body (h ▸ hm))
    · exact exec_loopq_fault he hr (loopChecks_of_no_body (h ▸ hm))
  case stack =>
    exact ⟨pushFrame_of_shallow, pushFrame_of_full, fun old front hf hd room => pushFrame_of_deep hs hf hd room, popFrame_of_shallow,
      fun s1 s2 lo hi p q hd h1 h2 => ⟨popFrame_of_poison hd h1 h2, fun hp hq hb hf => by
        subst hp hq
        exact popFrame_of_deep hd h1 h2 (by rw [hb]; exact f.ofBytes_bytes hf)⟩⟩

end Sys2Proof
end

section
/-! PROOFS. Safe points (R63, R175, R401): fetching a word or a table entry leaves the strand as it is but for its counters and the log of
the pass, and passing a safe point moves `spdist` by the least pass count. -/

namespace Sys2Proof.Machine

/-! Lines that come into shared SRAM change no tile core. -/

theorem State.cores_spillTag {s s' : State} {line : Nat} (h : spillTag s line = some s') : s'.cores = s.cores := by
  unfold spillTag at h
  dsimp only at h
  split at h
  · cases h; rfl
  · split at h
    · cases h; rfl
    · split at h
      · cases h
      · cases h
        dsimp only
        split <;> rfl

theorem State.cores_foldl {α : Type} {f : State → α → State} (hf : ∀ s a, (f s a).cores = s.cores) :
    ∀ (l : List α) (s : State), (l.foldl f s).cores = s.cores
  | [], _ => rfl
  | a :: l, s => (State.cores_foldl hf l (f s a)).trans (hf s a)

theorem State.cores_evict (s : State) (line : Nat) : (s.evict line).cores = s.cores := by
  unfold State.evict
  split
  next x s1 _ hs =>
    dsimp only
    split
    · have h := State.cores_spillTag hs
      exact h
    · have h := State.cores_spillTag hs
      refine (State.cores_foldl (fun s i => ?_) _ _).trans h
      split <;> rfl
  next => rfl

theorem State.cores_fill (s : State) (key : BitVec 12) (line : Nat) : (s.fill key line).cores = s.cores := by
  unfold State.fill
  dsimp only
  have h := State.cores_evict s line
  generalize s.evict line = s0 at h ⊢
  have h2 (n : Nat) : (s0.draw.2.evict n).cores = s.cores := (State.cores_evict _ _).trans h
  (repeat' split) <;> first | rfl | exact h | exact h2 _

theorem State.cores_touch (s : State) (l : Leaf) (w : Bool) : (s.touch l w).cores = s.cores := by
  unfold State.touch
  split
  · split
    · exact State.cores_evict s _
    · rfl
  · exact State.cores_fill s _ _

/-! What a fetch leaves of the strand (R77, R78, R446). -/

/-- The strand is as it was, but for its counters and the log of the pass under way. -/
def Strand.Refetched (p q : Strand) : Prop := ∃ perf decoded points, q = { p with perf, decoded, points }

theorem Strand.Refetched.keeps {p q : Strand} (h : p.Refetched q) : (∀ k, q.eng k = p.eng k) ∧ q.spdist = p.spdist ∧
    q.stop = p.stop ∧ q.regs = p.regs ∧ q.tiles = p.tiles := by
  obtain ⟨_, _, _, rfl⟩ := h
  exact ⟨fun k => by cases k <;> rfl, rfl, rfl, rfl, rfl⟩

/-- The strand of a tile core is as it was, but for its counters and the log of the pass under way. -/
def State.Refetched (s : State) (t : Core) (s1 : State) : Prop :=
  ∀ p, s.strand t = some p → ∃ q, s1.strand t = some q ∧ p.Refetched q

section
variable {s s1 s2 : State} {t : Core} {st : Strand} {e : Eng}

theorem State.Refetched.refl (s : State) (t : Core) : s.Refetched t s := fun p hp => ⟨p, hp, _, _, _, rfl⟩

theorem State.Refetched.trans (h : s.Refetched t s1) (k : s1.Refetched t s2) : s.Refetched t s2 := by
  intro p hp
  obtain ⟨q, hq, _, _, _, rfl⟩ := h p hp
  obtain ⟨r, hr, _, _, _, rfl⟩ := k _ hq
  exact ⟨_, hr, _, _, _, rfl⟩

theorem State.Refetched.of_cores (h : s1.cores = s.cores) : s.Refetched t s1 := by
  intro p hp
  exact ⟨p, by simpa only [State.strand, State.core, h] using hp, _, _, _, rfl⟩

theorem State.Refetched.updStrand {f : Strand → Strand} (hf : ∀ p : Strand, p.Refetched (f p)) : s.Refetched t (s.updStrand t f) := by
  intro p hp
  exact ⟨f p, by simp [hp], hf p⟩

theorem State.refetched_touchWalk (s : State) (t : Core) (j : Job) (va : Nat) : s.Refetched t (touchWalk s t j va) := by
  unfold touchWalk
  have lines : s.Refetched t ((walkReads s (some t) (dieOf t) j va).foldl (fun s pa => s.touch (s.anyLeaf pa) false) s) :=
    .of_cores (State.cores_foldl (fun s pa => State.cores_touch s _ _) _ s)
  dsimp only
  split
  · exact lines
  · exact lines.trans (.updStrand fun p => ⟨_, _, _, rfl⟩)

theorem refetched_of_fetchBytes {acc : Access} {va n : Nat} {bs : List Byte} (h : fetchBytes s t st e acc va n = .ok (s1, bs)) :
    s.Refetched t s1 := by
  unfold fetchBytes at h
  split at h
  · cases h
  next j _ =>
    simp only [bind, Except.bind] at h
    split at h
    · cases h
    split at h
    · cases h
    split at h
    · cases h
    split at h
    · cases h
    · cases h
      exact (State.refetched_touchWalk s t j va).trans (.of_cores (State.cores_touch _ _ _))

theorem refetched_of_cachedWord {acc : Access} {va : Nat} {w : Word} (h : cachedWord s t st e acc va = .ok (s1, w)) :
    s.Refetched t s1 := by
  unfold cachedWord at h
  split at h
  · cases h
    exact .refl s t
  · cases hb : fetchBytes s t st e acc va 4 with
    | error x => simp [hb, Except.map] at h
    | ok r =>
      obtain ⟨s2, bs⟩ := r
      simp only [hb, Except.map, Except.ok.injEq, Prod.mk.injEq] at h
      obtain ⟨rfl, -⟩ := h
      exact refetched_of_fetchBytes hb

/-- Words read one after another. -/
theorem refetched_of_foldlM {β : Type} {f : State × Nat → β → Except Halt (State × Nat)}
    (hf : ∀ r b r', f r b = .ok r' → r.1.Refetched t r'.1) :
    ∀ (l : List β) (r r' : State × Nat), l.foldlM f r = .ok r' → r.1.Refetched t r'.1
  | [], r, r', h => by cases h; exact .refl r.1 t
  | b :: l, r, r', h => by
    rw [List.foldlM_cons] at h
    cases hb : f r b with
    | error x => rw [hb] at h; cases h
    | ok r1 =>
      rw [hb] at h
      exact (hf r b r1 hb).trans (refetched_of_foldlM hf l r1 r' h)

theorem refetched_of_tableWord {pos k va v : Nat} (h : tableWord s t st e pos k va = .ok (s1, v)) : s.Refetched t s1 := by
  unfold tableWord at h
  split at h
  · cases h
    exact .refl s t
  · simp only [bind, Except.bind] at h
    split at h
    · cases h
    next r hr =>
      cases h
      refine (refetched_of_foldlM (fun r i r' hi => ?_) _ (s, 0) r hr).trans (.updStrand fun p => ⟨_, _, _, rfl⟩)
      split at hi
      · cases hi
      next x hx =>
        cases hi
        exact refetched_of_cachedWord hx

theorem refetched_of_safeEntry {n : Nat} {en : SafeEntry} (h : safeEntry s t st e n = .ok (s1, en)) : s.Refetched t s1 := by
  simp only [safeEntry, bind, Except.bind] at h
  split at h
  · cases h
  next x hx =>
    split at h
    · cases h
    split at h
    · cases h
    next y hy =>
      split at h
      · cases h
      · cases h
        exact (refetched_of_tableWord hx).trans (refetched_of_tableWord hy)

end

/-! The pass (R63, R175, R405). -/

/-- The strand once engine `e` has passed a safe point (R63, R405). -/
def Strand.atNextPoint (st : Strand) (e : Eng) (gangWord : Bool) : Strand :=
  st.updEng e fun g =>
    { g.goto (g.pc + 1) with safes := g.safes + 1, gsafes := if gangWord then g.gsafes + 1 else g.gsafes }

section
variable {s s1 : State} {st st1 : Strand} {e : Eng} {n : BitVec 16} {en : SafeEntry} {t : Core}

theorem safeOp_of_other {w : Bool} (hb : st.rebuild = none) (h : safeEntry s t st e n.toNat = .ok (s1, en)) (hw : en.g ≠ w) :
    safeOp n w s t st e = .error (.fault .illegal) := by
  simp only [safeOp, hb, Option.isSome_none, Bool.false_eq_true, if_false, h, bind, Except.bind, bne_iff_ne, hw, ne_eq,
    not_false_eq_true, if_true]
  rfl

theorem safeOp_of_pass (hb : st.rebuild = none) (h : safeEntry s t st e n.toNat = .ok (s1, en)) (h1 : s1.strand t = some st1)
    (hs : st1.stop = none) : safeOp n en.g s t st e = .ok (s1.setStrand t (st1.passedSafe (st1.atNextPoint e en.g))) := by
  have free : holdsHere st1 e en.g = false := by simp only [holdsHere, hs]
  simp only [safeOp, hb, Option.isSome_none, Bool.false_eq_true, if_false, h, h1, bind, Except.bind, bne_self_eq_false,
    Option.getD_some, free]
  rfl

/-- The least of the engines' counts. -/
def leastOf (f : Eng → Nat) : Nat := min (min (min (min (f .c) (f .a)) (f .v)) (f .m)) (f .x)

theorem le_leastOf {f : Eng → Nat} {n : Nat} : n ≤ leastOf f ↔ ∀ k, n ≤ f k := by
  simp only [leastOf, le_min_iff]
  exact ⟨fun ⟨⟨⟨⟨hc, ha⟩, hv⟩, hm⟩, hx⟩ k => by cases k <;> assumption,
    fun h => ⟨⟨⟨⟨h .c, h .a⟩, h .v⟩, h .m⟩, h .x⟩⟩

/-- `spdist` moves by the least pass count of the five engines. -/
theorem Strand.spdist_passedSafe (p q : Strand) : (p.passedSafe q).spdist =
    if leastOf (fun k => (q.eng k).safes) > leastOf (fun k => (p.eng k).safes) then 0 else q.spdist := by
  simp only [Strand.passedSafe, Eng.all, List.map_cons, List.map_nil, List.foldl_cons, List.foldl_nil, Strand.eng, min_self, leastOf]
  split
  next h => exact (if_pos h).symm
  next h => exact (if_neg h).symm

theorem Strand.spdist_trimLedger (p : Strand) : p.trimLedger.spdist = p.spdist := rfl

theorem Strand.spdist_count (p : Strand) (i : Fin 17) (n : Nat) : (p.count i n).spdist = p.spdist := rfl

theorem Strand.safes_atNextPoint {w : Bool} (k : Eng) :
    ((st.atNextPoint e w).eng k).safes = (st.eng k).safes + if k = e then 1 else 0 := by
  by_cases hk : k = e
  · subst hk
    simp [Strand.atNextPoint, Engine.goto]
  · simp [Strand.atNextPoint, hk]

theorem Strand.spdist_atNextPoint {w : Bool} : (st.atNextPoint e w).spdist = st.spdist := by cases e <;> rfl

theorem Strand.spdist_pass_of_last {w : Bool} (h : ∀ k, k ≠ e → (st.eng e).safes < (st.eng k).safes) :
    (st.passedSafe (st.atNextPoint e w)).spdist = 0 := by
  have least : leastOf (fun k => (st.eng k).safes) ≤ (st.eng e).safes := le_leastOf.1 le_rfl e
  have rises : (st.eng e).safes + 1 ≤ leastOf fun k => ((st.atNextPoint e w).eng k).safes := by
    refine le_leastOf.2 fun k => ?_
    rw [Strand.safes_atNextPoint]
    by_cases hk : k = e
    · simp [hk]
    · have := h k hk
      omega
  rw [Strand.spdist_passedSafe, if_pos (by omega)]

theorem Strand.spdist_pass_of_not_last {w : Bool} (h : ∃ k, k ≠ e ∧ (st.eng k).safes ≤ (st.eng e).safes) :
    (st.passedSafe (st.atNextPoint e w)).spdist = st.spdist := by
  obtain ⟨k, hk, hle⟩ := h
  have stays : leastOf (fun k => ((st.atNextPoint e w).eng k).safes) ≤ leastOf fun k => (st.eng k).safes := by
    refine le_leastOf.2 fun i => ?_
    by_cases hi : i = e
    · have hmin := le_leastOf.1 (le_refl (leastOf fun k => ((st.atNextPoint e w).eng k).safes)) k
      rw [Strand.safes_atNextPoint, if_neg hk] at hmin
      subst hi
      omega
    · have hmin := le_leastOf.1 (le_refl (leastOf fun k => ((st.atNextPoint e w).eng k).safes)) i
      rwa [Strand.safes_atNextPoint, if_neg hi] at hmin
  rw [Strand.spdist_passedSafe, if_neg (by omega), Strand.spdist_atNextPoint]

theorem Strand.spdist_pass {w : Bool} : (st.passedSafe (st.atNextPoint e w)).spdist = st.spdist ∨
    (st.passedSafe (st.atNextPoint e w)).spdist = 0 := by
  by_cases h : ∃ k, k ≠ e ∧ (st.eng k).safes ≤ (st.eng e).safes
  · exact .inl (Strand.spdist_pass_of_not_last h)
  · exact .inr (Strand.spdist_pass_of_last fun k hk => Nat.lt_of_not_le fun hle => h ⟨k, hk, hle⟩)

@[simp] theorem Strand.eng_passedSafe (p q : Strand) (k : Eng) : (p.passedSafe q).eng k = q.eng k := by
  simp only [Strand.passedSafe]
  split <;> cases k <;> rfl

@[simp] theorem Strand.regs_atNextPoint {w : Bool} : (st.atNextPoint e w).regs = st.regs := by cases e <;> rfl

@[simp] theorem Strand.tiles_atNextPoint {w : Bool} : (st.atNextPoint e w).tiles = st.tiles := by cases e <;> rfl

@[simp] theorem Strand.regs_passedSafe (p q : Strand) : (p.passedSafe q).regs = q.regs := by
  simp only [Strand.passedSafe]
  split <;> rfl

@[simp] theorem Strand.tiles_passedSafe (p q : Strand) : (p.passedSafe q).tiles = q.tiles := by
  simp only [Strand.passedSafe]
  split <;> rfl

end

end Sys2Proof.Machine

namespace Sys2Proof

open Sys2Proof.Machine

/-- Settles O24: the entry's read leaves the strand but for its counters, and `spdist` returns to zero when the least pass count rises. -/
theorem safePointsPassed : Obligations.SafePointsPassed := by
  intro s s1 st e n en he hr hb hen
  refine ⟨?_, fun hs => ?_⟩
  · cases hg : en.g
    · exact flowWord_fault he hr (safeOp_of_other hb hen (by simp [hg]))
    · exact flowWord_fault he hr (safeOp_of_other hb hen (by simp [hg]))
  · obtain ⟨st1, h1, hre⟩ := refetched_of_safeEntry hen st hr.1
    obtain ⟨keng, kspdist, kstop, kregs, ktiles⟩ := hre.keeps
    have run : exec (if en.g then .safeG n else .safe n) s = flowWord (safeOp n en.g) s := by cases en.g <;> rfl
    have hop := safeOp_of_pass hb hen h1 (kstop.trans hs)
    refine ⟨_, run.trans (flowWord_ok he hr hop), ((st1.passedSafe (st1.atNextPoint e en.g)).count (engCounter e) 1).trimLedger,
      by simp [State.counted], ?_⟩
    rw [Strand.spdist_trimLedger, Strand.spdist_count, ← kspdist]
    simp only [← keng]
    have here : (st1.atNextPoint e en.g).eng e = { (st1.eng e).goto ((st1.eng e).pc + 1) with
        safes := (st1.eng e).safes + 1, gsafes := if en.g then (st1.eng e).gsafes + 1 else (st1.eng e).gsafes } := by
      simp [Strand.atNextPoint]
    refine ⟨?_, ?_, ?_, ?_, ?_, Strand.spdist_pass, Strand.spdist_pass_of_last, Strand.spdist_pass_of_not_last, ?_, ?_, ?_⟩
    all_goals simp [here, kregs, ktiles, Engine.goto, State.counted]
    split <;> rfl

end Sys2Proof
end

section
/-! PROOFS. RESUME and repetitions (R41, R174, R179, R412). -/

namespace Sys2Proof.Machine

section
variable {s : State} {t : Core} {st : Strand} {e : Eng} {r : Rebuild}

/-- The strand as RESUME sends it back (R412). -/
def Strand.sentBack (st : Strand) (back : Nat) : Strand := { (st.allEngs fun g => g.goto back) with rebuild := none, spdist := 0 }

theorem resumeOp_of_none (h : st.rebuild = none) : resumeOp s t st e = .error (.fault .illegal) := by
  simp only [resumeOp, h]; rfl

theorem resumeOp_of_early (h : st.rebuild = some r) (he : ∃ k, k ≠ e ∧ (st.eng k).wait ≠ some .resume) :
    resumeOp s t st e = .error (.wait .resume) := by
  obtain ⟨k, hk, hw⟩ := he
  have absent : (Eng.all.all fun k => k == e || (st.eng k).wait == some .resume) = false :=
    List.all_eq_false.2 ⟨k, by cases k <;> decide, by simp [hk, hw]⟩
  simp only [resumeOp, h, absent, Bool.not_false, if_true]
  rfl

theorem all_at_resume (ha : ∀ k, k ≠ e → (st.eng k).wait = some .resume) :
    (Eng.all.all fun k => k == e || (st.eng k).wait == some .resume) = true := by
  refine List.all_eq_true.2 fun k _ => ?_
  by_cases hk : k = e <;> simp [hk, ha]

theorem resumeOp_of_mismatch (h : st.rebuild = some r) (ha : ∀ k, k ≠ e → (st.eng k).wait = some .resume)
    (hn : ¬ ((st.eng e).depth = r.depth ∧ st.pred.length = r.pd ∧ st.queuesEmpty = true)) :
    resumeOp s t st e = .error (.fault .illegal) := by
  have differs : ((st.eng e).depth != r.depth || st.pred.length != r.pd || !st.queuesEmpty) = true := by
    by_contra same
    simp at same
    exact hn ⟨same.1.1, same.1.2, same.2⟩
  simp only [resumeOp, h, all_at_resume ha, differs, Bool.not_true, Bool.false_eq_true, if_false, if_true]
  rfl

theorem resumeOp_of_match (h : st.rebuild = some r) (ha : ∀ k, k ≠ e → (st.eng k).wait = some .resume)
    (hd : (st.eng e).depth = r.depth) (hp : st.pred.length = r.pd) (hq : st.queuesEmpty = true) :
    resumeOp s t st e = .ok (s.setStrand t
      ((Eng.all.filter (· != e)).foldl (fun q k => q.count (engCounter k) 1) (st.sentBack r.back))) := by
  simp only [resumeOp, h, all_at_resume ha, hd, hp, hq, bne_self_eq_false, Bool.or_self, Bool.not_true, Bool.false_eq_true, if_false]
  rfl

/-- Counting words leaves the rest of a strand. -/
theorem Strand.foldl_count {β : Type} {f : β → Fin 17} : ∀ (l : List β) (p : Strand),
    let q := l.foldl (fun q k => q.count (f k) 1) p
    q.rebuild = p.rebuild ∧ q.spdist = p.spdist ∧ ∀ k, q.eng k = p.eng k
  | [], _ => ⟨rfl, rfl, fun _ => rfl⟩
  | b :: l, p => by
    obtain ⟨hr, hd, he⟩ := Strand.foldl_count (f := f) l (p.count (f b) 1)
    exact ⟨hr, hd, fun k => (he k).trans (by simp)⟩

theorem Strand.eng_sentBack (back : Nat) (k : Eng) : (st.sentBack back).eng k = (st.eng k).goto back := by cases k <;> rfl

/-- REP within a repetition (R41). -/
theorem exec_rep_again {n : BitVec 6} {k : BitVec 16} (hr : s.ready e 1 st) (h : (st.eng e).rep ≠ none) :
    raises (.rep e n k) s e e.tag .illegal := by
  refine placedWord_fault (st := st) (f := fun s t st e => if (st.eng e).rep.isSome then raise .illegal else .ok (repOp (n.toNat + 1) k s t e))
    hr ?_
  simp only [Option.isSome_iff_ne_none.2 h, if_true]
  rfl

/-- REP outside one begins a repetition (R174). -/
theorem exec_rep_begins {n : BitVec 6} {k : BitVec 16} (hr : s.ready e 1 st) (h : (st.eng e).rep = none) :
    exec (.rep e n k) s = .next ((repOp (n.toNat + 1) k s s.focusTile e).counted s.focusTile e) := by
  refine placedWord_ok (st := st) (f := fun s t st e => if (st.eng e).rep.isSome then raise .illegal else .ok (repOp (n.toNat + 1) k s t e))
    hr ?_
  simp only [h, Option.isSome_none, Bool.false_eq_true, if_false]

theorem Strand.rebuild_trimLedger (p : Strand) : p.trimLedger.rebuild = p.rebuild := rfl

theorem Strand.rebuild_count (p : Strand) (i : Fin 17) (n : Nat) : (p.count i n).rebuild = p.rebuild := rfl

end

end Sys2Proof.Machine

namespace Sys2Proof

open Sys2Proof.Machine

/-- Settles O26: RESUME by where the other engines are; a repetition's engine that reaches what it may not is `turnOfWord_of_forbids`. -/
theorem resumeAndRep : Obligations.ResumeAndRep := by
  intro s st e hr
  refine ⟨fun he => ⟨fun h => flowWord_fault he hr (resumeOp_of_none h), fun r h =>
    ⟨fun early => flowWord_wait he hr (resumeOp_of_early h early), fun ha =>
      ⟨fun hd hp hq => ?sent, fun hn => flowWord_fault he hr (resumeOp_of_mismatch h ha hn)⟩⟩⟩,
    fun n k => ⟨exec_rep_again hr, exec_rep_begins hr⟩, ?within⟩
  case sent =>
    have counts := Strand.foldl_count (f := engCounter) (Eng.all.filter (· != e)) (st.sentBack r.back)
    refine ⟨_, flowWord_ok he hr (resumeOp_of_match h ha hd hp hq), _, by simp [State.counted]; rfl, ?_⟩
    generalize (Eng.all.filter (· != e)).foldl (fun q k => q.count (engCounter k) 1) (st.sentBack r.back) = q at counts
    obtain ⟨hrebuild, hdist, heng⟩ := counts
    refine ⟨by rw [Strand.rebuild_trimLedger, Strand.rebuild_count, hrebuild]; rfl,
      by rw [Strand.spdist_trimLedger, Strand.spdist_count, hdist]; rfl, fun k => ?_⟩
    simp [heng, Strand.eng_sentBack, Engine.goto]
  case within =>
    intro s0 s1 n rest w hagenda hs hslip ended halted halting live holding within hrep
    have turn : MayTurn s s.focusTile e st := ⟨hr.1, ended, halted, halting, live, holding, within⟩
    have goes (u : State) (h : fetchTurn s s.focusTile e = .idle u) : step s0 = .next u := by
      have hs' : (advance { s0 with agenda := rest } n).strand s.focusTile = some st := by
        have := hr.1
        rw [hs] at this
        exact this
      rw [step_of_engine hagenda]
      exact turnBy_of_idle hs' live within (hs ▸ h)
    refine ⟨fun hpc => goes _ (fetchTurn_of_end turn hpc), fun hpc hw hword => goes _ ?_⟩
    have forbids : (st.eng e).forbids e w = true := by
      simp only [Engine.forbids, Option.isSome_iff_ne_none.2 hrep, Bool.true_and, Bool.or_eq_true, Bool.and_eq_true, beq_iff_eq]
      exact hword
    rw [fetchTurn_of_word turn hpc hw, turnOfWord_of_forbids forbids hslip]

end Sys2Proof
end

section
/-! PROOFS. The ends of waits (R34, R42, R166, R171, R223, R269, R434): the event is the engine's turn, and a turn that passes the engine's
word leaves it waiting on nothing. -/

namespace Sys2Proof.Machine

section
variable {s s2 t : State} {tile : Core} {e : Eng} {st q : Strand} {w : Wait} {i : Instr} {isOver : Wait → Bool}

theorem waitOf_of_strand (hs : s.strand tile = some st) : waitOf s tile e = ((st.eng e).wait, (st.eng e).progress, (st.eng e).latch) := by
  simp only [waitOf, hs]

/-- The event is the engine's turn where that changes what the engine stands at, and else nothing (R434). -/
theorem endWait_of_turn (hs : s.strand tile = some st) (hw : (st.eng e).wait = some w) (isEnd : isOver w = true)
    (h : engineTurn s tile e = .next t) :
    (waitOf t tile e ≠ waitOf s tile e → endWait isOver tile e s = .next t) ∧
    (waitOf t tile e = waitOf s tile e → endWait isOver tile e s = .next s) := by
  have here := waitOf_of_strand (e := e) hs
  have run : endWait isOver tile e s = if waitOf t tile e = waitOf s tile e then .next s else .next t := by
    simp only [endWait, hs, here, hw, isEnd, h, Bool.not_true, Bool.false_eq_true, if_false, Bool.and_eq_true, beq_iff_eq, Prod.ext_iff,
      notDue]
  exact ⟨fun hne => run.trans (if_neg hne), fun heq => run.trans (if_pos heq)⟩

/-- A turn after which the engine waits on nothing ends the wait. -/
theorem endWait_of_free (hs : s.strand tile = some st) (hw : (st.eng e).wait = some w) (isEnd : isOver w = true)
    (h : engineTurn s tile e = .next t) (free : (waitOf t tile e).1 = none) : endWait isOver tile e s = .next t := by
  refine (endWait_of_turn hs hw isEnd h).1 fun same => ?_
  rw [same, waitOf_of_strand hs, hw] at free
  cases free

/-- The engine's turn runs its word. -/
theorem engineTurn_of_run (hs : s.strand tile = some st) (live : st.dead54 = false) (within : st.spdist.toNat ≤ st.splim.toNat)
    (h : fetchTurn { s with focusTile := tile, focusEng := e } tile e = .run i s2) : engineTurn s tile e = wordMeaning i s2 :=
  turnBy_of_run hs live within h

/-- The waits at SEMW. -/
def Wait.atSem : Wait → Bool
  | .sem _ _ => true
  | .dieSem _ _ => true
  | _ => false

theorem exec_semwSucceed : exec (.semwSucceed tile e) s = endWait Wait.atSem tile e s := rfl

/-! An engine that has passed its word waits on nothing. -/

theorem waitOf_updStrand_free {f : Strand → Strand} (hf : ∀ p : Strand, ((f p).eng e).wait = none) :
    (waitOf (s.updStrand tile f) tile e).1 = none := by
  simp only [waitOf, State.strand_updStrand]
  cases s.strand tile with
  | none => rfl
  | some p => exact hf p

theorem waitOf_passWord (len : Nat) : (waitOf (passWord s tile e len) tile e).1 = none :=
  waitOf_updStrand_free fun p => by simp

theorem waitOf_passedAs (len : Nat) (hf : s.focusTile = tile) : (waitOf (s.passedAs e len st) tile e).1 = none := by
  subst hf
  exact waitOf_passWord (s := s.setStrand s.focusTile st) len

theorem waitOf_wentTo (pc : Nat) : (waitOf (s.wentTo tile e pc) tile e).1 = none := by
  simp only [waitOf, State.wentTo, State.counted, goTo, State.strand_updStrand]
  cases s.strand tile with
  | none => rfl
  | some p => simp [Engine.goto]

/-! The words (R434, R171, R269). -/

theorem semNumber_inRange {die : BitVec 1} {n : BitVec 10} (hn : die = 0 → n.toNat < 32) :
    (!(die == 1) && decide (n.toNat > 31)) = false := by
  by_cases h : die = 1
  · subst h; rfl
  · have := hn (by bv_omega)
    simp [show ¬ n.toNat > 31 by omega]

/-- SEMW once it has been woken (R434). -/
theorem semWait_of_woken {die : BitVec 1} {n : BitVec 10} {v : Word} {x : DWord × View} (hn : die = 0 → n.toNat < 32)
    (hx : (q.eng e).woken = some x) : semWait e die n v s tile q = .ok (s.bind tile e x.2) := by
  simp only [semWait, semNumber_inRange hn, hx, Bool.false_eq_true, if_false]

/-- SEMW at its threshold (R434). -/
theorem semWait_of_met {die : BitVec 1} {n : BitVec 10} {v : Word} (hn : die = 0 → n.toNat < 32) (hx : (q.eng e).woken = none)
    (hv : v.toNat ≤ (semValue s tile q (die == 1) n.toNat).toNat) :
    semWait e die n v s tile q = .ok (s.bind tile e (semView s tile q (die == 1) n.toNat)) := by
  simp only [semWait, semNumber_inRange hn, hx, hv, Bool.false_eq_true, if_false, if_true]

/-- BRQ whose target is the next word. -/
theorem brqOp_next {v : Word} {rest : List Word} (ho : (q.eng e).outcomes = v :: rest) (hpc : (q.eng e).pc + 1 < q.textLen) :
    brqOp 1 s tile q e = .ok (goTo (popOutcome s tile e) tile e ((q.eng e).pc + 1)) := by
  have one : (1 : BitVec 24).toInt = 1 := by decide
  have target : targetOf q (q.eng e).pc 1 = .ok ((q.eng e).pc + 1) := targetOf_of_inside (by omega)
  simp only [brqOp, one, target, outcome_of_cons ho, ite_self, bind, Except.bind]

/-- AWIN of a good shape at an aligned scratchpad address (R269). -/
theorem awinOp_ok {d a b : Code} {x : PWord} {q1 : Strand} {r : Window} (hd : d.toNat % 8 < 8) (hb : b.toNat < 16)
    (hlo : 16 ≤ d.toNat) (hhi : d.toNat < 24) (hwait : windowWait q .a [d.toNat % 8] = .ok ()) (hsrc : srcA q a = .ok (x, q1))
    (hp : x.poison = false) (hl : x.val.toNat < Config.spadBytes) (ha : x.val.toNat % 64 = 0)
    (hw : windowOfShape x.val.toNat (q1.shapes.get ⟨b.toNat, hb⟩) = some r) :
    awinOp d a b q = .ok (q1.setW ⟨d.toNat % 8, hd⟩ r) := by
  have source : needSrcA a = .ok () := by
    unfold srcA at hsrc
    have known : (decide (a.toNat < 16) || a == 24 || a == 25) = true := by
      by_contra other
      obtain ⟨⟨hlow, h24⟩, h25⟩ : (¬ a.toNat < 16 ∧ ¬ a = 24) ∧ ¬ a = 25 := by simpa only [Bool.or_eq_true, decide_eq_true_eq,
        beq_iff_eq, not_or] using other
      simp only [hlow, h24, h25, dite_false, if_false] at hsrc
      cases hsrc
    simp only [needSrcA, need, known, if_true]
  have window : roleWin d = .ok ⟨d.toNat % 8, hd⟩ := if_pos ⟨hlo, hhi⟩
  have shape : role16 b = .ok ⟨b.toNat, hb⟩ := dif_pos hb
  simp only [awinOp, window, source, shape, hwait, hsrc, clean_of_clean hp, isLocal, hl, ha, hw, bind, Except.bind, decide_true,
    Bool.not_true, Bool.false_eq_true, if_false, ne_eq, not_true_eq_false]

end

end Sys2Proof.Machine

namespace Sys2Proof

open Sys2Proof.Machine

/-- Settles O47: each event is the engine's turn, and each of these words, run in it, passes. -/
theorem waitReleases : Obligations.WaitReleases := by
  intro s s2 t tile e st q w hs hw live within
  dsimp only
  have event {isOver : Wait → Bool} {i : Instr} (isEnd : isOver w = true) (hi : exec i s = endWait isOver tile e s) :
      engineTurn s tile e = .next t → (waitOf t tile e ≠ waitOf s tile e → completes (exec i s) t) ∧
        (waitOf t tile e = waitOf s tile e → exec i s = .next s) := by
    rw [hi]
    exact endWait_of_turn hs hw isEnd
  have word {isOver : Wait → Bool} {i : Instr} {u : State} (isEnd : isOver w = true)
      (h : fetchTurn { s with focusTile := tile, focusEng := e } tile e = .run i s2) (hu : wordMeaning i s2 = .next u)
      (free : (waitOf u tile e).1 = none) : endWait isOver tile e s = .next u :=
    endWait_of_free hs hw isEnd ((engineTurn_of_run hs live within h).trans hu) free
  refine ⟨fun hsem => ?sem, fun hq => ?queue, fun hwin => ?window, fun hslip => ?slip⟩
  case sem =>
    have isEnd : w.atSem = true := by
      obtain ⟨_, _, rfl⟩ | ⟨_, _, rfl⟩ := hsem <;> rfl
    refine ⟨event isEnd exec_semwSucceed, fun die n v ⟨hf, ht, he, hr⟩ hn => ⟨fun x hx => ?_, fun hx hv => ?_⟩⟩
    · subst ht
      exact exec_semwSucceed.trans <| word isEnd hf (checkedWord_ok hr (semWait_of_woken hn hx)) (waitOf_passWord 1)
    · subst ht
      have hv' : (v.setWidth 32).toNat ≤ (semValue s2 s2.focusTile q (die == 1) n.toNat).toNat := by
        rwa [BitVec.toNat_setWidth, Nat.mod_eq_of_lt (by omega)]
      exact exec_semwSucceed.trans <| word isEnd hf (checkedWord_ok hr (semWait_of_met hn hx hv')) (waitOf_passWord 1)
  case queue =>
    have isEnd : (w == .push || w == .pop || w == .outcomeFull || w == .outcomeEmpty) = true := by
      obtain rfl | rfl | rfl | rfl := hq <;> rfl
    refine ⟨event isEnd rfl, fun d v rest he ⟨hf, ht, _, hr⟩ hv => ?_, fun a he ⟨hf, ht, _, hr⟩ hended hroom => ?_,
      fun v rest ⟨hf, ht, he, hr⟩ ho hpc => ?_⟩
    · subst he
      exact word isEnd hf ((exec_qget_of_queue (set := fun l p => { p with a2c := l }) (pop := popA2c) hr rfl rfl).1 v rest hv)
        (waitOf_passedAs 1 ht)
    · subst he
      exact word isEnd hf ((strandWord_push (set := fun l p => { p with c2a := l }) (k := .a) hr rfl rfl).2.1 hended hroom)
        (waitOf_passedAs 1 ht)
    · subst ht
      exact word isEnd hf (flowWord_goTo he hr (brqOp_next ho hpc)) (waitOf_wentTo _)
  case window =>
    subst hwin
    refine ⟨event rfl rfl, fun d a b x q1 r hd hb he ⟨hf, ht, _, hr⟩ hlo hhi hwait hsrc hp hl ha hshape => ?_⟩
    subst he
    exact word rfl hf (strandWord_ok hr (awinOp_ok hd hb hlo hhi hwait hsrc hp hl ha hshape)) (waitOf_passedAs 1 ht)
  case slip =>
    subst hslip
    refine ⟨event rfl rfl, fun ⟨hf, ht, he, hr⟩ => ?_⟩
    subst ht
    exact word rfl hf (flowWord_goTo (f := fun s t st e => .ok (goTo s t e ((st.eng e).pc + 1))) he hr rfl) (waitOf_wentTo _)

end Sys2Proof
end

section
/-! PROOFS. The end of a strand, deadlock, distance and undefined words (R43, R54, R57, R63, R92, R413, R416). -/

namespace Sys2Proof.Machine

section
variable {s : State} {tile : Core} {st : Strand} {e : Eng}

/-- An engine of the strand waits at a held request (R451). -/
def Strand.waitsHeld (st : Strand) : Bool := Eng.all.any fun e => match (st.eng e).wait with | some w => w.isHeld | none => false

theorem Eng.mem_all (e : Eng) : e ∈ Eng.all := by cases e <;> decide

theorem Strand.waitsHeld_iff : st.waitsHeld = true ↔ ∃ e a, (st.eng e).wait = some (.held a) := by
  have held (o : Option Wait) : (match o with | some w => w.isHeld | none => false) = true ↔ ∃ a, o = some (.held a) := by
    cases o with
    | none => simp
    | some w => cases w <;> simp [Wait.isHeld]
  simp only [Strand.waitsHeld, List.any_eq_true, held, Eng.mem_all, true_and]

/-- The strand of a faulted launch may end: no copy is outstanding, no engine is at a held request, and its fault's tick has passed (R54). -/
def Strand.mayBeFreed (st : Strand) (now : DWord) : Bool := st.asyncs.isEmpty && !st.waitsHeld && st.deadAt != now

/-- What R57 asks of a strand whose launch has not faulted. -/
def State.mayEnd (s : State) (tile : Core) (st : Strand) : Bool :=
  !(!(Eng.all.all fun e => (st.eng e).ended) || !st.asyncs.isEmpty || !st.cmds.isEmpty || st.halted || deltasHeld s tile st)

theorem exec_strandEnd_of_dead (hs : s.strand tile = some st) (hd : st.dead54 = true) : exec (.strandEnd tile) s =
    if st.mayBeFreed s.psc then .next (settle (freeCore (spoilAborted s tile st) tile none)) else .next s := by
  show execStrandEnd tile s = _
  simp only [execStrandEnd, hs, hd, if_true]
  rfl

theorem exec_strandEnd_of_live (hs : s.strand tile = some st) (hd : st.dead54 = false) : exec (.strandEnd tile) s =
    if s.mayEnd tile st then
      let s1 := (freeCore (flushDeltas (dropStop s tile) tile none) tile st.wantedBy).updLaunch st.handle fun l =>
        { l with ended := l.ended + 1 }
      .next (settle (match s1.launch? st.handle with | some l => compactorRelease s1 l | none => s1))
    else .next s := by
  show execStrandEnd tile s = _
  simp only [execStrandEnd, hs, hd, State.mayEnd, Bool.not_eq_true', Bool.false_eq_true, if_false]
  split
  next h => exact (if_neg (by simp [h])).symm
  next h => exact (if_pos (by simpa using h)).symm

/-- A strand has a distance to answer for, now (R413, R416). -/
theorem exec_safeDistance (hs : s.strand tile = some st) : exec (.safeDistance tile) s =
    if st.overdue s.psc && st.stop.isNone then
      .next ((takeFault s st.handle (wordRecord s tile st .c 0 .safeDistance .tick)).updStrand tile fun q =>
        { q with faults := natInsert q.faults 5 })
    else .next s := by
  show execSafeDistance tile s = _
  cases ho : st.overdue s.psc <;> cases h : st.stop <;> simp [execSafeDistance, distanceFault, notDue, hs, ho, h]

/-- A word that no map defines, at an engine that takes its tag (R92). -/
theorem exec_undefinedEncoding {s1 : State} {w : Word} (hs : s.strand tile = some st) (hpc : (st.eng e).pc < st.textLen)
    (hw : textWord s tile st e (st.eng e).pos (st.eng e).pc = .ok (s1, w))
    (hmine : 5 ≤ (Fields.ofWord w).tag.toNat ∨ (Fields.ofWord w).tag = e.tag)
    (hundef : undefinedFirst w = true ∨ decode w (match textWord s1 tile st e ((st.eng e).pos + 1) ((st.eng e).pc + 1) with
      | .ok (_, imm) => imm
      | .error _ => 0) = none) :
    exec (.undefinedEncoding tile e) s =
      .next (wordFault s1 tile e (if (Fields.ofWord w).tag.toNat ≥ 5 then 0 else e.tag) .illegal .atWord) := by
  show execUndefinedEncoding tile e s = _
  have mine : (decide ((Fields.ofWord w).tag.toNat ≥ 5) || (Fields.ofWord w).tag == e.tag) = true := by simpa using hmine
  simp only [execUndefinedEncoding, hs, hw, hpc, mine, decide_true, Bool.true_and]
  refine if_pos ?_
  rw [Bool.or_eq_true, Option.isNone_iff_eq_none]
  exact hundef

end

end Sys2Proof.Machine

namespace Sys2Proof

open Sys2Proof.Machine

/-- Settles O49: the guards of the four events, clause by clause. -/
theorem strandEnds : Obligations.StrandEnds := by
  intro s tile st hs
  dsimp only
  refine ⟨fun hd ha hh hat => ?_, fun hd hkept => ?_, fun hd hended ha hc hhalt hdelta => ?_, fun hd hkept => ?_,
    fun hd hfar hstop => ?_, fun hstop => ?_, fun hnear => ?_, fun hd hhalt hdead => ?_,
    fun e w s1 hpc hw hundef => ⟨fun htag => ?_, fun htag => ?_⟩⟩
  · have free : st.mayBeFreed s.psc = true := by
      simp [Strand.mayBeFreed, ha, hat, Bool.eq_false_iff, Strand.waitsHeld_iff, hh]
    exact (exec_strandEnd_of_dead hs hd).trans (if_pos free)
  · have kept : st.mayBeFreed s.psc = false := by
      rw [← Strand.waitsHeld_iff] at hkept
      rcases hkept with ha | hh | hat
      · simp [Strand.mayBeFreed, ha]
      · simp [Strand.mayBeFreed, hh]
      · simp [Strand.mayBeFreed, hat]
    rw [exec_strandEnd_of_dead hs hd, kept]
    rfl
  · have may : s.mayEnd tile st = true := by simp [State.mayEnd, List.all_eq_true, hended, ha, hc, hhalt, hdelta]
    exact (exec_strandEnd_of_live hs hd).trans (if_pos may)
  · have not : s.mayEnd tile st = false := by
      rcases hkept with ⟨e, he⟩ | ha | hc | hdelta
      · have some : (Eng.all.all fun e => (st.eng e).ended) = false := List.all_eq_false.2 ⟨e, Eng.mem_all e, by simp [he]⟩
        simp [State.mayEnd, some]
      · simp [State.mayEnd, ha]
      · simp [State.mayEnd, hc]
      · simp [State.mayEnd, hdelta]
    rw [exec_strandEnd_of_live hs hd, not]
    rfl
  · exact (exec_safeDistance hs).trans (if_pos (by simp [Strand.overdue, hd, hfar, hstop]))
  · exact (exec_safeDistance hs).trans (if_neg (by cases h : st.stop <;> simp [h] at hstop ⊢))
  · exact (exec_safeDistance hs).trans (if_neg (by simp [Strand.overdue_of_within hnear]))
  · show execStrandDeadlock tile s = _
    simp only [execStrandDeadlock, hs, hd, hhalt, hdead, Bool.or_self, Bool.not_true, Bool.false_eq_true, if_false]
    rfl
  · refine (exec_undefinedEncoding hs hpc hw (.inl htag) hundef).trans ?_
    rw [if_pos htag]
  · have below : ¬ (Fields.ofWord w).tag.toNat ≥ 5 := by rw [htag]; cases e <;> decide
    refine (exec_undefinedEncoding hs hpc hw (.inr htag) hundef).trans ?_
    rw [if_neg below]

end Sys2Proof
end

section
/-! PROOFS. Placement (R29, R46, R47, R59, R61, R366, R367, R368, R411): who may take which strand, and the events' guards. -/

namespace Sys2Proof.Machine

section
variable {s : State} {tile source : Core} {l : Launch} {j : Job} {pick : Nat} {e : Nat × BitVec 24}

theorem mem_allCoreIds (c : Core) : c ∈ allCoreIds :=
  List.mem_filterMap.2 ⟨c.val, List.mem_range.2 c.isLt, dif_pos c.isLt⟩

/-- A tile core's queue holds a strand that `tile` may run (R46, R366). -/
def hasWorkFor (s : State) (tile c : Core) : Bool :=
  (s.core c).queue.any fun x => match entryFor s tile c x with | some l => openTo s tile l | none => false

theorem hasWorkFor_iff {c : Core} :
    hasWorkFor s tile c = true ↔ ∃ x ∈ (s.core c).queue, ∃ y, entryFor s tile c x = some y ∧ openTo s tile y = true := by
  have entry (o : Option Launch) :
      (match o with | some l => openTo s tile l | none => false) = true ↔ ∃ y, o = some y ∧ openTo s tile y = true := by
    cases o <;> simp
  simp only [hasWorkFor, List.any_eq_true, entry]

/-- Entry `e` of the queue of `source` is the one that `tile` takes: its own choice, or a steal (R46, R366). -/
def takes (s : State) (tile source : Core) (e : Nat × BitVec 24) (l : Launch) : Bool :=
  if source = tile then chosen s tile l && ((s.core source).queue.filter fun x => x.1 == e.1).all fun x => decide (e.2.toNat ≤ x.2.toNat)
  else !hasWorkFor s tile tile && (dieOf source == dieOf tile
    || !(allCoreIds.any fun c => dieOf c == dieOf tile && (c != tile && hasWorkFor s tile c)))

/-- The event is a placement where the tile core may take the strand and the records are free, and else nothing. -/
theorem exec_strandPlacement (hj : s.job? l.job = some j) (he : (s.core source).queue[pick]? = some e)
    (hl : entryFor s tile source e = some l) (hidle : idleFor s tile (some l.handle) = true) (hres : l.resumable tile = false) :
    exec (.strandPlacement tile source pick) s =
      if recordsFree s tile j l.bindings && takes s tile source e l then
        match placeStrand (takeTurn (s.updCore source fun k => { k with queue := k.queue.eraseIdx pick }) l) tile l j e.2 with
        | some s2 => .next (dealAll s2)
        | none => .next s
      else .next s := by
  show execStrandPlacement tile source pick s = _
  simp only [execStrandPlacement, he, hl, hj, hidle, hres]
  cases hfree : recordsFree s tile j l.bindings
  · rfl
  · change (if (!takes s tile source e l) = true then _ else _) = _
    cases takes s tile source e l <;> rfl

theorem takes_own (hsrc : source = tile) (hclass : ∀ x ∈ choices s tile, l.cls.bits.toNat ≤ x.cls.bits.toNat)
    (hturn : mayTakeTurn s l ((choices s tile).filter fun x => x.cls == l.cls) = true)
    (hlow : ∀ x ∈ (s.core source).queue, x.1 = e.1 → e.2.toNat ≤ x.2.toNat) : takes s tile source e l = true := by
  have first : ((choices s tile).any fun x => decide (x.cls.bits.toNat < l.cls.bits.toNat)) = false :=
    List.any_eq_false.2 fun x hx => by simpa using hclass x hx
  have lowest : ((s.core source).queue.filter fun x => x.1 == e.1).all (fun x => decide (e.2.toNat ≤ x.2.toNat)) = true := by
    rw [List.all_filter]
    refine List.all_eq_true.2 fun x hx => ?_
    by_cases same : x.1 = e.1
    · simp [same, hlow x hx same]
    · simp [same]
  rw [takes, if_pos hsrc, lowest, Bool.and_true]
  simp only [chosen, first, hturn, Bool.not_false, Bool.true_and]

theorem takes_of_higher (hsrc : source = tile) (h : ∃ x ∈ choices s tile, x.cls.bits.toNat < l.cls.bits.toNat) :
    takes s tile source e l = false := by
  have higher : ((choices s tile).any fun x => decide (x.cls.bits.toNat < l.cls.bits.toNat)) = true := by
    simpa only [List.any_eq_true, decide_eq_true_eq] using h
  rw [takes, if_pos hsrc]
  simp only [chosen, higher, Bool.not_true, Bool.false_and]

/-- A steal (R46): `tile` has no strand to run of its own, and the source is on its die or nothing on its die is to be stolen. -/
theorem takes_steal (hsrc : source ≠ tile) : takes s tile source e l = true ↔ hasWorkFor s tile tile = false ∧
    (dieOf source = dieOf tile ∨ ∀ c, c ≠ tile → dieOf c = dieOf tile → hasWorkFor s tile c = false) := by
  have near : (allCoreIds.any fun c => dieOf c == dieOf tile && (c != tile && hasWorkFor s tile c)) = false ↔
      ∀ c, c ≠ tile → dieOf c = dieOf tile → hasWorkFor s tile c = false := by
    simp only [List.any_eq_false, mem_allCoreIds, true_imp_iff, Bool.and_eq_true, beq_iff_eq, bne_iff_ne, ne_eq, not_and,
      Bool.not_eq_true]
    exact ⟨fun h c hc hd => h c hd hc, fun h c hd hc => h c hc hd⟩
  rw [takes, if_neg hsrc, Bool.and_eq_true, Bool.not_eq_true', Bool.or_eq_true, Bool.not_eq_true', beq_iff_eq, near]

/-- What the placement of a strand that the tile core takes comes to. -/
theorem exec_strandPlacement_of_takes (hj : s.job? l.job = some j) (he : (s.core source).queue[pick]? = some e)
    (hl : entryFor s tile source e = some l) (hidle : idleFor s tile (some l.handle) = true) (hres : l.resumable tile = false)
    (ht : takes s tile source e l = true) :
    let took := takeTurn (s.updCore source fun k => { k with queue := k.queue.eraseIdx pick }) l
    (recordsFree s tile j l.bindings = true → ∀ s1, placeStrand took tile l j e.2 = some s1 →
      exec (.strandPlacement tile source pick) s = .next (dealAll s1)) ∧
    (recordsFree s tile j l.bindings = false ∨ placeStrand took tile l j e.2 = none →
      exec (.strandPlacement tile source pick) s = .next s) := by
  have run := exec_strandPlacement hj he hl hidle hres
  rw [ht, Bool.and_true] at run
  refine ⟨fun hfree s1 hp => ?_, fun h => ?_⟩
  · rw [run, hfree, if_pos rfl, hp]
  · rcases h with hheld | hp
    · rw [run, hheld]
      rfl
    · rw [run, hp, ite_self]

theorem exec_strandPlacement_of_not_takes (hj : s.job? l.job = some j) (he : (s.core source).queue[pick]? = some e)
    (hl : entryFor s tile source e = some l) (hidle : idleFor s tile (some l.handle) = true) (hres : l.resumable tile = false)
    (ht : takes s tile source e l = false) : exec (.strandPlacement tile source pick) s = .next s := by
  rw [exec_strandPlacement hj he hl hidle hres, ht, Bool.and_false]
  rfl

/-! Ageing and resuming (R59, R368, R411). -/

variable {h : Nat} {x : Stopped} {index : BitVec 24}

theorem exec_priorityAgeing (hl : s.launch? h = some l) (hw : l.pendingWork s = true) (ha : 2 ^ 20 * (l.aged + 1) ≤ l.waited)
    (hlevel : l.level < 7) : exec (.priorityAgeing h) s = .next (s.updLaunch h fun l => { l with aged := l.aged + 1 }) := by
  show execPriorityAgeing h s = _
  simp only [execPriorityAgeing, hl, hw, hlevel, decide_eq_true ha, decide_true, Bool.and_self, if_true]

/-- The event resumes a stopped strand where nothing keeps it. -/
theorem exec_strandResume (hl : s.launch? h = some l) (hx : (l.stopped.find? fun x => x.index == index) = some x)
    (hj : s.job? l.job = some j) : exec (.strandResume tile h index) s =
      if !l.gang && l.resumable tile && l.inScope x.die tile && idleFor s tile (some h) && chosen s tile l && !outranked s tile l
        && !resumeWaits s tile l j x then .next (resumeStrand (takeTurn s l) tile l j x) else .next s := by
  show execStrandResume tile h index s = _
  have guard : (l.gang || !l.resumable tile || !l.inScope x.die tile || !idleFor s tile (some h) || !chosen s tile l || outranked s tile l
      || resumeWaits s tile l j x) = !(!l.gang && l.resumable tile && l.inScope x.die tile && idleFor s tile (some h) && chosen s tile l
        && !outranked s tile l && !resumeWaits s tile l j x) := by
    simp only [Bool.not_and, Bool.not_not]
  simp only [execStrandResume, hl, hx, hj, guard, notDue]
  generalize (!l.gang && l.resumable tile && l.inScope x.die tile && idleFor s tile (some h) && chosen s tile l && !outranked s tile l
    && !resumeWaits s tile l j x) = due
  cases due <;> rfl

/-! Gangs (R47, R367). -/

/-- The tile cores that a launch's gang may take: idle for it, and held for it or of no more urgent use (R367). -/
def gangFree (s : State) (h : Nat) (l : Launch) : List Core :=
  (l.cores.filter fun t => idleFor s t (some h)).filter fun t => (s.core t).heldFor == some h || !outranked s t l

/-- The launches that would else run on them (R366). -/
def gangRivals (s : State) (h : Nat) (l : Launch) : List Launch :=
  ((gangFree s h l).filter fun t => !((s.core t).heldFor == some h)).flatMap fun t => (choices s t).filter fun y => y.cls == l.cls

/-- No tile core is held for the launch any longer. -/
def unhold (h : Nat) (s : State) : State := s.allCores fun k => if k.heldFor == some h then { k with heldFor := none } else k

/-- A fresh gang placed on tile cores, up to a fault of its launch (R379). -/
def placeGang (h : Nat) (j : Job) (on : List Core) (s : State) : Option State :=
  on.zipIdx.foldlM (fun s x => match s.launch? h with
    | some l => if l.faulted then some s else placeStrand s x.1 l j (BitVec.ofNat 24 x.2)
    | none => some s) s

/-- One stopped strand of a gang resumed, up to a fault of its launch. -/
def resumeOne (h : Nat) (j : Job) (s : State) (x : Stopped × Core) : State :=
  match s.launch? h with
  | some l => if l.faulted then s else resumeStrand s x.2 l j x.1
  | none => s

theorem exec_gangPlacement_fresh (hl : s.launch? h = some l) (hj : s.job? l.job = some j) (hw : gangWaiting s l = true)
    (hturn : mayTakeTurn s l (l :: gangRivals s h l) = true) (hs : l.started = false) : exec (.gangPlacement h) s =
      if ((gangFree s h l).take l.count).length < l.count ||
          !((gangFree s h l).take l.count).all (fun t => recordsFree s t j l.bindings) then .next s
      else match placeGang h j ((gangFree s h l).take l.count)
          (unhold h (takeTurn (s.updLaunch h fun l => { l with dealt := l.count }) l)) with
        | some s1 => .next s1
        | none => .next s := by
  have skip : (!gangWaiting s l || !mayTakeTurn s l (l :: gangRivals s h l)) = false := by rw [hw, hturn]; rfl
  show execGangPlacement h s = _
  simp only [execGangPlacement, hl, hj]
  refine (if_neg (ne_true_of_eq_false skip)).trans ?_
  simp only [hs, Bool.not_false, if_true]
  rfl

/-- Resuming a gang's strands one after another always ends. -/
theorem foldlM_resumeOne (xs : List (Stopped × Core)) (s : State) :
    xs.foldlM (fun s x => match s.launch? h with
      | some l => if l.faulted then some s else some (resumeStrand s x.2 l j x.1)
      | none => some s) s = some (xs.foldl (resumeOne h j) s) := by
  induction xs generalizing s with
  | nil => rfl
  | cons x xs ih =>
    have one : (match s.launch? h with
      | some l => if l.faulted then some s else some (resumeStrand s x.2 l j x.1)
      | none => some s) = some (resumeOne h j s x) := by
      unfold resumeOne
      cases s.launch? h with
      | none => rfl
      | some l => exact (apply_ite some _ _ _).symm
    rw [List.foldlM_cons, one]
    exact ih _

theorem exec_gangPlacement_stopped {xs : List (Stopped × Core)} (hl : s.launch? h = some l) (hj : s.job? l.job = some j)
    (hw : gangWaiting s l = true) (hturn : mayTakeTurn s l (l :: gangRivals s h l) = true) (hs : l.started = true)
    (hx : assign l l.stopped (gangFree s h l) = some xs) : exec (.gangPlacement h) s =
      if xs.any fun x => resumeWaits s x.2 l j x.1 then .next s
      else .next (xs.foldl (resumeOne h j) (unhold h (takeTurn s l))) := by
  have skip : (!gangWaiting s l || !mayTakeTurn s l (l :: gangRivals s h l)) = false := by rw [hw, hturn]; rfl
  show execGangPlacement h s = _
  simp only [execGangPlacement, hl, hj]
  refine (if_neg (ne_true_of_eq_false skip)).trans ?_
  rw [← gangFree, hx]
  simp only [hs, Bool.not_true, Bool.false_eq_true, if_false]
  cases xs.any fun x => resumeWaits s x.2 l j x.1
  · exact congrArg (fun o => match o with | some s1 => (.next s1 : Out) | none => .next s) (foldlM_resumeOne xs (unhold h (takeTurn s l)))
  · rfl

end

end Sys2Proof.Machine

namespace Sys2Proof

open Sys2Proof.Machine

/-- Settles O50: who takes what is `takes_own`, `takes_of_higher` and `takes_steal`; the rest are the guards of the events. -/
theorem placement : Obligations.Placement := by
  intro s tile source l j hj
  refine ⟨?strands, fun h hl => ⟨exec_priorityAgeing hl, ?resume, ?gang⟩⟩
  case strands =>
    intro pick e he hle hidle hres
    dsimp only
    simp only [← hasWorkFor_iff, Bool.not_eq_true]
    have yes (ht : takes s tile source e l = true) := exec_strandPlacement_of_takes hj he hle hidle hres ht
    have no (ht : takes s tile source e l = false) := exec_strandPlacement_of_not_takes hj he hle hidle hres ht
    refine ⟨fun hsrc hclass hturn hlow => yes (takes_own hsrc hclass hturn hlow), fun hsrc hx => no (takes_of_higher hsrc hx),
      fun hsrc hown hnear => yes ((takes_steal hsrc).2 ⟨hown, hnear⟩), fun hsrc hkept => no ?_⟩
    rw [Bool.eq_false_iff, ne_eq, takes_steal hsrc]
    rintro ⟨hown, hnear⟩
    rcases hkept with hmine | ⟨hdie, c, hc, hcd, hmine⟩
    · rw [hown] at hmine; cases hmine
    · rcases hnear with hsame | hnone
      · exact hdie hsame
      · rw [hnone c hc hcd] at hmine; cases hmine
  case resume =>
    intro x index hx
    rw [exec_strandResume hl hx hj]
    refine ⟨fun hkept => if_neg ?_, fun hg hr hsc hi hch ho => ⟨fun hw => if_neg ?_, fun hw => if_pos ?_⟩⟩
    · rcases hkept with ho | hch
      · simp [ho]
      · simp [hch]
    · simp [hw]
    · simp [hg, hr, hsc, hi, hch, ho, hw]
  case gang =>
    intro hw
    dsimp only
    intro hturn
    refine ⟨fun hs hfew => ?_, fun hs hmany => ⟨fun hkept => ?_, fun hfree s1 hplaced => ?_⟩,
      fun hs xs hx => ⟨fun hwaits => ?_, fun hgo => ?_⟩⟩
    · refine (exec_gangPlacement_fresh hl hj hw hturn hs).trans (if_pos ?_)
      have short : ((gangFree s h l).take l.count).length < l.count := lt_of_le_of_lt (List.length_take_le' _ _) hfew
      rw [decide_eq_true short, Bool.true_or]
    · refine (exec_gangPlacement_fresh hl hj hw hturn hs).trans ?_
      rcases hkept with ⟨t, ht, hheld⟩ | hplaced
      · have some : ((gangFree s h l).take l.count).all (fun t => recordsFree s t j l.bindings) = false :=
          List.all_eq_false.2 ⟨t, ht, by simp [hheld]⟩
        rw [some, Bool.not_false, Bool.or_true, if_pos rfl]
      · have none : placeGang h j ((gangFree s h l).take l.count)
            (unhold h (takeTurn (s.updLaunch h fun l => { l with dealt := l.count }) l)) = none := hplaced
        rw [none, ite_self]
    · refine (exec_gangPlacement_fresh hl hj hw hturn hs).trans ?_
      have all : ((gangFree s h l).take l.count).all (fun t => recordsFree s t j l.bindings) = true := List.all_eq_true.2 hfree
      have enough : ¬ ((gangFree s h l).take l.count).length < l.count := by
        exact (List.length_take_of_le hmany).not_lt
      have some : placeGang h j ((gangFree s h l).take l.count)
          (unhold h (takeTurn (s.updLaunch h fun l => { l with dealt := l.count }) l)) = some s1 := hplaced
      rw [all, decide_eq_false enough, some]
      rfl
    · refine (exec_gangPlacement_stopped hl hj hw hturn hs hx).trans (if_pos ?_)
      simpa using hwaits
    · refine (exec_gangPlacement_stopped hl hj hw hturn hs hx).trans (if_neg ?_)
      simpa using hgo

end Sys2Proof
end

section
/-! PROOFS. Packets that execute (R45, R47, R349 to R353, R369, R438, R496): what a packet in hand that holds nothing yet comes to is said
once by `packetStep_of_free`, what arms a counter by the lemmas on `armThen`, and then each packet's own effect. -/

namespace Sys2Proof.Machine

/-! The effects of the packets, as they stand in their words. -/

/-- A LAUNCH that has armed its counter: with a final status it has none to start (R357). -/
def launchArmed (q : BitVec 8) (k : Queue) (l : Launch) (s2 : State) : Option Final → Executed
  | some f => .done (settle (finishCounter s2 k.job q l.counter f))
  | none => .done (addLaunch s2 l k.acq)

/-- LAUNCH (R357). -/
def launchOp (q : BitVec 8) (s : State) (k : Queue) (j : Job) : Executed :=
  armThen s j (bits (creg k.shadow 16) 15 0) fun s1 =>
    let l := launchFrom s1 k.job q (nextIdent k) j.phase none s1.fresh k.shadow
    launchArmed q k l (bumpSeq s1 q 1) (atOnce l)

/-- The graph that a GRAPH packet starts (R357). -/
def packetGraph (q : BitVec 8) (s1 : State) (k : Queue) (j : Job) (d : GraphDesc) : Graph :=
  { handle := s1.fresh, job := k.job, queue := q, counter := bits (creg k.shadow 16) 15 0, base := (nextIdent k).toNat
    phase := j.phase, images := d.images, edges := d.edges, batches := batchesOf s1 j d, acq := k.acq }

/-- GRAPH, by what is read of its descriptor (R357). -/
def graphRead (q : BitVec 8) (s : State) (k : Queue) (j : Job) : Except Nat GraphDesc → Executed
  | .error e => if e = errHeld then .later else .halt s
  | .ok d => armThen s j (bits (creg k.shadow 16) 15 0) fun s1 =>
    .done (settle (bumpSeq { s1 with graphs := s1.graphs ++ [packetGraph q s1 k j d], fresh := s1.fresh + 1 } q 256))

def graphOp (q : BitVec 8) (s : State) (k : Queue) (j : Job) : Executed := graphRead q s k j (readGraph s j (creg k.shadow 17))

/-- CANCEL (R369). -/
def cancelOp (s : State) (k : Queue) (_ : Job) : Executed :=
  if bits (creg k.shadow 23) 15 0 != 0 && !((cancelled s k.job (bits (creg k.shadow 23) 15 0)).all (cancelReady s)) then .later
  else .done (cancelCounter s k.job (bits (creg k.shadow 23) 15 0))

/-- PHASE (R50). -/
def phaseOp (q : BitVec 8) (s : State) (k : Queue) (j : Job) : Executed :=
  if BitVec.ofNat 32 (creg k.shadow 24) = j.phase then .hold .phase (s.updQueue q fun k => { k with atPhase := true }) else .done s

/-- A packet that has no effect of its own (R349, R351). -/
def passOp : State → Queue → Job → Executed := fun s _ _ => .done s

theorem exec_launchPacket (q : BitVec 8) (s : State) : exec (.launchPacket q) s = packetStep q 1 .none (launchOp q) s := rfl
theorem exec_graphPacket (q : BitVec 8) (s : State) : exec (.graphPacket q) s = packetStep q 2 .none (graphOp q) s := by
  show execGraphPacket q s = _
  unfold execGraphPacket
  congr 1
theorem exec_cancelPacket (q : BitVec 8) (s : State) : exec (.cancelPacket q) s = packetStep q 10 .none cancelOp s := rfl
theorem exec_phasePacket (q : BitVec 8) (s : State) : exec (.phasePacket q) s = packetStep q 11 .none (phaseOp q) s := rfl
theorem exec_copyPacket (q : BitVec 8) (s : State) : exec (.copyPacket q) s = packetStep q 7 .none (copyOrFill q false) s := rfl
theorem exec_fillPacket (q : BitVec 8) (s : State) : exec (.fillPacket q) s = packetStep q 8 .none (copyOrFill q true) s := rfl
theorem exec_waitPacket (q : BitVec 8) (s : State) : exec (.waitPacket q) s = packetStep q 5 .none waitPacketOp s := rfl
theorem exec_beginPacket (q : BitVec 8) (s : State) :
    exec (.beginPacket q) s = packetStep q 3 .none passOp s := rfl
theorem exec_commitPacket (q : BitVec 8) (s : State) :
    exec (.commitPacket q) s = packetStep q 4 .none passOp s := rfl
theorem exec_indirectPacket (q : BitVec 8) (s : State) :
    exec (.indirectPacket q) s = packetStep q 9 .none passOp s := rfl

section
variable {s s1 s2 : State} {q : BitVec 8} {k : Queue} {p : Packet} {rest : List Packet} {j : Job} {op n v : Nat} {h : Hold}
  {f : State → Queue → Job → Executed} {c : FaultCode} {g : State → Executed}

/-- A packet executes with its words in the shadow registers: not after a lost write (R496), nor while its counter is held (R247, R312). -/
theorem packetStep_of_free (hand : PacketInHand s q k p rest j) (hop : p.op.toNat = op) (hold : k.hold = .none)
    (bar : p.bar = true → queueWork s q = false) :
    packetStep q op h f s = if k.lostWrite then .next (haltQueue s q errAddress p.ord) else
      (s.gateStep (.queue q) s.leaderDie (packetRanges j p.op.toNat (applyWords k.shadow p.mask.toNat p.words))).elim
        ((f (s.letGo (.queue q)) { k with shadow := applyWords k.shadow p.mask.toNat p.words } j).out s q
          (applyWords k.shadow p.mask.toNat p.words) p.ord) .next := by
  obtain ⟨hqueue, hbatch, hjob, hready, hbell, hhalted, htearing⟩ := hand
  have noWork : (p.bar && queueWork s q) = false := by simpa using bar
  cases lost : k.lostWrite <;> cases k <;> dsimp only at * <;> subst hop hold hbatch hbell hhalted htearing lost
  · cases gate : s.gateStep (.queue q) s.leaderDie (packetRanges j p.op.toNat (applyWords _ p.mask.toNat p.words)) with
    | some s1 => simp [packetStep, hqueue, hready, hjob, noWork, gate]
    | none =>
      cases outcome : f (s.letGo (.queue q)) _ j <;>
        simp [packetStep, hqueue, hready, hjob, noWork, gate, outcome, Executed.out, notDue]
  · simp [packetStep, hqueue, hready, hjob, noWork]

/-! Arming (R438). -/

theorem armThen_of_error (hv : counterState s j n = .error c) : armThen s j n g = .halt s := by simp only [armThen, hv]

theorem armThen_of_pending (hv : counterState s j n = .ok 1) : armThen s j n g = .later := by simp only [armThen, hv, if_true]

theorem armThen_of_armed (hv : counterState s j n = .ok v) (h1 : v ≠ 1) (ha : armCounter s j n = .ok s1) : armThen s j n g = g s1 := by
  simp only [armThen, hv, h1, if_false, ha]

/-! LAUNCH (R47, R357). -/

/-- The status of a launch that can have no strand. -/
def badLaunch (d : BitVec 20) : Final :=
  { also := { fault := true }, record := some { code := 0, core := 0, eng := 5, detail := d, tick := 0, strand := 0 } }

theorem atOnce_of_runs {l : Launch} (hn : 0 < l.count) (hc : l.cores ≠ []) (hg : l.gang = true → l.count ≤ l.cores.length) :
    atOnce l = none := by
  have room : (l.gang && decide (l.count > l.cores.length)) = false := by
    simpa only [Bool.and_eq_false_imp, decide_eq_false_iff_not, gt_iff_lt, not_lt] using hg
  simp only [atOnce, hn.ne', List.isEmpty_eq_false_iff.2 hc, room, Bool.false_eq_true, if_false]

theorem atOnce_of_no_strand {l : Launch} (hn : l.count = 0) : atOnce l = some {} := by simp only [atOnce, hn, if_true]

theorem atOnce_of_no_core {l : Launch} (hn : 0 < l.count) (hc : l.cores = []) : atOnce l = some (badLaunch 1) := by
  simp only [atOnce, hn.ne', hc, List.isEmpty_nil, if_false, if_true]
  rfl

theorem atOnce_of_short {l : Launch} (hc : l.cores ≠ []) (hg : l.gang = true) (hs : l.cores.length < l.count) :
    atOnce l = some (badLaunch 2) := by
  have some : ¬ l.count = 0 := by omega
  simp only [atOnce, some, List.isEmpty_eq_false_iff.2 hc, hg, hs, decide_true, Bool.and_self, Bool.false_eq_true,
    if_false, if_true]
  rfl

/-! SIGNAL (R351). -/

/-- What a SIGNAL that has armed its counter comes to. -/
def signalArmed (q : BitVec 8) (k : Queue) (j : Job) (s : State) : Executed :=
  if queueWork s q || !s.unraised s.leaderDie then .hold .signal s
  else match finalCounter s j (bits (creg k.shadow 22) 15 0) {} with
    | .error _ => .halt s
    | .ok s1 => .done (settle ((counterMet s1 j.no (bits (creg k.shadow 22) 15 0)
        { wide := k.acq.at s.leaderDie |>.join (frontCovers s).wide }).raiseEpoch s1.leaderDie))

theorem signalOp_of_no_counter (hn : bits (creg k.shadow 22) 15 0 = 0) : signalOp q s k j = .done s := by
  simp only [signalOp, hn, if_true]

theorem signalOp_of_counter (hold : k.hold = .none) (hn : bits (creg k.shadow 22) 15 0 ≠ 0) :
    signalOp q s k j = armThen s j (bits (creg k.shadow 22) 15 0) (signalArmed q k j) := by
  have free : (k.hold == Hold.signal) = false := by rw [hold]; rfl
  simp only [signalOp, hn, free, Bool.false_eq_true, if_false]
  rfl

theorem signalArmed_of_busy (hw : queueWork s q = true ∨ s.unraised s.leaderDie = false) : signalArmed q k j s = .hold .signal s :=
  if_pos (by simpa using hw)

theorem signalArmed_of_free (hw : queueWork s q = false) (hu : s.unraised s.leaderDie = true) :
    (∀ s1, finalCounter s j (bits (creg k.shadow 22) 15 0) {} = .ok s1 → signalArmed q k j s =
      .done (settle ((counterMet s1 j.no (bits (creg k.shadow 22) 15 0)
        { wide := (k.acq.at s.leaderDie).join (frontCovers s).wide }).raiseEpoch s1.leaderDie))) ∧
    (∀ c, finalCounter s j (bits (creg k.shadow 22) 15 0) {} = .error c → signalArmed q k j s = .halt s) := by
  refine ⟨fun s1 hf => ?_, fun c hf => ?_⟩ <;>
    simp only [signalArmed, hw, hu, hf, Bool.not_true, Bool.or_self, Bool.false_eq_true, if_false]

/-! COPY and FILL (R353), CANCEL (R369). -/

/-- What a COPY or FILL that has armed its counter comes to. -/
def copyArmed (q : BitVec 8) (fill : Bool) (k : Queue) (j : Job) (s1 : State) : State :=
  let s2 := bumpSeq s1 q 1
  if creg k.shadow 19 = 0 then settle (finishCounter s2 k.job q (bits (creg k.shadow 16) 15 0) {})
  else { s2 with fresh := s2.fresh + 1, copies := s2.copies ++ [{
      handle := s2.fresh, job := k.job, queue := q, ident := nextIdent k, phase := j.phase, src := creg k.shadow 17
      dst := creg k.shadow 18, len := creg k.shadow 19, pattern := if fill then some (k.shadow.get 20) else none
      counter := bits (creg k.shadow 16) 15 0, view := (dispatchAcq s2 k.job k.acq).at s2.leaderDie }] }

theorem copyOrFill_eq (fill : Bool) : copyOrFill q fill s k j =
    armThen s j (bits (creg k.shadow 16) 15 0) fun s1 => .done (copyArmed q fill k j s1) := by
  have pattern : k.shadow.toList.getD 20 0 = k.shadow.get 20 := by
    rw [List.getD_eq_getElem _ _ (by simp), Vector.getElem_toList]
    rfl
  unfold copyOrFill copyArmed
  simp only [pattern]
  congr 1
  funext s1
  exact (apply_ite Executed.done _ _ _).symm

theorem cancelOp_of_ready
    (hr : bits (creg k.shadow 23) 15 0 = 0 ∨ ∀ h ∈ cancelled s k.job (bits (creg k.shadow 23) 15 0), cancelReady s h = true) :
    cancelOp s k j = .done (cancelCounter s k.job (bits (creg k.shadow 23) 15 0)) := by
  refine if_neg ?_
  rcases hr with hn | hr
  · simp [hn]
  · simp [List.all_eq_true.2 hr]

theorem cancelOp_of_not_ready
    (hr : bits (creg k.shadow 23) 15 0 ≠ 0 ∧ ∃ h ∈ cancelled s k.job (bits (creg k.shadow 23) 15 0), cancelReady s h = false) :
    cancelOp s k j = .later := by
  obtain ⟨hn, h, hh, hr⟩ := hr
  have some : (cancelled s k.job (bits (creg k.shadow 23) 15 0)).all (cancelReady s) = false := List.all_eq_false.2 ⟨h, hh, by simp [hr]⟩
  exact if_pos (by simp [hn, some])

theorem graphOp_of_error {e : Nat} (hd : readGraph s j (creg k.shadow 17) = .error e) :
    graphOp q s k j = if e = errHeld then .later else .halt s :=
  congrArg (graphRead q s k j) hd

theorem graphOp_of_graph {d : GraphDesc} (hd : readGraph s j (creg k.shadow 17) = .ok d) :
    graphOp q s k j = armThen s j (bits (creg k.shadow 16) 15 0) fun s1 =>
      .done (settle (bumpSeq { s1 with graphs := s1.graphs ++ [packetGraph q s1 k j d], fresh := s1.fresh + 1 } q 256)) :=
  congrArg (graphRead q s k j) hd

end

/-! Every packet. -/

/-- The packets with their opcodes (R349). -/
def packetInstrs (q : BitVec 8) : List (BitVec 8 × Instr) :=
  [(1, .launchPacket q), (2, .graphPacket q), (3, .beginPacket q), (4, .commitPacket q),
    (5, .waitPacket q), (6, .signalPacket q), (7, .copyPacket q), (8, .fillPacket q), (9, .indirectPacket q), (10, .cancelPacket q),
    (11, .phasePacket q), (12, .nopPacket q)]

theorem exec_packetInstrs (q : BitVec 8) (s : State) :
    ∀ x ∈ packetInstrs q, ∃ h f, exec x.2 s = packetStep q x.1.toNat h f s := by
  simp only [packetInstrs, List.forall_mem_cons, List.not_mem_nil, false_imp_iff, implies_true, and_true]
  exact ⟨⟨_, _, exec_launchPacket q s⟩, ⟨_, _, exec_graphPacket q s⟩, ⟨_, _, exec_beginPacket q s⟩,
    ⟨_, _, exec_commitPacket q s⟩,
    ⟨_, _, exec_waitPacket q s⟩, ⟨_, _, exec_signalPacket q s⟩, ⟨_, _, exec_copyPacket q s⟩, ⟨_, _, exec_fillPacket q s⟩,
    ⟨_, _, exec_indirectPacket q s⟩, ⟨_, _, exec_cancelPacket q s⟩, ⟨_, _, exec_phasePacket q s⟩,
    ⟨_, _, exec_nopPacket q s⟩⟩

end Sys2Proof.Machine

namespace Sys2Proof

open Sys2Proof.Machine

/-- Settles O52: `packetStep_of_free` reduces every packet to its own effect. -/
theorem packetsExecute : Obligations.PacketsExecute := by
  intro s q k p rest j hqueue hbatch hjob hready hbell hhalted htearing hold bar sh k1 n gate go done held halts code all
  have hand : PacketInHand s q k p rest j := ⟨hqueue, hbatch, hjob, hready, hbell, hhalted, htearing⟩
  have run {o : BitVec 8} {h f} (hc : code o) : packetStep q o.toNat h f s = (f go k1 j).out s q sh p.ord := by
    obtain ⟨rfl, hlost, hgate⟩ := hc
    have issued : s.gateStep (.queue q) s.leaderDie (packetRanges j p.op.toNat sh) = none := hgate
    refine (packetStep_of_free hand rfl hold bar).trans ((if_neg (ne_true_of_eq_false hlost)).trans ?_)
    rw [issued]
    rfl
  have ran {o : BitVec 8} {op : Nat} {h} (f : State → Queue → Job → Executed) {r : Executed} (hc : code o)
      (ho : o.toNat = op) (hr : f go k1 j = r) : packetStep q op h f s = r.out s q sh p.ord :=
    ho ▸ (run hc).trans (congrArg (Executed.out s q sh p.ord) hr)
  refine ⟨?stopped, fun hc => ran passOp hc rfl rfl, fun hc => ran passOp hc rfl rfl, fun hc => ran passOp hc rfl rfl,
    fun hc => ran passOp hc rfl rfl, ?cancel, fun hc hp => ?phase, fun hc hp => ?past, ?lost, ?noGraph, ?armed, ?wait, ?signal⟩
  case stopped =>
    intro x hx hop
    obtain ⟨h, f, hrun⟩ := exec_packetInstrs q s x hx
    have step := packetStep_of_free (h := h) (f := f) hand (congrArg BitVec.toNat hop) hold bar
    refine ⟨fun hlost => ?_, fun s1 hlost hgate => ?_⟩
    · exact hrun.trans (step.trans (if_pos hlost))
    · have kept : s.gateStep (.queue q) s.leaderDie (packetRanges j p.op.toNat sh) = some s1 := hgate
      refine hrun.trans (step.trans ((if_neg (ne_true_of_eq_false hlost)).trans ?_))
      rw [kept]
      rfl
  case cancel =>
    exact fun hc => ⟨fun hr => ran cancelOp hc rfl (cancelOp_of_ready (k := k1) hr),
      fun hr => ran cancelOp hc rfl (cancelOp_of_not_ready (k := k1) hr)⟩
  case phase =>
    have effect : phaseOp q go k1 j = .hold .phase (go.updQueue q fun k => { k with atPhase := true }) := if_pos hp
    exact ran (phaseOp q) hc rfl effect
  case past =>
    have effect : phaseOp q go k1 j = .done go := if_neg hp
    exact ran (phaseOp q) hc rfl effect
  case lost =>
    intro c hv
    refine ⟨fun hc => ?_, fun hc => ?_, fun hc => ?_⟩
    · exact ran (launchOp q) hc rfl (armThen_of_error hv)
    · exact ran (copyOrFill q false) hc rfl ((copyOrFill_eq false).trans (armThen_of_error hv))
    · exact ran (copyOrFill q true) hc rfl ((copyOrFill_eq true).trans (armThen_of_error hv))
  case noGraph =>
    intro e hc hd
    refine ⟨fun he => ?_, fun he => ?_⟩
    · have effect : graphOp q go k1 j = .later := (graphOp_of_error (k := k1) hd).trans (if_pos he)
      exact (exec_graphPacket q s).trans (ran (graphOp q) hc rfl effect)
    · have effect : graphOp q go k1 j = .halt go := (graphOp_of_error (k := k1) hd).trans (if_neg he)
      exact (exec_graphPacket q s).trans (ran (graphOp q) hc rfl effect)
  case armed =>
    intro v s1 hv ha l s2 copy bad atOnceEnds
    have later (f : State → Executed) (h1 : v = 1) : armThen go j n f = .later := armThen_of_pending (h1 ▸ hv)
    have arms (f : State → Executed) (h1 : v ≠ 1) : armThen go j n f = f s1 := armThen_of_armed hv h1 ha
    have launched {x : Option Final} (h1 : v ≠ 1) (hx : atOnce l = x) : launchOp q go k1 j = launchArmed q k1 l s2 x :=
      (arms _ h1).trans (congrArg (launchArmed q k1 l s2) hx)
    have copied (fill : Bool) : done (copyArmed q fill k1 j s1) = copy fill := apply_ite done _ _ _
    refine ⟨fun hc h1 => ?_, fun hc h1 hn hcores hg => ?_, fun hc h1 hn => ?_, fun hc h1 hn hcores => ?_,
      fun hc h1 hcores hg hs => ?_, fun hc h1 => ?_, fun hc h1 => ?_, fun hc h1 => ?_, fun hc h1 => ?_, fun d hc hd => ?graph⟩
    · exact ran (launchOp q) hc rfl (later _ h1)
    · exact ran (launchOp q) hc rfl (launched h1 (atOnce_of_runs hn hcores hg))
    · exact ran (launchOp q) hc rfl (launched h1 (atOnce_of_no_strand hn))
    · exact ran (launchOp q) hc rfl (launched h1 (atOnce_of_no_core hn hcores))
    · exact ran (launchOp q) hc rfl (launched h1 (atOnce_of_short hcores hg hs))
    · exact ran (copyOrFill q false) hc rfl ((copyOrFill_eq (k := k1) false).trans (later _ h1))
    · exact (ran (copyOrFill q false) hc rfl ((copyOrFill_eq (k := k1) false).trans (arms _ h1))).trans (congrArg _ (copied false))
    · exact ran (copyOrFill q true) hc rfl ((copyOrFill_eq (k := k1) true).trans (later _ h1))
    · exact (ran (copyOrFill q true) hc rfl ((copyOrFill_eq (k := k1) true).trans (arms _ h1))).trans (congrArg _ (copied true))
    case graph =>
      intro g
      refine ⟨fun h1 => ?_, fun h1 => ?_⟩
      · have effect : graphOp q go k1 j = .later := (graphOp_of_graph (k := k1) hd).trans (later _ h1)
        exact (exec_graphPacket q s).trans (ran (graphOp q) hc rfl effect)
      · have effect : graphOp q go k1 j =
            .done (settle (bumpSeq { s1 with graphs := s1.graphs ++ [packetGraph q s1 k1 j d], fresh := s1.fresh + 1 } q 256)) :=
          (graphOp_of_graph (k := k1) hd).trans (arms _ h1)
        exact (exec_graphPacket q s).trans (ran (graphOp q) hc rfl effect)
  case wait =>
    intro c acquires
    refine ⟨fun r hc hm => ?_, fun v hv hm => ⟨fun hc h1 => ?_, fun hc h1 => ?_⟩⟩
    · exact ran waitPacketOp hc rfl (waitPacketOp_of_met (k := k1) hm)
    · exact ran waitPacketOp hc rfl (waitPacketOp_of_not_pending (k := k1) hm hv h1)
    · exact ran waitPacketOp hc rfl (waitPacketOp_of_pending (k := k1) hm (h1 ▸ hv))
  case signal =>
    intro c
    refine ⟨fun hc h0 => ?_, fun v s1 h0 hv ha => ?_⟩
    · exact ran (signalOp q) hc rfl (signalOp_of_no_counter (k := k1) h0)
    · have later (h1 : v = 1) : signalOp q go k1 j = .later :=
        (signalOp_of_counter (k := k1) hold h0).trans (armThen_of_pending (h1 ▸ hv))
      have arms (h1 : v ≠ 1) : signalOp q go k1 j = signalArmed q k1 j s1 :=
        (signalOp_of_counter (k := k1) hold h0).trans (armThen_of_armed hv h1 ha)
      refine ⟨fun hc h1 => ?_, fun hc h1 hw => ?_, fun s2 hc h1 hw hu hf => ?_, fun e hc h1 hw hu hf => ?_⟩
      · exact ran (signalOp q) hc rfl (later h1)
      · exact ran (signalOp q) hc rfl ((arms h1).trans (signalArmed_of_busy hw))
      · exact ran (signalOp q) hc rfl ((arms h1).trans ((signalArmed_of_free (k := k1) hw hu).1 s2 hf))
      · exact ran (signalOp q) hc rfl ((arms h1).trans ((signalArmed_of_free (k := k1) hw hu).2 e hf))

end Sys2Proof
end

section
/-! PROOFS. Completions of launches, compaction batches and phases (R50, R57, R360, R363, R377, R388, R423, R440): the guard of each event,
and what it leaves. -/

namespace Sys2Proof.Machine

/-! Launches (R57, R360). -/

/-- A launch's completion is due (R57, R309, R371, R423). -/
def completionDue (s : State) (l : Launch) : Bool :=
  mayComplete s l && frontEndActs s && s.agentReady s.leaderDie && (!(decide (l.scope.toNat ≥ 2)) || s.unraised s.leaderDie)
    && completionFree s l

/-- What a launch's completion leaves once its merges and flushes are done, but for its node (R57, R277). -/
def completed (h : Nat) (s1 : State) (l1 : Launch) : State :=
  let s2 := settleGranules s1 l1
  let s3 := finishCounter { s2 with launches := s2.launches.filter fun x => x.handle != h } l1.job l1.queue l1.counter l1.final l1.rel
  let s4 := s3.updJob l1.job fun j => { j with done := j.done.join l1.rel }
  if l1.scope.toNat ≥ 2 then s4.raiseEpoch s4.leaderDie else s4

/-- The launch's node takes its status (R360). -/
def nodeDone (s : State) (l1 : Launch) : Option (Nat × Nat) → State
  | none => s
  | some (gh, n) => setNode s gh n l1.final false l1.rel

section
variable {s s1 : State} {l l1 : Launch} {h : Nat}

theorem not_completionDue : (!mayComplete s l || !frontEndActs s || !s.agentReady s.leaderDie ||
    (decide (l.scope.toNat ≥ 2) && !s.unraised s.leaderDie) || !completionFree s l) = !completionDue s l := by
  simp only [completionDue, Bool.not_and, Bool.not_or, Bool.not_not]

theorem exec_launchCompletion_of_early (hl : s.launch? h = some l) (hd : completionDue s l = false) :
    exec (.launchCompletion h) s = .next s := by
  show execLaunchCompletion h s = _
  simp only [execLaunchCompletion, hl, not_completionDue, hd, Bool.not_false, if_true, notDue]

theorem exec_launchCompletion_of_due (hl : s.launch? h = some l) (hd : completionDue s l = true) :
    (∀ s1, s.gateStep (.launch h) s.leaderDie (completionRanges s l) = some s1 → exec (.launchCompletion h) s = .next s1) ∧
    (∀ s1 l1, s.gateStep (.launch h) s.leaderDie (completionRanges s l) = none → lastWork (s.letGo (.launch h)) l = (s1, l1) →
      exec (.launchCompletion h) s = .next (settle (nodeDone (completed h s1 l1) l1 l1.node))) := by
  refine ⟨fun s1 hg => ?_, fun s1 l1 hg hw => ?_⟩
  · show execLaunchCompletion h s = _
    simp only [execLaunchCompletion, hl, not_completionDue, hd, hg, Bool.not_true, Bool.false_eq_true, if_false]
  · show execLaunchCompletion h s = _
    simp only [execLaunchCompletion, hl, not_completionDue, hd, hg, hw, Bool.not_true, Bool.false_eq_true, if_false]
    cases hn : l1.node <;> rfl

end

/-! Compaction batches (R363). -/

section
variable {s s1 : State} {g : Graph} {b : Batches} {gh edge : Nat}

theorem exec_compactionBatch_of_short (hg : s.graph? gh = some g) (hb : g.batches.find? (fun b => b.edge == edge) = some b)
    (hs : b.cur.length < b.bsize) : exec (.compactionBatch gh edge) s = .next s := by
  show execCompactionBatch gh edge s = _
  simp only [execCompactionBatch, hg, hb, hs, decide_true, Bool.true_or, if_true, notDue]

theorem exec_compactionBatch_of_full (hg : s.graph? gh = some g) (hb : g.batches.find? (fun b => b.edge == edge) = some b)
    (hs : b.bsize ≤ b.cur.length) (ha : s.agentReady b.die = true)
    (hc : b.launch = none → counterFree s g.job (nodeCounter g b.target) = true ∧ mayArm s g.job (nodeCounter g b.target) = true) :
    (∀ s1, s.gateStep (.edge gh edge) b.die (batchRanges s g.job b false) = some s1 → exec (.compactionBatch gh edge) s = .next s1) ∧
    (∀ s1 e, s.gateStep (.edge gh edge) b.die (batchRanges s g.job b false) = none →
      startBatch (s.letGo (.edge gh edge)) gh edge = (s1, e) →
      (e = none → exec (.compactionBatch gh edge) s = .next s1) ∧
      (∀ c n h, e = some c → g.running.find? (fun x => x.1 == b.source) = some (n, h) →
        exec (.compactionBatch gh edge) s =
          .next (takeFault s1 h { code := c.bits, core := 0, eng := 5, detail := 0, tick := s.psc, strand := 0 }))) := by
  have due : (decide (b.cur.length < b.bsize) || !s.agentReady b.die || (b.launch.isNone &&
      (!counterFree s g.job (nodeCounter g b.target) || !mayArm s g.job (nodeCounter g b.target)))) = false := by
    have full : ¬ b.cur.length < b.bsize := by omega
    cases hl : b.launch with
    | none => simp [full, ha, hc hl]
    | some _ => simp [full, ha]
  refine ⟨fun s1 hgate => ?_, fun s1 e hgate hstart => ⟨fun he => ?_, fun c n h he hr => ?_⟩⟩
  · show execCompactionBatch gh edge s = _
    simp only [execCompactionBatch, hg, hb, due, hgate, Bool.false_eq_true, if_false]
  · subst he
    show execCompactionBatch gh edge s = _
    simp only [execCompactionBatch, hg, hb, due, hgate, hstart, Bool.false_eq_true, if_false]
  · subst he
    show execCompactionBatch gh edge s = _
    simp only [execCompactionBatch, hg, hb, due, hgate, hstart, hr, Bool.false_eq_true, if_false]

end

/-! Phases (R50, R388, R440). -/

/-- A phase's close is due (R388): every queue of the job stands at it, and no work is left. -/
def closeDue (s : State) (job : Word) (j : Job) : Bool :=
  !(j.evaluated || (s.queues.filter fun k => k.job == job).isEmpty ||
    !((s.queues.filter fun k => k.job == job).all fun k => k.atPhase && !k.halted) || jobWork s job || !frontReady s || !derailleursReady s)

/-- Every die releases, and the leader's takes the four clocks (R309). -/
def raisedAll (s : State) : State := joinAll (([0, 1, 2, 3] : List (Fin 4)).foldl State.raiseEpoch s)

/-- The state once every touched record is evaluated (R388). -/
def evaluatedAll (s : State) (job : Word) (j : Job) : State :=
  let s1 := (List.range j.rtsize).foldl (fun s i => phaseCloseRecord s job i) (s.letGo (.job job))
  raisedAll (s1.updJob job fun j => { j with evaluated := true, acq := j.acq.join { wide := closeReleases s1 j }, done := {} })

/-- The phase counter becomes OK, where it can be written (R440). -/
def phaseCounted (s : State) (job : Word) (j : Job) : State :=
  match counterWord s j Config.phaseCounter 0 with
  | .error _ => phaseWriteLost s job
  | .ok w =>
    match putCounter s j Config.phaseCounter (w / 2 ^ 32 * 2 ^ 32 + (if j.emergency then 256 else 0) + Status.ok.code) 0 0 0 with
    | .ok s3 => s3
    | .error _ => phaseWriteLost s job

section
variable {s x : State} {job : Word} {j : Job}

theorem closeDue_of (he : j.evaluated = false) (hq : (s.queues.filter fun k => k.job == job) ≠ [])
    (hp : ∀ k ∈ s.queues.filter fun k => k.job == job, k.atPhase = true ∧ k.halted = false) (hw : jobWork s job = false)
    (hf : frontReady s = true) (hd : derailleursReady s = true) : closeDue s job j = true := by
  have all : ((s.queues.filter fun k => k.job == job).all fun k => k.atPhase && !k.halted) = true :=
    List.all_eq_true.2 fun k hk => by simp [hp k hk]
  simp only [closeDue, he, List.isEmpty_eq_false_iff.2 hq, all, hw, hf, hd, Bool.not_true, Bool.or_self, Bool.not_false]

theorem closeDue_of_work (hw : jobWork s job = true) : closeDue s job j = false := by
  simp only [closeDue, hw, Bool.or_true, Bool.true_or, Bool.not_true]

theorem exec_phaseClose_of_early (hj : s.job? job = some j) (hd : closeDue s job j = false) : exec (.phaseClose job) s = .next s := by
  show execPhaseClose job s = _
  simp only [execPhaseClose, hj]
  rw [closeDue, Bool.not_eq_false'] at hd
  exact if_pos hd

/-- A due close joins the requests held, waits for its turn, or evaluates the records. -/
theorem exec_phaseClose_of_due (hj : s.job? job = some j) (hd : closeDue s job j = true) : exec (.phaseClose job) s =
    .next (match (List.range j.rtsize).findSome? (homeHeld s j), s.gateStep (.job job) s.leaderDie (counterRange j Config.phaseCounter) with
      | some x, _ => s.hold (.job job) x.1 x.2
      | none, some s1 => s1
      | none, none => phaseCounted (evaluatedAll s job j) job j) := by
  show execPhaseClose job s = _
  simp only [execPhaseClose, hj]
  refine (if_neg ?_).trans ?_
  · rw [closeDue, Bool.not_eq_true'] at hd
    exact ne_true_of_eq_false hd
  · cases (List.range j.rtsize).findSome? (homeHeld s j) with
    | some x => rfl
    | none => cases s.gateStep (.job job) s.leaderDie (counterRange j Config.phaseCounter) <;> rfl

theorem phaseCounted_of_written {w : Nat} {s3 : State} (hw : counterWord s j Config.phaseCounter 0 = .ok w)
    (hp : putCounter s j Config.phaseCounter (w / 2 ^ 32 * 2 ^ 32 + (if j.emergency then 256 else 0) + 8) 0 0 0 = .ok s3) :
    phaseCounted s job j = s3 := by
  have put : putCounter s j Config.phaseCounter (w / 2 ^ 32 * 2 ^ 32 + (if j.emergency then 256 else 0) + Status.ok.code) 0 0 0 = .ok s3 := hp
  simp only [phaseCounted, hw, put]

theorem phaseCounted_of_lost {c : FaultCode} (hw : counterWord s j Config.phaseCounter 0 = .error c) :
    phaseCounted s job j = phaseWriteLost s job := by
  simp only [phaseCounted, hw]

/-- Deferred updates applied, and the phase number moved on (R50, R377). -/
def nextPhase (s : State) (job : Word) (j : Job) : State :=
  let a := j.deferred.foldl (fun s u => applyUpdate s job u) (s.letGo (.job job))
  a.updJob job fun j' => { j' with
    phase := j.phase + 1, deferred := [], evaluated := false, emergency := false, acq := j'.acq.join { wide := closeReleases a j' } }

/-- A deterministic job's directory of the new parity is emptied (R251). -/
def directoryEmptied (j : Job) (s : State) : State :=
  if j.det then
    { s with dies := s.dies.map fun d => { d with writers := d.writers.filter fun w => w.phase.toNat % 2 != (j.phase + 1).toNat % 2 } }
  else s

/-- The state of the next phase, before its queues go on. -/
def advanced (s : State) (job : Word) (j : Job) : State :=
  armPhase (directoryEmptied j (raisedAll (nextPhase s job j))) j (j.phase + 1)

/-- The queues of the job go on from their phase packets, their launch sequences at zero (R356). -/
def queuesOpened (s : State) (job : Word) : State :=
  (s.queues.filter fun k => k.job == job).foldl (fun s k => if k.atPhase then finishPacket s k.q else s)
    ((s.queues.filter fun k => k.job == job).foldl (fun s k => s.updQueue k.q fun k => { k with lseq := 0 }) s)

theorem exec_phaseAdvance_of_early (hj : s.job? job = some j) (he : j.evaluated = false) : exec (.phaseAdvance job) s = .next s := by
  show execPhaseAdvance job s = _
  simp only [execPhaseAdvance, hj]
  exact if_pos (by rw [he]; rfl)

/-- An evaluated phase joins the requests held, waits for its turn, or advances. -/
theorem exec_phaseAdvance_of_due (hj : s.job? job = some j) (he : j.evaluated = true) (hf : frontReady s = true)
    (hd : derailleursReady s = true) :
    (∀ x, j.deferred.findSome? (updateHeld s j) = some x → exec (.phaseAdvance job) s = .next (s.hold (.job job) x.1 x.2)) ∧
    (j.deferred.findSome? (updateHeld s j) = none →
      (∀ s1, s.gateStep (.job job) s.leaderDie (counterRange j Config.phaseCounter) = some s1 → exec (.phaseAdvance job) s = .next s1) ∧
      (s.gateStep (.job job) s.leaderDie (counterRange j Config.phaseCounter) = none →
        exec (.phaseAdvance job) s = .next (queuesOpened (advanced s job j) job))) := by
  show (∀ x, _ → execPhaseAdvance job s = _) ∧ (_ → (∀ s1, _ → execPhaseAdvance job s = _) ∧ (_ → execPhaseAdvance job s = _))
  unfold execPhaseAdvance
  rw [hj]
  have due : ¬ (!j.evaluated || !frontReady s || !derailleursReady s) = true := by rw [he, hf, hd]; decide
  refine ⟨fun x hx => (if_neg due).trans ?_, fun hx => ⟨fun s1 hg => (if_neg due).trans ?_, fun hg => (if_neg due).trans ?_⟩⟩
  · rw [hx]
  · rw [hx, hg]
  · split
    next hx' => rw [hx] at hx'; cases hx'
    next hg' => rw [hg] at hg'; cases hg'
    next =>
      extract_lets s1 next s2 s3 s4 mine s5
      have h2 : s2 = raisedAll (nextPhase s job j) := rfl
      have h3 : s3 = directoryEmptied j s2 := rfl
      have h4 : s4 = armPhase s3 j (j.phase + 1) := rfl
      have all : s4 = advanced s job j := by rw [h4, h3, h2, advanced]
      rw [← all]
      rfl

end

end Sys2Proof.Machine

namespace Sys2Proof

open Sys2Proof.Machine

/-- Settles O54: each event by its guard, a phase's events by what a slot or an extension holds of them. -/
theorem launchesAndPhases : Obligations.LaunchesAndPhases := by
  intro s
  refine ⟨fun l hl hm hf ha hc hu => ?launch, fun l hl hkept => exec_launchCompletion_of_early hl ?kept, fun g edge b hg hb =>
    ⟨exec_compactionBatch_of_short hg hb, exec_compactionBatch_of_full hg hb⟩, fun job j hj => ?phase⟩
  case launch =>
    have due : completionDue s l = true := by
      by_cases wide : l.scope.toNat ≥ 2
      · simp [completionDue, hm, hf, ha, hc, hu wide]
      · simp [completionDue, hm, hf, ha, hc, wide]
    obtain ⟨held, ends⟩ := exec_launchCompletion_of_due hl due
    refine ⟨held, fun s1 l1 hgate hw => ?_⟩
    have run := ends s1 l1 hgate hw
    refine ⟨fun hn => ?_, fun gh n hn => ?_⟩
    · rw [hn] at run
      exact run
    · rw [hn] at run
      exact run
  case kept =>
    rcases hkept with h | h | h <;> simp [completionDue, h]
  case phase =>
    intro qs go gate close raised s1 s2
    have unheld {α : Type} {l : List α} {f : α → Option (Fin 4 × Nat)} (h : ∀ a ∈ l, f a = none) : l.findSome? f = none :=
      List.findSome?_eq_none_iff.2 h
    have closes (hc : close) : closeDue s job j = true := by
      obtain ⟨he, hq, hp, hw, hf, hd⟩ := hc
      exact closeDue_of he hq hp hw hf hd
    have records (h : ∀ i < j.rtsize, homeHeld s j i = none) : (List.range j.rtsize).findSome? (homeHeld s j) = none :=
      unheld fun i hi => h i (List.mem_range.1 hi)
    refine ⟨fun x hc hx => ?_, fun x hc hx hg => ?_, fun hc hx hg => ?_, fun hw => exec_phaseClose_of_early hj (closeDue_of_work hw),
      fun he hf hd => ⟨fun x hx => ?_, fun x hx hg => ?_, fun hx hg => ?_⟩, exec_phaseAdvance_of_early hj⟩
    · refine (exec_phaseClose_of_due hj (closes hc)).trans ?_
      rw [hx]
    · have turn : s.gateStep (.job job) s.leaderDie (counterRange j Config.phaseCounter) = some x := hg
      refine (exec_phaseClose_of_due hj (closes hc)).trans ?_
      rw [records hx, turn]
    · have turn : s.gateStep (.job job) s.leaderDie (counterRange j Config.phaseCounter) = none := hg
      have run := exec_phaseClose_of_due hj (closes hc)
      rw [records hx, turn] at run
      exact ⟨fun w s3 hw hp => run.trans (congrArg _ (phaseCounted_of_written hw hp)),
        fun c hw => run.trans (congrArg _ (phaseCounted_of_lost hw))⟩
    · exact (exec_phaseAdvance_of_due hj he hf hd).1 x hx
    · exact ((exec_phaseAdvance_of_due hj he hf hd).2 (unheld hx)).1 x hg
    · have run := ((exec_phaseAdvance_of_due hj he hf hd).2 (unheld hx)).2 hg
      intro next a s3 s4 mine
      have h3 : s3 = raisedAll (nextPhase s job j) := rfl
      have h4 : s4 = armPhase (directoryEmptied j s3) j (j.phase + 1) := rfl
      have all : s4 = advanced s job j := by rw [h4, h3, advanced]
      rw [← all] at run
      exact run

end Sys2Proof
end

section
/-! PROOFS. The mailbox and the requests about jobs and queues (R52, R346, R370, R463, R464): what serving the request at the head comes to
is said once by `serve_of_head`; then each request by its checks. -/

namespace Sys2Proof.Machine

section
variable {s : State} {a addr : DWord} {rest : List DWord} {code : Nat} {which : Block → Bool} {len : Block → Nat}
  {f : State → Block → Option Answer}

/-! The mailbox (R463). -/

/-- The mailbox replaced. -/
def State.withMailbox (s : State) (l : List DWord) : State := { s with card := { s.card with mailbox := l } }

theorem State.withMailbox_self {l : List DWord} (h : s.card.mailbox = l) : s.withMailbox l = s := by subst h; rfl

theorem dropReserved_of_known (h : knownCode (blockAt s a).code = true) : dropReserved s (a :: rest) = s.withMailbox (a :: rest) := by
  rw [dropReserved, if_pos h]
  rfl

theorem dropReserved_of_reserved (h : knownCode (blockAt s a).code = false) :
    dropReserved s [a] = (writeReply s (blockAt s a).cpl (blockAt s a).seq .refused 255 0).withMailbox [] := by
  rw [dropReserved, if_neg (ne_true_of_eq_false h)]
  rfl

theorem exec_supervisorMailbox_of_refused (h : mailboxRefused s addr = true) :
    exec (.supervisorMailbox addr) s = .next (refuseWrite s 0x1018) := if_pos h

theorem exec_supervisorMailbox_of_queued (h : mailboxRefused s addr = false) (hq : s.card.mailbox ≠ [] ∨ mailReady s = false) :
    exec (.supervisorMailbox addr) s = .next (s.withMailbox (s.card.mailbox ++ [addr])) := by
  have busy : (s.card.mailbox.isEmpty && mailReady s) = false := by
    rcases hq with hq | hq
    · simp [hq]
    · simp [hq]
  exact (if_neg (ne_true_of_eq_false h)).trans (if_neg (ne_true_of_eq_false busy))

theorem exec_supervisorMailbox_of_head (h : mailboxRefused s addr = false) (hq : s.card.mailbox = []) (hr : mailReady s = true) :
    exec (.supervisorMailbox addr) s = .next (dropReserved s [addr]) := by
  have free : (s.card.mailbox.isEmpty && mailReady s) = true := by simp [hq, hr]
  exact (if_neg (ne_true_of_eq_false h)).trans (if_pos free)

/-! Serving (R463). -/

/-- What an answer to the request in a block comes to. -/
def Block.answered (b : Block) (s : State) : Option Answer → Out
  | none => .next s
  | some (.done s1 r) => .next (finishRequest s1 b.cpl b.seq .done 0 r)
  | some (.refused i) => .next (finishRequest s b.cpl b.seq .refused i 0)
  | some .busy => .next (finishRequest s b.cpl b.seq .busy 0 0)
  | some .exhausted => .next (finishRequest s b.cpl b.seq .exhausted 0 0)
  | some (.begun s1) => .next s1

/-- The request at the head is the one that the event names. -/
structure AtHead (s : State) (a : DWord) (rest : List DWord) (code : Nat) (which : Block → Bool) : Prop where
  mailbox : s.card.mailbox = a :: rest
  ready : mailReady s = true
  known : knownCode code = true
  code : (blockAt s a).code = code
  which : which (blockAt s a) = true

/-- A request with a bad header or length is REFUSED with 255; any other is answered as its meaning says. -/
theorem serve_of_head (h : AtHead s a rest code which) :
    serve code which len f s =
      if !(blockAt s a).ok || (blockAt s a).len != len (blockAt s a) then
        .next (finishRequest s (blockAt s a).cpl (blockAt s a).seq .refused 255 0)
      else (blockAt s a).answered s (f s (blockAt s a)) := by
  obtain ⟨hm, hr, hk, hc, hw⟩ := h
  have same : dropReserved s (a :: rest) = s := by
    rw [dropReserved_of_known (by rw [hc]; exact hk), State.withMailbox_self hm]
  simp only [serve, same, hm, hr, hc, hw, bne_self_eq_false, Bool.not_true, Bool.or_self, Bool.false_eq_true, if_false, lt_irrefl,
    decide_false, Bool.and_false]
  cases f s (blockAt s a) with
  | none => rfl
  | some x => cases x <;> rfl

theorem serve_of_good (h : AtHead s a rest code which) (hok : (blockAt s a).ok = true) (hl : (blockAt s a).len = len (blockAt s a)) :
    serve code which len f s = (blockAt s a).answered s (f s (blockAt s a)) := by
  rw [serve_of_head h, hok, hl, bne_self_eq_false]
  rfl

theorem serve_of_bad (h : AtHead s a rest code which)
    (hbad : (blockAt s a).ok = false ∨ (blockAt s a).len ≠ len (blockAt s a)) :
    serve code which len f s = .next (finishRequest s (blockAt s a).cpl (blockAt s a).seq .refused 255 0) := by
  rw [serve_of_head h]
  exact if_pos (by simpa using hbad)

theorem exec_calendarRequest_of_bad (h : AtHead s a rest 13 fun _ => true) (hbad : (blockAt s a).ok = false) :
    exec .calendarRequest s = .next (finishRequest s (blockAt s a).cpl (blockAt s a).seq .refused 255 0) := by
  show execCalendarRequest s = _
  unfold execCalendarRequest simple
  exact serve_of_bad h (.inl hbad)

theorem exec_attest_of_bad (h : AtHead s a rest 9 fun _ => true) (hbad : (blockAt s a).len ≠ 72) :
    exec .attest s = .next (finishRequest s (blockAt s a).cpl (blockAt s a).seq .refused 255 0) := by
  show execAttest s = _
  unfold execAttest simple
  exact serve_of_bad h (.inr hbad)

end

/-! Jobs (R52). -/

section
variable {s : State} {b : Block} {jobno : Word} {b0 b1 b2 b3 : BitVec 4}

/-- The blocks that CREATE-JOB picks, one for each die. -/
def picksOf (b0 b1 b2 b3 : BitVec 4) : Vector Nat 4 := ⟨#[b0.toNat, b1.toNat, b2.toNat, b3.toNat], rfl⟩

/-- The state with a new job, whose directory parity and semaphores are clear (R52, R251, R427). -/
def withJob (s : State) (j : Job) : State :=
  clearBlocks { s with jobs := s.jobs ++ [j]
                       dies := if j.det then s.dies.map fun d => { d with writers := d.writers.filter fun w => w.phase.toNat % 2 != 0 }
                         else s.dies } j.dsb

/-- What CREATE-JOB answers. -/
def createAnswer (jobno : Word) (b0 b1 b2 b3 : BitVec 4) (s : State) (b : Block) : Option Answer :=
  match firstBad (descriptorBad s b) with
  | some i => some (.refused i)
  | none =>
    if dieIds.any fun d => (List.range 16).all fun k => !blockFree s d k then some .exhausted
    else if (s.job? jobno).isSome || !(dieIds.all fun d => blockFree s d ((picksOf b0 b1 b2 b3).get d)) then none
    else
      let j := jobFrom b jobno ((picksOf b0 b1 b2 b3).map fun k => 1024 * k)
      if ((withJob s j).heldAt none (withJob s j).leaderDie j (counterAddr j Config.phaseCounter) 32).isSome then none
      else some (.done (armPhase (withJob s j) j 0) jobno.toNat)

theorem exec_createJob (s : State) : exec (.createJob jobno b0 b1 b2 b3) s =
    serve 1 (fun _ => true) (fun _ => 128) (createAnswer jobno b0 b1 b2 b3) s := rfl

theorem createAnswer_of_bad {w : Nat} (hw : firstBad (descriptorBad s b) = some w) :
    createAnswer jobno b0 b1 b2 b3 s b = some (.refused w) := by
  simp only [createAnswer, hw]

theorem createAnswer_of_exhausted (hw : firstBad (descriptorBad s b) = none)
    (hfull : ∃ d ∈ dieIds, ∀ k, k < 16 → blockFree s d k = false) : createAnswer jobno b0 b1 b2 b3 s b = some .exhausted := by
  obtain ⟨d, hd, hk⟩ := hfull
  have full : (dieIds.any fun d => (List.range 16).all fun k => !blockFree s d k) = true :=
    List.any_eq_true.2 ⟨d, hd, List.all_eq_true.2 fun k hmem => by rw [hk k (List.mem_range.1 hmem)]; rfl⟩
  simp only [createAnswer, hw, full, if_true]

theorem createAnswer_of_good (hw : firstBad (descriptorBad s b) = none) (hj : s.job? jobno = none)
    (hp : ∀ d ∈ dieIds, blockFree s d ((picksOf b0 b1 b2 b3).get d) = true)
    (hroom : ∀ d ∈ dieIds, ∃ k, k < 16 ∧ blockFree s d k = true) :
    let j := jobFrom b jobno ((picksOf b0 b1 b2 b3).map fun k => 1024 * k)
    createAnswer jobno b0 b1 b2 b3 s b =
      if ((withJob s j).heldAt none (withJob s j).leaderDie j (counterAddr j Config.phaseCounter) 32).isSome then none
      else some (.done (armPhase (withJob s j) j 0) jobno.toNat) := by
  have room : (dieIds.any fun d => (List.range 16).all fun k => !blockFree s d k) = false := by
    refine List.any_eq_false.2 fun d hd hall => ?_
    obtain ⟨k, hk, hfree⟩ := hroom d hd
    have taken := List.all_eq_true.1 hall k (List.mem_range.2 hk)
    rw [hfree] at taken
    cases taken
  have picked : (dieIds.all fun d => blockFree s d ((picksOf b0 b1 b2 b3).get d)) = true := List.all_eq_true.2 hp
  simp only [createAnswer, hw, room, hj, picked, Option.isSome_none, Bool.not_true, Bool.or_self, Bool.false_eq_true, if_false]

/-- The state once the queues of a job are torn and its teardown is under way (R52, R370). -/
def jobTorn (s : State) (b : Block) : State :=
  let no := BitVec.ofNat 32 (b.word 0)
  let s1 := (((s.queues.filter fun k => k.job == no).map fun k => k.q).foldl tearQueue s).updJob no fun j => { j with tearing := true }
  { s1 with card := { s1.card with serving := some { seq := b.seq, cpl := b.cpl, job := no } } }

/-- What TEARDOWN-JOB answers. -/
def teardownAnswer (s : State) (b : Block) : Option Answer :=
  let no := BitVec.ofNat 32 (b.word 0)
  let qs := (s.queues.filter fun k => k.job == no).map fun k => k.q
  if bits (b.word 0) 63 32 ≠ 0 then some (.refused 0)
  else if !((qs.flatMap (queueLaunches s)).all (cancelReady s)) || !(s.queues.all fun k => k.job != no || queueReady s k) then none
  else match s.job? no with
    | none => some (.refused 0)
    | some _ => some (.begun (jobTorn s b))

theorem exec_teardownJob (s : State) : exec .teardownJob s = serve 2 (fun _ => true) (fun _ => 8) teardownAnswer s := rfl

theorem bits_eq_zero_of_lt {v hi lo : Nat} (h : v < 2 ^ lo) : bits v hi lo = 0 := by
  rw [bits, Nat.div_eq_of_lt h, Nat.zero_mod]

theorem bits_top_ne_zero {v hi lo : Nat} (hle : lo ≤ hi + 1) (hlo : 2 ^ lo ≤ v) (hhi : v < 2 ^ (hi + 1)) : bits v hi lo ≠ 0 := by
  have small : v / 2 ^ lo < 2 ^ (hi + 1 - lo) := by
    rw [Nat.div_lt_iff_lt_mul (by positivity), ← pow_add, Nat.sub_add_cancel hle]
    exact hhi
  rw [bits, Nat.mod_eq_of_lt small]
  exact (Nat.div_pos hlo (by positivity)).ne'

theorem teardownAnswer_of_bad (hlo : 2 ^ 32 ≤ b.word 0) (hhi : b.word 0 < 2 ^ 64) : teardownAnswer s b = some (.refused 0) :=
  if_pos (bits_top_ne_zero (by decide) hlo hhi)

/-- The queues of a job may be torn (R309, R369, R370). -/
theorem teardownAnswer_of_free (hlt : b.word 0 < 2 ^ 32)
    (hl : ∀ q ∈ (s.queues.filter fun k => k.job == BitVec.ofNat 32 (b.word 0)).map fun k => k.q,
      ∀ h ∈ queueLaunches s q, cancelReady s h = true)
    (hq : ∀ k ∈ s.queues, k.job = BitVec.ofNat 32 (b.word 0) → queueReady s k = true) :
    teardownAnswer s b = match s.job? (BitVec.ofNat 32 (b.word 0)) with
      | none => some (.refused 0)
      | some _ => some (.begun (jobTorn s b)) := by
  have launches : ((((s.queues.filter fun k => k.job == BitVec.ofNat 32 (b.word 0)).map fun k => k.q).flatMap (queueLaunches s)).all
      (cancelReady s)) = true := by
    refine List.all_eq_true.2 fun h hmem => ?_
    obtain ⟨q, hqm, hhm⟩ := List.mem_flatMap.1 hmem
    exact hl q hqm h hhm
  have ready : (s.queues.all fun k => k.job != BitVec.ofNat 32 (b.word 0) || queueReady s k) = true := by
    refine List.all_eq_true.2 fun k hk => ?_
    by_cases hjob : k.job = BitVec.ofNat 32 (b.word 0)
    · rw [hq k hk hjob, Bool.or_true]
    · rw [bne_iff_ne.2 hjob, Bool.true_or]
  unfold teardownAnswer
  rw [if_neg (not_not.2 (bits_eq_zero_of_lt hlt))]
  refine (if_neg (by rw [launches, ready]; decide)).trans ?_
  cases s.job? (BitVec.ofNat 32 (b.word 0)) <;> rfl

/-! A job that is removed (R52, log 47). -/

theorem jobs_removeJob (s : State) (j : Job) : (removeJob s j).jobs = s.jobs.filter fun k => k.no != j.no := rfl

/-- A tile core that keeps nothing of a job's address space. -/
def forgetJob (no : Word) (k : TileCore) : TileCore :=
  { k with tlb := k.tlb.filter (fun e => e.job != no), text := k.text.filter (fun e => e.job != no)
           lastJob := if k.lastJob == some no then none else k.lastJob }

theorem State.core_of_cores {s1 : State} (h : s1.cores = s.cores) (t : Core) : s1.core t = s.core t := by
  simp only [State.core, h]

theorem core_removeJob (s : State) (j : Job) (t : Core) : (removeJob s j).core t = forgetJob j.no (s.core t) := by
  have cores : (removeJob s j).cores =
      ((clearBlocks { s with jobs := s.jobs.filter fun k => k.no != j.no } j.dsb).allCores (forgetJob j.no)).cores := rfl
  rw [State.core_of_cores cores, State.core_allCores]
  rfl

theorem exec_jobTeardownComplete {r : Request} {j : Job} (hs : s.card.serving = some r) (hj : s.job? r.job = some j) :
    exec .jobTeardownComplete s =
      if !hostReady s || jobRuns s r.job then .next s else .next (finishRequest (removeJob s j) r.cpl r.seq .done 0 0) := by
  show execJobTeardownComplete s = _
  simp only [execJobTeardownComplete, hs, hj, notDue]

/-! Queues (R346, R370). -/

/-- The queue that a REGISTER-QUEUE's body describes. -/
def queueOf (b : Block) : Queue :=
  { q := BitVec.ofNat 8 (b.word 0), job := BitVec.ofNat 32 (bits (b.word 6) 63 32), ring := b.word 8, state := b.word 7
    lg := bits (b.word 6) 31 27, shadow := Vector.replicate 32 0 }

/-- The state with the queue, its block written where that can be (R346, R496). -/
def registered (s : State) (b : Block) : State :=
  let s1 := { s with queues := s.queues ++ [queueOf b] }
  match writeBlock s1 (BitVec.ofNat 8 (b.word 0)) with
  | .ok s2 => s2
  | .error _ => s1.updQueue (BitVec.ofNat 8 (b.word 0)) fun k => { k with lostWrite := true }

/-- What REGISTER-QUEUE answers. -/
def registerAnswer (s : State) (b : Block) : Option Answer :=
  some <| checkWords (queueBad s b) (if (s.queue? (BitVec.ofNat 8 (b.word 0))).isSome then .busy else .done (registered s b) 0)

/-- A queue's state block is within reach (R247, R423). -/
def blockFreeFor (s : State) (b : Block) : Bool :=
  (s.job? (BitVec.ofNat 32 (bits (b.word 6) 63 32))).all fun j => s.unheld none s.leaderDie j (b.word 7) 512

theorem exec_registerQueue (s : State) : exec .registerQueue s = serve 3 (blockFreeFor s) (fun _ => 72) registerAnswer s := rfl

theorem registerAnswer_of_bad {w : Nat} (hw : firstBad (queueBad s b) = some w) : registerAnswer s b = some (.refused w) := by
  simp only [registerAnswer, checkWords, hw]

theorem registerAnswer_of_busy {k : Queue} (hw : firstBad (queueBad s b) = none)
    (hk : s.queue? (BitVec.ofNat 8 (b.word 0)) = some k) : registerAnswer s b = some .busy := by
  simp only [registerAnswer, checkWords, hw, hk, Option.isSome_some, if_true]

theorem registerAnswer_of_new (hw : firstBad (queueBad s b) = none) (hk : s.queue? (BitVec.ofNat 8 (b.word 0)) = none) :
    registerAnswer s b = some (.done (registered s b) 0) := by
  simp only [registerAnswer, checkWords, hw, hk, Option.isSome_none, Bool.false_eq_true, if_false]

/-- What TEARDOWN-QUEUE answers. -/
def queueAnswer (s : State) (b : Block) : Option Answer :=
  let q := BitVec.ofNat 8 (b.word 0)
  if bits (b.word 0) 63 8 != 0 || (s.queue? q).isNone then some (.refused 0)
  else if !((queueLaunches s q).all (cancelReady s)) || !(s.queue? q).all (queueReady s) then none
  else some (.done (tearQueue s q) 0)

theorem exec_teardownQueue (s : State) : exec .teardownQueue s = serve 4 (fun _ => true) (fun _ => 8) queueAnswer s := rfl

theorem queueAnswer_of_bad (hlo : 256 ≤ b.word 0) (hhi : b.word 0 < 2 ^ 64) : queueAnswer s b = some (.refused 0) := by
  have top : bits (b.word 0) 63 8 ≠ 0 := bits_top_ne_zero (by decide) hlo hhi
  exact if_pos (by rw [bne_iff_ne.2 top, Bool.true_or])

theorem queueAnswer_of_ready {k : Queue} (hlt : b.word 0 < 256) (hk : s.queue? (BitVec.ofNat 8 (b.word 0)) = some k)
    (hr : queueReady s k = true) (hl : ∀ h ∈ queueLaunches s (BitVec.ofNat 8 (b.word 0)), cancelReady s h = true) :
    queueAnswer s b = some (.done (tearQueue s (BitVec.ofNat 8 (b.word 0))) 0) := by
  have low : bits (b.word 0) 63 8 = 0 := bits_eq_zero_of_lt hlt
  simp only [queueAnswer, low, hk, hr, List.all_eq_true.2 hl, bne_self_eq_false, Option.isNone_some, Option.all_some, Bool.not_true,
    Bool.or_self, Bool.false_eq_true, if_false]

end

end Sys2Proof.Machine

namespace Sys2Proof

open Sys2Proof.Machine

/-- Settles O58: the mailbox by its guards, and each request by `serve_of_head` and what its words answer. -/
theorem jobAndQueueRequests : Obligations.JobAndQueueRequests := by
  refine ⟨⟨fun s addr => ?mailbox, fun s a rest hm hr => ?requests⟩, fun s r j hs hj => ?teardown⟩
  case mailbox =>
    intro most
    have legal (h7 : s.card.stage = 7) (h64 : addr.toNat % 64 = 0) (hlen : s.card.mailbox.length < most) :
        mailboxRefused s addr = false := by
      have room : decide (s.card.mailbox.length ≥ (if s.card.serving.isSome then 65 else 64)) = false := decide_eq_false (not_le.2 hlen)
      rw [mailboxRefused, h7, h64, room]
      rfl
    refine ⟨fun hbad => exec_supervisorMailbox_of_refused ?_,
      fun h7 h64 hlen hq => exec_supervisorMailbox_of_queued (legal h7 h64 hlen) hq,
      fun h7 h64 hq hready => ?head⟩
    · rcases hbad with h | h | h
      · rw [mailboxRefused, bne_iff_ne.2 h, Bool.true_or, Bool.true_or]
      · rw [mailboxRefused, bne_iff_ne.2 h, Bool.or_true, Bool.true_or]
      · have full : decide (s.card.mailbox.length ≥ (if s.card.serving.isSome then 65 else 64)) = true := decide_eq_true h
        rw [mailboxRefused, full, Bool.or_true]
    case head =>
      dsimp only
      have room : s.card.mailbox.length < most := by
        rw [hq]
        show 0 < if s.card.serving.isSome then 65 else 64
        split <;> decide
      have run := exec_supervisorMailbox_of_head (legal h7 h64 room) hq hready
      refine ⟨fun ⟨h1, h14⟩ => ?_, fun hres => ⟨_, run, ?_⟩⟩
      · have known : knownCode (blockAt s addr).code = true := by
          rw [knownCode, decide_eq_true h1, decide_eq_true h14]
          rfl
        rw [dropReserved_of_known known] at run
        exact run
      · have reserved : knownCode (blockAt s addr).code = false := by
          simp only [knownCode, Bool.and_eq_false_iff, decide_eq_false_iff_not]
          omega
        exact dropReserved_of_reserved reserved
  case requests =>
    intro b served answers
    have any {code : Nat} (hc : b.code = code) (hk : knownCode code = true) : AtHead s a rest code fun _ => true := ⟨hm, hr, hk, hc, rfl⟩
    have good {i : Instr} {code len : Nat} {which : Block → Bool} {f : State → Block → Option Answer} {x : Option Answer}
        (hi : exec i s = serve code which (fun _ => len) f s) (hb : served code len) (hk : knownCode code = true) (hw : which b = true)
        (hx : f s b = x) : exec i s = b.answered s x := by
      obtain ⟨hc, hok, hl⟩ := hb
      have head : AtHead s a rest code which := ⟨hm, hr, hk, hc, hw⟩
      exact hi.trans ((serve_of_good head hok hl).trans (congrArg (b.answered s) hx))
    refine ⟨fun hc => exec_calendarRequest_of_bad (any hc rfl), fun hc => exec_attest_of_bad (any hc rfl),
      fun jobno b0 b1 b2 b3 hb => ?create, fun hb => ?teardownJob, fun hb hfree => ?register, fun hb => ?teardownQueue⟩
    case create =>
      intro i picks
      refine ⟨fun w hw => good (exec_createJob s) hb rfl rfl (createAnswer_of_bad hw),
        fun hw hfull => good (exec_createJob s) hb rfl rfl (createAnswer_of_exhausted hw hfull),
        fun hw hj hp hroom => ?_⟩
      intro j s1
      have made := createAnswer_of_good (b := b) hw hj hp hroom
      refine ⟨fun hn => good (exec_createJob s) hb rfl rfl (made.trans (if_neg ?_)),
        fun hn => good (exec_createJob s) hb rfl rfl (made.trans (if_pos ?_))⟩
      · exact ne_true_of_eq_false (Option.isSome_eq_false_iff.2 (Option.isNone_iff_eq_none.2 hn))
      · exact Option.isSome_iff_ne_none.2 hn
    case teardownJob =>
      intro no
      refine ⟨fun hlo hhi => good (exec_teardownJob s) hb rfl rfl (teardownAnswer_of_bad hlo hhi), ?_⟩
      intro qs free
      refine ⟨fun hlt hj hf => ?_, fun j hlt hj hf => ?_⟩
      · have gone : teardownAnswer s b = some (.refused 0) := (teardownAnswer_of_free hlt hf.1 hf.2).trans (by rw [hj])
        exact good (exec_teardownJob s) hb rfl rfl gone
      · have begun : teardownAnswer s b = some (.begun (jobTorn s b)) := (teardownAnswer_of_free hlt hf.1 hf.2).trans (by rw [hj])
        exact good (exec_teardownJob s) hb rfl rfl begun
    case register =>
      have within : blockFreeFor s b = true := by
        rw [blockFreeFor, Option.all_eq_true]
        exact hfree
      intro q
      refine ⟨fun w hw => good (exec_registerQueue s) hb rfl within (registerAnswer_of_bad hw),
        fun k hw hk => good (exec_registerQueue s) hb rfl within (registerAnswer_of_busy hw hk),
        fun hw hk => ?_⟩
      intro s1
      have run := good (exec_registerQueue s) hb rfl within (registerAnswer_of_new hw hk)
      refine ⟨fun s2 hs2 => ?_, fun c hc => ?_⟩
      · have block : registered s b = s2 := by
          have written : writeBlock { s with queues := s.queues ++ [queueOf b] } (BitVec.ofNat 8 (b.word 0)) = .ok s2 := hs2
          simp only [registered, written]
        rw [block] at run
        exact run
      · have block : registered s b = s1.updQueue q fun k => { k with lostWrite := true } := by
          have lost : writeBlock { s with queues := s.queues ++ [queueOf b] } (BitVec.ofNat 8 (b.word 0)) = .error c := hc
          simp only [registered, lost]
          rfl
        rw [block] at run
        exact run
    case teardownQueue =>
      exact ⟨fun hlo hhi => good (exec_teardownQueue s) hb rfl rfl (queueAnswer_of_bad hlo hhi),
        fun k hlt hk hready hl => good (exec_teardownQueue s) hb rfl rfl (queueAnswer_of_ready hlt hk hready hl)⟩
  case teardown =>
    have run := exec_jobTeardownComplete hs hj
    refine ⟨fun h => run.trans (if_pos ?_), fun hruns hready => run.trans (if_neg ?_), jobs_removeJob s j, fun t => ?_⟩
    · rcases h with h | h <;> simp [h]
    · simp [hruns, hready]
    · rw [core_removeJob]
      exact ⟨rfl, rfl⟩

end Sys2Proof
end

section
/-! PROOFS. Words that the spec encodes itself (R75, R79, R95, R96, R197, R396, R433). -/

namespace Sys2Proof

/-- Settles O1: each word is closed, and the decoder is run on it. -/
theorem workedWords : Obligations.WorkedWords := by
  unfold Obligations.WorkedWords
  decide

end Sys2Proof
end

section
/-! PROOFS. Text fetches (R78) and the count of translation-cache misses (R446): a fetch whose address the tile core's own translation
cache does not hold raises counter 12 of the strand. -/

namespace Sys2Proof.Machine

/-- A walk that the tile core's translation cache misses counts the miss in the strand (R446). -/
theorem strand_touchWalk_of_miss {s : State} {t : Core} {j : Job} {va : Nat} (h : tlbFind (s.core t).tlb j.no va = none) :
    (touchWalk s t j va).strand t = (s.strand t).map (·.count 12 1) := by
  have lines := State.cores_foldl (f := fun s pa => s.touch (s.anyLeaf pa) false) (fun s pa => State.cores_touch s _ _)
    (walkReads s (some t) (dieOf t) j va) s
  simp only [touchWalk, h, Option.isSome_none, Bool.false_eq_true, if_false, State.strand_updStrand, if_true]
  rw [State.strand, State.core, lines]
  rfl

/-- Where a cache holds the leaf, a walk reads nothing that could be held. -/
theorem walkGate_of_cached {s : State} {t : Core} {part : Nat} {j : Job} {va : Nat}
    (h : (tlbFind (s.die (dieOf t)).tlb j.no va).isSome = true) : walkGate s t part j va = .ok () := by
  have reads : walkReads s (some t) (dieOf t) j va = [] := by simp only [walkReads, h, Bool.or_true, Bool.true_or, if_true]
  simp only [walkGate, reads, List.find?_nil]

/-- The text cache of a tile core with the word of an address fetched for a job (R78). -/
def TileCore.fetched (k : TileCore) (job : Word) (va : Nat) (word : Word) : TileCore :=
  { k with text := ⟨job, va, word⟩ :: k.text.filter fun x => !(x.job == job && x.va == va) }

section
variable {s : State} {tile : Core} {addr : DWord} {st : Strand} {j : Job} {l : Leaf}

/-- A text fetch of a mapped word that nothing holds and that is not poisoned caches it (R78). -/
theorem exec_textFetch_of_served (hs : s.strand tile = some st) (hj : s.job? st.job = some j) (ha : addr.toNat % 4 = 0)
    (hw : walkGate s tile 7 j addr.toNat = .ok ())
    (hl : translate s (some tile) (dieOf tile) j addr.toNat (if addr.toNat < tableBase st then .fetch else .read) = .ok l)
    (hr : requestGate s tile 7 l = .ok ()) (hp : (s.readPhys l.key l.pa 4).2 = false) :
    exec (.textFetch tile addr) s = .next (((touchWalk s tile j addr.toNat).touch l false).updCore tile fun k =>
      k.fetched st.job addr.toNat (BitVec.ofNat 32 (natOfBytes (s.readPhys l.key l.pa 4).1))) := by
  show execTextFetch tile addr s = _
  have open7 : (walkGate s tile fetchPart j addr.toNat).toOption.isNone = false := by rw [fetchPart, hw]; rfl
  have served : (requestGate s tile fetchPart l).toOption.isNone = false := by rw [fetchPart, hr]; rfl
  simp only [execTextFetch, hs, hj, ha, open7, hl, served, hp, bne_self_eq_false, Bool.or_self, Bool.false_eq_true, if_false]
  rfl

/-- It leaves the strand as its walk has left it. -/
theorem strand_fetched {s1 : State} {word : Word} :
    ((s1.touch l false).updCore tile fun k => k.fetched st.job addr.toNat word).strand tile = s1.strand tile := by
  simp only [State.strand, State.core_updCore, if_true, TileCore.fetched]
  rw [State.core, State.cores_touch]
  rfl

end

/-! A fetch that misses. -/

/-- The leaf of the text page of the placed program (log 1). -/
def textLeaf : TlbEntry where
  job := 1
  vpage := 2 ^ 28
  lg := 16
  pbase := 0x200000
  dm := 0
  key := 0
  w := true
  r := true
  x := true
  nc := false

/-- The strand of the placed program, its counters at zero. -/
def freshStrand : Strand := Strand.placed (demoLaunch 1) demoJob 0

/-- The address of its first word, the text base of `demoLaunch`. -/
def firstWordAt : DWord := 0x100000000000

/-- The package in a tick between two slots, with that strand on tile core 0: the translation cache of its die holds the leaf of its
text, that of the tile core holds none. -/
def missState : State :=
  ({ State.reset with psc := 20000, jobs := [demoJob], keys := [(0, 0)] }.updDie 0 fun d => { d with tlb := [textLeaf] }).setStrand 0
    freshStrand

theorem strand_missState : missState.strand 0 = some freshStrand := by rw [missState, State.strand_setStrand, if_pos rfl]

theorem job_missState : missState.job? freshStrand.job = some demoJob := by decide

theorem walkGate_missState : walkGate missState 0 7 demoJob firstWordAt.toNat = .ok () := walkGate_of_cached (by decide)

theorem translate_missState : translate missState (some 0) (dieOf 0) demoJob firstWordAt.toNat
    (if firstWordAt.toNat < tableBase freshStrand then .fetch else .read) = .ok ⟨0x200000, 0, 0, false⟩ := by decide

theorem requestGate_missState : requestGate missState 0 7 ⟨0x200000, 0, 0, false⟩ = .ok () := by decide

theorem readPhys_missState : (missState.readPhys 0 0x200000 4).2 = false := by decide

/-- The miss shows in the strand. -/
theorem freshStrand_counted : freshStrand.count 12 1 ≠ freshStrand := by
  intro same
  exact absurd (congrArg (fun p : Strand => p.perf.get 12) same) (by decide)

end Sys2Proof.Machine

namespace Sys2Proof

open Sys2Proof.Machine

/-- Refutes O48: the fetch of the first word of `missState` is mapped, served and cached, but the tile core's translation cache misses, and
R446 has the strand count that in counter 12, so that the strand after the fetch is not the one before it. -/
theorem not_fetchWalkAndHome : ¬ Obligations.FetchWalkAndHome := by
  unfold Obligations.FetchWalkAndHome
  rintro ⟨fetches, -⟩
  have aligned : firstWordAt.toNat % 4 = 0 := by decide
  obtain ⟨fetch, -⟩ := fetches missState 0 demoJob firstWordAt
  obtain ⟨-, admitted⟩ := fetch freshStrand strand_missState job_missState aligned
  obtain ⟨-, mapped⟩ := admitted walkGate_missState
  obtain ⟨-, -, cached⟩ := mapped _ translate_missState
  obtain ⟨t, run, -, kept, -⟩ := cached requestGate_missState readPhys_missState
  rw [exec_textFetch_of_served strand_missState job_missState aligned walkGate_missState translate_missState requestGate_missState
    readPhys_missState] at run
  rw [← Host.Outcome.next.inj run, strand_fetched, strand_touchWalk_of_miss (by decide), strand_missState] at kept
  exact freshStrand_counted (Option.some.inj kept)

end Sys2Proof
end

section
/-! PROOFS. The access engine's register words (R104, R264 to R269): what a source gives, the equation of each word's operation, the range
of HLD's record, and what the reads of HLD leave of the state. -/

namespace Sys2Proof.Machine

/-! Sources of the access engine (R264). -/

section
variable {st st1 : Strand} {a : Code} {x : PWord} {v : Queued PWord} {rest : List (Queued PWord)}

theorem srcA_of_register (h : a.toNat < 16) : srcA st a = .ok (st.addrs.get ⟨a.toNat, h⟩, st) := dif_pos h

theorem popC2a_of_cons (h : st.c2a = v :: rest) (peek : Bool) :
    popC2a st peek = .ok (v.val, { st.took .a [v] with c2a := if peek then v :: rest else rest }) := by
  cases peek <;> simp [popC2a, takeOne, takeN, h, bind, Except.bind]

/-- A peek leaves the queue. -/
theorem srcA_peek (h : st.c2a = v :: rest) : srcA st 25 = .ok (v.val, st.took .a [v]) := by
  show popC2a st true = _
  rw [popC2a_of_cons h, if_pos rfl, ← h]
  rfl

theorem popC2a_of_empty (h : st.c2a = []) (peek : Bool) : popC2a st peek = .error (.wait .pop) := by
  simp [popC2a, takeOne, takeN, h, bind, Except.bind, await]

theorem srcA_of_other (h : 16 ≤ a.toNat) (h24 : a ≠ 24) (h25 : a ≠ 25) : srcA st a = .error (.fault .illegal) := by
  simp only [srcA, dif_neg (Nat.not_lt.mpr h), if_neg h24, if_neg h25, raise]

theorem needSrcA_of_srcA (h : srcA st a = .ok (x, st1)) : needSrcA a = .ok () := by
  have known : (decide (a.toNat < 16) || a == 24 || a == 25) = true := by
    by_contra other
    simp only [Bool.or_eq_true, decide_eq_true_eq, beq_iff_eq, not_or, Nat.not_lt] at other
    obtain ⟨⟨hlow, h24⟩, h25⟩ := other
    rw [srcA_of_other hlow h24 h25] at h
    cases h
  simp only [needSrcA, need, known, if_true]

end

theorem role16_of_lt {d : Code} (h : d.toNat < 16) : role16 d = .ok ⟨d.toNat, h⟩ := dif_pos h

theorem role16_of_le {d : Code} (h : 16 ≤ d.toNat) : role16 d = .error (.fault .illegal) := dif_neg (Nat.not_lt.mpr h)

theorem role8_of_lt {d : Code} (h : d.toNat < 8) : role8 d = .ok ⟨d.toNat, h⟩ := dif_pos h

theorem role8_of_le {d : Code} (h : 8 ≤ d.toNat) : role8 d = .error (.fault .illegal) := dif_neg (Nat.not_lt.mpr h)

/-! Address arithmetic (R265): each word writes its result to the address register that it names. -/

section
variable {s : State} {st st1 st2 : Strand} {d a b : Code} {x y : PWord}

theorem addrImm_eq (v : DWord) : addrImm d v st = (role16 d).map fun k => st.setA k ⟨v, false⟩ := rfl

theorem addrUnary_eq {f : DWord → DWord} (ha : srcA st a = .ok (x, st1)) :
    addrUnary f d a st = (role16 d).map fun k => st1.setA k ⟨f x.val, x.poison⟩ := by
  simp only [addrUnary, needSrcA_of_srcA ha, ha]
  rfl

theorem addrBinary_eq {f : DWord → DWord → DWord} (ha : srcA st a = .ok (x, st1)) (hb : srcA st1 b = .ok (y, st2)) :
    addrBinary f d a b st = (role16 d).map fun k => st2.setA k ⟨f x.val y.val, x.poison || y.poison⟩ := by
  simp only [addrBinary, needSrcA_of_srcA ha, needSrcA_of_srcA hb, ha, hb, bind, Except.bind]
  rfl

/-- A word of the access engine that writes a value to an address register, and is ILLEGAL where its code names none (R91). -/
theorem writesAddress {i : Instr} {len : Nat} {f : Strand → Except Halt Strand} {v : PWord} (hi : exec i s = strandWord .a len f s)
    (hr : s.ready .a len st) (hf : f st = (role16 d).map fun k => st1.setA k v) :
    (∀ h : d.toNat < 16, completes (exec i s) (s.passedAs .a len (st1.setA ⟨d.toNat, h⟩ v))) ∧
    (16 ≤ d.toNat → raises i s .a 1 .illegal) := by
  refine ⟨fun h => hi.trans (strandWord_ok hr ?_), fun h => hi.trans (strandWord_fault hr ?_)⟩
  · rw [hf, role16_of_lt h]; rfl
  · rw [hf, role16_of_le h]; rfl

end

/-! Shape registers (R266). -/

section
variable {st st1 : Strand} {d a f : Code} {n : BitVec 3} {x : PWord}

theorem hsetOp_of_poison (hd : d.toNat < 16) (ha : srcA st a = .ok (x, st1)) (hp : x.poison = true) :
    hsetOp d a n st = .error (.fault .poisonSync) := by
  simp only [hsetOp, role16_of_lt hd, needSrcA_of_srcA ha, ha, clean_of_poison hp, bind, Except.bind]

/-- HSET of a clean source: a field that cannot hold the value is ILLEGAL. -/
theorem hsetOp_of_clean (hd : d.toNat < 16) (ha : srcA st a = .ok (x, st1)) (hp : x.poison = false) : hsetOp d a n st =
    if n.toNat < 4 then
      if 2 ^ 32 ≤ x.val.toNat then .error (.fault .illegal)
      else .ok (st1.setH ⟨d.toNat, hd⟩ ((st1.shapes.get ⟨d.toNat, hd⟩).setField n.toNat (x.val.setWidth 32) 0))
    else if x.val.toInt < -(2 ^ 47) ∨ x.val.toInt ≥ 2 ^ 47 then .error (.fault .illegal)
    else .ok (st1.setH ⟨d.toNat, hd⟩ ((st1.shapes.get ⟨d.toNat, hd⟩).setField n.toNat 0 (x.val.setWidth 48))) := by
  simp only [hsetOp, role16_of_lt hd, needSrcA_of_srcA ha, ha, clean_of_clean hp, bind, Except.bind]
  rfl

theorem hsetwOp_of_field (hd : d.toNat < 16) (hf : f.toNat < 8) (imm : Word) : hsetwOp d f imm st =
    .ok (st.setH ⟨d.toNat, hd⟩ ((st.shapes.get ⟨d.toNat, hd⟩).setField f.toNat imm (imm.signExtend 48))) := by
  simp only [hsetwOp, role16_of_lt hd, role8_of_lt hf, bind, Except.bind]

theorem hsetwOp_of_no_field (hd : d.toNat < 16) (hf : 8 ≤ f.toNat) (imm : Word) :
    hsetwOp d f imm st = .error (.fault .illegal) := by
  simp only [hsetwOp, role16_of_lt hd, role8_of_le hf, bind, Except.bind]

theorem Shape.setField_extent {k : Nat} (h : Shape) (hk : k < 4) (e : Word) (v : BitVec 48) :
    h.setField k e v = { h with ext := h.ext.set k e } := dif_pos hk

theorem Shape.setField_stride {k : Nat} (h : Shape) (hlo : 4 ≤ k) (hk : k - 4 < 4) (e : Word) (v : BitVec 48) :
    h.setField k e v = { h with stride := h.stride.set (k - 4) v } :=
  (dif_neg (Nat.not_lt.mpr hlo)).trans (dif_pos hk)

/-- HGET: an extent zero-extended, a stride sign-extended. -/
theorem hgetOp_eq (hd : d.toNat < 16) (ha : a.toNat < 16) : hgetOp d a n st =
    .ok (st.setA ⟨d.toNat, hd⟩ ⟨if n.toNat < 4 then ((st.shapes.get ⟨a.toNat, ha⟩).ext.toList.getD n.toNat 0).setWidth 64
      else ((st.shapes.get ⟨a.toNat, ha⟩).stride.toList.getD (n.toNat - 4) 0).signExtend 64, false⟩) := by
  simp only [hgetOp, role16_of_lt hd, role16_of_lt ha, bind, Except.bind]

theorem getD_toList_eq_get {α : Type} {m k : Nat} (v : Vector α m) (hk : k < m) (z : α) : v.toList.getD k z = v.get ⟨k, hk⟩ := by
  simp [List.getD, hk, Vector.get]

end

/-! Lines that come into shared SRAM or leave it move what memory holds, and nothing of a tile core, a job or the turn under way. -/

/-- The state is as it was, but for memory, the dies' writer directories, tags, shared SRAM, what writes wrote over, and free values. -/
def State.LinesMoved (s s1 : State) : Prop :=
  ∃ mem dies tags sram past draws, s1 = { s with mem, dies, tags, sram, past, draws }

section
variable {s s1 s2 : State}

theorem State.LinesMoved.refl (s : State) : s.LinesMoved s := ⟨_, _, _, _, _, _, rfl⟩

theorem State.LinesMoved.trans (h : s.LinesMoved s1) (k : s1.LinesMoved s2) : s.LinesMoved s2 := by
  obtain ⟨_, _, _, _, _, _, rfl⟩ := h
  obtain ⟨_, _, _, _, _, _, rfl⟩ := k
  exact ⟨_, _, _, _, _, _, rfl⟩

theorem State.LinesMoved.focusTile (h : s.LinesMoved s1) : s1.focusTile = s.focusTile := by
  obtain ⟨_, _, _, _, _, _, rfl⟩ := h
  rfl

theorem State.LinesMoved.foldl {α : Type} {f : State → α → State} (hf : ∀ (s : State) (a : α), s.LinesMoved (f s a)) :
    ∀ (l : List α) (s : State), s.LinesMoved (l.foldl f s)
  | [], s => .refl s
  | a :: l, s => (hf s a).trans (State.LinesMoved.foldl hf l (f s a))

theorem State.LinesMoved.ite {c : Prop} [Decidable c] (h : s.LinesMoved s1) (k : s.LinesMoved s2) :
    s.LinesMoved (if c then s1 else s2) := by
  split <;> assumption

theorem linesMoved_of_spillTag {line : Nat} (h : spillTag s line = some s1) : s.LinesMoved s1 := by
  unfold spillTag at h
  dsimp only at h
  split at h
  · cases h; exact .refl s
  split at h
  · cases h; exact ⟨_, _, _, _, _, _, rfl⟩
  split at h
  · cases h
  · cases h
    split <;> exact ⟨_, _, _, _, _, _, rfl⟩

theorem State.linesMoved_evict (s : State) (line : Nat) : s.LinesMoved (s.evict line) := by
  unfold State.evict
  split
  next x s1 _ hs =>
    have gone : s.LinesMoved { s1 with sram := s1.sram.filter fun y => y.line != line } :=
      (linesMoved_of_spillTag hs).trans ⟨_, _, _, _, _, _, rfl⟩
    exact .ite gone (gone.trans (.foldl (fun s i => .ite (.refl s) ⟨_, _, _, _, _, _, rfl⟩) _ _))
  next => exact .refl s

theorem State.linesMoved_fill (s : State) (key : BitVec 12) (line : Nat) : s.LinesMoved (s.fill key line) := by
  unfold State.fill
  dsimp only
  have add {s : State} {l : List SramLine} : s.LinesMoved { s with sram := l } := ⟨_, _, _, _, _, _, rfl⟩
  have out := s.linesMoved_evict line
  generalize s.evict line = s0 at out ⊢
  have chosen (n : Nat) : s.LinesMoved (s0.draw.2.evict n) :=
    out.trans (State.LinesMoved.trans ⟨_, _, _, _, _, _, rfl⟩ (State.linesMoved_evict _ n))
  exact .ite (.refl s) (.ite (.ite out (out.trans add)) (.ite (.ite out (out.trans add))
    (.ite (.ite (chosen _) ((chosen _).trans add)) (chosen _))))

theorem State.linesMoved_touch (s : State) (l : Leaf) (w : Bool) : s.LinesMoved (s.touch l w) :=
  .ite (.ite (s.linesMoved_evict _) (.refl s)) (s.linesMoved_fill _ _)

end

/-! Elements that the access engine reads (R262) leave the turn under way. -/

section
variable {s s1 : State} {t : Core} {st : Strand} {e : Eng} {bs : List Byte} {p : Bool}

theorem State.focusTile_touchWalk (s : State) (t : Core) (j : Job) (va : Nat) : (touchWalk s t j va).focusTile = s.focusTile := by
  have lines := (State.LinesMoved.foldl (fun s pa => State.linesMoved_touch s (s.anyLeaf pa) false)
    (walkReads s (some t) (dieOf t) j va) s).focusTile
  unfold touchWalk
  dsimp only
  split <;> exact lines

theorem State.focusTile_looked (s : State) (t : Core) (e : Eng) (l : Look) : (s.looked t e l).focusTile = s.focusTile := by
  unfold State.looked
  dsimp only
  split <;> rfl

theorem focusTile_of_spadRead {a n : Nat} (h : spadRead s t e a n = (s1, bs, p)) : s1.focusTile = s.focusTile := by
  unfold spadRead at h
  dsimp only at h
  split at h
  · cases h; rfl
  · cases h; exact s.focusTile_looked t e _

theorem focusTile_of_elemRead {mode : BitVec 1} {va n : Nat} (h : elemRead s t st e mode va n = .ok (s1, bs, p)) :
    s1.focusTile = s.focusTile := by
  unfold elemRead at h
  split at h
  · exact focusTile_of_spadRead (Except.ok.inj h)
  split at h
  · cases h
  next j _ =>
    simp only [bind, Except.bind] at h
    split at h
    · cases h
    split at h
    · cases h
    split at h
    · cases h
    split at h
    · cases h
    split at h
    all_goals
      split at h
      · cases h
      · cases h
        rw [State.focusTile_looked, (State.linesMoved_touch _ _ _).focusTile, State.focusTile_touchWalk]

theorem focusTile_of_gatherWords {x : PWord} {n : Nat} (h : gatherWords t x n s = .done s1) : s1.focusTile = s.focusTile := by
  induction n generalizing s with
  | zero => cases h; rfl
  | succ n ih =>
    unfold gatherWords at h
    dsimp only at h
    split at h
    · cases h; rfl
    split at h
    next s2 bs p read => exact (ih h).trans (focusTile_of_elemRead (s1 := s2) read)
    · cases h
    · cases h

end

/-! HLD (R268): the range of its record (R263), and what its reads leave. -/

section
variable {b hi : Int}

theorem checkSpan_of_negative (h : b < 0) : checkSpan b b hi = .error (.fault .translation) := by
  rw [checkSpan, if_neg (by omega), if_neg (by unfold Config.spadBytes; omega)]
  rfl

theorem checkSpan_of_past (hb : Config.spadBytes ≤ b) (h : 2 ^ 56 ≤ hi) : checkSpan b b hi = .error (.fault .translation) := by
  rw [checkSpan, if_neg (by omega), if_neg (by omega)]
  rfl

theorem checkSpan_of_crossing (h0 : 0 ≤ b) (hb : b < Config.spadBytes) (h : Config.spadBytes ≤ hi) :
    checkSpan b b hi = .error (.fault .protection) := by
  rw [checkSpan, if_pos ⟨h0, hb⟩, if_neg (by omega)]
  rfl

theorem checkSpan_of_inside (hb : b ≤ hi) (h : 0 ≤ b ∧ hi < Config.spadBytes ∨ Config.spadBytes ≤ b ∧ hi < 2 ^ 56) :
    checkSpan b b hi = .ok () := by
  rcases h with ⟨h0, h1⟩ | h
  · rw [checkSpan, if_pos (by omega), if_pos ⟨h0, h1⟩]
  · rw [checkSpan, if_neg (by omega), if_pos h]

end

theorem State.updStrand_of_strand {s : State} {t : Core} {q : Strand} (h : s.strand t = some q) (f : Strand → Strand) :
    s.updStrand t f = s.setStrand t (f q) := by
  have here : (s.core t).strand = some q := h
  simp only [State.updStrand, State.setStrand, State.updCore, here, Option.map_some]

theorem isLocal_ofInt {b : Int} (h0 : 0 ≤ b) (h : b < Config.spadBytes) : isLocal (BitVec.ofInt 64 b).toNat = true := by
  unfold Config.spadBytes at h
  rw [isLocal, decide_eq_true_eq, BitVec.toNat_ofInt, Config.spadBytes]
  omega

/-- Outside a drain lead or slot, and in one unless the mode is STRICT, a request goes on (R155, R294). -/
theorem strictGate_of_free {s : State} {mode : BitVec 1} (h : (s.slotNow && mode == 1) = false) : strictGate s mode = .ok () := by
  simp only [strictGate, need, h, Bool.not_false, if_true]

section
variable {s s1 : State} {t : Core} {st st1 q : Strand} {d a : Code} {i : BitVec 14} {x : PWord} {addr : Int} {l : Latch}
variable (hd : d.toNat < 16) (ha : srcA st a = .ok (x, st1)) (hp : x.poison = false) (hx : (x.val.toNat : Int) + i.toInt = addr)
include hd ha hp hx

theorem hldStart_of_misaligned (h : addr % 16 ≠ 0) : hldStart d a i st = .error (.fault .align) := by
  subst hx
  simp only [hldStart, role16_of_lt hd, needSrcA_of_srcA ha, ha, clean_of_clean hp, bind, Except.bind, if_pos h]
  rfl

theorem hldStart_of_aligned (h : addr % 16 = 0) :
    hldStart d a i st = (checkSpan addr addr (addr + 47)).map fun _ => (⟨BitVec.ofInt 64 addr, false⟩, st1) := by
  subst hx
  simp only [hldStart, role16_of_lt hd, needSrcA_of_srcA ha, ha, clean_of_clean hp, bind, Except.bind, if_neg (not_not_intro h)]
  rfl

end

section
variable {s s1 : State} {t : Core} {st st1 q : Strand} {d a : Code} {i : BitVec 14} {x : PWord} {c : FaultCode} {l : Latch}

theorem hldOp_of_fault (hl : st.a.latch = none) (h : hldStart d a i st = .error (.fault c)) :
    hldOp d a i s t st = .trap c .atWord s := by
  simp only [hldOp, hl, h, bind, Except.bind]

/-- The strand with HLD begun at an address (R421). -/
def Strand.gathering (st : Strand) (x : PWord) : Strand := { st with a := { st.a with latch := some { addr := x } } }

/-- HLD whose six elements are read: poison among them, an illegal record, or the shape (R104, R268). -/
theorem hldOp_of_gathered (hl : st.a.latch = none) (h : hldStart d a i st = .ok (x, st1))
    (gate : isLocal x.val.toNat = true ∨ strictGate s st.a.slotmode = .ok ())
    (read : gatherWords t x 6 (s.setStrand t (st1.gathering x)) = .done s1)
    (hq : s1.strand t = some q) (hql : q.a.latch = some l) : hldOp d a i s t st =
      if l.buf.any Prod.snd then .trap .poisonSync .atWord s
      else (shapeOfBytes (l.buf.map Prod.fst)).elim (.trap .illegal .atWord s) fun h =>
        .done (s1.setStrand t (if hk : d.toNat < 16 then q.setH ⟨d.toNat, hk⟩ h else q)) := by
  rw [Strand.gathering] at read
  rcases gate with free | free
  all_goals
    simp only [hldOp, hl, h, free, bind, Except.bind, Bool.not_true, Bool.false_eq_true, if_false, ite_self, Option.map_none,
      Option.getD_none, Nat.sub_zero, read, hq, Option.bind_some, hql, Option.map_some, Option.getD_some,
      State.updStrand_of_strand hq]
    cases shapeOfBytes (l.buf.map Prod.fst) <;> rfl

end

/-! AWIN (R269) of a window that no earlier word uses, at an address that may not be a window's base. -/

section
variable {st st1 : Strand} {d a b : Code} {x : PWord} (hb : b.toNat < 16) (hlo : 16 ≤ d.toNat) (hhi : d.toNat < 24)
  (hwait : windowWait st .a [d.toNat % 8] = .ok ()) (ha : srcA st a = .ok (x, st1)) (hp : x.poison = false)
include hb hlo hhi hwait ha hp

theorem awinOp_of_remote (h : Config.spadBytes ≤ x.val.toNat) : awinOp d a b st = .error (.fault .protection) := by
  have remote : isLocal x.val.toNat = false := decide_eq_false (Nat.not_lt.mpr h)
  simp only [awinOp, roleWin, if_pos (And.intro hlo hhi), needSrcA_of_srcA ha, role16_of_lt hb, hwait, ha, clean_of_clean hp, remote,
    bind, Except.bind, Bool.not_false, if_true, raise]

theorem awinOp_of_misaligned (h : x.val.toNat < Config.spadBytes) (h64 : x.val.toNat % 64 ≠ 0) :
    awinOp d a b st = .error (.fault .align) := by
  have inside : isLocal x.val.toNat = true := decide_eq_true h
  simp only [awinOp, roleWin, if_pos (And.intro hlo hhi), needSrcA_of_srcA ha, role16_of_lt hb, hwait, ha, clean_of_clean hp, inside,
    bind, Except.bind, Bool.not_true, Bool.false_eq_true, if_false, if_pos h64, raise]

end

end Sys2Proof.Machine

namespace Sys2Proof

open Sys2Proof.Machine

/-- Settles O27: the sources by the operand code; the arithmetic by `writesAddress`; the shape fields by the equations of HSET, HSETW and
HGET; HLD by where its record lies (`checkSpan`) and then by what its reads have gathered; AWIN by its address. -/
theorem addressAndShapeWords : Obligations.AddressAndShapeWords := by
  unfold Obligations.AddressAndShapeWords
  refine ⟨fun st a v rest => ?sources, fun s st st1 st2 d a b x y => ?arithmetic, fun s st st1 d a x hd => ?fields,
    fun s s1 st st1 q d a b x l hr hl ha hp => ⟨fun hd i h => ?record, fun hd hb w hlo hhi hwait => ?window⟩⟩
  case sources =>
    exact ⟨srcA_of_register, fun h => ⟨popC2a_of_cons h false, srcA_peek h⟩,
      fun h => ⟨popC2a_of_empty h false, popC2a_of_empty h true⟩, srcA_of_other⟩
  case arithmetic =>
    refine ⟨fun hr => ⟨fun i => ?ali, fun ha => ⟨fun i => ?aaddi, fun i => ?amuli, fun hb => ⟨?aadd, ?asub⟩⟩⟩,
      fun hr => ⟨fun i => ?aliw, fun ha i => ?aaddw⟩⟩
    case ali => exact writesAddress rfl hr (addrImm_eq _)
    case aaddi => exact writesAddress rfl hr (addrUnary_eq ha)
    case amuli => exact writesAddress rfl hr (addrUnary_eq ha)
    case aadd => exact writesAddress rfl hr (addrBinary_eq ha hb)
    case asub => exact writesAddress rfl hr (addrBinary_eq ha hb)
    case aliw => exact writesAddress rfl hr (addrImm_eq _)
    case aaddw => exact writesAddress rfl hr (addrUnary_eq ha)
  case fields =>
    intro k
    refine ⟨fun hr => ⟨fun ha f => ⟨fun hp => ?poisoned, fun hp => ⟨fun hf => ⟨fun hv => ?extent, fun hv => ?wide⟩,
      fun hf h4 => ⟨fun hlo hhi => ?stride, fun hv => ?far⟩⟩⟩, fun f ha => ⟨fun hf => ?getExtent, fun hf h4 => ?getStride⟩⟩,
      fun hr f imm => ⟨fun hf => ?extentW, fun hf h4 => ?strideW, fun hf => ?noField⟩⟩
    case poisoned => exact strandWord_fault hr (hsetOp_of_poison hd ha hp)
    case extent =>
      refine strandWord_ok hr ((hsetOp_of_clean hd ha hp).trans ?_)
      rw [if_pos hf, if_neg (Nat.not_le.mpr hv), Shape.setField_extent _ hf]
    case wide =>
      refine strandWord_fault hr ((hsetOp_of_clean hd ha hp).trans ?_)
      rw [if_pos hf, if_pos hv]
    case stride =>
      refine strandWord_ok hr ((hsetOp_of_clean hd ha hp).trans ?_)
      rw [if_neg (Nat.not_lt.mpr h4), if_neg (by omega), Shape.setField_stride _ h4 hf]
    case far =>
      refine strandWord_fault hr ((hsetOp_of_clean hd ha hp).trans ?_)
      rw [if_neg (Nat.not_lt.mpr h4), if_pos (by omega)]
    case getExtent =>
      refine strandWord_ok hr ((hgetOp_eq hd ha).trans ?_)
      rw [if_pos hf, getD_toList_eq_get _ hf]
    case getStride =>
      refine strandWord_ok hr ((hgetOp_eq hd ha).trans ?_)
      rw [if_neg (Nat.not_lt.mpr h4), getD_toList_eq_get _ hf]
    case extentW =>
      refine strandWord_ok hr ((hsetwOp_of_field hd (by omega) imm).trans ?_)
      rw [Shape.setField_extent _ hf]
    case strideW =>
      refine strandWord_ok hr ((hsetwOp_of_field hd (by omega) imm).trans ?_)
      rw [Shape.setField_stride _ h4 hf]
    case noField => exact strandWord_fault hr (hsetwOp_of_no_field hd hf imm)
  case record =>
    intro addr at_
    have start (h16 : addr % 16 = 0) := hldStart_of_aligned (d := d) hd ha hp (i := i) rfl h16
    have fault {c : FaultCode} (h : hldStart d a i st = .error (.fault c)) : raises (.hld d a i) s .a 1 c :=
      runAs_trap hr (hldOp_of_fault hl h)
    have outside {c : FaultCode} (h16 : addr % 16 = 0) (h : checkSpan addr addr (addr + 47) = .error (.fault c)) :
        raises (.hld d a i) s .a 1 c := fault ((start h16).trans (by rw [h]; rfl))
    refine ⟨fun h => fault (hldStart_of_misaligned hd ha hp rfl h), fun h16 h => outside h16 (checkSpan_of_negative h),
      fun h16 hb h => outside h16 (checkSpan_of_past hb (by omega)),
      fun h16 h0 hb h => outside h16 (checkSpan_of_crossing h0 hb (by omega)), fun h16 range read hq hql => ?gathered⟩
    have begun : hldStart d a i st = .ok (at_, st1) := (start h16).trans (by rw [checkSpan_of_inside (by omega) (by omega)]; rfl)
    have gate : isLocal at_.val.toNat = true ∨ strictGate s st.a.slotmode = .ok () :=
      range.imp (fun h => isLocal_ofInt h.1 (by omega)) fun h => strictGate_of_free h.2.2
    have run := hldOp_of_gathered hl begun gate read hq hql
    refine ⟨fun hbad => ?poison, fun hbad hs => ?illegal, fun hbad hs => ?shape⟩
    case poison => exact runAs_trap hr (run.trans (if_pos hbad))
    case illegal => exact runAs_trap hr (run.trans (by rw [hbad, hs]; rfl))
    case shape =>
      have focus : s1.focusTile = s.focusTile := focusTile_of_gatherWords (s := s.setStrand _ _) read
      refine (machineWord_done hr (run.trans (by rw [hbad, hs]; rfl))).trans ?_
      rw [dif_pos hd, State.passedAs, State.passed, State.setStrand_focusTile, focus]
  case window =>
    refine ⟨fun h => ?remote, fun h h64 => ?misaligned, fun h h64 hw => ?formed⟩
    case remote => exact strandWord_fault hr (awinOp_of_remote hb hlo hhi hwait ha hp h)
    case misaligned => exact strandWord_fault hr (awinOp_of_misaligned hb hlo hhi hwait ha hp h h64)
    case formed => exact strandWord_ok hr (awinOp_ok hd hb hlo hhi hwait ha hp h h64 hw)

end Sys2Proof
end

section
/-! PROOFS. The vector engine's elementwise words (R136, R137, R141, R182, R185, R192, R197 to R200): the lanes of a tile that a word
writes, the tile that `lanewise` writes from two operands or one, and the equation of each group of words by the type of its elements. -/

namespace Sys2Proof.Machine

/-! Lanes of a tile (R181, R192). -/

section
variable {r c : Nat} {f : Nat → Nat → Word} {poison : Nat → Bool}

theorem Tile.row_tab (g : Nat → Row) (hr : r < 16) : Tile.row (tab 16 g) r = g r := by simp [Tile.row, tab, hr]

theorem Row.lane_tab (g : Nat → Word) (b : Bool) (tag : RowTag) (hc : c < 64) : Row.lane ⟨tab 64 g, b, tag⟩ c = g c := by
  simp [Row.lane, tab, hc]

theorem Tile.lane_tileOf (hr : r < 16) (hc : c < 64) : (tileOf f poison).lane r c = f r c := by
  rw [Tile.lane, tileOf, Tile.row_tab _ hr, Row.lane_tab _ _ _ hc]

/-- A written tile holds the new value in a written lane and the old one in a kept lane (R192). -/
theorem Tile.lane_mergeTile (st : Strand) (q : BitVec 1) (old new : Tile) (hr : r < 16) (hc : c < 64) :
    (mergeTile st q old new).lane r c = if st.writes q r c then new.lane r c else old.lane r c := by
  rw [Tile.lane, mergeTile, Tile.row_tab _ hr, Row.lane_tab _ _ _ hc]
  rfl

theorem exists_lane_of_any {p : Nat → Nat → Bool} :
    ((List.range 16).any fun r => anyLane (p r)) = true ↔ ∃ r c, r < 16 ∧ c < 64 ∧ p r c = true := by
  simp only [anyLane, List.any_eq_true, List.mem_range]
  exact ⟨fun ⟨r, hr, c, hc, h⟩ => ⟨r, c, hr, hc, h⟩, fun ⟨r, c, hr, hc, h⟩ => ⟨r, hr, c, hc, h⟩⟩

end

/-! Tile registers. -/

section
variable (st : Strand) (i : Fin 16) (t : Tile)

@[simp] theorem Strand.get_setV : (st.setV i t).tiles.get i = t := by
  simp [Strand.setV, Vector.get_eq_getElem]

theorem Strand.get_setV_of_ne {k : Fin 16} (h : k ≠ i) : (st.setV i t).tiles.get k = st.tiles.get k := by
  simp only [Strand.setV, Vector.get_eq_getElem]
  exact Vector.getElem_set_ne _ _ fun same => h (Fin.ext same.symm)

end

/-! The lane-wise words (R182, R185, R197). -/

section
variable {s : State} {st st1 : Strand} {d a b : Code} {q : BitVec 1} {x y : Tile} {f : Word → Word → Word → Word} {ty : BitVec 4}

theorem needSrcV_of_lt (h : a.toNat < 22) : needSrcV a = .ok () := by simp only [needSrcV, need, decide_eq_true h, if_true]

theorem lanewise_binary (hd : d.toNat < 16) (hs : srcV2 st a b = .ok (x, y, st1)) (useD : Bool) :
    lanewise f true useD d a b q st = .ok (st1.setV ⟨d.toNat, hd⟩ (mergeTile st1 q (st1.tiles.get ⟨d.toNat, hd⟩)
      (tileOf (fun r c => f (x.lane r c) (y.lane r c) ((st1.tiles.get ⟨d.toNat, hd⟩).lane r c))
        fun r => (x.row r).poison || (y.row r).poison || (useD && ((st1.tiles.get ⟨d.toNat, hd⟩).row r).poison)))) := by
  simp only [lanewise, role16_of_lt hd, hs, bind, Except.bind, if_true]

theorem lanewise_unary (hd : d.toNat < 16) (ha : a.toNat < 22) (hs : srcV st a = .ok (x, st1)) :
    lanewise f false false d a b q st = .ok (st1.setV ⟨d.toNat, hd⟩ (mergeTile st1 q (st1.tiles.get ⟨d.toNat, hd⟩)
      (tileOf (fun r c => f (x.lane r c) (x.lane r c) ((st1.tiles.get ⟨d.toNat, hd⟩).lane r c)) fun r => (x.row r).poison))) := by
  simp only [lanewise, role16_of_lt hd, needSrcV_of_lt ha, hs, bind, Except.bind, pure, Except.pure, Bool.false_eq_true, if_false,
    Bool.false_and, Bool.or_false, Bool.or_self]

/-- A word whose operation is lane-wise over two operands writes its tile. -/
theorem intoTile_of_binary {i : Instr} {op : Strand → Except Halt Strand} {third : Bool} (hi : exec i s = strandWord .v 1 op s)
    (hr : s.ready .v 1 st) (hs : srcV2 st a b = .ok (x, y, st1)) (hop : op st = lanewise f true third d a b q st) :
    let old := st1.tiles.toList.getD d.toNat (Vector.replicate 16 blankRow)
    intoTile i s st1 d q (tileOf (fun r c => f (x.lane r c) (y.lane r c) (old.lane r c))
      fun r => (x.row r).poison || (y.row r).poison || (third && (old.row r).poison)) := by
  intro old hd
  simp only [old, getD_toList_eq_get _ hd]
  exact hi.trans (strandWord_ok hr (hop.trans (lanewise_binary hd hs third)))

/-- A function of one element of a lane is computed whatever the other operands are. -/
theorem perElem_unary (g : Word → Word) (u v w : Word) : perElem ty (fun u _ _ => g u) u v w = perElem ty (fun u _ _ => g u) u 0 0 := rfl

theorem perElem_of_whole (h : ty = 2 ∨ ty = 6 ∨ ty = 8) : perElem ty f = f := by
  funext u v w
  obtain rfl | rfl | rfl := h <;> rfl

/-- A word whose operation is lane-wise over one operand writes its tile. -/
theorem intoTile_of_unary {i : Instr} {op : Strand → Except Halt Strand} {g : Word → Word} (hi : exec i s = strandWord .v 1 op s)
    (hr : s.ready .v 1 st) (ha : a.toNat < 22) (hs : srcV st a = .ok (x, st1))
    (hop : op st = lanewise (perElem ty fun u _ _ => g u) false false d a 0 q st) :
    intoTile i s st1 d q (tileOf (fun r c => perElem ty (fun u _ _ => g u) (x.lane r c) 0 0) fun r => (x.row r).poison) :=
  fun hd => hi.trans (strandWord_ok hr (hop.trans (lanewise_unary hd ha hs)))

/-! Each group of words by the type of its elements (R197, R198, R200). -/

theorem vecInt_iff : vecInt ty = true ↔ ty = 1 ∨ ty = 2 ∨ ty = 5 ∨ ty = 6 := by
  simp only [vecInt, Bool.or_eq_true, beq_iff_eq]
  tauto

/-- No type is of integers and of floating values. -/
theorem vecFmt_of_vecInt (h : vecInt ty = true) : vecFmt ty = none := by
  obtain rfl | rfl | rfl | rfl := vecInt_iff.mp h <;> rfl

theorem plainRm_of_ofBits {r : BitVec 3} {rm : Rm} (h : Rm.ofBits r = some rm) (hs : rm ≠ .rs) : plainRm r = .ok rm := by
  cases rm with
  | rs => exact absurd rfl hs
  | _ => simp only [plainRm, h]

theorem arithOp_int (op : VOp) (h : vecInt ty = true) :
    arithOp op d a b ty 0 q st = lanewise (perElem ty op.int) true (op == .fma) d a b q st := by
  simp only [arithOp, vecFmt_of_vecInt h, h, beq_self_eq_true, Bool.and_self, if_true]

theorem arithOp_float (op : VOp) {g : Fmt} {r : BitVec 3} {rm : Rm} (h : vecFmt ty = some g) (hr : plainRm r = .ok rm) :
    arithOp op d a b ty r q st = lanewise (perElem ty (op.num g rm)) true (op == .fma) d a b q st := by
  simp only [arithOp, h, hr, bind, Except.bind]

theorem minmaxElem_int (h : vecInt ty = true) (wantMax : Bool) : minmaxElem ty wantMax = fun u v =>
    if wantMax then (if asInt ty v.toNat ≤ asInt ty u.toNat then u else v) else (if asInt ty u.toNat ≤ asInt ty v.toNat then u else v) := by
  funext u v
  simp only [minmaxElem, vecFmt_of_vecInt h, ge_iff_le]

theorem minmaxElem_float {g : Fmt} (h : vecFmt ty = some g) (wantMax : Bool) : minmaxElem ty wantMax = fminmax g wantMax := by
  funext u v
  simp only [minmaxElem, h]

theorem minmaxOp_of_elem {g : Word → Word → Word} {wantMax : Bool} (hty : ((vecFmt ty).isSome || vecInt ty) = true)
    (hg : minmaxElem ty wantMax = g) :
    minmaxOp wantMax d a b ty q st = lanewise (perElem ty fun u v _ => g u v) true false d a b q st := by
  subst hg
  exact if_pos hty

theorem bitsOp_eq (g : Word → Word → Word) (h : ty = 2 ∨ ty = 6) :
    bitsOp g d a b ty q st = lanewise (perElem ty fun u v _ => g u v) true false d a b q st := by
  rw [bitsOp, if_pos h, perElem_of_whole (by tauto)]

theorem shiftOp_eq (g : Int → Nat → Int) (h : vecInt ty = true) : shiftOp g d a b ty q st =
    lanewise (perElem ty fun u v _ => BitVec.ofInt 32 (g (asInt ty u.toNat) (v.toNat % intWidth ty))) true false d a b q st := if_pos h

theorem vrshrOp_eq {r : BitVec 3} {rm : Rm} (h : vecInt ty = true) (hr : plainRm r = .ok rm) : vrshrOp d a b ty r q st =
    lanewise (perElem ty fun u v _ => BitVec.ofInt 32 (roundShift (asInt ty u.toNat) (v.toNat % intWidth ty) rm)) true false d a b q st := by
  simp only [vrshrOp, hr, bind, Except.bind, shiftOp_eq _ h]

theorem seqOp_fp32 (g : Word → Word) : seqOp g d a 8 q st = lanewise (perElem 8 fun u _ _ => g u) false false d a 0 q st := by
  rw [seqOp, if_pos rfl, perElem_of_whole (by tauto)]

theorem seqOp_bf16 (g : Word → Word) :
    seqOp g d a 9 q st = lanewise (perElem 9 fun u _ _ => toBf16 (g (ofBf16 u))) false false d a 0 q st := rfl

theorem signOp_float {onSign : Fmt → Word → Word} {onInt : Int → Int} {g : Fmt} (h : vecFmt ty = some g) :
    signOp onSign onInt d a ty q st = lanewise (perElem ty fun u _ _ => signElem g (onSign g) u) false false d a 0 q st := by
  simp only [signOp, h]

theorem signOp_int {onSign : Fmt → Word → Word} {onInt : Int → Int} (h : ty = 1 ∨ ty = 2) :
    signOp onSign onInt d a ty q st =
      lanewise (perElem ty fun u _ _ => BitVec.ofInt 32 (onInt (asInt ty u.toNat))) false false d a 0 q st := by
  have integer : vecFmt ty = none := vecFmt_of_vecInt (vecInt_iff.mpr (by tauto))
  simp only [signOp, integer, h.symm, if_true]

theorem vnotOp_eq (h : ty = 2 ∨ ty = 6) : vnotOp d a ty q st = lanewise (perElem ty fun u _ _ => ~~~u) false false d a 0 q st := by
  rw [vnotOp, if_pos h, perElem_of_whole (by tauto)]

/-! VMAC2 (R199). -/

/-- Saturation to `.s32` (R124). -/
theorem saturateInt_s32 (v : Int) : saturateInt 2 v = max (-2147483648) (min v 2147483647) := rfl

theorem vmac2Op_eq (hd : d.toNat < 16) (hs : srcV2 st a b = .ok (x, y, st1)) :
    let old := st1.tiles.get ⟨d.toNat, hd⟩
    let sum := fun (r c : Nat) => mac2Sum (x.lane r c) (y.lane r c) (old.lane r c)
    vmac2Op d a b q st = .ok ((st1.setV ⟨d.toNat, hd⟩ (mergeTile st1 q old (tileOf (fun r c => BitVec.ofInt 32 (saturateInt 2 (sum r c)))
      fun r => (x.row r).poison || (y.row r).poison || (old.row r).poison))).stick
        ((List.range 16).any fun r => anyLane fun c => st1.writes q r c && saturateInt 2 (sum r c) != sum r c) false false) := by
  simp only [vmac2Op, role16_of_lt hd, hs, bind, Except.bind]

end

end Sys2Proof.Machine

namespace Sys2Proof

open Sys2Proof.Machine

/-- Settles O34: the lane-wise words by `intoTile_of_binary` and the equation of each group at its element type; VMAC2 by `vmac2Op_eq`,
whose tile and flag are read lane by lane. -/
theorem vectorArithmetic : Obligations.VectorArithmetic := by
  unfold Obligations.VectorArithmetic
  refine ⟨fun s st st1 d a b q x y hr hs => ?lanewise, fun s st st1 d a b q x y hd hr hs => ?mac2⟩
  case lanewise =>
    intro old gives
    have gives_of {i : Instr} {op : Strand → Except Halt Strand} {ty : BitVec 4} {third : Bool} {f : Word → Word → Word → Word}
        (hi : exec i s = strandWord .v 1 op s) (hop : op st = lanewise (perElem ty f) true third d a b q st) : gives i ty third f :=
      intoTile_of_binary hi hr hs hop
    refine ⟨fun ty hty => ?integers, fun ty hty => ?bits, fun ty f hf => ?floats⟩
    case integers =>
      have h := vecInt_iff.mpr hty
      have ordered : ((vecFmt ty).isSome || vecInt ty) = true := by rw [h, Bool.or_true]
      refine ⟨gives_of rfl (arithOp_int .add h), gives_of rfl (arithOp_int .sub h), gives_of rfl (arithOp_int .mul h),
        gives_of rfl (arithOp_int .fma h), gives_of rfl (minmaxOp_of_elem ordered (minmaxElem_int h false)),
        gives_of rfl (minmaxOp_of_elem ordered (minmaxElem_int h true)),
        gives_of rfl (shiftOp_eq _ h), ?shr, fun r rm hrm hrs => gives_of rfl (vrshrOp_eq h (plainRm_of_ofBits hrm hrs))⟩
      case shr =>
        refine gives_of rfl ((shiftOp_eq _ h).trans ?_)
        simp only [Int.fdiv_eq_ediv_of_nonneg _ (Int.natCast_nonneg _)]
    case bits => exact ⟨gives_of rfl (bitsOp_eq _ hty), gives_of rfl (bitsOp_eq _ hty), gives_of rfl (bitsOp_eq _ hty)⟩
    case floats =>
      have ordered : ((vecFmt ty).isSome || vecInt ty) = true := by rw [hf, Option.isSome_some, Bool.true_or]
      refine ⟨gives_of rfl (minmaxOp_of_elem ordered (minmaxElem_float hf false)),
        gives_of rfl (minmaxOp_of_elem ordered (minmaxElem_float hf true)), fun r rm hrm hrs => ?_⟩
      have h := plainRm_of_ofBits hrm hrs
      exact ⟨gives_of rfl (arithOp_float .add hf h), gives_of rfl (arithOp_float .sub hf h), gives_of rfl (arithOp_float .mul hf h),
        gives_of rfl (arithOp_float .fma hf h)⟩
  case mac2 =>
    intro old sum clamp
    refine ⟨_, strandWord_ok hr (vmac2Op_eq hd hs), _, State.strand_passedAs _ _ _ _, fun r c hr16 hc64 => ?lanes, ?sat, ?nan, ?fmt,
      fun k hk => ?others⟩
    case lanes =>
      simp only [Strand.trimLedger_tiles, Strand.count_tiles, Strand.updEng_tiles, Strand.stick, Strand.get_setV,
        Tile.lane_mergeTile _ _ _ _ hr16 hc64, Tile.lane_tileOf hr16 hc64, saturateInt_s32]
      rfl
    case sat =>
      simp only [Strand.trimLedger_sat, Strand.count_sat, Strand.updEng_sat, Strand.stick, Bool.or_eq_true, exists_lane_of_any,
        Bool.and_eq_true, bne_iff_ne, saturateInt_s32]
      rfl
    case nan => simp [Strand.stick, Strand.setV]
    case fmt => simp [Strand.stick, Strand.setV]
    case others => simp [Strand.stick, Strand.get_setV_of_ne _ _ _ hk]

/-- Settles O35: each word is lane-wise over one operand, and `intoTile_of_unary` writes its tile by the equation of its group at its
element type. -/
theorem vectorFunctions : Obligations.VectorFunctions := by
  unfold Obligations.VectorFunctions
  intro s st st1 d a q x hr ha hs gives group
  have gives_of {i : Instr} {op : Strand → Except Halt Strand} {ty : BitVec 4} {f : Word → Word}
      (hi : exec i s = strandWord .v 1 op s) (hop : op st = lanewise (perElem ty fun u _ _ => f u) false false d a 0 q st) :
      gives i ty f := intoTile_of_unary hi hr ha hs hop
  refine ⟨?fp32, ?bf16, fun ty f hf => ?signs, fun ty hty => ?integers, fun ty hty => gives_of rfl (vnotOp_eq hty)⟩
  case fp32 =>
    exact ⟨gives_of rfl (seqOp_fp32 exp2Seq), gives_of rfl (seqOp_fp32 log2Seq), gives_of rfl (seqOp_fp32 rcpSeq),
      gives_of rfl (seqOp_fp32 rsqSeq), gives_of rfl (seqOp_fp32 tanhSeq), gives_of rfl (seqOp_fp32 sigSeq)⟩
  case bf16 =>
    exact ⟨gives_of rfl (seqOp_bf16 exp2Seq), gives_of rfl (seqOp_bf16 log2Seq), gives_of rfl (seqOp_bf16 rcpSeq),
      gives_of rfl (seqOp_bf16 rsqSeq), gives_of rfl (seqOp_bf16 tanhSeq), gives_of rfl (seqOp_bf16 sigSeq)⟩
  case signs => exact ⟨gives_of rfl (signOp_float hf), gives_of rfl (signOp_float hf)⟩
  case integers => exact ⟨gives_of rfl (signOp_int hty), gives_of rfl (signOp_int hty)⟩

end Sys2Proof
end

section
/-! PROOFS. Reductions, counts and compaction (R140, R192, R206, R207, R208): the lanes of the tile that each word writes to its
destination. -/

namespace Sys2Proof.Machine

section
variable {s : State} {st st1 : Strand} {d a : Code} {q ax : BitVec 1} {x : Tile} {r c : Nat}

/-- Every lane of a whole destination tile is written. -/
theorem dstV_of_register (hd : d.toNat < 16) (t : Tile) :
    dstV st d 0 t = .ok (st.setV ⟨d.toNat, hd⟩ (mergeTile st 0 (st.tiles.get ⟨d.toNat, hd⟩) t)) := dif_pos hd

theorem lane_of_whole (old new : Tile) (hr : r < 16) (hc : c < 64) : (mergeTile st 0 old new).lane r c = new.lane r c := by
  rw [Tile.lane_mergeTile _ _ _ _ hr hc]
  rfl

/-- A word that hands a tile to its destination register completes with the tile's lanes there. -/
theorem reaches_lanes {i : Instr} {n : Nat} {op : Strand → Except Halt Strand} {t : Tile} {lane : Nat → Nat → Word}
    (hi : exec i s = strandWord .v n op s) (hr : s.ready .v n st) (hd : d.toNat < 16) (hop : op st = dstV st1 d 0 t)
    (hl : ∀ r c, r < 16 → c < 64 → t.lane r c = lane r c) :
    reaches (exec i s) fun u => ∃ st', u.strand s.focusTile = some st' ∧
      ∀ r c, r < 16 → c < 64 → (st'.tiles.get ⟨d.toNat, hd⟩).lane r c = lane r c := by
  refine ⟨_, hi.trans (strandWord_ok hr (hop.trans (dstV_of_register hd t))), _, State.strand_passedAs _ _ _ _, fun r c hr16 hc64 => ?_⟩
  rw [Strand.trimLedger_tiles, Strand.count_tiles, Strand.updEng_tiles, Strand.get_setV, lane_of_whole _ _ hr16 hc64, hl r c hr16 hc64]

theorem getD_map_range {α : Type} {m k : Nat} (f : Nat → α) (z : α) (h : k < m) : ((List.range m).map f).getD k z = f k := by
  simp [List.getD, h]

/-! VRED (R140, R206). -/

/-- What lane `c` of row `r` of a reduction holds: the row or column by the fixed tree, the identity `zero` for unselected lanes. -/
def reducedLane (f : Word → Word → Word) (zero : Word) (ax : BitVec 1) (sel : Nat → Nat → Bool) (x : Tile) (r c : Nat) : Word :=
  let elem := fun (r c : Nat) => if sel r c then x.lane r c else zero
  let red := fun (l : List Word) => (tree f 6 l).headD 0
  if ax = 1 then red ((List.range 16).map fun k => elem k c) else red ((List.range 64).map fun k => elem r k)

theorem vredOp_lanes {op : RedOp} {ty : BitVec 4} (hd : d.toNat < 16) (ha : a.toNat < 22) (hs : srcV st a = .ok (x, st1))
    (hty : ty = 8 ∨ (op ≠ .amax ∧ (ty = 2 ∨ ty = 6))) : ∃ t, vredOp op d a ty ax q st = dstV st1 d 0 t ∧
      ∀ r c, r < 16 → c < 64 → t.lane r c = reducedLane (op.combine ty) (op.identity ty) ax (st1.writes q) x r c := by
  have known : (ty == 8 || (op != .amax && (ty == 2 || ty == 6))) = true := by simpa using hty
  simp only [vredOp, known, decide_eq_true hd, Bool.true_or, need, needSrcV_of_lt ha, hs, bind, Except.bind, if_true, reducedLane]
  split
  · refine ⟨_, rfl, fun r c hr hc => ?_⟩
    rw [Tile.lane_tileOf hr hc, getD_map_range _ _ hc]
  · refine ⟨_, rfl, fun r c hr hc => ?_⟩
    rw [Tile.lane_tileOf hr hc, getD_map_range _ _ hr]

/-! VPCNT and VCPR (R207, R208). -/

theorem vpcntOp_eq (hd : d.toNat < 16) : vpcntOp d st = dstV st d 0
    (tileOf (fun _ _ => BitVec.ofNat 32 ((List.range 1024).countP fun k => st.p (k / 64) (k % 64))) fun _ => false) := if_pos (.inl hd)

theorem vcprOp_rows (hd : d.toNat < 16) (ha : a.toNat < 22) (hs : srcV st a = .ok (x, st1)) :
    ∃ t, vcprOp d a 0 st = dstV st1 d 0 t ∧ ∀ r c, r < 16 → c < 64 →
      t.lane r c = (((List.range 64).filter fun k => st1.p r k).map fun k => x.lane r k).getD c 0 := by
  simp only [vcprOp, decide_eq_true hd, Bool.true_or, need, needSrcV_of_lt ha, hs, bind, Except.bind, if_true]
  refine ⟨_, rfl, fun r c hr hc => ?_⟩
  rw [Tile.lane_tileOf hr hc, getD_map_range _ _ hr]

theorem vcprOp_columns (hd : d.toNat < 16) (ha : a.toNat < 22) (hs : srcV st a = .ok (x, st1)) :
    ∃ t, vcprOp d a 1 st = dstV st1 d 0 t ∧ ∀ r c, r < 16 → c < 64 →
      t.lane r c = (((List.range 16).filter fun k => st1.p k c).map fun k => x.lane k c).getD r 0 := by
  simp only [vcprOp, decide_eq_true hd, Bool.true_or, need, needSrcV_of_lt ha, hs, bind, Except.bind, if_true]
  refine ⟨_, rfl, fun r c hr hc => ?_⟩
  rw [Tile.lane_tileOf hr hc, getD_map_range _ _ hc, List.getD_eq_getElem?_getD, List.getElem?_map]
  cases ((List.range 16).filter fun k => st1.p k c)[r]? <;> rfl

end

end Sys2Proof.Machine

namespace Sys2Proof

open Sys2Proof.Machine

/-- Settles O38: VRED by `vredOp_lanes`, with the combination and identity of each operation at its type; VPCNT by `vpcntOp_eq`; VCPR by
`vcprOp_rows` and `vcprOp_columns`. -/
theorem vectorReductions : Obligations.VectorReductions := by
  unfold Obligations.VectorReductions
  intro s st d a hd writes
  refine ⟨fun hr q x st1 ha hs => ?vred, fun hr => ⟨?vpcnt, fun x st1 ha hs => ⟨?rows, ?columns⟩⟩⟩
  case vred =>
    intro reduced ax
    have reduced_of (op : RedOp) {ty : BitVec 4} {i : Instr} {f : Word → Word → Word} {zero : Word}
        (hi : exec i s = strandWord .v 1 (vredOp op d a ty ax q) s) (hty : ty = 8 ∨ (op ≠ .amax ∧ (ty = 2 ∨ ty = 6)))
        (hf : op.combine ty = f) (hz : op.identity ty = zero) : reduced ax i f zero := by
      subst hf hz
      obtain ⟨t, ht, hl⟩ := vredOp_lanes hd ha hs hty
      exact reaches_lanes hi hr hd ht hl
    refine ⟨reduced_of .sum rfl (.inl rfl) rfl rfl, reduced_of .max rfl (.inl rfl) rfl rfl, reduced_of .min rfl (.inl rfl) rfl rfl,
      reduced_of .amax rfl (.inl rfl) rfl rfl, fun ty hty => ?_⟩
    have known (op : RedOp) (h : op ≠ .amax) : ty = 8 ∨ (op ≠ .amax ∧ (ty = 2 ∨ ty = 6)) := .inr ⟨h, hty⟩
    have whole : ty ≠ 8 := by obtain rfl | rfl := hty <;> decide
    exact ⟨reduced_of .sum rfl (known _ nofun) (funext₂ fun u v => if_neg whole) (if_neg whole),
      reduced_of .max rfl (known _ nofun) rfl (if_neg whole), reduced_of .min rfl (known _ nofun) rfl (if_neg whole)⟩
  case vpcnt => exact reaches_lanes rfl hr hd (vpcntOp_eq hd) fun r c hr16 hc64 => Tile.lane_tileOf hr16 hc64
  case rows =>
    obtain ⟨t, ht, hl⟩ := vcprOp_rows hd ha hs
    exact reaches_lanes rfl hr hd ht hl
  case columns =>
    obtain ⟨t, ht, hl⟩ := vcprOp_columns hd ha hs
    exact reaches_lanes rfl hr hd ht hl

end Sys2Proof
end

section
/-! PROOFS. Scalar registers (R148) and the words of the control engine that only read one (R169). -/

namespace Sys2Proof.Machine

section
variable {s : State} {st : Strand} {a d c : Code} {v : PWord}

@[simp] theorem Strand.x?_zero (st : Strand) : st.x? 0 = { val := 0, poison := false } := rfl

@[simp] theorem Strand.setX_zero (st : Strand) (v : PWord) : st.setX 0 v = st := rfl

theorem Strand.setX_of_ne (hd : d ≠ 0) : st.setX d v = { st with regs := st.regs.set d.toNat v d.isLt } := if_neg hd

theorem Strand.x?_setX_same (hd : d ≠ 0) : (st.setX d v).x? d = v := by
  rw [Strand.setX_of_ne hd, Strand.x?, if_neg hd]
  exact Vector.getElem_set_self d.isLt

theorem Strand.x?_setX_of_ne (hc : c ≠ d) : (st.setX d v).x? c = st.x? c := by
  by_cases hd : d = 0
  · rw [hd, Strand.setX_zero]
  rw [Strand.setX_of_ne hd, Strand.x?, Strand.x?]
  have apart : d.toNat ≠ c.toNat := fun h => hc (BitVec.eq_of_toNat_eq h).symm
  exact congrArg (ite _ _) (Vector.getElem_set_ne d.isLt c.isLt apart)

/-- CHECK by its register's poison. -/
theorem exec_check_of_poison (hr : s.ready .c 1 st) (hp : (st.x? a).poison = true) :
    exec (.check a) s = .next (wordFault s s.focusTile .c 0 .poisonSync .atWord) :=
  strandWord_fault (e := .c) hr (by rw [clean_of_poison hp]; rfl)

theorem exec_check_of_clean (hr : s.ready .c 1 st) (hp : (st.x? a).poison = false) :
    exec (.check a) s = .next (s.passedAs .c 1 st) :=
  strandWord_ok hr (by rw [clean_of_clean hp]; rfl)

end

end Sys2Proof.Machine

namespace Sys2Proof

open Sys2Proof.Machine

/-- Settles O11: a register that is not x0 is an entry of the register file, and x0 is none. -/
theorem scalarRegisters : Obligations.ScalarRegisters := by
  unfold Obligations.ScalarRegisters
  exact fun st v => ⟨st.x?_zero, st.setX_zero v, fun d hd =>
    ⟨Strand.x?_setX_same hd, fun c hc => Strand.x?_setX_of_ne hc, _, Strand.setX_of_ne hd⟩⟩

/-- Settles O13: the encoder's row of CHECK, and what the word answers by its register's poison. -/
theorem checkWord : Obligations.CheckWord := by
  unfold Obligations.CheckWord
  exact fun s st a => ⟨rfl, fun hr => ⟨exec_check_of_poison hr, exec_check_of_clean hr⟩⟩

end Sys2Proof
end

section
/-! PROOFS. NOP, FENCE and END (R176, R177, R178). -/

namespace Sys2Proof.Machine

section
variable {s t : State} {st : Strand} {e : Eng} {k sc : BitVec 2} {w : Wait}

@[simp] theorem State.setStrand_setStrand (s : State) (t : Core) (st st' : Strand) :
    (s.setStrand t st).setStrand t st' = s.setStrand t st' := by
  simp only [State.setStrand, State.updCore, State.core_setCore, if_true]
  simp only [State.setCore, Vector.set_set]

/-- The state of an engine gone to a text index, as one update of its strand. -/
theorem State.wentTo_of_strand {c : Core} (h : s.strand c = some st) (e : Eng) (pc : Nat) :
    s.wentTo c e pc = s.setStrand c ((st.updEng e fun g => g.goto pc).count (engCounter e) 1).trimLedger := by
  have gone : (s.setStrand c (st.updEng e fun g => g.goto pc)).strand c = some (st.updEng e fun g => g.goto pc) :=
    (s.strand_setStrand c c _).trans (if_pos rfl)
  rw [State.wentTo, goTo, State.updStrand_of_strand h, State.counted, State.updStrand_of_strand gone, State.setStrand_setStrand]

theorem exec_nop (he : s.focusEng = e) (hr : s.ready e 1 st) : exec .nop s = .next (s.wentTo s.focusTile e ((st.eng e).pc + 1)) := by
  show execNop s = _
  unfold execNop
  exact flowWord_goTo he hr rfl

/-! FENCE (R176) by its kind. -/

theorem exec_fence_acquire (he : s.focusEng = e) (hr : s.ready e 1 st) : exec (.fence 2 sc) s =
    .next ((fenceAcquire s s.focusTile e (Scope.ofBits sc)).wentTo s.focusTile e ((st.eng e).pc + 1)) :=
  flowWord_goTo (f := fenceOp 2 sc) he hr rfl

theorem exec_fence_release (he : s.focusEng = e) (hr : s.ready e 1 st)
    (h : fenceRelease s s.focusTile e (Scope.ofBits sc) = .ok t) :
    exec (.fence 1 sc) s = .next (t.wentTo s.focusTile e ((st.eng e).pc + 1)) :=
  flowWord_goTo (f := fenceOp 1 sc) he hr (by simp only [fenceOp, h]; rfl)

theorem exec_fence_both (he : s.focusEng = e) (hr : s.ready e 1 st)
    (h : fenceRelease s s.focusTile e (Scope.ofBits sc) = .ok t) : exec (.fence 3 sc) s =
      .next ((fenceAcquire t s.focusTile e (Scope.ofBits sc)).wentTo s.focusTile e ((st.eng e).pc + 1)) :=
  flowWord_goTo (f := fenceOp 3 sc) he hr (by simp only [fenceOp, h]; rfl)

/-- A fence that releases waits with its release, whether it acquires too or not. -/
theorem exec_fence_wait (he : s.focusEng = e) (hr : s.ready e 1 st) (hk : k = 1 ∨ k = 3)
    (h : fenceRelease s s.focusTile e (Scope.ofBits sc) = .error (.wait w)) :
    exec (.fence k sc) s = .next (setWait s s.focusTile e w) := by
  refine flowWord_wait (f := fenceOp k sc) he hr ?_
  obtain rfl | rfl := hk <;> simp only [fenceOp, h] <;> rfl

theorem exec_fence_of_no_kind (he : s.focusEng = e) (hr : s.ready e 1 st) :
    exec (.fence 0 sc) s = .next (wordFault s s.focusTile e 0 .illegal .atWord) :=
  flowWord_fault (f := fenceOp 0 sc) he hr rfl

/-! END (R178): what is left for the engine goes, and in rebuild mode it is ILLEGAL (R412). -/

theorem exec_endW_of_no_rebuild (he : s.focusEng = e) (hr : s.ready e 1 st) (h : st.rebuild = none) : exec .endW s =
    .next ((s.setStrand s.focusTile ((st.discard e).updEng e fun g =>
      { g.goto (g.pc + 1) with ended := true, frames := [], depth := 0, outcomes := [] })).counted s.focusTile e) :=
  flowWord_ok (f := endOp) he hr (by simp only [endOp, h, Option.isSome_none, Bool.false_eq_true, if_false])

theorem exec_endW_of_rebuild (he : s.focusEng = e) (hr : s.ready e 1 st) (h : st.rebuild ≠ none) :
    exec .endW s = .next (wordFault s s.focusTile e 0 .illegal .atWord) := by
  refine flowWord_fault (f := endOp) he hr ?_
  simp only [endOp, Option.isSome_iff_ne_none.mpr h, if_true]
  rfl

end

end Sys2Proof.Machine

namespace Sys2Proof

open Sys2Proof.Machine

/-- Settles O12: NOP goes to the next text word, and that is one update of the strand. -/
theorem nopOnlySteps : Obligations.NopOnlySteps := by
  unfold Obligations.NopOnlySteps
  intro s st e he hr
  exact (exec_nop he hr).trans (congrArg _ (State.wentTo_of_strand hr.1 e _))

/-- Settles O25: each kind of fence by its release, NOP by its step, END by the rebuild mode. -/
theorem fencesAndEnd : Obligations.FencesAndEnd := by
  unfold Obligations.FencesAndEnd
  intro s st e he hr
  refine ⟨exec_nop he hr, fun sc => ⟨exec_fence_acquire he hr, fun t ht => ⟨exec_fence_release he hr ht, exec_fence_both he hr ht⟩,
    fun w hw => ⟨exec_fence_wait he hr (.inl rfl) hw, exec_fence_wait he hr (.inr rfl) hw⟩, exec_fence_of_no_kind he hr⟩,
    exec_endW_of_no_rebuild he hr, exec_endW_of_rebuild he hr⟩

end Sys2Proof
end

section
/-! PROOFS. Integers of a type (R86, R124, R159): what `asInt` and `extend` are as bit vectors of the type's width, and every operation of
R159 as the bit-vector operation it stands for. -/

namespace Sys2Proof.Machine

section
variable {ty : BitVec 4} {w : Nat} {A B : BitVec w}

/-- The integer that a bit vector of a type's width stands for (R86). -/
def intValue (ty : BitVec 4) (A : BitVec w) : Int := if isSigned ty then A.toInt else A.toNat

theorem intValue_of_signed (h : isSigned ty = true) : intValue ty A = A.toInt := if_pos h

theorem intValue_of_unsigned (h : isSigned ty = false) : intValue ty A = A.toNat := if_neg (by simp [h])

theorem ofInt_toNat : BitVec.ofInt w A.toNat = A := by rw [BitVec.ofInt_natCast, BitVec.ofNat_toNat, BitVec.setWidth_eq]

@[simp] theorem ofInt_intValue : BitVec.ofInt w (intValue ty A) = A := by
  cases h : isSigned ty
  · rw [intValue_of_unsigned h, ofInt_toNat]
  · rw [intValue_of_signed h, BitVec.ofInt_toInt]

theorem extendAs_eq_ofInt : extendAs ty A = BitVec.ofInt 64 (intValue ty A) := by
  cases h : isSigned ty
  · rw [intValue_of_unsigned h, BitVec.ofInt_natCast, BitVec.ofNat_toNat, extendAs, h, if_neg Bool.false_ne_true]
  · rw [intValue_of_signed h, extendAs, if_pos h, BitVec.signExtend]

theorem intWidth_pos (ty : BitVec 4) : 0 < intWidth ty := by
  unfold intWidth
  split <;> decide

theorem asInt_eq_intValue (ty : BitVec 4) (n : Nat) : asInt ty n = intValue ty (BitVec.ofNat (intWidth ty) n) := by
  have half : 2 ^ intWidth ty = 2 * 2 ^ (intWidth ty - 1) := (mul_pow_sub_one (intWidth_pos ty).ne' 2).symm
  cases h : isSigned ty
  · rw [intValue_of_unsigned h, BitVec.toNat_ofNat, asInt, h, Bool.false_and, if_neg Bool.false_ne_true]
  · rw [intValue_of_signed h, BitVec.toInt_eq_toNat_cond, BitVec.toNat_ofNat, asInt, h, Bool.true_and]
    simp only [decide_eq_true_eq]
    split <;> split <;> omega

theorem asInt_toNat (ty : BitVec 4) (v : DWord) : asInt ty v.toNat = intValue ty (v.setWidth (intWidth ty)) := by
  rw [asInt_eq_intValue, BitVec.ofNat_toNat]

/-- Narrowing a result and extending it again (R159). -/
theorem extend_eq_extendAs (ty : BitVec 4) (v : Int) : extend ty v = extendAs ty (BitVec.ofInt (intWidth ty) v) := by
  rw [extend, asInt_eq_intValue, ← BitVec.toNat_ofInt, BitVec.ofNat_toNat, BitVec.setWidth_eq, extendAs_eq_ofInt]

/-- Conditions 0 to 5 of R88 between integers of a type. -/
theorem condInt_intValue {c : Nat} (hc : c < 6) : condInt c (intValue ty A) (intValue ty B) = some (holdsInt ty c A B) := by
  have same : (A == B) = decide (intValue ty A = intValue ty B) := by
    rw [Bool.eq_iff_iff, beq_iff_eq, decide_eq_true_eq]
    exact ⟨fun h => h ▸ rfl, fun h => by rw [← ofInt_intValue (ty := ty) (A := A), h, ofInt_intValue]⟩
  have less (x y : BitVec w) : (if isSigned ty then x.slt y else x.ult y) = decide (intValue ty x < intValue ty y) := by
    cases h : isSigned ty
    · simp [intValue_of_unsigned h, BitVec.ult_eq_decide]
    · simp [intValue_of_signed h, BitVec.slt_eq_decide]
  match c, hc with
  | 0, _ => simp only [condInt, holdsInt, same]
  | 1, _ => simp only [condInt, holdsInt, bne, same, ne_eq, decide_not]
  | 2, _ => simp only [condInt, holdsInt, less]
  | 3, _ => simp only [condInt, holdsInt, less, ← decide_not, not_lt]
  | 4, _ => simp only [condInt, holdsInt, less, gt_iff_lt]
  | 5, _ => simp only [condInt, holdsInt, less, ← decide_not, not_lt, ge_iff_le]

/-! Bit vectors of an integer's low bits. -/

theorem ofInt_sub (x y : Int) : BitVec.ofInt w (x - y) = BitVec.ofInt w x - BitVec.ofInt w y := by
  rw [Int.sub_eq_add_neg, BitVec.ofInt_add, BitVec.ofInt_neg, BitVec.sub_eq_add_neg]

/-- The high half of a product. -/
theorem extractLsb'_ofInt_high (n : Int) : (BitVec.ofInt (2 * w) n).extractLsb' w w = BitVec.ofInt w (n.fdiv (2 ^ w : Nat)) := by
  have pos : (0 : Int) < (2 ^ w : Nat) := by exact_mod_cast Nat.two_pow_pos w
  apply BitVec.eq_of_toNat_eq
  rw [BitVec.extractLsb'_toNat, BitVec.toNat_ofInt, BitVec.toNat_ofInt, Int.fdiv_eq_ediv_of_nonneg _ pos.le, Nat.shiftRight_eq_div_pow,
    two_mul, pow_add]
  generalize 2 ^ w = M at pos ⊢
  have low : (0 : Int) ≤ n % (M * M : Nat) := Int.emod_nonneg _ (by exact_mod_cast (mul_pos pos pos).ne')
  have split : n / M = n % (M * M : Nat) / M + M * (n / (M * M : Nat)) := by
    conv_lhs => rw [← Int.emod_add_mul_ediv n (M * M : Nat)]
    rw [Nat.cast_mul, mul_assoc, Int.add_mul_ediv_left _ _ pos.ne']
  rw [split, Int.add_mul_emod_self_left]
  zify at low ⊢
  rw [Int.toNat_of_nonneg low, Int.toNat_of_nonneg (Int.emod_nonneg _ pos.ne')]

/-! Shifts as products and quotients. -/

theorem shiftLeft_eq_mul_pow (n : Nat) : A <<< n = A * BitVec.ofNat w (2 ^ n) := by
  rw [BitVec.shiftLeft_eq_mul_twoPow]
  exact congrArg _ (BitVec.eq_of_toNat_eq (by rw [BitVec.toNat_ofNat, BitVec.toNat_twoPow]))

theorem ushiftRight_eq_div_pow (n : Nat) : A >>> n = BitVec.ofNat w (A.toNat / 2 ^ n) := by
  rw [← Nat.shiftRight_eq_div_pow, ← BitVec.toNat_ushiftRight, BitVec.ofNat_toNat, BitVec.setWidth_eq]

theorem sshiftRight_eq_div_pow (n : Nat) : A.sshiftRight n = BitVec.ofInt w (A.toInt / (2 ^ n : Nat)) := by
  rw [BitVec.sshiftRight, Int.shiftRight_eq_div_pow]

/-! Signed quotients and remainders. -/

theorem sdiv_eq_ofInt : A.sdiv B = BitVec.ofInt w (A.toInt.tdiv B.toInt) :=
  BitVec.eq_of_toInt_eq (by rw [BitVec.toInt_sdiv, BitVec.toInt_ofInt])

theorem srem_eq_ofInt : A.srem B = BitVec.ofInt w (A.toInt.tmod B.toInt) := by
  rw [← BitVec.toInt_srem, BitVec.ofInt_toInt]

end

/-! The operations of R159. -/

section
variable {ty : BitVec 4} (x y : DWord)

/-- The low bits of an operation's exact result. -/
def Alu.low (op : Alu) (ty : BitVec 4) (x y : DWord) : BitVec (intWidth ty) := BitVec.ofInt _ (op.value ty x.toNat y.toNat)

theorem Alu.low_add : Alu.add.low ty x y = x.setWidth _ + y.setWidth _ := by
  simp only [Alu.low, Alu.value, asInt_toNat, BitVec.ofInt_add, ofInt_intValue]

theorem Alu.low_sub : Alu.sub.low ty x y = x.setWidth _ - y.setWidth _ := by
  simp only [Alu.low, Alu.value, asInt_toNat, ofInt_sub, ofInt_intValue]

theorem Alu.low_mul : Alu.mul.low ty x y = x.setWidth _ * y.setWidth _ := by
  simp only [Alu.low, Alu.value, asInt_toNat, BitVec.ofInt_mul, ofInt_intValue]

theorem Alu.low_mulh : Alu.mulh.low ty x y =
    let w := intWidth ty
    if isSigned ty then ((x.setWidth w).signExtend (2 * w) * (y.setWidth w).signExtend (2 * w)).extractLsb' w w
    else ((x.setWidth w).setWidth (2 * w) * (y.setWidth w).setWidth (2 * w)).extractLsb' w w := by
  simp only [Alu.low, Alu.value, asInt_toNat, ← extractLsb'_ofInt_high, BitVec.ofInt_mul]
  cases h : isSigned ty
  · simp only [intValue_of_unsigned h, BitVec.ofInt_natCast, BitVec.ofNat_toNat, Bool.false_eq_true, if_false]
  · simp only [intValue_of_signed h, BitVec.signExtend, if_true]

theorem Alu.low_div : Alu.div.low ty x y =
    if isSigned ty then (x.setWidth (intWidth ty)).sdiv (y.setWidth _) else x.setWidth _ / y.setWidth _ := by
  have always (a b : Int) : (if b = 0 then 0 else a.tdiv b) = a.tdiv b := by
    split
    · subst_vars; rw [Int.tdiv_zero]
    · rfl
  simp only [Alu.low, Alu.value, asInt_toNat, always]
  cases h : isSigned ty
  · rw [intValue_of_unsigned h, intValue_of_unsigned h, ← Int.ofNat_tdiv, BitVec.ofInt_natCast, ← BitVec.udiv_def,
      if_neg Bool.false_ne_true]
  · rw [intValue_of_signed h, intValue_of_signed h, if_pos rfl, sdiv_eq_ofInt]

theorem Alu.low_rem : Alu.rem.low ty x y =
    if isSigned ty then (x.setWidth (intWidth ty)).srem (y.setWidth _) else x.setWidth _ % y.setWidth _ := by
  have always (a b : Int) : (if b = 0 then a else a - b * a.tdiv b) = a.tmod b := by
    rw [← Int.tmod_def]
    split
    · subst_vars; rw [Int.tmod_zero]
    · rfl
  simp only [Alu.low, Alu.value, asInt_toNat, always]
  cases h : isSigned ty
  · rw [intValue_of_unsigned h, intValue_of_unsigned h, ← Int.ofNat_tmod, BitVec.ofInt_natCast, ← BitVec.umod_def,
      if_neg Bool.false_ne_true]
  · rw [intValue_of_signed h, intValue_of_signed h, if_pos rfl, srem_eq_ofInt]

theorem Alu.low_and : Alu.and.low ty x y = x.setWidth _ &&& y.setWidth _ := by
  rw [Alu.low, Alu.value, ← BitVec.toNat_setWidth, ← BitVec.toNat_setWidth, ← BitVec.toNat_and, ofInt_toNat]

theorem Alu.low_or : Alu.or.low ty x y = x.setWidth _ ||| y.setWidth _ := by
  rw [Alu.low, Alu.value, ← BitVec.toNat_setWidth, ← BitVec.toNat_setWidth, ← BitVec.toNat_or, ofInt_toNat]

theorem Alu.low_xor : Alu.xor.low ty x y = x.setWidth _ ^^^ y.setWidth _ := by
  rw [Alu.low, Alu.value, ← BitVec.toNat_setWidth, ← BitVec.toNat_setWidth, ← BitVec.toNat_xor, ofInt_toNat]

theorem Alu.low_shl : Alu.shl.low ty x y = x.setWidth _ <<< (y.toNat % 64 % intWidth ty) := by
  simp only [Alu.low, Alu.value, asInt_toNat, BitVec.ofInt_mul, ofInt_intValue, shiftLeft_eq_mul_pow, BitVec.ofInt_natCast]

theorem Alu.low_shr : Alu.shr.low ty x y =
    if isSigned ty then (x.setWidth (intWidth ty)).sshiftRight (y.toNat % 64 % intWidth ty)
    else x.setWidth _ >>> (y.toNat % 64 % intWidth ty) := by
  simp only [Alu.low, Alu.value, asInt_toNat, Int.fdiv_eq_ediv_of_nonneg _ (Int.natCast_nonneg _)]
  cases h : isSigned ty
  · rw [intValue_of_unsigned h, ← Int.natCast_ediv, BitVec.ofInt_natCast, ← ushiftRight_eq_div_pow, if_neg Bool.false_ne_true]
  · rw [intValue_of_signed h, if_pos rfl, sshiftRight_eq_div_pow]

/-- A condition that holds between the values holds between the bit vectors (R88). -/
theorem holdsInt_of_condInt {w c : Nat} {A B : BitVec w} {r : Bool} (h : condInt c (intValue ty A) (intValue ty B) = some r) (hc : c < 6) :
    holdsInt ty c A B = r := Option.some.inj ((condInt_intValue hc).symm.trans h)

theorem Alu.low_min : Alu.min.low ty x y =
    if holdsInt ty 3 (x.setWidth (intWidth ty)) (y.setWidth _) then x.setWidth _ else y.setWidth _ := by
  rw [holdsInt_of_condInt (r := decide (_ ≤ _)) rfl (by decide)]
  simp only [Alu.low, Alu.value, asInt_toNat, decide_eq_true_eq]
  split <;> rw [ofInt_intValue]

theorem Alu.low_max : Alu.max.low ty x y =
    if holdsInt ty 5 (x.setWidth (intWidth ty)) (y.setWidth _) then x.setWidth _ else y.setWidth _ := by
  rw [holdsInt_of_condInt (r := decide (_ ≥ _)) rfl (by decide)]
  simp only [Alu.low, Alu.value, asInt_toNat, decide_eq_true_eq]
  split <;> rw [ofInt_intValue]

end

section
variable {s : State} {st : Strand} {d a b : Code} {ty : BitVec 4}

theorem aluOp_of_int (op : Alu) (h : ty.toNat < 8) : aluOp op d a b ty st =
    .ok (st.setX d ⟨extendAs ty (op.low ty (st.x? a).val (st.x? b).val), (st.x? a).poison || (st.x? b).poison⟩) := by
  simp only [aluOp, isInt, h, decide_true, if_true, extend_eq_extendAs, Alu.low]

end

end Sys2Proof.Machine

namespace Sys2Proof

open Sys2Proof.Machine

/-- Settles O14: `aluOp_of_int` at each operation, whose low bits are the bit-vector result (`Alu.low_add` and the others). -/
theorem integerResults : Obligations.IntegerResults := by
  unfold Obligations.IntegerResults
  intro s st hr d a b ty hty x y A B sh gives
  have given (op : Alu) {i : Instr} {v : BitVec (intWidth ty)} (hi : exec i s = strandWord .c 1 (aluOp op d a b ty) s)
      (hv : op.low ty x.val y.val = v) : gives i v :=
    hi.trans (strandWord_ok hr (hv ▸ aluOp_of_int op hty))
  exact ⟨given .add rfl (Alu.low_add _ _), given .sub rfl (Alu.low_sub _ _), given .mul rfl (Alu.low_mul _ _),
    given .mulh rfl (Alu.low_mulh _ _), given .div rfl (Alu.low_div _ _), given .rem rfl (Alu.low_rem _ _),
    given .and rfl (Alu.low_and _ _), given .or rfl (Alu.low_or _ _), given .xor rfl (Alu.low_xor _ _),
    given .shl rfl (Alu.low_shl _ _), given .shr rfl (Alu.low_shr _ _), given .min rfl (Alu.low_min _ _),
    given .max rfl (Alu.low_max _ _)⟩

end Sys2Proof
end

section
/-! PROOFS. Compares, selects and immediate words (R160, R161, R162), and the argument words (R149, R163). -/

namespace Sys2Proof.Machine

section
variable {s : State} {st : Strand} {d a b : Code}

/-- CMP at a condition of R88 between integers. -/
theorem cmpOp_of_int {ty c : BitVec 4} (hty : ty.toNat < 8) (hc : c.toNat < 6) : cmpOp d a b ty c st =
    .ok (st.setX d ⟨if holdsInt ty c.toNat ((st.x? a).val.setWidth (intWidth ty)) ((st.x? b).val.setWidth (intWidth ty)) then 1 else 0,
      (st.x? a).poison || (st.x? b).poison⟩) := by
  have int : isInt ty = true := decide_eq_true hty
  simp only [cmpOp, int, asInt_toNat, condInt_intValue hc]

theorem selOp_eq : selOp d a b st = .ok (st.setX d (if (st.x? d).val = 0
    then ⟨(st.x? b).val, (st.x? d).poison || (st.x? b).poison⟩ else ⟨(st.x? a).val, (st.x? d).poison || (st.x? a).poison⟩)) := by
  simp only [selOp, bne_iff_ne, ne_eq, ite_not]
  split <;> rfl

/-- A word with one source and an immediate writes the value that its operation gives, poisoned as the source is (R151, R162). -/
theorem exec_unaryImm {i : Instr} {len : Nat} {f : DWord → DWord} {v : DWord} (hi : exec i s = strandWord .c len (unaryImm d a f) s)
    (hr : s.ready .c len st) (hv : f (st.x? a).val = v) :
    completes (exec i s) (s.passedAs .c len (st.setX d ⟨v, (st.x? a).poison⟩)) :=
  hi.trans (strandWord_ok hr (hv ▸ rfl))

theorem exec_loadImm {i : Instr} {len : Nat} {v : DWord} (hi : exec i s = strandWord .c len (loadImm d v) s) (hr : s.ready .c len st) :
    completes (exec i s) (s.passedAs .c len (st.setX d ⟨v, false⟩)) :=
  hi.trans (strandWord_ok hr rfl)

/-- ARGL and ARGS at an index inside the argument block, whose word the element read answers (R163, R262). -/
theorem argOp_of_read {off : Int} {bs : List Byte} {p : Bool} {t : State} {n : Nat} {c : Core} (hp : (st.x? a).poison = false)
    (h0 : 0 ≤ (st.x? a).val.toInt + off) (hlt : (st.x? a).val.toInt + off < 2 ^ 24) (h8 : st.argbase.toNat % 8 = 0)
    (hn : n = st.argbase.toNat + 8 * ((st.x? a).val.toInt + off).toNat) (hm : Config.spadBytes ≤ n)
    (read : elemRead s c st .c st.c.slotmode n 8 = .ok (t, bs, p)) : argOp d a off s c st =
      .ok (t.updStrand c fun q => q.setX d (if p then ⟨0, true⟩ else ⟨BitVec.ofNat 64 (natOfBytes bs), false⟩)) := by
  have inside : ¬ ((st.x? a).val.toInt + off < 0 ∨ (st.x? a).val.toInt + off ≥ 2 ^ 24) := by omega
  have memory : isLocal n = false := decide_eq_false (Nat.not_lt.mpr hm)
  subst hn
  simp only [argOp, clean_of_clean hp, bind, Except.bind, Bool.or_eq_true, decide_eq_true_eq, inside, if_false, h8, bne_self_eq_false,
    Bool.false_eq_true, memory, read]

end

end Sys2Proof.Machine

namespace Sys2Proof

open Sys2Proof.Machine

/-- Settles O15: CMP by `condInt_intValue`, SEL by its old destination, and the immediate words by `exec_unaryImm` and `exec_loadImm`. -/
theorem compareAndImmediates : Obligations.CompareAndImmediates := by
  unfold Obligations.CompareAndImmediates
  refine ⟨fun s st hr d a b => ⟨fun ty c hty hc => strandWord_ok (f := cmpOp d a b ty c) hr (cmpOp_of_int hty hc),
      strandWord_ok (f := selOp d a b) hr selOp_eq⟩,
    fun s st d a => ⟨fun hr => ?one, fun hr => ?two⟩⟩
  case one =>
    intro x gives
    exact ⟨fun i => exec_unaryImm (f := (· + i.signExtend 64)) rfl hr rfl,
      fun i => exec_unaryImm (f := (· &&& i.signExtend 64)) rfl hr rfl,
      fun n => exec_unaryImm (f := (· <<< n.toNat)) rfl hr (shiftLeft_eq_mul_pow _),
      fun n => exec_unaryImm (f := (· >>> n.toNat)) rfl hr (ushiftRight_eq_div_pow _),
      fun n => exec_unaryImm (f := (·.sshiftRight n.toNat)) rfl hr (sshiftRight_eq_div_pow _), fun i => exec_loadImm rfl hr⟩
  case two =>
    intro x gives
    exact ⟨fun i => exec_unaryImm (f := (· ||| i.signExtend 64)) rfl hr rfl,
      fun i => exec_unaryImm (f := (· ^^^ i.signExtend 64)) rfl hr rfl, fun i => exec_loadImm rfl hr,
      fun i => exec_unaryImm (f := fun v => i ++ v.extractLsb' 0 32) rfl hr (by rw [BitVec.setWidth_eq_extractLsb' (by decide)])⟩

/-- Settles O16: both words are `argOp`, at their immediates. -/
theorem argumentReads : Obligations.ArgumentReads := by
  unfold Obligations.ArgumentReads
  intro s st d a off bs p t n hp h0 hlt h8 hn hm read word
  have op := argOp_of_read (d := d) hp h0 hlt h8 hn hm read
  exact ⟨fun hr i hi => checkedWord_ok (f := argOp d a i.toInt) hr (hi ▸ op),
    fun hr i hi => checkedWord_ok (f := argOp d a i.toInt) hr (hi ▸ op)⟩

end Sys2Proof
end

section
/-! PROOFS. The record words (R168, R379, R391 to R396): what a slot binds, and each word's operation by what the record, its pin, its
counts and its stamps hold. -/

namespace Sys2Proof.Machine

/-! Slots and jobs (R379). -/

section
variable {s : State} {st : Strand} {tc : Code} {k : Fin 16} {i : BitVec 24} {j : Job}

theorem slotRole_of_val (hk : k.val = tc.toNat) : slotRole tc = .ok k :=
  (role16_of_lt (hk ▸ k.isLt)).trans (congrArg Except.ok (Fin.ext hk.symm))

theorem boundSlot_of_some (hk : k.val = tc.toNat) (hb : st.slots.get k = some i) : boundSlot st tc = .ok i.toNat := by
  simp only [boundSlot, slotRole_of_val hk, bind, Except.bind, hb]

theorem boundSlot_of_none (hk : k.val = tc.toNat) (hb : st.slots.get k = none) : boundSlot st tc = .error (.fault .illegal) := by
  simp only [boundSlot, slotRole_of_val hk, bind, Except.bind, hb, raise]

/-- A slot that a word's immediate names. -/
theorem slot_of_ofNat {n : Word} (hn : n = BitVec.ofNat 32 k.val) : n.toNat < 16 ∧ k.val = (n.setWidth 5).toNat := by
  have := k.isLt
  subst hn
  simp only [BitVec.toNat_setWidth, BitVec.toNat_ofNat]
  omega

theorem jobOf_of_some (hj : s.job? st.job = some j) : jobOf s st = .ok j := by
  simp only [jobOf, hj]

end

/-! Bits of two words side by side. -/

theorem bits_beside_of_lt {hi lo : Nat} (h : hi < 64) (hlo : lo ≤ hi + 1) (v w : Nat) : bits (v * 2 ^ 64 + w) hi lo = bits w hi lo := by
  have split : v * 2 ^ 64 = v * 2 ^ (63 - hi) * 2 ^ (hi + 1 - lo) * 2 ^ lo := by
    rw [mul_assoc, mul_assoc, ← pow_add, ← pow_add]
    congr 2
    omega
  rw [bits, bits, split, Nat.add_comm, Nat.add_mul_div_right _ _ (by positivity), Nat.add_mul_mod_self_right]

/-! Words of a bound record. -/

section
variable {s s1 s2 : State} {t : Core} {st : Strand} {d tc : Code} {n : Word} {i : Nat} {j : Job}
  (hb : boundSlot st tc = .ok i) (hj : s.job? st.job = some j)

section
include hb

theorem treadOp_of_misplaced (h : n.toNat % 8 ≠ 0 ∨ 248 < n.toNat) : treadOp d tc n s t st = .error (.fault .illegal) := by
  simp only [treadOp, hb, bind, Except.bind, Bool.or_eq_true, bne_iff_ne, ne_eq, decide_eq_true_eq, gt_iff_lt, h, if_true, raise]

theorem tringOp_of_no_entry (h : 8 ≤ n.toNat) : tringOp d tc n s t st = .error (.fault .illegal) := by
  simp only [tringOp, hb, bind, Except.bind, ge_iff_le, h, if_true, raise]

end

include hb hj

theorem tverOp_of_pin {e : Word} (hp : pinOf s st i = some e) : tverOp d tc s t st = .ok (putX s t d e.toNat) := by
  simp only [tverOp, hb, jobOf_of_some hj, bind, Except.bind, hp]

theorem tverOp_of_no_pin {e : Nat} (hp : pinOf s st i = none) (he : ringAt s t j i 0 = .ok e) :
    tverOp d tc s t st = .ok (putX s t d e) := by
  simp only [tverOp, hb, jobOf_of_some hj, bind, Except.bind, hp, he]

theorem treadOp_of_word {w : Nat} (h8 : n.toNat % 8 = 0) (hn : n.toNat ≤ 248) (req : recordRequest s t st j i n.toNat = .ok s1)
    (hw : cacheWord s1 t j (recAddr j i + n.toNat) = .ok w) : treadOp d tc n s t st = .ok (putX s1 t d w) := by
  have listed : ¬ (n.toNat % 8 ≠ 0 ∨ n.toNat > 248) := by omega
  simp only [treadOp, hb, bind, Except.bind, Bool.or_eq_true, bne_iff_ne, decide_eq_true_eq, listed, if_false, jobOf_of_some hj, req, hw]

theorem tringOp_of_entry {e : Nat} (hn : n.toNat < 8) (req : recordRequest s t st j i (0x30 + 4 * n.toNat / 8 * 8) = .ok s1)
    (he : ringAt s1 t j i n.toNat = .ok e) : tringOp d tc n s t st = .ok (putX s1 t d e) := by
  simp only [tringOp, hb, bind, Except.bind, ge_iff_le, Nat.not_le.mpr hn, if_false, jobOf_of_some hj, req, he]

/-- TSYNC with no Stamp of the strand under the record under way flushes the record's counts, and else waits (R396). -/
theorem tsyncOp_of_applied (req : recordRequest s t st j i 0 = .ok s1)
    (none : ∀ p ∈ s1.pending, Pending.stampsOf (st.agent t Eng.c.part) i p = false) :
    tsyncOp tc s t st = .ok (flushDeltas s1 t (some i)) := by
  have quiet : s1.pending.any (Pending.stampsOf (st.agent t Eng.c.part) i) = false :=
    List.any_eq_false.mpr fun p hp => by simp [none p hp]
  simp only [tsyncOp, hb, jobOf_of_some hj, bind, Except.bind, req, quiet, Bool.false_eq_true, if_false]

theorem tsyncOp_of_pending (req : recordRequest s t st j i 0 = .ok s1)
    (some : ∃ p ∈ s1.pending, Pending.stampsOf (st.agent t Eng.c.part) i p = true) : tsyncOp tc s t st = .error (.wait .writes) := by
  simp only [tsyncOp, hb, jobOf_of_some hj, bind, Except.bind, req, List.any_eq_true.mpr some, if_true, await]

end

/-! TSTAT (R394): where each selector reads, and what the word answers there. -/

section
variable {n : Nat}

theorem statAt_hist (h : n < 48) : statAt n = some (.hist n) := if_pos h

/-- A bin of the phase counts or of the launch accumulator. -/
theorem statAt_bin (h : n < 48) : statAt (64 + n) = some (.bin false n) ∧ statAt (128 + n) = some (.bin true n) := by
  simp only [statAt, Bool.and_eq_true, decide_eq_true_eq]
  grind

theorem statAt_field (h : n < 6) : statAt (112 + n) = some (.field false n) ∧ statAt (176 + n) = some (.field true n) := by
  simp only [statAt, Bool.and_eq_true, decide_eq_true_eq]
  grind

/-- The fields by their numbers (R394). -/
theorem deltaField_getD (h : n < 6) (c : Delta) : (deltaField c n).getD 0 =
    [c.zero, c.nan, c.ovf, c.udf, c.n, (BitVec.ofInt 64 (c.max.getD (-128))).toNat].getD n 0 := by
  match n, h with
  | 0, _ | 1, _ | 2, _ | 3, _ | 4, _ | 5, _ => rfl

theorem statAt_of_unlisted (h : (51 ≤ n ∧ n < 64) ∨ (118 ≤ n ∧ n < 128) ∨ 182 ≤ n) : statAt n = none := by
  unfold statAt
  simp only [Bool.and_eq_true, decide_eq_true_eq]
  grind

end

/-- The counts of a record that TSTAT reads: of the phase, or of the strand's launch. -/
def statCounts (s : State) (st : Strand) (j : Job) (i : Nat) (launch : Bool) : Delta :=
  if launch then ((s.launch? st.handle).bind fun l => lookupNat l.accums i).getD {} else (lookupNat j.counts i).getD {}

section
variable {s s1 s2 : State} {t : Core} {st : Strand} {d tc : Code} {n : Word} {i : Nat} {j : Job}
  (hb : boundSlot st tc = .ok i) (hj : s.job? st.job = some j)
include hb hj

theorem tstatOp_of_unlisted (h : statAt n.toNat = none) : tstatOp d tc n s t st = .error (.fault .illegal) := by
  simp only [tstatOp, hb, jobOf_of_some hj, bind, Except.bind, h, raise]

theorem tstatOp_of_word {off hi lo w : Nat} (h : statAt n.toNat = some (.word off hi lo)) (req : recordRequest s t st j i off = .ok s1)
    (hw : cacheWord s1 t j (recAddr j i + off) = .ok w) : tstatOp d tc n s t st = .ok (putX s1 t d (bits w hi lo)) := by
  simp only [tstatOp, hb, jobOf_of_some hj, bind, Except.bind, h, req, hw]

/-- A bin of the record's histogram, which may lie in two words. -/
theorem tstatOp_of_hist {b at0 at1 w0 w1 : Nat} (h : statAt n.toNat = some (.hist b)) (h0 : at0 = 0x58 + 8 * (24 * b / 64))
    (h1 : at1 = 0x58 + 8 * ((24 * b + 23) / 64)) (req0 : recordRequest s t st j i at0 = .ok s1)
    (req1 : recordRequest s1 t st j i at1 = .ok s2) (hw0 : cacheWord s2 t j (recAddr j i + at0) = .ok w0)
    (hw1 : cacheWord s2 t j (recAddr j i + at1) = .ok w1) : tstatOp d tc n s t st =
      .ok (putX s2 t d (bits (w1 * 2 ^ 64 + w0) (24 * b % 64 + 23) (24 * b % 64))) := by
  simp only [tstatOp, hb, jobOf_of_some hj, bind, Except.bind, h, ← h0, ← h1, req0, req1, hw0, hw1]
  by_cases one : at1 = at0
  · have low : 24 * b % 64 + 23 < 64 := by omega
    simp only [one, if_true, pure, Except.pure, bits_beside_of_lt low (Nat.le_add_right_of_le (Nat.le_add_right _ _))]
  · simp only [one, if_false]

theorem tstatOp_of_bin {launch : Bool} {b : Nat} {c : Delta} (h : statAt n.toNat = some (.bin launch b))
    (req : recordRequest s t st j i 0 = .ok s1) (hc : statCounts s st j i launch = c) :
    tstatOp d tc n s t st = .ok (putX s1 t d ((lookupNat c.bins b).getD 0)) := by
  simp only [tstatOp, hb, jobOf_of_some hj, bind, Except.bind, h, req, ← hc, statCounts]

theorem tstatOp_of_field {launch : Bool} {k : Nat} {c : Delta} (h : statAt n.toNat = some (.field launch k))
    (req : recordRequest s t st j i 0 = .ok s1) (hc : statCounts s st j i launch = c) :
    tstatOp d tc n s t st = .ok (putX s1 t d ((deltaField c k).getD 0)) := by
  simp only [tstatOp, hb, jobOf_of_some hj, bind, Except.bind, h, req, ← hc, statCounts]

end

/-! TSTMP (R395). -/

/-- A granule's state as TSTMP gives it: settled, pending, open (R277, R395). -/
def granuleCode : Option Bool → Nat
  | none => 0
  | some false => 1
  | some true => 2

section
variable {s s1 s2 : State} {t : Core} {st : Strand} {d a : Code} {n : Word} {i : Nat} {j : Job} {ws : List Nat}

theorem tstmpOp_of_no_slot (h : 16 ≤ n.toNat) : tstmpOp d a n s t st = .error (.fault .illegal) := if_pos h

variable (hn : n.toNat < 16)
include hn

theorem tstmpOp_of_poison (hp : (st.x? a).poison = true) : tstmpOp d a n s t st = .error (.fault .poisonSync) := by
  simp only [tstmpOp, ge_iff_le, Nat.not_le.mpr hn, if_false, clean_of_poison hp, bind, Except.bind]

variable (hp : (st.x? a).poison = false)
include hp

theorem tstmpOp_of_unbound (hb : boundSlot st (n.setWidth 5) = .error (.fault .illegal)) :
    tstmpOp d a n s t st = .error (.fault .illegal) := by
  simp only [tstmpOp, ge_iff_le, Nat.not_le.mpr hn, if_false, clean_of_clean hp, bind, Except.bind, hb]

variable (hb : boundSlot st (n.setWidth 5) = .ok i) (hj : s.job? st.job = some j) (hws : recordWords s t j i = .ok ws)
include hb hj hws

theorem tstmpOp_of_outside (h : bits (ws.getD 2 0) 39 0 ≤ (st.x? a).val.toNat) :
    tstmpOp d a n s t st = .error (.fault .protection) := by
  simp only [tstmpOp, ge_iff_le, Nat.not_le.mpr hn, if_false, clean_of_clean hp, bind, Except.bind, hb, jobOf_of_some hj, hws, h, if_true,
    raise]

theorem tstmpOp_of_element {at_ b : Nat} {r : Bool} (h : (st.x? a).val.toNat < bits (ws.getD 2 0) 39 0)
    (hat : at_ = bits (ws.getD 5 0) 55 0 + (st.x? a).val.toNat / 65536) (req : recordRequest s t st j i 0x30 = .ok s1)
    (home : homeRequest s1 t st j at_ 1 = .ok s2) (stamp : stampByte s2 t j at_ = .ok b) (ring : inRing s2 t j i b 8 = .ok r) :
    tstmpOp d a n s t st = .ok (putX s2 t d (b + granuleCode (granuleSeen s2 t j i ((st.x? a).val.toNat / 65536)) * 256 +
      (if r then 1024 else 0))) := by
  simp only [tstmpOp, ge_iff_le, Nat.not_le.mpr hn, Nat.not_le.mpr h, if_false, clean_of_clean hp, bind, Except.bind, hb, jobOf_of_some hj,
    hws, req, ← hat, home, stamp, ring]
  rfl

end

/-! TBIND (R391). -/

section
variable {s s1 u : State} {t : Core} {st : Strand} {tc a : Code} {k : Fin 16} {j : Job} (hk : k.val = tc.toNat)

theorem pinRecord_of_dead {i e : Nat} {ws : List Nat} (hj : s.job? st.job = some j) (hi : i < j.rtsize) (he : ringAt s t j i 0 = .ok e)
    (hws : recordWords s t j i = .ok ws) (hl : ringLive e = false) : pinRecord s t st i = .error (.fault .protection) := by
  simp only [pinRecord, jobOf_of_some hj, bind, Except.bind, ge_iff_le, Nat.not_le.mpr hi, if_false, he, hws, hl, Bool.not_false,
    Bool.true_or, if_true, raise]

theorem ringLive_of_bit_clear {e : Nat} (h : bits e 24 24 = 0) : ringLive e = false := by
  have clear : (bits e 24 24 == 1) = false := by rw [h]; rfl
  simp only [ringLive, clear, Bool.false_and]

include hk

theorem tunbOp_eq : tunbOp tc st = .ok { st with slots := st.slots.set k.val none k.isLt } := by
  simp only [tunbOp, slotRole_of_val hk, bind, Except.bind]

theorem tbindOp_of_poison (hp : (st.x? a).poison = true) : tbindOp tc a s t st = .error (.fault .poisonSync) := by
  simp only [tbindOp, slotRole_of_val hk, clean_of_poison hp, bind, Except.bind]

variable (hp : (st.x? a).poison = false) (hj : s.job? st.job = some j)
include hp hj

theorem tbindOp_of_outside (h : j.rtsize ≤ (st.x? a).val.toNat) : tbindOp tc a s t st = .error (.fault .protection) := by
  simp only [tbindOp, slotRole_of_val hk, clean_of_clean hp, jobOf_of_some hj, bind, Except.bind, ge_iff_le, h, if_true, raise]

/-- TBIND of an index inside the table is its request, the pin, and the slot. -/
theorem tbindOp_of_inside (h : (st.x? a).val.toNat < j.rtsize) (req : recordRequest s t st j (st.x? a).val.toNat 0x30 = .ok s1) :
    tbindOp tc a s t st = (pinRecord s1 t st (st.x? a).val.toNat).map fun u =>
      u.updStrand t fun q => { q with slots := q.slots.set k.val (some ((st.x? a).val.setWidth 24)) k.isLt } := by
  simp only [tbindOp, slotRole_of_val hk, clean_of_clean hp, jobOf_of_some hj, bind, Except.bind, ge_iff_le, Nat.not_le.mpr h, if_false,
    req]
  rfl

end

/-! GSEL (R168). -/

section
variable {s : State} {st : Strand} {a : Code} {i : BitVec 8}

/-- A launch of a graph node with a strand's selector recorded, one for each strand. -/
def Launch.selecting (l : Launch) (k : BitVec 24) (v : BitVec 8) : Launch :=
  if l.node.isSome then { l with selectors := (k, v) :: l.selectors.filter fun e => e.1 != k } else l

theorem Launch.handle_selecting (l : Launch) (k : BitVec 24) (v : BitVec 8) : (l.selecting k v).handle = l.handle := by
  unfold Launch.selecting
  split <;> rfl

theorem Launch.selecting_of_no_node {l : Launch} (h : ¬ l.node.isSome = true) (k : BitVec 24) (v : BitVec 8) : l.selecting k v = l :=
  if_neg h

theorem Launch.selectors_selecting {l : Launch} (h : l.node.isSome = true) (k : BitVec 24) (v : BitVec 8) :
    (l.selecting k v).selectors.filter (fun e => e.1 == k) = [(k, v)] ∧
      (l.selecting k v).selectors.filter (fun e => e.1 != k) = l.selectors.filter fun e => e.1 != k := by
  rw [Launch.selecting, if_pos h]
  simp [List.filter_filter, bne]

theorem exec_gsel_of_poison (hr : s.ready .c 1 st) (hp : (st.x? a).poison = true) :
    exec (.gsel a i) s = .next (wordFault s s.focusTile .c 0 .poisonSync .atWord) :=
  checkedWord_fault (e := .c) (f := gselOp a i) hr (by simp only [gselOp, clean_of_poison hp, bind, Except.bind])

theorem exec_gsel_of_clean (hr : s.ready .c 1 st) (hp : (st.x? a).poison = false) : exec (.gsel a i) s =
    .next ((s.updLaunch st.handle fun l => l.selecting st.index ((st.x? a).val.setWidth 8 + i)).passed .c 1) :=
  checkedWord_ok (f := gselOp a i) hr (by simp only [gselOp, clean_of_clean hp, bind, Except.bind]; rfl)

end

end Sys2Proof.Machine

namespace Sys2Proof

open Sys2Proof.Machine

/-- Settles O20: a slot that binds nothing is `boundSlot_of_none`, a bound one is each word's operation at its record; GSEL is the launch's
own update. -/
theorem recordWords : Obligations.RecordWords := by
  unfold Obligations.RecordWords
  refine ⟨fun s st d tc a j k i hr hk hj => ?record, fun s st a i hr => ⟨exec_gsel_of_poison hr, fun hp => ?gsel⟩⟩
  case record =>
    intro x gives asked word mine counts accum field
    refine ⟨?tunb, fun hb n => ?unbound, fun n h => ?noSlot, fun n h hp => ?tstmpPoison, fun hb => ?bound, fun hp => ?tbindPoison,
      fun hp h => ?noIndex, fun e ws s1 hp h req hj1 he hws => ⟨fun hl => ?notLive, fun t ht => ?tbind⟩⟩
    case tunb => exact strandWord_ok (f := tunbOp tc) hr (tunbOp_eq hk)
    case unbound =>
      have none : boundSlot st tc = .error (.fault .illegal) := boundSlot_of_none hk hb
      have illegal {f : State → Core → Strand → Except Halt State} {i : Instr} (hi : exec i s = checkedWord .c 2 f s)
          (hf : f s s.focusTile st = .error (.fault .illegal)) : raises i s .c 0 .illegal := hi.trans (checkedWord_fault hr hf)
      refine ⟨illegal (f := tsyncOp tc) rfl ?_, illegal (f := tverOp d tc) rfl ?_, illegal (f := treadOp d tc n) rfl ?_,
        illegal (f := tringOp d tc n) rfl ?_, illegal (f := tstatOp d tc n) rfl ?_, fun hn hp => illegal (f := tstmpOp d a n) rfl ?_⟩
      · simp only [tsyncOp, none, bind, Except.bind]
      · simp only [tverOp, none, bind, Except.bind]
      · simp only [treadOp, none, bind, Except.bind]
      · simp only [tringOp, none, bind, Except.bind]
      · simp only [tstatOp, none, bind, Except.bind]
      · obtain ⟨lt, named⟩ := slot_of_ofNat hn
        exact tstmpOp_of_unbound lt hp (boundSlot_of_none named hb)
    case noSlot => exact checkedWord_fault (e := .c) (f := tstmpOp d a n) hr (tstmpOp_of_no_slot h)
    case tstmpPoison => exact checkedWord_fault (e := .c) (f := tstmpOp d a n) hr (tstmpOp_of_poison h hp)
    case tbindPoison => exact checkedWord_fault (e := .c) (f := tbindOp tc a) hr (tbindOp_of_poison hk hp)
    case noIndex => exact checkedWord_fault (e := .c) (f := tbindOp tc a) hr (tbindOp_of_outside hk hp hj h)
    case notLive =>
      refine checkedWord_fault (e := .c) (f := tbindOp tc a) hr ((tbindOp_of_inside hk hp hj h req).trans ?_)
      rw [pinRecord_of_dead hj1 h he hws (ringLive_of_bit_clear hl)]
      rfl
    case tbind =>
      refine checkedWord_ok (f := tbindOp tc a) hr ((tbindOp_of_inside hk hp hj h req).trans ?_)
      rw [ht]
      rfl
    case bound =>
      have some : boundSlot st tc = .ok i.toNat := boundSlot_of_some hk hb
      have named {c : Nat} (hc : c < 256) : statAt (BitVec.ofNat 32 c).toNat = statAt c := by
        rw [BitVec.toNat_ofNat, Nat.mod_eq_of_lt (by omega)]
      have stat {n : Word} {s1 : State} {v : Nat} (h : tstatOp d tc n s s.focusTile st = .ok (putX s1 s.focusTile d v)) :
          gives (.tstat d tc n) s1 v := checkedWord_ok (f := tstatOp d tc n) hr h
      have ofPhase : statCounts s st j i.toNat false = counts := rfl
      have ofLaunch : statCounts s st j i.toNat true = accum := rfl
      refine ⟨fun e hp => checkedWord_ok (f := tverOp d tc) hr (tverOp_of_pin some hj hp),
        fun e hp he => checkedWord_ok (f := tverOp d tc) hr (tverOp_of_no_pin some hj hp he),
        fun n w s1 h8 hn req hw => checkedWord_ok (f := treadOp d tc n) hr (treadOp_of_word some hj h8 hn req hw),
        fun n h => checkedWord_fault (e := .c) (f := treadOp d tc n) hr (treadOp_of_misplaced some h),
        fun n e s1 hn req he => checkedWord_ok (f := tringOp d tc n) hr (tringOp_of_entry some hj hn req he),
        fun n h => checkedWord_fault (e := .c) (f := tringOp d tc n) hr (tringOp_of_no_entry some h),
        fun n w0 w1 s1 s2 hn => ?hist, fun w s1 req hw => ?words, fun n s1 req => ⟨fun hn => ?bins, fun hn => ?fields⟩,
        fun n h => ?unlisted,
        fun s1 req none => checkedWord_ok (f := tsyncOp tc) hr (tsyncOp_of_applied some hj req none),
        fun s1 req more => checkedWord_wait (f := tsyncOp tc) hr (tsyncOp_of_pending some hj req more),
        fun ws b r n s1 s2 hn hp => ?tstmp⟩
      case hist =>
        intro lo at0 at1 req0 req1 hw0 hw1
        exact stat (tstatOp_of_hist some hj (statAt_hist hn) rfl rfl req0 req1 hw0 hw1)
      case words => exact ⟨stat (tstatOp_of_word some hj rfl req hw), stat (tstatOp_of_word some hj rfl req hw),
        stat (tstatOp_of_word some hj rfl req hw)⟩
      case bins =>
        obtain ⟨atPhase, atLaunch⟩ := statAt_bin hn
        exact ⟨stat (tstatOp_of_bin some hj ((named (by omega)).trans atPhase) req ofPhase),
          stat (tstatOp_of_bin some hj ((named (by omega)).trans atLaunch) req ofLaunch)⟩
      case fields =>
        obtain ⟨atPhase, atLaunch⟩ := statAt_field hn
        have value (c : Delta) : (deltaField c n).getD 0 = field c n := deltaField_getD hn c
        rw [← value, ← value]
        exact ⟨stat (tstatOp_of_field some hj ((named (by omega)).trans atPhase) req ofPhase),
          stat (tstatOp_of_field some hj ((named (by omega)).trans atLaunch) req ofLaunch)⟩
      case unlisted =>
        exact checkedWord_fault (e := .c) (f := tstatOp d tc n) hr (tstatOp_of_unlisted some hj (statAt_of_unlisted h))
      case tstmp =>
        intro g at_ hws
        obtain ⟨lt, named⟩ := slot_of_ofNat hn
        have bound : boundSlot st (n.setWidth 5) = .ok i.toNat := boundSlot_of_some named hb
        exact ⟨fun h => checkedWord_fault (e := .c) (f := tstmpOp d a n) hr (tstmpOp_of_outside lt hp bound hj hws h),
          fun h req home stamp ring =>
            checkedWord_ok (f := tstmpOp d a n) hr (tstmpOp_of_element lt hp bound hj hws h rfl req home stamp ring)⟩
  case gsel =>
    refine ⟨_, exec_gsel_of_clean hr hp, fun l l' hl hl' => ?_, ?_⟩
    · have kept : (s.updLaunch st.handle fun l => l.selecting st.index ((st.x? a).val.setWidth 8 + i)).launch? st.handle = some l' := hl'
      rw [State.launch?_updLaunch fun l => l.handle_selecting _ _, hl] at kept
      obtain rfl := Option.some.inj kept
      split
      case isTrue node => exact Launch.selectors_selecting node _ _
      case isFalse none => exact Launch.selecting_of_no_node none _ _
    · rw [State.strand_passedAs]
      exact State.strand_passed (s := s.updLaunch _ _) hr.1 _ _

end Sys2Proof
end

section
/-! PROOFS. Tile operands and predicated writes (R182, R183, R185, R186, R187, R190, R192): what a source of the vector engine gives by
its operand code, what a written tile holds in a row's lanes, poison and tag, and the halves of a lane of two elements. -/

namespace Sys2Proof.Machine

/-! Entries taken from a queue (R187, R318). -/

section
variable {α : Type} {st : Strand} {e : Eng} {q es rest : List (Queued α)} {n : Nat}

theorem takeN_of_append (hq : q = es ++ rest) (hn : es.length = n) (peek : Bool) :
    takeN st e q n peek = .ok (es.map (·.val), if peek then q else rest, st.took e es) := by
  subst hq hn
  simp [takeN]

theorem takeN_of_short (h : q.length < n) (peek : Bool) : takeN st e q n peek = .error (.wait .pop) := if_pos h

end

section
variable {st : Strand} {es rest : List (Queued Row)} {v : Queued PWord} {more : List (Queued PWord)} {n : Nat}

theorem popA2v_of_append (hq : st.a2v = es ++ rest) (hn : es.length = n) (peek : Bool) :
    popA2v st n peek = .ok (es.map (·.val), { st.took .v es with a2v := if peek then st.a2v else rest }) := by
  simp only [popA2v, takeN_of_append hq hn, bind, Except.bind]

theorem popM2v_of_append (hq : st.m2v = es ++ rest) (hn : es.length = n) (peek : Bool) :
    popM2v st n peek = .ok (es.map (·.val), { st.took .v es with m2v := if peek then st.m2v else rest }) := by
  simp only [popM2v, takeN_of_append hq hn, bind, Except.bind]

theorem popC2v_of_cons (hq : st.c2v = v :: more) (peek : Bool) :
    popC2v st peek = .ok (v.val, { st.took .v [v] with c2v := if peek then st.c2v else more }) := by
  have taken : takeN st .v st.c2v 1 peek = .ok ([v.val], if peek then st.c2v else more, st.took .v [v]) :=
    takeN_of_append (es := [v]) hq rfl peek
  simp only [popC2v, takeOne, taken, bind, Except.bind, List.headD_cons]

theorem popA2v_of_short (h : st.a2v.length < n) (peek : Bool) : popA2v st n peek = .error (.wait .pop) := by
  simp only [popA2v, takeN_of_short h, bind, Except.bind]

theorem popM2v_of_short (h : st.m2v.length < n) (peek : Bool) : popM2v st n peek = .error (.wait .pop) := by
  simp only [popM2v, takeN_of_short h, bind, Except.bind]

theorem popC2v_of_empty (h : st.c2v = []) (peek : Bool) : popC2v st peek = .error (.wait .pop) := by
  have short : st.c2v.length < 1 := by rw [h]; exact Nat.one_pos
  simp only [popC2v, takeOne, takeN_of_short short, bind, Except.bind]

end

/-! Sources of the vector engine (R185, R186, R187). -/

/-- The tile of one value in every lane (R186). -/
def spreadTile (v : PWord) : Tile := tileOf (fun _ _ => v.val.setWidth 32) fun _ => v.poison

section
variable {st : Strand} {a b : Code}

theorem srcV_of_register (h : a.toNat < 16) : srcV st a = .ok (st.tiles.get ⟨a.toNat, h⟩, st) := dif_pos h

theorem srcV_a2v {peek : Bool} {r : Except Halt (List Row × Strand)} (h : popA2v st 16 peek = r) :
    srcV st (if peek then 17 else 16) = r.map fun x => (tileOfRows x.1, x.2) := by
  subst h
  cases peek <;> rfl

theorem srcV_m2v {peek : Bool} {r : Except Halt (List Row × Strand)} (h : popM2v st 16 peek = r) :
    srcV st (if peek then 19 else 18) = r.map fun x => (tileOfRows x.1, x.2) := by
  subst h
  cases peek <;> rfl

theorem srcV_c2v {peek : Bool} {r : Except Halt (PWord × Strand)} (h : popC2v st peek = r) :
    srcV st (if peek then 21 else 20) = r.map fun x => (spreadTile x.1, x.2) := by
  subst h
  cases peek <;> rfl

theorem needSrcV_of_le (h : 22 ≤ a.toNat) : needSrcV a = .error (.fault .illegal) := by
  simp only [needSrcV, need, decide_eq_false (Nat.not_lt.mpr h), Bool.false_eq_true, if_false]

/-- An operand code that no source has is ILLEGAL before anything is taken. -/
theorem srcV2_of_le (h : 22 ≤ a.toNat ∨ 22 ≤ b.toNat) : srcV2 st a b = .error (.fault .illegal) := by
  by_cases ha : a.toNat < 22
  · simp only [srcV2, needSrcV_of_lt ha, needSrcV_of_le (h.resolve_left (Nat.not_le.mpr ha)), bind, Except.bind]
  · simp only [srcV2, needSrcV_of_le (Nat.not_lt.mp ha), bind, Except.bind]

theorem srcV2_of_registers (ha : a.toNat < 16) (hb : b.toNat < 16) :
    srcV2 st a b = .ok (st.tiles.get ⟨a.toNat, ha⟩, st.tiles.get ⟨b.toNat, hb⟩, st) := by
  have ne {k : Code} (hk : 16 ≤ k.toNat) : (a == k) = false := beq_eq_false_iff_ne.mpr fun same => by subst same; omega
  have free : needDepth a b = .ok () := by
    simp only [needDepth, ne (k := 16) (by decide), ne (k := 18) (by decide), Bool.false_and, Bool.or_self, Bool.not_false, need, if_true]
  have srcA : needSrcV a = .ok () := needSrcV_of_lt (by omega)
  have srcB : needSrcV b = .ok () := needSrcV_of_lt (by omega)
  simp only [srcV2, srcA, srcB, free, srcV_of_register ha, srcV_of_register hb, bind, Except.bind]

end

/-! A written tile (R183, R190, R192). -/

section
variable {st : Strand} {q : BitVec 1} {r c : Nat}

theorem Tile.poison_tileOf {f : Nat → Nat → Word} {poison : Nat → Bool} (hr : r < 16) :
    ((tileOf f poison).row r).poison = poison r := by
  rw [tileOf, Tile.row_tab _ hr]

theorem anyLane_iff {p : Nat → Bool} : anyLane p = true ↔ ∃ k, k < 64 ∧ p k = true := by
  simp only [anyLane, List.any_eq_true, List.mem_range]

theorem anyLane_not_iff {p : Nat → Bool} : (anyLane fun k => !p k) = true ↔ ∃ k, k < 64 ∧ p k = false := by
  simp only [anyLane_iff, Bool.not_eq_true']

theorem Tile.poison_mergeTile (old new : Tile) (hr : r < 16) : ((mergeTile st q old new).row r).poison =
    ((anyLane (st.writes q r) && (new.row r).poison) || ((anyLane fun k => !st.writes q r k) && (old.row r).poison)) := by
  rw [mergeTile, Tile.row_tab _ hr]

theorem Tile.tag_mergeTile (old new : Tile) (hr : r < 16) : ((mergeTile st q old new).row r).tag =
    if anyLane fun k => !st.writes q r k then {} else (new.row r).tag := by
  rw [mergeTile, Tile.row_tab _ hr]

theorem Strand.writes_all : st.writes 0 r c = true := rfl

theorem Strand.writes_of_empty (h : st.pred = []) : st.writes q r c = true := by
  simp only [Strand.writes, Strand.p, h, Bool.or_true]

theorem Strand.writes_top {m : BitVec 1024} {rest : List (BitVec 1024)} (h : st.pred = m :: rest) :
    st.writes 1 r c = m.getLsbD (64 * r + c) := by
  simp only [Strand.writes, Strand.p, h]
  rfl

end

/-! Two elements in a lane (R182). -/

/-- The low 16 bits of a lane. -/
theorem getLsbD_lowMask (k : Nat) : (0xFFFF : Word).getLsbD k = decide (k < 16) := by
  show (BitVec.ofNat 32 (2 ^ 16 - 1)).getLsbD k = _
  rw [BitVec.getLsbD_ofNat, Nat.testBit_two_pow_sub_one]
  by_cases h : k < 16 <;> simp [h]
  omega

theorem lowHalf_eq (u : Word) : u &&& 0xFFFF = (u.extractLsb' 0 16).setWidth 32 :=
  BitVec.eq_of_getLsbD_eq fun k hk => by
    simp only [BitVec.getLsbD_and, getLsbD_lowMask, BitVec.getLsbD_setWidth, BitVec.getLsbD_extractLsb', hk, Nat.zero_add]
    simp [Bool.and_comm]

theorem highHalf_eq (u : Word) : u >>> 16 = (u.extractLsb' 16 16).setWidth 32 :=
  BitVec.eq_of_getLsbD_eq fun k hk => by
    simp only [BitVec.getLsbD_ushiftRight, BitVec.getLsbD_setWidth, BitVec.getLsbD_extractLsb', hk]
    by_cases h : k < 16
    · simp [h]
    · simp [h, BitVec.getLsbD_of_ge u (16 + k) (by omega)]

theorem extract_low_of_halves (u v : BitVec 16) : (u.setWidth 32 ||| (v.setWidth 32 <<< 16)).extractLsb' 0 16 = u :=
  BitVec.eq_of_getLsbD_eq fun k hk => by
    have low : k < 32 := by omega
    simp [hk, low]

theorem extract_high_of_halves (u v : BitVec 16) : (u.setWidth 32 ||| (v.setWidth 32 <<< 16)).extractLsb' 16 16 = v :=
  BitVec.eq_of_getLsbD_eq fun k hk => by
    have high : 16 + k < 32 := by omega
    simp [hk, high]

/-- A lane of two elements is computed half by half. -/
theorem perElem_of_halves {ty : BitVec 4} (h : ty = 1 ∨ ty = 5 ∨ ty = 9) (f : Word → Word → Word → Word) (a b d : Word) :
    (perElem ty f a b d).extractLsb' 0 16 =
      (f ((a.extractLsb' 0 16).setWidth 32) ((b.extractLsb' 0 16).setWidth 32) ((d.extractLsb' 0 16).setWidth 32)).extractLsb' 0 16 ∧
    (perElem ty f a b d).extractLsb' 16 16 =
      (f ((a.extractLsb' 16 16).setWidth 32) ((b.extractLsb' 16 16).setWidth 32) ((d.extractLsb' 16 16).setWidth 32)).extractLsb' 0 16 := by
  have two : ty = 1 ∨ ty = 5 ∨ ty = 9 ∨ ty = 10 := by tauto
  simp only [perElem, if_pos two, lowHalf_eq, highHalf_eq]
  exact ⟨extract_low_of_halves _ _, extract_high_of_halves _ _⟩

end Sys2Proof.Machine

namespace Sys2Proof

open Sys2Proof.Machine

/-- Settles O33: a source by its operand code (`srcV_of_register`, `srcV_a2v`, `srcV_m2v`, `srcV_c2v`), a written row by its lanes, poison
and tag, a lane by its elements. -/
theorem vectorOperandsAndWrites : Obligations.VectorOperandsAndWrites := by
  unfold Obligations.VectorOperandsAndWrites
  refine ⟨fun st a b es rest v more hes => ?sources, fun st q old new r c hr hc => ?write,
    fun ty f a b d => ⟨fun h => by rw [perElem_of_whole h], fun h => perElem_of_halves h f a b d⟩⟩
  case sources =>
    intro taken
    refine ⟨srcV_of_register,
      fun hq => ⟨srcV_a2v (popA2v_of_append hq hes false), srcV_a2v (popA2v_of_append hq hes true)⟩,
      fun hq => ⟨srcV_m2v (popM2v_of_append hq hes false), srcV_m2v (popM2v_of_append hq hes true)⟩,
      fun hq => ⟨srcV_a2v (popA2v_of_short hq false), srcV_a2v (popA2v_of_short hq true)⟩,
      fun hq => ⟨srcV_m2v (popM2v_of_short hq false), srcV_m2v (popM2v_of_short hq true)⟩,
      fun hq => ⟨spreadTile v.val, srcV_c2v (popC2v_of_cons hq false), srcV_c2v (popC2v_of_cons hq true),
        fun r c hr hc => ⟨Tile.lane_tileOf hr hc, Tile.poison_tileOf hr⟩⟩,
      fun hq => ⟨srcV_c2v (popC2v_of_empty hq false), srcV_c2v (popC2v_of_empty hq true)⟩,
      srcV2_of_registers, srcV2_of_le, fun k hk => ?_, fun k hk => ?_⟩
    · obtain rfl | rfl : k = 16 ∨ k = 17 := by simpa using hk
      all_goals rfl
    · obtain rfl | rfl : k = 18 ∨ k = 19 := by simpa using hk
      all_goals rfl
  case write =>
    intro t kept some_
    refine ⟨Tile.lane_mergeTile st q old new hr hc, ?spoils, fun h => ?lost, fun h => ?stays, fun hq => by rw [hq, Strand.writes_all],
      Strand.writes_of_empty, fun m rest hm hq => by rw [hq, Strand.writes_top hm]⟩
    case spoils =>
      simp only [t, Tile.poison_mergeTile _ _ hr, Bool.or_eq_true, Bool.and_eq_true, anyLane_iff, Bool.not_eq_true', kept, some_]
    case lost => rw [Tile.tag_mergeTile _ _ hr, if_pos (anyLane_not_iff.mpr h)]
    case stays => rw [Tile.tag_mergeTile _ _ hr, if_neg (mt anyLane_not_iff.mp h)]

end Sys2Proof
end

section
/-! PROOFS. The predicate stack (R191 to R194): the bits of a mask made lane by lane, and what each word answers by the stack's depth. -/

namespace Sys2Proof.Machine

/-! The mask of a tile's lanes (R192). -/

/-- Bit `k` of a number built from bits, the lowest first. -/
theorem testBit_foldr_bits (p : Nat → Bool) (l : List Nat) (k : Nat) :
    (l.foldr (fun i n => (if p i then 1 else 0) + 2 * n) 0).testBit k = (l[k]?).any p := by
  induction l generalizing k with
  | nil => simp
  | cons i l ih =>
    cases k with
    | zero => cases h : p i <;> simp [Nat.testBit_zero, h, Nat.add_mod]
    | succ k =>
      rw [List.foldr_cons, List.getElem?_cons_succ, ← ih k, Nat.testBit_succ]
      congr 1
      split <;> omega

theorem getLsbD_maskOf (f : Nat → Nat → Bool) {r c : Nat} (hr : r < 16) (hc : c < 64) : (maskOf f).getLsbD (64 * r + c) = f r c := by
  have inside : 64 * r + c < 1024 := by omega
  have row : (64 * r + c) / 64 = r := by omega
  have column : (64 * r + c) % 64 = c := by omega
  rw [maskOf, BitVec.getLsbD_ofNat, testBit_foldr_bits fun i => f (i / 64) (i % 64)]
  simp [inside, row, column]

/-! VPUSH (R193). -/

section
variable {st st1 : Strand} {a b c : Code} {ty : BitVec 4} {x y : Tile}

/-- Two operands that a word takes have passed the checks of their codes. -/
theorem needs_of_srcV2 {z : Tile × Tile × Strand} (h : srcV2 st a b = .ok z) :
    needSrcV a = .ok () ∧ needSrcV b = .ok () ∧ needDepth a b = .ok () := by
  simp only [srcV2, bind, Except.bind] at h
  cases ha : needSrcV a with
  | error e => simp only [ha, reduceCtorEq] at h
  | ok u =>
    cases hb : needSrcV b with
    | error e => simp only [ha, hb, reduceCtorEq] at h
    | ok v =>
      cases hq : needDepth a b with
      | error e => simp only [ha, hb, hq, reduceCtorEq] at h
      | ok w => exact ⟨rfl, rfl, rfl⟩

/-- What VPUSH comes to once its codes are known: the depth is looked at before the poison of its sources. -/
theorem vpushOp_eq (hs : srcV2 st a b = .ok (x, y, st1)) (hty : (ty = 8 ∧ c.toNat ≤ 6) ∨ ((ty = 2 ∨ ty = 6) ∧ c.toNat ≤ 5)) :
    vpushOp c a b ty st =
      if 8 ≤ st.pred.length then .error (.fault .predicateDepth)
      else if (List.range 16).any fun r => (x.row r).poison || (y.row r).poison then .error (.fault .poisonSync)
      else .ok { st1 with pred := maskOf (fun r k => vecCond c.toNat ty (x.lane r k) (y.lane r k) && st1.p r k) :: st1.pred } := by
  obtain ⟨srcA, srcB, depth⟩ := needs_of_srcV2 hs
  have condition : decide (c.toNat ≤ 6) = true := decide_eq_true (by omega)
  have type : (ty == 8 || ((ty == 2 || ty == 6) && c != 6)) = true := by
    have ne (h : c.toNat ≤ 5) : c ≠ 6 := fun same => by subst same; exact absurd h (by decide)
    simp only [Bool.or_eq_true, Bool.and_eq_true, beq_iff_eq, bne_iff_ne]
    exact hty.imp And.left (And.imp_right ne)
  simp only [vpushOp, condition, type, srcA, srcB, depth, hs, need, bind, Except.bind, if_true]
  by_cases deep : 8 ≤ st.pred.length
  · simp only [deep, decide_eq_false (Nat.not_lt.mpr deep), Bool.false_eq_true, if_true, if_false]
  · simp only [deep, decide_eq_true (Nat.not_le.mp deep), if_true, if_false]
    cases (List.range 16).any fun r => (x.row r).poison || (y.row r).poison <;> rfl

theorem any_poison_iff : ((List.range 16).any fun r => (x.row r).poison || (y.row r).poison) = true ↔
    ∃ r, r < 16 ∧ ((x.row r).poison = true ∨ (y.row r).poison = true) := by
  simp only [List.any_eq_true, List.mem_range, Bool.or_eq_true]

end

/-! VELSE and VPEND (R194). -/

/-- The top complemented within the entry below it, or within every lane. -/
def elseMask (m : BitVec 1024) (rest : List (BitVec 1024)) : BitVec 1024 := ~~~m &&& rest.headD (BitVec.allOnes 1024)

theorem getLsbD_elseMask (m : BitVec 1024) (rest : List (BitVec 1024)) {k : Nat} (hk : k < 1024) : (elseMask m rest).getLsbD k =
    (!m.getLsbD k && (match rest with | [] => true | u :: _ => u.getLsbD k)) := by
  rw [elseMask, BitVec.getLsbD_and, BitVec.getLsbD_not, decide_eq_true hk, Bool.true_and]
  cases rest with
  | nil => rw [List.headD_nil, BitVec.getLsbD_allOnes, decide_eq_true hk]
  | cons u rest => rfl

section
variable {s : State} {st : Strand} {m : BitVec 1024} {rest : List (BitVec 1024)} (hr : s.ready .v 1 st)
include hr

theorem exec_velse_of_empty (h : st.pred = []) : exec .velse s = .next (wordFault s s.focusTile .v 2 .predicateDepth .atWord) :=
  strandWord_fault hr (by simp only [h, raise])

theorem exec_vpend_of_empty (h : st.pred = []) : exec .vpend s = .next (wordFault s s.focusTile .v 2 .predicateDepth .atWord) :=
  strandWord_fault hr (by simp only [h, raise])

theorem exec_velse_of_top (h : st.pred = m :: rest) : exec .velse s = .next (s.passedAs .v 1 { st with pred := elseMask m rest :: rest }) :=
  strandWord_ok hr (by simp only [h, elseMask])

theorem exec_vpend_of_top (h : st.pred = m :: rest) : exec .vpend s = .next (s.passedAs .v 1 { st with pred := rest }) :=
  strandWord_ok hr (by simp only [h])

end

/-- A vector word that completes leaves the predicate stack that its operation gives. -/
theorem State.pred_passedAs (s : State) (e : Eng) (n : Nat) (st : Strand) :
    ∃ st', (s.passedAs e n st).strand s.focusTile = some st' ∧ st'.pred = st.pred :=
  ⟨_, State.strand_passedAs s e n st, by rw [Strand.trimLedger_pred, Strand.count_pred, Strand.updEng_pred]⟩

end Sys2Proof.Machine

namespace Sys2Proof

open Sys2Proof.Machine

/-- Settles O36: VELSE and VPEND by whether the stack is empty, VPUSH by `vpushOp_eq`, whose mask is read bit by bit. -/
theorem predicateStack : Obligations.PredicateStack := by
  unfold Obligations.PredicateStack
  intro s st hr
  refine ⟨fun h => ⟨exec_velse_of_empty hr h, exec_vpend_of_empty hr h⟩, fun m rest h => ⟨exec_vpend_of_top hr h, ?velse⟩,
    fun c a b ty x y st1 hs hty => ⟨fun full => ?full, fun room bad => ?poison, fun room clean => ?pushed⟩⟩
  case velse =>
    obtain ⟨st', hst, hpred⟩ := State.pred_passedAs s .v 1 { st with pred := elseMask m rest :: rest }
    exact ⟨_, exec_velse_of_top hr h, st', _, hst, hpred, fun k hk => getLsbD_elseMask m rest hk⟩
  case full => exact strandWord_fault hr ((vpushOp_eq hs hty).trans (if_pos full))
  case poison =>
    refine strandWord_fault hr ((vpushOp_eq hs hty).trans ?_)
    rw [if_neg (Nat.not_le.mpr room), if_pos (any_poison_iff.mpr bad)]
  case pushed =>
    have none : ¬ ((List.range 16).any fun r => (x.row r).poison || (y.row r).poison) = true := fun bad => by
      obtain ⟨r, hr16, h⟩ := any_poison_iff.mp bad
      simp [clean r hr16] at h
    have pushes := vpushOp_eq hs hty
    rw [if_neg (Nat.not_le.mpr room), if_neg none] at pushes
    obtain ⟨st', hst, hpred⟩ := State.pred_passedAs s .v 1 { st1 with pred := _ }
    exact ⟨_, strandWord_ok hr pushes, st', _, hst, hpred, fun r k hr16 hk => getLsbD_maskOf _ hr16 hk⟩

end Sys2Proof
end

section
/-! PROOFS. Moves (R196, R201 to R205): a source takes nothing of the tiles, the scalar registers and the predicates; a word that writes one
tile completes with its lanes there and changes no other register (`writesTile_of_setV`). -/

namespace Sys2Proof.Machine

/-! What a source leaves of the strand (R186, R187). -/

/-- The tiles, the scalar registers and the predicates stand as they did. -/
structure Strand.KeepsRegisters (st st1 : Strand) : Prop where
  tiles : st1.tiles = st.tiles
  regs : st1.regs = st.regs
  pred : st1.pred = st.pred

section
variable {st st1 st2 : Strand} {a b : Code} {x y : Tile}

theorem Strand.KeepsRegisters.refl (st : Strand) : st.KeepsRegisters st := ⟨rfl, rfl, rfl⟩

theorem Strand.KeepsRegisters.trans (h : st.KeepsRegisters st1) (k : st1.KeepsRegisters st2) : st.KeepsRegisters st2 :=
  ⟨k.tiles.trans h.tiles, k.regs.trans h.regs, k.pred.trans h.pred⟩

theorem Strand.keepsRegisters_took {α : Type} (st : Strand) (e : Eng) (es : List (Queued α)) : st.KeepsRegisters (st.took e es) :=
  ⟨Strand.updEng_tiles _ _ _, Strand.updEng_regs _ _ _, Strand.updEng_pred _ _ _⟩

/-- A pop or a peek takes entries and puts the rest of its queue back. -/
theorem keepsRegisters_of_taken {α β : Type} {e : Eng} {q : List (Queued α)} {n : Nat} {peek : Bool} {g : List α → β} {v : β}
    {put : List (Queued α) → Strand → Strand} (hput : ∀ q (p : Strand), p.KeepsRegisters (put q p))
    (h : ((takeN st e q n peek).bind fun z => .ok (g z.1, put z.2.1 z.2.2)) = .ok (v, st1)) : st.KeepsRegisters st1 := by
  unfold takeN at h
  split at h
  · cases h
  · cases h
    exact (Strand.keepsRegisters_took st e _).trans (hput _ _)

theorem keepsRegisters_of_popA2v {n : Nat} {peek : Bool} {es : List Row} (h : popA2v st n peek = .ok (es, st1)) :
    st.KeepsRegisters st1 :=
  keepsRegisters_of_taken (put := fun q p => { p with a2v := q }) (g := id) (fun _ _ => ⟨rfl, rfl, rfl⟩) h

theorem keepsRegisters_of_popM2v {n : Nat} {peek : Bool} {es : List Row} (h : popM2v st n peek = .ok (es, st1)) :
    st.KeepsRegisters st1 :=
  keepsRegisters_of_taken (put := fun q p => { p with m2v := q }) (g := id) (fun _ _ => ⟨rfl, rfl, rfl⟩) h

theorem keepsRegisters_of_popC2v {peek : Bool} {v : PWord} (h : popC2v st peek = .ok (v, st1)) : st.KeepsRegisters st1 := by
  refine keepsRegisters_of_taken (e := .v) (q := st.c2v) (n := 1) (peek := peek) (put := fun q p => { p with c2v := q })
    (g := fun es => es.headD {}) (fun _ _ => ⟨rfl, rfl, rfl⟩) (Eq.trans ?_ h)
  unfold popC2v takeOne
  cases takeN st .v st.c2v 1 peek <;> rfl

/-- A source is a register, entries of a row queue, or an entry of C2V. -/
theorem srcV_cases (h : srcV st a = .ok (x, st1)) : st1 = st ∨ (∃ peek es, popA2v st 16 peek = .ok (es, st1)) ∨
    (∃ peek es, popM2v st 16 peek = .ok (es, st1)) ∨ ∃ peek v, popC2v st peek = .ok (v, st1) := by
  have mapped {β : Type} {r : Except Halt (β × Strand)} {g : β → Tile} (hr : (r.map fun z => (g z.1, z.2)) = .ok (x, st1)) :
      ∃ z, r = .ok (z, st1) := by
    cases r with
    | error e => cases hr
    | ok z => exact ⟨z.1, congrArg (fun w => Except.ok (z.1, w)) (Prod.mk.inj (Except.ok.inj hr)).2⟩
  unfold srcV at h
  split at h
  · exact .inl (Prod.mk.inj (Except.ok.inj h)).2.symm
  · split at h
    · exact .inr (.inl ⟨false, mapped h⟩)
    · exact .inr (.inl ⟨true, mapped h⟩)
    · exact .inr (.inr (.inl ⟨false, mapped h⟩))
    · exact .inr (.inr (.inl ⟨true, mapped h⟩))
    · exact .inr (.inr (.inr ⟨false, mapped (g := spreadTile) h⟩))
    · exact .inr (.inr (.inr ⟨true, mapped (g := spreadTile) h⟩))
    · cases h

theorem keepsRegisters_of_srcV (h : srcV st a = .ok (x, st1)) : st.KeepsRegisters st1 := by
  obtain rfl | ⟨peek, es, hp⟩ | ⟨peek, es, hp⟩ | ⟨peek, v, hp⟩ := srcV_cases h
  · exact .refl _
  · exact keepsRegisters_of_popA2v hp
  · exact keepsRegisters_of_popM2v hp
  · exact keepsRegisters_of_popC2v hp

theorem keepsRegisters_of_srcV2 (h : srcV2 st a b = .ok (x, y, st2)) : st.KeepsRegisters st2 := by
  obtain ⟨srcA, srcB, depth⟩ := needs_of_srcV2 h
  simp only [srcV2, srcA, srcB, depth, bind, Except.bind] at h
  cases hx : srcV st a with
  | error e => simp only [hx, reduceCtorEq] at h
  | ok z =>
    cases hy : srcV z.2 b with
    | error e => simp only [hx, hy, reduceCtorEq] at h
    | ok w =>
      simp only [hx, hy, Except.ok.injEq, Prod.mk.injEq] at h
      obtain ⟨-, -, rfl⟩ := h
      exact (keepsRegisters_of_srcV hx).trans (keepsRegisters_of_srcV hy)

end

/-! A word that writes one tile. -/

/-- The word completes with `lane` in tile register `k`; other tiles, scalar registers, predicates and memory stand. -/
def writesTile (i : Instr) (s : State) (st : Strand) (k : Fin 16) (lane : Nat → Nat → Word) : Prop :=
  reaches (exec i s) fun t => ∃ st', t.strand s.focusTile = some st' ∧
    (∀ r c, r < 16 → c < 64 → (st'.tiles.get k).lane r c = lane r c) ∧
    (∀ j, j ≠ k → st'.tiles.get j = st.tiles.get j) ∧ st'.regs = st.regs ∧ st'.pred = st.pred ∧ t.mem = s.mem

section
variable {s : State} {st st1 : Strand} {i : Instr} {k : Fin 16} {n : Nat} {op : Strand → Except Halt Strand} {t : Tile}
  {lane : Nat → Nat → Word}

/-- The word's operation sets one tile of a strand whose sources are taken. -/
theorem writesTile_of_setV (hi : exec i s = strandWord .v n op s) (hr : s.ready .v n st) (hop : op st = .ok (st1.setV k t))
    (keeps : st.KeepsRegisters st1) (hl : ∀ r c, r < 16 → c < 64 → t.lane r c = lane r c) : writesTile i s st k lane := by
  obtain ⟨tiles, regs, pred⟩ := keeps
  refine ⟨_, hi.trans (strandWord_ok hr hop), _, State.strand_passedAs _ _ _ _, fun r c hr16 hc64 => ?_, fun j hj => ?_, ?_, ?_,
    (State.keepsAround_passedAs _ _ _ _).mem⟩
  · rw [Strand.trimLedger_tiles, Strand.count_tiles, Strand.updEng_tiles, Strand.get_setV, hl r c hr16 hc64]
  · rw [Strand.trimLedger_tiles, Strand.count_tiles, Strand.updEng_tiles, Strand.get_setV_of_ne _ _ _ hj, tiles]
  · rw [Strand.trimLedger_regs, Strand.count_regs, Strand.updEng_regs, Strand.setV, regs]
  · rw [Strand.trimLedger_pred, Strand.count_pred, Strand.updEng_pred, Strand.setV, pred]

end

/-! VSEL, VMOV, VLI and VIOTA (R201, R202, R203). -/

section
variable {st st1 : Strand} {d a b : Code} {ty : BitVec 4} {q : BitVec 1} {x y : Tile}

theorem vselOp_eq (hd : d.toNat < 16) (hty : ty = 8 ∨ ty = 2) (hs : srcV2 st a b = .ok (x, y, st1)) :
    vselOp d a b ty st = .ok (st1.setV ⟨d.toNat, hd⟩ (tileOf (fun r c => if st1.p r c then x.lane r c else y.lane r c)
      fun r => (anyLane (st1.p r) && (x.row r).poison) || ((anyLane fun c => !st1.p r c) && (y.row r).poison))) := by
  have known : (ty == 8 || ty == 2) = true := by simpa using hty
  simp only [vselOp, known, role16_of_lt hd, hs, need, bind, Except.bind, if_true]

/-- VMOV hands its tile to its destination; a move to V2C clears the sticky flags (R186). -/
theorem vmovOp_eq (hd : d.toNat < 16 ∨ ((d = 22 ∨ d = 23) ∧ q = 0)) (hty : ty = 8 ∨ ty = 2) (ha : a.toNat < 22)
    (hs : srcV st a = .ok (x, st1)) : vmovOp d a ty q st =
      (dstV st1 d q x).map fun st2 => if d = 23 then { st2 with sat := false, nan := false, fmt := false } else st2 := by
  have known : (ty == 8 || ty == 2) = true := by simpa using hty
  have placed : (decide (d.toNat < 16) || ((d == 22 || d == 23) && q == 0)) = true := by simpa using hd
  simp only [vmovOp, known, placed, needSrcV_of_lt ha, hs, need, bind, Except.bind, if_true]
  rfl

theorem vmovOp_register (hd : d.toNat < 16) (hty : ty = 8 ∨ ty = 2) (ha : a.toNat < 22) (hs : srcV st a = .ok (x, st1)) :
    vmovOp d a ty q st = .ok (st1.setV ⟨d.toNat, hd⟩ (mergeTile st1 q (st1.tiles.get ⟨d.toNat, hd⟩) x)) := by
  have ne : d ≠ 23 := fun same => by subst same; exact absurd hd (by decide)
  rw [vmovOp_eq (.inl hd) hty ha hs, dstV, dif_pos hd, Except.map, if_neg ne]

/-- A tile pushed to V2A while it holds nothing (R186, R188). -/
theorem pushV2a_of_empty (h : st.a.ended = false) (hq : st.v2a = []) (t : Tile) :
    pushV2a st t.toList = .ok { st with v2a := t.toList.map (st.entry .v []) } := by
  have live : (st.eng .a).ended = false := h
  have entries : t.toList.zipIdx.map (fun x => st.entry .v [] x.1) = t.toList.map (st.entry .v []) := by
    show t.toList.zipIdx.map (st.entry .v [] ∘ Prod.fst) = _
    rw [← List.map_map, List.zipIdx_map_fst]
  simpa [pushV2a, pushN, live, hq, bind, Except.bind] using entries

/-- A value pushed to V2C where there is room (R186). -/
theorem pushV2c_of_room {v : PWord} (h : st.c.ended = false) (room : st.v2c.length < 8) :
    pushV2c st [v] = .ok { st with v2c := st.v2c ++ [st.entry .v [] v] } := by
  simp only [pushV2c, pushN_of_room (k := .c) h room, bind, Except.bind]

theorem constTile_eq (hd : d.toNat < 16) (f : Nat → Nat → Word) :
    constTile d f st = .ok (st.setV ⟨d.toNat, hd⟩ (tileOf f fun _ => false)) := by
  simp only [constTile, role16_of_lt hd, bind, Except.bind]

end

/-! Moves along an axis (R204, R205). -/

/-- What a moved position holds: a source position, zero, or the old value. -/
def Moved.value (m : Moved) (src : Nat → Word) (old : Word) : Word :=
  match m with
  | .src k => src k
  | .zero => 0
  | .old => old

@[simp] theorem Moved.value_src (k : Nat) (src : Nat → Word) (old : Word) : (Moved.src k).value src old = src k := rfl
@[simp] theorem Moved.value_zero (src : Nat → Word) (old : Word) : Moved.zero.value src old = 0 := rfl
@[simp] theorem Moved.value_old (src : Nat → Word) (old : Word) : Moved.old.value src old = old := rfl

theorem Moved.value_ite {c : Prop} [Decidable c] (m m' : Moved) (src : Nat → Word) (old : Word) :
    (if c then m else m').value src old = if c then m.value src old else m'.value src old := by
  split <;> rfl

section
variable {f : Nat → Moved} {src old : Tile} {r c : Nat}

theorem lane_moveTile_columns (hr : r < 16) (hc : c < 64) :
    (moveTile false f src old).lane r c = (f c).value (src.lane r) (old.lane r c) := by
  rw [Tile.lane, moveTile, Tile.row_tab _ hr, if_neg Bool.false_ne_true, Row.lane_tab _ _ _ hc]
  cases f c <;> rfl

theorem lane_moveTile_rows (hr : r < 16) (hc : c < 64) :
    (moveTile true f src old).lane r c = (f r).value (fun k => src.lane k c) (old.lane r c) := by
  rw [Tile.lane, moveTile, Tile.row_tab _ hr, if_pos rfl]
  cases f r with
  | src k => rfl
  | zero => simp [blankRow, Row.lane, Moved.value, hc]
  | old => rfl

end

/-- The source of a position under VSLIDE (R205): `u` gives the direction, `f` what a vacated position takes. -/
def slideSource (u : BitVec 1) (f : BitVec 2) (len n j : Nat) : Moved :=
  let vacated := if u = 0 then decide (j < n) else decide (j + n ≥ len)
  if !vacated then .src (if u = 0 then j - n else j + n)
  else if f = 0 then .zero
  else if f = 1 then .src (if u = 0 then 0 else len - 1)
  else .old

section
variable {f : BitVec 2} {len n j : Nat} {src : Nat → Word} {old : Word}

theorem value_slideSource_up : (slideSource 0 f len n j).value src old =
    if j < n then (if f = 0 then 0 else if f = 1 then src 0 else old) else src (j - n) := by
  by_cases vacated : j < n <;> simp [slideSource, Moved.value_ite, vacated]

theorem value_slideSource_down : (slideSource 1 f len n j).value src old =
    if j + n < len then src (j + n) else (if f = 0 then 0 else if f = 1 then src (len - 1) else old) := by
  by_cases inside : len ≤ j + n <;> simp [slideSource, Moved.value_ite, inside, Nat.not_lt.mpr, Nat.not_le.mp]

end

theorem vslideOp_eq {d a : Code} {x u : BitVec 1} {f : BitVec 2} {n : BitVec 6} {st : Strand} (hf : f ≠ 3) :
    vslideOp d a x u f n st = moveOp d a x n (slideSource u f) st := if_neg hf

section
variable {s : State} {st st1 : Strand} {i : Instr} {d a : Code} {n : BitVec 6} {x : Tile} {f : Nat → Nat → Nat → Moved}
  {op : Strand → Except Halt Strand} {lane : Nat → Nat → Word} (hd : d.toNat < 16)
include hd

theorem writesTile_of_columns (hi : exec i s = strandWord .v 1 op s) (hop : op st = moveOp d a 0 n f st) (hr : s.ready .v 1 st)
    (ha : a.toNat < 22) (hs : srcV st a = .ok (x, st1))
    (hl : ∀ r c, c < 64 → (f 64 n.toNat c).value (x.lane r) ((st.tiles.get ⟨d.toNat, hd⟩).lane r c) = lane r c) :
    writesTile i s st ⟨d.toNat, hd⟩ lane := by
  have keeps := keepsRegisters_of_srcV hs
  have inside : n.toNat < 64 := n.isLt
  have moved : op st = .ok (st1.setV ⟨d.toNat, hd⟩ (moveTile false (f 64 n.toNat) x (st.tiles.get ⟨d.toNat, hd⟩))) := by
    rw [hop, ← keeps.tiles]
    simp [moveOp, role16_of_lt hd, needSrcV_of_lt ha, need, inside, hs, bind, Except.bind]
  exact writesTile_of_setV hi hr moved keeps fun r c hr16 hc64 => (lane_moveTile_columns hr16 hc64).trans (hl r c hc64)

theorem writesTile_of_rows (hi : exec i s = strandWord .v 1 op s) (hop : op st = moveOp d a 1 n f st) (hr : s.ready .v 1 st)
    (ha : a.toNat < 22) (hs : srcV st a = .ok (x, st1)) (hn : n.toNat < 16)
    (hl : ∀ r c, r < 16 → (f 16 n.toNat r).value (fun k => x.lane k c) ((st.tiles.get ⟨d.toNat, hd⟩).lane r c) = lane r c) :
    writesTile i s st ⟨d.toNat, hd⟩ lane := by
  have keeps := keepsRegisters_of_srcV hs
  have moved : op st = .ok (st1.setV ⟨d.toNat, hd⟩ (moveTile true (f 16 n.toNat) x (st.tiles.get ⟨d.toNat, hd⟩))) := by
    rw [hop, ← keeps.tiles]
    simp [moveOp, role16_of_lt hd, needSrcV_of_lt ha, need, hn, hs, bind, Except.bind]
  exact writesTile_of_setV hi hr moved keeps fun r c hr16 hc64 => (lane_moveTile_rows hr16 hc64).trans (hl r c hr16)

/-- A count of rows past the tile's is ILLEGAL (R106). -/
theorem moveOp_of_le (ha : a.toNat < 22) (hn : 16 ≤ n.toNat) : moveOp d a 1 n f st = .error (.fault .illegal) := by
  simp only [moveOp, role16_of_lt hd, needSrcV_of_lt ha, need, if_true, decide_eq_false (Nat.not_lt.mpr hn), bind, Except.bind,
    Bool.false_eq_true, if_false]

end

end Sys2Proof.Machine

namespace Sys2Proof

open Sys2Proof.Machine

/-- Settles O37: each word to a tile register is `writesTile_of_setV` at the tile that its operation sets, the moves along an axis by
`writesTile_of_columns` and `writesTile_of_rows`; VMOV to a queue is its push. -/
theorem vectorMoves : Obligations.VectorMoves := by
  unfold Obligations.VectorMoves
  intro s st d a b hd writes old
  refine ⟨fun hr => ⟨fun ty x y st1 hty hs => ?vsel,
      fun x st1 ha hs => ⟨fun ty q hty => ?vmov, fun ty hty => ⟨?v2a, ?v2c⟩, fun n => ?moves⟩⟩,
    fun hr imm => ⟨?vli, ?columns, ?rows, fun himm => ?other⟩⟩
  case vsel =>
    exact writesTile_of_setV rfl hr (vselOp_eq hd hty hs) (keepsRegisters_of_srcV2 hs) fun r c hr16 hc64 => Tile.lane_tileOf hr16 hc64
  case vmov =>
    have keeps := keepsRegisters_of_srcV hs
    refine writesTile_of_setV rfl hr (vmovOp_register hd hty ha hs) keeps fun r c hr16 hc64 => ?_
    rw [Tile.lane_mergeTile _ _ _ _ hr16 hc64, keeps.tiles]
  case v2a =>
    intro live empty
    refine strandWord_ok hr ?_
    rw [vmovOp_eq (.inr ⟨.inl rfl, rfl⟩) hty ha hs]
    exact congrArg (Except.map _) (pushV2a_of_empty live empty x)
  case v2c =>
    intro live room
    refine strandWord_ok hr ?_
    rw [vmovOp_eq (.inr ⟨.inr rfl, rfl⟩) hty ha hs]
    exact congrArg (Except.map _) (pushV2c_of_room live room)
  case moves =>
    refine ⟨writesTile_of_columns hd rfl rfl hr ha hs fun r c hc => rfl, writesTile_of_columns hd rfl rfl hr ha hs fun r c hc => rfl,
      writesTile_of_columns hd rfl rfl hr ha hs fun r c hc => rfl,
      writesTile_of_columns hd rfl (vslideOp_eq (by decide)) hr ha hs fun r c hc => value_slideSource_up,
      writesTile_of_columns hd rfl (vslideOp_eq (by decide)) hr ha hs fun r c hc => value_slideSource_down,
      writesTile_of_columns hd rfl (vslideOp_eq (by decide)) hr ha hs fun r c hc => value_slideSource_up,
      fun hn => ⟨writesTile_of_rows hd rfl rfl hr ha hs hn fun r c hr16 => rfl,
        writesTile_of_rows hd rfl rfl hr ha hs hn fun r c hr16 => rfl,
        writesTile_of_rows hd rfl (vslideOp_eq (by decide)) hr ha hs hn fun r c hr16 => value_slideSource_up.trans ?first⟩,
      fun hn => ⟨strandWord_fault hr (moveOp_of_le hd ha hn), strandWord_fault hr (moveOp_of_le hd ha hn)⟩⟩
    case first =>
      split
      next vacated => rw [Nat.sub_eq_zero_of_le (Nat.le_of_lt vacated)]; rfl
      next => rfl
  case vli => exact writesTile_of_setV rfl hr (constTile_eq hd _) (.refl st) fun r c hr16 hc64 => Tile.lane_tileOf hr16 hc64
  case columns => exact writesTile_of_setV rfl hr (constTile_eq hd _) (.refl st) fun r c hr16 hc64 => Tile.lane_tileOf hr16 hc64
  case rows => exact writesTile_of_setV rfl hr (constTile_eq hd _) (.refl st) fun r c hr16 hc64 => Tile.lane_tileOf hr16 hc64
  case other => exact strandWord_fault hr (if_pos himm)

end Sys2Proof
end

section
/-! PROOFS. VDQ of a version whose ring entry has no format that R376 lists (R215, R376, R380, logs 56 and 68): the look-up answers FP32,
and the word is ILLEGAL before it compares the tags of its rows. -/

namespace Sys2Proof.Machine

section
variable {s : State} {t : Core} {st : Strand} {d a b : Code} {r : BitVec 3} {q : BitVec 1} {rm : Rm} {rec : RecV} {sc : Int} {v : BitVec 16}

/-- VDQ is ILLEGAL where the look-up of its tag's version answers FP32. -/
theorem vdqOp_of_fp32 (hd : d.toNat < 16) (ha : a.toNat < 16) (hb : b.toNat < 16) (hrm : plainRm r = .ok rm)
    (tagged : ((st.tiles.get ⟨a.toNat, ha⟩).row 0).tag.tv = true)
    (slot : ((st.tiles.get ⟨a.toNat, ha⟩).row 0).tag.slot.toNat = b.toNat)
    (hrec : recordOf s t st ⟨b.toNat, hb⟩ = .ok rec)
    (found : lookupVersion s t st rec.idx ((st.tiles.get ⟨a.toNat, ha⟩).row 0).tag.ver = .ok (.fp32, sc, v)) :
    vdqOp d a b r q s t st = .error (.fault .illegal) := by
  have source : decide (a.toNat < 18) = true := decide_eq_true (by omega)
  have slotB : slotRole b = .ok ⟨b.toNat, hb⟩ := role16_of_lt hb
  simp only [vdqOp, role16_of_lt hd, source, slotB, hrm, ha, tagged, slot, hrec, found, need, bind, Except.bind, pure, Except.pure,
    dif_pos, if_true, beq_self_eq_true, Bool.and_self]
  rfl

end

/-- The record of a word's fault is the launch's where it had none (R56, R437). -/
theorem record_wordFault {s : State} {t : Core} {st : Strand} {l : Launch} (hs : s.strand t = some st)
    (hl : s.launch? st.handle = some l) (none : l.record = none) (e : Eng) (rec : BitVec 3) (c : FaultCode) (pr : Precision) :
    ((wordFault s t e rec c pr).launch? st.handle).bind Launch.record = some (wordRecord s t st e rec c pr) := by
  have taken : (wordFault s t e rec c pr).launch? st.handle = some (l.faultedBy (wordRecord s t st e rec c pr)) := by
    rw [wordFault, hs]
    exact (launch?_takeFault s st.handle _).trans (congrArg (Option.map _) hl)
  rw [taken, Option.bind_some, Launch.faultedBy, none]

/-- A valid ring entry of version 1 whose format code is 0, which R376 does not list. -/
def unlistedEntry : Word := 0x01000001

/-- A strand that binds record 0 to slot 5, whose words its tile core holds; of tile register 1 only row 0 is tagged, with that slot and
version 1. -/
def unlistedStrand : Strand :=
  { freshStrand with
    slots := freshStrand.slots.set 5 (some 0)
    records := [(0, List.replicate 7 0)]
    tiles := freshStrand.tiles.set 1 ((Vector.replicate 16 blankRow).set 0 { blankRow with tag := ⟨true, 5, 1⟩ }) }

/-- That strand, its launch's pin on the entry, and the entry in the ring of record 0 at the base of the mapped page. -/
def unlistedState : State :=
  { missState with
    jobs := [{ demoJob with rtbase := 2 ^ 44 }]
    launches := [{ demoLaunch 1 with pins := [(0, unlistedEntry)] }]
    mem := missState.mem.setBytes 0x200030 (bytesOfWord unlistedEntry) }.setStrand 0 unlistedStrand

theorem strand_unlistedState : unlistedState.strand 0 = some unlistedStrand := by rw [unlistedState, State.strand_setStrand, if_pos rfl]

theorem ready_unlistedState : unlistedState.ready .v 1 unlistedStrand := ⟨strand_unlistedState, by decide⟩

theorem launch_unlistedState :
    unlistedState.launch? unlistedStrand.handle = some { demoLaunch 1 with pins := [(0, unlistedEntry)] } := rfl

theorem recordOf_unlistedState : recordOf unlistedState 0 unlistedStrand 5 = .ok (recOf (0, unlistedEntry.toNat, List.replicate 7 0)) := by
  decide

/-- The look-up of version 1 answers FP32 (log 68). -/
theorem lookupVersion_unlistedState : lookupVersion unlistedState 0 unlistedStrand 0 1 = .ok (.fp32, 0, 1) := by decide

theorem exec_vdq_unlistedState : exec (.vdq 0 1 5 0 0) unlistedState =
    .next (wordFault unlistedState unlistedState.focusTile .v 2 .illegal .atWord) :=
  checkedWord_fault ready_unlistedState (vdqOp_of_fp32 (d := 0) (a := 1) (b := 5) (r := 0) (q := 0) (rm := .rne) (by decide) (by decide)
    (by decide) rfl (by decide) (by decide) recordOf_unlistedState lookupVersion_unlistedState)

end Sys2Proof.Machine

namespace Sys2Proof

open Sys2Proof.Machine

/-- Refutes O39: in `unlistedState` the ring entry of the tile's version has a format that R376 does not list, so that VDQ raises ILLEGAL
and not STALE-SCALE, though row 1 has not the tag of row 0. -/
theorem not_vectorConversions : ¬ Obligations.VectorConversions := by
  unfold Obligations.VectorConversions
  intro h
  obtain ⟨-, -, -, vdq⟩ := h unlistedState unlistedStrand 0 1 5 0 0 ready_unlistedState
  obtain ⟨stale, -⟩ := vdq (by decide) (by decide) (by decide) .rne _ .fp32 0 1 rfl (by decide) (by decide) (by decide)
    recordOf_unlistedState lookupVersion_unlistedState
  have traps := stale ⟨1, by decide, by decide⟩
  have records := congrArg (fun t : State => (t.launch? unlistedStrand.handle).bind Launch.record)
    (Host.Outcome.next.inj (exec_vdq_unlistedState.symm.trans traps))
  simp only [record_wordFault (t := unlistedState.focusTile) strand_unlistedState launch_unlistedState rfl, Option.some.injEq] at records
  exact absurd (congrArg FaultRec.code records) (by decide)

end Sys2Proof
end

section
/-! PROOFS. Whole accumulators (R217, R227, R228): a word over accumulators maps the rows of its destination, and MSCALE does so once its
exponent is known to be in range. -/

namespace Sys2Proof.Machine

theorem role4_of_lt {d : Code} (h : d.toNat < 4) : role4 d = .ok ⟨d.toNat, h⟩ := dif_pos h

theorem role4_of_le {d : Code} (h : 4 ≤ d.toNat) : role4 d = .error (.fault .illegal) := dif_neg (Nat.not_lt.mpr h)

/-! An entry of C2M (R318). -/

section
variable {st : Strand} {v : Queued PWord} {rest : List (Queued PWord)}

theorem popC2m_of_cons (h : st.c2m = v :: rest) (peek : Bool) :
    popC2m st peek = .ok (v.val, { st.took .m [v] with c2m := if peek then v :: rest else rest }) := by
  have taken : takeN st .m st.c2m 1 peek = .ok ([v.val], if peek then v :: rest else rest, st.took .m [v]) := by
    rw [h]
    exact takeN_of_append (es := [v]) rfl rfl peek
  simp only [popC2m, takeOne, taken, bind, Except.bind, List.headD_cons]

theorem popC2m_of_empty (h : st.c2m = []) (peek : Bool) : popC2m st peek = .error (.wait .pop) := by
  have short : st.c2m.length < 1 := by rw [h]; exact Nat.one_pos
  simp only [popC2m, takeOne, takeN_of_short short, bind, Except.bind]

end

/-! The words over whole accumulators. -/

section
variable {st : Strand} {d a : Code} {e : Int}

theorem accOp_eq (hd : d.toNat < 4) (ha : a.toNat < 4) (f : Nat → AccRow → AccRow → AccRow) :
    accOp d a f st = .ok (st.setAcc ⟨d.toNat, hd⟩ ((st.accs.get ⟨d.toNat, hd⟩).mapRows fun r x =>
      f r x (accRow (st.accs.get ⟨a.toNat, ha⟩) r))) := by
  simp only [accOp, role4_of_lt hd, role4_of_lt ha, bind, Except.bind]

theorem accOp_of_no_source (hd : d.toNat < 4) (ha : 4 ≤ a.toNat) (f : Nat → AccRow → AccRow → AccRow) :
    accOp d a f st = .error (.fault .illegal) := by
  simp only [accOp, role4_of_lt hd, role4_of_le ha, bind, Except.bind]

/-- A row with its values multiplied by 2^e (R228). -/
def AccRow.scale (e : Int) (x : AccRow) : AccRow := { x with vals := x.vals.map fun v => ne32 ((f32 v).scale e) }

theorem scaleAcc_of_inside (hd : d.toNat < 4) (he : -254 ≤ e ∧ e ≤ 254) :
    scaleAcc d e st = .ok (st.setAcc ⟨d.toNat, hd⟩ ((st.accs.get ⟨d.toNat, hd⟩).mapRows fun _ => AccRow.scale e)) :=
  (if_neg (by omega)).trans (accOp_eq hd (by decide) _)

theorem scaleAcc_of_outside (he : ¬(-254 ≤ e ∧ e ≤ 254)) : scaleAcc d e st = .error (.fault .illegal) := if_pos (by omega)

variable {v : Queued PWord} {rest : List (Queued PWord)} {p : BitVec 1}

theorem mscaleC2mOp_of_empty (hd : d.toNat < 4) (h : st.c2m = []) : mscaleC2mOp d p st = .error (.wait .pop) := by
  simp only [mscaleC2mOp, role4_of_lt hd, popC2m_of_empty h, bind, Except.bind]

theorem mscaleC2mOp_of_poison (hd : d.toNat < 4) (h : st.c2m = v :: rest) (hp : v.val.poison = true) :
    mscaleC2mOp d p st = .error (.fault .poisonSync) := by
  simp only [mscaleC2mOp, role4_of_lt hd, popC2m_of_cons h, clean_of_poison hp, bind, Except.bind]

/-- A clean entry is the exponent of the values that the strand holds once it is taken. -/
theorem mscaleC2mOp_of_clean (hd : d.toNat < 4) (h : st.c2m = v :: rest) (hp : v.val.poison = false) : mscaleC2mOp d p st =
    scaleAcc d v.val.val.toInt { st.took .m [v] with c2m := if p = 1 then v :: rest else rest } := by
  simp only [mscaleC2mOp, role4_of_lt hd, popC2m_of_cons h, clean_of_clean hp, bind, Except.bind, beq_iff_eq]

end

end Sys2Proof.Machine

namespace Sys2Proof

open Sys2Proof.Machine

/-- Settles O40: MZERO, MSRST, MCPY and MADD are `accOp_eq` at their rows, MSCALE `scaleAcc_of_inside` or `scaleAcc_of_outside` at its
exponent, which for a queue's entry is `mscaleC2mOp_of_clean`. -/
theorem accumulatorWords : Obligations.AccumulatorWords := by
  unfold Obligations.AccumulatorWords
  intro s st d a hd hr writes scaled
  have zero : (0 : Code).toNat < 4 := by decide
  refine ⟨strandWord_ok hr (accOp_eq hd zero _), strandWord_ok hr (accOp_eq hd zero _),
    fun ha => ⟨strandWord_ok hr (accOp_eq hd ha _), strandWord_ok hr (accOp_eq hd ha _)⟩,
    fun ha => ⟨strandWord_fault hr (accOp_of_no_source hd ha _), strandWord_fault hr (accOp_of_no_source hd ha _)⟩,
    fun i => ⟨fun inside => strandWord_ok hr (scaleAcc_of_inside hd inside),
      fun outside => strandWord_fault hr (scaleAcc_of_outside outside)⟩,
    fun v rest p hq => ⟨fun hp => ?poisoned, fun hp inside => ?scales, fun hp outside => ?outside⟩, fun p hq => ?empty⟩
  case poisoned => exact strandWord_fault hr (mscaleC2mOp_of_poison hd hq hp)
  case scales => exact strandWord_ok hr ((mscaleC2mOp_of_clean hd hq hp).trans (scaleAcc_of_inside hd inside))
  case outside => exact strandWord_fault hr ((mscaleC2mOp_of_clean hd hq hp).trans (scaleAcc_of_outside outside))
  case empty => exact strandWord_wait hr (mscaleC2mOp_of_empty hd hq)

end Sys2Proof
end

section
/-! PROOFS. MMA (R222, R225, R226): what the read of its windows leaves of the machine, the row that it writes, and its cells and poison. -/

namespace Sys2Proof.Machine

/-! A read of scratchpad by an engine (R299, R300) moves what the engine is bound to see, free values and the count of accesses. -/

/-- Memory, the scratchpads, and the accumulators and windows of the strand of a tile core stand as they did. -/
structure State.KeepsMatrix (s : State) (t : Core) (s1 : State) : Prop where
  mem : s1.mem = s.mem
  spad : ∀ u, (s1.core u).spad = (s.core u).spad
  strand : ∀ p, s.strand t = some p → ∃ q, s1.strand t = some q ∧ q.accs = p.accs ∧ q.wins = p.wins

section
variable {s s1 s2 : State} {t : Core}

theorem State.KeepsMatrix.refl (s : State) (t : Core) : s.KeepsMatrix t s := ⟨rfl, fun _ => rfl, fun p hp => ⟨p, hp, rfl, rfl⟩⟩

theorem State.KeepsMatrix.trans (h : s.KeepsMatrix t s1) (k : s1.KeepsMatrix t s2) : s.KeepsMatrix t s2 := by
  refine ⟨k.mem.trans h.mem, fun u => (k.spad u).trans (h.spad u), fun p hp => ?_⟩
  obtain ⟨q, hq, accs, wins⟩ := h.strand p hp
  obtain ⟨z, hz, accs', wins'⟩ := k.strand q hq
  exact ⟨z, hz, accs'.trans accs, wins'.trans wins⟩

theorem State.KeepsMatrix.updStrand (s : State) (t : Core) {f : Strand → Strand}
    (hf : ∀ p : Strand, (f p).accs = p.accs ∧ (f p).wins = p.wins) : s.KeepsMatrix t (s.updStrand t f) := by
  refine ⟨rfl, fun u => State.spad_updStrand s t u f, fun p hp => ⟨f p, ?_, hf p⟩⟩
  rw [State.strand_updStrand, if_pos rfl, hp, Option.map_some]

theorem State.KeepsMatrix.updEng (s : State) (t : Core) (e : Eng) (f : Strand → Engine → Engine) :
    s.KeepsMatrix t (s.updStrand t fun p => p.updEng e (f p)) := .updStrand s t fun p => ⟨p.updEng_accs e _, p.updEng_wins e _⟩

theorem keepsMatrix_spadRead (s : State) (t : Core) (e : Eng) (a n : Nat) : s.KeepsMatrix t (spadRead s t e a n).1 := by
  have drawn (l : Look) : s.KeepsMatrix t (if l.drew then { s with draws := s.draws + 1 } else s) := by
    split
    · exact ⟨rfl, fun _ => rfl, fun p hp => ⟨p, hp, rfl, rfl⟩⟩
    · exact .refl s t
  unfold spadRead
  dsimp only
  split
  · exact .refl s t
  · exact ((drawn _).trans (.updEng _ t e _)).trans (.updStrand _ t fun p => ⟨rfl, rfl⟩)

theorem keepsMatrix_bindWindows (s : State) (t : Core) (e : Eng) (ws : List Nat) : s.KeepsMatrix t (bindWindows s t e ws) := by
  unfold bindWindows
  split
  · exact .refl s t
  · exact List.foldlRecOn ws _ (.refl s t) fun u hu w _ => hu.trans (.updEng u t e _)

theorem keepsMatrix_spadSeen (s : State) (t : Core) (e : Eng) (ranges : List (Nat × Nat)) : s.KeepsMatrix t (spadSeen s t e ranges).1 :=
  List.foldlRecOn (motive := fun r : State × Mem => s.KeepsMatrix t r.1) ranges _ (.refl s t) fun _ hr _ _ =>
    List.foldlRecOn (motive := fun r : State × Mem => s.KeepsMatrix t r.1) _ _ hr fun r hr _ _ =>
      hr.trans (keepsMatrix_spadRead r.1 t e _ _)

end

/-! Rows of an accumulator. -/

section
variable {st : Strand} {i k : Fin 4} {x : Acc} {r j : Nat}

@[simp] theorem Strand.get_setAcc (st : Strand) (i : Fin 4) (x : Acc) : (st.setAcc i x).accs.get i = x := by
  simp [Strand.setAcc, Vector.get_eq_getElem]

theorem Strand.get_setAcc_of_ne (h : k ≠ i) : (st.setAcc i x).accs.get k = st.accs.get k := by
  simp only [Strand.setAcc, Vector.get_eq_getElem]
  exact Vector.getElem_set_ne _ _ fun same => h (Fin.ext same.symm)

theorem toList_tab {α : Type} (n : Nat) (f : Nat → α) : (tab n f).toList = (List.range n).map f := rfl

theorem getD_tab {α : Type} {n : Nat} (f : Nat → α) (z : α) (h : j < n) : (tab n f).toList.getD j z = f j := by
  rw [toList_tab, getD_map_range f z h]

theorem accRow_mapRows (x : Acc) (f : Nat → AccRow → AccRow) (hr : r < 128) : accRow (x.mapRows f) r = f r (accRow x r) :=
  getD_tab _ _ hr

end

/-! The row that MMA writes (R225). -/

/-- A window that is read, with its format and scale, as `taggedWindow` resolves it (R221). -/
abbrev Tagged := Window × Fmt × Int

/-- Row `r` of the accumulator after MMA of two windows. -/
def mmaRow (spad : Mem) (a b : Tagged) (m : BitVec 2) (r : Nat) (x : AccRow) : AccRow :=
  if r < a.1.rows then
    { x with
      vals := tab 128 fun j =>
        if j < b.1.rows then
          mmaElem m.toNat (fun k => (windowElem spad a.1 a.2.1 a.2.2 r k).mul (windowElem spad b.1 b.2.1 b.2.2 j k)) a.1.cols
            (x.vals.toList.getD j 0)
        else x.vals.toList.getD j 0
      poison :=
        let read := windowPoison spad a.1 a.2.1 r || (List.range b.1.rows).any fun j => windowPoison spad b.1 b.2.1 j
        if m = 1 then read else x.poison || read }
  else x

section
variable {spad : Mem} {a b : Tagged} {m : BitVec 2} {r j : Nat} {x : AccRow}

theorem vals_mmaRow (hj : j < 128) : (mmaRow spad a b m r x).vals.toList.getD j 0 =
    if r < a.1.rows ∧ j < b.1.rows then
      mmaElem m.toNat (fun k => (windowElem spad a.1 a.2.1 a.2.2 r k).mul (windowElem spad b.1 b.2.1 b.2.2 j k)) a.1.cols
        (x.vals.toList.getD j 0)
    else x.vals.toList.getD j 0 := by
  unfold mmaRow
  split
  next row => simp only [getD_tab _ _ hj, row, true_and]
  next row => rw [if_neg fun h => row h.1]

theorem poison_mmaRow : (mmaRow spad a b m r x).poison = true ↔
    if r < a.1.rows then windowPoison spad a.1 a.2.1 r = true ∨ (∃ j, j < b.1.rows ∧ windowPoison spad b.1 b.2.1 j = true) ∨
      (m ≠ 1 ∧ x.poison = true)
    else x.poison = true := by
  unfold mmaRow
  split
  · by_cases set : m = 1
    · simp only [set, if_true, Bool.or_eq_true, List.any_eq_true, List.mem_range, ne_eq, not_true, false_and, or_false]
    · simp only [set, if_false, Bool.or_eq_true, List.any_eq_true, List.mem_range, ne_eq, not_false_iff, true_and]
      rw [or_comm, or_assoc]
  · rfl

end

/-- The strand of a tile core changed by a word that then passes. -/
theorem strand_passWord_updStrand {s : State} {t : Core} {p : Strand} (h : s.strand t = some p) (f : Strand → Strand) (e : Eng)
    (len : Nat) : (passWord (s.updStrand t f) t e len).strand t =
      some (((f p).updEng e fun g => g.pass len).count (engCounter e) 1).trimLedger := by
  simp only [passWord, State.strand_updStrand, if_true, h, Option.map_some]

/-! MMA on two windows that it may read. -/

section
variable {s : State} {t : Core} {st : Strand} {d a b : Code} {m : BitVec 2} {x y : Tagged}
variable (hd : d.toNat < 4) (ha : a.toNat < 8) (hb : b.toNat < 8) (hm : m ≠ 3) (free : windowWait st .m [a.toNat, b.toNat] = .ok ())
  (hx : taggedWindow s t st ⟨a.toNat, ha⟩ = .ok x) (hy : taggedWindow s t st ⟨b.toNat, hb⟩ = .ok y)
include hd ha hb hm free hx hy

theorem mmaOp_of_cols_ne (h : x.1.cols ≠ y.1.cols) : mmaOp d a b m s t st = .error (.fault .illegal) := by
  have mode : (m != 3) = true := bne_iff_ne.mpr hm
  simp only [mmaOp, role4_of_lt hd, role8_of_lt ha, role8_of_lt hb, need, mode, free, hx, hy, bind, Except.bind, if_true, if_pos h, raise]

theorem mmaOp_of_cols_eq (h : x.1.cols = y.1.cols) :
    let seen := spadSeen (bindWindows s t .m [a.toNat, b.toNat]) t .m (x.1.ranges x.2.1 ++ y.1.ranges y.2.1)
    mmaOp d a b m s t st = .ok (seen.1.updStrand t fun q =>
      (q.setAcc ⟨d.toNat, hd⟩ ((st.accs.get ⟨d.toNat, hd⟩).mapRows (mmaRow seen.2 x y m))).count 10
        ((x.1.cols + mmaRate x.2.1 y.2.1 - 1) / mmaRate x.2.1 y.2.1)) := by
  have mode : (m != 3) = true := bne_iff_ne.mpr hm
  simp only [mmaOp, role4_of_lt hd, role8_of_lt ha, role8_of_lt hb, need, mode, free, hx, hy, bind, Except.bind, if_true,
    if_neg (not_not.mpr h)]
  rfl

end

end Sys2Proof.Machine

namespace Sys2Proof

open Sys2Proof.Machine

/-- Settles O41: `mmaOp_of_cols_eq` says what MMA answers, `keepsMatrix_spadSeen` what its reads leave, and `vals_mmaRow` and
`poison_mmaRow` the cells and the poison of its rows. -/
theorem matrixMultiply : Obligations.MatrixMultiply := by
  unfold Obligations.MatrixMultiply
  intro s st d a b m hd ha hb wa wb fa fb sa sb hr hm free hx hy
  refine ⟨fun h => checkedWord_fault hr (mmaOp_of_cols_ne hd ha hb hm free hx hy h), fun h => ?_⟩
  have reads := (keepsMatrix_bindWindows s s.focusTile .m [a.toNat, b.toNat]).trans
    (keepsMatrix_spadSeen _ s.focusTile .m (wa.ranges fa ++ wb.ranges fb))
  obtain ⟨q, hq, accs, wins⟩ := reads.strand st hr.1
  refine ⟨_, checkedWord_ok hr (mmaOp_of_cols_eq hd ha hb hm free hx hy h), _, strand_passWord_updStrand hq _ _ _, ?_⟩
  simp only [Strand.trimLedger_accs, Strand.count_accs, Strand.updEng_accs, Strand.trimLedger_wins, Strand.count_wins, Strand.updEng_wins,
    Strand.get_setAcc]
  refine ⟨fun i j hi hj => ?cells, fun i hi => ?poison, fun k hk => ?others, wins, reads.mem, ?spad⟩
  case cells => rw [accVal, accRow_mapRows _ _ hi, vals_mmaRow hj]; rfl
  case poison => rw [accRow_mapRows _ _ hi, poison_mmaRow]
  case others => rw [Strand.get_setAcc_of_ne hk, accs]
  case spad => rw [State.spad_passWord, State.spad_updStrand, reads.spad]

end Sys2Proof
end

section
/-! PROOFS. The matrix engine's outputs (R229 to R234): MSOFT and MOUT on a window that they may write, and the drains to M2V, which push
what the queue has room for. -/

namespace Sys2Proof.Machine

/-! Windows written (R229, R231). -/

/-- Row `r` of MSOFT over the columns of a window: the row after, and its probabilities. -/
def softRowOf (old scores : Acc) (w : Window) (r : Nat) : AccRow × List Word :=
  softRow (accRow old r) ((accRow scores r).vals.toList.take w.cols)

/-- The state in which MSOFT has written window `j` and accumulator `i` from the scores of accumulator `k`. -/
def State.softened (s : State) (t : Core) (st : Strand) (i k : Fin 4) (j : Fin 8) : State :=
  let w := st.wins.get j
  let scores := st.accs.get k
  let old := st.accs.get i
  let probs := (List.range w.rows).map fun r => (softRowOf old scores w r).2
  let written := writeWindow s t st j w .bf16 (fun r c => ⟨(probs.getD r []).getD c 0, .value, none, (accRow scores r).poison⟩)
    fun _ _ => (0, false)
  written.updStrand t fun q => (q.setAcc i (old.mapRows fun r x =>
    if r < w.rows then { (softRowOf old scores w r).1 with poison := x.poison || (accRow scores r).poison } else x)).setW j
      { w with kind := 2, slot := 0, ver := 0 }

/-- What MOUT writes of an accumulator's rows: element 0 of row `r` is element `e` + `r` × `dist` of the record. -/
def moutRows (rec : RecV) (rm : Rm) (phase : Word) (e dist : Nat) (w : Window) (acc : Acc) : List (List Coded × List (Byte × Bool)) :=
  (List.range w.rows).map fun r => moutRow rec rm phase (e + r * dist) w.cols (accRow acc r)

/-- Rows written through window `j`, then each stamped and counted. -/
def moutStamped (s : State) (t : Core) (st : Strand) (j : Fin 8) (w : Window) (rec : RecV) (e dist : Nat)
    (rows : List (List Coded × List (Byte × Bool))) : Except Halt State :=
  stampRows t st .m rec ((List.range w.rows).map fun r => (e + r * dist, (rows.getD r ([], [])).1))
    (writeWindow (s.setStrand t st) t st j w rec.fmt (fun r c => (rows.getD r ([], [])).1.getD c ⟨0, .zero, none, true⟩)
      fun r k => (rows.getD r ([], [])).2.getD k (0, true))

section
variable {s s2 : State} {t : Core} {st : Strand} {d a b : Code} {w : Window}

theorem msoftOp_eq (hd : d.toNat < 4) (ha : a.toNat < 4) (hb : b.toNat < 8) (hne : d ≠ a) (hw : st.wins.get ⟨b.toNat, hb⟩ = w)
    (free : windowWait st .m [b.toNat] = .ok ()) (htr : w.tr = 0) (hcols : w.cols ≤ 128) (check : w.check .bf16 true = .ok ()) :
    msoftOp d a b s t st = .ok (s.softened t st ⟨d.toNat, hd⟩ ⟨a.toNat, ha⟩ ⟨b.toNat, hb⟩) := by
  subst hw
  have distinct : (d != a) = true := bne_iff_ne.mpr hne
  have plain : ((st.wins.get ⟨b.toNat, hb⟩).tr == 0 && decide ((st.wins.get ⟨b.toNat, hb⟩).cols ≤ 128)) = true := by
    simp [htr, hcols]
  simp only [msoftOp, role4_of_lt hd, role4_of_lt ha, role8_of_lt hb, need, distinct, free, plain, check, bind, Except.bind, if_true]
  rfl

variable {r : BitVec 3} {rm : Rm} {v : Queued PWord} {rest : List (Queued PWord)} {rec : RecV} {e dist : Nat}

theorem moutOp_eq (hd : d.toNat < 8) (ha : a.toNat < 4) (hb : b.toNat < 16) (hw : st.wins.get ⟨d.toNat, hd⟩ = w)
    (hrm : Rm.ofBits r = some rm) (free : windowWait st .m [d.toNat] = .ok ()) (hq : st.c2m = v :: rest) (hp : v.val.poison = false)
    (he : bits v.val.val.toNat 39 0 = e) (hdist : bits v.val.val.toNat 63 40 = dist)
    (hrec : recordOf s t st ⟨b.toNat, hb⟩ = .ok rec) (hcols : w.cols ≤ 128) (check : w.check rec.fmt true = .ok ())
    (aligned : rec.fmt = .e2m1 → e % 32 = 0 ∧ dist % 32 = 0) (inside : e + (w.rows - 1) * dist + w.cols - 1 < rec.count)
    (stamped : moutStamped s t { st.took .m [v] with c2m := rest } ⟨d.toNat, hd⟩ w rec e dist
      (moutRows rec rm st.phase e dist w (st.accs.get ⟨a.toNat, ha⟩)) = .ok s2) :
    moutOp d a b r s t st = .ok (s2.updStrand t fun q =>
      q.setW ⟨d.toNat, hd⟩ { w with kind := 1, slot := BitVec.ofNat 4 b.toNat, ver := rec.ver }) := by
  have blocks : (!(rec.fmt == .e2m1 && !(e % 32 == 0 && dist % 32 == 0))) = true := by simpa [imp_iff_not_or] using aligned
  have slot : slotRole b = .ok ⟨b.toNat, hb⟩ := role16_of_lt hb
  simp only [moutStamped, moutRows] at stamped
  simp only [moutOp, role8_of_lt hd, role4_of_lt ha, slot, hw, hrm, free, popC2m_of_cons hq, clean_of_clean hp, hrec, hcols, check, he,
    hdist, blocks, inside, need, bind, Except.bind, if_true, decide_true, Bool.false_eq_true, if_false, stamped]

end

/-! Drains (R233, R234): entries pushed to a queue for a consumer that has not ended. -/

section
variable {α : Type} {st : Strand} {p k : Eng} {depth : Nat} {q : List (Queued α)} {es : List α}

theorem pushN_of_fits (h : (st.eng k).ended = false) (room : q.length + es.length ≤ depth) :
    pushN st p k depth q es [] = .ok (q ++ es.map (st.entry p []), st) := by
  have entries : es.zipIdx.map (fun x => st.entry p [] x.1) = es.map (st.entry p []) := by
    show es.zipIdx.map (st.entry p [] ∘ Prod.fst) = _
    rw [← List.map_map, List.zipIdx_map_fst]
  simp [pushN, h, Nat.not_lt.mpr room, entries]

theorem pushN_of_overfull (h : (st.eng k).ended = false) (full : depth < q.length + es.length) :
    pushN st p k depth q es [] = .error (.wait .push) := by
  simp [pushN, h, full, await]

end

section
variable {s : State} {t : Core} {st : Strand} {acc : Acc} {first n : Nat} {es : List Row}

theorem pushM2v_of_fits (h : st.v.ended = false) (room : st.m2v.length + es.length ≤ 16) :
    pushM2v st es = .ok { st with m2v := st.m2v ++ es.map (st.entry .m []) } := by
  simp only [pushM2v, pushN_of_fits (k := .v) h room, bind, Except.bind]

theorem pushM2v_of_overfull (h : st.v.ended = false) (full : 16 < st.m2v.length + es.length) : pushM2v st es = .error (.wait .push) := by
  simp only [pushM2v, pushN_of_overfull (k := .v) h full, bind, Except.bind]

/-- Entry `k` of a drain from row `first` on: each row gives two. -/
def drained (acc : Acc) (first k : Nat) : Row := drainEntry (accRow acc (first + k / 2)) (k % 2)

/-- A drain of `n` entries that fit pushes them all. -/
theorem drain_of_fits (h : s.strand t = some st) (live : st.v.ended = false) (k : Nat) (room : st.m2v.length + n ≤ 16) :
    drain t acc first n k s =
      .done (s.setStrand t { st with m2v := st.m2v ++ (List.range n).map fun j => st.entry .m [] (drained acc first (k + j)) }) := by
  induction n generalizing s st k with
  | zero =>
    rw [List.range_zero, List.map_nil, List.append_nil]
    exact congrArg WordResult.done (State.setStrand_self h).symm
  | succ n ih =>
    have one : pushM2v st [drainEntry (accRow acc (first + k / 2)) (k % 2)] =
        .ok { st with m2v := st.m2v ++ [st.entry .m [] (drained acc first k)] } :=
      pushM2v_of_fits live (Nat.le_trans (Nat.add_le_add_left (Nat.succ_pos n) _) room)
    have here := State.strand_setStrand s t t { st with m2v := st.m2v ++ [st.entry .m [] (drained acc first k)] }
    have others := ih (here.trans (if_pos rfl)) live (k + 1) (by rw [List.length_append, List.length_singleton]; omega)
    have entries : st.m2v ++ [st.entry .m [] (drained acc first k)] ++
        (List.range n).map (fun j => st.entry .m [] (drained acc first (k + 1 + j))) =
          st.m2v ++ (List.range (n + 1)).map fun j => st.entry .m [] (drained acc first (k + j)) := by
      simp [List.range_succ_eq_map, Nat.add_assoc, Nat.add_comm 1]
    simp only [drain, h, one]
    rw [others, State.setStrand_setStrand, ← entries]
    rfl

/-- A drain that finds the queue full waits at its entry. -/
theorem drain_of_full (h : s.strand t = some st) (live : st.v.ended = false) (full : 16 ≤ st.m2v.length) :
    drain t acc first (n + 1) st.m.progress s = .stay .push s := by
  have kept : s.updStrand t (fun q => { q with m := { q.m with progress := st.m.progress } }) = s := by
    rw [State.updStrand_of_strand h]
    exact State.setStrand_self h
  simp only [drain, h, pushM2v_of_overfull live (es := [_]) (Nat.lt_succ_of_le full), kept]

end

/-! MDRN and MSIDE. -/

section
variable {s : State} {t : Core} {st : Strand} {a : Code} {f c : BitVec 7}

theorem mdrnOp_of_outside (ha : a.toNat < 4) (h : 128 < f.toNat + c.toNat + 1) : mdrnOp a f c s t st = .trap .illegal .atWord s := by
  simp only [mdrnOp, dif_pos ha, gt_iff_lt, h, if_true]

theorem mdrnOp_of_inside (ha : a.toNat < 4) (h : f.toNat + c.toNat + 1 ≤ 128) : mdrnOp a f c s t st =
    drain t (st.accs.get ⟨a.toNat, ha⟩) f.toNat (2 * (c.toNat + 1) - st.m.progress) st.m.progress s := by
  simp only [mdrnOp, dif_pos ha, gt_iff_lt, Nat.not_lt.mpr h, if_false]

/-- Half a side register of an accumulator as an entry (R234). -/
def sideEntry (acc : Acc) (sel : BitVec 1) (half : Nat) : Row :=
  { lanes := tab 64 fun k => if sel = 1 then (accRow acc (64 * half + k)).ssum else (accRow acc (64 * half + k)).smax
    poison := (List.range 64).any fun k => (accRow acc (64 * half + k)).poison }

theorem lane_sideEntry {acc : Acc} {sel : BitVec 1} {half k : Nat} (hk : k < 64) : (sideEntry acc sel half).lane k =
    if sel = 1 then (accRow acc (64 * half + k)).ssum else (accRow acc (64 * half + k)).smax := Row.lane_tab _ _ _ hk

theorem msideOp_eq (ha : a.toNat < 4) (sel : BitVec 1) : msideOp a sel st =
    pushM2v st [sideEntry (st.accs.get ⟨a.toNat, ha⟩) sel 0, sideEntry (st.accs.get ⟨a.toNat, ha⟩) sel 1] := by
  simp only [msideOp, role4_of_lt ha, bind, Except.bind]
  rfl

end

end Sys2Proof.Machine

namespace Sys2Proof

open Sys2Proof.Machine

/-- Settles O42: MSOFT and MOUT by `msoftOp_eq` and `moutOp_eq`, the drains by the room in M2V. -/
theorem matrixOutputs : Obligations.MatrixOutputs := by
  unfold Obligations.MatrixOutputs
  refine ⟨fun s st d a b hr => ⟨?msoft, ?mout⟩, fun s st a ha hr live =>
    ⟨fun f c => ⟨fun h => ?outside, fun h hp room => ?drains, fun h hp full => ?stays⟩,
      fun sel => ⟨fun room => ?sides, fun full => ?waits⟩⟩⟩
  case msoft =>
    intro hd ha hb hne w sc old row free htr hcols check
    exact checkedWord_ok hr (msoftOp_eq hd ha hb hne rfl free htr hcols check)
  case mout =>
    intro hd ha hb r rm v rest rec s2 hrm free hq hp w acc st1 e dist rows hrec hcols check aligned inside stamped
    exact checkedWord_ok hr (moutOp_eq hd ha hb rfl hrm free hq hp rfl rfl hrec hcols check aligned inside stamped)
  case outside => exact runAs_trap hr (mdrnOp_of_outside ha h)
  case drains =>
    refine machineWord_done hr ((mdrnOp_of_inside ha h).trans ?_)
    rw [hp, Nat.sub_zero, drain_of_fits hr.1 live 0 room]
    simp only [Nat.zero_add]
    rfl
  case stays =>
    have stay : mdrnOp a f c s s.focusTile st = .stay .push s := by
      rw [mdrnOp_of_inside ha h, show 2 * (c.toNat + 1) - st.m.progress = 2 * c.toNat + 1 + 1 by omega, drain_of_full hr.1 live full.ge]
    exact (runAs_stay hr stay).trans (by rw [keepBegun_self])
  case sides =>
    refine ⟨_, strandWord_ok hr ((msideOp_eq ha sel).trans (pushM2v_of_fits live (Nat.add_le_add_right room 2))), _,
      sideEntry (st.accs.get ⟨a.toNat, ha⟩) sel 0, sideEntry (st.accs.get ⟨a.toNat, ha⟩) sel 1, State.strand_passedAs _ _ _ _,
      ?_, ?_, fun k hk => ⟨(lane_sideEntry hk).trans (by simp only [Nat.mul_zero, Nat.zero_add]), lane_sideEntry hk⟩⟩
    · rw [Strand.trimLedger_m2v, Strand.count_m2v, Strand.updEng_m2v]
      rfl
    · rw [Strand.trimLedger_accs, Strand.count_accs, Strand.updEng_accs]
  case waits => exact strandWord_wait hr ((msideOp_eq ha sel).trans (pushM2v_of_overfull live (Nat.add_lt_add_right full 2)))

end Sys2Proof
end

section
/-! PROOFS. Canonical memories (R236, R240, R258): what ends a computation, a word or a step in canonical memories. -/

namespace Sys2Proof.Machine

/-- A computation ends in a value of which `p` holds, or in an error of which `q` holds. -/
def Ends {ε α : Type} (q : ε → Prop) (p : α → Prop) : Except ε α → Prop
  | .ok a => p a
  | .error e => q e

/-- A computation whose errors carry no state, by its value. -/
abbrev Answers {ε α : Type} (p : α → Prop) (x : Except ε α) : Prop := Ends (fun _ => True) p x

/-- A computation that a halt leaves partway, in canonical memories then too. -/
abbrev EndsWf {α : Type} (p : α → Prop) (x : Partway α) : Prop := Ends (fun e => e.2.memWf) p x

section
variable {ε α β : Type} {q : ε → Prop} {p : α → Prop} {r : β → Prop}

theorem ends_bind {x : Except ε β} {f : β → Except ε α} : Ends q p (x >>= f) ↔ Ends q (fun b => Ends q p (f b)) x := by
  cases x <;> rfl
theorem ends_map {x : Except ε β} {f : β → α} : Ends q p (x.map f) ↔ Ends q (fun b => p (f b)) x := by
  cases x <;> rfl
theorem ends_ite {c : Prop} [Decidable c] {x y : Except ε α} (hx : Ends q p x) (hy : Ends q p y) : Ends q p (if c then x else y) := by
  split
  · exact hx
  · exact hy

theorem Ends.of_ok {x : Except ε α} {a : α} (h : Ends q p x) (e : x = .ok a) : p a := by subst e; exact h
theorem Ends.of_error {x : Except ε α} {a : ε} (h : Ends q p x) (e : x = .error a) : q a := by subst e; exact h

/-- A computation that touches no state: whatever it answers. -/
theorem answers_any {x : Except ε α} (h : ∀ a, p a) : Answers p x := by
  cases x
  · trivial
  · exact h _

theorem answers_bind_any {x : Except ε β} {f : β → Except ε α} (h : ∀ b, Answers p (f b)) : Answers p (x >>= f) :=
  ends_bind.mpr (answers_any h)
theorem Ends.bind {x : Except ε β} {f : β → Except ε α} (hx : Ends q r x) (hf : ∀ b, r b → Ends q p (f b)) : Ends q p (x >>= f) := by
  cases x with
  | ok b => exact hf b hx
  | error e => exact hx
theorem Ends.mono {x : Except ε β} {r' : β → Prop} (hx : Ends q r x) (hf : ∀ b, r b → r' b) : Ends q r' x := by
  cases x with
  | ok b => exact hf b hx
  | error e => exact hx

theorem ends_foldlM {f : β → α → Except ε β} (hf : ∀ b a, r b → Ends q r (f b a)) :
    ∀ (l : List α) {b : β}, r b → Ends q r (l.foldlM f b)
  | [], _, h => h
  | a :: l, _, h => by
    rw [List.foldlM_cons, ends_bind]
    have := hf _ a h
    cases hx : f _ a with
    | ok b => rw [hx] at this; exact ends_foldlM hf l this
    | error e => rw [hx] at this; exact this

end

/-- A word leaves canonical memories, whether it is done, stays or traps. -/
def WordResult.Wf : WordResult → Prop
  | .done s => s.memWf
  | .stay _ s => s.memWf
  | .trap _ _ s => s.memWf

theorem WordResult.Wf.of_done {x : WordResult} {s : State} (h : x.Wf) (e : x = .done s) : s.memWf := by subst e; exact h
theorem WordResult.Wf.of_stay {x : WordResult} {w : Wait} {s : State} (h : x.Wf) (e : x = .stay w s) : s.memWf := by subst e; exact h
theorem WordResult.Wf.of_trap {x : WordResult} {c : FaultCode} {pr : Precision} {s : State} (h : x.Wf) (e : x = .trap c pr s) :
    s.memWf := by subst e; exact h

theorem State.memWf.of_fst {α : Type} {x : State × α} {s : State} {a : α} (h : x.1.memWf) (e : x = (s, a)) : s.memWf := by
  subst e; exact h

/-- A step that answers a next state leaves canonical memories. -/
def NextWf : Out → Prop
  | .next s => s.memWf
  | _ => True

theorem nextWf_iff {o : Out} : NextWf o ↔ ∀ t, o = .next t → t.memWf := by
  cases o <;> simp [NextWf]

theorem wf_ite {c : Prop} [Decidable c] {x y : WordResult} (hx : x.Wf) (hy : y.Wf) : (if c then x else y).Wf := by
  split
  · exact hx
  · exact hy

theorem nextWf_ite {c : Prop} [Decidable c] {x y : Out} (hx : NextWf x) (hy : NextWf y) : NextWf (if c then x else y) := by
  split
  · exact hx
  · exact hy

end Sys2Proof.Machine
end

section
/-! PROOFS. Canonical memories (R236, R240, R258) after the named operations over the state: what updates it, reads and writes of every
agent, faults and the passing of ticks. -/

namespace Sys2Proof.Machine

/-- An element of a tabulated vector. -/
theorem Vector.getElem_tab {α : Type} {n : Nat} (f : Nat → α) {i : Nat} (hi : i < n) : (tab n f)[i] = f i := by simp [tab]

namespace State.memWf

/-! Updates of the state. -/

section
variable {s : State} (h : s.memWf)
include h

theorem setCore {t : Core} {k : TileCore} (hk : k.spad.wf = true) : (s.setCore t k).memWf := by
  refine ⟨h.1, fun u => ?_⟩
  simp only [State.core, State.setCore, Vector.get_eq_getElem, Vector.getElem_set]
  split
  · exact hk
  · exact h.2 u

theorem updCore {t : Core} {f : TileCore → TileCore} (hf : ∀ k, (f k).spad = k.spad) : (s.updCore t f).memWf :=
  setCore h ((congrArg Mem.wf (hf _)).trans (h.2 t))

theorem setStrand {t : Core} {st : Strand} : (s.setStrand t st).memWf := memWf_setStrand h t st
theorem updStrand {t : Core} {f : Strand → Strand} : (s.updStrand t f).memWf := memWf_updStrand h t f

theorem allCores {f : TileCore → TileCore} (hf : ∀ k, (f k).spad = k.spad) : (s.allCores f).memWf :=
  memWf_of_eq h rfl fun u => by rw [State.core_allCores, hf]

theorem raiseEpoch {d : Fin 4} : (s.raiseEpoch d).memWf := memWf_ite h h
theorem joinClock {d : Fin 4} {c : VClock} : (s.joinClock d c).memWf := h
theorem markPoisoned {n : Nat} : (s.markPoisoned n).memWf := h
theorem hold {w : Holder} {d : Fin 4} {a : Nat} : (s.hold w d a).memWf := h
theorem letGo {w : Holder} : (s.letGo w).memWf := h
theorem signalHost {i : Interrupt} : (signalHost s i).memWf := h
theorem bind {t : Core} {e : Eng} {v : View} : (s.bind t e v).memWf := h.updStrand
theorem beat {t : Core} : (s.beat t).memWf := h.updStrand

theorem of_gateStep {s' : State} {w : Holder} {d : Fin 4} {rs : List (Job × Nat × Nat)} (e : s.gateStep w d rs = some s') : s'.memWf := by
  unfold State.gateStep at e
  split at e
  · cases e; exact h
  · split at e <;> cases e
    exact h

end

theorem foldl {α : Type} {f : State → α → State} (hf : ∀ {s} a, s.memWf → (f s a).memWf) {l : List α} {s : State} (h : s.memWf) :
    (l.foldl f s).memWf := memWf_foldl (fun _ a hs => hf a hs) l h

end State.memWf

/-- A fold keeps what each of its steps keeps. -/
theorem foldl_keeps {α β : Type} {p : β → Prop} {f : β → α → β} (hf : ∀ b a, p b → p (f b a)) :
    ∀ (l : List α) {b : β}, p b → p (l.foldl f b)
  | [], _, h => h
  | a :: l, _, h => foldl_keeps hf l (hf _ a h)

namespace State.memWf

/-! Reads and writes. -/

section
variable {s : State} (h : s.memWf)
include h

theorem touch {l : Leaf} {w : Bool} : (s.touch l w).memWf := memWf_touch h l w
theorem evict {l : Nat} : (s.evict l).memWf := memWf_evict h l
theorem touchRange {c : Option Core} {d : Fin 4} {j : Job} {va n : Nat} : (s.touchRange c d j va n).memWf := memWf_touchRange h c d j va n
theorem number {me : Agent} {c : Carried} {l : Leaf} {bs : List Byte} {p : Bool} {w : Option WriterId} :
    (s.number me c l bs p w).2.memWf := h
theorem applyWrite {p : Pending} {now : Word} {m : Bool} : (s.applyWrite p now m).memWf := memWf_applyWrite h p now m
theorem writeAs {me : Agent} {c : Option Core} {j : Job} {va : Nat} {bs : List Byte} {p : Bool} {w : Option WriterId} :
    (s.writeAs me c j va bs p w).1.memWf := memWf_writeAs h me c j va bs p w

theorem touchWalk {t : Core} {j : Job} {va : Nat} : (touchWalk s t j va).memWf := by
  have walked (l : List Nat) : (l.foldl (fun s pa => s.touch (s.anyLeaf pa) false) s).memWf := foldl (fun _ hs => hs.touch) h
  exact memWf_ite (walked _) (updStrand (walked _))

theorem looked {t : Core} {e : Eng} {l : Look} : (s.looked t e l).memWf := by
  unfold State.looked
  split <;> exact updStrand h

theorem spadRead {t : Core} {e : Eng} {a n : Nat} : (spadRead s t e a n).1.memWf := by
  simp only [Machine.spadRead]
  split
  · exact h
  · exact h.looked.beat

theorem elemRead {t : Core} {st : Strand} {e : Eng} {m : BitVec 1} {va n : Nat} :
    Answers (fun r => r.1.memWf) (elemRead s t st e m va n) := by
  unfold Machine.elemRead
  split
  · exact h.spadRead
  · split
    · trivial
    · refine answers_bind_any fun _ => answers_bind_any fun _ => ?_
      split
      · trivial
      · refine answers_bind_any fun _ => ends_ite ?_ ?_
        · trivial
        · exact h.touchWalk.touch.looked

theorem piecesRead {t : Core} {st : Strand} {e : Eng} {m : BitVec 1} {va n : Nat} :
    Answers (fun r => r.1.memWf) (piecesRead s t st e m va n) := by
  refine ends_foldlM (r := fun r : State × List Byte × Bool => r.1.memWf) (fun _ _ hr => ?_) _ h
  exact hr.elemRead.bind fun _ h1 => h1

theorem partRead {t : Core} {st : Strand} {part : Nat} {v : View} {va n : Nat} :
    Answers (fun r => r.1.memWf) (partRead s t st part v va n) := by
  unfold Machine.partRead
  split
  · exact memWf_ite h.beat h.beat
  · split
    · trivial
    · refine answers_bind_any fun _ => ?_
      split
      · trivial
      · refine answers_bind_any fun _ => ends_ite ?_ ?_
        · trivial
        · exact memWf_ite h.touchWalk.touch h.touchWalk.touch

theorem spadStore {t : Core} {a : Nat} {bs : List Byte} {p : Bool} : (s.spadStore t a bs p).memWf := memWf_spadStore h t a bs p

theorem spadRuns {me : Agent} {c : Carried} {runs : List (Nat × List (Byte × Bool))} : (s.spadRuns me c runs).memWf := by
  refine beat (setCore h ?_)
  exact foldl_keeps (p := fun k : TileCore => k.spad.wf = true) (fun _ _ hk => Mem.storeRun_wf hk _ _) runs (h.2 _)

theorem spadRun {me : Agent} {c : Carried} {a : Nat} {bs : List (Byte × Bool)} : (s.spadRun me c a bs).memWf := h.spadRuns
theorem spadWrite {me : Agent} {c : Carried} {a : Nat} {bs : List Byte} {p : Bool} : (s.spadWrite me c a bs p).memWf := h.spadRuns

theorem elemWrite {t : Core} {st : Strand} {m : BitVec 1} {va : Nat} {bs : List Byte} {p : Bool} :
    Answers State.memWf (elemWrite s t st m va bs p) := by
  unfold Machine.elemWrite
  refine ends_ite h.spadWrite ?_
  split
  · trivial
  · refine answers_bind_any fun _ => answers_bind_any fun _ => ?_
    split
    · trivial
    · refine answers_bind_any fun _ => ?_
      dsimp only
      generalize hs : State.number _ _ _ _ _ _ _ = x
      have hx : x.2.memWf := hs ▸ h.touchWalk.number
      obtain ⟨w, s1⟩ := x
      refine memWf_ite ?_ ?_
      · refine markPoisoned (updStrand ?_)
        exact hx
      · exact updStrand hx

theorem release {t : Core} {e : Eng} {sc : Scope} : Answers (fun r => r.1.memWf) (release s t e sc) := by
  unfold Machine.release
  split
  · exact h
  · exact ends_ite trivial (updStrand (memWf_ite h.raiseEpoch h))

theorem fenceRelease {t : Core} {e : Eng} {sc : Scope} : Answers State.memWf (fenceRelease s t e sc) :=
  h.release.bind fun _ h1 => h1.updStrand

theorem fenceAcquire {t : Core} {e : Eng} {sc : Scope} : (fenceAcquire s t e sc).memWf := by
  unfold Machine.fenceAcquire
  split
  · exact h
  · exact memWf_ite (joinClock h.bind) h.bind

theorem fetchBytes {t : Core} {st : Strand} {e : Eng} {acc : Access} {va n : Nat} :
    Answers (fun r => r.1.memWf) (fetchBytes s t st e acc va n) := by
  unfold Machine.fetchBytes
  split
  · trivial
  · refine answers_bind_any fun _ => ?_
    split
    · trivial
    · exact answers_bind_any fun _ => ends_ite trivial h.touchWalk.touch

theorem cachedWord {t : Core} {st : Strand} {e : Eng} {acc : Access} {va : Nat} :
    Answers (fun r => r.1.memWf) (cachedWord s t st e acc va) := by
  unfold Machine.cachedWord
  split
  · exact h
  · exact ends_map.mpr h.fetchBytes

theorem textWord {t : Core} {st : Strand} {e : Eng} {pos i : Nat} : Answers (fun r => r.1.memWf) (textWord s t st e pos i) := by
  unfold Machine.textWord
  split
  · exact h
  · exact h.cachedWord.bind fun _ h1 => h1.updStrand

theorem aheadWord {t : Core} {st : Strand} {e : Eng} {pos i : Nat} : Answers (fun r => r.1.memWf) (aheadWord s t st e pos i) := by
  unfold Machine.aheadWord
  split
  · exact h
  · exact h.cachedWord.bind fun _ h1 => h1.updStrand

theorem tableWord {t : Core} {st : Strand} {e : Eng} {pos k va : Nat} : Answers (fun r => r.1.memWf) (tableWord s t st e pos k va) := by
  unfold Machine.tableWord
  split
  · exact h
  · refine (ends_foldlM (r := fun r : State × Nat => r.1.memWf) (fun _ _ hr => ?_) _ h).bind fun _ h1 => h1.updStrand
    exact hr.cachedWord.bind fun _ h1 => h1

theorem partRuns {t : Core} {st : Strand} {part : Nat} {runs : List (Nat × List (Byte × Bool))} {w : Option WriterId} :
    Answers State.memWf (partRuns s t st part runs w) := by
  unfold Machine.partRuns
  refine ends_ite h.spadRuns ?_
  split
  · trivial
  · refine answers_bind_any fun _ => ?_
    split
    · trivial
    · refine answers_bind_any fun _ => ends_ite trivial (ends_ite trivial ?_)
      dsimp only
      generalize hs : State.number _ _ _ _ _ _ _ = x
      have hx : x.2.memWf := hs ▸ h.touchWalk.number
      obtain ⟨p, s1⟩ := x
      refine memWf_ite (markPoisoned ?_) ?_
      · exact foldl (fun _ hs => hs.applyWrite) hx
      · exact foldl (fun _ hs => hs.applyWrite) hx

theorem partWrite {t : Core} {st : Strand} {part va : Nat} {bs : List Byte} {p : Bool} {w : Option WriterId} :
    Answers State.memWf (partWrite s t st part va bs p w) := h.partRuns

/-! Faults, waits and the passing of words and ticks. -/

theorem takeFault {n : Nat} {r : FaultRec} : (takeFault s n r).memWf := memWf_of_eq h (mem_takeFault s n r) (spad_takeFault s n r)
theorem wordFault {t : Core} {e : Eng} {rec : BitVec 3} {c : FaultCode} {pr : Precision} : (wordFault s t e rec c pr).memWf :=
  memWf_wordFault h t e rec c pr
theorem setWaitOn {b : Bool} {t : Core} {e : Eng} {w : Wait} : (setWaitOn b s t e w).memWf := memWf_of_eq h (by simp) (by simp)
theorem setWait {t : Core} {e : Eng} {w : Wait} : (setWait s t e w).memWf := memWf_setWait h t e w
theorem passWord {t : Core} {e : Eng} {len : Nat} : (passWord s t e len).memWf := memWf_passWord h t e len
theorem keepBegun {s0 : State} {t : Core} {e : Eng} : (keepBegun s0 s t e).memWf := memWf_keepBegun h s0 t e

theorem resetWindows : (resetWindows s).memWf := memWf_ite h h

theorem passTicks {dt : Nat} : (passTicks s dt).memWf := by
  have h1 : (if resetDue s dt then Machine.resetWindows s else s).memWf := memWf_ite h.resetWindows h
  refine memWf_of_eq h1 rfl fun u => ?_
  simp only [Machine.passTicks, State.core, Vector.get_eq_getElem, Vector.getElem_tab, u.isLt, dif_pos]
  split <;> rfl

theorem distanceFault {t : Core} : (distanceFault s t).memWf := by
  unfold Machine.distanceFault
  split
  · exact h.takeFault.updStrand
  · exact h

theorem distanceFaults : (distanceFaults s).memWf := foldl (fun _ hs => memWf_ite hs.distanceFault hs) h

end

theorem advanceGo : ∀ {fuel : Nat} {s : State} {dt : Nat}, s.memWf → (advanceGo fuel s dt).memWf
  | 0, _, _, h => h.passTicks
  | _ + 1, _, _, h => memWf_ite h (advanceGo h.distanceFaults.passTicks)

theorem advance {s : State} (h : s.memWf) {dt : Nat} : (advance s dt).memWf := memWf_ite h h.advanceGo

end State.memWf

end Sys2Proof.Machine
end

section
/-! PROOFS. Canonical memories (R236, R240, R258) after the words of an engine: the runners, and the words of the control engine. -/

namespace Sys2Proof.Machine

theorem wf_of_answers {s : State} (h : s.memWf) {x : Except Halt State} (hx : Answers State.memWf x) : (WordResult.of s x).Wf := by
  unfold WordResult.of
  split
  · exact hx
  · exact h
  · exact h

namespace State.memWf

/-! The runners. -/

section
variable {s : State} (h : s.memWf)
include h

theorem runAs {e : Eng} {rec : BitVec 3} {len : Nat} {f : State → Core → Strand → WordResult} (hf : ∀ t st, (f s t st).Wf) :
    NextWf (runAs e rec len f s) := by
  unfold Machine.runAs
  dsimp only
  split
  · trivial
  · refine nextWf_ite h.setWait ?_
    split
    · exact ((hf _ _).of_done ‹_›).passWord
    · exact ((hf _ _).of_stay ‹_›).keepBegun.setWait
    · exact ((hf _ _).of_trap ‹_›).wordFault

theorem checkedWord {e : Eng} {len : Nat} {f : State → Core → Strand → Except Halt State} (hf : ∀ t st, Answers State.memWf (f s t st)) :
    NextWf (checkedWord e len f s) := by
  unfold Machine.checkedWord machineWord
  exact h.runAs fun t st => wf_of_answers h (hf t st)

/-- A word that only changes its strand. -/
theorem strandWord {e : Eng} {len : Nat} {f : Strand → Except Halt Strand} : NextWf (strandWord e len f s) := by
  unfold Machine.strandWord
  exact h.checkedWord fun _ _ => ends_map.mpr (answers_any fun _ => h.setStrand)

theorem placedWord {e : Eng} {rec : BitVec 3} {f : State → Core → Strand → Eng → Except Halt State}
    (hf : ∀ t st e, Answers State.memWf (f s t st e)) : NextWf (placedWord e rec f s) := by
  unfold Machine.placedWord
  dsimp only
  split
  · trivial
  · refine nextWf_ite h.setWait ?_
    split
    · exact ((hf _ _ _).of_ok ‹_›).updStrand
    · exact h.setWait
    · exact h.wordFault

/-! The control engine's words. -/

theorem argOp {d a : Code} {off : Int} {t : Core} {st : Strand} : Answers State.memWf (argOp d a off s t st) :=
  answers_bind_any fun _ => ends_ite trivial (ends_ite trivial (ends_ite trivial (h.elemRead.bind fun _ h1 => h1.updStrand)))

theorem gselOp {a : Code} {i : BitVec 8} {t : Core} {st : Strand} : Answers State.memWf (gselOp a i s t st) := answers_bind_any fun _ => h

theorem srdOp {d : Code} {imm : Word} {t : Core} {st : Strand} : Answers State.memWf (srdOp d imm s t st) := by
  unfold Machine.srdOp
  split
  · exact h.setStrand
  · trivial

theorem ctrrOp {d : Code} {imm : Word} {t : Core} {st : Strand} : Answers State.memWf (ctrrOp d imm s t st) := by
  unfold Machine.ctrrOp
  dsimp only
  split
  · refine ends_ite (updStrand (updStrand h)) ?_
    split
    · exact h.updStrand
    · trivial
  · split
    · trivial
    · refine ends_ite (ends_ite trivial ?_) trivial
      refine h.elemRead.bind fun _ h1 => ?_
      exact ends_ite (updStrand h1) (updStrand h1)
  · exact ends_ite h.updStrand trivial
  · trivial

/-! Records (R379, R391 to R396). -/

theorem pinRecord {t : Core} {st : Strand} {i : Nat} : Answers State.memWf (pinRecord s t st i) :=
  answers_bind_any fun _ => ends_ite trivial <| answers_bind_any fun _ => answers_bind_any fun _ => ends_ite trivial h.updStrand

theorem refill {t : Core} {i : Nat} : (refill s t i).memWf := by
  unfold Machine.refill
  split
  · exact h
  · exact h.setStrand

theorem fillRecords {t : Core} : (fillRecords s t).memWf := by
  unfold Machine.fillRecords
  split
  · exact h
  · split
    · exact h
    · refine foldl (fun b hs => ?_) h
      split
      · exact hs.touchRange.refill
      · exact hs

theorem invalidateRecord {job : Word} {i : Nat} : (s.invalidate job i).memWf := by
  refine foldl (fun t hs => ?_) h
  split
  · exact memWf_ite hs.refill hs
  · exact hs

theorem countInto {t : Core} {r : RecV} {c : Cls} {ex : Option Int} {sc : Int} : (countInto s t r c ex sc).memWf := h.updStrand

theorem stampRead {t : Core} {e : Eng} {j : Job} {va : Nat} : Answers (fun r => r.1.memWf) (stampRead s t e j va) := by
  refine answers_bind_any fun _ => ?_
  split
  · exact h.looked
  · exact h

theorem openGranule {t : Core} {job : Word} {rec g : Nat} : (openGranule s t job rec g).memWf := h

theorem stampWrite {t : Core} {st : Strand} {e : Eng} {j : Job} {va : Nat} {b : Byte} {q : StampOf} :
    Answers State.memWf (stampWrite s t st e j va b q) := by
  unfold Machine.stampWrite
  split
  · trivial
  · generalize hs : State.number _ _ _ _ _ _ _ = x
    have hx : x.2.memWf := hs ▸ h.number
    exact ends_ite (c := _ = true) hx hx.applyWrite

theorem stampElem {t : Core} {st : Strand} {e : Eng} {r : RecV} {i : Nat} {c : Cls} {ex : Option Int} {o : Bool} :
    Answers State.memWf (stampElem s t st e r i c ex o) := by
  refine ends_ite trivial (answers_bind_any fun _ => h.stampRead.bind fun _ h1 => ?_)
  exact ends_ite h1.countInto (h1.stampWrite.bind fun _ h2 => h2.countInto)

theorem flushDeltas {t : Core} {only : Option Nat} : (flushDeltas s t only).memWf := by
  unfold Machine.flushDeltas
  split
  · exact h
  · exact updStrand h

theorem homeRequest {t : Core} {st : Strand} {j : Job} {va n : Nat} : Answers State.memWf (homeRequest s t st j va n) := by
  refine answers_bind_any fun _ => answers_bind_any fun _ => ?_
  split
  · trivial
  · exact answers_bind_any fun _ => ends_ite trivial h.touchWalk.touch.looked

theorem recordRequest {t : Core} {st : Strand} {j : Job} {i off : Nat} : Answers State.memWf (recordRequest s t st j i off) := h.homeRequest

theorem putX {t : Core} {d : Code} {v : Nat} : (putX s t d v).memWf := h.updStrand

theorem tbindOp {tc a : Code} {t : Core} {st : Strand} : Answers State.memWf (tbindOp tc a s t st) := by
  refine answers_bind_any fun _ => answers_bind_any fun _ => answers_bind_any fun _ => ends_ite trivial ?_
  exact h.recordRequest.bind fun _ h1 => h1.pinRecord.bind fun _ h2 => h2.updStrand

theorem treadOp {d tc : Code} {imm : Word} {t : Core} {st : Strand} : Answers State.memWf (treadOp d tc imm s t st) := by
  refine answers_bind_any fun _ => ends_ite trivial (answers_bind_any fun _ => ?_)
  exact h.recordRequest.bind fun _ h1 => answers_bind_any fun _ => h1.putX

theorem tverOp {d tc : Code} {t : Core} {st : Strand} : Answers State.memWf (tverOp d tc s t st) := by
  refine answers_bind_any fun _ => answers_bind_any fun _ => ?_
  split
  · exact h.putX
  · exact answers_bind_any fun _ => h.putX

theorem tstatOp {d tc : Code} {imm : Word} {t : Core} {st : Strand} : Answers State.memWf (tstatOp d tc imm s t st) := by
  refine answers_bind_any fun _ => answers_bind_any fun _ => ?_
  dsimp only
  split
  · trivial
  · exact h.recordRequest.bind fun _ h1 => answers_bind_any fun _ => h1.putX
  · refine h.recordRequest.bind fun _ h1 => h1.recordRequest.bind fun _ h2 => answers_bind_any fun _ => ?_
    exact ends_ite (answers_bind_any fun _ => h2.putX) (answers_bind_any fun _ => h2.putX)
  · exact h.recordRequest.bind fun _ h1 => h1.putX
  · exact h.recordRequest.bind fun _ h1 => h1.putX

theorem tsyncOp {tc : Code} {t : Core} {st : Strand} : Answers State.memWf (tsyncOp tc s t st) := by
  refine answers_bind_any fun _ => answers_bind_any fun _ => h.recordRequest.bind fun _ h1 => ?_
  exact ends_ite trivial h1.flushDeltas

theorem tstmpOp {d a : Code} {imm : Word} {t : Core} {st : Strand} : Answers State.memWf (tstmpOp d a imm s t st) := by
  refine ends_ite trivial (answers_bind_any fun _ => answers_bind_any fun _ => answers_bind_any fun _ => answers_bind_any fun _ => ?_)
  refine ends_ite trivial (h.recordRequest.bind fun _ h1 => h1.homeRequest.bind fun _ h2 => ?_)
  exact answers_bind_any fun _ => answers_bind_any fun _ => h2.putX

theorem tringOp {d tc : Code} {imm : Word} {t : Core} {st : Strand} : Answers State.memWf (tringOp d tc imm s t st) := by
  refine answers_bind_any fun _ => ends_ite trivial (answers_bind_any fun _ => ?_)
  exact h.recordRequest.bind fun _ h1 => answers_bind_any fun _ => h1.putX

end

end State.memWf

end Sys2Proof.Machine
end

section
/-! PROOFS. Canonical memories (R236, R240, R258) after the access engine's loads and stores (R263 to R277). -/

namespace Sys2Proof.Machine

namespace State.memWf

/-! Windows and spans of scratchpad (R219 to R224, R299). -/

section
variable {s : State} (h : s.memWf)
include h

theorem bindWindows {t : Core} {e : Eng} {ws : List Nat} : (bindWindows s t e ws).memWf := by
  unfold Machine.bindWindows
  split
  · exact h
  · exact foldl (fun _ hs => hs.bind) h

theorem noteWindow {s0 : State} {t : Core} {w : Nat} : (noteWindow s0 s t w).memWf := h.updStrand

theorem spadBytes {t : Core} {e : Eng} {a n : Nat} : (spadBytes s t e a n).1.memWf :=
  foldl_keeps (p := fun r : State × List (List (Byte × Bool)) => r.1.memWf) (fun _ _ hr => hr.spadRead) _ h

theorem spadSeen {t : Core} {e : Eng} {ranges : List (Nat × Nat)} : (spadSeen s t e ranges).1.memWf :=
  foldl_keeps (p := fun r : State × Mem => r.1.memWf) (fun _ _ hr =>
    foldl_keeps (p := fun r : State × Mem => r.1.memWf) (fun _ _ hr => hr.spadRead) _ hr) _ h

end

theorem writeStream {me : Agent} {c : Carried} {dst : Nat → Nat} {row : Nat} :
    ∀ {fuel o : Nat} {bs : List (Byte × Bool)} {s : State}, s.memWf → (writeStream me c dst row fuel o bs s).memWf
  | 0, _, _, _, h => h
  | _ + 1, _, _, _, h => memWf_ite h (writeStream h.spadRun)

theorem gatherWords {t : Core} {x : PWord} : ∀ {n : Nat} {s : State}, s.memWf → (gatherWords t x n s).Wf
  | 0, _, h => h
  | _ + 1, _, h => by
    unfold Machine.gatherWords
    split
    · exact h
    · dsimp only
      split
      · exact gatherWords (h.elemRead.of_ok ‹_›).updStrand
      · exact h.updStrand
      · exact h

section
variable {s : State} (h : s.memWf)
include h

theorem hldOp {d a : Code} {i : BitVec 14} {t : Core} {st : Strand} : (hldOp d a i s t st).Wf := by
  unfold Machine.hldOp
  dsimp only
  split
  · exact h
  · exact h
  · rename_i x s0 heq
    have h0 : s0.memWf := by
      split at heq
      · cases heq
        exact h
      · refine Ends.of_ok (p := fun r => r.2.memWf) (answers_bind_any fun _ => ?_) heq
        exact ends_ite (answers_bind_any fun _ => h.setStrand) h.setStrand
    split
    · refine wf_ite h ?_
      split
      · exact h
      · exact ((gatherWords h0).of_done ‹_›).updStrand
    · exact gatherWords h0

theorem readUnit {t : Core} {st : Strand} {spec : Bool} {u : Int × Nat} : Answers (fun r => r.1.memWf) (readUnit s t st spec u) := by
  unfold Machine.readUnit
  split
  · exact h.elemRead.of_ok ‹_›
  · exact ends_ite h trivial
  · trivial

theorem keepA {t : Core} {l : Latch} {k : Nat} : (keepA s t l k).memWf := h.updStrand

end

theorem readRun {t : Core} {st : Strand} {spec : Bool} {unit : Nat → Int × Nat} :
    ∀ {n k : Nat} {acc : List (Byte × Bool)} {s : State}, s.memWf → (readRun t st spec unit n k acc s).1.memWf
  | 0, _, _, _, h => h
  | _ + 1, _, _, _, h => by
    unfold Machine.readRun
    split
    · exact readRun (h.readUnit.of_ok ‹_›)
    · exact h

theorem loadA2c {t : Core} {spec : Bool} {l : Latch} {unit : Nat → Int × Nat} :
    ∀ {n k : Nat} {s : State}, s.memWf → (loadA2c t spec l unit n k s).Wf
  | 0, _, _, h => h
  | _ + 1, _, _, h => by
    unfold Machine.loadA2c
    split
    · exact h
    · split
      · exact h
      · exact h.keepA
      · split
        · exact loadA2c (h.readUnit.of_ok ‹_›).setStrand
        · exact h.keepA
        · exact h

theorem loadA2v {t : Core} {spec : Bool} {unit : Nat → Int × Nat} {total : Nat} :
    ∀ {fuel : Nat} {s : State}, s.memWf → (loadA2v t spec unit total fuel s).Wf
  | 0, _, h => h
  | _ + 1, _, h => by
    unfold Machine.loadA2v
    split
    · exact h
    · refine wf_ite ?_ (wf_ite h ?_)
      · split
        · exact loadA2v h.setStrand.keepA
        · exact h
        · exact h
      · dsimp only
        split
        · exact (readRun h).keepA
        · exact (readRun h).keepA
        · exact loadA2v (readRun h).keepA

section
variable {s : State} (h : s.memWf)
include h

theorem loadSpad {t : Core} {st : Strand} {spec : Bool} {l : Latch} {unit : Nat → Int × Nat} {n : Nat} {dst : Nat → Nat} {row : Nat} :
    (loadSpad t st spec l unit n dst row s).Wf := by
  unfold Machine.loadSpad
  dsimp only
  split
  · exact (readRun h).writeStream.keepA
  · exact (readRun h).writeStream.keepA
  · exact (readRun h).writeStream.keepA

theorem loadGo {d b : Code} {sz : BitVec 2} {spec : Bool} {l : Latch} {t : Core} {st : Strand} : (loadGo d b sz spec l s t st).Wf := by
  unfold Machine.loadGo
  dsimp only
  split
  · exact h.loadSpad
  · split
    · split
      · exact (h.bindWindows.loadSpad.of_done ‹_›).noteWindow.updStrand
      · exact (h.bindWindows.loadSpad.of_stay ‹_›).noteWindow
      · exact (h.bindWindows.loadSpad.of_trap ‹_›).noteWindow
    · exact wf_ite h.loadA2c h.loadA2v

theorem aldOp {spec : Bool} {d a b : Code} {tc : BitVec 4} {r : BitVec 1} {sz : BitVec 2} {t : Core} {st : Strand} :
    (aldOp spec d a b tc r sz s t st).Wf := by
  unfold Machine.aldOp
  split
  · exact h.loadGo
  · split
    · exact h
    · exact h
    · exact h.setStrand.loadGo

end

theorem stampedCheck {t : Core} {st : Strand} {r : RecV} :
    ∀ {gs : List (Nat × Bool)} {s : State}, s.memWf → Answers State.memWf (stampedCheck t st r gs s)
  | [], _, h => h
  | (_, _) :: _, _, h => by
    refine answers_bind_any fun _ => h.stampRead.bind fun _ h1 => ends_ite trivial ?_
    exact ends_ite (ends_ite (stampedCheck h1.openGranule) trivial) (stampedCheck h1)

theorem storePiece {s : State} (h : s.memWf) {t : Core} {st : Strand} {a : Int} {bs : List (Byte × Bool)} :
    Answers State.memWf (storePiece s t st a bs) := h.elemWrite

theorem flushStore {t : Core} {unit : Nat → Int × Nat} :
    ∀ {n k : Nat} {bs : List (Byte × Bool)} {s : State}, s.memWf → (flushStore t unit n k bs s).memWf
  | 0, _, _, _, h => h
  | _ + 1, _, _, _, h => by
    refine memWf_ite h ?_
    split
    · exact h
    · split
      · exact flushStore (h.storePiece.of_ok ‹_›)
      · exact h

theorem storeGo {t : Core} {d : Code} {z n : Nat} {unit : Nat → Int × Nat} :
    ∀ {fuel : Nat} {s : State}, s.memWf → (storeGo t d z n unit fuel s).Wf
  | 0, _, h => h
  | _ + 1, _, h => by
    unfold Machine.storeGo
    split
    · exact h
    · split
      · exact h
      · refine wf_ite h (wf_ite ?_ ?_)
        · split
          · exact storeGo (h.storePiece.of_ok ‹_›).keepA
          · exact h
          · exact h
        · split
          · exact h
          · exact h
          · exact wf_ite h.flushStore (storeGo h.setStrand.keepA)

theorem storeStart {s : State} (h : s.memWf) {d a b : Code} {tc : BitVec 4} {r : BitVec 1} {sz : BitVec 2} {t : Core} {st : Strand} :
    Answers State.memWf (storeStart d a b tc r sz s t st) := by
  unfold Machine.storeStart
  refine answers_bind_any fun _ => answers_bind_any fun _ => answers_bind_any fun _ => answers_bind_any fun _ => answers_bind_any fun _ => ?_
  refine answers_bind_any fun _ => answers_bind_any fun _ => answers_bind_any fun _ => ?_
  extract_lets go
  have hgo (q : Option RecV) : Answers State.memWf (go q) := by
    unfold go
    extract_lets mx total entries tag store begin
    have hstore (x : State × List (Byte × Bool) × Strand) (hx : x.1.memWf) : Answers State.memWf (store x) := by
      unfold store
      obtain ⟨s0, buf, st2⟩ := x
      dsimp -zeta only
      extract_lets last check
      have hcheck (u : PUnit) : Answers State.memWf (check u) := by
        unfold check
        split
        · exact (stampedCheck hx).bind fun _ h1 => h1.setStrand.keepA
        · exact hx.setStrand.keepA
      exact ends_ite (answers_bind_any hcheck) (hcheck ⟨⟩)
    clear_value store
    have hbegin (u : PUnit) : Answers State.memWf (begin u) := by
      refine answers_bind_any fun _ => ?_
      split
      · refine answers_bind_any fun _ => ?_
        split
        exact hstore _ (of_fst h.setStrand.spadBytes ‹_›)
      · refine ends_ite (answers_bind_any fun _ => hstore _ h) (ends_ite (answers_bind_any fun _ => ?_) ?_)
        · exact ends_ite trivial (hstore _ h)
        · exact ends_ite (hstore _ h) (answers_bind_any fun _ => hstore _ h)
    clear_value begin
    split
    · refine answers_bind_any fun _ => ?_
      extract_lets span dense
      have hspan (u : PUnit) : Answers State.memWf (span u) := ends_ite (ends_ite trivial (hbegin ⟨⟩)) (hbegin ⟨⟩)
      have hdense (u : PUnit) : Answers State.memWf (dense u) := ends_ite (answers_bind_any hspan) (hspan ⟨⟩)
      exact ends_ite (answers_bind_any hdense) (hdense ⟨⟩)
    · exact hbegin ⟨⟩
  exact ends_ite (answers_bind_any hgo) (answers_bind_any hgo)

theorem astOp {s : State} (h : s.memWf) {d a b : Code} {tc : BitVec 4} {r : BitVec 1} {sz : BitVec 2} {t : Core} {st : Strand} :
    (astOp d a b tc r sz s t st).Wf := by
  unfold Machine.astOp
  dsimp only
  split
  · exact h
  · exact h
  · rename_i heq
    refine storeGo ?_
    split at heq
    · cases heq
      exact h
    · exact h.storeStart.of_ok heq

end State.memWf

end Sys2Proof.Machine
end

section
/-! PROOFS. Canonical memories (R236, R240, R258) after semaphores, copies, gathers, scatters, atomics, survivors and prefetch (R278 to R292,
R427 to R434). -/

namespace Sys2Proof.Machine

namespace State.memWf

/-! Semaphores. -/

section
variable {s : State} (h : s.memWf)
include h

theorem setSem {t : Core} {die : Bool} {n : Nat} {v : Word} : (setSem s t die n v).memWf := by
  unfold Machine.setSem
  split
  · exact h
  · exact memWf_ite h h.updStrand

theorem wakeWaiters {t : Core} {job : Word} {die : Bool} {n : Nat} : (wakeWaiters s t job die n).memWf := by
  refine foldl (fun c hs => ?_) h
  split
  · exact hs
  · refine memWf_ite hs (setStrand (memWf_ite ?_ hs))
    exact hs

theorem attachView {t : Core} {job : Word} {die : Bool} {n : Nat} {v : View} : (attachView s t job die n v).memWf := by
  refine wakeWaiters (memWf_ite ?_ h.updStrand)
  exact h

theorem semChange {op : SemOp} {e : Eng} {die : BitVec 1} {n : BitVec 10} {v : Word} {t : Core} {st : Strand} :
    Answers State.memWf (semChange op e die n v s t st) := by
  refine ends_ite trivial (h.release.bind fun _ h1 => ?_)
  exact memWf_ite (updStrand h1.setSem.attachView) h1.setSem.attachView

theorem semWait {e : Eng} {die : BitVec 1} {n : BitVec 10} {v : Word} {t : Core} {st : Strand} :
    Answers State.memWf (semWait e die n v s t st) := by
  refine ends_ite trivial ?_
  split
  · exact h.bind
  · exact ends_ite h.bind trivial

theorem incSem {t : Core} {n : BitVec 5} : (incSem s t n).memWf := by
  unfold Machine.incSem
  split
  · exact h
  · exact memWf_ite (updStrand h.setSem) h.setSem

theorem signalSem {t : Core} {wide : Bool} {n : BitVec 5} {v : View} : (signalSem s t wide n v).memWf := by
  unfold Machine.signalSem
  split
  · exact h
  · exact attachView (incSem (memWf_ite h.raiseEpoch h))

/-! Copies (R278, R280). -/

theorem copyOp {permute : Bool} {d a b sc : Code} {e : BitVec 1} {t : Core} {st : Strand} :
    Answers State.memWf (copyOp permute d a b sc e s t st) := by
  unfold Machine.copyOp
  refine answers_bind_any fun _ => answers_bind_any fun _ => answers_bind_any fun _ => answers_bind_any fun _ => answers_bind_any fun _ => ?_
  refine answers_bind_any fun _ => answers_bind_any fun _ => ?_
  extract_lets go
  have hgo (u : PUnit) : Answers State.memWf (go u) := by
    unfold go
    dsimp -zeta only
    refine answers_bind_any fun _ => answers_bind_any fun _ => answers_bind_any fun _ => answers_bind_any fun _ => ?_
    extract_lets virt place
    have hplace (u : PUnit) : Answers State.memWf (place u) :=
      h.setStrand.release.bind fun _ h1 => ends_ite (memWf_ite h1.signalSem h1) h1.updStrand
    refine ends_ite (answers_bind_any fun _ => answers_bind_any fun _ => answers_bind_any fun _ => ?_) (hplace ⟨⟩)
    exact ends_ite (answers_bind_any hplace) (hplace ⟨⟩)
  exact ends_ite trivial (hgo ⟨⟩)

end

/-! Gathers and read-modify-writes (R281 to R285). -/

theorem readTodo {t : Core} : ∀ {n : Nat} {s : State}, s.memWf → (readTodo t n s).Wf
  | 0, _, h => h
  | _ + 1, _, h => by
    unfold Machine.readTodo
    split
    · exact h
    · dsimp only
      split
      · exact h
      · split
        · have h1 := h.readUnit.of_ok ‹_›
          exact readTodo (keepA (memWf_ite h1.updStrand h1))
        · exact h
        · exact h

section
variable {s : State} (h : s.memWf)
include h

theorem agthOp {d a b : Code} {sz : BitVec 2} {t : Core} {st : Strand} : (agthOp d a b sz s t st).Wf := by
  unfold Machine.agthOp
  dsimp only
  split
  · exact h
  · exact h
  · rename_i heq
    have h0 : State.memWf ‹_› := by
      split at heq
      · cases heq
        exact h
      · refine Ends.of_ok (p := State.memWf) (answers_bind_any fun _ => ?_) heq
        exact h.setStrand.keepA
    split
    · have h1 := (readTodo h0).of_done ‹_›
      split
      · exact h1.writeStream
      · split
        · exact h1.setStrand
        · exact h1
        · exact h1
    · exact readTodo h0

theorem applyOrDrop {p : Pending} {now : Word} {m : Bool} : (s.applyOrDrop p now m).memWf := memWf_ite h.takeFault h.applyWrite

theorem sliceWrite {t : Core} {st : Strand} {j : Job} {l : Leaf} {bs : List Byte} {p m : Bool} : (sliceWrite s t st j l bs p m).memWf := by
  unfold Machine.sliceWrite
  dsimp only
  generalize hs : State.number _ _ _ _ _ _ _ = x
  have hx : x.2.memWf := hs ▸ h.number
  obtain ⟨w, s1⟩ := x
  exact memWf_ite (markPoisoned (updStrand hx.applyOrDrop)) (updStrand hx.applyOrDrop)

theorem rmw {t : Core} {st : Strand} {va n : Nat} {m : Bool} {f : List Byte → Bool → List Byte × Bool} :
    Answers (fun r => r.1.memWf) (rmw s t st va n m f) := by
  refine ends_ite h.looked.spadWrite ?_
  refine answers_bind_any fun _ => answers_bind_any fun _ => answers_bind_any fun _ => answers_bind_any fun _ => answers_bind_any fun _ => ?_
  exact h.touchWalk.looked.sliceWrite

theorem mergeHold {t : Core} {st : Strand} {a c : Nat} {p : Bool} : Answers State.memWf (mergeHold s t st a c p) := by
  refine answers_bind_any fun _ => answers_bind_any fun _ => answers_bind_any fun _ => answers_bind_any fun _ => answers_bind_any fun _ => ?_
  exact ends_ite trivial (updStrand h)

end

theorem applyTodo {t : Core} {ty : BitVec 4} {op : Nat} {m : Bool} : ∀ {n : Nat} {s : State}, s.memWf → (applyTodo t ty op m n s).Wf
  | 0, _, h => h
  | _ + 1, _, h => by
    unfold Machine.applyTodo
    split
    · exact h
    · dsimp only
      split
      · exact h
      · split
        · exact applyTodo (Ends.of_ok (p := State.memWf) (ends_ite h.mergeHold (ends_map.mpr h.rmw)) ‹_›).keepA
        · exact h
        · exact h
        · exact h

section
variable {s : State} (h : s.memWf)
include h

theorem ascaOp {d a b : Code} {ty : BitVec 4} {o : BitVec 3} {t : Core} {st : Strand} : (ascaOp d a b ty o s t st).Wf := by
  unfold Machine.ascaOp
  dsimp only
  split
  · exact h
  · exact h
  · rename_i heq
    refine applyTodo ?_
    split at heq
    · cases heq
      exact h
    · refine Ends.of_ok (p := fun r => r.1.memWf) (answers_bind_any fun _ => ?_) heq
      exact h.setStrand.keepA

theorem aatmOp {d a b : Code} {ty : BitVec 4} {o : BitVec 3} {t : Core} {st : Strand} : Answers State.memWf (aatmOp d a b ty o s t st) := by
  unfold Machine.aatmOp
  refine answers_bind_any fun _ => answers_bind_any fun _ => answers_bind_any fun _ => answers_bind_any fun _ => answers_bind_any fun _ => ?_
  refine answers_bind_any fun _ => answers_bind_any fun ⟨x, st1⟩ => answers_bind_any fun ⟨y, st2⟩ => ?_
  dsimp -zeta only
  extract_lets merging go
  have hgo (x : PWord × Strand) : Answers State.memWf (go x) := by
    obtain ⟨swap, st3⟩ := x
    refine answers_bind_any fun _ => answers_bind_any fun _ => answers_bind_any fun _ => ?_
    clear_value merging
    with_reducible refine answers_bind_any fun _ => answers_bind_any fun _ => ?_
    refine h.setStrand.rmw.bind fun ⟨s1, _, _⟩ h1 => ?_
    dsimp only
    split
    · exact h1.setStrand
    · exact answers_bind_any fun _ => h1.setStrand
  refine ends_ite ?_ (answers_bind_any hgo)
  split
  · exact answers_bind_any hgo
  · exact answers_bind_any hgo

theorem survOp {a : Code} {e : BitVec 4} {t : Core} {st : Strand} : Answers State.memWf (survOp a e s t st) := by
  refine answers_bind_any fun _ => ?_
  split
  · trivial
  · split
    · trivial
    · split
      · trivial
      · split
        · trivial
        · refine answers_bind_any fun _ => answers_bind_any fun _ => ?_
          refine ends_ite trivial (ends_ite trivial (ends_ite h.takeFault (ends_ite trivial ?_)))
          refine h.setStrand.release.bind fun ⟨s0, _⟩ h1 => ?_
          dsimp only
          generalize hs : Machine.spadBytes s0 _ _ _ _ = x
          have hx : x.1.memWf := hs ▸ spadBytes h1
          exact hx

theorem prefetch {t : Core} {j : Job} {va : Nat} : (prefetch s t j va).memWf := by
  refine memWf_ite h ?_
  split
  · exact memWf_ite h h.touchWalk.touch
  · exact h

theorem apfOp {a b : Code} {t : Core} {st : Strand} : Answers State.memWf (apfOp a b s t st) := by
  refine answers_bind_any fun _ => answers_bind_any fun _ => answers_bind_any fun _ => answers_bind_any fun _ => ?_
  refine ends_ite h.setStrand ?_
  split
  · exact h.setStrand
  · exact foldl (fun _ hs => hs.prefetch) h.setStrand

end

end State.memWf

end Sys2Proof.Machine
end

section
/-! PROOFS. Canonical memories (R236, R240, R258) after the store-update stage and requantisation (R286 to R290), and after the words of the
matrix and the vector engine. -/

namespace Sys2Proof.Machine

theorem endsWf_at {s : State} (h : s.memWf) {α : Type} {p : α → Prop} {x : Except Halt α} (hx : Answers p x) : EndsWf p (Halt.at s x) := by
  unfold Halt.at
  split
  · exact hx
  · exact h

/-! What a word has begun (R421). -/

section
variable {t : Core} {x : Begun} (h : x.1.memWf)
include h

theorem endsWf_once {f : State → Except Halt (State × Nat × Bool)} (hf : ∀ {s}, s.memWf → Answers (fun r => r.1.memWf) (f s)) :
    EndsWf (fun r => r.1.1.memWf) (once t f x) := by
  obtain ⟨s, l, i⟩ := x
  unfold once
  dsimp only
  split
  · exact h
  · split
    · exact (hf h).of_ok ‹_›
    · exact h.updStrand

theorem endsWf_onceDo {f : State → Except Halt State} (hf : ∀ {s}, s.memWf → Answers State.memWf (f s)) :
    EndsWf (fun r => r.1.memWf) (onceDo t f x) :=
  ends_map.mpr (endsWf_once h fun hs => ends_map.mpr (hf hs))

end

/-- A write of the stage or of requantisation, which keeps the canonical form. -/
def WritesWf (w : State → Nat → List Byte → Bool → Except Halt State) : Prop :=
  ∀ {s va bs p}, s.memWf → Answers State.memWf (w s va bs p)

theorem endsWf_writeRun {t : Core} {w : State → Nat → List Byte → Bool → Except Halt State} (hw : WritesWf w) :
    ∀ {fuel a : Nat} {bs : List (Byte × Bool)} {x : Begun}, x.1.memWf → EndsWf (fun r => r.1.memWf) (writeRun t w fuel a bs x)
  | 0, _, _, _, h => h
  | _ + 1, _, _, _, h => ends_ite h ((endsWf_onceDo h hw).bind fun _ h1 => endsWf_writeRun hw h1)

theorem endsWf_stampRun {t : Core} {st : Strand} {g : Eng} {r : RecV} {opened : List Nat} :
    ∀ {e : Nat} {cs : List Coded} {s : State}, s.memWf → EndsWf State.memWf (stampRun t st g r opened e cs s)
  | _, [], _, h => h
  | _, _ :: _, _, h => ends_ite (endsWf_stampRun h) ((endsWf_at h h.stampElem).bind fun _ h1 => endsWf_stampRun h1)

theorem endsWf_stampOnce {t : Core} {st : Strand} {r : RecV} :
    ∀ {e : Nat} {cs : List Coded} {x : Begun}, x.1.memWf → EndsWf (fun r => r.1.memWf) (stampOnce t st r e cs x)
  | _, [], _, h => h
  | _, _ :: _, _, h => ends_ite (endsWf_stampOnce h) ((endsWf_onceDo h fun hs => hs.stampElem).bind fun _ h1 => endsWf_stampOnce h1)

section
variable {w : State → Nat → List Byte → Bool → Except Halt State} (hw : WritesWf w) {x : Begun} (h : x.1.memWf)
include hw h

theorem endsWf_writeCodes {t : Core} {st : Strand} {r : RecV} {rm : Rm} {e : Nat} {xs : List (Word × Bool)} :
    EndsWf (fun r => r.1.memWf) (writeCodes w t st r rm e xs x) := by
  unfold writeCodes
  dsimp only
  exact (endsWf_writeRun hw h).bind fun _ h1 => (endsWf_writeRun hw h1).bind fun _ h2 => endsWf_stampOnce h2

theorem endsWf_addToBlock {t : Core} {st : Strand} {r : RecV} {rm : Rm} {e : Nat} {v : Word × Bool} :
    EndsWf (fun r => r.1.memWf) (addToBlock w t st r rm e v x) := by
  unfold addToBlock
  obtain ⟨s, l, i⟩ := x
  exact ends_ite h ((endsWf_writeCodes hw h).bind fun _ h1 => h1)

end

theorem writesWf_stageWrite {t : Core} {st : Strand} : WritesWf (stageWrite t st) := fun h => by
  refine answers_bind_any fun _ => answers_bind_any fun _ => answers_bind_any fun _ => ?_
  split
  · trivial
  · exact answers_bind_any fun _ => h.touchWalk.sliceWrite

theorem endsWf_stageRead {t : Core} {st : Strand} {va : Nat} {x : Begun} (h : x.1.memWf) :
    EndsWf (fun r => r.1.1.memWf) (stageRead t st va x) := by
  refine (endsWf_once h fun hs => ?_).bind fun _ h1 => h1
  exact hs.elemRead.bind fun _ h1 => h1

theorem wf_elements {t : Core} {n : Nat} {one : Nat → Strand → Begun → Partway (State × Latch)}
    (hone : ∀ {k st x}, x.1.memWf → EndsWf (fun r => r.1.memWf) (one k st x)) :
    ∀ {fuel : Nat} {s : State}, s.memWf → (elements t n one fuel s).Wf
  | 0, _, h => h
  | _ + 1, _, h => by
    unfold elements
    split
    · exact h
    · refine wf_ite h ?_
      split
      · exact wf_elements hone ((hone h).of_ok ‹_›).keepA
      · exact (hone h).of_error ‹_›
      · exact (hone h).of_error ‹_›

theorem endsWf_stuElem {t : Core} {d : UpdateDesc} {k : Nat} {st : Strand} {x : Begun} (h : x.1.memWf) :
    EndsWf (fun r => r.1.memWf) (stuElem t d k st x) := by
  unfold stuElem
  extract_lets l r gp e put
  have hput {va : Nat} {v : Word} {q : Bool} {x : Begun} (hx : x.1.memWf) : EndsWf (fun r => r.1.memWf) (put va v q x) :=
    endsWf_onceDo hx writesWf_stageWrite
  clear_value put
  refine (endsWf_stageRead h).bind fun ⟨x1, m, mp⟩ h1 => (endsWf_stageRead h1).bind fun ⟨x2, w, wp⟩ h2 => ?_
  dsimp -zeta only
  extract_lets mq jp
  have hjp (y : Begun × Word × Bool) (hy : y.1.1.memWf) : EndsWf (fun r => r.1.memWf) (jp y) := by
    unfold jp
    extract_lets vq wq jp
    have hjp (y : Begun) (hy : y.1.memWf) : EndsWf (fun r => r.1.memWf) (jp y) :=
      (hput hy).bind fun _ h6 => endsWf_addToBlock writesWf_stageWrite h6
    clear_value jp
    exact (hput hy).bind fun _ h4 => ends_ite ((hput h4).bind hjp) (hjp _ h4)
  clear_value jp
  exact ends_ite ((endsWf_stageRead h2).bind hjp) (hjp _ h2)

namespace State.memWf

theorem granuleCheck {t : Core} {st : Strand} {e : Eng} {r : RecV} :
    ∀ {gs : List (Nat × Bool)} {x : State × List Nat}, x.1.memWf → Answers (fun r => r.1.memWf) (granuleCheck t st e r gs x)
  | [], _, h => h
  | (_, _) :: _, (_, _), h => by
    refine answers_bind_any fun _ => h.stampRead.bind fun _ h1 => ends_ite (granuleCheck h1) ?_
    exact ends_ite (granuleCheck (x := (_, _)) h1.openGranule) (ends_ite (granuleCheck h1) trivial)

section
variable {s : State} (h : s.memWf)
include h

theorem stuStart {d a : Code} {tc : BitVec 4} {t : Core} {st : Strand} : Answers State.memWf (stuStart d a tc s t st) := by
  refine answers_bind_any fun _ => answers_bind_any fun _ => answers_bind_any fun ⟨x, st1⟩ => answers_bind_any fun _ => ?_
  refine answers_bind_any fun _ => answers_bind_any fun _ => ?_
  generalize hs : Machine.spadBytes _ _ _ _ _ = y
  have hy : y.1.memWf := hs ▸ h.setStrand.spadBytes
  obtain ⟨s0, desc⟩ := y
  dsimp -zeta only
  extract_lets st1'
  refine answers_bind_any fun _ => ?_
  split
  · trivial
  · refine answers_bind_any fun _ => answers_bind_any fun _ => answers_bind_any fun _ => answers_bind_any fun _ => ?_
    refine answers_bind_any fun _ => answers_bind_any fun _ => ?_
    extract_lets jp
    have hjp (u : PUnit) : Answers State.memWf (jp u) := by
      refine answers_bind_any fun ⟨es, st2⟩ => answers_bind_any fun _ => ?_
      refine (hy.setStrand.granuleCheck).bind fun _ h1 => ?_
      dsimp only
      split
      · exact h1.keepA
      · trivial
    exact ends_ite (answers_bind_any hjp) (hjp ⟨⟩)

theorem stuOp {d a : Code} {tc : BitVec 4} {t : Core} {st : Strand} : (stuOp d a tc s t st).Wf := by
  unfold Machine.stuOp
  split
  · exact h
  · exact h
  · rename_i heq
    have h1 : State.memWf ‹_› := by
      split at heq
      · cases heq
        exact h
      · exact h.stuStart.of_ok heq
    dsimp only
    split
    · exact h
    · exact wf_elements endsWf_stuElem h1

theorem reqtStart {d a b : Code} {tc : BitVec 4} {t : Core} {st : Strand} : Answers State.memWf (reqtStart d a b tc s t st) := by
  refine answers_bind_any fun _ => answers_bind_any fun _ => answers_bind_any fun _ => answers_bind_any fun _ => answers_bind_any fun _ => ?_
  refine answers_bind_any fun _ => answers_bind_any fun _ => answers_bind_any fun _ => answers_bind_any fun _ => answers_bind_any fun _ => ?_
  refine answers_bind_any fun _ => answers_bind_any fun _ => answers_bind_any fun _ => answers_bind_any fun _ => answers_bind_any fun _ => ?_
  refine answers_bind_any fun _ => ?_
  extract_lets go
  have hgo (u : PUnit) : Answers State.memWf (go u) := (h.setStrand.granuleCheck).bind fun _ h1 => h1.keepA
  exact ends_ite (answers_bind_any hgo) (hgo ⟨⟩)

end

end State.memWf

theorem endsWf_reqtElem {t : Core} {sh : Shape} {k : Nat} {st : Strand} {x : Begun} (h : x.1.memWf) :
    EndsWf (fun r => r.1.memWf) (reqtElem t sh k st x) :=
  (endsWf_stageRead h).bind fun _ h1 => endsWf_addToBlock (fun hs => hs.elemWrite) h1

namespace State.memWf

section
variable {s : State} (h : s.memWf)
include h

theorem reqtOp {d a b : Code} {tc : BitVec 4} {t : Core} {st : Strand} : (reqtOp d a b tc s t st).Wf := by
  unfold Machine.reqtOp
  split
  · exact h
  · exact h
  · rename_i heq
    refine wf_elements endsWf_reqtElem ?_
    split at heq
    · cases heq
      exact h
    · exact h.reqtStart.of_ok heq

/-! The matrix engine (R217 to R235). -/

theorem mmaOp {d a b : Code} {m : BitVec 2} {t : Core} {st : Strand} : Answers State.memWf (mmaOp d a b m s t st) := by
  refine answers_bind_any fun _ => answers_bind_any fun _ => answers_bind_any fun _ => answers_bind_any fun _ => answers_bind_any fun _ => ?_
  refine answers_bind_any fun ⟨wa, fa, sa⟩ => answers_bind_any fun ⟨wb, fb, sb⟩ => ends_ite trivial ?_
  dsimp only
  generalize hs : Machine.spadSeen _ _ _ _ = x
  have hx : x.1.memWf := hs ▸ h.bindWindows.spadSeen
  exact hx.updStrand

theorem writeWindow {t : Core} {st : Strand} {i : Fin 8} {w : Window} {f : Fmt} {code : Nat → Nat → Coded} {scale : Nat → Nat → Byte × Bool} :
    (writeWindow s t st i w f code scale).memWf := noteWindow (foldl (fun _ hs => hs.writeStream) h.bindWindows)

theorem msoftOp {d a b : Code} {t : Core} {st : Strand} : Answers State.memWf (msoftOp d a b s t st) := by
  refine answers_bind_any fun _ => answers_bind_any fun _ => answers_bind_any fun _ => answers_bind_any fun _ => answers_bind_any fun _ => ?_
  exact answers_bind_any fun _ => answers_bind_any fun _ => h.writeWindow.updStrand

end

theorem stampRows {t : Core} {st : Strand} {e : Eng} {r : RecV} :
    ∀ {rows : List (Nat × List Coded)} {s : State}, s.memWf → Answers State.memWf (stampRows t st e r rows s)
  | [], _, h => h
  | (_, _) :: _, _, h => by
    unfold Machine.stampRows
    split
    · exact stampRows ((endsWf_stampRun h).of_ok ‹_›)
    · trivial

section
variable {s : State} (h : s.memWf)
include h

theorem moutOp {d a b : Code} {rc : BitVec 3} {t : Core} {st : Strand} : Answers State.memWf (moutOp d a b rc s t st) := by
  refine answers_bind_any fun _ => answers_bind_any fun _ => answers_bind_any fun _ => ?_
  split
  · trivial
  · refine answers_bind_any fun _ => answers_bind_any fun _ => answers_bind_any fun _ => answers_bind_any fun _ => answers_bind_any fun _ => ?_
    refine answers_bind_any fun _ => answers_bind_any fun _ => answers_bind_any fun _ => ?_
    exact (stampRows h.setStrand.writeWindow).bind fun _ h1 => h1.updStrand

end

theorem drain {t : Core} {acc : Acc} {first : Nat} : ∀ {n k : Nat} {s : State}, s.memWf → (drain t acc first n k s).Wf
  | 0, _, _, h => h
  | _ + 1, _, _, h => by
    unfold Machine.drain
    split
    · exact h
    · split
      · exact drain h.setStrand
      · exact h.updStrand
      · exact h

section
variable {s : State} (h : s.memWf)
include h

theorem mdrnOp {a : Code} {f c : BitVec 7} {t : Core} {st : Strand} : (mdrnOp a f c s t st).Wf := by
  unfold Machine.mdrnOp
  split
  · exact wf_ite h h.drain
  · exact h

/-! The vector engine's words that touch more than their strand (R212 to R215). -/

theorem vqntOp {d a b : Code} {ty : BitVec 4} {rc : BitVec 3} {q : BitVec 1} {t : Core} {st : Strand} : (vqntOp d a b ty rc q s t st).Wf := by
  unfold Machine.vqntOp
  dsimp only
  split
  · exact h
  · exact h
  · split
    · exact h
    · exact h
    · split
      · exact (endsWf_stampRun h.setStrand).of_error ‹_›
      · exact h
      · exact (endsWf_stampRun h.setStrand).of_ok ‹_›

theorem vdqOp {d a b : Code} {rc : BitVec 3} {q : BitVec 1} {t : Core} {st : Strand} : Answers State.memWf (vdqOp d a b rc q s t st) := by
  refine answers_bind_any fun _ => answers_bind_any fun _ => answers_bind_any fun _ => answers_bind_any fun _ => ?_
  extract_lets jp
  have hjp (g : RowTag) : Answers State.memWf (jp g) := by
    refine answers_bind_any fun _ => answers_bind_any fun _ => answers_bind_any fun _ => answers_bind_any fun _ => ?_
    dsimp -zeta only
    extract_lets k per jp
    have hjp (y : List Row × Strand) : Answers State.memWf (jp y) := answers_bind_any fun _ => h.setStrand
    split
    · exact hjp _
    · exact answers_bind_any hjp
  split
  · exact hjp _
  · exact answers_bind_any hjp

end

end State.memWf

end Sys2Proof.Machine
end

section
/-! PROOFS. Canonical memories (R236, R240, R258) after what a launch and a phase leave in tensor records (R384, R396 to R399), and after the
words and the commands of the exchange engine (R328 to R345). -/

namespace Sys2Proof.Machine.State.memWf

/-! Tensor records at their home. -/

theorem putBytes {s : State} (h : s.memWf) {j : Job} {i off n v : Nat} : Answers State.memWf (putBytes s j i off n v) := by
  unfold Machine.putBytes
  dsimp only
  split
  · exact of_fst h.writeAs ‹_›
  · trivial

theorem putRecord {s : State} (h : s.memWf) {j : Job} {i : Nat} {ks ws : List Nat} : Answers State.memWf (putRecord s j i ks ws) :=
  (ends_foldlM (fun _ _ hs => hs.putBytes) _ h).bind fun _ h1 => memWf_ite h1.invalidateRecord h1

section
variable {s : State} (h : s.memWf)
include h

theorem mergeLaunch {job : Word} {i : Nat} {d : Delta} : Answers (fun r => r.1.memWf) (mergeLaunch s job i d) := by
  unfold Machine.mergeLaunch
  split
  · trivial
  · refine answers_bind_any fun _ => answers_bind_any fun _ => ?_
    extract_lets exceeds sum jp
    have hjp (ws : List Nat) : Answers (fun r : State × Bool => r.1.memWf) (jp ws) := h.putRecord.bind fun _ h1 => h1
    exact ends_ite (answers_bind_any hjp) (answers_bind_any hjp)

theorem phaseCloseRecord {job : Word} {i : Nat} : (phaseCloseRecord s job i).memWf := by
  unfold Machine.phaseCloseRecord
  split
  · exact h
  · extract_lets d r
    have hr : Answers State.memWf r := by
      refine answers_bind_any fun _ => ends_ite h ?_
      refine answers_bind_any fun _ => answers_bind_any fun _ => ?_
      extract_lets asks jp
      have hjp (b : Nat) : Answers State.memWf (jp b) := by
        unfold jp
        extract_lets jp
        have hjp (c : Nat) : Answers State.memWf (jp c) := by
          refine h.putRecord.bind fun _ h1 => h1.putBytes.bind fun _ h2 => h2.putBytes.bind fun _ h3 => ?_
          exact h3
        exact ends_ite (answers_bind_any hjp) (answers_bind_any hjp)
      exact ends_ite (answers_bind_any hjp) (answers_bind_any hjp)
    clear_value r
    split
    · exact hr
    · exact h

theorem agreeVersion {j : Job} {i : Nat} {f : Fmt} {sg : Int} : Answers (fun r => r.1.memWf) (agreeVersion s j i f sg) :=
  answers_bind_any fun _ => ends_ite h (h.putRecord.bind fun _ h1 => h1)

/-! Reading the communicator's line and the commands. -/

theorem xread {b : Bool} {t : Core} {me : Agent} {v : View} {j : Job} {va n : Nat} : Answers (fun r => r.1.memWf) (xread b s t me v j va n) := by
  refine (ends_foldlM (r := fun r : State × View × List Byte => r.1.memWf) (fun x p hr => ?_) _ h).bind fun _ h1 => h1
  obtain ⟨s, v, bs⟩ := x
  have h : s.memWf := hr
  dsimp -zeta only
  extract_lets jp
  have hjp (u : PUnit) : Answers (fun r : State × View × List Byte => r.1.memWf) (jp u) := by
    unfold jp
    split
    · trivial
    · extract_lets k s1 done clean here
      have h1 : s1.memWf := memWf_ite h h
      clear_value s1
      have hdone (u : PUnit) : Answers (fun r : State × View × List Byte => r.1.memWf) (done u) := h1.touchWalk.touch
      clear_value done
      have hclean (u : PUnit) : Answers (fun r : State × View × List Byte => r.1.memWf) (clean u) :=
        ends_ite (answers_bind_any hdone) (hdone ⟨⟩)
      clear_value clean
      have hhere (u : PUnit) : Answers (fun r : State × View × List Byte => r.1.memWf) (here u) :=
        ends_ite (answers_bind_any hclean) (hclean ⟨⟩)
      clear_value here
      exact ends_ite (answers_bind_any hhere) (hhere ⟨⟩)
  clear_value jp
  exact ends_ite (answers_bind_any hjp) (hjp ⟨⟩)

theorem pline {b : Bool} {t : Core} {st : Strand} {part : Nat} {v : View} {hd : DWord} :
    Answers (fun r => r.1.memWf) (pline b s t st part v hd) := by
  refine answers_bind_any fun _ => ends_ite trivial ?_
  refine h.xread.bind fun _ h1 => ends_ite trivial ?_
  exact h1.xread.bind fun _ h2 => h2.xread.bind fun _ h3 => ends_ite trivial h3

theorem plineX {b : Bool} {t : Core} {st : Strand} {hd : DWord} : Answers (fun r => r.1.memWf) (plineX b s t st hd) :=
  h.pline.bind fun _ h1 => h1.bind

theorem placeCmd {t : Core} {c : XCmd} : Answers State.memWf (placeCmd s t c) := h.release.bind fun _ h1 => h1.updStrand

theorem readSpad {t : Core} {a n : Nat} : Answers (fun r => r.1.memWf) (readSpad s t a n) := ends_ite trivial h.spadBytes

theorem readCommand {t : Core} {x : PWord} {imm : BitVec 14} : Answers (fun r => r.1.memWf) (readCommand s t x imm) :=
  answers_bind_any fun _ => answers_bind_any fun _ => answers_bind_any fun _ => h.readSpad

theorem readShape {t : Core} {a : Nat} : Answers (fun r => r.1.memWf) (readShape s t a) := answers_bind_any fun _ => h.readSpad

theorem xcmdOp {a : Code} {imm : BitVec 14} {t : Core} {st : Strand} : Answers State.memWf (xcmdOp a imm s t st) := by
  refine answers_bind_any fun _ => answers_bind_any fun _ => answers_bind_any fun _ => h.setStrand.readCommand.bind fun _ h1 => ?_
  refine answers_bind_any fun _ => answers_bind_any fun _ => answers_bind_any fun _ => ?_
  refine h1.plineX.bind fun _ h2 => h2.readShape.bind fun _ h3 => h3.readShape.bind fun _ h4 => ?_
  refine answers_bind_any fun _ => answers_bind_any fun _ => answers_bind_any fun _ => answers_bind_any fun _ => answers_bind_any fun _ => ?_
  exact answers_bind_any fun _ => h4.placeCmd

theorem transferOp {kind : BitVec 2} {a : Code} {imm : BitVec 14} {t : Core} {st : Strand} : Answers State.memWf (transferOp kind a imm s t st) := by
  refine answers_bind_any fun _ => answers_bind_any fun _ => answers_bind_any fun _ => h.setStrand.readCommand.bind fun _ h1 => ?_
  refine answers_bind_any fun _ => h1.plineX.bind fun _ h2 => ?_
  dsimp -zeta only
  extract_lets ladr len jp
  have hjp (u : PUnit) : Answers State.memWf (jp u) := answers_bind_any fun _ => h2.placeCmd
  refine ends_ite ?_ (hjp ⟨⟩)
  with_reducible exact answers_bind_any hjp

theorem xbindOp {a b : Code} {t : Core} {st : Strand} : Answers State.memWf (xbindOp a b s t st) := by
  refine answers_bind_any fun _ => answers_bind_any fun _ => answers_bind_any fun _ => answers_bind_any fun _ => answers_bind_any fun _ => ?_
  with_reducible refine answers_bind_any fun _ => answers_bind_any fun _ => ?_
  refine h.setStrand.plineX.bind fun _ h1 => ?_
  with_reducible refine answers_bind_any fun _ => answers_bind_any fun _ => answers_bind_any fun _ => ?_
  refine h1.readSpad.bind fun _ h2 => ?_
  exact answers_bind_any fun _ => answers_bind_any fun _ => h2.placeCmd

/-! Ends of commands. -/

theorem addSem {t : Core} {die : Bool} {sn n : Nat} : (addSem s t die sn n).memWf := by
  unfold Machine.addSem
  split
  · exact h
  · exact memWf_ite h.setSem.updStrand h.setSem

theorem setSemaphore {t : Core} {c : XCmd} : (setSemaphore s t c).memWf := by
  unfold Machine.setSemaphore
  extract_lets f signal
  have hs (die : Bool) (n inc : Nat) : (signal die n inc).memWf := by
    unfold signal
    split
    · exact h
    · exact h.raiseEpoch.addSem.attachView
  exact memWf_ite (memWf_ite (hs _ _ _) h) (memWf_ite h (memWf_ite (hs _ _ _) h))

theorem updRound {ftag gen : Word} {round : Nat} {f : Round → Round} : (updRound s ftag gen round f).memWf := by
  unfold Machine.updRound
  split
  · exact h
  · exact h

theorem dropRound {ftag gen : Word} {round : Nat} : (dropRound s ftag gen round).memWf := h
theorem dropBind {c : XCmd} : (dropBind s c).memWf := h.updRound

theorem exchangeWrite {t : Core} {st : Strand} {c : XCmd} {k a : Nat} {bs : List Byte} {p : Bool} :
    Answers State.memWf (exchangeWrite s t st c k a bs p) := h.partWrite

theorem destElems {t : Core} {st : Strand} {c : XCmd} {y : List (Option (Word × Bool))} :
    Answers (fun r => r.1.memWf) (destElems s t st c y) := by
  unfold Machine.destElems
  dsimp only
  split
  · exact h
  · refine answers_bind_any fun _ => ends_ite trivial ?_
    refine h.granuleCheck.bind fun _ h1 => h1

end

end Sys2Proof.Machine.State.memWf
namespace Sys2Proof.Machine

theorem endsWf_stampDest {s : State} (h : s.memWf) {t : Core} {st : Strand} {r : Option (RecV × List Nat)} {x : DestElem} :
    EndsWf State.memWf (stampDest t st r x s) := by
  unfold stampDest
  split
  · exact endsWf_stampRun h
  · exact h

namespace State.memWf

section
variable {s : State} (h : s.memWf)
include h

theorem draw : s.draw.2.memWf := h

theorem spoilElem {t : Core} {st : Strand} {c : XCmd} {r : Option (RecV × List Nat)} {x : DestElem} : (spoilElem t st c r s x).memWf := by
  unfold Machine.spoilElem
  generalize hs : State.draw s = y
  have hy : y.2.memWf := hs ▸ h.draw
  obtain ⟨v, s1⟩ := y
  dsimp only
  generalize hs2 : List.foldl _ s1 _ = s2
  have h2 : s2.memWf := by
    rw [← hs2]
    refine foldl (fun b hs => memWf_ite ?_ hs) hy
    split
    · exact hs.exchangeWrite.of_ok ‹_›
    · exact hs
  refine memWf_ite ?_ h2
  split
  · exact (endsWf_stampDest h2).of_ok ‹_›
  · exact h2

theorem spoilByte {t : Core} {st : Strand} {c : XCmd} {i : Nat} : (spoilByte t st c s i).memWf := by
  unfold Machine.spoilByte
  generalize hs : State.draw s = y
  have hy : y.2.memWf := hs ▸ h.draw
  obtain ⟨v, s1⟩ := y
  refine memWf_ite ?_ hy
  split
  · exact hy.exchangeWrite.of_ok ‹_›
  · exact hy

theorem spoil {t : Core} {st : Strand} {c : XCmd} : (spoil s t st c).memWf := by
  refine memWf_ite h (memWf_ite (foldl (fun _ hs => hs.spoilByte) h) (memWf_ite ?_ h))
  generalize hs : State.draw s = y
  have hy : y.2.memWf := hs ▸ h.draw
  obtain ⟨v, s1⟩ := y
  refine memWf_ite hy ?_
  split
  · exact hy
  · exact foldl (fun _ hs => hs.spoilElem) (hy.destElems.of_ok ‹_›)

theorem leaveRound {c : XCmd} : (leaveRound s c).memWf := memWf_ite h (memWf_ite h.dropBind h.dropRound)
theorem spoilPast {t : Core} {st : Strand} {c : XCmd} : (spoilPast s t st c).memWf := h.spoil
theorem spoilAborted {t : Core} {st : Strand} : (spoilAborted s t st).memWf := foldl (fun _ hs => hs.spoilPast.leaveRound) h

theorem finishCmd {t : Core} {c : XCmd} {code : BitVec 4} : (finishCmd s t c code).memWf := by
  unfold Machine.finishCmd
  split
  · exact h
  · exact setSemaphore (leaveRound (updStrand (memWf_ite h h.spoilPast)))

theorem xabortOp {a : Code} {t : Core} {st : Strand} : Answers State.memWf (xabortOp a s t st) := by
  refine answers_bind_any fun _ => answers_bind_any fun _ => answers_bind_any fun _ => answers_bind_any fun _ => ?_
  extract_lets hit jp
  have hjp (u : PUnit) : Answers State.memWf (jp u) := foldl (fun _ hs => hs.finishCmd) h.setStrand
  exact ends_ite (answers_bind_any hjp) (hjp ⟨⟩)

theorem asyncFault {t : Core} {c : FaultCode} : (asyncFault s t c).memWf := by
  unfold Machine.asyncFault
  split
  · exact h.takeFault
  · exact h

theorem setHead {t : Core} {c : XCmd} : (setHead s t c).memWf := h.updStrand

theorem holdHead {t : Core} {a : Nat} : (holdHead s t a).memWf := by
  unfold Machine.holdHead
  split
  · exact h
  · exact hold (setHead (memWf_ite h h.updStrand))

theorem waitHead {t : Core} {w : Wait} : (waitHead s t w).memWf := by
  unfold Machine.waitHead
  split
  · exact h.holdHead
  · exact h

/-! Starting a command, and its round. -/

theorem readLeaves {t : Core} {st : Strand} {c : XCmd} : Answers (fun r => r.1.memWf) (readLeaves s t st c) := by
  refine ends_ite h ?_
  have leaves {f : Fmt} {sc : Int} {es : Nat} {addr : Nat → Nat} :
      Answers (fun r : State × View × List (Word × Bool) => r.1.memWf) ((List.range c.src.count).foldlM
        (fun (x : State × View × List (Word × Bool)) k => (do
          let (s1, w, bs, p) ← Machine.partRead x.1 t st c.part x.2.1 (addr k) es
          let y := (f.decode (BitVec.ofNat 32 (natOfBytes bs))).scale sc
          .ok (s1, w, x.2.2 ++ [(ne32 y, p)]) : Except Halt _)) (s, c.view, [])) :=
    ends_foldlM (fun _ _ hs => hs.partRead.bind fun _ h1 => h1) _ h
  dsimp -zeta only
  split
  · exact answers_bind_any fun _ => leaves
  · exact answers_bind_any fun _ => leaves

theorem agreeOn {t : Core} {st : Strand} {c : XCmd} {e : Option Int} : Answers State.memWf (agreeOn s t st c e) := by
  unfold Machine.agreeOn
  split
  · refine answers_bind_any fun _ => answers_bind_any fun _ => answers_bind_any fun _ => ?_
    extract_lets op gw jp
    have hjp (p : Policy) : Answers State.memWf (jp p) := by
      refine ends_ite h ?_
      split
      · trivial
      · exact h.agreeVersion.of_ok (p := fun r : State × Word => r.1.memWf) ‹_›
    split
    · exact answers_bind_any hjp
    · trivial
  · exact h

end

end State.memWf

end Sys2Proof.Machine
end

section
/-! PROOFS. Canonical memories (R236, R240, R258) after the moves of the exchange (R336 to R349): starts, rounds, results, ends. -/

namespace Sys2Proof.Machine.State.memWf

section
variable {s : State} (h : s.memWf)
include h

theorem tryAgree {t : Core} : (tryAgree s t).memWf := by
  unfold Machine.tryAgree
  split
  · exact h
  · extract_lets free go
    have hgo (e : Option Int) : (go e).memWf := by
      unfold go
      split
      · exact h.asyncFault
      · exact h
      · exact (h.agreeOn.of_ok ‹_›).setHead.updRound
    clear_value go
    refine memWf_ite h (memWf_ite (hgo _) (memWf_ite (hgo _) ?_))
    split
    · exact h
    · exact hgo _

theorem beginCmd {t : Core} : (beginCmd s t).memWf := by
  unfold Machine.beginCmd
  split
  · exact h
  · refine memWf_ite h (memWf_ite h.finishCmd (memWf_ite h.setHead ?_))
    split
    · exact h.asyncFault
    · exact h.setHead.waitHead
    · have h1 := h.readLeaves.of_ok ‹_›
      exact memWf_ite (setHead h1) (tryAgree (updRound (setHead h1)))

theorem nextRound {st : Strand} {c : XCmd} : (nextRound s st c).1.memWf := h

theorem commandStart {tile : Core} : NextWf (execCommandStart tile s) := by
  unfold execCommandStart
  split
  · exact h
  · refine nextWf_ite h ?_
    split
    · exact h.waitHead
    · exact h.asyncFault
    · have h0 := h.pline.of_ok ‹_›
      refine nextWf_ite (nextWf_ite (setHead h0) (nextWf_ite h (updRound (setHead h0)))) ?_
      with_reducible refine nextWf_ite ?_ (nextWf_ite ?_ ?_)
      · exact finishCmd h0
      · extract_lets peer
        with_reducible refine nextWf_ite ?_ ?_
        · exact finishCmd h0
        · exact setHead h0
      · generalize hs : Machine.nextRound _ _ _ = y
        have hy : y.1.memWf := hs ▸ nextRound h0
        obtain ⟨s1, k⟩ := y
        exact nextWf_ite hy.setHead.finishCmd (nextWf_ite hy.setHead.finishCmd (nextWf_ite hy.setHead.beginCmd hy.setHead))

theorem commandWaitSatisfied {tile : Core} : NextWf (execCommandWaitSatisfied tile s) := by
  unfold execCommandWaitSatisfied
  split
  · exact h
  · exact nextWf_ite h (nextWf_ite h h.setHead.beginCmd)

theorem contribution {msg : FabricMsg} : NextWf (execContribution msg s) :=
  nextWf_ite h (foldl (fun _ hs => hs.tryAgree) h.updRound)

end

end Sys2Proof.Machine.State.memWf

namespace Sys2Proof.Machine

section
variable {s : State} (h : s.memWf)
include h

theorem endsWf_putRun {t : Core} {st : Strand} {c : XCmd} {r : Option (RecV × List Nat)} {xs : List DestElem} :
    EndsWf State.memWf (putRun t st c r xs s) :=
  (endsWf_at h h.exchangeWrite).bind fun _ h1 => ends_foldlM (fun _ _ hs => endsWf_stampDest hs) _ h1

theorem endsWf_writeResult {t : Core} {st : Strand} {c : XCmd} {y : List (Word × Bool)} : EndsWf State.memWf (writeResult s t st c y) := by
  refine (endsWf_at h h.destElems).bind fun _ h1 => ends_foldlM (fun _ _ hs => ?_) _ h1
  split
  · exact (endsWf_putRun hs).of_ok ‹_›
  · exact ends_foldlM (fun _ _ hs => endsWf_putRun hs) _ hs

theorem endsWf_rebind {t : Core} {st : Strand} {c : XCmd} : EndsWf State.memWf (rebind s t st c) := by
  refine (endsWf_at (p := fun _ => True) h (answers_any fun _ => trivial)).bind fun _ _ => (endsWf_at h h.pline).bind fun _ h0 => ?_
  refine (endsWf_at h0 h0.partWrite).bind fun _ h1 => (endsWf_at h1 h1.partWrite).bind fun _ h2 => ?_
  exact ends_foldlM (fun _ _ hs => endsWf_at hs hs.partWrite) _ h2

theorem endsWf_getBytes {t : Core} {st : Strand} {c : XCmd} {a : Nat} {bs : List (Byte × Bool)} : EndsWf State.memWf (getBytes t st c a bs s) :=
  ends_foldlM (fun _ _ hs => endsWf_at hs hs.exchangeWrite) _ h

end

namespace State.memWf

section
variable {s : State} (h : s.memWf)
include h

theorem commandFinish {tile : Core} {sw : Bool} : NextWf (execCommandFinish tile sw s) := by
  unfold execCommandFinish
  dsimp only
  split
  · exact h
  · with_reducible refine nextWf_ite ?_ (nextWf_ite ?_ ?_)
    · exact h
    · exact h.tryAgree.finishCmd
    · split
      · exact asyncFault ((endsWf_writeResult h.tryAgree).of_error ‹_›)
      · exact h.tryAgree.waitHead
      · have h1 := (endsWf_writeResult h.tryAgree).of_ok ‹_›
        exact nextWf_ite h (finishCmd (memWf_ite h1 h1.updStrand))

theorem commandTimeout {tile : Core} : NextWf (execCommandTimeout tile s) := by
  unfold execCommandTimeout
  split
  · exact h
  · exact nextWf_ite h.finishCmd h

theorem roundNotice {ftag gen : Word} {round : Nat} {code : BitVec 4} {note : Round → Round} :
    NextWf (roundNotice ftag gen round code note s) :=
  nextWf_ite h (nextWf_ite h.updRound (foldl (fun _ hs => hs.finishCmd) h))

theorem switchDiscard {tile : Core} : NextWf (execSwitchDiscard tile s) := nextWf_ite h.asyncFault h

theorem bindRound {tile : Core} : NextWf (execBindRound tile s) := by
  unfold execBindRound
  split
  · exact h
  · refine nextWf_ite h ?_
    split
    · exact h
    · extract_lets hs r
      have hr : r.1.memWf := by
        refine foldl_keeps (p := fun r : State × Option Wait => r.1.memWf) (fun _ _ hs => ?_) _ h
        split
        · exact finishCmd hs
        · split
          · exact asyncFault ((endsWf_rebind hs).of_error ‹_›)
          · exact hs
          · exact finishCmd ((endsWf_rebind hs).of_ok ‹_›)
      clear_value r
      split
      · exact h.waitHead
      · exact hr.updRound

theorem bindTimeout {tile : Core} : NextWf (execBindTimeout tile s) := by
  unfold execBindTimeout
  split
  · exact h
  · exact nextWf_ite h.finishCmd h

theorem sourceBytes {t : Core} {st : Strand} {c : XCmd} {a n : Nat} : Answers (fun r => r.1.memWf) (sourceBytes s t st c a n) := by
  refine ends_foldlM (r := fun r : State × View => r.1.memWf) (fun _ _ hs => ?_) _ h
  exact hs.partRead.bind fun _ h1 => h1

theorem remoteTransfer {tile : Core} {bytes : List (Byte × Bool)} {ok tracked : Bool} : NextWf (execRemoteTransfer tile bytes ok tracked s) := by
  unfold execRemoteTransfer
  split
  · exact h
  · refine nextWf_ite h (nextWf_ite (nextWf_ite h ?_) (nextWf_ite (nextWf_ite h ?_) h))
    · split
      · exact h.asyncFault
      · exact h.waitHead
      · have h1 := h.sourceBytes.of_ok ‹_›
        exact nextWf_ite (asyncFault h1) (finishCmd h1)
    · split
      · exact asyncFault ((endsWf_getBytes h).of_error ‹_›)
      · exact h.waitHead
      · exact nextWf_ite h (finishCmd ((endsWf_getBytes h).of_ok ‹_›))

theorem of_peerPiece {j : Job} {w : Bool} {p : Nat × List (Byte × Bool)} {s' : State} (e : peerPiece s j w p = some s') : s'.memWf := by
  unfold peerPiece at e
  dsimp only at e
  split at e
  · cases e
  · split at e
    · cases e
      exact h.touch
    · split at e
      · cases e
      · cases e
        exact memWf_writeNow h ..

theorem peerTransfer {job : Word} {w : Bool} {va : Nat} {bs : List (Byte × Bool)} : (peerTransfer job w va bs s).memWf := by
  unfold Machine.peerTransfer
  split
  · exact h
  · refine memWf_ite h ?_
    refine foldl_keeps (p := fun r : State × Bool => r.1.memWf) (fun r _ hs => ?_) _ h
    split
    · exact hs
    · split
      · exact of_peerPiece hs ‹_›
      · exact hs

end

end State.memWf

end Sys2Proof.Machine
end

section
/-! PROOFS. Canonical memories (R236, R240, R258) after the words of flow, the meaning of every word, the fetch (R30, R34, R56), and what the
rest of the machine calls: events, windows, fences, poison. -/

namespace Sys2Proof.Machine.State.memWf

section
variable {s : State} (h : s.memWf)
include h

/-! Flow (R40 to R56). -/

theorem goTo {t : Core} {e : Eng} {pc : Nat} : (goTo s t e pc).memWf := h.updStrand
theorem popOutcome {t : Core} {e : Eng} : (popOutcome s t e).memWf := h.updStrand

theorem brOp {off : BitVec 24} {t : Core} {st : Strand} {e : Eng} : Answers State.memWf (brOp off s t st e) :=
  answers_bind_any fun _ => h.goTo

theorem brqOp {off : BitVec 24} {t : Core} {st : Strand} {e : Eng} : Answers State.memWf (brqOp off s t st e) :=
  answers_bind_any fun _ => answers_bind_any fun _ => h.popOutcome.goTo

theorem pushFrame {t : Core} {st : Strand} {e : Eng} {f : Frame} : Answers State.memWf (pushFrame s t st e f) :=
  ends_ite h.updStrand (ends_ite trivial h.spadWrite.updStrand)

theorem popFrame {t : Core} {st : Strand} {e : Eng} : Answers State.memWf (popFrame s t st e) := by
  unfold Machine.popFrame
  extract_lets g d a
  split
  · exact h.updStrand
  · have h1 := h.spadRead (t := t) (e := e) (a := a) (n := 8)
    have h2 := h1.spadRead (t := t) (e := e) (a := a + 8) (n := 8)
    refine ends_ite trivial ?_
    split
    · trivial
    · exact h2.updStrand

theorem callOp {off : BitVec 24} {t : Core} {st : Strand} {e : Eng} : Answers State.memWf (callOp off s t st e) :=
  answers_bind_any fun _ => h.pushFrame.bind fun _ h1 => h1.goTo

theorem retOp {t : Core} {st : Strand} {e : Eng} : Answers State.memWf (retOp s t st e) := by
  unfold Machine.retOp
  split
  · trivial
  · exact ends_ite trivial (answers_bind_any fun _ => h.popFrame.bind fun _ h1 => h1.goTo)

theorem endlAt {t : Core} {st : Strand} {e : Eng} {m : Nat} : Answers State.memWf (endlAt s t st e m) :=
  ends_ite trivial (h.aheadWord.bind fun _ h1 => answers_bind_any fun _ => h1)

theorem loopChecks {m : Nat} {t : Core} {st : Strand} {e : Eng} : Answers (fun r => r.1.memWf) (loopChecks m s t st e) :=
  h.endlAt.bind fun _ h1 => answers_bind_any fun _ => h1

theorem loopOp {k past : Nat} {t : Core} {st : Strand} {e : Eng} : Answers State.memWf (loopOp k past s t st e) :=
  ends_ite h.goTo (h.pushFrame.bind fun _ h1 => h1.goTo)

theorem endlOp {t : Core} {st : Strand} {e : Eng} : Answers State.memWf (endlOp s t st e) := by
  unfold Machine.endlOp
  split
  · trivial
  · refine ends_ite trivial (ends_ite (answers_bind_any fun _ => h.updStrand.goTo) ?_)
    exact h.popFrame.bind fun _ h1 => h1.goTo

theorem safeEntry {t : Core} {st : Strand} {e : Eng} {n : Nat} : Answers (fun r => r.1.memWf) (safeEntry s t st e n) := by
  refine h.tableWord.bind fun _ h1 => ends_ite trivial ?_
  exact h1.tableWord.bind fun _ h2 => ends_ite trivial h2

theorem safeOp {n : BitVec 16} {g : Bool} {t : Core} {st : Strand} {e : Eng} : Answers State.memWf (safeOp n g s t st e) := by
  refine ends_ite trivial (h.safeEntry.bind fun _ h1 => ends_ite trivial ?_)
  exact ends_ite h1.setStrand h1.setStrand

theorem resumeOp {t : Core} {st : Strand} {e : Eng} : Answers State.memWf (resumeOp s t st e) := by
  unfold Machine.resumeOp
  split
  · trivial
  · exact ends_ite trivial (ends_ite trivial h.setStrand)

theorem fenceOp {k sc : BitVec 2} {t : Core} {st : Strand} {e : Eng} : Answers State.memWf (fenceOp k sc s t st e) := by
  unfold Machine.fenceOp
  dsimp only
  split
  · exact h.fenceRelease.bind fun _ h1 => h1.goTo
  · exact h.fenceAcquire.goTo
  · exact h.fenceRelease.bind fun _ h1 => h1.fenceAcquire.goTo
  · trivial

theorem endOp {t : Core} {st : Strand} {e : Eng} : Answers State.memWf (endOp s t st e) := ends_ite trivial h.setStrand

theorem flowWord {f : State → Core → Strand → Eng → Except Halt State} (hf : ∀ t st e, Answers State.memWf (f s t st e)) :
    NextWf (flowWord f s) := h.placedWord hf

theorem loopWord {k m : BitVec 12} : NextWf (execLoop k m s) := by
  refine flowWord h fun _ _ _ => ?_
  exact h.loopChecks.bind fun _ h1 => h1.loopOp

theorem loopqWord {m : BitVec 24} : NextWf (execLoopq m s) := by
  refine flowWord h fun _ _ _ => ?_
  exact h.loopChecks.bind fun _ h1 => answers_bind_any fun _ => h1.loopOp.bind fun _ h2 => h2.popOutcome

theorem nopWord : NextWf (execNop s) := by
  refine flowWord h fun _ _ _ => ?_
  exact h.goTo

theorem repWord {e : Eng} {n : BitVec 6} {k : BitVec 16} : NextWf (execRep e n k s) := by
  refine placedWord h fun _ _ _ => ?_
  exact ends_ite trivial h.updStrand

theorem tickWord {d : Code} : NextWf (execTick d s) := by
  unfold execTick
  split
  · exact nextWf_ite h h.strandWord
  · trivial

theorem undefinedEncoding {tile : Core} {e : Eng} : NextWf (execUndefinedEncoding tile e s) := by
  unfold execUndefinedEncoding
  split
  · exact h
  · dsimp only
    split
    · exact h
    · have h1 := h.textWord.of_ok ‹_›
      exact nextWf_ite (wordFault h1) h

/-- Every word leaves canonical memories. -/
theorem wordMeaning {i : Instr} : NextWf (wordMeaning i s) := by
  cases i with
  | argl | args => exact h.checkedWord fun _ _ => h.argOp
  | gsel => exact h.checkedWord fun _ _ => h.gselOp
  | srd => exact h.checkedWord fun _ _ => h.srdOp
  | ctrr => exact h.checkedWord fun _ _ => h.ctrrOp
  | tbind => exact h.checkedWord fun _ _ => h.tbindOp
  | tread => exact h.checkedWord fun _ _ => h.treadOp
  | tver => exact h.checkedWord fun _ _ => h.tverOp
  | tstat => exact h.checkedWord fun _ _ => h.tstatOp
  | tsync => exact h.checkedWord fun _ _ => h.tsyncOp
  | tstmp => exact h.checkedWord fun _ _ => h.tstmpOp
  | tring => exact h.checkedWord fun _ _ => h.tringOp
  | semi | semd | sems | semiWide | semdWide | semsWide => exact h.checkedWord fun _ _ => h.semChange
  | semw | semwWide => exact h.checkedWord fun _ _ => h.semWait
  | cpy | prmt => exact h.checkedWord fun _ _ => h.copyOp
  | aatm => exact h.checkedWord fun _ _ => h.aatmOp
  | surv => exact h.checkedWord fun _ _ => h.survOp
  | apf => exact h.checkedWord fun _ _ => h.apfOp
  | vdq => exact h.checkedWord fun _ _ => h.vdqOp
  | mma => exact h.checkedWord fun _ _ => h.mmaOp
  | msoft => exact h.checkedWord fun _ _ => h.msoftOp
  | mout => exact h.checkedWord fun _ _ => h.moutOp
  | xcmd => exact h.checkedWord fun _ _ => h.xcmdOp
  | xbind => exact h.checkedWord fun _ _ => h.xbindOp
  | xput | xget => exact h.checkedWord fun _ _ => h.transferOp
  | xabort => exact h.checkedWord fun _ _ => h.xabortOp
  | hld => exact h.runAs fun _ _ => h.hldOp
  | ald | aldS => exact h.runAs fun _ _ => h.aldOp
  | ast => exact h.runAs fun _ _ => h.astOp
  | agth => exact h.runAs fun _ _ => h.agthOp
  | asca => exact h.runAs fun _ _ => h.ascaOp
  | stu => exact h.runAs fun _ _ => h.stuOp
  | reqt => exact h.runAs fun _ _ => h.reqtOp
  | vqnt => exact h.runAs fun _ _ => h.vqntOp
  | mdrn => exact h.runAs fun _ _ => h.mdrnOp
  | br => exact h.flowWord fun _ _ _ => h.brOp
  | brq => exact h.flowWord fun _ _ _ => h.brqOp
  | call => exact h.flowWord fun _ _ _ => h.callOp
  | loop => exact h.loopWord
  | loopq => exact h.loopqWord
  | safe | safeG => exact h.flowWord fun _ _ _ => h.safeOp
  | fence => exact h.flowWord fun _ _ _ => h.fenceOp
  | ret => exact h.flowWord fun _ _ _ => h.retOp
  | endl => exact h.flowWord fun _ _ _ => h.endlOp
  | resume => exact h.flowWord fun _ _ _ => h.resumeOp
  | nop => exact h.nopWord
  | endW => exact h.flowWord fun _ _ _ => h.endOp
  | rep => exact h.repWord
  | tick => exact h.tickWord
  | undefinedEncoding => exact h.undefinedEncoding
  | add | sub | mul | mulh | div | rem | and | or | xor | shl | shr | min | max | cmp | sel | addi | andi | shli | shri | sari | li | qput
  | qget | bset | check | ori | xori | liw | lih | swr | mslot | tunb | aadd | asub | aaddi | amuli | ali | aliw | aaddw | hset | hsetw | hget
  | awin | vadd | vsub | vmul | vfma | vmin | vmax | vand | vor | vxor | vshl | vshr | vrshr | vmac2 | vexp2 | vlog2 | vrcp | vrsq | vtanh
  | vsig | vabs | vneg | vnot | vpush | vsel | vcvt | vrot | vslide | vbcast | vredSum | vredMax | vredMin | vredAmax | vmov | vli | viota
  | vcpr | vpcnt | mscale | mscaleC2m | mside | madd | xstat | xmov | xli | xadd | xaddi | xliw | velse | vpend | mzero | msrst | mcpy =>
    unfold Machine.wordMeaning
    exact h.strandWord
  | _ => exact h

end

end Sys2Proof.Machine.State.memWf
end

section
/-! PROOFS. Canonical memories (R236, R240, R258) after a turn of an engine (R30, R34, R56), and after what the rest of the machine calls:
events and windows (R456 to R458), fences (R352), poison, and fetched words and leaves. -/

namespace Sys2Proof.Machine

/-- A fetch leaves canonical memories, whether a word runs or not. -/
def TurnedWf : Turned → Prop
  | .idle s => s.memWf
  | .run _ s => s.memWf

theorem turnedWf_ite {c : Prop} [Decidable c] {x y : Turned} (hx : TurnedWf x) (hy : TurnedWf y) : TurnedWf (if c then x else y) := by
  split
  · exact hx
  · exact hy

theorem TurnedWf.of_idle {x : Turned} {s : State} (h : TurnedWf x) (e : x = .idle s) : s.memWf := by subst e; exact h
theorem TurnedWf.of_run {x : Turned} {i : Instr} {s : State} (h : TurnedWf x) (e : x = .run i s) : s.memWf := by subst e; exact h

theorem NextWf.of_next {o : Out} {s : State} (h : NextWf o) (e : o = .next s) : s.memWf := by subst e; exact h

namespace State.memWf

section
variable {s : State} (h : s.memWf)
include h

theorem updJob {n : Word} {f : Job → Job} : (s.updJob n f).memWf := h
theorem updLaunch {n : Nat} {f : Launch → Launch} : (s.updLaunch n f).memWf := h
theorem updGraph {n : Nat} {f : Graph → Graph} : (s.updGraph n f).memWf := h
theorem updDie {d : Fin 4} {f : Die → Die} : (s.updDie d f).memWf := h
theorem updQueue {q : BitVec 8} {f : Queue → Queue} : (s.updQueue q f).memWf := h

theorem turnOf {t : Core} {e : Eng} {w imm : Word} : TurnedWf (turnOf s t e w imm) := by
  unfold Machine.turnOf
  split
  · exact h
  · exact h

theorem fetchHalt {t : Core} {e : Eng} {x : Halt} : TurnedWf (fetchHalt s t e x) := by
  cases x with
  | wait w => exact h.setWaitOn
  | fault c => exact h.wordFault

theorem of_fetchedLate {t : Core} {old : Strand} {pos word : Nat} {s' : State} (e : fetchedLate s t old pos word = some s') : s'.memWf := by
  unfold fetchedLate at e
  split at e
  · cases e
    exact h.updStrand
  · cases e

theorem stepOver {t : Core} {st : Strand} {e : Eng} {w imm : Word} : (stepOver s t st e w imm).memWf := by
  unfold Machine.stepOver
  extract_lets len owner pos pass
  have hp : State.memWf pass := h.updStrand
  refine memWf_ite h.setWait ?_
  split
  · exact memWf_ite (memWf_ite h.updStrand h.setWait) hp
  · exact memWf_ite h.updStrand hp
  · exact hp

theorem fetchTurn {t : Core} {e : Eng} : TurnedWf (fetchTurn s t e) := by
  unfold Machine.fetchTurn
  split
  · exact h
  · refine turnedWf_ite h (turnedWf_ite h (turnedWf_ite h.wordFault ?_))
    split
    · exact h.fetchHalt
    · rename_i s1 w hw
      have h1 := h.textWord.of_ok hw
      clear hw
      dsimp only at h1
      split
      · exact of_fetchedLate h1 ‹_›
      · have hover {imm : Word} {st : Strand} : TurnedWf (.idle (Machine.stepOver s1 t st e w imm)) := h1.stepOver
        refine turnedWf_ite (memWf_ite h1.setWait h1.wordFault) (turnedWf_ite h1 (turnedWf_ite (turnedWf_ite h1.turnOf hover) ?_))
        refine turnedWf_ite (turnedWf_ite h1.wordFault hover) ?_
        split
        · exact h1.fetchHalt
        · have h2 := h1.textWord.of_ok ‹_›
          split
          · exact of_fetchedLate h2 ‹_›
          · exact turnedWf_ite (turnOf h2) (stepOver h2)

theorem keepTurn {s' : State} (h' : s'.memWf) {t : Core} {e : Eng} : (keepTurn s s' t e).memWf := by
  unfold Machine.keepTurn
  split
  · exact memWf_ite h h'
  · exact h'

/-- A turn leaves canonical memories when the meaning it gives to words does. -/
theorem turnBy {exec : Instr → State → Out} (hexec : ∀ {i s}, s.memWf → NextWf (exec i s)) {t : Core} {e : Eng} :
    NextWf (turnBy exec s t e) := by
  have hf := fetchTurn (s := { s with focusTile := t, focusEng := e }) h (t := t) (e := e)
  unfold Machine.turnBy
  split
  · exact h.keepTurn (hf.of_idle ‹_›)
  · have hx := hexec (i := ‹Instr›) (hf.of_run ‹_›)
    split
    · exact h.keepTurn (hx.of_next ‹_›)
    · exact hx

theorem engineTurn {t : Core} {e : Eng} : NextWf (engineTurn s t e) := h.turnBy fun hs => hs.wordMeaning

theorem endWait {isOver : Wait → Bool} {t : Core} {e : Eng} : NextWf (endWait isOver t e s) := by
  unfold Machine.endWait
  split
  · exact h
  · refine nextWf_ite h ?_
    split
    · exact nextWf_ite h (h.engineTurn.of_next ‹_›)
    · exact h.engineTurn

theorem textFetch {tile : Core} {addr : DWord} : NextWf (execTextFetch tile addr s) := by
  unfold execTextFetch
  split
  · exact h
  · split
    · exact h
    · refine nextWf_ite h ?_
      split
      · exact h
      · refine nextWf_ite h (nextWf_ite h.touchWalk.touch ?_)
        exact updCore h.touchWalk.touch fun _ => rfl

theorem pageWalk {tile : Core} {job : Word} {addr : DWord} : NextWf (execPageWalk tile job addr s) := by
  unfold execPageWalk
  split
  · exact h
  · refine nextWf_ite h (nextWf_ite h ?_)
    dsimp only
    split
    · exact h.touchWalk
    · exact updCore (s := State.updDie _ _ _) h.touchWalk fun _ => rfl

/-! Writes of the host, events and windows. -/

theorem hostStore {a : Nat} {bs : List Byte} : (hostStore s a bs).memWf := memWf_hostStore h a bs
theorem soil {l : Nat} : (s.soil l).memWf := h
theorem repoison {g : Nat} {b : Bool} : (s.repoison g b).memWf := h
theorem logEvent {d : Fin 4} {code : BitVec 8} {kind : BitVec 4} {unit : BitVec 16} {detail : Word} {tick : DWord} :
    (logEvent s d code kind unit detail tick).memWf := h

theorem dealTo {t : Core} {l : Nat} {index : BitVec 24} : (dealTo s t l index).memWf :=
  updLaunch (updCore h (by exact fun _ => rfl))

theorem redeal : (redeal s).memWf := by
  refine foldl (fun t hs => memWf_ite hs ?_) h
  refine foldl (fun e hs => ?_) (updCore hs fun _ => rfl)
  split
  · exact hs.dealTo
  · exact updCore hs fun _ => rfl

theorem failTeam {l : Launch} {detail : Nat} : (failTeam s l detail).memWf := by
  refine updJob (allCores ?_ (by exact fun _ => rfl))
  exact h.updLaunch

theorem teamCheck : (teamCheck s).memWf :=
  foldl (fun _ hs => memWf_ite hs (memWf_ite (memWf_ite hs.failTeam hs) (memWf_ite hs.failTeam hs))) h

theorem fenceCore {t : Core} : (fenceCore s t).memWf := by
  have h1 : (s.updCore t fun k => { k with fenced := true, heldFor := none }).memWf := updCore h fun _ => rfl
  exact teamCheck (redeal h1)

theorem emptySlice {u : Nat} : (emptySlice s u).memWf := foldl (fun _ hs => hs.evict) h

theorem countWindow {row : Nat} {kind : BitVec 4} {unit : BitVec 16} : (countWindow s row kind unit).memWf := by
  unfold Machine.countWindow
  extract_lets u new old n s1 s2 s3
  have h3 : s3.memWf := h
  clear_value s3
  refine memWf_ite h (memWf_ite (memWf_ite ?_ (memWf_ite h3.emptySlice h3)) h)
  split
  · exact h3.fenceCore
  · exact h3

theorem spadPoisoned {t : Core} {g : Nat} : (spadPoisoned s t g).memWf := by
  refine countWindow (setCore h ?_)
  exact h.2 t

theorem memPoisoned {g : Nat} {b : Bool} : (memPoisoned s g b).memWf :=
  by
  refine memWf_ite (countWindow h.repoison) (countWindow (memWf_ite ?_ h.repoison))
  exact h

theorem correctedError {d : Fin 4} {kind : BitVec 4} {unit : BitVec 16} : (correctedError s d kind unit).memWf := countWindow h.logEvent

end

end State.memWf

end Sys2Proof.Machine
end

section
/-! PROOFS. Canonical memories (R236, R240, R258) after asynchronous copies (R275), writes applied at their home (R303), completion counters,
graphs with their compactors, and the completion of a launch (R350 to R373). -/

namespace Sys2Proof.Machine.State.memWf

section
variable {s : State} (h : s.memWf)
include h

/-! Asynchronous copies (R275, R276). -/

theorem commandFault {t : Core} {rec : BitVec 3} {c : FaultCode} : (commandFault s t rec c).memWf := by
  unfold Machine.commandFault
  split
  · exact h.takeFault
  · exact h

theorem copyRead {t : Core} {st : Strand} {x : Async} {as : List Nat} {v : View} : Answers (fun r => r.1.memWf) (copyRead t st x as s v) := by
  refine ends_foldlM (r := fun r : State × View × List (Byte × Bool) => r.1.memWf) (fun _ _ hs => ?_) _ h
  exact hs.partRead.bind fun _ h1 => h1

theorem copyByte {t : Core} {st : Strand} {x : Async} {from_ : List Nat} {lo hi d a : Nat} {v : View} :
    Answers (fun r => r.1.memWf) (copyByte t st x from_ lo hi d a s v) := by
  refine ends_ite ?_ h.copyRead
  generalize hs : State.draw s = y
  have hy : y.2.memWf := hs ▸ h.draw
  obtain ⟨f, s1⟩ := y
  exact hy.copyRead

theorem copyOne {t : Core} {st : Strand} {x : Async} {u : List (Nat × Nat)} {v : View} :
    Answers (fun r => r.1.memWf) (copyOne t st x u s v) := by
  unfold Machine.copyOne
  extract_lets from_ lo hi jp
  have hjp (y : State × View × List (Byte × Bool)) (hy : y.1.memWf) : Answers (fun r : State × View => r.1.memWf) (jp y) :=
    (partRuns hy).bind fun _ h2 => h2
  clear_value jp
  refine ends_ite (h.copyRead.bind hjp) (Ends.bind (r := fun r : State × View × List (Byte × Bool) => r.1.memWf) ?_ hjp)
  refine ends_foldlM (r := fun r : State × View × List (Byte × Bool) => r.1.memWf) (fun _ _ hs => ?_) _ h
  exact hs.copyByte.bind fun _ h1 => h1

end

theorem copyUnits {t : Core} {st : Strand} :
    ∀ {us : List (Nat × List (Nat × Nat))} {x : Async} {s : State}, s.memWf → (copyUnits t st us x s).1.memWf
  | [], _, _, h => h
  | (_, _) :: _, _, _, h => by
    unfold Machine.copyUnits
    split
    · exact copyUnits h
    · split
      · exact h
      · exact copyUnits (h.copyOne.of_ok ‹_›)

section
variable {s : State} (h : s.memWf)
include h

theorem putCopy {t : Core} {slot : Nat} {x : Async} : (putCopy s t slot x).memWf := h.updStrand

theorem copyComplete {p : Bool} {t : Core} {slot : Nat} : NextWf (copyComplete p t slot s) := by
  unfold Machine.copyComplete
  split
  · exact h
  · refine nextWf_ite h ?_
    dsimp only
    split
    · exact commandFault (updStrand (of_fst h.copyUnits ‹_›))
    · have h1 := of_fst h.copyUnits ‹_›
      exact nextWf_ite h (hold (putCopy (memWf_ite h1 h1.updStrand)))
    · exact nextWf_ite h (putCopy (of_fst h.copyUnits ‹_›))
    · have h1 := of_fst h.copyUnits ‹_›
      split
      · exact h1.updStrand
      · exact nextWf_ite h1.updStrand (nextWf_ite (nextWf_ite h h1.putCopy) h1.updStrand.signalSem)

theorem copyAhead {t : Core} {slot unit : Nat} : (copyAhead t slot unit s).memWf := by
  unfold Machine.copyAhead
  split
  · exact h
  · split
    · exact h
    · split
      · exact commandFault (updStrand (of_fst h.copyUnits ‹_›))
      · exact h
      · exact putCopy (of_fst h.copyUnits ‹_›)

theorem homeWriteApply {k : Nat} {spill : Option Nat} : NextWf (execHomeWriteApply k spill s) := by
  unfold execHomeWriteApply
  split
  · exact h
  · extract_lets cannot s0
    have h0 : s0.memWf := by
      unfold s0
      split
      · exact h
      · exact h.evict
    clear_value s0
    refine nextWf_ite h (nextWf_ite h ?_)
    have h1 : ({ s0 with pending := s0.pending.eraseIdx k } : State).memWf := h0
    exact h1.applyOrDrop

/-! Completion counters (R350, R351). -/

theorem putCounter {j : Job} {n w0 w1 w2 w3 : Nat} : Answers State.memWf (putCounter s j n w0 w1 w2 w3) := by
  unfold Machine.putCounter
  dsimp only
  split
  · trivial
  · have h1 := of_fst (memWf_agentWrite h ..) ‹_›
    split
    · trivial
    · exact of_fst (memWf_agentWrite h1 ..) ‹_›

theorem armCounter {j : Job} {n : Nat} : Answers State.memWf (armCounter s j n) := by
  refine ends_ite h ?_
  split
  · trivial
  · exact ends_map.mpr (h.putCounter.mono fun _ h1 => h1.updJob)

theorem finalCounter {j : Job} {n : Nat} {f : Final} : Answers State.memWf (finalCounter s j n f) := by
  refine ends_ite h ?_
  split
  · trivial
  · exact h.putCounter

theorem counterMet {job : Word} {n : Nat} {rel : Released} : (counterMet s job n rel).memWf := h

theorem finishCounter {job : Word} {q : BitVec 8} {n : Nat} {f : Final} {rel : Released} : (finishCounter s job q n f rel).memWf := by
  unfold Machine.finishCounter
  split
  · exact h
  · split
    · exact memWf_ite (h.finalCounter.of_ok ‹_›) (counterMet (h.finalCounter.of_ok ‹_›))
    · exact h

theorem writeBlockPart {q : BitVec 8} {off n : Nat} : Answers State.memWf (writeBlockPart s q off n) := by
  unfold Machine.writeBlockPart
  split
  · exact h
  · split
    · exact h
    · split
      · exact of_fst (memWf_agentWrite h ..) ‹_›
      · trivial

theorem writeBlock {q : BitVec 8} : Answers State.memWf (writeBlock s q) := h.writeBlockPart

theorem haltQueue {q : BitVec 8} {code ordinal : Nat} : (haltQueue s q code ordinal).memWf := by
  unfold Machine.haltQueue
  extract_lets was s1
  have h1 : s1.memWf := h
  clear_value s1
  refine signalHost ?_
  have hw : Answers State.memWf (if was = true then Machine.writeBlockPart s1 q 272 8 else Machine.writeBlock s1 q) :=
    ends_ite h1.writeBlockPart h1.writeBlock
  split
  · exact hw.of_ok ‹_›
  · exact h1

end

/-! Launches dealt to tile cores. -/

theorem dealLaunch {l : Nat} : ∀ {fuel : Nat} {s : State}, s.memWf → (dealLaunch fuel s l).memWf
  | 0, _, h => h
  | _ + 1, _, h => by
    unfold Machine.dealLaunch
    split
    · exact h
    · refine memWf_ite h ?_
      split
      · exact h
      · exact dealLaunch h.dealTo.updLaunch

section
variable {s : State} (h : s.memWf)
include h

theorem dealAll : (dealAll s).memWf := foldl (fun _ hs => hs.dealLaunch) h.redeal

theorem holdIdle : (holdIdle s).memWf := by
  unfold Machine.holdIdle
  extract_lets s1 gangs
  have h1 : s1.memWf := by
    refine foldl (fun t hs => ?_) h
    split
    · exact memWf_ite hs (updCore hs fun _ => rfl)
    · exact hs
  clear_value s1
  refine foldl (fun _ hs => memWf_ite hs (foldl (fun _ hs => memWf_ite ?_ hs) hs)) h1
  exact updCore hs fun _ => rfl

theorem setNode {gh n : Nat} {f : Final} {b : Bool} {rel : Released} : (setNode s gh n f b rel).memWf := h
theorem updBatches {gh edge : Nat} {f : Batches → Batches} : (updBatches s gh edge f).memWf := h

theorem compactorWrite {job : Word} {d : Fin 4} {a : Nat} {bs : List Byte} {p : Bool} : (compactorWrite s job d a bs p).1.memWf := by
  unfold Machine.compactorWrite
  split
  · exact h
  · exact h.writeAs

theorem writeHeader {gh edge : Nat} : (writeHeader s gh edge).1.memWf := by
  unfold Machine.writeHeader
  split
  · exact h
  · split
    · exact h
    · exact h.compactorWrite

theorem closeEmpty {gh n : Nat} : (closeEmpty s gh n).memWf := by
  unfold Machine.closeEmpty
  split
  · exact h
  · exact foldl (fun _ hs => hs.writeHeader.updBatches) h

theorem armFor {job : Word} {q : BitVec 8} {n : Nat} : (armFor s job q n).memWf := by
  unfold Machine.armFor
  split
  · exact h
  · split
    · exact h.armCounter.of_ok ‹_›
    · exact h

theorem endNode {g : Graph} {n : Nat} {f : Final} {b : Bool} : (endNode s g n f b).memWf := closeEmpty (setNode (h.armFor.finishCounter))

theorem addLaunch {l : Launch} {acq : Released} : (addLaunch s l acq).memWf := by
  unfold Machine.addLaunch
  extract_lets l1
  refine holdIdle ?_
  refine dealLaunch ?_
  exact h

theorem dispatchNode {g : Graph} {n : Nat} : (dispatchNode s g n).memWf := by
  unfold Machine.dispatchNode
  dsimp only
  split
  · exact h.endNode
  · exact h.armFor.addLaunch.updGraph

theorem nodeTurn {gh n : Nat} : (nodeTurn s gh n).memWf := by
  unfold Machine.nodeTurn
  split
  · exact h
  · refine memWf_ite h (memWf_ite h.endNode (memWf_ite (memWf_ite h.endNode h) ?_))
    exact memWf_ite h.dispatchNode (memWf_ite h (memWf_ite h.dispatchNode h.endNode))

theorem graphTurn {gh : Nat} : (graphTurn s gh).memWf := by
  unfold Machine.graphTurn
  split
  · exact h
  · extract_lets s1
    have h1 : s1.memWf := foldl (fun _ hs => hs.nodeTurn) h
    clear_value s1
    split
    · exact h1
    · exact memWf_ite h1.finishCounter h1

end

theorem settleGraphs : ∀ {fuel : Nat} {s : State}, s.memWf → (settleGraphs fuel s).memWf
  | 0, _, h => h
  | _ + 1, s, h => by
    have h1 : (s.graphs.foldl (fun s g => Machine.graphTurn s g.handle) s).memWf := foldl (fun _ hs => hs.graphTurn) h
    exact memWf_ite h1 (settleGraphs h1)

section
variable {s : State} (h : s.memWf)
include h

theorem settle : (settle s).memWf := holdIdle (teamCheck (dealAll h.settleGraphs))

theorem compactorRelease {l : Launch} : (compactorRelease s l).memWf := by
  unfold Machine.compactorRelease
  split
  · exact h
  · exact h

theorem startTarget {gh edge : Nat} : (startTarget s gh edge).memWf := by
  unfold Machine.startTarget
  split
  · exact h
  · split
    · exact h
    · rename_i b _
      cases b.launch with
      | some _ => exact h.updLaunch.dealLaunch
      | none =>
        refine memWf_ite h ?_
        split
        · exact h.endNode
        · exact h.joinClock.armFor.addLaunch.updBatches.updGraph

theorem startBatch {gh edge : Nat} : (startBatch s gh edge).1.memWf := by
  unfold Machine.startBatch
  split
  · exact h
  · split
    · exact h
    · extract_lets recs all at_
      generalize hf : List.foldl _ (s, (none : Option FaultCode)) _ = r
      have hr : r.1.memWf := by
        rw [← hf]
        refine foldl_keeps (p := fun r : State × Option FaultCode => r.1.memWf) (fun _ _ hs => ?_) _ h
        split
        · exact hs
        · exact compactorWrite hs
      obtain ⟨s1, e⟩ := r
      dsimp only
      split
      · exact hr
      · exact (updBatches hr).writeHeader.startTarget

end

theorem flushEdge {gh edge : Nat} {good : Bool} : ∀ {fuel : Nat} {s : State}, s.memWf → (flushEdge gh edge good fuel s).1.memWf
  | 0, _, h => h
  | _ + 1, _, h => by
    unfold Machine.flushEdge
    extract_lets last
    have hl {s : State} (hs : s.memWf) : (last s).1.memWf := hs.writeHeader.updBatches
    clear_value last
    split
    · exact h
    · split
      · split
        · exact flushEdge (of_fst h.startBatch ‹_›)
        · exact hl (of_fst h.startBatch ‹_›)
      · exact hl h

section
variable {s : State} (h : s.memWf)
include h

theorem flushAll {l : Launch} {good : Bool} : (flushAll s l good).1.memWf := by
  unfold Machine.flushAll
  split
  · exact h
  · refine foldl_keeps (p := fun r : State × Option FaultCode => r.1.memWf) (fun _ _ hs => ?_) _ h
    exact (updBatches hs).flushEdge

theorem compactionBatch {graph edge : Nat} : NextWf (execCompactionBatch graph edge s) := by
  unfold execCompactionBatch
  split
  · exact h
  · split
    · exact h
    · refine nextWf_ite h ?_
      split
      · exact h.of_gateStep ‹_›
      · split
        · exact of_fst h.letGo.startBatch ‹_›
        · have h1 := of_fst h.letGo.startBatch ‹_›
          split
          · exact h1
          · exact takeFault h1

theorem applyPairs {l : Nat} {phase : Word} : (applyPairs s l phase).1.memWf := by
  refine foldl_keeps (p := fun r : State × Bool => r.1.memWf) (fun r _ hs => ?_) _ h
  exact (number hs).applyOrDrop

theorem mergeAccums {l : Launch} : Answers (fun r => r.1.memWf) (mergeAccums s l) := by
  refine ends_foldlM (r := fun r : State × Bool => r.1.memWf) (fun _ _ hs => ?_) _ h
  exact hs.mergeLaunch.bind fun _ h1 => h1

theorem settleGranules {l : Launch} : (settleGranules s l).memWf := h

theorem lastWork {l : Launch} : (lastWork s l).1.memWf := by
  unfold Machine.lastWork
  extract_lets phase closed
  have hc {s : State} {l : Launch} (hs : s.memWf) : (closed s l).1.memWf := hs.flushAll
  clear_value closed
  split
  · exact hc h
  · generalize hp : Machine.applyPairs _ _ _ = y
    have h1 : y.1.memWf := hp ▸ h.applyPairs
    obtain ⟨s1, p⟩ := y
    dsimp only
    split
    · exact hc h1
    · split
      · exact hc h1
      · have h2 := (mergeAccums h1).of_ok ‹_›
        split
        · exact of_fst (flushAll h2) ‹_›
        · exact flushAll h1

theorem launchCompletion {launch : Nat} : NextWf (execLaunchCompletion launch s) := by
  unfold execLaunchCompletion
  split
  · exact h
  · refine nextWf_ite h ?_
    split
    · exact h.of_gateStep ‹_›
    · generalize hp : Machine.lastWork _ _ = y
      have h1 : y.1.memWf := hp ▸ h.letGo.lastWork
      obtain ⟨s1, l⟩ := y
      dsimp -zeta only
      extract_lets s2 s3 s4 s5 s6
      have h3 : s3.memWf := h1
      have h4 : s4.memWf := h3.finishCounter
      have h5 : s5.memWf := memWf_ite h4.raiseEpoch h4
      refine settle ?_
      unfold s6
      split
      · exact h5
      · exact h5.setNode

theorem drawLayOut {parts : List (Nat × List Byte)} : (drawLayOut s parts).2.memWf := h
theorem freeSlot {job : Word} {k : Nat} : (freeSlot s job k).memWf := h
theorem takeTurn {l : Launch} : (takeTurn s l).memWf := h

theorem of_takeSlot {job : Word} {k : Nat} {s' : State} (e : takeSlot s job = some (k, s')) : s'.memWf := by
  unfold takeSlot at e
  split at e
  · cases e
  · rw [Option.map_eq_some_iff] at e
    obtain ⟨_, _, e⟩ := e
    cases e
    exact h

theorem priorityAgeing {launch : Nat} : NextWf (execPriorityAgeing launch s) := by
  unfold execPriorityAgeing
  split
  · exact h
  · exact nextWf_ite h h

end

end Sys2Proof.Machine.State.memWf
end

section
/-! PROOFS. Canonical memories (R236, R240, R258) after the placement, stop, save, resume and end of strands (R350 to R373, R400 to R418) and
after doorbells (R352). -/

namespace Sys2Proof.Machine

/-- A fold that may fail keeps what each of its steps keeps. -/
theorem foldlM_some_keeps {α β : Type} {p : β → Prop} {f : β → α → Option β} (hf : ∀ {b a b'}, p b → f b a = some b' → p b') :
    ∀ {l : List α} {b b' : β}, p b → l.foldlM f b = some b' → p b'
  | [], _, _, h, e => by cases e; exact h
  | a :: l, b, _, h, e => by
    rw [List.foldlM_cons] at e
    cases hx : f b a with
    | none => rw [hx] at e; cases e
    | some b1 => rw [hx] at e; exact foldlM_some_keeps hf (hf h hx) e

namespace State.memWf

section
variable {s : State} (h : s.memWf)
include h

theorem clearFor {t : Core} {j : Job} {b : Bool} : (clearFor s t j b).memWf := by
  refine setCore h ?_
  dsimp only
  split
  · rfl
  · exact h.2 t

theorem of_pinAll {t : Core} {st : Strand} {s' : State} (e : pinAll s t st = some s') : s'.memWf := by
  unfold pinAll at e
  dsimp only at e
  generalize hr : List.foldl _ (Except.ok s) _ = r at e
  have h1 : Answers State.memWf r := by
    rw [← hr]
    refine foldl_keeps (p := fun r : Except Halt State => Answers State.memWf r) (fun r _ hs => ?_) _ h
    split
    · exact hs.pinRecord
    · exact hs
  cases r with
  | ok s1 => cases e; exact h1
  | error x =>
    cases x with
    | wait w => cases e
    | fault c => cases e; exact h.wordFault

theorem of_placeStrand {t : Core} {l : Launch} {j : Job} {i : BitVec 24} {s' : State} (e : placeStrand s t l j i = some s') : s'.memWf := by
  unfold placeStrand at e
  rw [Option.map_eq_some_iff] at e
  obtain ⟨s1, e, rfl⟩ := e
  have h1 := joinClock (s := State.setStrand _ t (acquiring t l (Strand.placed l j i) {})) (d := dieOf t) (c := l.clock)
    (h.clearFor (t := t) (j := j) (b := false)).setStrand
  refine fillRecords ?_
  split at e
  · cases e
    exact h1
  · exact of_pinAll h1.updLaunch e

theorem strandPlacement {tile source : Core} {pick : Nat} : NextWf (execStrandPlacement tile source pick s) := by
  unfold execStrandPlacement
  split
  · exact h
  · split
    · exact h
    · split
      · exact h
      · dsimp only
        refine nextWf_ite h ?_
        split
        · refine dealAll (of_placeStrand ?_ ‹_›)
          refine takeTurn ?_
          exact updCore h fun _ => rfl
        · exact h

theorem freeCore {t : Core} {w : Option Nat} : (freeCore s t w).memWf := by
  unfold Machine.freeCore
  extract_lets s1
  have h1 : s1.memWf := by
    unfold s1
    split
    · exact h
    · exact h
  clear_value s1
  exact updCore h1 fun _ => rfl

theorem dropStop {t : Core} : (dropStop s t).memWf := by
  unfold Machine.dropStop
  split
  · exact h
  · refine updStrand ?_
    split
    · exact h.freeSlot
    · exact h

theorem strandEnd {tile : Core} : NextWf (execStrandEnd tile s) := by
  unfold execStrandEnd
  split
  · exact h
  · refine nextWf_ite (nextWf_ite h.spoilAborted.freeCore.settle h) (nextWf_ite h ?_)
    have h1 := fun st : Strand => (h.dropStop (t := tile)).flushDeltas (t := tile) (only := none) |>.freeCore (t := tile) (w := st.wantedBy)
    refine settle ?_
    split
    · exact compactorRelease (updLaunch (h1 _))
    · exact h1 _

theorem strandDeadlock {tile : Core} : NextWf (execStrandDeadlock tile s) := by
  unfold execStrandDeadlock
  split
  · exact h
  · exact nextWf_ite h h.takeFault

theorem safeDistance {tile : Core} : NextWf (execSafeDistance tile s) := by
  unfold execSafeDistance
  split
  · exact h
  · exact nextWf_ite h h.distanceFault

theorem of_sendStop {t : Core} {s' : State} (e : sendStop s t = some s') : s'.memWf := by
  unfold sendStop at e
  split at e
  · cases e; exact h
  · split at e
    · cases e; exact h
    · split at e
      · cases e
      · cases e
        exact (h.of_takeSlot ‹_›).setStrand

theorem of_sendStops {l : List Core} {s' : State} (e : l.foldlM sendStop s = some s') : s'.memWf :=
  foldlM_some_keeps (fun hs e => hs.of_sendStop e) h e

theorem markStop {t : Core} {f : Stop → Stop} : (markStop s t f).memWf := h.updStrand

theorem stopRequest {tile : Core} : NextWf (execStopRequest tile s) := by
  unfold execStopRequest
  split
  · exact h
  · extract_lets send
    have hs (x : Option Nat) : NextWf (send x) := by
      unfold send
      split
      · exact h
      · exact (h.of_sendStops ‹_›).markStop
    clear_value send
    refine nextWf_ite h (nextWf_ite (hs _) ?_)
    split
    · exact hs _
    · exact h

theorem debugStop {tile : Core} : (debugStop tile s).memWf := by
  unfold Machine.debugStop
  split
  · exact h
  · refine memWf_ite h ?_
    split
    · exact h
    · exact (h.of_sendStops ‹_›).markStop

theorem stopWithdraw {tile : Core} : NextWf (execStopWithdraw tile s) := by
  unfold execStopWithdraw
  split
  · exact h
  · split
    · exact h
    · exact nextWf_ite h (memWf_ite h.markStop (foldl (fun _ hs => hs.dropStop) h.markStop))

theorem discardStrand {t : Core} : (discardStrand s t).memWf := h.dropStop.freeCore.settle

theorem stopPointReached {tile : Core} : NextWf (execStopPointReached tile s) := by
  unfold execStopPointReached
  split
  · exact h
  · split
    · exact h
    · exact nextWf_ite h (nextWf_ite h.wordFault (nextWf_ite h.discardStrand h.setStrand))

theorem gangCut {launch : Nat} : NextWf (execGangCut launch s) := by
  unfold execGangCut
  split
  · exact h
  · refine nextWf_ite h (nextWf_ite ?_ ?_)
    · exact foldl (fun _ hs => hs.updStrand) h
    · exact foldl (fun _ hs => memWf_ite hs.updStrand hs) h

end

end State.memWf

theorem endsWf_writeContext {s : State} (h : s.memWf) {t : Core} {st : Strand} {base : Nat} {parts : List (Nat × List Byte)} :
    EndsWf State.memWf (writeContext t st base parts s) := ends_foldlM (fun _ _ hs => endsWf_at hs hs.partWrite) _ h

namespace State.memWf

section
variable {s : State} (h : s.memWf)
include h

theorem contextSave {tile : Core} : NextWf (execContextSave tile s) := by
  unfold execContextSave
  split
  · exact h
  · split
    · refine nextWf_ite h ?_
      dsimp only
      split
      · exact h
      · exact h
      · exact wordFault ((endsWf_writeContext h.flushDeltas).of_error ‹_›)
      · exact updStrand ((endsWf_writeContext h.flushDeltas).of_ok ‹_›)
    · exact h

theorem contextSaveComplete {tile : Core} : NextWf (execContextSaveComplete tile s) := by
  unfold execContextSaveComplete
  split
  · exact h
  · split
    · exact h
    · exact nextWf_ite h (nextWf_ite h.discardStrand (nextWf_ite h h.raiseEpoch.updLaunch.freeCore.holdIdle))

theorem resumeStrand {t : Core} {l : Launch} {j : Job} {x : Stopped} : (resumeStrand s t l j x).memWf := by
  unfold Machine.resumeStrand
  extract_lets s0 s1 s2
  have h1 : s1.memWf := h.touchRange.clearFor.joinClock.joinClock.updLaunch
  have h2 : s2.memWf := h1.freeSlot
  clear_value s2
  split
  · exact h2.setStrand.wordFault
  · exact h2.setStrand.touchRange.fillRecords

theorem strandResume {tile : Core} {launch : Nat} {index : BitVec 24} : NextWf (execStrandResume tile launch index s) := by
  unfold execStrandResume
  split
  · exact h
  · split
    · exact nextWf_ite h h.takeTurn.resumeStrand
    · exact h

theorem gangPlacement {launch : Nat} : NextWf (execGangPlacement launch s) := by
  unfold execGangPlacement
  split
  · exact h
  · split
    · exact h
    · extract_lets idle held free rivals unhold go on
      have hgo {α : Type} {f : State → Launch → α → Option State} {s0 : State} {xs : List α} (h0 : s0.memWf)
          (hf : ∀ {s l x s'}, s.memWf → f s l x = some s' → s'.memWf) : NextWf (go f s0 xs) := by
        unfold go
        split
        · refine foldlM_some_keeps (p := State.memWf) (fun hs e => ?_) (b := unhold (Machine.takeTurn s0 _)) ?_ ‹_›
          · split at e
            · split at e
              · cases e; exact hs
              · exact hf hs e
            · cases e; exact hs
          · refine allCores h0.takeTurn fun _ => ?_
            split <;> rfl
        · exact h
      clear_value go
      refine nextWf_ite h (nextWf_ite (nextWf_ite h ?_) ?_)
      · exact hgo h.updLaunch fun hs e => hs.of_placeStrand e
      · split
        · exact h
        · refine nextWf_ite h (hgo h fun hs e => ?_)
          cases e
          exact hs.resumeStrand

theorem endLeftOut {t : Core} : (endLeftOut s t).memWf := by
  unfold Machine.endLeftOut
  split
  · exact memWf_ite h.finishCmd h
  · exact h

theorem cancelLaunch {l : Nat} : (cancelLaunch s l).memWf := by
  unfold Machine.cancelLaunch
  split
  · exact h
  · extract_lets s1 s2 s3 s4
    have h1 : s1.memWf := foldl (fun _ hs => hs.freeSlot) h
    have h3 : s3.memWf := allCores (s := s2) h1 fun _ => rfl
    have h4 : s4.memWf := foldl (fun _ hs => hs.endLeftOut) h3
    refine foldl (fun x hs => ?_) h4
    split
    · exact hs.setStrand
    · refine memWf_ite hs.setStrand ?_
      dsimp only
      split
      · exact hs.freeSlot.setStrand
      · exact hs.setStrand

/-! Doorbells and the front end (R352, R353). -/

theorem frontEnd {q : BitVec 8} : (frontEnd s q).memWf := by
  unfold Machine.frontEnd
  split
  · exact h
  · split
    · exact h
    · refine memWf_ite h (memWf_ite h.haltQueue (memWf_ite h ?_))
      dsimp only
      split
      · exact h
      · exact h
      · exact h.letGo.haltQueue
      · exact h

theorem setDoorbell {q : BitVec 8} {v : BitVec 40} : (setDoorbell s q v).memWf := h
theorem refuseWrite {o : Nat} : (refuseWrite s o).memWf := h

theorem resumeQueue {q : BitVec 8} {k : Queue} {j : Job} : (resumeQueue s q k j).memWf := by
  unfold Machine.resumeQueue
  split
  · exact h.updQueue.frontEnd
  · exact h.haltQueue

theorem takeBell {q : BitVec 8} : (takeBell s q).memWf := by
  unfold Machine.takeBell
  split
  · exact h
  · split
    · exact memWf_ite h (memWf_ite h.updQueue.haltQueue (memWf_ite h.updQueue.updQueue.resumeQueue h.updQueue.updQueue.frontEnd))
    · exact h

theorem takeBells : (takeBells s).memWf := foldl (fun _ hs => hs.takeBell) h

theorem doorbell {q : BitVec 8} {v : DWord} : NextWf (execDoorbell q v s) :=
  nextWf_ite h.refuseWrite (nextWf_ite h.setDoorbell (nextWf_ite h h.setDoorbell.updQueue.takeBell))

end

end State.memWf

end Sys2Proof.Machine
end

section
/-! PROOFS. Canonical memories (R236, R240, R258) after packets, copies and fills (R352 to R365), phases (R384, R387), the calendar, links and
leases (R419 to R428), and resets (R461, R462). -/

namespace Sys2Proof.Machine

/-- What a packet's own step leaves is canonical. -/
def Executed.Wf : Executed → Prop
  | .done s => s.memWf
  | .hold _ s => s.memWf
  | .later => True
  | .halt s => s.memWf

theorem Executed.Wf.of_done {x : Executed} {s : State} (h : x.Wf) (e : x = .done s) : s.memWf := by subst e; exact h
theorem Executed.Wf.of_hold {x : Executed} {w : Hold} {s : State} (h : x.Wf) (e : x = .hold w s) : s.memWf := by subst e; exact h
theorem Executed.Wf.of_halt {x : Executed} {s : State} (h : x.Wf) (e : x = .halt s) : s.memWf := by subst e; exact h

theorem executedWf_ite {c : Prop} [Decidable c] {x y : Executed} (hx : x.Wf) (hy : y.Wf) : (if c then x else y).Wf := by
  split
  · exact hx
  · exact hy

namespace State.memWf

section
variable {s : State} (h : s.memWf)
include h

theorem finishPacket {q : BitVec 8} : (finishPacket s q).memWf := by
  unfold Machine.finishPacket
  split
  · exact h
  · split
    · exact h
    · refine memWf_ite h ?_
      extract_lets s2
      have h2 : s2.memWf := h
      clear_value s2
      split
      · exact frontEnd (h2.writeBlock.of_ok ‹_›)
      · exact h2.haltQueue

theorem packetStep {q : BitVec 8} {op : Nat} {mayHold : Hold} {f : State → Queue → Job → Executed}
    (hf : ∀ {s} k j, s.memWf → (f s k j).Wf) : NextWf (packetStep q op mayHold f s) := by
  unfold Machine.packetStep
  split
  · exact h
  · refine nextWf_ite h (nextWf_ite h.takeBell ?_)
    split
    · refine nextWf_ite h (nextWf_ite h.haltQueue ?_)
      dsimp only
      split
      · exact h.of_gateStep ‹_›
      · split
        · exact finishPacket ((hf _ _ h.letGo).of_done ‹_›).updQueue
        · exact ((hf _ _ h.letGo).of_hold ‹_›).updQueue
        · exact h
        · exact haltQueue ((hf _ _ h.letGo).of_halt ‹_›)
    · exact h.frontEnd
    · exact h

theorem armThen {j : Job} {n : Nat} {f : State → Executed} (hf : ∀ {s}, s.memWf → (f s).Wf) : (armThen s j n f).Wf := by
  unfold Machine.armThen
  split
  · exact h
  · refine executedWf_ite trivial ?_
    split
    · exact h
    · exact hf (h.armCounter.of_ok ‹_›)

theorem bumpSeq {q : BitVec 8} {n : Nat} : (bumpSeq s q n).memWf := h

theorem launchPacket {q : BitVec 8} : NextWf (execLaunchPacket q s) := by
  refine h.packetStep fun k j hs => hs.armThen fun h1 => ?_
  dsimp only
  split
  · exact h1.bumpSeq.finishCounter.settle
  · exact h1.bumpSeq.addLaunch

theorem graphPacket {q : BitVec 8} : NextWf (execGraphPacket q s) := by
  refine h.packetStep fun k j hs => ?_
  split
  · exact executedWf_ite trivial hs
  · refine hs.armThen fun h1 => settle (bumpSeq ?_)
    exact h1

/-- A packet that only completes. -/
theorem donePacket {q : BitVec 8} {op : Nat} : NextWf (Machine.packetStep q op .none (fun s _ _ => .done s) s) := h.packetStep fun _ _ hs => hs

theorem waitPacketOp {k : Queue} {j : Job} : (waitPacketOp s k j).Wf := by
  unfold Machine.waitPacketOp
  dsimp only
  split
  · exact h
  · split
    · exact h
    · exact executedWf_ite h h

theorem waitPacket {q : BitVec 8} : NextWf (execWaitPacket q s) := h.packetStep fun _ _ hs => hs.waitPacketOp

theorem waitSatisfied {q : BitVec 8} : NextWf (execWaitSatisfied q s) := by
  unfold execWaitSatisfied
  split
  · exact h
  · refine nextWf_ite h (h.packetStep fun k j hs => ?_)
    split
    · trivial
    · exact hs.waitPacketOp

theorem signalOp {q : BitVec 8} {k : Queue} {j : Job} : (signalOp q s k j).Wf := by
  unfold Machine.signalOp
  extract_lets n complete
  have hc {s : State} (hs : s.memWf) : (complete s).Wf := by
    refine executedWf_ite hs ?_
    split
    · exact hs
    · exact (hs.finalCounter.of_ok ‹_›).counterMet.raiseEpoch.settle
  clear_value complete
  exact executedWf_ite h (executedWf_ite (executedWf_ite trivial (hc h)) (h.armThen hc))

theorem signalPacket {q : BitVec 8} : NextWf (execSignalPacket q s) := h.packetStep fun _ _ hs => hs.signalOp

theorem barRelease {q : BitVec 8} : NextWf (execBarRelease q s) := by
  unfold execBarRelease
  split
  · exact h
  · split
    · exact h
    · exact nextWf_ite h h

theorem copyOrFill {q : BitVec 8} {fill : Bool} {k : Queue} {j : Job} : (copyOrFill q fill s k j).Wf := by
  refine h.armThen fun hs => executedWf_ite hs.bumpSeq.finishCounter.settle ?_
  exact hs

theorem copyOrFillPacket {q : BitVec 8} {op : Nat} {fill : Bool} : NextWf (Machine.packetStep q op .none (Machine.copyOrFill q fill) s) :=
  h.packetStep fun _ _ hs => hs.copyOrFill

/-! Copies and fills. -/

theorem frontRead {j : Job} {w : CopyWork} {v : View} {va n : Nat} : Answers (fun r => r.1.memWf) (frontRead s j w v va n) := by
  refine answers_bind_any fun _ => ends_ite trivial ?_
  extract_lets k s1
  have h0 : (if k.drew then { s with draws := s.draws + 1 } else s).memWf := memWf_ite h h
  have h1 : s1.memWf := h0.touch
  exact h1

theorem frontBytes {j : Job} {w : CopyWork} {as : List Nat} {v : View} : Answers (fun r => r.1.memWf) (frontBytes j w as s v) := by
  refine ends_foldlM (r := fun r : State × View × List (Byte × Bool) => r.1.memWf) (fun _ _ hs => ?_) _ h
  exact hs.frontRead.bind fun _ h1 => h1

theorem copyBytes {j : Job} {w : CopyWork} {u : List (Nat × Nat)} : Answers (fun r => r.1.memWf) (w.bytes j u s) := by
  unfold CopyWork.bytes
  dsimp only
  split
  · exact h
  · refine ends_ite h.frontBytes ?_
    refine ends_foldlM (r := fun r : State × View × List (Byte × Bool) => r.1.memWf) (fun r _ hs => ?_) _ h
    generalize hd : State.draw r.1 = y
    have hy : y.2.memWf := hd ▸ draw hs
    obtain ⟨f, s1⟩ := y
    exact ends_ite (hy.frontBytes.bind fun _ h1 => h1) ((frontBytes hs).bind fun _ h1 => h1)

theorem frontOne {j : Job} {w : CopyWork} {k : Nat} {u : List (Nat × Nat)} : Answers (fun r => r.1.memWf) (frontOne j w k u s) := by
  refine h.copyBytes.bind fun _ h1 => answers_bind_any fun _ => ends_ite trivial ?_
  generalize hn : State.number _ _ _ _ _ _ _ = y
  have hy : y.2.memWf := hn ▸ number h1
  obtain ⟨p, s2⟩ := y
  exact hy.applyWrite

end

theorem frontUnits {j : Job} :
    ∀ {us : List (Nat × List (Nat × Nat))} {w : CopyWork} {s : State}, s.memWf → (frontUnits j us w s).1.memWf
  | [], _, _, h => h
  | (_, _) :: _, _, _, h => by
    unfold Machine.frontUnits
    split
    · exact frontUnits h
    · split
      · exact h
      · exact frontUnits (h.frontOne.of_ok ‹_›)

section
variable {s : State} (h : s.memWf)
include h

theorem putWork {w : CopyWork} : (putWork s w).memWf := h

theorem copyEnd {w : CopyWork} {e : Option FaultCode} : (copyEnd s w e).memWf := by
  refine memWf_ite h.putWork (settle (raiseEpoch (finishCounter ?_)))
  exact h

end

theorem copyGone {r : State × CopyWork × Option Halt} (h : r.1.memWf) {ended : State → CopyWork → State}
    (he : ∀ {s w}, s.memWf → (ended s w).memWf) : (copyGone r ended).memWf := by
  unfold Machine.copyGone
  split
  · exact he h
  · exact copyEnd h
  · exact h
  · exact h

section
variable {s : State} (h : s.memWf)
include h

theorem copyFillComplete {work : Nat} : NextWf (execCopyFillComplete work s) := by
  unfold execCopyFillComplete
  split
  · exact h
  · split
    · exact h
    · exact nextWf_ite h (copyGone h.frontUnits fun hs => hs.copyEnd)

theorem frontAhead {work unit : Nat} : (frontAhead work unit s).memWf := by
  unfold Machine.frontAhead
  split
  · exact h
  · split
    · exact memWf_ite h (copyGone h.frontUnits fun hs => hs.putWork)
    · exact h

theorem cancelGraph {gh : Nat} : (cancelGraph s gh).memWf := by
  unfold Machine.cancelGraph
  split
  · exact h
  · refine graphTurn (foldl (fun _ hs => hs.cancelLaunch) ?_)
    exact h.updGraph

theorem cancelCounter {job : Word} {n : Nat} : (cancelCounter s job n).memWf := by
  refine memWf_ite h (settle (foldl (fun _ hs => hs.cancelGraph) ?_))
  exact foldl (fun _ hs => hs.cancelLaunch) h

theorem cancelPacket {q : BitVec 8} : NextWf (execCancelPacket q s) :=
  h.packetStep fun _ _ hs => executedWf_ite trivial hs.cancelCounter

theorem phasePacket {q : BitVec 8} : NextWf (execPhasePacket q s) := h.packetStep fun _ _ hs => executedWf_ite hs.updQueue hs

/-! Phases (R384, R387). -/

theorem phaseWriteLost {job : Word} : (phaseWriteLost s job).memWf := h
theorem joinAll : (joinAll s).memWf := foldl (fun _ hs => hs.joinClock) h
theorem raiseEpochs {l : List (Fin 4)} : (l.foldl State.raiseEpoch s).memWf := foldl (fun _ hs => hs.raiseEpoch) h

theorem phaseClose {job : Word} : NextWf (execPhaseClose job s) := by
  unfold execPhaseClose
  split
  · exact h
  · refine nextWf_ite h ?_
    split
    · exact h
    · exact h.of_gateStep ‹_›
    · extract_lets s1 s2
      have h1 : s1.memWf := foldl (fun _ hs => hs.phaseCloseRecord) h
      have h2 : s2.memWf := joinAll (raiseEpochs h1.updJob)
      clear_value s2
      split
      · exact h2
      · split
        · exact h2.putCounter.of_ok ‹_›
        · exact h2

theorem writeUpdate {j : Job} {va : Nat} {bs : List Byte} : (writeUpdate s j va bs).memWf := h.writeAs

theorem applyUpdate {job : Word} {u : RecordUpdate} : (applyUpdate s job u).memWf := by
  unfold Machine.applyUpdate
  split
  · exact h
  · split
    · exact updJob (writeUpdate (writeUpdate h))
    · exact updJob (writeUpdate h)
    · exact h.writeUpdate

theorem armPhase {j : Job} {phase : Word} : (armPhase s j phase).memWf := by
  unfold Machine.armPhase
  split
  · exact h.putCounter.of_ok ‹_›
  · exact h

theorem phaseAdvance {job : Word} : NextWf (execPhaseAdvance job s) := by
  unfold execPhaseAdvance
  split
  · exact h
  · refine nextWf_ite h ?_
    split
    · exact h
    · exact h.of_gateStep ‹_›
    · extract_lets s1 next s2 s3 s4 mine s5
      have h1 : s1.memWf := foldl (fun _ hs => hs.applyUpdate) h
      have h2 : s2.memWf := joinAll (raiseEpochs h1.updJob)
      clear_value s2
      have h3 : s3.memWf := memWf_ite h2 h2
      have h4 : s4.memWf := h3.armPhase
      have h5 : s5.memWf := foldl (fun _ hs => hs.updQueue) h4
      exact foldl (fun _ hs => memWf_ite hs.finishPacket hs) h5

/-! The calendar, links and leases (R419 to R428, R460). -/

theorem publish : (publish s).memWf := by
  unfold Machine.publish
  split
  · exact h
  · exact memWf_ite h.hostStore h

theorem drainLeadStart : NextWf (execDrainLeadStart s) := nextWf_ite h h
theorem linkDown {kind : BitVec 4} {u detail : Nat} : (linkDown s kind u detail).memWf := h
theorem fenceLinks : (fenceLinks s).memWf := foldl (fun _ hs => memWf_ite hs.linkDown (memWf_ite hs.linkDown hs)) h

theorem slotBodyStart {temps volts : List Int} : NextWf (execSlotBodyStart temps volts s) := by
  unfold execSlotBodyStart
  refine nextWf_ite h (memWf_ite (fenceLinks ?_) ?_)
  · exact h
  · exact h

theorem beginExtension {kind : BitVec 4} {unit : BitVec 16} : (beginExtension s kind unit).memWf := by
  refine allCores ?_ fun _ => rfl
  exact h

theorem slotEnd {sweep : Sweep} : NextWf (execSlotEnd sweep s) := by
  unfold execSlotEnd
  extract_lets major hot okSweep okRuns s1 s2 go dies dies2 card s3 s4
  have hgo {s : State} (hs : s.memWf) : NextWf (go s) := hs.publish.settle
  have h2 : s2.memWf := foldl (fun _ hs => hs.beginExtension) h
  have h3 : s3.memWf := h2
  have h4 : s4.memWf := foldl (fun _ hs => hs.memPoisoned) h3
  clear_value go s2 s4
  exact nextWf_ite h (nextWf_ite (hgo h2) (hgo (foldl (fun _ hs => hs.correctedError) h4)))

theorem extensionEnd {kind : BitVec 4} {unit : BitVec 16} : NextWf (execExtensionEnd kind unit s) := by
  unfold execExtensionEnd
  split
  · exact h
  · refine settle (publish (countWindow (signalHost (logEvent ?_))))
    exact h

theorem errorWindowReset : NextWf (execErrorWindowReset s) := nextWf_ite h.resetWindows h

theorem flitRetried {kind : BitVec 4} {unit : BitVec 16} : NextWf (execFlitRetried kind unit s) := by
  unfold execFlitRetried
  split
  · exact nextWf_ite h.countWindow h
  · exact nextWf_ite h.countWindow h
  · exact nextWf_ite h.countWindow h
  · exact h

theorem linkFailure {kind : BitVec 4} {unit : BitVec 16} : NextWf (execLinkFailure kind unit s) := nextWf_ite h.linkDown h
theorem linkTrained {port : BitVec 4} {skew : Nat} : NextWf (execLinkTrained port skew s) := nextWf_ite h (nextWf_ite h.linkDown h)

theorem leaseRenew : NextWf (execLeaseRenew s) := by
  unfold execLeaseRenew
  split
  · exact h
  · refine nextWf_ite (settle (takeBells ?_)) h
    exact h

theorem leaderStop : NextWf (execLeaderStop s) := by
  unfold execLeaderStop
  split
  · exact h
  · exact nextWf_ite h h

theorem takeOver {q : BitVec 8} : (takeOver s q).memWf := by
  unfold Machine.takeOver
  split
  · exact h
  · split
    · exact h
    · refine memWf_ite h ?_
      split
      · exact h.updQueue.frontEnd
      · exact h.haltQueue

theorem leaseLapse : NextWf (execLeaseLapse s) := by
  unfold execLeaseLapse
  split
  · refine nextWf_ite h (settle (takeBells (foldl (fun _ hs => hs.takeOver) (publish ?_))))
    exact h
  · exact h

theorem supervisorMove {d : Fin 4} {up : Bool} : (supervisorMove d up s).memWf := h

/-! Resets (R461, R462). -/

theorem registerRead {o : Nat} : (registerRead s o).2.memWf := by
  have either {c : Prop} [Decidable c] {x y : DWord × State} (hx : x.2.memWf) (hy : y.2.memWf) : (if c then x else y).2.memWf := by
    split
    · exact hx
    · exact hy
  refine either h (either h (either h (either h (either h (either h (either (either ?_ h) h))))))
  exact h

end

end State.memWf

/-- Cells kept by a filter stay in canonical form. -/
theorem cellsWf_filter {p : Host.Cell → Bool} : ∀ {cs : List Host.Cell} {lo lo' : Nat}, lo' ≤ lo → cellsWf lo cs = true →
    cellsWf lo' (cs.filter p) = true
  | [], _, _, _, _ => rfl
  | (x, b) :: cs, lo, lo', hl, h => by
    simp only [cellsWf, Bool.and_eq_true, decide_eq_true_eq] at h
    obtain ⟨⟨hx, hb⟩, hc⟩ := h
    rw [List.filter_cons]
    split
    · simp only [cellsWf, Bool.and_eq_true, decide_eq_true_eq]
      exact ⟨⟨by omega, hb⟩, cellsWf_filter (Nat.le_refl _) hc⟩
    · exact cellsWf_filter (by omega) hc

theorem hostMem_wf {m : Mem} (h : m.wf = true) : (hostMem m).wf = true := cellsWf_filter (Nat.le_refl _) h

theorem memWf_of_fresh_cores {s : State} (hm : s.mem.wf = true) (hc : s.cores = Vector.replicate 192 {}) : s.memWf := by
  refine ⟨hm, fun t => ?_⟩
  rw [State.core, hc, Vector.get_eq_getElem, Vector.getElem_replicate]
  rfl

namespace State.memWf

section
variable {s : State} (h : s.memWf)
include h

theorem packageReset : (packageReset s).memWf := memWf_of_fresh_cores (hostMem_wf h.1) rfl

theorem resetControl {v : DWord} : (resetControl v s).memWf := by
  refine memWf_ite h.refuseWrite (memWf_ite (packageReset ?_) (memWf_ite ?_ ?_))
  · exact h
  · exact h
  · exact h

theorem tripClear {v : DWord} : NextWf (execTripClear v s) := nextWf_ite h.resetControl h

theorem thermalTrip {temps : List Int} : NextWf (execThermalTrip temps s) := by
  refine nextWf_ite (packageReset ?_) h
  exact h

theorem powerLoss {b : Bool} : NextWf (execPowerLoss b s) := memWf_of_fresh_cores (hostMem_wf h.1) rfl

end

end State.memWf

end Sys2Proof.Machine
end

section
/-! PROOFS. Canonical memories (R236, R240, R258) after boot (R463 to R467) and the requests of the mailbox (R464), after every instruction and
move, and after a step. -/

namespace Sys2Proof.Machine

/-- What a request leaves is canonical. -/
def Answer.Wf : Answer → Prop
  | .done s _ => s.memWf
  | .begun s => s.memWf
  | _ => True

theorem Answer.Wf.of_done {x : Answer} {s : State} {n : Nat} (h : x.Wf) (e : x = .done s n) : s.memWf := by subst e; exact h
theorem Answer.Wf.of_begun {x : Answer} {s : State} (h : x.Wf) (e : x = .begun s) : s.memWf := by subst e; exact h

theorem answerWf_ite {c : Prop} [Decidable c] {x y : Answer} (hx : x.Wf) (hy : y.Wf) : (if c then x else y).Wf := by
  split
  · exact hx
  · exact hy

/-- What a request that may wait leaves is canonical. -/
def ServedWf (x : Option Answer) : Prop := ∀ a, x = some a → a.Wf

theorem servedWf_none : ServedWf none := fun _ e => nomatch e
theorem servedWf_some {a : Answer} (h : a.Wf) : ServedWf (some a) := fun _ e => by cases e; exact h
theorem servedWf_ite {c : Prop} [Decidable c] {x y : Option Answer} (hx : ServedWf x) (hy : ServedWf y) : ServedWf (if c then x else y) := by
  split
  · exact hx
  · exact hy

theorem checkWords_wf {bad : List Bool} {a : Answer} (h : a.Wf) : (checkWords bad a).Wf := by
  unfold checkWords
  split
  · trivial
  · exact h

namespace State.memWf

section
variable {s : State} (h : s.memWf)
include h

/-! Boot. -/

theorem powerCap {v : DWord} : NextWf (execPowerCap v s) := nextWf_ite h h.refuseWrite
theorem registerWriteRefused {o : Nat} {v : DWord} : NextWf (execRegisterWriteRefused o v s) := nextWf_ite h.refuseWrite h
theorem bootFailed {e : BitVec 8} : (bootFailed s e).memWf := h
theorem fepelLinkTrained {ok : Bool} : NextWf (execFepelLinkTrained ok s) := nextWf_ite h (nextWf_ite h h.bootFailed)

theorem imageDelivered {image : List Byte} {whole : Bool} : NextWf (execImageDelivered image whole s) :=
  nextWf_ite h (nextWf_ite h.bootFailed.updDie h)

theorem memoriesReady {alive : BitVec 4} : NextWf (execMemoriesReady alive s) := nextWf_ite h h

theorem pscAlignment {ports : BitVec 12} {reference : Option DWord} : NextWf (execPscAlignment ports reference s) := by
  unfold execPscAlignment
  refine nextWf_ite h ?_
  cases reference with
  | none => exact h
  | some v => exact nextWf_ite h h

theorem bootReady : NextWf (execBootReady s) := by
  refine nextWf_ite h (publish ?_)
  exact h

/-! Requests of the mailbox. -/

theorem writeReply {cpl : Nat} {seq : Word} {r : Reply} {reason result : Nat} : (writeReply s cpl seq r reason result).memWf :=
  h.hostStore.signalHost

end

theorem dropReserved : ∀ {l : List DWord} {s : State}, s.memWf → (dropReserved s l).memWf
  | [], _, h => h
  | _ :: _, _, h => memWf_ite h (dropReserved h.writeReply)

section
variable {s : State} (h : s.memWf)
include h

theorem finishRequest {cpl : Nat} {seq : Word} {r : Reply} {reason result : Nat} : (finishRequest s cpl seq r reason result).memWf := by
  unfold Machine.finishRequest
  extract_lets s1
  have h1 : s1.memWf := h.writeReply
  clear_value s1
  have h2 : ({ s1 with card := { s1.card with serving := none } } : State).memWf := h1
  exact h2.dropReserved

theorem supervisorMailbox {addr : DWord} : NextWf (execSupervisorMailbox addr s) := nextWf_ite h.refuseWrite (nextWf_ite h.dropReserved h)

theorem serve {code : Nat} {which : Block → Bool} {len : Block → Nat} {f : State → Block → Option Answer}
    (hf : ∀ {s} b, s.memWf → ServedWf (f s b)) : NextWf (serve code which len f s) := by
  unfold Machine.serve
  extract_lets s1 later
  have h1 : s1.memWf := h.dropReserved
  have hl : NextWf later := nextWf_ite h1 h
  clear_value s1 later
  split
  · exact hl
  · refine nextWf_ite hl (nextWf_ite h1.finishRequest ?_)
    split
    · exact hl
    · exact finishRequest (Answer.Wf.of_done (hf _ h1 _ ‹_›) rfl)
    · exact h1.finishRequest
    · exact h1.finishRequest
    · exact h1.finishRequest
    · exact hf _ h1 _ ‹_›

theorem simple {code len : Nat} {f : State → Block → Answer} (hf : ∀ {s} b, s.memWf → (f s b).Wf) : NextWf (simple code len f s) :=
  h.serve fun b hs => servedWf_some (hf b hs)

theorem clearBlocks {dsb : Vector Nat 4} : (clearBlocks s dsb).memWf := foldl (fun _ hs => hs.updDie) h

theorem createJob {no : Word} {b0 b1 b2 b3 : BitVec 4} : NextWf (execCreateJob no b0 b1 b2 b3 s) := by
  refine h.serve fun b hs => ?_
  dsimp only
  split
  · exact servedWf_some trivial
  · refine servedWf_ite (servedWf_some trivial) (servedWf_ite servedWf_none (servedWf_ite servedWf_none (servedWf_some ?_)))
    refine armPhase (clearBlocks ?_)
    exact hs

theorem tearQueue {q : BitVec 8} : (tearQueue s q).memWf := by
  unfold Machine.tearQueue
  extract_lets s1 s2 s3 s4
  have h1 : s1.memWf := h
  have h2 : s2.memWf := foldl (fun _ hs => hs.cancelLaunch) h1
  have h3 : s3.memWf := settle (foldl (fun _ hs => hs.cancelGraph) h2)
  have h4 : s4.memWf := by
    unfold s4
    clear_value s3
    split
    · exact h3.writeBlock.of_ok ‹_›
    · exact h3
  clear_value s4
  exact h4

theorem teardownJob : NextWf (execTeardownJob s) := by
  refine h.serve fun b hs => ?_
  extract_lets no qs s1
  have h1 : s1.memWf := foldl (fun _ hs => hs.tearQueue) hs
  clear_value s1
  with_reducible refine servedWf_ite ?_ (servedWf_ite servedWf_none ?_)
  · exact servedWf_some trivial
  · split
    · exact servedWf_some trivial
    · exact servedWf_some h1

theorem removeJob {j : Job} : (removeJob s j).memWf := by
  have h1 := clearBlocks (s := { s with jobs := s.jobs.filter fun k => k.no != j.no }) h (dsb := j.dsb)
  unfold Machine.removeJob
  extract_lets s1 s2
  have h2 : s2.memWf := allCores h1 fun _ => rfl
  exact h2

theorem jobTeardownComplete : NextWf (execJobTeardownComplete s) := by
  unfold execJobTeardownComplete
  split
  · exact h
  · split
    · exact h
    · exact nextWf_ite h h.removeJob.finishRequest

theorem registerQueue : NextWf (execRegisterQueue s) := by
  refine h.serve fun b hs => servedWf_some (checkWords_wf (answerWf_ite trivial ?_))
  extract_lets k s1
  have h1 : s1.memWf := hs
  clear_value s1
  change State.memWf _
  split
  · exact h1.writeBlock.of_ok ‹_›
  · exact h1

theorem teardownQueue : NextWf (execTeardownQueue s) :=
  h.serve fun _ hs => servedWf_ite (servedWf_some trivial) (servedWf_ite servedWf_none (servedWf_some hs.tearQueue))

theorem recordUpdate {j : Job} {u : RecordUpdate} : ServedWf (recordUpdate s j u) := by
  refine servedWf_ite (servedWf_some h.updJob) (servedWf_ite servedWf_none (servedWf_some ?_))
  exact joinAll (raiseEpochs h.applyUpdate)

theorem invalidate {job : Word} {va n : Nat} : (Machine.invalidate s job va n).memWf := by
  unfold Machine.invalidate
  extract_lets s1
  have h1 : s1.memWf := allCores h fun _ => rfl
  exact h1

theorem invalidateRequest : NextWf (execInvalidate s) := h.simple fun _ hs => checkWords_wf hs.invalidate

theorem dropKeyLines {k : BitVec 12} : (dropKeyLines s k).memWf := foldl (fun _ hs => hs.evict) h

theorem loadKey : NextWf (execLoadKey s) := by
  refine h.simple fun _ hs => checkWords_wf (answerWf_ite trivial ?_)
  exact hs.dropKeyLines

theorem debug {which : Nat → Bool} {f : State → Block → Core → Strand → Option Answer} (hf : ∀ {s} b t st, s.memWf → ServedWf (f s b t st)) :
    NextWf (debug which f s) := by
  refine h.serve fun b hs => servedWf_ite (servedWf_some trivial) ?_
  split
  · exact servedWf_some trivial
  · exact hf _ _ _ hs

theorem debugHalt : NextWf (execDebugHalt s) :=
  h.debug fun _ _ _ hs => servedWf_ite servedWf_none (servedWf_ite (servedWf_some hs.setStrand) (servedWf_some hs.setStrand))

theorem debugResume : NextWf (execDebugResume s) := h.debug fun _ _ _ hs => servedWf_some hs.setStrand

theorem debugImage {t : Core} {st : Strand} {idx raw : Nat} : (debugImage s t st idx raw).2.memWf := h.drawLayOut
theorem drawImage {t : Core} {st : Strand} : (drawImage s t st).2.memWf := h.draw.draw.draw.debugImage

theorem debugRead : NextWf (execDebugRead s) := by
  refine h.debug fun _ _ _ hs => servedWf_some (checkWords_wf (hostStore ?_))
  exact hs.drawImage

theorem of_debugApply {t : Core} {st : Strand} {img : List Byte} {s' : State} (e : debugApply s t st img = some s') : s'.memWf := by
  unfold debugApply at e
  dsimp only at e
  split at e
  · cases e
    exact memWf_ite h.setStrand h.setStrand.spadStore
  · cases e

theorem debugWrite : NextWf (execDebugWrite s) := by
  refine h.debug fun b t st hs => servedWf_some (checkWords_wf ?_)
  have h1 := hs.drawImage (t := t) (st := st)
  split
  · exact of_debugApply h1 ‹_›
  · trivial

theorem attest : NextWf (execAttest s) := by
  refine h.simple fun _ hs => ?_
  with_reducible refine answerWf_ite ?_ ?_
  · trivial
  split
  · trivial
  · refine hostStore ?_
    exact hs

theorem reserveDet : NextWf (execReserveDet s) := by
  refine h.simple fun _ hs => ?_
  extract_lets bad
  with_reducible refine checkWords_wf (answerWf_ite ?_ ?_)
  · trivial
  · exact foldl (fun _ hs => hs.updDie) hs

theorem readEvents : NextWf (execReadEvents s) := by
  refine h.simple fun _ hs => checkWords_wf ?_
  exact hs.hostStore

theorem readWindows : NextWf (execReadWindows s) := by
  refine h.simple fun _ hs => ?_
  extract_lets counts
  with_reducible refine checkWords_wf ?_
  exact hs.hostStore

theorem calendarRequest : NextWf (execCalendarRequest s) := h.simple fun _ hs => hs

theorem fencedRequest : NextWf (execFencedRequest s) := by
  refine h.simple fun _ hs => checkWords_wf ?_
  exact hs.hostStore

end

end State.memWf

end Sys2Proof.Machine
end

section
/-! PROOFS. Canonical memories (R236, R240, R258) after every instruction and move and after a step; O4. -/

namespace Sys2Proof.Machine

theorem checkUpdate_wf {bad : List Bool} {x : Option Answer} (h : ServedWf x) : ServedWf (checkUpdate bad x) := by
  unfold checkUpdate
  split
  · exact servedWf_some trivial
  · exact h

namespace State.memWf

section
variable {s : State} (h : s.memWf)
include h

theorem recordCreate : NextWf (execRecordCreate s) := by
  refine h.serve fun b hs => ?_
  dsimp only
  split
  · exact servedWf_some trivial
  · exact checkUpdate_wf hs.recordUpdate

theorem recordDelete : NextWf (execRecordDelete s) := by
  refine h.serve fun b hs => ?_
  dsimp only
  split
  · exact servedWf_some trivial
  · exact checkUpdate_wf hs.recordUpdate

theorem policySet : NextWf (execPolicySet s) := by
  refine h.serve fun b hs => ?_
  dsimp only
  split
  · exact servedWf_some trivial
  · exact checkUpdate_wf hs.recordUpdate

/-- An instruction is a word, which the meaning of words gives, or a move of the machine, which leaves canonical memories. -/
theorem exec_word_or_nextWf {i : Instr} : exec i s = Machine.wordMeaning i s ∨ NextWf (exec i s) := by
  cases i with
  | semwSucceed | queueWaitRelease | windowWaitRelease | slipWindowRelease => exact .inr h.endWait
  | textFetch => exact .inr h.textFetch
  | pageWalk => exact .inr h.pageWalk
  | strandPlacement => exact .inr h.strandPlacement
  | gangPlacement => exact .inr h.gangPlacement
  | priorityAgeing => exact .inr h.priorityAgeing
  | strandEnd => exact .inr h.strandEnd
  | launchCompletion => exact .inr h.launchCompletion
  | strandDeadlock => exact .inr h.strandDeadlock
  | safeDistance => exact .inr h.safeDistance
  | stopRequest => exact .inr h.stopRequest
  | stopWithdraw => exact .inr h.stopWithdraw
  | stopPointReached => exact .inr h.stopPointReached
  | gangCut => exact .inr h.gangCut
  | contextSave => exact .inr h.contextSave
  | contextSaveComplete => exact .inr h.contextSaveComplete
  | strandResume => exact .inr h.strandResume
  | doorbell => exact .inr h.doorbell
  | launchPacket => exact .inr h.launchPacket
  | graphPacket => exact .inr h.graphPacket
  | beginPacket | commitPacket | nopPacket | indirectPacket => exact .inr h.donePacket
  | waitPacket => exact .inr h.waitPacket
  | waitSatisfied => exact .inr h.waitSatisfied
  | signalPacket => exact .inr h.signalPacket
  | barRelease => exact .inr h.barRelease
  | copyPacket | fillPacket => exact .inr h.copyOrFillPacket
  | copyFillComplete => exact .inr h.copyFillComplete
  | cancelPacket => exact .inr h.cancelPacket
  | phasePacket => exact .inr h.phasePacket
  | phaseClose => exact .inr h.phaseClose
  | phaseAdvance => exact .inr h.phaseAdvance
  | compactionBatch => exact .inr h.compactionBatch
  | commandStart => exact .inr h.commandStart
  | commandWaitSatisfied => exact .inr h.commandWaitSatisfied
  | contribution => exact .inr h.contribution
  | commandFinish => exact .inr h.commandFinish
  | commandTimeout => exact .inr h.commandTimeout
  | peerAbort | mismatchNotice => exact .inr h.roundNotice
  | switchDiscard => exact .inr h.switchDiscard
  | bindRound => exact .inr h.bindRound
  | bindTimeout => exact .inr h.bindTimeout
  | remoteTransfer => exact .inr h.remoteTransfer
  | copyEngineComplete | permuteComplete => exact .inr h.copyComplete
  | homeWriteApply => exact .inr h.homeWriteApply
  | drainLeadStart => exact .inr h.drainLeadStart
  | slotBodyStart => exact .inr h.slotBodyStart
  | slotEnd => exact .inr h.slotEnd
  | extensionEnd => exact .inr h.extensionEnd
  | errorWindowReset => exact .inr h.errorWindowReset
  | flitRetried => exact .inr h.flitRetried
  | linkFailure => exact .inr h.linkFailure
  | linkTrained => exact .inr h.linkTrained
  | leaseRenew => exact .inr h.leaseRenew
  | leaderStop => exact .inr h.leaderStop
  | leaseLapse => exact .inr h.leaseLapse
  | resetHold => exact .inr h.resetControl
  | tripClear => exact .inr h.tripClear
  | thermalTrip => exact .inr h.thermalTrip
  | powerLoss => exact .inr h.powerLoss
  | cardReset => exact .inr h
  | powerCap => exact .inr h.powerCap
  | registerWriteRefused => exact .inr h.registerWriteRefused
  | fepelLinkTrained => exact .inr h.fepelLinkTrained
  | imageDelivered => exact .inr h.imageDelivered
  | memoriesReady => exact .inr h.memoriesReady
  | pscAlignment => exact .inr h.pscAlignment
  | bootReady => exact .inr h.bootReady
  | supervisorMailbox => exact .inr h.supervisorMailbox
  | createJob => exact .inr h.createJob
  | teardownJob => exact .inr h.teardownJob
  | jobTeardownComplete => exact .inr h.jobTeardownComplete
  | registerQueue => exact .inr h.registerQueue
  | teardownQueue => exact .inr h.teardownQueue
  | recordCreate => exact .inr h.recordCreate
  | recordDelete => exact .inr h.recordDelete
  | policySet => exact .inr h.policySet
  | invalidate => exact .inr h.invalidateRequest
  | loadKey => exact .inr h.loadKey
  | debugHalt => exact .inr h.debugHalt
  | debugResume => exact .inr h.debugResume
  | debugRead => exact .inr h.debugRead
  | debugWrite => exact .inr h.debugWrite
  | attest => exact .inr h.attest
  | reserveDet => exact .inr h.reserveDet
  | readEvents => exact .inr h.readEvents
  | readWindows => exact .inr h.readWindows
  | calendarRequest => exact .inr h.calendarRequest
  | fencedRequest => exact .inr h.fencedRequest
  | _ => exact .inl rfl

theorem exec {i : Instr} : NextWf (exec i s) := by
  obtain e | hx := h.exec_word_or_nextWf (i := i)
  · rw [e]
    exact h.wordMeaning
  · exact hx

theorem step : NextWf (step s) := by
  unfold Machine.step
  split
  · exact h.advance
  · rename_i turn rest _
    extract_lets s1
    have h1 : s1.memWf := advance (s := { s with agenda := rest }) h
    clear_value s1
    split
    · exact h1.turnBy fun hs => hs.exec
    · exact h1.exec
    · exact nextWf_ite (memWf_ite h1.hostStore h1) trivial
    · exact h1.registerRead
    · exact nextWf_ite h1.spadPoisoned trivial
    · exact nextWf_ite trivial (nextWf_ite h1 h1.memPoisoned)
    · split
      · exact h1.correctedError
      · exact h1
    · exact h1.peerTransfer
    · exact h1.copyAhead
    · exact h1.frontAhead
    · exact h1.supervisorMove
    · exact h1.debugStop
    · exact h1

end

end State.memWf

end Sys2Proof.Machine

namespace Sys2Proof

open Sys2Proof.Machine

/-- Settles O4: every operation over the state keeps the canonical form, so every word and every move of the machine does, by cases on the
instruction and on the turn's move. -/
theorem stepKeepsMemory : Obligations.StepKeepsMemory := by
  unfold Obligations.StepKeepsMemory
  exact fun s t h e => nextWf_iff.mp h.step t e

end Sys2Proof
end

section
/-! PROOFS. Stores (R249, R251, R257, R258): what memory holds after one, and which granules are poisoned. -/

namespace Sys2Proof.Machine

theorem lookupNat_insertNat {β : Type} (l : List (Nat × β)) (k x : Nat) (v : β) :
    lookupNat (insertNat l k v) x = if x = k then some v else lookupNat l x := by
  induction l with
  | nil => simp [insertNat, lookupNat, eq_comm]
  | cons y ys ih =>
    obtain ⟨y, w⟩ := y
    simp only [insertNat]
    split
    · simp only [lookupNat, ih]
      split
      · rw [if_neg (by omega)]
      · rfl
    · split
      · subst_vars
        by_cases h : x = y
        · simp [lookupNat, h]
        · simp [lookupNat, h, Ne.symm h]
      · by_cases h : x = k
        · simp [lookupNat, h]
        · simp [lookupNat, h, Ne.symm h]

/-! Bytes. -/

/-- Bytes stored piece by piece, when the pieces reach the end of the run. -/
theorem Mem.get_storePieces (c : Nat) : ∀ {fuel : Nat} {m : Mem} {a : Nat} {bs : List (Byte × Bool)}, m.wf = true →
    bs.length + a % 32 ≤ 32 * fuel →
    ((pieces 32 fuel a bs).foldl (fun m p => m.store p.1 (p.2.map Prod.fst) (p.2.any Prod.snd)) m).get c =
      if a ≤ c ∧ c < a + bs.length then (bs.map Prod.fst).getD (c - a) 0 else m.get c
  | 0, m, a, bs, _, h => by
    rw [if_neg (by omega)]
    rfl
  | fuel + 1, m, a, bs, hm, h => by
    rw [pieces]
    by_cases he : bs = []
    · subst he
      simp
    · have h1 : bs.isEmpty = false := by simpa using he
      have h2 : 0 < bs.length := List.length_pos_iff.mpr he
      rw [if_neg (by simp [h1]), List.foldl_cons,
        Mem.get_storePieces c (Mem.store_wf hm _ _ _) (by simp only [List.length_drop]; omega), Mem.get_store hm]
      simp only [List.length_drop, List.length_map, List.length_take, List.map_drop, List.map_take, List.getD_eq_getElem?_getD, List.getElem?_drop,
        List.getElem?_take]
      by_cases hc : a ≤ c ∧ c < a + bs.length
      · rw [if_pos hc]
        by_cases hd : a + (32 - a % 32) ≤ c
        · rw [if_pos (by omega), show 32 - a % 32 + (c - (a + (32 - a % 32))) = c - a by omega]
        · rw [if_neg (by omega), if_pos (by omega), if_pos (by omega)]
      · rw [if_neg hc, if_neg (by omega), if_neg (by omega)]

/-- A byte after bytes are stored with their own poison. -/
theorem Mem.get_storeRun {m : Mem} (h : m.wf = true) (a c : Nat) (bs : List (Byte × Bool)) :
    (m.storeRun a bs).get c = if a ≤ c ∧ c < a + bs.length then (bs.map Prod.fst).getD (c - a) 0 else m.get c :=
  Mem.get_storePieces c h (by omega)

theorem Pending.run_fst (p : Pending) : p.run.map Prod.fst = p.bytes := by
  simp [Pending.run, List.map_map, Function.comp_def, List.zipIdx_map_fst]

theorem Pending.length_run (p : Pending) : p.run.length = p.bytes.length := by simp [Pending.run]

/-! Poison. -/

theorem contains_natInsert (l : List Nat) (n g : Nat) : (natInsert l n).contains g = (l.contains g || g == n) := by
  rw [Bool.eq_iff_iff]
  simp only [List.contains_iff_mem, Bool.or_eq_true, beq_iff_eq]
  induction l with
  | nil => simp [natInsert]
  | cons x xs ih =>
    simp only [natInsert]
    split
    · simp [ih, or_assoc]
    · split
      · subst_vars; simp +contextual
      · simp only [List.mem_cons]; tauto

theorem Mem.contains_poisonGranules (g : Nat) : ∀ (gs : List Nat) (m : Mem),
    (gs.foldl Mem.poisonGranule m).poison.contains g = (m.poison.contains g || gs.contains g)
  | [], m => by simp
  | x :: xs, m => by
    rw [List.foldl_cons, Mem.contains_poisonGranules g xs, Mem.poisonGranule, contains_natInsert, List.contains_cons, Bool.or_assoc]

theorem Mem.poison_setBytes : ∀ (bs : List Byte) (m : Mem) (a : Nat), (m.setBytes a bs).poison = m.poison
  | [], _, _ => rfl
  | b :: bs, m, a => Mem.poison_setBytes bs (m.set a b) (a + 1)

/-- The granules of a range are those that overlap it. -/
theorem contains_granules {a n : Nat} (hn : 0 < n) (g : Nat) :
    (granules a n).contains g = (decide (32 * g < a + n) && decide (a < 32 * g + 32)) := by
  rw [Bool.eq_iff_iff]
  simp only [granules, if_neg (Nat.ne_of_gt hn), List.contains_iff_mem, List.mem_map, List.mem_range, Bool.and_eq_true, decide_eq_true_eq]
  constructor
  · rintro ⟨k, hk, rfl⟩
    omega
  · intro h
    exact ⟨g - a / 32, by omega, by omega⟩

theorem Mem.contains_store_poisoned (m : Mem) (a : Nat) {bs : List Byte} (hb : 0 < bs.length) (g : Nat) :
    (m.store a bs true).poison.contains g = (m.poison.contains g || (decide (32 * g < a + bs.length) && decide (a < 32 * g + 32))) := by
  rw [← contains_granules hb, ← Mem.poison_setBytes bs m a]
  exact Mem.contains_poisonGranules g _ _

theorem Mem.contains_store_clean (m : Mem) (a : Nat) (bs : List Byte) (g : Nat) :
    (m.store a bs false).poison.contains g =
      (m.poison.contains g && !(decide (a ≤ 32 * g) && decide (32 * g + 32 ≤ a + bs.length))) := by
  rw [← Mem.poison_setBytes bs m a, Bool.eq_iff_iff]
  simp only [Mem.store, Bool.and_eq_true, List.contains_iff_mem]
  exact List.mem_filter

end Sys2Proof.Machine
end

section
/-! PROOFS. A write applied at its home (R245, R249, R251, R257, R258): what physical memory reads as under the write's key slot; O8. -/

namespace Sys2Proof.Machine

/-! Reads under a key slot (R257). -/

section
variable {s t : State} {key : BitVec 12} {a : Nat}

theorem State.plain_host (h : isHost a = true) : s.plain key a = s.mem.get a := if_pos h

theorem State.plain_of_no_key (h : s.keyOf key = none) : s.plain key a = s.mem.get a := by
  unfold State.plain
  rw [h]
  split
  · rfl
  · split <;> simp_all

theorem State.plain_of_sealed {k : BitVec 512} (hs : lookupNat s.seals (a / 128) = some k) (hk : s.keyOf key = some k) :
    s.plain key a = s.mem.get a := by
  unfold State.plain
  rw [hs, hk]
  simp

theorem State.plain_of_unsealed (hs : lookupNat s.seals (a / 128) = none) : s.plain key a = s.mem.get a := by
  unfold State.plain
  rw [hs]
  split <;> rfl

/-- What a byte reads as depends on its line's seal, the keys and the bytes of its granule. -/
theorem State.plain_congr (hk : t.keys = s.keys) (hs : lookupNat t.seals (a / 128) = lookupNat s.seals (a / 128))
    (hm : ∀ c, c / 32 = a / 32 → t.mem.get c = s.mem.get c) : t.plain key a = s.plain key a := by
  have hb : t.mem.bytes (a / 32 * 32) 32 = s.mem.bytes (a / 32 * 32) 32 := by
    refine List.map_congr_left fun i hi => hm _ ?_
    have := List.mem_range.mp hi
    omega
  have hkey : t.keyOf key = s.keyOf key := by unfold State.keyOf; rw [hk]
  unfold State.plain
  rw [hs, hkey, hm a rfl, hb]

end

theorem isHost_of_line {a b : Nat} (h : a / 128 = b / 128) : isHost a = isHost b := by
  unfold isHost Config.hostBase
  rw [decide_eq_decide]
  omega

/-- The host window begins at a line. -/
theorem lt_of_isHost {a b : Nat} (ha : isHost a = true) (hb : isHost b = false) : b / 128 * 128 + 128 ≤ a := by
  have h1 : Config.hostBase ≤ a := of_decide_eq_true ha
  have h2 : ¬Config.hostBase ≤ b := of_decide_eq_false hb
  unfold Config.hostBase at h1 h2
  omega

/-! Bringing a line under the key of a write (R257). -/

section
variable {s : State} {key : BitVec 12} {line b : Nat}

theorem State.keys_sealLine : (s.sealLine key line).keys = s.keys := by
  unfold State.sealLine
  split
  · rfl
  · dsimp only
    split
    · split <;> rfl
    · rfl

theorem State.seals_sealLine {k : BitVec 512} (hk : s.keyOf key = some k) : (s.sealLine key line).seals = insertNat s.seals line k := by
  unfold State.sealLine
  rw [hk]
  dsimp only
  split
  · split <;> rfl
  · rfl

theorem State.sealLine_of_no_key (hk : s.keyOf key = none) : s.sealLine key line = s := by
  unfold State.sealLine
  rw [hk]

/-- The bytes of a line brought under a key: those of the line as that key reads them, the others as they were. -/
theorem State.get_sealLine {k : BitVec 512} (hm : s.mem.wf = true) (hk : s.keyOf key = some k) :
    (s.sealLine key line).mem.get b = if b / 128 = line then s.plain key b else s.mem.get b := by
  unfold State.sealLine
  rw [hk]
  dsimp only
  split
  · rename_i k0 hs
    split
    · subst_vars
      split
      · subst_vars
        exact (State.plain_of_sealed hs hk).symm
      · rfl
    · rw [Mem.get_setBytes _ _ _ hm]
      simp only [List.length_map, List.length_range]
      by_cases hb : b / 128 = line
      · have hi : b - 128 * line < 128 := by omega
        rw [if_pos (by omega), if_pos hb]
        simp [List.getD_eq_getElem?_getD, hi, show 128 * line + (b - 128 * line) = b by omega]
      · rw [if_neg (by omega), if_neg hb]
  · rename_i hs
    split
    · subst_vars
      exact (State.plain_of_unsealed hs).symm
    · rfl

/-- A line brought under a key, and any memory that holds it under the same seals, reads as it stands. -/
theorem State.plain_in_sealLine {t : State} (hk : t.keys = s.keys) (hs : t.seals = (s.sealLine key line).seals) (hb : b / 128 = line) :
    t.plain key b = t.mem.get b := by
  have hkey : t.keyOf key = s.keyOf key := by unfold State.keyOf; rw [hk]
  cases h : s.keyOf key with
  | none => exact State.plain_of_no_key (hkey.trans h)
  | some k =>
    refine State.plain_of_sealed ?_ (hkey.trans h)
    rw [hs, State.seals_sealLine h, lookupNat_insertNat, if_pos hb]

/-- A line comes under a key without changing what that key reads. -/
theorem State.plain_sealLine (hm : s.mem.wf = true) : (s.sealLine key line).plain key b = s.plain key b := by
  cases h : s.keyOf key with
  | none => rw [State.sealLine_of_no_key h]
  | some k =>
    by_cases hb : b / 128 = line
    · rw [State.plain_in_sealLine State.keys_sealLine rfl hb, State.get_sealLine hm h, if_pos hb]
    · refine State.plain_congr State.keys_sealLine ?_ fun c hc => ?_
      · rw [State.seals_sealLine h, lookupNat_insertNat, if_neg hb]
      · rw [State.get_sealLine hm h, if_neg (by omega)]

end

/-! Writes. -/

section
variable {s : State} {p : Pending}

theorem State.markStamp_eq (s : State) (p : Pending) : ∃ jobs, s.markStamp p = { s with jobs } := by
  unfold State.markStamp
  split
  · split
    · exact ⟨_, rfl⟩
    · exact ⟨_, rfl⟩
  · exact ⟨_, rfl⟩

/-- A write within a line, in memory `t` that otherwise holds what `s` does once the line is brought under the key. -/
theorem State.plain_after_store {t : State} (hm : s.mem.wf = true) (hl : p.addr % 128 + p.bytes.length ≤ 128) (hk : t.keys = s.keys)
    (hs : t.seals = (s.sealLine p.key (p.addr / 128)).seals)
    (ht : t.mem = (s.sealLine p.key (p.addr / 128)).mem.storeRun p.addr p.run) (b : Nat) :
    t.plain p.key b = if p.addr ≤ b ∧ b < p.addr + p.bytes.length then p.bytes.getD (b - p.addr) 0 else s.plain p.key b := by
  have hw := State.mem_sealLine_wf hm p.key (p.addr / 128)
  have get (c : Nat) : t.mem.get c = if p.addr ≤ c ∧ c < p.addr + p.bytes.length then p.bytes.getD (c - p.addr) 0
      else (s.sealLine p.key (p.addr / 128)).mem.get c := by
    rw [ht, Mem.get_storeRun hw, Pending.length_run, Pending.run_fst]
  rw [← State.plain_sealLine hm (line := p.addr / 128)]
  by_cases hb : b / 128 = p.addr / 128
  · rw [State.plain_in_sealLine hk hs hb, get, State.plain_in_sealLine State.keys_sealLine rfl hb]
  · rw [if_neg (by omega)]
    refine State.plain_congr (hk.trans State.keys_sealLine.symm) (by rw [hs]) fun c hc => ?_
    rw [get, if_neg (by omega)]

/-- A write within a line of the host window. -/
theorem State.plain_after_hostStore {t : State} (hm : s.mem.wf = true) (hh : isHost p.addr = true)
    (hk : t.keys = s.keys) (hs : t.seals = s.seals) (ht : t.mem = s.mem.storeRun p.addr p.run) (b : Nat) :
    t.plain p.key b = if p.addr ≤ b ∧ b < p.addr + p.bytes.length then p.bytes.getD (b - p.addr) 0 else s.plain p.key b := by
  have get (c : Nat) : t.mem.get c = if p.addr ≤ c ∧ c < p.addr + p.bytes.length then p.bytes.getD (c - p.addr) 0 else s.mem.get c := by
    rw [ht, Mem.get_storeRun hm, Pending.length_run, Pending.run_fst]
  cases hb : isHost b with
  | true => rw [State.plain_host hb, State.plain_host hb, get]
  | false =>
    have hlt : b / 128 * 128 + 128 ≤ p.addr := lt_of_isHost hh hb
    rw [if_neg (by omega)]
    refine State.plain_congr hk (by rw [hs]) fun c hc => ?_
    rw [get, if_neg (by omega)]

end

/-! Lines that leave shared SRAM where no die has a reservation (R251). -/

/-- No die has a reservation. -/
def State.Unreserved (s : State) : Prop := ∀ d, (s.die d).reserved = false

/-- The state is as it was but for the lines that shared SRAM holds, poison, what writes wrote over, and free values. -/
def State.LinesLeft (s t : State) : Prop :=
  ∃ poison sram past draws, t = { s with mem := { s.mem with poison }, sram, past, draws }

section
variable {s t u : State}

theorem State.LinesLeft.refl (s : State) : s.LinesLeft s := ⟨_, _, _, _, rfl⟩
theorem State.LinesLeft.trans (h : s.LinesLeft t) (k : t.LinesLeft u) : s.LinesLeft u := by
  obtain ⟨_, _, _, _, rfl⟩ := h
  obtain ⟨_, _, _, _, rfl⟩ := k
  exact ⟨_, _, _, _, rfl⟩
theorem State.LinesLeft.ite {c : Prop} [Decidable c] (h : s.LinesLeft t) (k : s.LinesLeft u) : s.LinesLeft (if c then t else u) := by
  split <;> assumption

theorem State.LinesLeft.foldl {α : Type} {f : State → α → State} (hf : ∀ (s : State) (a : α), s.LinesLeft (f s a)) :
    ∀ (l : List α) (s : State), s.LinesLeft (l.foldl f s)
  | [], s => .refl s
  | a :: l, s => (hf s a).trans (State.LinesLeft.foldl hf l (f s a))

theorem State.LinesLeft.unreserved (h : s.LinesLeft t) (hr : s.Unreserved) : t.Unreserved := by
  obtain ⟨_, _, _, _, rfl⟩ := h
  exact hr

theorem State.LinesLeft.cells (h : s.LinesLeft t) : t.mem.cells = s.mem.cells ∧ t.seals = s.seals := by
  obtain ⟨_, _, _, _, rfl⟩ := h
  exact ⟨rfl, rfl⟩

theorem spillTag_of_unreserved (hr : s.Unreserved) {line : Nat} (hd : t.dies = s.dies) : spillTag t line = some t := by
  have h (d : Fin 4) : (t.die d).reserved = false := by
    rw [State.die, hd]
    exact hr d
  unfold spillTag
  simp [h _]

theorem State.linesLeft_evict (hr : s.Unreserved) (line : Nat) : s.LinesLeft (s.evict line) := by
  unfold State.evict
  rw [spillTag_of_unreserved hr rfl]
  split
  next x s1 _ hs =>
    cases hs
    exact .ite ⟨_, _, _, _, rfl⟩ (.trans ⟨_, _, _, _, rfl⟩ (.foldl (fun s i => .ite (.refl s) ⟨_, _, _, _, rfl⟩) _ _))
  next => exact .refl s

theorem State.linesLeft_fill (hr : s.Unreserved) (key : BitVec 12) (line : Nat) : s.LinesLeft (s.fill key line) := by
  unfold State.fill
  dsimp only
  have add {s : State} {l : List SramLine} : s.LinesLeft { s with sram := l } := ⟨_, _, _, _, rfl⟩
  have out := State.linesLeft_evict hr line
  generalize s.evict line = s0 at out ⊢
  have chosen (n : Nat) : s.LinesLeft (s0.draw.2.evict n) := by
    have drawn : s.LinesLeft s0.draw.2 := out.trans ⟨_, _, _, _, rfl⟩
    exact drawn.trans (State.linesLeft_evict (drawn.unreserved hr) n)
  exact .ite (.refl s) (.ite (.ite out (out.trans add)) (.ite (.ite out (out.trans add))
    (.ite (.ite (chosen _) ((chosen _).trans add)) (chosen _))))

theorem State.linesLeft_touch (hr : s.Unreserved) (l : Leaf) (w : Bool) : s.LinesLeft (s.touch l w) :=
  .ite (.ite (State.linesLeft_evict hr _) (.refl s)) (State.linesLeft_fill hr _ _)

end

end Sys2Proof.Machine
end

section
/-! PROOFS. The outcomes of a write at its home (R249, R251); O8. -/

namespace Sys2Proof.Machine

/-- A write loses to its line's tag (R249). -/
def Pending.loses (p : Pending) (s : State) (now : Word) : Prop :=
  ∃ w, p.wid = some w ∧ isHost p.addr = false ∧ losesTo w (lookupNat s.tags (p.addr / 128)) now = true

/-- The line of a write to HBM as its home finds it: touched and brought under the write's key slot. -/
def State.sealedFor (s : State) (p : Pending) : State :=
  ((s.markStamp p).touch ⟨p.addr, 0, p.key, p.nc⟩ true).sealLine p.key (p.addr / 128)

section
variable {s : State} {p : Pending} {now : Word}

theorem tags_markStamp : (s.markStamp p).tags = s.tags := by
  obtain ⟨_, h⟩ := s.markStamp_eq p
  rw [h]

theorem applyWrite_host (hh : isHost p.addr = true) :
    s.applyWrite p now = { (s.markStamp p).note p with mem := (s.markStamp p).mem.storeRun p.addr p.run } := by
  unfold State.applyWrite
  exact if_pos hh

theorem applyWrite_loses (h : p.loses s now) : s.applyWrite p now = (s.markStamp p).note p true := by
  obtain ⟨w, hw, hh, hl⟩ := h
  unfold State.applyWrite
  simp [hw, hh, hl, tags_markStamp]

/-- A write to HBM that wins: its bytes stored and its line's tag set, and, where the line is not in shared SRAM, the tag of a tracked
write spilled. -/
theorem applyWrite_wins (hh : isHost p.addr = false) (h : ¬p.loses s now) :
    ∃ tags, let s2 := { ((s.sealedFor p).note p).soil (p.addr / 128) with mem := (s.sealedFor p).mem.storeRun p.addr p.run, tags }
      s.applyWrite p now = if p.wid.isSome && (s2.resident (p.addr / 128)).isNone then (spillTag s2 (p.addr / 128)).getD s2 else s2 := by
  unfold State.applyWrite
  refine ⟨_, ((if_neg (by simp [hh])).trans (if_neg fun e => h ?_)).trans rfl⟩
  rw [tags_markStamp] at e
  split at e
  · rename_i w hw
    exact ⟨w, hw, hh, e⟩
  · cases e

theorem isSome_resident_soil (s : State) (line : Nat) : ((s.soil line).resident line).isSome = (s.resident line).isSome := by
  unfold State.resident State.soil
  simp only [List.find?_map, Option.isSome_map]
  congr 2
  funext x
  dsimp only [Function.comp]
  split <;> rfl

/-- The tag of a winning write is not spilled: what is left is the write itself. -/
theorem applyWrite_stores (hh : isHost p.addr = false) (h : ¬p.loses s now)
    (hr : p.wid = none ∨ ((s.sealedFor p).resident (p.addr / 128)).isSome = true ∨ (s.sealedFor p).Unreserved) :
    ∃ tags, s.applyWrite p now =
      { ((s.sealedFor p).note p).soil (p.addr / 128) with mem := (s.sealedFor p).mem.storeRun p.addr p.run, tags } := by
  obtain ⟨tags, e⟩ := applyWrite_wins hh h
  refine ⟨tags, e.trans ?_⟩
  dsimp only
  split
  next hs =>
    rw [Bool.and_eq_true] at hs
    obtain hw | hres | hu := hr
    · rw [hw] at hs
      cases hs.1
    · have hn : (((s.sealedFor p).soil (p.addr / 128)).resident (p.addr / 128)).isNone = true := hs.2
      rw [← isSome_resident_soil] at hres
      cases hx : ((s.sealedFor p).soil (p.addr / 128)).resident (p.addr / 128) <;> simp [hx] at hn hres
    · rw [spillTag_of_unreserved hu]
      · rfl
      · rfl
  next => rfl

end

end Sys2Proof.Machine
end

section
/-! PROOFS. Stores change only their bytes (R245, R249, R251, R257, R258): O8. -/

namespace Sys2Proof.Machine

section
variable {s : State} {p : Pending} {now : Word}

theorem State.sealLine_eq (s : State) (key : BitVec 12) (line : Nat) : ∃ mem seals, s.sealLine key line = { s with mem, seals } := by
  unfold State.sealLine
  split
  · exact ⟨_, _, rfl⟩
  · dsimp only
    split
    · split
      · exact ⟨_, _, rfl⟩
      · exact ⟨_, _, rfl⟩
    · exact ⟨_, _, rfl⟩

theorem unreserved_markStamp (hr : s.Unreserved) : (s.markStamp p).Unreserved := by
  obtain ⟨_, h⟩ := s.markStamp_eq p
  rw [h]
  exact hr

/-- A write that wins is not spilled where its line is in shared SRAM or no die has a reservation. -/
theorem sealedFor_keeps (hr : p.wid = none ∨
      (((s.markStamp p).touch ⟨p.addr, 0, p.key, p.nc⟩ true).resident (p.addr / 128)).isSome = true ∨ s.Unreserved) :
    p.wid = none ∨ ((s.sealedFor p).resident (p.addr / 128)).isSome = true ∨ (s.sealedFor p).Unreserved := by
  obtain ⟨_, _, h⟩ := ((s.markStamp p).touch ⟨p.addr, 0, p.key, p.nc⟩ true).sealLine_eq p.key (p.addr / 128)
  unfold State.sealedFor
  rw [h]
  exact hr.imp_right (Or.imp_right fun hu => (State.linesLeft_touch (unreserved_markStamp hu) _ _).unreserved (unreserved_markStamp hu))

theorem cores_applyWrite : (s.applyWrite p now).cores = s.cores := by
  obtain ⟨_, h⟩ := s.markStamp_eq p
  have hm : (s.markStamp p).cores = s.cores := by rw [h]
  cases hh : isHost p.addr with
  | true =>
    rw [applyWrite_host hh]
    exact hm
  | false =>
    by_cases hl : p.loses s now
    · rw [applyWrite_loses hl]
      exact hm
    · obtain ⟨tags, e⟩ := applyWrite_wins hh hl
      have hs : (s.sealedFor p).cores = s.cores := (State.cores_sealLine _ _ _).trans ((State.cores_touch _ _ _).trans hm)
      rw [e]
      dsimp only
      split
      · generalize hx : spillTag _ _ = o
        cases o with
        | none => exact hs
        | some s3 => exact (State.cores_spillTag hx).trans hs
      · exact hs

/-- The bytes after a write to the host window. -/
theorem plain_applyWrite_host (h : s.memWf) (hh : isHost p.addr = true) (b : Nat) :
    (s.applyWrite p now).plain p.key b =
      if p.addr ≤ b ∧ b < p.addr + p.bytes.length then p.bytes.getD (b - p.addr) 0 else (s.markStamp p).plain p.key b := by
  have hm := (State.memWf_markStamp h p).1
  rw [applyWrite_host hh]
  generalize s.markStamp p = u at hm ⊢
  have hp := State.plain_after_hostStore (t := { u.note p with mem := u.mem.storeRun p.addr p.run }) hm hh rfl rfl rfl b
  exact hp

/-- The bytes after a write that wins and whose line's tag goes nowhere. -/
theorem plain_applyWrite (h : s.memWf) (hl : p.addr % 128 + p.bytes.length ≤ 128) (hw : ¬p.loses s now)
    (hr : p.wid = none ∨ (((s.markStamp p).touch ⟨p.addr, 0, p.key, p.nc⟩ true).resident (p.addr / 128)).isSome = true ∨ s.Unreserved)
    (hh : isHost p.addr = false) (b : Nat) :
    (s.applyWrite p now).plain p.key b = if p.addr ≤ b ∧ b < p.addr + p.bytes.length then p.bytes.getD (b - p.addr) 0
      else ((s.markStamp p).touch ⟨p.addr, 0, p.key, p.nc⟩ true).plain p.key b := by
  obtain ⟨tags, e⟩ := applyWrite_stores hh hw (sealedFor_keeps hr)
  have hm := (State.memWf_touch (State.memWf_markStamp h p) ⟨p.addr, 0, p.key, p.nc⟩ true).1
  rw [e]
  unfold State.sealedFor
  generalize (s.markStamp p).touch ⟨p.addr, 0, p.key, p.nc⟩ true = u at hm ⊢
  have hk : (u.sealLine p.key (p.addr / 128)).keys = u.keys := State.keys_sealLine
  have hp := State.plain_after_store (t := { ((u.sealLine p.key (p.addr / 128)).note p).soil (p.addr / 128) with
    mem := (u.sealLine p.key (p.addr / 128)).mem.storeRun p.addr p.run, tags }) hm hl hk
  exact hp rfl rfl b

end

/-- A byte of a scratchpad after a store. -/
theorem get_spadStore {s : State} (h : s.memWf) (t u : Core) (a b : Nat) (bs : List Byte) (p : Bool) :
    ((s.spadStore t a bs p).core u).spad.get b =
      if u = t ∧ a ≤ b ∧ b < a + bs.length then bs.getD (b - a) 0 else (s.core u).spad.get b := by
  rw [State.spadStore, State.core_updCore]
  by_cases hu : u = t
  · subst hu
    rw [if_pos rfl]
    simp only [true_and]
    exact Mem.get_store (h.2 u) a b bs p
  · rw [if_neg hu, if_neg fun x => hu x.1]

end Sys2Proof.Machine

namespace Sys2Proof

open Sys2Proof.Machine

/-- Settles O8: a store's bytes by what memory holds after one; a write at its home by its outcomes (it lies in the host window, loses, or
wins and brings its line under its key); poison by granules. -/
theorem storesChangeOnlyTheirBytes : Obligations.StoresChangeOnlyTheirBytes := by
  unfold Obligations.StoresChangeOnlyTheirBytes
  refine ⟨fun s t a bs p h => ⟨rfl, fun u b => get_spadStore h t u a b bs p⟩, fun s p now h hl => ?_,
    fun m a bs g hb => ⟨Mem.contains_store_poisoned m a hb g, Mem.contains_store_clean m a bs g⟩⟩
  extract_lets loses s1 u t
  obtain ⟨jobs, hj⟩ := s.markStamp_eq p
  refine ⟨fun hw => ?_, fun hw hr b => ?_, fun c => ?_, fun hr => ?_⟩
  case refine_1 =>
    have e : t = s1.note p true := applyWrite_loses hw
    have hs : s1 = { s with jobs } := hj
    clear_value t s1
    subst hs
    rw [e]
    exact ⟨rfl, rfl, rfl, rfl⟩
  case refine_2 =>
    cases hh : isHost p.addr with
    | true =>
      have hu : u = s1 := if_pos hh
      rw [hu]
      exact plain_applyWrite_host h hh b
    | false =>
      have hu : u = s1.touch ⟨p.addr, 0, p.key, p.nc⟩ true := if_neg (by simp [hh])
      rw [hu] at hr ⊢
      exact plain_applyWrite h hl hw hr hh b
  case refine_3 =>
    rw [State.core, State.core, show t.cores = s.cores from cores_applyWrite]
  case refine_4 =>
    have hs : s1.mem = s.mem ∧ s1.seals = s.seals := by simp only [s1, hj, and_self]
    rw [← hs.1, ← hs.2]
    unfold u
    split
    · exact ⟨rfl, rfl⟩
    · exact (State.linesLeft_touch (unreserved_markStamp hr) _ _).cells

end Sys2Proof
end

section
/-! PROOFS. Requests about records, policies, invalidation, keys and deterministic reservations (R52, R375 to R377, R387, R464): what each
answers by its checks, which `serve_of_good` turns into the step. -/

namespace Sys2Proof.Machine

section
variable {s : State} {b : Block} {j : Job} {u : RecordUpdate} {bad : List Bool}

/-! Checks by body word. -/

theorem firstBad_eq_none_of_false (h : ∀ x ∈ bad, x = false) : firstBad bad = none :=
  List.findIdx?_eq_none_iff.2 h

theorem checkWords_of_bad {w : Nat} {x : Answer} (h : firstBad bad = some w) : checkWords bad x = .refused w := by
  rw [checkWords, h]

theorem checkWords_of_good {x : Answer} (h : firstBad bad = none) : checkWords bad x = x := by
  rw [checkWords, h]

theorem checkUpdate_of_bad {w : Nat} {x : Option Answer} (h : firstBad bad = some w) : checkUpdate bad x = some (.refused w) := by
  rw [checkUpdate, h]

theorem checkUpdate_of_good {x : Option Answer} (h : firstBad bad = none) : checkUpdate bad x = x := by
  rw [checkUpdate, h]

/-! Updates of a job's records and policies (R377). -/

theorem State.no_of_job? {no : Word} (h : s.job? no = some j) : j.no = no := by
  simpa using List.find?_some h

theorem recordUpdate_of_running (h : (s.launches.any fun l => l.job == j.no) = true) :
    recordUpdate s j u = some (.done (s.updJob j.no fun j => { j with deferred := j.deferred ++ [u] }) 2) :=
  if_pos h

theorem recordUpdate_of_held (h : (s.launches.any fun l => l.job == j.no) = false)
    (hh : updateHeld s j u ≠ none ∨ derailleursReady s = false) : recordUpdate s j u = none := by
  refine (if_neg (ne_true_of_eq_false h)).trans (if_pos ?_)
  simpa [Option.isSome_iff_ne_none] using hh

theorem recordUpdate_of_free (h : (s.launches.any fun l => l.job == j.no) = false) (hh : updateHeld s j u = none)
    (hr : derailleursReady s = true) :
    recordUpdate s j u =
      some (.done (joinAll (([0, 1, 2, 3] : List (Fin 4)).foldl State.raiseEpoch (applyUpdate s j.no u))) 1) := by
  refine (if_neg (ne_true_of_eq_false h)).trans (if_neg ?_)
  simp [hh, hr]

/-- The job that the first body word of an update names. -/
def updateJob (b : Block) : Word := BitVec.ofNat 32 (bits (b.word 0) 63 32)

/-- What RECORD-CREATE answers. -/
def recordCreateAnswer (s : State) (b : Block) : Option Answer :=
  match s.job? (updateJob b) with
  | none => some (.refused 0)
  | some j =>
    checkUpdate ((updateKind b == 3 || bits (b.word 0) 29 24 != 0 || decide (bits (b.word 0) 23 0 ≥ j.rtsize)) :: imageBad s j b)
      (recordUpdate s j { kind := 0, index := bits (b.word 0) 23 0, image := b.bytes })

theorem exec_recordCreate (s : State) : exec .recordCreate s =
    serve 5 (fun b => updateKind b == 0 || updateKind b == 3) (fun b => if updateKind b = 3 then b.len else 264)
      recordCreateAnswer s := rfl

theorem recordCreateAnswer_of_noJob (h : s.job? (updateJob b) = none) : recordCreateAnswer s b = some (.refused 0) := by
  simp only [recordCreateAnswer, h]

/-- The reserved kind is REFUSED whatever else the request says. -/
theorem recordCreateAnswer_of_reserved (h : updateKind b = 3) : recordCreateAnswer s b = some (.refused 0) := by
  cases hj : s.job? (updateJob b) with
  | none => exact recordCreateAnswer_of_noJob hj
  | some j =>
    simp only [recordCreateAnswer, hj, h, beq_self_eq_true, Bool.true_or]
    exact checkUpdate_of_bad rfl

theorem recordCreateAnswer_of_job (hk : updateKind b = 0) (hj : s.job? (updateJob b) = some j) :
    recordCreateAnswer s b =
      checkUpdate ((bits (b.word 0) 29 24 != 0 || decide (bits (b.word 0) 23 0 ≥ j.rtsize)) :: imageBad s j b)
        (recordUpdate s j { kind := 0, index := bits (b.word 0) 23 0, image := b.bytes }) := by
  have kind : (updateKind b == 3) = false := by rw [hk]; rfl
  simp only [recordCreateAnswer, hj, kind, Bool.false_or]

/-- What RECORD-DELETE answers. -/
def recordDeleteAnswer (s : State) (b : Block) : Option Answer :=
  match s.job? (updateJob b) with
  | none => some (.refused 0)
  | some j =>
    checkUpdate [bits (b.word 0) 29 24 != 0 || decide (bits (b.word 0) 23 0 ≥ j.rtsize)]
      (recordUpdate s j { kind := 1, index := bits (b.word 0) 23 0, image := [] })

theorem exec_recordDelete (s : State) :
    exec .recordDelete s = serve 5 (fun b => updateKind b == 1) (fun _ => 8) recordDeleteAnswer s := rfl

theorem recordDeleteAnswer_of_noJob (h : s.job? (updateJob b) = none) : recordDeleteAnswer s b = some (.refused 0) := by
  simp only [recordDeleteAnswer, h]

theorem recordDeleteAnswer_of_beyond (hj : s.job? (updateJob b) = some j) (h : j.rtsize ≤ bits (b.word 0) 23 0) :
    recordDeleteAnswer s b = some (.refused 0) := by
  have beyond : decide (bits (b.word 0) 23 0 ≥ j.rtsize) = true := decide_eq_true h
  simp only [recordDeleteAnswer, hj, beyond, Bool.or_true]
  exact checkUpdate_of_bad rfl

theorem recordDeleteAnswer_of_job (hj : s.job? (updateJob b) = some j) (hz : bits (b.word 0) 29 24 = 0)
    (h : bits (b.word 0) 23 0 < j.rtsize) :
    recordDeleteAnswer s b = recordUpdate s j { kind := 1, index := bits (b.word 0) 23 0, image := [] } := by
  have within : decide (bits (b.word 0) 23 0 ≥ j.rtsize) = false := decide_eq_false (not_le.2 h)
  simp only [recordDeleteAnswer, hj, hz, within, bne_self_eq_false, Bool.or_self]
  exact checkUpdate_of_good rfl

/-- What POLICY-SET answers. -/
def policySetAnswer (s : State) (b : Block) : Option Answer :=
  match s.job? (updateJob b) with
  | none => some (.refused 0)
  | some j =>
    checkUpdate [bits (b.word 0) 23 0 != 0, bits (b.word 1) 63 24 != 0 || bits (b.word 1) 4 3 != 0, bits (b.word 2) 31 0 != 0]
      (recordUpdate s j { kind := 2, index := bits (b.word 0) 29 24, image := b.bytes })

theorem exec_policySet (s : State) :
    exec .policySet s = serve 5 (fun b => updateKind b == 2) (fun _ => 24) policySetAnswer s := rfl

theorem policySetAnswer_of_indexed (hj : s.job? (updateJob b) = some j) (h : bits (b.word 0) 23 0 ≠ 0) :
    policySetAnswer s b = some (.refused 0) := by
  simp only [policySetAnswer, hj, bne_iff_ne.2 h]
  exact checkUpdate_of_bad rfl

theorem policySetAnswer_of_job (hj : s.job? (updateJob b) = some j) (h0 : bits (b.word 0) 23 0 = 0)
    (h1 : bits (b.word 1) 63 24 = 0) (h2 : bits (b.word 1) 4 3 = 0) (h3 : bits (b.word 2) 31 0 = 0) :
    policySetAnswer s b = recordUpdate s j { kind := 2, index := bits (b.word 0) 29 24, image := b.bytes } := by
  simp only [policySetAnswer, hj, h0, h1, h2, h3, bne_self_eq_false, Bool.or_self]
  exact checkUpdate_of_good rfl

/-! INVALIDATE (R252, R464). -/

/-- What INVALIDATE answers. -/
def invalidateAnswer (s : State) (b : Block) : Answer :=
  checkWords [bits (b.word 0) 63 32 != 0 || (s.job? (BitVec.ofNat 32 (b.word 0))).isNone,
      b.word 1 % 65536 != 0 || decide (b.word 1 ≥ 2 ^ 56), b.word 2 % 65536 != 0 || decide (b.word 1 + b.word 2 > 2 ^ 56)]
    (.done (invalidate s (BitVec.ofNat 32 (b.word 0)) (b.word 1) (b.word 2)) 0)

theorem exec_invalidate (s : State) :
    exec .invalidate s = serve 6 (fun _ => true) (fun _ => 24) (fun s b => some (invalidateAnswer s b)) s := rfl

theorem invalidateAnswer_of_job (hlt : b.word 0 < 2 ^ 32) (hj : s.job? (BitVec.ofNat 32 (b.word 0)) = some j) :
    invalidateAnswer s b =
      checkWords [false, b.word 1 % 65536 != 0 || decide (b.word 1 ≥ 2 ^ 56),
          b.word 2 % 65536 != 0 || decide (b.word 1 + b.word 2 > 2 ^ 56)]
        (.done (invalidate s (BitVec.ofNat 32 (b.word 0)) (b.word 1) (b.word 2)) 0) := by
  have first : (bits (b.word 0) 63 32 != 0 || (s.job? (BitVec.ofNat 32 (b.word 0))).isNone) = false := by
    rw [bits_eq_zero_of_lt hlt, hj]
    rfl
  rw [invalidateAnswer, first]

theorem invalidateAnswer_of_badStart (hlt : b.word 0 < 2 ^ 32) (hj : s.job? (BitVec.ofNat 32 (b.word 0)) = some j)
    (h : b.word 1 % 65536 ≠ 0 ∨ 2 ^ 56 ≤ b.word 1) : invalidateAnswer s b = .refused 1 := by
  have start : (b.word 1 % 65536 != 0 || decide (b.word 1 ≥ 2 ^ 56)) = true := by simpa using h
  rw [invalidateAnswer_of_job hlt hj, start]
  exact checkWords_of_bad rfl

section
variable (h1 : b.word 1 % 65536 = 0) (h2 : b.word 1 < 2 ^ 56)
include h1 h2

theorem start_check_of_good : (b.word 1 % 65536 != 0 || decide (b.word 1 ≥ 2 ^ 56)) = false := by
  simp only [h1, bne_self_eq_false, Bool.false_or, decide_eq_false_iff_not]
  exact not_le.2 h2

theorem invalidateAnswer_of_badLength (hlt : b.word 0 < 2 ^ 32) (hj : s.job? (BitVec.ofNat 32 (b.word 0)) = some j)
    (h : b.word 2 % 65536 ≠ 0 ∨ 2 ^ 56 < b.word 1 + b.word 2) : invalidateAnswer s b = .refused 2 := by
  have length : (b.word 2 % 65536 != 0 || decide (b.word 1 + b.word 2 > 2 ^ 56)) = true := by simpa using h
  rw [invalidateAnswer_of_job hlt hj, start_check_of_good h1 h2, length]
  exact checkWords_of_bad rfl

theorem invalidateAnswer_of_good (hlt : b.word 0 < 2 ^ 32) (hj : s.job? (BitVec.ofNat 32 (b.word 0)) = some j)
    (h3 : b.word 2 % 65536 = 0) (h4 : b.word 1 + b.word 2 ≤ 2 ^ 56) :
    invalidateAnswer s b = .done (invalidate s (BitVec.ofNat 32 (b.word 0)) (b.word 1) (b.word 2)) 0 := by
  have length : (b.word 2 % 65536 != 0 || decide (b.word 1 + b.word 2 > 2 ^ 56)) = false := by
    simp only [h3, bne_self_eq_false, Bool.false_or, decide_eq_false_iff_not]
    exact not_lt.2 h4
  rw [invalidateAnswer_of_job hlt hj, start_check_of_good h1 h2, length]
  exact checkWords_of_good rfl

end

/-- A tile core that keeps no leaf and no text word of a range. -/
def TileCore.withoutRange (k : TileCore) (job : Word) (va n : Nat) : TileCore :=
  { k with tlb := k.tlb.filter (fun e => !e.meets job va n)
           text := k.text.filter fun e => !(e.job == job && decide (va ≤ e.va) && decide (e.va < va + n)) }

theorem core_invalidate (s : State) (job : Word) (va n : Nat) (t : Core) :
    (invalidate s job va n).core t = (s.core t).withoutRange job va n := by
  have cores : (invalidate s job va n).cores = (s.allCores fun k => k.withoutRange job va n).cores := rfl
  rw [State.core_of_cores cores, State.core_allCores]

theorem meets_of_mem_withoutRange {k : TileCore} {job : Word} {va n : Nat} {e : TlbEntry}
    (h : e ∈ (k.withoutRange job va n).tlb) : e.meets job va n = false := by
  simpa using (List.mem_filter.1 h).2

theorem outside_of_mem_withoutRange {k : TileCore} {job : Word} {va n : Nat} {e : TextEntry}
    (h : e ∈ (k.withoutRange job va n).text) (hj : e.job = job) : e.va < va ∨ va + n ≤ e.va := by
  have kept := (List.mem_filter.1 h).2
  simp only [hj, beq_self_eq_true, Bool.true_and, Bool.not_eq_true', Bool.and_eq_false_iff, decide_eq_false_iff_not] at kept
  omega

/-! LOAD-KEY (R257, R464). -/

/-- What LOAD-KEY answers. -/
def loadKeyAnswer (s : State) (b : Block) : Answer :=
  let slot := BitVec.ofNat 12 (b.word 0)
  checkWords [bits (b.word 0) 63 12 != 0]
    (if s.jobs.any fun j => j.key == slot then .busy
    else .done { dropKeyLines s slot with
      keys := (slot, BitVec.ofNat 512 (natOfBytes b.bytes)) :: s.keys.filter fun k => k.1 != slot } 0)

theorem exec_loadKey (s : State) :
    exec .loadKey s = serve 7 (fun _ => true) (fun _ => 72) (fun s b => some (loadKeyAnswer s b)) s := rfl

theorem slot_check_of_lt (h : b.word 0 < 2 ^ 12) : firstBad [bits (b.word 0) 63 12 != 0] = none := by
  rw [bits_eq_zero_of_lt h]
  rfl

theorem loadKeyAnswer_of_used (hlt : b.word 0 < 2 ^ 12) (h : ∃ j ∈ s.jobs, j.key = BitVec.ofNat 12 (b.word 0)) :
    loadKeyAnswer s b = .busy := by
  refine (checkWords_of_good (slot_check_of_lt hlt)).trans (if_pos ?_)
  simpa using h

theorem loadKeyAnswer_of_unused (hlt : b.word 0 < 2 ^ 12) (h : ∀ j ∈ s.jobs, j.key ≠ BitVec.ofNat 12 (b.word 0)) :
    loadKeyAnswer s b = .done { dropKeyLines s (BitVec.ofNat 12 (b.word 0)) with
      keys := (BitVec.ofNat 12 (b.word 0), BitVec.ofNat 512 (natOfBytes b.bytes)) ::
        s.keys.filter fun k => k.1 != BitVec.ofNat 12 (b.word 0) } 0 := by
  refine (checkWords_of_good (slot_check_of_lt hlt)).trans (if_neg ?_)
  simpa using h

/-! RESERVE-DET (R247, R256, R464). -/

/-- A die with its reservation's bases in the body of a request. -/
def Die.reservedBy (k : Die) (b : Block) (d : Fin 4) : Die :=
  { k with reserved := true, identity := b.word (3 * d.val), directory := b.word (3 * d.val + 1), merge := b.word (3 * d.val + 2) }

/-- Every die with its reservation's bases. -/
def reservedAll (s : State) (b : Block) : State := dieIds.foldl (fun s d => s.updDie d fun k => k.reservedBy b d) s

/-- The checks of a reservation's bases: each within its die. -/
def reserveBad (b : Block) : List Bool :=
  (List.range 12).map fun i =>
    decide (b.word i < i / 3 * Config.dieBytes) || decide (b.word i + reservedBytes.getD (i % 3) 0 > (i / 3 + 1) * Config.dieBytes)

/-- What RESERVE-DET answers. -/
def reserveDetAnswer (s : State) (b : Block) : Answer :=
  checkWords (reserveBad b) (if s.jobs.any fun j => j.det then .busy else .done (reservedAll s b) 0)

theorem exec_reserveDet (s : State) :
    exec .reserveDet s = serve 10 (fun _ => true) (fun _ => 96) (fun s b => some (reserveDetAnswer s b)) s := rfl

/-- Each base of the body lies, with what it reserves, within its die. -/
def ReserveFits (b : Block) : Prop :=
  ∀ i, i < 12 → i / 3 * 0x3000000000 ≤ b.word i ∧
    b.word i + [0x180000000, 0x10000000, 0x40000000].getD (i % 3) 0 ≤ (i / 3 + 1) * 0x3000000000

theorem reserve_check_of_fits (h : ReserveFits b) : firstBad (reserveBad b) = none := by
  refine firstBad_eq_none_of_false fun x hx => ?_
  obtain ⟨i, hi, rfl⟩ := List.mem_map.1 hx
  obtain ⟨hlo, hhi⟩ := h i (List.mem_range.1 hi)
  exact Bool.or_eq_false_iff.2 ⟨decide_eq_false (not_lt.2 hlo), decide_eq_false (not_lt.2 hhi)⟩

theorem reserveDetAnswer_of_det (hf : ReserveFits b) (h : ∃ j ∈ s.jobs, j.det = true) : reserveDetAnswer s b = .busy :=
  (checkWords_of_good (reserve_check_of_fits hf)).trans (if_pos (List.any_eq_true.2 h))

theorem reserveDetAnswer_of_free (hf : ReserveFits b) (h : ∀ j ∈ s.jobs, j.det = false) :
    reserveDetAnswer s b = .done (reservedAll s b) 0 := by
  refine (checkWords_of_good (reserve_check_of_fits hf)).trans (if_neg ?_)
  simpa using h

theorem die_reservedAll (s : State) (b : Block) (d : Fin 4) : (reservedAll s b).die d = (s.die d).reservedBy b d := by
  show ((((s.updDie 0 fun k => k.reservedBy b 0).updDie 1 fun k => k.reservedBy b 1).updDie 2 fun k => k.reservedBy b 2).updDie 3
    fun k => k.reservedBy b 3).die d = _
  match d with
  | 0 => simp
  | 1 => simp
  | 2 => simp
  | 3 => simp

/-! An answer that a request gets leaves the dies as they are (R463). -/

theorem dies_hostStore (s : State) (a : Nat) (bs : List Byte) : (hostStore s a bs).dies = s.dies := by
  have soiled : ∀ (ps : List (Nat × List Byte)) (t : State), (ps.foldl (fun s p => s.soil (p.1 / 128)) t).dies = t.dies := by
    intro ps
    induction ps with
    | nil => exact fun t => rfl
    | cons p ps ih => exact fun t => ih _
  exact soiled _ _

theorem dies_writeReply (s : State) (cpl : Nat) (seq : Word) (r : Reply) (reason result : Nat) :
    (writeReply s cpl seq r reason result).dies = s.dies := dies_hostStore _ _ _

theorem dies_dropReserved (l : List DWord) (s : State) : (dropReserved s l).dies = s.dies := by
  induction l generalizing s with
  | nil => rfl
  | cons a rest ih =>
    rw [dropReserved]
    dsimp only
    split
    · rfl
    · exact (ih _).trans (dies_writeReply _ _ _ _ _ _)

theorem die_finishRequest (s : State) (cpl : Nat) (seq : Word) (r : Reply) (reason result : Nat) (d : Fin 4) :
    (finishRequest s cpl seq r reason result).die d = s.die d := by
  have dies : (finishRequest s cpl seq r reason result).dies = s.dies :=
    (dies_dropReserved _ _).trans (dies_writeReply s cpl seq r reason result)
  rw [State.die, dies, State.die]

end

end Sys2Proof.Machine

namespace Sys2Proof

open Sys2Proof.Machine

/-- Settles O59: `serve_of_good`, and each request by what its words answer. -/
theorem recordAndKeyRequests : Obligations.RecordAndKeyRequests := by
  unfold Obligations.RecordAndKeyRequests
  intro s a rest hm hr b served answers no index kind running later
  have good {i : Instr} {code : Nat} {len : Block → Nat} {which : Block → Bool} {f : State → Block → Option Answer} {x : Option Answer}
      (hi : exec i s = serve code which len f s) (hc : b.code = code) (hok : b.ok = true) (hl : b.len = len b)
      (hk : knownCode code = true) (hw : which b = true) (hx : f s b = x) : exec i s = b.answered s x := by
    have head : AtHead s a rest code which := ⟨hm, hr, hk, hc, hw⟩
    exact hi.trans ((serve_of_good head hok hl).trans (congrArg (b.answered s) hx))
  have update {i : Instr} {u : RecordUpdate} {j : Job} (hj : s.job? no = some j)
      (run : exec i s = b.answered s (recordUpdate s j u)) : later i u := by
    have hno : j.no = no := State.no_of_job? hj
    have same {k : Job} (hk : s.job? no = some k) : k = j := Option.some.inj (hk.symm.trans hj)
    have idle (h : running = false) : (s.launches.any fun l => l.job == j.no) = false := by
      rw [hno]
      exact h
    refine ⟨fun h => ?_, fun k hk h hh hd => ?_, fun k hk h hh => ?_⟩
    · have busy : (s.launches.any fun l => l.job == j.no) = true := by
        rw [hno]
        exact h
      rw [recordUpdate_of_running busy, hno] at run
      exact run
    · rw [same hk] at hh
      rw [recordUpdate_of_free (idle h) hh hd, hno] at run
      exact run
    · rw [same hk] at hh
      rw [recordUpdate_of_held (idle h) hh] at run
      exact run
  refine ⟨fun ⟨hc, hok, hl⟩ hk => ?create, fun hc hok hk => ?reserved, fun ⟨hc, hok, hl⟩ hk => ?delete,
    fun ⟨hc, hok, hl⟩ hk j hj => ?policy, fun ⟨hc, hok, hl⟩ => ?invalidate, fun ⟨hc, hok, hl⟩ => ?key, fun ⟨hc, hok, hl⟩ => ?reserve⟩
  case create =>
    have kind0 : updateKind b = 0 := hk
    have which : (updateKind b == 0 || updateKind b == 3) = true := by rw [kind0]; rfl
    have len : b.len = if updateKind b = 3 then b.len else 264 := by rw [kind0]; exact hl
    have run {x : Option Answer} (hx : recordCreateAnswer s b = x) : exec .recordCreate s = b.answered s x :=
      good (exec_recordCreate s) hc hok len rfl which hx
    refine ⟨fun hj => run (recordCreateAnswer_of_noJob hj),
      fun j w hj hw => run ((recordCreateAnswer_of_job kind0 hj).trans (checkUpdate_of_bad hw)),
      fun j hj hw => update hj (run ((recordCreateAnswer_of_job kind0 hj).trans (checkUpdate_of_good hw)))⟩
  case reserved =>
    have kind3 : updateKind b = 3 := hk
    have which : (updateKind b == 0 || updateKind b == 3) = true := by rw [kind3]; rfl
    exact good (exec_recordCreate s) hc hok (if_pos kind3).symm rfl which (recordCreateAnswer_of_reserved kind3)
  case delete =>
    have run {x : Option Answer} (hx : recordDeleteAnswer s b = x) : exec .recordDelete s = b.answered s x :=
      good (exec_recordDelete s) hc hok hl rfl (beq_iff_eq.2 hk) hx
    exact ⟨fun hj => run (recordDeleteAnswer_of_noJob hj), fun j hj h => run (recordDeleteAnswer_of_beyond hj h),
      fun j hj hz h => update hj (run (recordDeleteAnswer_of_job hj hz h))⟩
  case policy =>
    have run {x : Option Answer} (hx : policySetAnswer s b = x) : exec .policySet s = b.answered s x :=
      good (exec_policySet s) hc hok hl rfl (beq_iff_eq.2 hk) hx
    exact ⟨fun h => run (policySetAnswer_of_indexed hj h),
      fun h0 h1 h2 h3 => update hj (run (policySetAnswer_of_job hj h0 h1 h2 h3))⟩
  case invalidate =>
    have run {x : Answer} (hx : invalidateAnswer s b = x) : exec .invalidate s = b.answered s (some x) :=
      good (exec_invalidate s) hc hok hl rfl rfl (congrArg some hx)
    refine ⟨fun j hlt hj h1 h2 h3 h4 => ?_, fun j hlt hj h => run (invalidateAnswer_of_badStart hlt hj h),
      fun j hlt hj h1 h2 h => run (invalidateAnswer_of_badLength h1 h2 hlt hj h)⟩
    intro s1
    refine ⟨run (invalidateAnswer_of_good h1 h2 hlt hj h3 h4), fun t => ?_⟩
    rw [core_invalidate]
    exact ⟨fun e he => meets_of_mem_withoutRange he, fun e he hje => outside_of_mem_withoutRange he hje⟩
  case key =>
    have run {x : Answer} (hx : loadKeyAnswer s b = x) : exec .loadKey s = b.answered s (some x) :=
      good (exec_loadKey s) hc hok hl rfl rfl (congrArg some hx)
    exact ⟨fun hlt h => run (loadKeyAnswer_of_used hlt h), fun hlt h => run (loadKeyAnswer_of_unused hlt h)⟩
  case reserve =>
    have run {x : Answer} (hx : reserveDetAnswer s b = x) : exec .reserveDet s = b.answered s (some x) :=
      good (exec_reserveDet s) hc hok hl rfl rfl (congrArg some hx)
    refine ⟨fun hf h => run (reserveDetAnswer_of_det hf h), fun hf h => ⟨_, run (reserveDetAnswer_of_free hf h), fun d => ?_⟩⟩
    rw [die_finishRequest, die_reservedAll]
    exact ⟨rfl, rfl, rfl, rfl⟩

end Sys2Proof
end

section
/-! PROOFS. The calendar (R243, R309, R419, R423, R426, R456, R468 to R470): drain leads, slot bodies, the findings of a slot's end, and the
ends of extensions. -/

namespace Sys2Proof.Machine

section
variable {s : State}

/-! The dies of a state, as a list. -/

theorem State.getD_dies (s : State) (d : Fin 4) : s.dies.toList.getD d.val Die.reset = s.die d := by
  rw [State.die, Vector.get_eq_getElem, List.getD_eq_getElem?_getD]
  simp

theorem Vector.get_tab {α : Type} {n : Nat} (f : Nat → α) (i : Fin n) : (tab n f).get i = f i.val :=
  Vector.getElem_tab f i.isLt

/-! Drain leads (R417, R420). -/

theorem exec_drainLeadStart_of_due (hh : s.card.hold = false) (hl : s.inLead = true) (hb : s.inBody = false) (ho : s.slot = .outside) :
    exec .drainLeadStart s = .next { s with slot := .lead } :=
  if_pos (by rw [hl, hb, ho, hh]; rfl)

theorem exec_drainLeadStart_of_early (hl : s.inLead = false) : exec .drainLeadStart s = .next s :=
  if_neg (by simp [hl])

/-! Slot bodies (R309, R419, R426, R468). -/

/-- The epochs that the dies hold. -/
def epochsOf (s : State) : VClock := tab 4 fun k => (s.dies.toList.getD k Die.reset).clock.toList.getD k 0

theorem get_epochsOf (s : State) (k : Fin 4) : (epochsOf s).get k = (s.die k).clock.get k := by
  rw [epochsOf, Vector.get_tab, State.getD_dies, Vector.get_eq_getElem, List.getD_eq_getElem?_getD]
  simp

/-- A die that has taken its readings in a slot body. -/
def Die.read (d : Die) (temp volt : Int) (noted : VClock) : Die := { d with temp, volt, noted }

/-- The state once the dies have taken their readings in a slot body. -/
def bodyBegun (s : State) (temps volts : List Int) : State :=
  { s with
    slot := .body
    dies := tab 4 fun k =>
      let d := s.dies.toList.getD k Die.reset
      d.read (temps.getD k 0) (volts.getD k 0) (if s.majorSlot then epochsOf s else d.noted)
    card := { s.card with hot := hotAfter s.card.hot temps } }

theorem die_bodyBegun (s : State) (temps volts : List Int) (d : Fin 4) :
    (bodyBegun s temps volts).die d =
      (s.die d).read (temps.getD d.val 0) (volts.getD d.val 0) (if s.majorSlot then epochsOf s else (s.die d).noted) := by
  rw [State.die, bodyBegun, Vector.get_tab]
  dsimp only
  rw [State.getD_dies]

theorem exec_slotBodyStart_of_hot {temps volts : List Int} (h : ∃ x ∈ temps, 115 ≤ x) : exec (.slotBodyStart temps volts) s = .next s := by
  have hot : (temps.any fun x => decide (x ≥ 115)) = true := by simpa using h
  exact if_pos (by rw [hot, Bool.or_true])

theorem exec_slotBodyStart_of_due {temps volts : List Int} (hh : s.card.hold = false) (ht : temps.length = 4) (hv : volts.length = 4)
    (hc : ∀ x ∈ temps, x < 115) (hb : s.inBody = true) (ho : s.slot ≠ .body) :
    exec (.slotBodyStart temps volts) s =
      .next (if s.majorSlot then fenceLinks (bodyBegun s temps volts) else bodyBegun s temps volts) := by
  have cool : (temps.any fun x => decide (x ≥ 115)) = false := by simpa using hc
  have out : (s.slot == .body) = false := by simpa using ho
  exact if_neg (by simp [hb, out, hh, ht, hv, cool])

/-- What a link's failure leaves of a slot body's readings. -/
structure BodyKept (s t : State) : Prop where
  slot : t.slot = s.slot
  psc : t.psc = s.psc
  mem : t.mem = s.mem
  hot : t.card.hot = s.card.hot
  readings : ∀ d : Fin 4, (t.die d).temp = (s.die d).temp ∧ (t.die d).volt = (s.die d).volt ∧ (t.die d).clock = (s.die d).clock ∧
    (t.die d).noted = (s.die d).noted

theorem BodyKept.refl (s : State) : BodyKept s s := ⟨rfl, rfl, rfl, rfl, fun _ => ⟨rfl, rfl, rfl, rfl⟩⟩

theorem BodyKept.trans {t u : State} (h : BodyKept s t) (k : BodyKept t u) : BodyKept s u where
  slot := k.slot.trans h.slot
  psc := k.psc.trans h.psc
  mem := k.mem.trans h.mem
  hot := k.hot.trans h.hot
  readings d := by
    obtain ⟨t1, v1, c1, n1⟩ := h.readings d
    obtain ⟨t2, v2, c2, n2⟩ := k.readings d
    exact ⟨t2.trans t1, v2.trans v1, c2.trans c1, n2.trans n1⟩

/-- A die with an event record more in its ring (R456). -/
def Die.logged (k : Die) (r : EventRec) : Die :=
  if k.events.length < 4096 then { k with events := k.events ++ [r] } else { k with events := k.events.drop 1 ++ [r], lost := k.lost + 1 }

theorem logEvent_eq (s : State) (d : Fin 4) (code : BitVec 8) (kind : BitVec 4) (unit : BitVec 16) (detail : Word) (tick : DWord) :
    logEvent s d code kind unit detail tick = s.updDie d fun k => k.logged ⟨tick, code, kind, unit, detail⟩ := rfl

theorem Die.events_logged (k : Die) (r : EventRec) :
    (k.logged r).events = (if k.events.length < 4096 then k.events else k.events.drop 1) ++ [r] := by
  unfold Die.logged
  split
  · rfl
  · rfl

theorem Die.readings_logged (k : Die) (r : EventRec) :
    (k.logged r).temp = k.temp ∧ (k.logged r).volt = k.volt ∧ (k.logged r).clock = k.clock ∧ (k.logged r).noted = k.noted := by
  unfold Die.logged
  split
  · exact ⟨rfl, rfl, rfl, rfl⟩
  · exact ⟨rfl, rfl, rfl, rfl⟩

theorem bodyKept_logEvent (s : State) (d : Fin 4) (code : BitVec 8) (kind : BitVec 4) (unit : BitVec 16) (detail : Word)
    (tick : DWord) : BodyKept s (logEvent s d code kind unit detail tick) where
  slot := rfl
  psc := rfl
  mem := rfl
  hot := rfl
  readings e := by
    rw [logEvent_eq, State.die_updDie]
    split
    next same =>
      rw [same]
      exact Die.readings_logged _ _
    next => exact ⟨rfl, rfl, rfl, rfl⟩

/-- The card once a link of a kind has left service (R457). -/
def Card.lostLink (c : Card) (kind : BitVec 4) (u : Nat) : Card :=
  match kind.toNat with
  | 3 => { c with edges := c.edges &&& ~~~(BitVec.ofNat 4 (2 ^ u)) }
  | 4 => { c with ports := c.ports &&& ~~~(BitVec.ofNat 12 (2 ^ u)) }
  | _ => { c with fepel := false }

theorem card_linkDown (s : State) (kind : BitVec 4) (u detail : Nat) :
    (linkDown s kind u detail).card =
      { s.card.lostLink kind u with interrupts := .event 0x43 kind (BitVec.ofNat 16 u) :: (s.card.lostLink kind u).interrupts } := rfl

theorem Card.hot_lostLink (c : Card) (kind : BitVec 4) (u : Nat) : (c.lostLink kind u).hot = c.hot := by
  unfold Card.lostLink
  split
  · rfl
  · rfl
  · rfl

theorem Card.interrupts_lostLink (c : Card) (kind : BitVec 4) (u : Nat) : (c.lostLink kind u).interrupts = c.interrupts := by
  unfold Card.lostLink
  split
  · rfl
  · rfl
  · rfl

theorem bodyKept_linkDown (s : State) (kind : BitVec 4) (u detail : Nat) : BodyKept s (linkDown s kind u detail) where
  slot := rfl
  psc := rfl
  mem := rfl
  hot := Card.hot_lostLink s.card kind u
  readings := (bodyKept_logEvent s _ _ _ _ _ _).readings

theorem bodyKept_fenceLinks (s : State) : BodyKept s (fenceLinks s) := by
  unfold fenceLinks
  generalize s.lasting = l
  induction l generalizing s with
  | nil => exact BodyKept.refl s
  | cons x l ih =>
    refine BodyKept.trans ?_ (ih _)
    dsimp only
    split
    · exact bodyKept_linkDown _ _ _ _
    · split
      · exact bodyKept_linkDown _ _ _ _
      · exact BodyKept.refl s

/-- Whether the body is of a major slot or not, its readings stand. -/
theorem bodyKept_body (s : State) (temps volts : List Int) :
    BodyKept (bodyBegun s temps volts)
      (if s.majorSlot then fenceLinks (bodyBegun s temps volts) else bodyBegun s temps volts) := by
  split
  · exact bodyKept_fenceLinks _
  · exact BodyKept.refl _

/-! Slot ends (R243, R309, R419, R423, R468 to R470). -/

/-- The extensions of the unfinished actions begun, the slot over. -/
def slotOver (s : State) (sweep : Sweep) : State :=
  sweep.overruns.foldl (fun s x => beginExtension s x.1 x.2) { s with slot := .outside }

/-- A die whose clock has caught up after a major slot, with its reading. -/
def Die.caughtUp (d : Die) (temp : Int) : Die := { d with clock := d.clock.join d.noted, temp }

/-- What a sweep at the end of a major slot reports is possible. -/
def sweepOk (s : State) (w : Sweep) : Bool :=
  w.dieTemps.length == 4 && w.stackTemps.length == 12 && decide (16 ≤ w.duty.toNat) && decide (w.duty.toNat ≤ 64) &&
    (!hotAfter s.card.hot w.dieTemps || w.duty == 16) && w.scrubbed.all (scrubs s) && w.corrected.all (scrubs s) &&
    (w.dieTemps ++ w.stackTemps).all fun x => decide (x < 115)

/-- The state `u` once a major slot's sweep has been taken in. -/
def swept (u : State) (w : Sweep) (hot : Bool) : State :=
  { u with card := { reportSensors u (sensorBytes u w) with duty := w.duty, hot }
           scrub := (u.scrub + 2097152) % 68719476736
           dies := tab 4 fun k => (u.dies.toList.getD k Die.reset).caughtUp (w.dieTemps.getD k 0) }

/-- The findings of the scrub step stand. -/
def scrubFound (u : State) (w : Sweep) : State :=
  w.corrected.foldl (fun s g => correctedError s (homeDie (32 * g)) 2 (BitVec.ofNat 16 (pseudoChannel (32 * g))))
    (w.scrubbed.foldl (fun s g => memPoisoned s g false) u)

/-- The dies catch up one by one, whether their clocks are joined first or with the readings. -/
theorem caughtUp_dies (u : State) (temps : List Int) :
    (tab 4 fun k => { (u.dies.map fun d => { d with clock := d.clock.join d.noted }).toList.getD k Die.reset with temp := temps.getD k 0 } :
      Vector Die 4) = tab 4 fun k => (u.dies.toList.getD k Die.reset).caughtUp (temps.getD k 0) := by
  have reset : ({ Die.reset with clock := Die.reset.clock.join Die.reset.noted } : Die) = Die.reset := by decide
  refine congrArg (tab 4) (funext fun k => ?_)
  rw [Vector.toList_map, ← reset, List.getD_map, reset]
  rfl

theorem exec_slotEnd (w : Sweep) (s : State) :
    exec (.slotEnd w) s =
      if s.inBody || s.slot != .body || s.card.hold || !(w.overruns.all fun x => resourceOk x.1 x.2 (wasMajor s)) ||
          (wasMajor s && !sweepOk s w) then .next s
      else if !wasMajor s then .next (settle (publish (slotOver s w)))
      else .next (settle (publish (scrubFound (swept (slotOver s w) w (hotAfter s.card.hot w.dieTemps)) w))) := by
  rw [swept, ← caughtUp_dies]
  rfl

section
variable {w : Sweep} (hh : s.card.hold = false) (hb : s.inBody = false) (ho : s.slot = .body)
  (hr : ∀ x ∈ w.overruns, resourceOk x.1 x.2 (wasMajor s) = true)
include hh hb ho hr

theorem exec_slotEnd_of_minor (hm : wasMajor s = false) : exec (.slotEnd w) s = .next (settle (publish (slotOver s w))) := by
  rw [exec_slotEnd, hb, ho, hh, List.all_eq_true.2 hr, hm]
  rfl

theorem exec_slotEnd_of_major (hm : wasMajor s = true) (hw : sweepOk s w = true) :
    exec (.slotEnd w) s =
      .next (settle (publish (scrubFound (swept (slotOver s w) w (hotAfter s.card.hot w.dieTemps)) w))) := by
  rw [exec_slotEnd, hb, ho, hh, List.all_eq_true.2 hr, hm, hw]
  rfl

end

theorem sweepOk_of {w : Sweep} (h4 : w.dieTemps.length = 4) (h12 : w.stackTemps.length = 12) (hlo : 16 ≤ w.duty.toNat)
    (hhi : w.duty.toNat ≤ 64) (hhot : hotAfter s.card.hot w.dieTemps = true → w.duty = 16)
    (hcool : ∀ x ∈ w.dieTemps ++ w.stackTemps, x < 115) (hscrub : ∀ g, g ∈ w.scrubbed ∨ g ∈ w.corrected → scrubs s g = true) :
    sweepOk s w = true := by
  have throttled : (!hotAfter s.card.hot w.dieTemps || w.duty == 16) = true := by
    cases hot : hotAfter s.card.hot w.dieTemps with
    | false => rfl
    | true => rw [hhot hot]; rfl
  have scrubbed : w.scrubbed.all (scrubs s) = true := List.all_eq_true.2 fun g hg => hscrub g (.inl hg)
  have corrected : w.corrected.all (scrubs s) = true := List.all_eq_true.2 fun g hg => hscrub g (.inr hg)
  have cool : ((w.dieTemps ++ w.stackTemps).all fun x => decide (x < 115)) = true :=
    List.all_eq_true.2 fun x hx => decide_eq_true (hcool x hx)
  simp only [sweepOk, h4, h12, decide_eq_true hlo, decide_eq_true hhi, throttled, scrubbed, corrected, cool, beq_self_eq_true, Bool.and_self]

/-! The sensor block (R22, R470). -/

theorem reportSensors_of_up {bs : List Byte} (hf : s.card.fepel = true) (ha : ∀ d, s.leader = some d → (s.die d).alive = true)
    (hl : s.leader ≠ none) : reportSensors s bs = { s.card with sensors := bs, sensorsOld := s.card.sensors, sensorsAt := some s.psc } := by
  obtain ⟨d, hd⟩ := Option.ne_none_iff_exists'.1 hl
  simp only [reportSensors, hd, ha d hd, hf, Bool.and_self, if_true]

theorem reportSensors_of_down {bs : List Byte}
    (h : s.card.fepel = false ∨ s.leader = none ∨ ∃ d, s.leader = some d ∧ (s.die d).alive = false) :
    reportSensors s bs = s.card := by
  unfold reportSensors
  split
  next d hd =>
    refine if_neg ?_
    rcases h with h | h | ⟨e, he, h⟩
    · rw [h, Bool.and_false]
      decide
    · rw [h] at hd
      cases hd
    · rw [he] at hd
      cases hd
      rw [h, Bool.false_and]
      decide
  next => rfl

/-- The granules of a scrub step (R243). -/
theorem scrubs_iff (s : State) (g : Nat) :
    scrubs s g = true ↔ 32 * g < 824633720832 ∧ s.scrub ≤ stackOffset (32 * g) ∧ stackOffset (32 * g) < s.scrub + 2097152 ∧
      ∀ p ∈ s.pending, overlap p.addr p.bytes.length (32 * g) 32 = false := by
  simp only [scrubs, Bool.and_eq_true, decide_eq_true_eq, Bool.not_eq_true', List.any_eq_false, Bool.not_eq_true, and_assoc]
  rfl

/-! Extensions (R423, R456). -/

/-- The state once an extension that has lasted since its slot's end is over. -/
def extensionOver (s : State) (x : BitVec 4 × BitVec 16 × Nat) : State :=
  { s with extensions := s.extensions.erase x, ovlast := s.psc, ovcnt := if s.ovcnt = 0xFFFFFFFF then s.ovcnt else s.ovcnt + 1 }

theorem exec_extensionEnd_of_found {kind : BitVec 4} {unit : BitVec 16} {x : BitVec 4 × BitVec 16 × Nat}
    (h : s.extensions.find? (fun y => y.1 == kind && y.2.1 == unit) = some x) :
    exec (.extensionEnd kind unit) s =
      .next (settle (publish (countWindow (signalHost
        (logEvent (extensionOver s x) (extensionOver s x).leaderDie 0x41 kind unit (BitVec.ofNat 32 x.2.2)
          (slotStartBefore s (s.psc.toNat - x.2.2))) (.event 0x41 kind unit)) 9 kind unit))) := by
  show execExtensionEnd kind unit s = _
  simp only [execExtensionEnd, h]
  rfl

theorem events_logEvent (s : State) (d : Fin 4) (code : BitVec 8) (kind : BitVec 4) (unit : BitVec 16) (detail : Word) (tick : DWord) :
    ((logEvent s d code kind unit detail tick).die d).events =
      (if (s.die d).events.length < 4096 then (s.die d).events else (s.die d).events.drop 1) ++ [⟨tick, code, kind, unit, detail⟩] := by
  rw [logEvent_eq, State.die_updDie, if_pos rfl, Die.events_logged]

end

end Sys2Proof.Machine
end

section
/-! PROOFS. Error windows and links (R444, R456 to R458), and the calendar with them: O55. -/

namespace Sys2Proof.Machine

section
variable {s : State} {kind : BitVec 4} {unit : BitVec 16}

/-! Error windows (R444, R457). -/

theorem exec_errorWindowReset_of_due (hh : s.card.hold = false) (hp : s.psc.toNat % Config.windowPeriod = 0) (hw : s.windowAt ≠ s.psc) :
    exec .errorWindowReset s = .next (resetWindows s) :=
  if_pos (by rw [hp, bne_iff_ne.2 hw, hh]; rfl)

theorem exec_errorWindowReset_of_made (hw : s.windowAt = s.psc) : exec .errorWindowReset s = .next s :=
  if_neg (by simp [hw])

theorem exec_errorWindowReset_of_inside (hp : s.psc.toNat % Config.windowPeriod ≠ 0) : exec .errorWindowReset s = .next s :=
  if_neg (by simp [hp])

/-- The state whose windows begin again, lasting sources apart, without a summary. -/
def windowsBegun (s : State) : State :=
  { s with windows := s.windows.filter (fun x => s.lasting.contains (x.1, x.2.1)), lastWindow := openWindows s, windowAt := s.psc }

/-- The counts of corrected errors in the open windows. -/
def correctedCounts (s : State) : List (Nat × Nat × Nat) := (openWindows s).filter fun x => x.1 == 0 || x.1 == 2 || x.1 == 4

theorem resetWindows_eq (s : State) :
    resetWindows s = if (correctedCounts s).isEmpty then windowsBegun s else signalHost (windowsBegun s) (.summary (correctedCounts s)) := rfl

theorem resetWindows_of_none (h : correctedCounts s = []) : resetWindows s = windowsBegun s := by
  rw [resetWindows_eq, h]
  rfl

theorem resetWindows_of_some (h : correctedCounts s ≠ []) :
    resetWindows s = signalHost (windowsBegun s) (.summary (correctedCounts s)) := by
  rw [resetWindows_eq]
  exact if_neg (by simpa using h)

/-- A period's first tick lies among the `dt` ticks after `a`, that of `a` itself left out, where their quotients differ. -/
theorem exists_multiple_iff (a dt p : Nat) (hp : 0 < p) : (∃ k, 0 < k ∧ k < dt ∧ (a + k) % p = 0) ↔ a / p < (a + dt - 1) / p := by
  constructor
  · rintro ⟨k, hpos, hlt, hz⟩
    obtain ⟨q, hq⟩ := Nat.dvd_of_mod_eq_zero hz
    have below : a / p < q := by
      rw [Nat.div_lt_iff_lt_mul hp, Nat.mul_comm]
      omega
    have above : q ≤ (a + dt - 1) / p := by
      rw [Nat.le_div_iff_mul_le hp, Nat.mul_comm]
      omega
    exact below.trans_le above
  · intro h
    have above : (a / p + 1) * p ≤ a + dt - 1 := (Nat.le_div_iff_mul_le hp).1 h
    have below : a < (a / p + 1) * p := by
      rw [← Nat.div_lt_iff_lt_mul hp]
      exact Nat.lt_succ_self _
    refine ⟨(a / p + 1) * p - a, by omega, by omega, ?_⟩
    rw [Nat.add_sub_cancel' below.le, Nat.mul_mod_left]

theorem resetDue_iff (s : State) (dt : Nat) :
    resetDue s dt = true ↔ ∃ k, k < dt ∧ (s.psc.toNat + k) % Config.windowPeriod = 0 ∧ (k = 0 → s.windowAt ≠ s.psc) := by
  have later := exists_multiple_iff s.psc.toNat dt Config.windowPeriod (by decide)
  simp only [resetDue, Bool.or_eq_true, Bool.and_eq_true, beq_iff_eq, bne_iff_ne, decide_eq_true_eq, gt_iff_lt, ← later]
  constructor
  · rintro (⟨⟨hz, hw⟩, hpos⟩ | ⟨k, hpos, hlt, hz⟩)
    · exact ⟨0, hpos, hz, fun _ => hw⟩
    · exact ⟨k, hlt, hz, fun h0 => absurd h0 hpos.ne'⟩
  · rintro ⟨k, hlt, hz, hw⟩
    rcases Nat.eq_zero_or_pos k with rfl | hpos
    · exact .inl ⟨⟨hz, hw rfl⟩, hlt⟩
    · exact .inr ⟨k, hpos, hlt, hz⟩

theorem windows_passTicks (s : State) (dt : Nat) :
    (passTicks s dt).windows = (if resetDue s dt then resetWindows s else s).windows := rfl

theorem windows_passTicks_of_due {dt : Nat} (h : resetDue s dt = true) : (passTicks s dt).windows = (resetWindows s).windows := by
  rw [windows_passTicks, if_pos h]

theorem windows_passTicks_of_early {dt : Nat} (h : resetDue s dt = false) : (passTicks s dt).windows = s.windows := by
  rw [windows_passTicks, if_neg (ne_true_of_eq_false h)]

/-! Links (R457, R458). -/

theorem exec_flitRetried_edge (hu : unit.toNat < 4) : exec (.flitRetried 3 unit) s = .next (countWindow s 6 3 unit) := if_pos hu

theorem exec_flitRetried_port (hu : unit.toNat < 12) : exec (.flitRetried 4 unit) s = .next (countWindow s 7 4 unit) := if_pos hu

theorem exec_flitRetried_fepel (hu : unit = 0) : exec (.flitRetried 5 unit) s = .next (countWindow s 8 5 unit) := if_pos hu

/-- A link of the package is in service. -/
def linkUp (s : State) (kind : BitVec 4) (u : Nat) : Bool :=
  match kind.toNat with
  | 3 => decide (u < 4) && s.card.edges.getLsbD u
  | 4 => decide (u < 12) && s.card.ports.getLsbD u
  | 5 => u == 0 && s.card.fepel
  | _ => false

theorem exec_linkFailure_of_up (h : linkUp s kind unit.toNat = true) :
    exec (.linkFailure kind unit) s = .next (linkDown s kind unit.toNat 2) := if_pos h

theorem interrupts_linkDown (s : State) (kind : BitVec 4) (unit : BitVec 16) (detail : Nat) :
    (linkDown s kind unit.toNat detail).card.interrupts = .event 0x43 kind unit :: s.card.interrupts := by
  rw [card_linkDown]
  dsimp only
  rw [Card.interrupts_lostLink, BitVec.ofNat_toNat, BitVec.setWidth_eq]

section
variable {port : BitVec 4} {skew : Nat} (h7 : s.card.stage = 7) (hp : port.toNat < 12) (hdown : s.card.ports.getLsbD port.toNat = false)
  (hl : s.lasting.contains (7, port.toNat) = false)
include h7 hp hdown hl

theorem exec_linkTrained_of_free :
    exec (.linkTrained port skew) s =
      if skew > 4 then .next (linkDown s 4 port.toNat 0)
      else .next { s with card := { s.card with ports := s.card.ports ||| BitVec.ofNat 12 (2 ^ port.toNat) } } := by
  have within : decide (port.toNat ≥ 12) = false := decide_eq_false (not_le.2 hp)
  exact if_neg (by rw [h7, within, hdown, hl]; decide)

end

end

end Sys2Proof.Machine

namespace Sys2Proof

open Sys2Proof.Machine

/-- Settles O55: the calendar's events by their guards and what they leave, then windows and links. -/
theorem calendarAndLinks : Obligations.CalendarAndLinks := by
  unfold Obligations.CalendarAndLinks
  refine ⟨fun s hh => ⟨fun hl hb ho => exec_drainLeadStart_of_due hh hl hb ho, fun hl => exec_drainLeadStart_of_early hl,
      fun temps volts h => exec_slotBodyStart_of_hot h, fun temps volts ht hv hc hb ho => ?body, fun sweep hb ho hr => ?slotEnd,
      fun bs => ⟨fun hf ha hl => reportSensors_of_up hf ha hl, fun h => reportSensors_of_down h⟩, fun g => scrubs_iff s g,
      fun kind unit x hx => exec_extensionEnd_of_found hx, fun d code kind unit detail tick => events_logEvent s d code kind unit detail tick⟩,
    fun s kind unit => ⟨⟨fun hh hp hw => exec_errorWindowReset_of_due hh hp hw, resetWindows_of_none, resetWindows_of_some⟩,
      exec_errorWindowReset_of_made, resetDue_iff s, fun dt => ⟨rfl, windows_passTicks_of_due, windows_passTicks_of_early⟩,
      exec_errorWindowReset_of_inside, ?flitEdge, ?flitPort, ?flitFepel, ?failEdge, ?failPort, ?failFepel, ?trained⟩⟩
  case body =>
    have kept := bodyKept_body s temps volts
    refine ⟨_, exec_slotBodyStart_of_due hh ht hv hc hb ho, kept.slot, kept.psc, kept.mem, kept.hot, fun d => ?_⟩
    obtain ⟨htemp, hvolt, hclock, hnoted⟩ := kept.readings d
    rw [die_bodyBegun] at htemp hvolt hclock hnoted
    refine ⟨htemp, hvolt, hclock, fun minor => hnoted.trans (if_neg (ne_true_of_eq_false minor)), fun major k => ?_⟩
    have epochs := hnoted.trans (if_pos major)
    rw [epochs]
    exact get_epochsOf s k
  case slotEnd =>
    exact ⟨fun hm => exec_slotEnd_of_minor hh hb ho hr hm, fun hm h4 h12 hlo hhi hhot hcool hscrub =>
      exec_slotEnd_of_major hh hb ho hr hm (sweepOk_of h4 h12 hlo hhi hhot hcool hscrub)⟩
  case flitEdge =>
    rintro rfl hu
    exact exec_flitRetried_edge hu
  case flitPort =>
    rintro rfl hu
    exact exec_flitRetried_port hu
  case flitFepel =>
    rintro rfl hu
    exact exec_flitRetried_fepel hu
  case failEdge =>
    rintro rfl hu up
    have inService : linkUp s 3 unit.toNat = true := by
      show (decide (unit.toNat < 4) && s.card.edges.getLsbD unit.toNat) = true
      rw [decide_eq_true hu, up]
      rfl
    exact ⟨_, exec_linkFailure_of_up inService, rfl, interrupts_linkDown s 3 unit 2⟩
  case failPort =>
    rintro rfl hu up
    have inService : linkUp s 4 unit.toNat = true := by
      show (decide (unit.toNat < 12) && s.card.ports.getLsbD unit.toNat) = true
      rw [decide_eq_true hu, up]
      rfl
    exact ⟨_, exec_linkFailure_of_up inService, rfl, interrupts_linkDown s 4 unit 2⟩
  case failFepel =>
    rintro rfl rfl up
    have inService : linkUp s 5 (0 : BitVec 16).toNat = true := up
    exact ⟨_, exec_linkFailure_of_up inService, rfl, interrupts_linkDown s 5 0 2⟩
  case trained =>
    intro port skew h7 hp hdown hl
    have run := exec_linkTrained_of_free (skew := skew) h7 hp hdown hl
    exact ⟨fun h => run.trans (if_neg (not_lt.2 h)), fun h => run.trans (if_pos h)⟩

end Sys2Proof
end

section
/-! PROOFS. Copies and permutes (R278, R279, R280, R293, R296, R309): what lets the word through and what it issues, and each end of a run
of a command's units. -/

namespace Sys2Proof.Machine

/-! The word (R278, R279). -/

/-- What a copy of `x` to `y` must meet besides a free slot: a permute stays in scratchpad, both ranges are legal, and STRICT refuses a
request that is not local in a drain lead or slot; one of no bytes meets it always (log 55). -/
def copyGate (permute : Bool) (src dst : Shape) (x y : Nat) (s : State) (mode : BitVec 1) : Except Halt Unit :=
  if src.count = 0 then .ok ()
  else do
    need (!(permute && (!isLocal x || !isLocal y))) .protection
    checkTraversal src x 1
    checkTraversal dst y 1
    if !isLocal x || !isLocal y then strictGate s mode else .ok ()

/-- The state once the word has made its release, which covers `v`: the command is queued, or, where there are no bytes, its semaphore is
raised. -/
def copyIssued (permute : Bool) (src dst : Shape) (x y : Nat) (sc : BitVec 5) (e : BitVec 1) (t : Core) (s : State) (v : View) : State :=
  if src.count = 0 then (if e = 1 then signalSem s t (!permute) sc v else s)
  else s.updStrand t fun q =>
    { q with seq := q.seq + 1
             asyncs := q.asyncs ++ [{ permute, src := x, dst := y, srcShape := src, dstShape := dst, sem := if e = 1 then some sc else none,
                                      seq := q.seq, clock := (s.die (dieOf t)).clock, view := v }] }

theorem need_true (c : FaultCode) : need true c = .ok () := rfl

/-- A semaphore code where the word names a semaphore (R279). -/
theorem sem_of_imp {e : BitVec 1} {sc : Code} (h : e = 0 → sc = 0) : (e == 1 || sc == 0) = true := by
  have bit : e = 0 ∨ e = 1 := by clear h; revert e; decide
  rcases bit with rfl | rfl
  · rw [h rfl]; rfl
  · rfl

section
variable {s : State} {t : Core} {st st1 st2 : Strand} {d a b sc : Code} {e : BitVec 1} {x y : PWord} {permute : Bool} {src dst : Shape}

section
variable (hb : b.toNat < 16) (even : b.toNat % 2 = 0) (ha : srcA st a = .ok (x, st1)) (hd : srcA st1 d = .ok (y, st2))
  (hsem : e = 0 → sc = 0) (hsrc : st.shapes.get ⟨b.toNat, hb⟩ = src)
  (hdst : st.shapes.get ⟨(b.toNat + 1) % 16, Nat.mod_lt _ (by decide)⟩ = dst)
  (unitSrc : src.st 0 = 1) (unitDst : dst.st 0 = 1) (same : src.count = dst.count) (small : src.count ≤ 2 ^ 36)
include hb even ha hd hsem hsrc hdst unitSrc unitDst same small

theorem copyOp_of_full (full : (if permute then 4 else 16) ≤ (st.asyncs.filter fun c => c.permute == permute).length) :
    copyOp permute d a b sc e s t st = .error (.wait .copySlot) := by
  have sem : (e == 1 || sc == 0) = true := sem_of_imp hsem
  subst hsrc hdst
  simp only [copyOp, needSrcA_of_srcA ha, needSrcA_of_srcA hd, role16_of_lt hb, even, sem, unitSrc, unitDst, ← same, small, full,
    need, bind, Except.bind, if_true, beq_self_eq_true, Bool.and_self, decide_true, await]

theorem copyOp_of_room (cleanX : x.poison = false) (cleanY : y.poison = false)
    (room : (st.asyncs.filter fun c => c.permute == permute).length < (if permute then 4 else 16)) :
    copyOp permute d a b sc e s t st = (copyGate permute src dst x.val.toNat y.val.toNat s st.a.slotmode).bind fun _ =>
      (release (s.setStrand t st2) t .a (if permute then .die else .package)).map fun r =>
        copyIssued permute src dst x.val.toNat y.val.toNat sc e t r.1 r.2 := by
  have sem : (e == 1 || sc == 0) = true := sem_of_imp hsem
  subst hsrc hdst
  simp only [copyOp, needSrcA_of_srcA ha, needSrcA_of_srcA hd, role16_of_lt hb, even, sem, unitSrc, unitDst, ← same, small,
    Nat.not_le.mpr room, ha, hd, clean_of_clean cleanX, clean_of_clean cleanY, need_true, bind, Except.bind, beq_self_eq_true,
    Bool.and_self, decide_true, if_false, copyGate, copyIssued]
  by_cases h0 : (st.shapes.get ⟨b.toNat, hb⟩).count = 0
  · simp only [h0, ne_eq, not_true, if_false, if_true]
    cases release _ t .a _ <;> rfl
  · simp only [h0, ne_eq, not_false_iff, if_false, if_true]
    cases need _ .protection with
    | error h => rfl
    | ok _ =>
    cases checkTraversal (st.shapes.get ⟨b.toNat, hb⟩) x.val.toNat 1 with
    | error h => rfl
    | ok _ =>
    cases checkTraversal _ y.val.toNat 1 with
    | error h => rfl
    | ok _ =>
    cases (!isLocal x.val.toNat || !isLocal y.val.toNat)
    · cases release _ t .a _ <;> rfl
    · cases strictGate s st.a.slotmode with
      | error h => rfl
      | ok _ => cases release _ t .a _ <;> rfl

end

/-! What the gate answers. -/

theorem remote_of_outside {x y : Nat} (outside : ¬(isLocal x = true ∧ isLocal y = true)) : (!isLocal x || !isLocal y) = true := by
  rw [← Bool.not_and, Bool.not_eq_true', ← Bool.not_eq_true, Bool.and_eq_true]
  exact outside

theorem copyGate_of_protected {x y : Nat} {mode : BitVec 1} (some : src.count ≠ 0) (outside : ¬(isLocal x = true ∧ isLocal y = true)) :
    copyGate true src dst x y s mode = .error (.fault .protection) := by
  simp only [copyGate, if_neg some, remote_of_outside outside, need, bind, Except.bind]
  rfl

theorem copyGate_of_virtual {x y : Nat} {mode : BitVec 1} (some : src.count ≠ 0) (outside : ¬(isLocal x = true ∧ isLocal y = true))
    (legalX : checkTraversal src x 1 = .ok ()) (legalY : checkTraversal dst y 1 = .ok ()) :
    copyGate false src dst x y s mode = strictGate s mode := by
  simp only [copyGate, if_neg some, remote_of_outside outside, need, legalX, legalY, bind, Except.bind]
  rfl

theorem copyGate_of_inside {x y : Nat} {mode : BitVec 1} (inside : isLocal x = true ∧ isLocal y = true)
    (legalX : checkTraversal src x 1 = .ok ()) (legalY : checkTraversal dst y 1 = .ok ()) :
    copyGate permute src dst x y s mode = .ok () := by
  have here : (!isLocal x || !isLocal y) = false := by rw [inside.1, inside.2]; rfl
  simp only [copyGate, here, Bool.and_false, Bool.not_false, need_true, legalX, legalY, bind, Except.bind]
  exact ite_self _

theorem copyGate_of_may {x y : Nat} (space : src.count = 0 ∨ (isLocal x = true ∧ isLocal y = true) ∨ permute = false)
    (calm : src.count = 0 ∨ (isLocal x = true ∧ isLocal y = true) ∨ s.slotNow = false ∨ st.a.slotmode = 0)
    (legal : src.count ≠ 0 → checkTraversal src x 1 = .ok () ∧ checkTraversal dst y 1 = .ok ()) :
    copyGate permute src dst x y s st.a.slotmode = .ok () := by
  by_cases h0 : src.count = 0
  · exact if_pos h0
  obtain ⟨legalX, legalY⟩ := legal h0
  by_cases inside : isLocal x = true ∧ isLocal y = true
  · exact copyGate_of_inside inside legalX legalY
  obtain rfl := (space.resolve_left h0).resolve_left inside
  rw [copyGate_of_virtual h0 inside legalX legalY]
  refine strictGate_of_free ?_
  rcases (calm.resolve_left h0).resolve_left inside with h | h <;> rw [h]
  · rfl
  · exact Bool.and_false _

end

/-! The command (R279, R280, R293). -/

/-- The state in which the command has left its slot. -/
def slotFreed (s : State) (t : Core) (slot : Nat) : State := s.updStrand t fun q => { q with asyncs := q.asyncs.eraseIdx slot }

/-- The command stays in its slot and is not held: what it has copied since, if anything, is kept. -/
def copyStays (s s1 : State) (t : Core) (slot : Nat) (x y : Async) : Out :=
  if y.done = x.done then .next s else .next (putCopy s1 t slot { y with held := false })

/-- The slot's completion event runs the units of the command in it. -/
theorem exec_completion (x : Async) (t : Core) (slot : Nat) (s : State) :
    exec (if x.permute then .permuteComplete t slot else .copyEngineComplete t slot) s = copyComplete x.permute t slot s := by
  cases x.permute <;> rfl

section
variable {s s1 : State} {t : Core} {slot : Nat} {st : Strand} {x y : Async} {h : Option Halt} (present : copyAt s t slot = some (st, x))
  (run : copyUnits t st (x.units.zipIdx.map fun u => (u.2, u.1)) x s = (s1, y, h))
include present run

theorem copyComplete_of_fault {c : FaultCode} (hf : h = some (.fault c)) :
    copyComplete x.permute t slot s = .next (commandFault (slotFreed s1 t slot) t 1 c) := by
  subst hf
  simp only [copyComplete, present, bne_self_eq_false, Bool.false_eq_true, if_false, run]
  rfl

theorem copyComplete_of_held {a : Nat} (hw : h = some (.wait (.held a))) : copyComplete x.permute t slot s =
    if x.held = true ∧ y.done = x.done then .next s
    else .next ((putCopy (if x.held = false ∧ s.slotNow = true then s1.updStrand t (·.count 9 1) else s1) t slot
      { y with held := true }).hold (.part t x.part) (dieOf t) a) := by
  subst hw
  simp only [copyComplete, present, bne_self_eq_false, Bool.false_eq_true, if_false, run, notDue]
  cases x.held <;> cases s.slotNow <;> simp

theorem copyComplete_of_wait {w : Wait} (hw : h = some (.wait w)) (free : ∀ a, w ≠ .held a) :
    copyComplete x.permute t slot s = copyStays s s1 t slot x y := by
  subst hw
  simp only [copyComplete, present, bne_self_eq_false, Bool.false_eq_true, if_false, run, notDue, beq_iff_eq, copyStays]

theorem copyComplete_of_silent (hn : h = none) (silent : x.sem = none ∨ st.dead54 = true) :
    copyComplete x.permute t slot s = .next (slotFreed s1 t slot) := by
  subst hn
  simp only [copyComplete, present, bne_self_eq_false, Bool.false_eq_true, if_false, run]
  rcases silent with none | dead
  · simp only [none]; rfl
  · cases x.sem <;> simp only [dead, if_true] <;> rfl

/-- A command whose bytes are all there, with a semaphore, of a launch that has not faulted (R279, R309, R312). -/
theorem copyComplete_of_signal {n : BitVec 5} (hn : h = none) (sem : x.sem = some n) (alive : st.dead54 = false) :
    copyComplete x.permute t slot s =
      if s1.coversHeld (s1.covers (st.agent t x.part) y.view) = true ∨ (x.permute = false ∧ s1.canRaise (dieOf t) = false)
      then copyStays s s1 t slot x y
      else .next (signalSem (slotFreed s1 t slot) t (!x.permute) n (s1.covers (st.agent t x.part) y.view)) := by
  subst hn
  simp only [copyComplete, present, bne_self_eq_false, Bool.false_eq_true, if_false, run, sem, alive, notDue, beq_iff_eq, copyStays,
    Bool.or_eq_true, Bool.and_eq_true, Bool.not_eq_true']
  rfl

end

/-- A unit no byte of which lies in the source range is read as it stands, and written at once (R280). -/
theorem copyOne_of_apart {s s1 s2 : State} {t : Core} {st : Strand} {x : Async} {u : List (Nat × Nat)} {v v1 : View}
    {bs : List (Byte × Bool)}
    (apart : ∀ p ∈ u, p.1 < (byteAddrs x.srcShape x.src).foldl min ((byteAddrs x.srcShape x.src).headD 0) ∨
      (byteAddrs x.srcShape x.src).foldl max 0 < p.1)
    (read : copyRead t st x (u.map Prod.snd) s v = .ok (s1, v1, bs))
    (wrote : partRuns s1 t st x.part (unitRuns ((u.map Prod.fst).zip bs)) (some (st.wid (if x.permute then 1 else 6) x.seq)) = .ok s2) :
    copyOne t st x u s v = .ok (s2, v1) := by
  have outside : (u.all fun p => decide (p.1 < (byteAddrs x.srcShape x.src).foldl min ((byteAddrs x.srcShape x.src).headD 0)) ||
      decide ((byteAddrs x.srcShape x.src).foldl max 0 < p.1)) = true := by simpa using apart
  simp only [copyOne, outside, if_true, read, wrote, bind, Except.bind]

end Sys2Proof.Machine

namespace Sys2Proof

open Sys2Proof.Machine

/-- Settles O30: the word by its slot, its gate and its release; the command by what ends the run of its units. -/
theorem copiesIssueAndComplete : Obligations.CopiesIssueAndComplete := by
  unfold Obligations.CopiesIssueAndComplete
  refine ⟨fun s s1 st st1 st2 d a b sc e x y permute hb hr even ha hd cleanX cleanY hsem => ?word,
    fun s s1 tile slot st x y present => ?command⟩
  case word =>
    intro i src dst busy inside unitSrc unitDst same small from_ scope may
    have hi : exec i s = checkedWord .a 1 (copyOp permute d a b sc e) s := by cases permute <;> rfl
    have full := copyOp_of_full (s := s) (t := s.focusTile) (permute := permute) hb even ha hd hsem rfl rfl unitSrc unitDst same small
    have roomy := copyOp_of_room (s := s) (t := s.focusTile) (permute := permute) hb even ha hd hsem rfl rfl unitSrc unitDst same small
      cleanX cleanY
    refine ⟨fun h => hi.trans (checkedWord_wait hr (full h)), fun room => ⟨fun moves outside hp => ?outOfReach,
      fun moves outside hp legalX legalY slot strict => ?strict, fun w allowed rel => ?waits,
      fun v allowed rel => ⟨fun nothing => ?empty, fun moves => ?issued⟩⟩⟩
    case outOfReach =>
      refine hi.trans (checkedWord_fault hr ((roomy room).trans ?_))
      subst hp
      rw [copyGate_of_protected moves outside]
      rfl
    case strict =>
      refine hi.trans (checkedWord_fault hr ((roomy room).trans ?_))
      subst hp
      rw [copyGate_of_virtual moves outside legalX legalY, strictGate, slot, strict]
      rfl
    case waits =>
      obtain ⟨reach, free, legal⟩ := allowed
      refine hi.trans (checkedWord_wait hr ((roomy room).trans ?_))
      rw [copyGate_of_may reach free legal, Except.bind, rel]
      rfl
    case empty =>
      obtain ⟨reach, free, legal⟩ := allowed
      refine hi.trans (checkedWord_ok hr ((roomy room).trans ?_))
      rw [copyGate_of_may reach free legal, Except.bind, rel]
      exact congrArg Except.ok (if_pos nothing)
    case issued =>
      obtain ⟨reach, free, legal⟩ := allowed
      refine hi.trans (checkedWord_ok hr ((roomy room).trans ?_))
      rw [copyGate_of_may reach free legal, Except.bind, rel]
      exact congrArg Except.ok (if_neg moves)
  case command =>
    intro i gone put ran holds part
    have hi : exec i s = copyComplete x.permute tile slot s := exec_completion x tile slot s
    have stays (w : exec i s = copyStays s s1 tile slot x y) :
        (y.done = x.done → exec i s = .next s) ∧ (y.done ≠ x.done → completes (exec i s) (put s1 { y with held := false })) :=
      ⟨fun h => w.trans (if_pos h), fun h => w.trans (if_neg h)⟩
    refine ⟨rfl, fun c run => hi.trans (copyComplete_of_fault present run rfl), fun a run => ?held,
      fun w free run => stays (hi.trans (copyComplete_of_wait present run rfl free)),
      fun run => ⟨fun silent => hi.trans (copyComplete_of_silent present run rfl silent), fun n sem alive => ?signal⟩,
      fun u v v1 bs apart read s2 wrote => copyOne_of_apart apart read wrote,
      fun u hu => exists_unit_of_mem_gatherUnits hu⟩
    case held =>
      have ended := hi.trans (copyComplete_of_held present run rfl)
      refine ⟨fun hx same => ended.trans (if_pos ⟨hx, same⟩), fun hx moved => ended.trans ?_, fun hx => ended.trans ?_⟩
      · rw [if_neg fun both => moved both.2, if_neg (by simp [hx])]
        rfl
      · rw [if_neg (by simp [hx])]
        simp only [hx, true_and]
        rfl
    case signal =>
      have ended := hi.trans (copyComplete_of_signal present run rfl sem alive)
      refine ⟨fun free may => ended.trans (if_neg ?_), fun blocked => stays (ended.trans (if_pos blocked))⟩
      rintro (covered | ⟨copy, early⟩)
      · exact Bool.false_ne_true (free.symm.trans covered)
      · exact may.elim (fun h => Bool.false_ne_true (copy.symm.trans h)) fun h => Bool.false_ne_true (early.symm.trans h)

end Sys2Proof
end

section
/-! PROOFS. The access engine's words on elements of scratchpad (R237, R262, R281, R282, R284, R285, R299, R421). -/

namespace Sys2Proof.Machine

/-! What a word of the access engine keeps while it is under way is gone once it passes. -/

section
variable {s : State} {t : Core} {st : Strand} {e : Eng} {me : Agent} {us : List Applied} {l l' : Latch} {n n' : Nat}

/-- The strand of a word of the access engine under way. -/
def Strand.kept (st : Strand) (l : Latch) (n : Nat) : Strand := { st with a := { st.a with latch := some l, progress := n } }

@[simp] theorem State.updStrand_updStrand (s : State) (t : Core) (f g : Strand → Strand) :
    (s.updStrand t f).updStrand t g = s.updStrand t (g ∘ f) := by
  simp only [State.updStrand, State.updCore, State.core_setCore, if_true, Option.map_map]
  simp only [State.setCore, Vector.set_set]

theorem strand_keepA (h : s.strand t = some st) (l : Latch) (n : Nat) : (keepA s t l n).strand t = some (st.kept l n) := by
  rw [keepA, State.strand_updStrand, if_pos rfl, h]
  rfl

theorem keepA_keepA (s : State) (t : Core) (l l' : Latch) (n n' : Nat) : keepA (keepA s t l n) t l' n' = keepA s t l' n' :=
  State.updStrand_updStrand s t _ _

theorem keepA_setStrand (s : State) (t : Core) (st : Strand) (l : Latch) (n : Nat) :
    keepA (s.setStrand t st) t l n = s.setStrand t (st.kept l n) := by
  rw [keepA, State.updStrand_of_strand (q := st) (by simp), State.setStrand_setStrand]
  rfl

theorem setStrand_keepA (h : s.strand t = some st) (q : Strand) (l : Latch) (n : Nat) :
    (keepA s t l n).setStrand t q = s.setStrand t q := by
  rw [keepA, State.updStrand_of_strand h, State.setStrand_setStrand]

@[simp] theorem focusTile_keepA (s : State) (t : Core) (l : Latch) (n : Nat) : (keepA s t l n).focusTile = s.focusTile := rfl

theorem passWord_keepA (s : State) (t : Core) (l : Latch) (n len : Nat) : passWord (keepA s t l n) t .a len = passWord s t .a len :=
  State.updStrand_updStrand s t _ _

/-! Reads of scratchpad by the access engine (R299), and what they leave of its latch. -/

theorem Engine.read_kept (g : Engine) (me : Agent) (us : List Applied) (o : Option Latch) (n : Nat) :
    ({ g with latch := o, progress := n } : Engine).read me us = { g.read me us with latch := o, progress := n } := by
  induction us generalizing g with
  | nil => rfl
  | cons u us ih => exact ih (g.read me [u])

theorem Engine.rels_read (g : Engine) (me : Agent) (us : List Applied) : (g.read me us).sig.rels = g.sig.rels := by
  induction us generalizing g with
  | nil => rfl
  | cons u us ih =>
    refine (ih _).trans ?_
    dsimp only
    split
    · rfl
    · split <;> rfl

/-- The strand of an engine once a read has returned (R304, R305). -/
def Strand.hasRead (st : Strand) (e : Eng) (me : Agent) (k : Look) : Strand := st.updEng e fun g => g.read me k.from_

/-- The state in which a free value that chose has been spent. -/
def State.spent (s : State) (drew : Bool) : State := if drew then { s with draws := s.draws + 1 } else s

@[simp] theorem State.core_spent (s : State) (b : Bool) (t : Core) : (s.spent b).core t = s.core t := by cases b <;> rfl

@[simp] theorem State.strand_spent (s : State) (b : Bool) (t : Core) : (s.spent b).strand t = s.strand t := by cases b <;> rfl

theorem State.spent_setStrand (s : State) (t : Core) (st : Strand) (b : Bool) :
    (s.setStrand t st).spent b = (s.spent b).setStrand t st := by cases b <;> rfl

theorem State.looked_of_strand (h : s.strand t = some st) (e : Eng) (k : Look) :
    s.looked t e k = (s.spent k.drew).setStrand t (st.hasRead e (st.agent t e.part) k) :=
  State.updStrand_of_strand (s := s.spent k.drew) (by rw [State.strand_spent, h]) _

theorem State.strand_looked (h : s.strand t = some st) (e : Eng) (k : Look) :
    (s.looked t e k).strand t = some (st.hasRead e (st.agent t e.part) k) := by
  rw [State.looked_of_strand h, State.strand_setStrand, if_pos rfl]

theorem Strand.hasRead_kept (st : Strand) (me : Agent) (k : Look) (l : Latch) (n : Nat) :
    (st.kept l n).hasRead .a me k = (st.hasRead .a me k).kept l n :=
  congrArg (fun g => { st with a := g }) (Engine.read_kept st.a me k.from_ (some l) n)

theorem looked_keepA (h : s.strand t = some st) (k : Look) (l : Latch) (n : Nat) :
    (keepA s t l n).looked t .a k = keepA (s.looked t .a k) t l n := by
  rw [State.looked_of_strand (strand_keepA h l n), State.looked_of_strand h, keepA_setStrand, keepA, State.updStrand_of_strand h,
    State.spent_setStrand, State.setStrand_setStrand]
  exact congrArg (State.setStrand _ t) (st.hasRead_kept _ k l n)

theorem State.core_setStrand (s : State) (t : Core) (st : Strand) : (s.setStrand t st).core t = { s.core t with strand := some st } :=
  (State.core_updCore s t t _).trans (if_pos rfl)

/-- What an engine of a strand reads of scratchpad (R299). -/
def spadLook (s : State) (t : Core) (st : Strand) (e : Eng) (a n : Nat) : Look :=
  look (s.core t).spad (s.core t).spad.get (s.core t).past (st.agent t e.part) (st.eng e).view (Config.freeValue s.draws) a n

theorem spadRead_of_strand (h : s.strand t = some st) (e : Eng) (a z : Nat) : spadRead s t e a z =
    ((s.looked t e (spadLook s t st e a z)).beat t, (spadLook s t st e a z).bytes, (spadLook s t st e a z).poison) := by
  have here : (s.core t).strand = some st := h
  simp only [spadRead, here]
  rfl

theorem spadRead_keepA (h : s.strand t = some st) (a z : Nat) (l : Latch) (n : Nat) :
    spadRead (keepA s t l n) t .a a z = (keepA (spadRead s t .a a z).1 t l n, (spadRead s t .a a z).2) := by
  have same : spadLook (keepA s t l n) t (st.kept l n) .a a z = spadLook s t st .a a z := by
    rw [spadLook, keepA, State.updStrand_of_strand h, State.core_setStrand]
    rfl
  rw [spadRead_of_strand (strand_keepA h l n), spadRead_of_strand h, same, looked_keepA h]
  rw [State.beat, keepA, State.updStrand_updStrand, State.beat, keepA, State.updStrand_updStrand]
  rfl

/-- The bytes of a read are as many as it asks for. -/
theorem length_spadRead (s : State) (t : Core) (e : Eng) (a z : Nat) : (spadRead s t e a z).2.1.length = z := by
  unfold spadRead
  dsimp only
  split <;> simp [Mem.bytes, look]

/-! Stores to scratchpad by the strand's own engine (R299). -/

theorem State.updCore_updCore (s : State) (t : Core) (f g : TileCore → TileCore) :
    (s.updCore t f).updCore t g = s.updCore t (g ∘ f) := by
  simp only [State.updCore, State.core_setCore, if_true]
  simp only [State.setCore, Vector.set_set, Function.comp_apply]

/-- A tile core once one of its agents has stored bytes to its scratchpad, as write number `id`, the `at_`-th to be applied. -/
def TileCore.stored (id at_ : Nat) (me : Agent) (c : Carried) (a : Nat) (bs : List (Byte × Bool)) (k : TileCore) : TileCore :=
  { k with
    strand := k.strand.map fun q => { q with splits := q.splits + 1 }
    past := k.spad.noted k.spad.get id at_ me VClock.zero c a bs :: k.past
    spad := k.spad.storeRun a bs }

/-- One write more. -/
def State.wrote (s : State) : State := { s with writes := s.writes + 1, applied := s.applied + 1 }

theorem State.spadRun_eq (s : State) (me : Agent) (c : Carried) (a : Nat) (bs : List (Byte × Bool)) :
    s.spadRun me c a bs = (s.updCore me.core (TileCore.stored s.writes s.applied me c a bs)).wrote := by
  simp only [State.spadRun, State.spadRuns, State.beat, State.updStrand, State.updCore_updCore]
  rfl

/-- A tile core with a word of the access engine under way. -/
def TileCore.kept (l : Latch) (n : Nat) (k : TileCore) : TileCore := { k with strand := k.strand.map (·.kept l n) }

theorem spadRun_keepA (hm : me.core = t) (c : Carried) (a : Nat) (bs : List (Byte × Bool)) (l : Latch) (n : Nat) :
    (keepA s t l n).spadRun me c a bs = keepA (s.spadRun me c a bs) t l n := by
  subst hm
  rw [State.spadRun_eq, State.spadRun_eq]
  show ((s.updCore me.core (TileCore.kept l n)).updCore me.core (TileCore.stored s.writes s.applied me c a bs)).wrote =
    ((s.updCore me.core (TileCore.stored s.writes s.applied me c a bs)).updCore me.core (TileCore.kept l n)).wrote
  rw [State.updCore_updCore, State.updCore_updCore]
  refine congrArg (fun f => (s.updCore me.core f).wrote) (funext fun k => ?_)
  cases hk : k.strand <;> simp only [Function.comp_apply, TileCore.stored, TileCore.kept, hk] <;> rfl

theorem strand_spadRun (c : Carried) (a : Nat) (bs : List (Byte × Bool)) :
    (s.spadRun me c a bs).strand me.core = (s.strand me.core).map fun q => { q with splits := q.splits + 1 } := by
  show ((s.updCore me.core _).beat me.core).strand me.core = _
  rw [State.beat, State.strand_updStrand, if_pos rfl]
  simp [State.strand]

theorem isLocal_of_lt {n : Nat} (h : n < Config.spadBytes) : isLocal n = true := decide_eq_true h

/-! A read of the newest bytes (R282, R284). -/

theorem wholeTake_zero (us : List Applied) : wholeTake 0 us = [] := by
  cases us <;> simp [wholeTake]

/-- It misses no write, so that it finds memory as it stands. -/
theorem lookNow_finds (m : Mem) (past : List Applied) (me : Agent) (a z : Nat) :
    (lookNow m m.get past me a z).bytes = m.bytes a z ∧ (lookNow m m.get past me a z).poison = m.poisoned a z := by
  have first (us : List Applied) : wholeTake ((0 : BitVec 64).toNat % 2 ^ 32 % (us.length + 1)) us = [] := by
    simpa using wholeTake_zero us
  have later (us : List Applied) : wholeTake ((0 : BitVec 64).toNat / 2 ^ 32 % (us.length + 1)) us = [] := by
    simpa using wholeTake_zero us
  constructor
  · simp only [lookNow, look, first, List.foldl_nil]
    rfl
  · simp only [lookNow, look, first, later, ite_self, List.any_nil, List.filter_false, List.nil_append]
    exact List.any_congr rfl fun _ => rfl

end

/-! A computation that goes on, or has ended: rewriting steps of their own, so that the kernel need not evaluate what follows. -/

theorem ok_bind {ε α β : Type} (v : α) (f : α → Except ε β) : (Except.ok v >>= f) = f v := (rfl)

theorem error_bind {ε α β : Type} (h : ε) (f : α → Except ε β) : (Except.error h >>= f) = .error h := (rfl)

/-! Operands of gathers and scatters: one entry of C2A, and elements in scratchpad (R281, R282). -/

section
variable {s : State} {t : Core} {st st1 : Strand} {a : Code} {x : PWord} {k : Queued PWord} {rest : List (Queued PWord)} {b e z : Nat}

/-- The strand whose access engine has popped the head of C2A. -/
def Strand.poppedC2a (st : Strand) (k : Queued PWord) (rest : List (Queued PWord)) : Strand := { st.took .a [k] with c2a := rest }

theorem Strand.agent_poppedC2a (st : Strand) (k : Queued PWord) (rest : List (Queued PWord)) :
    (st.poppedC2a k rest).agent = st.agent := rfl

theorem Strand.rels_poppedC2a (st : Strand) (k : Queued PWord) (rest : List (Queued PWord)) :
    (st.poppedC2a k rest).a.sig.rels = st.a.sig.rels := rfl

theorem Strand.poppedC2a_poppedC2a (st : Strand) (k v : Queued PWord) (rest more : List (Queued PWord)) :
    (st.poppedC2a k rest).poppedC2a v more = { (st.took .a [k]).took .a [v] with c2a := more } := rfl

theorem indexEntry_of_cons (h : st.c2a = k :: rest) :
    indexEntry st 24 = .ok ([k.val.val.setWidth 32], k.val.poison, st.poppedC2a k rest) := by
  have taken : ((24 : Code) == 25) = false := by decide
  have scalar : ¬((24 : Code) = 26 ∨ (24 : Code) = 27) := by decide
  simp only [indexEntry, if_neg scalar, taken, popC2a_of_cons h, bind, Except.bind, Bool.false_eq_true, if_false]
  rfl

theorem checkSpan_of_local {b lo hi : Int} (hb : 0 ≤ b ∧ b < Config.spadBytes) (h : 0 ≤ lo ∧ hi < Config.spadBytes) :
    checkSpan b lo hi = .ok () := by rw [checkSpan, if_pos hb, if_pos h]

theorem checkElements_of_inside (hb : b < Config.spadBytes) (aligned : e % z = 0) (fits : e + z ≤ Config.spadBytes) :
    checkElements b z [e] = .ok () := by
  have span : checkSpan b e (e + z - 1) = .ok () := checkSpan_of_local (by omega) (by omega)
  unfold checkElements
  rw [List.forM, span]
  simp only [List.forM, need, List.all_cons, List.all_nil, aligned, beq_self_eq_true, Bool.and_self, if_true]
  rfl

end

/-! AGTH of one element (R281). -/

section
variable {s s1 : State} {t : Core} {st q : Strand} {a : Code} {x : PWord} {k : Queued PWord} {rest : List (Queued PWord)}
  {sz : BitVec 2} {bs : List Byte} {p : Bool} {at_ : Nat}

theorem agthStart_of_entry (ha : srcA st a = .ok (x, st)) (hp : x.poison = false) (hx : x.val.toNat < Config.spadBytes)
    (hk : st.c2a = k :: rest) (clean : k.val.poison = false) (hat : x.val.toNat + (k.val.val.setWidth 32).toNat * 2 ^ sz.toNat = at_)
    (aligned : at_ % 2 ^ sz.toNat = 0) (fits : at_ + 2 ^ sz.toNat ≤ Config.spadBytes) :
    agthStart 28 a 24 sz s st = .ok (st.poppedC2a k rest, { addr := x, todo := [(at_, 2 ^ sz.toNat)] }) := by
  have inside : isLocal x.val.toNat = true := decide_eq_true hx
  have checked := checkElements_of_inside hx aligned fits
  subst hat
  unfold agthStart
  simp only [needSrcA_of_srcA ha, BitVec.reduceBEq, BitVec.reduceToNat, Nat.reduceBEq, Bool.or_true, Bool.or_false, Bool.false_eq_true,
    if_false, need_true, ok_bind, ha, indexEntry_of_cons hk, clean_of_clean hp]
  simp only [clean, List.map_cons, List.map_nil, checked, inside, ok_bind, Bool.false_eq_true, if_false, Nat.reduceLT, dif_neg,
    not_false_iff, Bool.not_true]

/-- A latch whose elements have all been read. -/
def Latch.filled (l : Latch) (bs : List (Byte × Bool)) : Latch := { l with buf := bs, todo := [] }

/-- The one element that a word is still to read, in scratchpad. -/
theorem readTodo_of_single {l : Latch} {m n z : Nat} (hs : s.strand t = some st) (todo : l.todo = [(at_, z)]) (unread : l.buf = [])
    (hat : isLocal at_ = true) (read : spadRead s t .a at_ z = (s1, bs, p)) (hq : s1.strand t = some q) :
    readTodo t (n + 2) (keepA s t l m) = .done (keepA s1 t (l.filled (bs.map fun b => (b, p))) 0) := by
  have unit : readUnit (keepA s t l m) t (st.kept l m) false ((at_ : Int), z) = .ok (keepA s1 t l m, bs.map fun b => (b, p)) := by
    simp only [readUnit, elemRead, Int.toNat_natCast, hat, if_true, spadRead_keepA hs, read]
  have latch : (st.kept l m).a.latch.getD {} = l := rfl
  have done : ((q.kept { l with buf := bs.map fun b => (b, p), todo := [] } 0).a.latch.getD {}).todo = [] := rfl
  simp only [readTodo, strand_keepA hs, latch, todo, unit, unread, List.nil_append, List.isEmpty_nil, Bool.not_true, Bool.and_false,
    Bool.false_eq_true, if_false, keepA_keepA, strand_keepA hq, done, Latch.filled]

theorem any_poison (h : bs ≠ []) (p : Bool) : (bs.map fun b => (b, p)).any Prod.snd = p := by
  obtain ⟨b, more, rfl⟩ := List.exists_cons_of_ne_nil h
  cases p
  · simp
  · rfl

/-- The strand with an entry more in A2C. -/
def Strand.pushedA2c (st : Strand) (v : PWord) : Strand := { st with a2c := st.a2c ++ [st.entry .a [] v] }

theorem pushA2c_of_fits {v : PWord} (h : st.c.ended = false) (room : st.a2c.length < 8) : pushA2c st [v] = .ok (st.pushedA2c v) := by
  simp only [pushA2c, pushN_of_fits (k := .c) (es := [v]) h room, bind, Except.bind]
  rfl

/-- A read by the access engine leaves its queues and their consumers. -/
theorem consumer_spadRead {z : Nat} (hs : s.strand t = some st) (read : spadRead s t .a at_ z = (s1, bs, p)) (hq : s1.strand t = some q)
    (live : st.c.ended = false) (room : st.a2c.length < 8) : q.c.ended = false ∧ q.a2c.length < 8 := by
  rw [spadRead_of_strand hs] at read
  cases read
  rw [State.beat, State.strand_updStrand, if_pos rfl, State.strand_looked hs] at hq
  cases hq
  exact ⟨live, room⟩

theorem agthOp_of_entry {st1 : Strand} {l : Latch} {z : Nat} (hl : st.a.latch = none) (start : agthStart 28 a 24 sz s st = .ok (st1, l))
    (todo : l.todo = [(at_, z)]) (unread : l.buf = []) (pos : 0 < z) (hat : isLocal at_ = true)
    (read : spadRead (s.setStrand t st1) t .a at_ z = (s1, bs, p)) (hq : s1.strand t = some q) (live : q.c.ended = false)
    (room : q.a2c.length < 8) : agthOp 28 a 24 sz s t st =
      .done (keepA (s1.setStrand t (q.pushedA2c ⟨BitVec.ofNat 64 (natOfBytes bs), p⟩)) t (l.filled (bs.map fun b => (b, p))) 0) := by
  have got := readTodo_of_single (s := s.setStrand t st1) (st := st1) (m := 0) (n := 63) (by simp) todo unread hat read hq
  have pushed := pushA2c_of_fits (st := q.kept (l.filled (bs.map fun b => (b, p))) 0)
    (v := ⟨BitVec.ofNat 64 (natOfBytes bs), p⟩) live room
  have length : bs.length = z := by rw [← length_spadRead (s.setStrand t st1) t .a at_ z, read]
  have poison := any_poison (bs := bs) (List.ne_nil_of_length_pos (length ▸ pos)) p
  have bytes : (bs.map fun b => (b, p)).map Prod.fst = bs := List.map_map.trans (List.map_id bs)
  have buf : ((q.kept (l.filled (bs.map fun b => (b, p))) 0).a.latch.getD {}).buf = bs.map fun b => (b, p) := rfl
  simp only [agthOp, hl, start, ok_bind, got, strand_keepA hq, Option.getD_some, buf, poison, bytes, pushed, BitVec.reduceToNat,
    Nat.reduceLT, dif_neg, not_false_iff, if_true]
  rw [setStrand_keepA hq, keepA_setStrand]
  rfl

end

/-! An element of scratchpad read and written in one step (R282, R284, R285). -/

/-- An element of scratchpad has been read as it stands, and its new bytes written by the agent that read it. -/
def State.exchanged (s : State) (t : Core) (me : Agent) (rels : Carried) (va n : Nat) (new : List Byte) (p : Bool) : State :=
  (s.looked t .a (lookNow (s.core t).spad (s.core t).spad.get (s.core t).past me va n)).spadWrite me rels va new p

section
variable {s : State} {t : Core} {st : Strand} {va n : Nat}

/-- An exchange by the strand's access engine, its releases carried. -/
def State.exchangedBy (s : State) (t : Core) (st : Strand) (va n : Nat) (new : List Byte) (p : Bool) : State :=
  s.exchanged t (st.agent t Eng.a.part) st.a.sig.rels va n new p

theorem exchangedBy_setStrand (s : State) (t : Core) (st : Strand) (va n : Nat) (new : List Byte) (p : Bool) :
    (s.setStrand t st).exchangedBy t st va n new p = ((s.setStrand t st).looked t .a (lookNow (s.core t).spad (s.core t).spad.get
      (s.core t).past (st.agent t Eng.a.part) va n)).spadWrite (st.agent t Eng.a.part) st.a.sig.rels va new p := by
  rw [State.exchangedBy, State.exchanged, State.core_setStrand]

theorem focusTile_exchangedBy (s : State) (t : Core) (st : Strand) (va n : Nat) (new : List Byte) (p : Bool) :
    (s.exchangedBy t st va n new p).focusTile = s.focusTile := s.focusTile_looked t .a _

theorem passed_exchangedBy (s : State) (t : Core) (q st : Strand) (va n : Nat) (new : List Byte) (p : Bool) :
    passWord ((s.setStrand s.focusTile q).exchangedBy t st va n new p) s.focusTile .a 1 =
      ((s.setStrand s.focusTile q).exchangedBy t st va n new p).passed .a 1 :=
  congrArg (passWord _ · .a 1) (focusTile_exchangedBy (s.setStrand s.focusTile q) t st va n new p).symm

theorem passed_updStrand_exchangedBy (s : State) (t : Core) (q st : Strand) (va n : Nat) (new : List Byte) (p : Bool)
    (f : Strand → Strand) :
    passWord (((s.setStrand s.focusTile q).exchangedBy t st va n new p).updStrand t f) s.focusTile .a 1 =
      (((s.setStrand s.focusTile q).exchangedBy t st va n new p).updStrand t f).passed .a 1 :=
  congrArg (passWord _ · .a 1) (focusTile_exchangedBy (s.setStrand s.focusTile q) t st va n new p).symm

theorem exists_strand_exchangedBy (hs : s.strand t = some st) (va n : Nat) (new : List Byte) (p : Bool) :
    ∃ q, (s.exchangedBy t st va n new p).strand t = some q := by
  have stored := strand_spadRun (s := s.looked t .a (lookNow (s.core t).spad (s.core t).spad.get (s.core t).past
    (st.agent t Eng.a.part) va n)) (me := st.agent t Eng.a.part) st.a.sig.rels va (new.map fun b => (b, p))
  exact ⟨_, stored.trans (congrArg (Option.map _) (State.strand_looked hs .a _))⟩

theorem exchangedBy_keepA (hs : s.strand t = some st) (l : Latch) (m va n : Nat) (new : List Byte) (p : Bool) :
    (keepA s t l m).exchangedBy t (st.kept l m) va n new p = keepA (s.exchangedBy t st va n new p) t l m := by
  have core : (keepA s t l m).core t = { s.core t with strand := some (st.kept l m) } := by
    rw [keepA, State.updStrand_of_strand hs, State.core_setStrand]
    rfl
  rw [State.exchangedBy, State.exchanged, core, looked_keepA hs]
  have stored := spadRun_keepA (s := s.looked t .a (lookNow (s.core t).spad (s.core t).spad.get (s.core t).past
    (st.agent t Eng.a.part) va n)) (me := st.agent t Eng.a.part) rfl st.a.sig.rels va (new.map fun b => (b, p)) l m
  exact stored

/-- One indivisible read-modify-write of scratchpad, by a word of the strand as it stood at the word's start. -/
theorem rmw_of_local {st0 : Strand} (hs : s.strand t = some st) (hat : isLocal va = true) (same : st0.agent t = st.agent t)
    (merging : Bool) (f : List Byte → Bool → List Byte × Bool) :
    let old := (s.core t).spad.bytes va n
    let p := (s.core t).spad.poisoned va n
    rmw s t st0 va n merging f = .ok (s.exchangedBy t st va n (f old p).1 (f old p).2, old, p) := by
  obtain ⟨bytes, poison⟩ := lookNow_finds (s.core t).spad (s.core t).past (st.agent t Eng.a.part) va n
  have rels (k : Look) : (((s.looked t .a k).strand t).getD st0).a.sig.rels = st.a.sig.rels := by
    rw [State.strand_looked hs]
    exact Engine.rels_read st.a _ _
  simp only [rmw, hat, if_true, same, bytes, poison, rels]
  rfl

end

/-! ASCA and AATM of one element (R282, R284). -/

section
variable {s : State} {t : Core} {st : Strand} {a d : Code} {x : PWord} {k v : Queued PWord} {rest more : List (Queued PWord)}
  {ty : BitVec 4} {o : BitVec 3} {at_ : Nat}

/-- The one contribution that a word is still to make, in scratchpad. -/
theorem applyTodo_of_single {l : Latch} {c op m n : Nat} (hs : s.strand t = some st) (todo : l.todo = [(at_, c)])
    (hat : isLocal at_ = true) : applyTodo t ty op false (n + 2) (keepA s t l m) =
      .done (keepA (s.exchangedBy t st at_ 4 (bytesOfNat 4 (combine ty op (natOfBytes ((s.core t).spad.bytes at_ 4)) c))
        ((s.core t).spad.poisoned at_ 4 || l.bad)) t { l with todo := [] } 0) := by
  have latch : (st.kept l m).a.latch.getD {} = l := rfl
  have made := rmw_of_local (n := 4) (st0 := st.kept l m) (strand_keepA hs l m) hat rfl true
    fun old p => (bytesOfNat 4 (combine ty op (natOfBytes old) c), p || l.bad)
  obtain ⟨q, hq⟩ := exists_strand_exchangedBy hs at_ 4
    (bytesOfNat 4 (combine ty op (natOfBytes ((s.core t).spad.bytes at_ 4)) c)) ((s.core t).spad.poisoned at_ 4 || l.bad)
  have spad : ((keepA s t l m).core t).spad = (s.core t).spad := State.spad_updStrand s t t _
  have done : ((q.kept { l with todo := [] } 0).a.latch.getD {}).todo = [] := rfl
  simp only [spad, exchangedBy_keepA hs] at made
  simp only [applyTodo, strand_keepA hs, latch, todo, made, Bool.false_eq_true, if_false, Except.map, keepA_keepA, strand_keepA hq, done]

theorem ascaStart_of_entries (ha : srcA st a = .ok (x, st)) (hp : x.poison = false) (hx : x.val.toNat < Config.spadBytes)
    (hk : st.c2a = k :: v :: more) (clean : k.val.poison = false) (hat : x.val.toNat + 4 * (k.val.val.setWidth 32).toNat = at_)
    (hty : ty = 2 ∨ ty = 6 ∨ ty = 8) (ho : o.toNat < 3) (aligned : at_ % 4 = 0) (fits : at_ + 4 ≤ Config.spadBytes) :
    ascaStart 24 a 24 ty o.toNat s st = .ok ((st.poppedC2a k (v :: more)).poppedC2a v more,
      { addr := x, todo := [(at_, (v.val.val.setWidth 32).toNat)], bad := v.val.poison }) := by
  have inside : isLocal x.val.toNat = true := decide_eq_true hx
  have checked := checkElements_of_inside hx aligned fits
  have known : (ty == 2 || ty == 6 || ty == 8) = true := by rcases hty with rfl | rfl | rfl <;> rfl
  have next := indexEntry_of_cons (st := st.poppedC2a k (v :: more)) rfl
  subst hat
  unfold ascaStart
  simp only [needSrcA_of_srcA ha, known, ho, decide_true, BitVec.reduceBEq, Bool.or_true, Bool.or_false, Bool.false_eq_true,
    if_false, need_true, ok_bind, ha, indexEntry_of_cons hk, next, clean_of_clean hp]
  simp only [clean, List.map_cons, List.map_nil, checked, inside, ok_bind, Bool.false_eq_true, if_false, Bool.not_true]
  rfl

theorem ascaOp_of_start {st1 : Strand} {l : Latch} {c : Nat} (hl : st.a.latch = none)
    (start : ascaStart 24 a 24 ty o.toNat s st = .ok (st1, l)) (todo : l.todo = [(at_, c)]) (hat : isLocal at_ = true)
    (haddr : isLocal l.addr.val.toNat = true) : ascaOp 24 a 24 ty o s t st =
      .done (keepA ((s.setStrand t st1).exchangedBy t st1 at_ 4
        (bytesOfNat 4 (combine ty o.toNat (natOfBytes ((s.core t).spad.bytes at_ 4)) c))
        ((s.core t).spad.poisoned at_ 4 || l.bad)) t { l with todo := [] } 0) := by
  have here : (s.setStrand t st1).strand t = some st1 := (State.strand_setStrand s t t _).trans (if_pos rfl)
  have spad : ((s.setStrand t st1).core t).spad = (s.core t).spad := State.spad_setStrand s t t _
  have made := applyTodo_of_single (ty := ty) (op := o.toNat) (m := 0) (n := 63) here todo hat
  rw [spad] at made
  simp only [ascaOp, hl, start, ok_bind, haddr, Bool.not_true, Bool.and_false, made]

/-- AATM that swaps nothing (R284). -/
theorem aatmOp_of_entry {z : Nat} {old new : List Byte} {p : Bool} (ha : srcA st a = .ok (x, st)) (hp : x.poison = false)
    (hd : d.toNat < 16) (hk : st.c2a = k :: rest) (clean : k.val.poison = false) (hty : ty = 2 ∨ ty = 6 ∨ ty = 3 ∨ ty = 7)
    (ho : o.toNat < 7) (hat : x.val.toNat = at_) (hz : intWidth ty / 8 = z) (aligned : at_ % z = 0) (fits : at_ + z ≤ Config.spadBytes)
    (hold : (s.core t).spad.bytes at_ z = old) (hbad : (s.core t).spad.poisoned at_ z = p)
    (hnew : bytesOfNat z (aatmNew ty o.toNat (intWidth ty) (natOfBytes old) (k.val.val.toNat % 2 ^ intWidth ty) 0) = new) :
    aatmOp d a 24 ty o s t st = .ok (((s.setStrand t (st.poppedC2a k rest)).exchangedBy t (st.poppedC2a k rest) at_ z new p).updStrand t
      fun q => q.setA ⟨d.toNat, hd⟩ ⟨extend ty (natOfBytes old), p⟩) := by
  have notFloat : ty ≠ 8 := by rcases hty with rfl | rfl | rfl | rfl <;> decide
  have float : (ty == 8) = false := beq_false_of_ne notFloat
  have known : (ty == 2 || ty == 6 || false || ty == 3 || ty == 7) = true := by rcases hty with rfl | rfl | rfl | rfl <;> rfl
  have wide : 1 ≤ z := by subst hz; rcases hty with rfl | rfl | rfl | rfl <;> decide
  have operand : srcA st 24 = .ok (k.val, st.poppedC2a k rest) := popC2a_of_cons hk false
  have noSwap : Machine.clean ({} : PWord) = .ok 0 := rfl
  have span : checkSpan at_ at_ (at_ + z - 1) = .ok () := checkSpan_of_local (by omega) (by omega)
  have inside : isLocal at_ = true := isLocal_of_lt (by omega)
  have multiple : (at_ % z == 0) = true := beq_iff_eq.mpr aligned
  have spad : ((s.setStrand t (st.poppedC2a k rest)).core t).spad = (s.core t).spad := State.spad_setStrand s t t _
  have here : (s.setStrand t (st.poppedC2a k rest)).strand t = some (st.poppedC2a k rest) :=
    (State.strand_setStrand s t t _).trans (if_pos rfl)
  have made := rmw_of_local (n := z) here inside (st0 := st) rfl (decide (o.toNat < 6) && ty != 8)
    fun old p => (bytesOfNat z (aatmNew ty o.toNat (intWidth ty) (natOfBytes old) (k.val.val.toNat % 2 ^ intWidth ty) 0), p)
  obtain ⟨q, hq⟩ := exists_strand_exchangedBy here at_ z new p
  simp only [spad, hold, hbad, hnew] at made
  unfold aatmOp
  simp only [needSrcA_of_srcA ha, needSrcA_of_srcA operand, hd, known, float, decide_true, Bool.true_or, Bool.false_and, Bool.not_false,
    need_true, ok_bind, if_neg notFloat, ha, operand, if_neg ho.ne, pure, Except.pure, clean_of_clean hp, clean_of_clean clean, hat, hz]
  simp only [noSwap, span, multiple, need_true, ok_bind, BitVec.reduceToNat, Nat.zero_mod, made, hq, Option.getD_some, dif_pos trivial]
  rw [State.updStrand_of_strand hq]

end

end Sys2Proof.Machine

namespace Sys2Proof
open Sys2Proof.Machine

/-- Settles O31: each word reads its operands, then its one element, and passes with what it kept while under way gone. -/
theorem gatherScatterAtomic : Obligations.GatherScatterAtomic := by
  unfold Obligations.GatherScatterAtomic
  rintro s s1 st a ha x k rest ⟨hs, slip⟩ hl hx hp local_ hk clean
  have operand : srcA st a = .ok (x, st) := by rw [srcA_of_register ha, hx]
  have ready : s.ready .a 1 st := ⟨hs, slip⟩
  intro spad me index after
  refine ⟨?_, ?_, ?_⟩
  · intro sz q bs p z at_ aligned fits live room read hq
    have inside : at_ < Config.spadBytes := (Nat.lt_add_of_pos_right (Nat.two_pow_pos _)).trans_le fits
    have same : s1.focusTile = s.focusTile := focusTile_of_spadRead (s := s.setStrand s.focusTile (st.poppedC2a k rest)) read
    have start := agthStart_of_entry (s := s) operand hp local_ hk clean rfl aligned fits
    obtain ⟨live, room⟩ := consumer_spadRead ((State.strand_setStrand s s.focusTile s.focusTile _).trans (if_pos rfl)) read hq live room
    have made := agthOp_of_entry (t := s.focusTile) hl start rfl rfl (Nat.two_pow_pos _) (isLocal_of_lt inside) read hq live room
    refine (machineWord_done ready made).trans ?_
    rw [passWord_keepA, ← same]
    rfl
  · intro ty o v more at_ more_ hty ho aligned fits
    subst more_
    have start := ascaStart_of_entries (s := s) operand hp local_ hk clean rfl hty ho aligned fits
    have made := ascaOp_of_start (t := s.focusTile) hl start rfl (isLocal_of_lt (by omega)) (isLocal_of_lt local_)
    refine (machineWord_done ready made).trans ?_
    rw [passWord_keepA, passed_exchangedBy, exchangedBy_setStrand, Strand.agent_poppedC2a, Strand.agent_poppedC2a, Strand.rels_poppedC2a,
      Strand.rels_poppedC2a, Strand.poppedC2a_poppedC2a]
    rfl
  · intro ty d hd o at_ w hty ho aligned fits old
    have made := aatmOp_of_entry (t := s.focusTile) (s := s) operand hp hd hk clean hty ho rfl rfl aligned fits rfl rfl rfl
    refine (checkedWord_ok ready made).trans ?_
    rw [passed_updStrand_exchangedBy, exchangedBy_setStrand, Strand.agent_poppedC2a, Strand.rels_poppedC2a]
    rfl

end Sys2Proof
end

section
/-! PROOFS. A store of one element of C2A (R275, R299): the storing strand's count of its steps that read or write memory. -/

namespace Sys2Proof.Machine

/-- An element of zero, clean, that carries no release. -/
def storedZero : Queued PWord := { val := {} }

/-- A strand with one element of zero in C2A, its registers and shapes as a placement leaves them. -/
def storingStrand : Strand := { freshStrand with c2a := [storedZero] }

def storingState : State := State.reset.setStrand 0 storingStrand

theorem storingState_ready : storingState.ready .a 1 storingStrand :=
  ⟨(State.strand_setStrand State.reset 0 0 storingStrand).trans (if_pos rfl), by decide⟩

/-- The count that the strand of tile core 0 has reached after a step. -/
def splitsAfter (o : Out) : Option Nat := match o with
  | .next t => (t.strand 0).map (·.splits)
  | _ => none

theorem splitsAfter_ast : splitsAfter (exec (.ast 24 0 0 0 0 0) storingState) = some 1 := by decide

theorem singleElement_storing : singleElement (storingStrand.shapes.get 0) := by unfold singleElement; decide

end Sys2Proof.Machine

namespace Sys2Proof
open Sys2Proof.Machine

/-- Refutes O28: the state that AST's clause ends in sets the strand after the store, with the count of splitting accesses it had before
it, and the store has counted itself. A strand with zero in C2A stores that to address 0. -/
theorem not_loadsAndStores : ¬ Obligations.LoadsAndStores := by
  unfold Obligations.LoadsAndStores
  rintro ⟨elements, -⟩
  have operand : srcA storingStrand 0 = .ok (storingStrand.addrs.get 0, storingStrand) := srcA_of_register (by decide)
  obtain ⟨-, stores⟩ := elements storingState storingState storingStrand storingStrand storingStrand 0 0 _ 0 (by decide) [] false
    storingState_ready rfl operand (by decide) singleElement_storing (by decide) (by decide)
  have ended := congrArg splitsAfter (stores storedZero [] rfl)
  rw [splitsAfter_ast] at ended
  have kept := congrArg (Option.map (·.splits)) (State.strand_passedAs (storingState.spadWrite (storingStrand.agent 0 1)
    storingStrand.a.sig.rels 0 (bytesOfNat 1 0) false) .a 1 { storingStrand.took .a [storedZero] with c2a := [] })
  exact absurd (ended.trans kept) (by decide)

end Sys2Proof
end

section
/-! PROOFS. Loads of up to one entry into A2V, and stores (R271, R273, R275). -/

namespace Sys2Proof.Machine

/-! Requests that are all read (R271): how far they get, how much they read, and that they leave the turn under way. -/

section
variable {s s1 : State} {t : Core} {st q : Strand} {e : Eng} {mode : BitVec 1} {va n z k k1 : Nat} {bs : List Byte} {p spec : Bool}
  {cs acc acc1 : List (Byte × Bool)} {u : Int × Nat} {unit : Nat → Int × Nat}

theorem length_elemRead (h : elemRead s t st e mode va n = .ok (s1, bs, p)) : bs.length = n := by
  unfold elemRead at h
  split at h
  · rw [← length_spadRead s t e va n, Except.ok.inj h]
  split at h
  · cases h
  simp only [bind, Except.bind] at h
  iterate 4
    split at h
    · cases h
  split at h
  all_goals
    split at h
    · cases h
    · cases h
      simp [look]

theorem length_readUnit (h : readUnit s t st spec u = .ok (s1, cs)) : cs.length = u.2 := by
  unfold readUnit at h
  split at h
  next read =>
    cases h
    rw [List.length_map, length_elemRead read]
  next =>
    split at h
    · cases h
      exact List.length_replicate
    · cases h
  next => cases h

theorem focusTile_readUnit (h : readUnit s t st spec u = .ok (s1, cs)) : s1.focusTile = s.focusTile := by
  unfold readUnit at h
  split at h
  next read =>
    cases h
    exact focusTile_of_elemRead read
  next =>
    split at h
    · cases h
      rfl
    · cases h
  next => cases h

/-- Requests of one size that have all been read. -/
theorem readRun_none (size : ∀ i, (unit i).2 = z) (h : readRun t st spec unit n k acc s = (s1, k1, acc1, none)) :
    k1 = k + n ∧ acc1.length = acc.length + n * z ∧ s1.focusTile = s.focusTile := by
  induction n generalizing k acc s with
  | zero =>
    cases h
    simp
  | succ n ih =>
    unfold readRun at h
    split at h
    next s' bs one =>
      obtain ⟨next, length, focus⟩ := ih h
      have read : bs.length = z := (length_readUnit one).trans (size k)
      refine ⟨by omega, ?_, focus.trans (focusTile_readUnit one)⟩
      rw [length, List.length_append, List.length_reverse, read, Nat.add_one_mul]
      omega
    next => cases h

end

/-! The entry pushed (R273), and the word's end. -/

section
variable {s s1 : State} {t : Core} {st q : Strand} {v : Row} {l : Latch} {n k : Nat} {spec : Bool} {acc : List (Byte × Bool)}
  {unit : Nat → Int × Nat} {z : Nat}

/-- The strand with an entry more in A2V, which comes of the writes that its access engine has read. -/
def Strand.pushedA2v (st : Strand) (v : Row) : Strand := { st with a2v := st.a2v ++ [st.entry .a st.a.sources v] }

/-- The writes that the access engine has read have gone into an entry. -/
def Strand.unsourced (st : Strand) : Strand := { st with a := { st.a with sources := [] } }

theorem pushA2v_of_fits (live : st.v.ended = false) (room : st.a2v.length < 16) :
    pushA2v st [v] = .ok (st.pushedA2v v).unsourced := by
  have h : (st.eng .v).ended = false := live
  simp [pushA2v, pushN, h, Nat.not_lt.mpr room, bind, Except.bind]
  rfl

/-- A latch that holds bytes read and not yet pushed. -/
def Latch.holding (l : Latch) (buf : List (Byte × Bool)) : Latch := { l with buf }

/-- The entry of the bytes that a latch holds (R271, R273). -/
def Latch.entry (l : Latch) : Row := ⟨lanesOf (l.buf.map Prod.fst), l.buf.any Prod.snd, l.tag⟩

/-! One turn of the load: requests read, an entry pushed, or the end. -/

theorem loadA2v_of_over (hs : s.strand t = some st) (hl : st.a.latch = some l) (empty : l.buf = []) (past : n ≤ st.a.progress) (m : Nat) :
    loadA2v t spec unit n (m + 1) s = .done s := by
  simp [loadA2v, hs, hl, empty, past]

theorem loadA2v_of_filled (hs : s.strand t = some st) (hl : st.a.latch = some l) (filled : l.buf ≠ []) (past : n ≤ st.a.progress)
    (push : pushA2v st [l.entry] = .ok q) (m : Nat) : loadA2v t spec unit n (m + 1) s =
      loadA2v t spec unit n m (keepA (s.setStrand t q) t (l.holding []) st.a.progress) := by
  have held : l.buf.isEmpty = false := List.isEmpty_eq_false_iff.mpr filled
  rw [Latch.entry] at push
  simp only [loadA2v, hs, hl, Option.getD_some, ge_iff_le, past, decide_true, held, Bool.not_false, Bool.and_true, Bool.or_true, if_true,
    push, Latch.holding]

theorem loadA2v_of_unread (hs : s.strand t = some st) (hl : st.a.latch = some l) (empty : l.buf = []) (start : st.a.progress = 0)
    (some_ : 0 < n) (size : (unit 0).2 = z) (hz : 0 < z) (fits : n * z ≤ 256)
    (read : readRun t st spec unit n 0 [] s = (s1, k, acc, none)) (m : Nat) :
    loadA2v t spec unit n (m + 1) s = loadA2v t spec unit n m (keepA s1 t (l.holding acc.reverse) k) := by
  have whole : min (n - 0) ((256 - 0) / max 1 z) = n := by
    rw [Nat.max_eq_right hz, Nat.sub_zero, Nat.sub_zero, Nat.min_eq_left ((Nat.le_div_iff_mul_le hz).mpr fits)]
  have short : ¬256 ≤ 0 := by decide
  simp only [loadA2v, hs, hl, Option.getD_some, ge_iff_le, empty, start, size, List.length_nil, whole, read, Nat.not_le.mpr some_,
    decide_false, short, Bool.false_and, Bool.or_false, Bool.false_eq_true, if_false, List.nil_append, Latch.holding]

/-- A load whose requests fill one entry. -/
theorem loadA2v_of_read (hs : s.strand t = some st) (hl : st.a.latch = some l) (empty : l.buf = []) (start : st.a.progress = 0)
    (some_ : 0 < n) (size : ∀ i, (unit i).2 = z) (hz : 0 < z) (fits : n * z ≤ 256)
    (read : readRun t st spec unit n 0 [] s = (s1, k, acc, none)) (hq : s1.strand t = some q) (live : q.v.ended = false)
    (room : q.a2v.length < 16) (m : Nat) : ∃ l', loadA2v t spec unit n (m + 3) s =
      .done (s1.setStrand t ((q.pushedA2v (l.holding acc.reverse).entry).unsourced.kept l' k)) := by
  obtain ⟨rfl, length, -⟩ := readRun_none size read
  rw [Nat.zero_add] at read ⊢
  have filled : acc.reverse ≠ [] := by
    have long : 0 < acc.length := by rw [length, List.length_nil, Nat.zero_add]; exact Nat.mul_pos some_ hz
    exact List.ne_nil_of_length_pos (long.trans_eq List.length_reverse.symm)
  refine ⟨(l.holding acc.reverse).holding [], (loadA2v_of_unread hs hl empty start some_ (size 0) hz fits read _).trans ?_⟩
  refine (loadA2v_of_filled (strand_keepA hq _ _) rfl filled le_rfl (pushA2v_of_fits live room) _).trans ?_
  rw [setStrand_keepA hq, keepA_setStrand]
  exact loadA2v_of_over ((State.strand_setStrand s1 t t _).trans (if_pos rfl)) rfl rfl le_rfl _

/-- What the pushing strand kept of the word, and of the writes it read, is gone once it passes. -/
theorem passWord_pushedA2v (s : State) (t : Core) (q : Strand) (v : Row) (l : Latch) (k len : Nat) :
    passWord (s.setStrand t ((q.pushedA2v v).unsourced.kept l k)) t .a len = passWord (s.setStrand t (q.pushedA2v v)) t .a len := by
  rw [passWord, passWord, State.updStrand_of_strand (q := (q.pushedA2v v).unsourced.kept l k) (by simp),
    State.updStrand_of_strand (q := q.pushedA2v v) (by simp), State.setStrand_setStrand, State.setStrand_setStrand]
  rfl

end

end Sys2Proof.Machine

namespace Sys2Proof
open Sys2Proof.Machine

/-- Settles O29: a load reads all its requests, pushes the one entry they fill and passes; a store passes with its last piece. -/
theorem queueLoadsAndStores : Obligations.QueueLoadsAndStores := by
  unfold Obligations.QueueLoadsAndStores
  intro s s1 t st st1 st2 d a b tc r sz l k acc spec ready hl
  refine ⟨?_, ?_⟩
  · intro start plain empty i z h g from_
    have here : from_.strand s.focusTile = some g := (State.strand_setStrand s s.focusTile s.focusTile g).trans (if_pos rfl)
    have went : aldOp spec 29 a b tc r sz s s.focusTile st =
        loadA2v s.focusTile spec (requests h l.addr.val.toNat z none 512).2 h.count (3 * h.count + 4) from_ := by
      simp only [aldOp, hl, start, loadGo, plain]
      rfl
    have passes {o : State} (ended : aldOp spec 29 a b tc r sz s s.focusTile st = .done o) :
        completes (exec i s) (passWord o s.focusTile .a 1) := by
      cases spec <;> exact machineWord_done ready ended
    refine ⟨fun none_ => passes (went.trans ?_), fun some_ fits read hq live room => ?_⟩
    · rw [none_]
      exact loadA2v_of_over here rfl empty (Nat.zero_le _) _
    · have size (n : Nat) : ((requests h l.addr.val.toNat z none 512).2 n).2 = z := rfl
      obtain ⟨-, -, focus⟩ := readRun_none size read
      obtain ⟨l', ended⟩ := loadA2v_of_read here rfl empty rfl some_ size (Nat.two_pow_pos _) fits read hq live room (3 * h.count + 1)
      refine (passes (went.trans ended)).trans ?_
      rw [passWord_pushedA2v, ← show s1.focusTile = s.focusTile from focus]
      rfl
  · intro g start hg l latch h q stored
    refine machineWord_done ready ?_
    have found : ((s1.strand s.focusTile).bind fun q => q.a.latch).getD {} = l := by rw [hg]; exact congrArg (Option.getD · {}) latch
    simp only [astOp, hl, start, found]
    exact stored

end Sys2Proof
end

section
/-! PROOFS. The update, requantisation, survivor and prefetch words (R267, R286, R288, R291, R292, R364, R365). -/

namespace Sys2Proof.Machine

/-! STU and REQT: what their operands must be, and their ends. -/

section
variable {s s1 : State} {t : Core} {st st1 st2 g : Strand} {d a b : Code} {tc : BitVec 4} {x y : PWord} {c : FaultCode} {l : Latch}

theorem isLocal_of_le {n : Nat} (h : Config.spadBytes ≤ n) : isLocal n = false := decide_eq_false (Nat.not_lt.mpr h)

theorem need_of_false {p : Bool} (h : p = false) (c : FaultCode) : need p c = .error (.fault c) := by
  subst h
  rfl

section
variable (ha : srcA st a = .ok (x, st1)) (hd : d = 26 ∨ d = 27)
include ha hd

theorem stuStart_of_poison (h : x.poison = true) : stuStart d a tc s t st = .error (.fault .poisonSync) := by
  have queue : (d == 26 || d == 27) = true := by rcases hd with rfl | rfl <;> rfl
  unfold stuStart
  simp only [needSrcA_of_srcA ha, queue, need_true, ok_bind, ha, clean_of_poison h, error_bind]

theorem stuStart_of_remote (clean : x.poison = false) (h : Config.spadBytes ≤ x.val.toNat) :
    stuStart d a tc s t st = .error (.fault .protection) := by
  have queue : (d == 26 || d == 27) = true := by rcases hd with rfl | rfl <;> rfl
  unfold stuStart
  simp only [needSrcA_of_srcA ha, queue, need_true, ok_bind, ha, clean_of_clean clean, need_of_false (isLocal_of_le h), error_bind]

theorem stuStart_of_misaligned (clean : x.poison = false) (inside : x.val.toNat < Config.spadBytes) (h : x.val.toNat % 64 ≠ 0) :
    stuStart d a tc s t st = .error (.fault .align) := by
  have queue : (d == 26 || d == 27) = true := by rcases hd with rfl | rfl <;> rfl
  unfold stuStart
  simp only [needSrcA_of_srcA ha, queue, need_true, ok_bind, ha, clean_of_clean clean, isLocal_of_lt inside,
    need_of_false (beq_false_of_ne h), error_bind]

end

section
variable (ha : srcA st a = .ok (x, st1)) (hd : srcA st1 d = .ok (y, st2)) (da : needSrcA d = .ok ()) (hb : b.toNat < 16)
include ha hd da hb

theorem reqtStart_of_poison (h : (x.poison || y.poison) = true) : reqtStart d a b tc s t st = .error (.fault .poisonSync) := by
  unfold reqtStart
  cases hx : x.poison
  · have hy : y.poison = true := by simpa [hx] using h
    simp only [da, needSrcA_of_srcA ha, role16_of_lt hb, ok_bind, ha, hd, clean_of_clean hx, clean_of_poison hy, error_bind]
  · simp only [da, needSrcA_of_srcA ha, role16_of_lt hb, ok_bind, ha, hd, clean_of_poison hx, error_bind]

theorem reqtStart_of_wide (hx : x.poison = false) (hy : y.poison = false)
    (h : bits x.val.toNat 63 40 ≠ 0 ∨ bits y.val.toNat 63 43 ≠ 0) : reqtStart d a b tc s t st = .error (.fault .illegal) := by
  have wide : (bits x.val.toNat 63 40 == 0 && bits y.val.toNat 63 43 == 0) = false := by
    rcases h with h | h <;> simp [h]
  unfold reqtStart
  simp only [da, needSrcA_of_srcA ha, role16_of_lt hb, ok_bind, ha, hd, clean_of_clean hx, clean_of_clean hy, need_of_false wide,
    error_bind]

end

theorem stuOp_of_fault (hl : st.a.latch = none) (start : stuStart d a tc s t st = .error (.fault c)) :
    stuOp d a tc s t st = .trap c .atWord s := by
  simp only [stuOp, hl, start]

theorem stuOp_of_start {u : UpdateDesc} (hl : st.a.latch = none) (start : stuStart d a tc s t st = .ok s1) (hg : s1.strand t = some g)
    (latch : g.a.latch = some l) (desc : updateDesc (natOfBytes (l.buf.map Prod.fst)) = some u) :
    stuOp d a tc s t st = elements t u.n (stuElem t u) 65 s1 := by
  simp only [stuOp, hl, start, hg, Option.bind_some, latch, Option.getD_some, desc]

theorem reqtOp_of_fault (hl : st.a.latch = none) (start : reqtStart d a b tc s t st = .error (.fault c)) :
    reqtOp d a b tc s t st = .trap c .atWord s := by
  simp only [reqtOp, hl, start]

theorem reqtOp_of_start (hl : st.a.latch = none) (start : reqtStart d a b tc s t st = .ok s1) :
    reqtOp d a b tc s t st =
      elements t (st.shapes.get ⟨b.toNat % 16, Nat.mod_lt _ (by decide)⟩).count
        (reqtElem t (st.shapes.get ⟨b.toNat % 16, Nat.mod_lt _ (by decide)⟩))
        ((st.shapes.get ⟨b.toNat % 16, Nat.mod_lt _ (by decide)⟩).count + 1) s1 := by
  simp only [reqtOp, hl, start]

end

/-! APF (R267, R292). -/

section
variable {s : State} {t : Core} {st st1 : Strand} {a b : Code} {x : PWord} {j : Job}

theorem focusTile_prefetch (s : State) (t : Core) (j : Job) (va : Nat) : (prefetch s t j va).focusTile = s.focusTile := by
  unfold prefetch
  split
  · rfl
  split
  · split
    · rfl
    · rw [(State.linesMoved_touch _ _ _).focusTile, State.focusTile_touchWalk]
  · rfl

/-- The lines come in for the tile core in focus, which stays in focus. -/
theorem foldl_prefetch (lines : List Nat) (h : s.focusTile = t) :
    lines.foldl (fun s line => prefetch s s.focusTile j (128 * line)) s = lines.foldl (fun s line => prefetch s t j (128 * line)) s := by
  induction lines generalizing s with
  | nil => rfl
  | cons line lines ih =>
    rw [List.foldl_cons, List.foldl_cons, ih (by rw [focusTile_prefetch, h]), h]

section
variable (ha : srcA st a = .ok (x, st1)) (hb : b.toNat < 16)
include ha hb

theorem apfOp_of_strided (h : (st.shapes.get ⟨b.toNat, hb⟩).st 0 ≠ 1) : apfOp a b s t st = .error (.fault .illegal) := by
  simp only [apfOp, needSrcA_of_srcA ha, role16_of_lt hb, ok_bind, need_of_false (beq_false_of_ne h), error_bind]

theorem apfOp_of_idle (h : (st.shapes.get ⟨b.toNat, hb⟩).st 0 = 1) (idle : (x.poison || s.slotNow || isLocal x.val.toNat) = true) :
    apfOp a b s t st = .ok (s.setStrand t st1) := by
  simp only [apfOp, needSrcA_of_srcA ha, role16_of_lt hb, ok_bind, h, beq_self_eq_true, need_true, ha, idle, if_true]

theorem apfOp_of_remote (h : (st.shapes.get ⟨b.toNat, hb⟩).st 0 = 1) (idle : (x.poison || s.slotNow || isLocal x.val.toNat) = false)
    (job : s.job? st.job = some j) : apfOp a b s t st =
      .ok (((st.shapes.get ⟨b.toNat, hb⟩).lines x.val.toNat).foldl (fun s line => prefetch s t j (128 * line))
        (s.setStrand t st1)) := by
  simp only [apfOp, needSrcA_of_srcA ha, role16_of_lt hb, ok_bind, h, beq_self_eq_true, need_true, ha, idle, job,
    Bool.false_eq_true, if_false]

end

end

/-! SURV (R291, R364, R365). -/

section
variable {s s1 s2 s3 : State} {t : Core} {st st1 : Strand} {a : Code} {e : BitVec 4} {x : PWord} {l : Launch} {gh node k : Nat} {gr : Graph}
  {c : Batches} {v : View} {rec_ : List (Byte × Bool)}

/-! Graphs stay as they are while a word releases and reads. -/

theorem graphs_looked (s : State) (t : Core) (e : Eng) (k : Look) : (s.looked t e k).graphs = s.graphs := by
  unfold State.looked
  dsimp only
  split <;> rfl

theorem graphs_spadRead (s : State) (t : Core) (e : Eng) (at_ n : Nat) : (spadRead s t e at_ n).1.graphs = s.graphs := by
  unfold spadRead
  dsimp only
  split
  · rfl
  · exact graphs_looked s t e _

theorem graphs_spadBytes (s : State) (t : Core) (e : Eng) (at_ n : Nat) : (spadBytes s t e at_ n).1.graphs = s.graphs :=
  List.foldlRecOn (motive := fun r : State × List (List (Byte × Bool)) => r.1.graphs = s.graphs) _ _ rfl
    fun r kept p _ => (graphs_spadRead r.1 t e p.1 _).trans kept

theorem graphs_release {e : Eng} {sc : Scope} (h : release s t e sc = .ok (s1, v)) : s1.graphs = s.graphs := by
  unfold release at h
  split at h
  · cases h
    rfl
  · dsimp only at h
    split at h
    · cases h
    · cases h
      split
      · unfold State.raiseEpoch
        split <;> rfl
      · rfl

/-- The graph whose batch of an edge has a record more, with what the releases of its survivor cover. -/
def Graph.joinedBy (g : Graph) (edge : Nat) (r : List Byte × Bool × View) : Graph :=
  { g with batches := g.batches.map fun o => if o.edge = edge then { o with cur := o.cur ++ [r] } else o }

theorem graph?_updGraph (h : s.graph? gh = some gr) (f : Graph → Graph) (same : ∀ g, (f g).handle = g.handle) :
    (s.updGraph gh f).graph? gh = some (f gr) := by
  have handle : (gr.handle == gh) = true := List.find?_some (p := fun g : Graph => g.handle == gh) h
  have known : ((fun g : Graph => g.handle == gh) ∘ fun g => if g.handle == gh then f g else g) = fun g => g.handle == gh := by
    funext g
    simp only [Function.comp_apply]
    split
    · rw [same]
    · rfl
  rw [State.graph?] at h
  rw [State.graph?, State.updGraph, List.find?_map, known, h, Option.map_some, if_pos handle]

section
variable (hl : s.launch? st.handle = some l) (hn : l.node = some (gh, node)) (hg : s.graph? gh = some gr)
  (hk : outEdge gr node e.toNat = some k) (hc : (gr.batches.find? fun c => c.edge == k) = some c) (ha : srcA st a = .ok (x, st1))
  (hp : x.poison = false) (hx : x.val.toNat < Config.spadBytes)
include hl hn hg hk hc ha hp hx

theorem survOp_of_misaligned (h : x.val.toNat % 32 ≠ 0) : survOp a e s t st = .error (.fault .align) := by
  unfold survOp
  simp only [needSrcA_of_srcA ha, ok_bind, hl, hn, hg, hk, Option.bind_some, hc, ha, clean_of_clean hp, isLocal_of_lt hx, Bool.not_true,
    Bool.false_eq_true, if_false, if_pos h, raise]

variable (aligned : x.val.toNat % 32 = 0) (room : c.started * c.bsize + c.cur.length + c.store.length < c.cap * c.bsize)
include aligned room

theorem survOp_of_load (load : 8192 ≤ compactorLoad s c.die) (other : ¬(st.det = true ∧ lowestLive s l = st.index.toNat)) :
    survOp a e s t st = .error (.wait .compactor) := by
  have waiting : (!(st.det && decide (lowestLive s l = st.index.toNat))) = true := by
    simpa [Decidable.imp_iff_not_or] using other
  unfold survOp
  simp only [needSrcA_of_srcA ha, ok_bind, hl, hn, hg, hk, Option.bind_some, hc, ha, clean_of_clean hp, isLocal_of_lt hx, Bool.not_true,
    Bool.false_eq_true, if_false, aligned, ne_eq, not_true, ge_iff_le, Nat.not_le.mpr room, load, waiting, and_self, if_true, await]

/-- A survivor of a strand of no deterministic job (R364): its record, and what its release covers, go to the batch in the making. -/
theorem survOp_of_room (load : compactorLoad s c.die < 8192) (det : st.det = false)
    (rel : release (s.setStrand t st1) t .a .package = .ok (s2, v)) (read : spadBytes s2 t .a x.val.toNat 32 = (s3, rec_)) :
    ∃ f, survOp a e s t st = .ok ((s3.updLaunch l.handle f).updGraph gh
      fun g => g.joinedBy c.edge (rec_.map Prod.fst, rec_.any Prod.snd, v)) := by
  unfold survOp
  simp only [needSrcA_of_srcA ha, ok_bind, hl, hn, hg, hk, Option.bind_some, hc, ha, clean_of_clean hp, isLocal_of_lt hx, Bool.not_true,
    Bool.false_eq_true, if_false, aligned, ne_eq, not_true, ge_iff_le, Nat.not_le.mpr room, Nat.not_le.mpr load, false_and, rel, read, det,
    Bool.false_and, beq_iff_eq]
  exact ⟨_, rfl⟩

end

/-- The survivor stands in its graph once the word has passed. -/
theorem graph?_survived (hg : s.graph? gh = some gr) (rel : release (s.setStrand t st1) t .a .package = .ok (s2, v))
    (read : spadBytes s2 t .a x.val.toNat 32 = (s3, rec_)) (h : Nat) (f : Launch → Launch) (edge : Nat) (r : List Byte × Bool × View) :
    (passWord ((s3.updLaunch h f).updGraph gh fun g => g.joinedBy edge r) t .a 1).graph? gh = some (gr.joinedBy edge r) := by
  have same : s3.graphs = s.graphs := by
    have kept := graphs_spadBytes s2 t .a x.val.toNat 32
    rw [read] at kept
    exact (kept.trans (graphs_release rel)).trans (State.setStrand_graphs s t st1)
  have found : (s3.updLaunch h f).graph? gh = some gr := by
    rw [State.graph?, State.updLaunch_graphs, same]
    exact hg
  exact graph?_updGraph found _ fun _ => rfl

end

end Sys2Proof.Machine

namespace Sys2Proof
open Sys2Proof.Machine

/-- Settles O32: each word by what its operands are, and then by its start, its lines or its batch. -/
theorem stageWords : Obligations.StageWords := by
  unfold Obligations.StageWords
  intro s s1 s2 s3 st st1 st2 g d a b tc ready hl
  refine ⟨fun x ha hd => ?stuFaults, fun u l start hg latch desc done => ?stu, fun x y _ hd hb ha hy => ?reqtFaults, fun start => ?reqt,
    fun x hb ha => ?apf, fun e x l gh node gr k c launch node_ graph edge batch ha clean inside => ?surv⟩
  case stuFaults =>
    have faults {c : FaultCode} (start : stuStart d a tc s s.focusTile st = .error (.fault c)) : raises (.stu d a tc) s .a 1 c :=
      runAs_trap ready (stuOp_of_fault hl start)
    exact ⟨fun h => faults (stuStart_of_poison ha hd h), fun clean h => faults (stuStart_of_remote ha hd clean h),
      fun clean inside h => faults (stuStart_of_misaligned ha hd clean inside h)⟩
  case stu => exact machineWord_done ready ((stuOp_of_start hl start hg latch desc).trans done)
  case reqtFaults =>
    have faults {c : FaultCode} (start : reqtStart d a b tc s s.focusTile st = .error (.fault c)) : raises (.reqt d a b tc) s .a 1 c :=
      runAs_trap ready (reqtOp_of_fault hl start)
    have code := needSrcA_of_srcA hy
    exact ⟨fun h => faults (reqtStart_of_poison ha hy code hb h), fun hx hy' h => faults (reqtStart_of_wide ha hy code hb hx hy' h)⟩
  case reqt => exact fun done => machineWord_done ready ((reqtOp_of_start hl start).trans done)
  case apf =>
    refine ⟨fun stride => ⟨fun idle => checkedWord_ok ready (apfOp_of_idle ha hb stride idle), fun j job clean slot remote => ?_⟩,
      fun stride => checkedWord_fault ready (apfOp_of_strided ha hb stride)⟩
    have idle : (x.poison || s.slotNow || isLocal x.val.toNat) = false := by simp [clean, slot, remote]
    rw [foldl_prefetch _ rfl]
    exact checkedWord_ok ready (apfOp_of_remote ha hb stride idle job)
  case surv =>
    refine ⟨fun h => checkedWord_fault ready (survOp_of_misaligned launch node_ graph edge batch ha clean inside h),
      fun aligned room => ⟨fun load other =>
        checkedWord_wait ready (survOp_of_load launch node_ graph edge batch ha clean inside aligned room load other),
        fun v rec_ load det rel read => ?_⟩⟩
    obtain ⟨f, made⟩ := survOp_of_room launch node_ graph edge batch ha clean inside aligned room load det rel read
    exact ⟨_, checkedWord_ok ready made, graph?_survived graph rel read _ f _ _⟩

end Sys2Proof
end

section
/-! PROOFS. The exchange engine's register and ticket words (R309, R312, R322, R323, R324, R336, R337, R339): what a source gives, the
equation of each word's operation, and the tickets that XSTAT and XABORT may name. -/

namespace Sys2Proof.Machine

section
variable {st st1 st2 : Strand} {d a b : Code} {x y : PWord} {v : Queued PWord} {rest : List (Queued PWord)}

/-! Sources and destinations (R323). -/

theorem srcX_of_register (h : a.toNat < 8) : srcX st a = .ok (st.xregs.get ⟨a.toNat, h⟩, st) := dif_pos h

theorem popC2x_of_cons (h : st.c2x = v :: rest) (peek : Bool) :
    popC2x st peek = .ok (v.val, { st.took .x [v] with c2x := if peek then v :: rest else rest }) := by
  cases peek <;> simp [popC2x, takeOne, takeN, h, bind, Except.bind]

/-- A peek leaves the queue. -/
theorem srcX_peek (h : st.c2x = v :: rest) : srcX st 9 = .ok (v.val, st.took .x [v]) := by
  show popC2x st true = _
  rw [popC2x_of_cons h, if_pos rfl, ← h]
  rfl

theorem popC2x_of_empty (h : st.c2x = []) (peek : Bool) : popC2x st peek = .error (.wait .pop) := by
  simp [popC2x, takeOne, takeN, h, bind, Except.bind, await]

theorem srcX_of_other (h : 10 ≤ a.toNat) : srcX st a = .error (.fault .illegal) := by
  have no8 : a ≠ 8 := by rintro rfl; exact absurd h (by decide)
  have no9 : a ≠ 9 := by rintro rfl; exact absurd h (by decide)
  simp only [srcX, dif_neg (show ¬ a.toNat < 8 by omega), if_neg no8, if_neg no9, raise]

theorem needSrcX_of_srcX (h : srcX st a = .ok (x, st1)) : needSrcX a = .ok () := by
  have known : a.toNat < 10 := by
    by_contra other
    rw [srcX_of_other (Nat.not_lt.mp other)] at h
    cases h
  rw [needSrcX, decide_eq_true known, need_true]

theorem dstX_of_register (h : d.toNat < 8) : dstX st d x = .ok (st.setE ⟨d.toNat, h⟩ x) := dif_pos h

theorem dstX_of_room (live : st.c.ended = false) (room : st.x2c.length < 8) :
    dstX st 10 x = .ok { st with x2c := st.x2c ++ [st.entry .x [] x] } := by
  show pushX2c st [x] = _
  simp only [pushX2c, pushN_of_room (k := .c) live room, ok_bind]

theorem dstX_of_full (live : st.c.ended = false) (full : 8 ≤ st.x2c.length) : dstX st 10 x = .error (.wait .push) := by
  show pushX2c st [x] = _
  simp only [pushX2c, pushN_of_full (k := .c) live full, await, error_bind]

/-- A destination code of XMOV and XSTAT: an exchange register, or X2C (R323, R337). -/
theorem needDstX (h : d.toNat < 8 ∨ d = 10) : need (decide (d.toNat < 8) || d == 10) .illegal = .ok () := by
  rcases h with h | rfl
  · rw [decide_eq_true h, Bool.true_or, need_true]
  · rfl

/-! The register words (R323). -/

theorem xregImm_eq (h : d.toNat < 8) (i : DWord) : xregImm d i st = .ok (st.setE ⟨d.toNat, h⟩ ⟨i, false⟩) := by
  simp only [xregImm, role8_of_lt h, ok_bind]

theorem xmovOp_eq (h : d.toNat < 8 ∨ d = 10) (ha : srcX st a = .ok (x, st1)) : xmovOp d a st = dstX st1 d x := by
  simp only [xmovOp, needDstX h, needSrcX_of_srcX ha, ha, ok_bind]

theorem xaddiOp_eq (h : d.toNat < 8) (ha : srcX st a = .ok (x, st1)) (i : BitVec 14) :
    xaddiOp d a i st = .ok (st1.setE ⟨d.toNat, h⟩ ⟨x.val + i.signExtend 64, x.poison⟩) := by
  simp only [xaddiOp, role8_of_lt h, needSrcX_of_srcX ha, ha, ok_bind]

theorem xaddOp_eq (h : d.toNat < 8) (ha : srcX st a = .ok (x, st1)) (hb : srcX st1 b = .ok (y, st2)) :
    xaddOp d a b st = .ok (st2.setE ⟨d.toNat, h⟩ ⟨x.val + y.val, x.poison || y.poison⟩) := by
  simp only [xaddOp, role8_of_lt h, needSrcX_of_srcX ha, needSrcX_of_srcX hb, ha, hb, ok_bind]

/-! Tickets (R324, R336, R337). -/

/-- The ticket that a value names to a strand: the low 32 bits of a clean one (log 30), which has been issued. -/
def ticketOf (st : Strand) (x : PWord) : Except Halt Word := do
  let k ← clean x
  needTicket st (k.setWidth 32)
  .ok (k.setWidth 32)

theorem ticketOf_of_poison (h : x.poison = true) : ticketOf st x = .error (.fault .poisonSync) := by
  rw [ticketOf, clean_of_poison h, error_bind]

theorem ticketOf_of_unissued (hx : x.poison = false) (h : x.val.setWidth 32 = 0 ∨ later (x.val.setWidth 32) st.tickets = true) :
    ticketOf st x = .error (.fault .illegal) := by
  have unissued : (x.val.setWidth 32 != 0 && !later (x.val.setWidth 32) st.tickets) = false := by
    rcases h with h | h <;> simp [h]
  rw [ticketOf, clean_of_clean hx, ok_bind, needTicket, need_of_false unissued, error_bind]

theorem ticketOf_of_issued (hx : x.poison = false) (h0 : x.val.setWidth 32 ≠ 0) (h : later (x.val.setWidth 32) st.tickets = false) :
    ticketOf st x = .ok (x.val.setWidth 32) := by
  have issued : (x.val.setWidth 32 != 0 && !later (x.val.setWidth 32) st.tickets) = true := by rw [bne_iff_ne.mpr h0, h]; rfl
  rw [ticketOf, clean_of_clean hx, ok_bind, needTicket, issued, need_true, ok_bind]

theorem ticketStatus_of_expired {k : Word} (h : 64 ≤ (st.tickets - k).toNat) : ticketStatus st k = 8 := if_pos h

/-- The status of the one command outstanding under a ticket (R336). -/
theorem ticketStatus_of_outstanding {k : Word} {c : XCmd} (hc : c ∈ st.cmds) (ht : c.ticket = k)
    (one : ∀ c' ∈ st.cmds, c'.ticket = k → c' = c) (h : (st.tickets - k).toNat < 64) :
    ticketStatus st k = if c.active then 1 else 0 := by
  have found : (st.cmds.find? fun c => c.ticket == k) = some c := by
    cases hf : st.cmds.find? fun c => c.ticket == k with
    | none => exact absurd (beq_iff_eq.mpr ht) (List.find?_eq_none.mp hf c hc)
    | some c' => rw [one c' (List.mem_of_find?_eq_some hf) (beq_iff_eq.mp (List.find?_some (p := fun c : XCmd => c.ticket == k) hf))]
  simp only [ticketStatus, gt_iff_lt, show ¬ 63 < (st.tickets - k).toNat by omega, if_false, found]

theorem xstatOp_eq (h : d.toNat < 8 ∨ d = 10) (ha : srcX st a = .ok (x, st1)) : xstatOp d a st =
    ticketOf st1 x >>= fun k => dstX st1 d ⟨BitVec.ofNat 64 (ticketStatus st1 k), false⟩ := by
  simp only [xstatOp, needDstX h, needSrcX_of_srcX ha, ha, ok_bind, ticketOf, bind_assoc]

/-- The commands of a strand at and above a ticket (R339). -/
def ticketsFrom (st : Strand) (k : Word) : List XCmd := st.cmds.filter fun c => !later k c.ticket

theorem xabortOp_eq {s : State} {t : Core} (ha : srcX st a = .ok (x, st1)) : xabortOp a s t st =
    ticketOf st1 x >>= fun k =>
      if !s.canRaise (dieOf t) || (ticketsFrom st1 k).any (waitsHeld s t st) then await .writes
      else .ok ((ticketsFrom st1 k).foldl (fun s c => finishCmd s t c 4) (s.setStrand t st1)) := by
  simp only [xabortOp, needSrcX_of_srcX ha, ha, ok_bind, ticketOf, bind_assoc]
  rcases clean x with h | k
  · rfl
  rcases hk : needTicket st1 (k.setWidth 32) with h | u
  · simp only [ok_bind, hk, error_bind]
  simp only [ok_bind, hk]
  by_cases waiting : (!s.canRaise (dieOf t) || (ticketsFrom st1 (k.setWidth 32)).any (waitsHeld s t st)) = true
  · exact (if_pos waiting).trans (if_pos waiting).symm
  · exact (if_neg waiting).trans (if_neg waiting).symm

end

end Sys2Proof.Machine

namespace Sys2Proof
open Sys2Proof.Machine

/-- Settles O43: each word by its sources and destination; XSTAT and XABORT by the ticket that their source names (`ticketOf`). -/
theorem exchangeRegistersAndTickets : Obligations.ExchangeRegistersAndTickets := by
  unfold Obligations.ExchangeRegistersAndTickets
  refine ⟨fun s st st1 st2 d a b x y => ?registers, fun s st st1 d a x ready ha => ?tickets⟩
  case registers =>
    refine ⟨srcX_of_register, fun v rest h => ⟨popC2x_of_cons h false, srcX_peek h⟩,
      fun h => ⟨popC2x_of_empty h false, popC2x_of_empty h true⟩,
      fun ready => ⟨fun i hd => strandWord_ok ready (xregImm_eq hd _), fun ha => ?_⟩,
      fun ready i hd => strandWord_ok ready (xregImm_eq hd _)⟩
    refine ⟨fun hd => strandWord_ok ready ((xmovOp_eq (.inl hd) ha).trans (dstX_of_register hd)),
      fun live room => strandWord_ok ready ((xmovOp_eq (.inr rfl) ha).trans (dstX_of_room live room)),
      fun live full => strandWord_wait ready ((xmovOp_eq (.inr rfl) ha).trans (dstX_of_full live full)),
      fun i hd => strandWord_ok ready (xaddiOp_eq hd ha i), fun hb hd => strandWord_ok ready (xaddOp_eq hd ha hb)⟩
  case tickets =>
    have faults {c : FaultCode} (hd : d.toNat < 8) (h : ticketOf st1 x = .error (.fault c)) :
        raises (.xstat d a) s .x 4 c ∧ raises (.xabort a) s .x 4 c :=
      ⟨strandWord_fault ready (by rw [xstatOp_eq (.inl hd) ha, h, error_bind]),
        checkedWord_fault ready (by rw [xabortOp_eq ha, h, error_bind])⟩
    refine ⟨fun hx hd => faults hd (ticketOf_of_poison hx), fun hx h hd => faults hd (ticketOf_of_unissued hx h), fun hx h0 h => ?_⟩
    have ticket := ticketOf_of_issued hx h0 h
    have status {d : Code} (hd : d.toNat < 8 ∨ d = 10) :
        xstatOp d a st = dstX st1 d ⟨BitVec.ofNat 64 (ticketStatus st1 (x.val.setWidth 32)), false⟩ := by
      rw [xstatOp_eq hd ha, ticket, ok_bind]
    refine ⟨fun hd => strandWord_ok ready ((status (.inl hd)).trans (dstX_of_register hd)), ticketStatus_of_expired,
      fun c hc ht one old => ticketStatus_of_outstanding hc ht one old,
      fun live => ⟨fun room => strandWord_ok ready ((status (.inr rfl)).trans (dstX_of_room live room)),
        fun full => strandWord_wait ready ((status (.inr rfl)).trans (dstX_of_full live full))⟩,
      fun held => checkedWord_wait ready ?_, fun raised free => checkedWord_ok ready ?_⟩
    · have waiting : (!s.canRaise (dieOf s.focusTile) ||
          (ticketsFrom st1 (x.val.setWidth 32)).any (waitsHeld s s.focusTile st)) = true := by
        simpa only [ticketsFrom, Bool.or_eq_true, Bool.not_eq_true', List.any_eq_true] using held
      rw [xabortOp_eq ha, ticket, ok_bind, if_pos waiting, await]
    · rw [xabortOp_eq ha, ticket, ok_bind, if_neg (by simpa [raised, ticketsFrom] using free)]
      rfl

end Sys2Proof
end

section
/-! PROOFS. The semaphore words (R301, R302, R427, R430, R431, R432, R434): the new value, what a release on a semaphore leaves of
semaphores, strands and dies, and the waiters it meets. -/

namespace Sys2Proof.Machine

/-! The new value (R431). -/

/-- The value that a change leaves, as the manual's arithmetic has it: saturating sum, difference floored at zero, or the value. -/
def SemOp.after (op : SemOp) (q v : Nat) : Nat :=
  match op with
  | .inc => min (q + v) (2 ^ 32 - 1) | .dec => q - v | .set => v

theorem SemOp.toNat_apply (op : SemOp) (q v : Word) : (op.apply q v).1.toNat = op.after q.toNat v.toNat := by
  have hq := q.isLt
  have hv := v.isLt
  cases op with
  | inc =>
    simp only [SemOp.apply, SemOp.after]
    split
    · rw [min_eq_right (by omega)]
      rfl
    · rw [BitVec.toNat_add]
      omega
  | dec =>
    simp only [SemOp.apply, SemOp.after]
    split
    · rw [Nat.sub_eq_zero_of_le (by omega)]
      rfl
    · exact BitVec.toNat_sub_of_le (BitVec.le_def.mpr (by omega))
  | set => rfl

section
variable {s s1 : State} {t : Core} {st p : Strand} {e w : Eng} {n : Nat} {v : Word} {now : DWord} {pick : BitVec 64} {die : Bool} {x : View}

/-! Waiters compared with a value (R434). -/

theorem relatch_of_reached {undo : Bool} {thr : Word} {was : Option (DWord × View)} (h : thr.toNat ≤ v.toNat) :
    (relatch now undo v thr x was).isSome = true := by
  cases was with
  | none => simp only [relatch, ge_iff_le, h, if_true, Option.isSome_some]
  | some y => simp only [relatch, Nat.not_lt.mpr h, decide_false, Bool.false_and, Bool.false_eq_true, if_false, Option.isSome_some]

/-- An engine that waits on the semaphore is compared with its value. -/
def Engine.compared (g : Engine) (now : DWord) (undo die : Bool) (n : Nat) (v : Word) (x : View) : Engine :=
  match g.waitsOn die n with
  | some thr => { g with woken := relatch now undo v thr x g.woken }
  | none => g

theorem Engine.compared_of_reached {g : Engine} {undo : Bool} {thr : Word} (hw : g.waitsOn die n = some thr) (h : thr.toNat ≤ v.toNat) :
    (g.compared now undo die n v x).woken.isSome = true := by
  simp only [Engine.compared, hw]
  exact relatch_of_reached h

/-- Each engine changed in its own way. -/
def Strand.mapEngs (st : Strand) (f : Eng → Engine → Engine) : Strand :=
  { st with c := f .c st.c, a := f .a st.a, v := f .v st.v, m := f .m st.m, x := f .x st.x }

theorem Strand.foldl_updEng (st : Strand) (f : Eng → Engine → Engine) :
    Eng.all.foldl (fun (q : Strand) e => q.updEng e (f e)) st = st.mapEngs f := rfl

theorem Strand.wake_eq (st : Strand) (now : DWord) (pick : BitVec 64) (die : Bool) (n : Nat) (v : Word) (x : View) :
    ∃ cmds, st.wake now pick die n v x = { st.mapEngs fun e g => g.compared now (pick.getLsbD e.part) die n v x with cmds } := by
  refine ⟨(st.wake now pick die n v x).cmds, ?_⟩
  rw [← Strand.foldl_updEng]
  rfl

theorem Strand.sems_wake (st : Strand) (now : DWord) (pick : BitVec 64) (die : Bool) (n : Nat) (v : Word) (x : View) :
    (st.wake now pick die n v x).sems = st.sems := by
  obtain ⟨_, eq⟩ := st.wake_eq now pick die n v x
  rw [eq]
  rfl

theorem Strand.woken_wake {thr : Word} (hw : (st.eng w).waitsOn die n = some thr) (h : thr.toNat ≤ v.toNat) :
    ((st.wake now pick die n v x).eng w).woken.isSome = true := by
  obtain ⟨cmds, eq⟩ := st.wake_eq now pick die n v x
  have engine : (st.wake now pick die n v x).eng w = (st.eng w).compared now (pick.getLsbD w.part) die n v x := by
    rw [eq]
    cases w <;> rfl
  rw [engine]
  exact Engine.compared_of_reached hw h

/-- What a comparison of waiters leaves alone: the dies, the jobs, and the semaphores of every strand. -/
structure State.KeepsSems (s s1 : State) : Prop where
  dies : s1.dies = s.dies
  jobs : s1.jobs = s.jobs
  sems : ∀ c, (s1.strand c).map Strand.sems = (s.strand c).map Strand.sems

theorem State.KeepsSems.refl (s : State) : s.KeepsSems s := ⟨rfl, rfl, fun _ => rfl⟩

theorem State.KeepsSems.trans {s2 : State} (h : s.KeepsSems s1) (k : s1.KeepsSems s2) : s.KeepsSems s2 :=
  ⟨k.dies.trans h.dies, k.jobs.trans h.jobs, fun c => (k.sems c).trans (h.sems c)⟩

theorem State.KeepsSems.setStrand {q : Strand} (h : s.strand t = some st) (hq : q.sems = st.sems) (d : Nat) :
    s.KeepsSems ({ s with draws := d }.setStrand t q) := by
  refine ⟨rfl, rfl, fun c => ?_⟩
  rw [State.strand_setStrand]
  split
  · subst_vars
    rw [h, Option.map_some, Option.map_some, hq]
  · rfl

theorem State.keepsSems_wakeWaiters (s : State) (t : Core) (job : Word) (die : Bool) (n : Nat) :
    s.KeepsSems (wakeWaiters s t job die n) := by
  unfold wakeWaiters
  refine List.foldlRecOn (motive := s.KeepsSems) _ _ (.refl s) fun s1 kept c _ => ?_
  cases h : s1.strand c with
  | none => exact kept
  | some q =>
    dsimp only
    split
    · exact kept
    · split
      · exact kept.trans (.setStrand h (Strand.sems_wake _ _ _ _ _ _ _) _)
      · exact kept.trans (.setStrand (s := s1) h (Strand.sems_wake _ _ _ _ _ _ _) s1.draws)

/-- The strand after its waiters on a strand semaphore are compared with its value. -/
theorem strand_wakeWaiters (h : s.strand t = some st) : ∃ pick x,
    (wakeWaiters s t st.job false n).strand t = some (st.wake s.psc pick false n (semValue s t st false n) x) := by
  refine ⟨Config.freeValue s.draws, semView s t st false n, ?_⟩
  simp only [wakeWaiters, Bool.false_eq_true, if_false, List.foldl_cons, List.foldl_nil, h, bne_self_eq_false]
  exact (State.strand_setStrand _ t t _).trans (if_pos rfl)

/-! Die semaphores (R427). -/

theorem dieSem_congr (dies : s1.dies = s.dies) (jobs : s1.jobs = s.jobs) (t : Core) (job : Word) (n : Nat) :
    dieSem s1 t job n = dieSem s t job n := by
  simp only [dieSem, dieSemIndex, State.job?, State.die, dies, jobs]

theorem lookupNat_filter_ne {β : Type} (l : List (Nat × β)) (k : Nat) : lookupNat (l.filter fun x => x.1 != k) k = none := by
  induction l with
  | nil => rfl
  | cons y l ih =>
    rw [List.filter_cons]
    split
    · next keep => exact (if_neg (bne_iff_ne.mp keep)).trans ih
    · exact ih

theorem dieSem_setDieSem (s : State) (t : Core) (job : Word) (n : Nat) (v : Word) : dieSem (setDieSem s t job n v) t job n = v := by
  have index : dieSemIndex (setDieSem s t job n v) t job n = dieSemIndex s t job n := rfl
  rw [dieSem, index, setDieSem, State.die_updDie, if_pos rfl]
  dsimp only
  split
  · next zero => rw [lookupNat_filter_ne, zero]; rfl
  · rw [lookupNat_insertNat, if_pos rfl]; rfl

/-! A release on a semaphore (R302). -/

theorem dieSem_attachView (s : State) (t : Core) (job : Word) (n : Nat) (x : View) :
    dieSem (attachView s t job true n x) t job n = dieSem s t job n := by
  unfold attachView
  dsimp only
  rw [dieSem_congr (State.keepsSems_wakeWaiters _ _ _ _ _).dies (State.keepsSems_wakeWaiters _ _ _ _ _).jobs]
  rw [if_pos rfl, dieSem, dieSem, State.die_updDie, if_pos rfl]
  rfl

theorem sems_attachView_die (s : State) (t : Core) (job : Word) (n : Nat) (x : View) (c : Core) :
    ((attachView s t job true n x).strand c).map Strand.sems = (s.strand c).map Strand.sems :=
  (State.keepsSems_wakeWaiters _ _ _ _ _).sems c

theorem dies_attachView_strand (s : State) (t : Core) (job : Word) (n : Nat) (x : View) : (attachView s t job false n x).dies = s.dies :=
  (State.keepsSems_wakeWaiters _ _ _ _ _).dies

/-- A release on a strand semaphore leaves the semaphores and meets each engine whose threshold the value has reached (R434). -/
theorem strand_attachView {job : Word} (h : s.strand t = some st) (hj : st.job = job) (hn : n < 32) (x : View) :
    ∃ q, (attachView s t job false n x).strand t = some q ∧ q.sems = st.sems ∧ ∀ (w : Eng) (thr : Word),
      (st.eng w).waitsOn false n = some thr → thr.toNat ≤ (st.sems.get ⟨n, hn⟩).toNat → (q.eng w).woken.isSome = true := by
  subst hj
  let f : Strand → Strand := fun q =>
    { q with semViews := if h : n < 32 then q.semViews.set n ((q.semViews.get ⟨n, h⟩).join x) h else q.semViews }
  have attached : (s.updStrand t f).strand t = some (f st) := by rw [State.strand_updStrand, if_pos rfl, h, Option.map_some]
  have engine (w : Eng) : (f st).eng w = st.eng w := by cases w <;> rfl
  obtain ⟨pick, y, woken⟩ := strand_wakeWaiters (n := n) attached
  refine ⟨_, woken, Strand.sems_wake _ _ _ _ _ _ _, fun w thr waiting reached => ?_⟩
  rw [← getD_toList_eq_get st.sems hn 0] at reached
  exact Strand.woken_wake ((congrArg (·.waitsOn false n) (engine w)).trans waiting) reached

/-! The change of a semaphore (R301, R302, R431). -/

/-- The strand once an engine has made a release at a scope. -/
def Strand.releasing (st : Strand) (e : Eng) (sc : Scope) (x : View) : Strand :=
  st.updEng e fun g => { g with sig := { g.sig with rels := g.sig.rels.add sc x } }

/-- A release within a die, where no write of the engine is on its way and none that it covers is held. -/
theorem release_of_free {sc : Scope} (h : s.strand t = some st) (narrow : sc.wide = false)
    (own : ∀ p ∈ s.pending, p.agent ≠ st.agent t e.part)
    (free : s.coversHeld (s.covers (st.agent t e.part) (st.eng e).view) = false) :
    ∃ x, release s t e sc = .ok (s.setStrand t (st.releasing e sc x), x) := by
  have none_ : (s.pending.any fun p => p.agent == st.agent t e.part && (isHost p.addr || homeDie p.addr == dieOf t)) = false :=
    List.any_eq_false.mpr fun p hp both => own p hp (beq_iff_eq.mp (Bool.and_eq_true_iff.mp both).1)
  refine ⟨s.covers (st.agent t e.part) (st.eng e).view, ?_⟩
  simp only [release, h, none_, free, narrow, Bool.false_and, Bool.or_self, Bool.false_eq_true, if_false,
    State.updStrand_of_strand h, Strand.releasing]

theorem semChange_of_outside (op : SemOp) {k : BitVec 10} (h : 32 ≤ k.toNat) :
    semChange op e 0 k v s t st = .error (.fault .illegal) := by
  have outside : (!((0 : BitVec 1) == 1) && decide (k.toNat > 31)) = true := Bool.and_eq_true_iff.mpr ⟨rfl, decide_eq_true (by omega)⟩
  simp only [semChange, outside, if_true, raise]

/-- A saturated change is counted (R431, R446). -/
def State.saturating (s : State) (t : Core) (sat : Bool) : State := if sat then s.updStrand t (·.count 16 1) else s

theorem State.dies_saturating (s : State) (t : Core) (sat : Bool) : (s.saturating t sat).dies = s.dies := by cases sat <;> rfl
theorem State.jobs_saturating (s : State) (t : Core) (sat : Bool) : (s.saturating t sat).jobs = s.jobs := by cases sat <;> rfl

/-- The count of saturations is apart from semaphores and engines. -/
theorem State.strand_saturating (h : s.strand t = some st) (sat : Bool) :
    ∃ q, (s.saturating t sat).strand t = some q ∧ q.sems = st.sems ∧ ∀ w, q.eng w = st.eng w := by
  cases sat with
  | false => exact ⟨st, h, rfl, fun _ => rfl⟩
  | true =>
    refine ⟨st.count 16 1, ?_, rfl, fun w => by cases w <;> rfl⟩
    rw [State.saturating, if_pos rfl, State.strand_updStrand, if_pos rfl, h, Option.map_some]

theorem semChange_of_release {op : SemOp} {d : BitVec 1} {k : BitVec 10} {c : Word × Bool} (inside : d = 0 → k.toNat < 32)
    (rel : release s t e (if d == 1 then .die else .strand) = .ok (s1, x)) (new : op.apply (semValue s t st (d == 1) k.toNat) v = c) :
    semChange op e d k v s t st =
      .ok ((attachView (setSem s1 t (d == 1) k.toNat c.1) t st.job (d == 1) k.toNat x).saturating t c.2) := by
  simp only [semChange, semNumber_inRange inside, Bool.false_eq_true, if_false, rel, new, ok_bind, State.saturating]

theorem setSem_of_strand (h : s.strand t = some st) (hn : n < 32) (v : Word) :
    setSem s t false n v = s.setStrand t { st with sems := st.sems.set n v hn } := by
  simp only [setSem, h, Bool.false_eq_true, if_false, State.updStrand_of_strand h, dif_pos hn]

theorem setSem_of_die (h : s.strand t = some st) (v : Word) : setSem s t true n v = setDieSem s t st.job n v := by
  simp only [setSem, h, if_true]

section
variable (h : s.strand t = some st) (own : ∀ p ∈ s.pending, p.agent ≠ st.agent t e.part)
  (free : s.coversHeld (s.covers (st.agent t e.part) (st.eng e).view) = false)
include h own free

theorem semChange_of_strand (op : SemOp) {k : BitVec 10} (hk : k.toNat < 32) : ∃ t1 q, semChange op e 0 k v s t st = .ok t1 ∧
    t1.dies = s.dies ∧ t1.strand t = some q ∧ q.sems = st.sems.set k.toNat (op.apply (st.sems.get ⟨k.toNat, hk⟩) v).1 ∧
    ∀ (w : Eng) (thr : Word), w ≠ e → (st.eng w).waitsOn false k.toNat = some thr →
      thr.toNat ≤ (op.apply (st.sems.get ⟨k.toNat, hk⟩) v).1.toNat → (q.eng w).woken.isSome = true := by
  obtain ⟨x, rel⟩ := release_of_free (sc := .strand) h rfl own free
  let c := op.apply (st.sems.get ⟨k.toNat, hk⟩) v
  have new : op.apply (semValue s t st false k.toNat) v = c := by
    rw [semValue, if_neg Bool.false_ne_true, getD_toList_eq_get st.sems hk]
  let st1 := st.releasing e .strand x
  let st2 : Strand := { st1 with sems := st1.sems.set k.toNat c.1 hk }
  have sems2 : st2.sems = st.sems.set k.toNat c.1 hk := congrArg (·.set k.toNat c.1 hk) (Strand.updEng_sems st e _)
  have value : st2.sems.get ⟨k.toNat, hk⟩ = c.1 := by rw [sems2]; exact Vector.getElem_set_self hk
  have changed : setSem (s.setStrand t st1) t false k.toNat c.1 = s.setStrand t st2 :=
    (setSem_of_strand ((State.strand_setStrand s t t st1).trans (if_pos rfl)) hk c.1).trans (State.setStrand_setStrand s t st1 st2)
  have made : semChange op e 0 k v s t st = .ok ((attachView (s.setStrand t st2) t st.job false k.toNat x).saturating t c.2) :=
    changed ▸ semChange_of_release (d := 0) (fun _ => hk) rel new
  obtain ⟨q2, strand2, keeps2, met⟩ := strand_attachView (s := s.setStrand t st2)
    ((State.strand_setStrand s t t st2).trans (if_pos rfl)) (Strand.updEng_job st e _) hk x
  obtain ⟨q, strand, keeps, engines⟩ := State.strand_saturating strand2 c.2
  refine ⟨_, q, made, (State.dies_saturating _ _ _).trans (dies_attachView_strand _ _ _ _ _), strand, (keeps.trans keeps2).trans sems2,
    fun w thr other waiting reached => ?_⟩
  have untouched : st2.eng w = st.eng w := calc
    st2.eng w = st1.eng w := by cases w <;> rfl
    _ = st.eng w := (Strand.eng_updEng st e w _).trans (if_neg other)
  rw [engines]
  exact met w thr (untouched ▸ waiting) (value ▸ reached)

theorem semChange_of_die (op : SemOp) (k : BitVec 10) : ∃ t1 q, semChange op e 1 k v s t st = .ok t1 ∧
    dieSem t1 t st.job k.toNat = (op.apply (dieSem s t st.job k.toNat) v).1 ∧ t1.strand t = some q ∧ q.sems = st.sems := by
  obtain ⟨x, rel⟩ := release_of_free (sc := .die) h rfl own free
  let st1 := st.releasing e .die x
  let c := op.apply (dieSem s t st.job k.toNat) v
  let s2 := setDieSem (s.setStrand t st1) t st.job k.toNat c.1
  have here : (s.setStrand t st1).strand t = some st1 := (State.strand_setStrand s t t st1).trans (if_pos rfl)
  have job1 : st1.job = st.job := Strand.updEng_job st e _
  have changed : setSem (s.setStrand t st1) t true k.toNat c.1 = s2 := (setSem_of_die here c.1).trans (by rw [job1])
  have made : semChange op e 1 k v s t st = .ok ((attachView s2 t st.job true k.toNat x).saturating t c.2) :=
    changed ▸ semChange_of_release (d := 1) (fun zero => absurd zero (by decide)) rel rfl
  have kept := sems_attachView_die s2 t st.job k.toNat x t
  rw [show s2.strand t = some st1 from here, Option.map_some] at kept
  obtain ⟨q2, strand2, keeps2⟩ := Option.map_eq_some_iff.mp kept
  obtain ⟨q, strand, keeps, -⟩ := State.strand_saturating strand2 c.2
  refine ⟨_, q, made, ?_, strand, (keeps.trans keeps2).trans (Strand.updEng_sems st e _)⟩
  rw [dieSem_congr (State.dies_saturating _ _ _) (State.jobs_saturating _ _ _), dieSem_attachView]
  exact dieSem_setDieSem _ _ _ _ _

end

/-- SEMW below its threshold (R434). -/
theorem semWait_of_unmet {d : BitVec 1} {k : BitVec 10} (hn : d = 0 → k.toNat < 32) (hx : (st.eng e).woken = none)
    (hv : (semValue s t st (d == 1) k.toNat).toNat < v.toNat) :
    semWait e d k v s t st = .error (.wait (if d = 1 then .dieSem k v else .sem (k.setWidth 5) v)) := by
  simp only [semWait, semNumber_inRange hn, hx, Nat.not_le.mpr hv, Bool.false_eq_true, if_false, await, beq_iff_eq]

/-- The strand once its engine has passed a word. -/
def Strand.passedOn (st : Strand) (e : Eng) (len : Nat) : Strand := ((st.updEng e fun g => g.pass len).count (engCounter e) 1).trimLedger

theorem strand_passWord (h : s.strand t = some st) (e : Eng) (len : Nat) : (passWord s t e len).strand t = some (st.passedOn e len) := by
  rw [passWord, State.strand_updStrand, if_pos rfl, h, Option.map_some]
  rfl

theorem sems_passedOn (st : Strand) (e : Eng) (len : Nat) : (st.passedOn e len).sems = st.sems := Strand.updEng_sems st e _

theorem eng_passedOn (h : w ≠ e) (len : Nat) : (st.passedOn e len).eng w = st.eng w := by
  simp [Strand.passedOn, h]

/-- An engine waits on a strand semaphore by its number in five bits. -/
theorem Engine.waitsOn_of_sem {g : Engine} {k : BitVec 10} {thr : Word} (hk : k.toNat < 32) (h : g.wait = some (.sem (k.setWidth 5) thr)) :
    g.waitsOn false k.toNat = some thr := by
  have number : (k.setWidth 5).toNat = k.toNat := by rw [BitVec.toNat_setWidth, Nat.mod_eq_of_lt hk]
  simp only [Engine.waitsOn, h, number, Bool.not_false, beq_self_eq_true, Bool.and_self, if_true]

end

end Sys2Proof.Machine

namespace Sys2Proof
open Sys2Proof.Machine

/-- Settles O21: a change by `semChange_of_strand` and `semChange_of_die`, a wait by whether it has been met and what the value is. -/
theorem semaphores : Obligations.Semaphores := by
  unfold Obligations.Semaphores
  refine ⟨fun s st e hs own free => ?changes, fun s st e die n hn => ?waits⟩
  case changes =>
    intro after gives
    have new (op : SemOp) (q v : Word) : (op.apply q v).1.toNat = after op q.toNat v.toNat := by
      rw [SemOp.toNat_apply]
      cases op <;> rfl
    have changes {i : Instr} {len : Nat} {op : SemOp} {die : BitVec 1} {n : BitVec 10} {v : Word} (ready : s.ready e len st)
        (hi : exec i s = checkedWord e len (semChange op e die n v) s) : gives i op die n v := by
      refine ⟨fun zero outside => ?outside, fun hk zero => ?strand, fun one => ?die⟩
      case outside =>
        subst zero
        exact hi.trans (checkedWord_fault ready (semChange_of_outside op outside))
      case strand =>
        subst zero
        obtain ⟨t1, q, made, dies, strand, sems, met⟩ := semChange_of_strand (v := v) hs own free op hk
        refine ⟨_, hi.trans (checkedWord_ok ready made), _, strand_passWord strand e len, ?_, fun k other => ?_, dies,
          fun w thr other waiting reached => ?_⟩
        · rw [sems_passedOn, sems, ← new]
          exact congrArg BitVec.toNat (Vector.getElem_set_self hk)
        · rw [sems_passedOn, sems]
          exact Vector.getElem_set_ne hk k.isLt (Ne.symm other)
        · rw [eng_passedOn other]
          exact met w thr other (Engine.waitsOn_of_sem hk waiting) (new op _ v ▸ reached)
      case die =>
        subst one
        obtain ⟨t1, q, made, value, strand, sems⟩ := semChange_of_die (v := v) hs own free op n
        refine ⟨_, hi.trans (checkedWord_ok ready made), ?_, _, strand_passWord strand e len, (sems_passedOn q e len).trans sems⟩
        rw [← new, ← value]
        rfl
    exact ⟨fun slip die n v => ⟨changes (op := .inc) ⟨hs, slip⟩ rfl, changes (op := .dec) ⟨hs, slip⟩ rfl,
        changes (op := .set) ⟨hs, slip⟩ rfl⟩,
      fun slip die n v => ⟨changes (op := .inc) (v := v) ⟨hs, slip⟩ rfl, changes (op := .dec) (v := v) ⟨hs, slip⟩ rfl,
        changes (op := .set) (v := v) ⟨hs, slip⟩ rfl⟩⟩
  case waits =>
    intro q w acquired passes
    have waiting {i : Instr} {len : Nat} {v : Word} (ready : s.ready e len st)
        (hi : exec i s = checkedWord e len (semWait e die n v) s) : passes i len v :=
      ⟨fun x woken => hi.trans (checkedWord_ok ready (semWait_of_woken hn woken)),
        fun unmet reached => hi.trans (checkedWord_ok ready (semWait_of_met hn unmet reached)),
        fun unmet below => hi.trans (checkedWord_wait ready (semWait_of_unmet hn unmet below))⟩
    exact ⟨fun ready v => waiting ready rfl, fun ready v => waiting ready rfl⟩

end Sys2Proof
end

section
/-! PROOFS. An exchange command at the head of its sequencer (R309, R312, R326, R328, R332, R338, R340, R341, R458): which head is free to
start, the command once it has started, and what its start answers by its kind, its binding and its round. -/

namespace Sys2Proof.Machine

section
variable {s : State} {tile : Core} {st : Strand} {c : XCmd}

/-! The head that may start or go on (R309, R312). -/

theorem freeHead_of_held (hh : headCmd s tile = some (st, c)) (h : s.unraised (dieOf tile) = false ∨ waitsHeld s tile st c = true) :
    freeHead s tile = none := by
  have stays : (s.unraised (dieOf tile) && !waitsHeld s tile st c) = false := by rcases h with h | h <;> simp [h]
  simp only [freeHead, hh, stays, Bool.false_eq_true, if_false]

theorem freeHead_of_free (hh : headCmd s tile = some (st, c)) (raised : s.unraised (dieOf tile) = true)
    (free : waitsHeld s tile st c = false) : freeHead s tile = some (st, c) := by
  simp only [freeHead, hh, raised, free, Bool.not_false, Bool.and_self, if_true]

theorem exec_commandStart_of_held (h : freeHead s tile = none) : exec (.commandStart tile) s = .next s := by
  show execCommandStart tile s = _
  simp only [execCommandStart, h, notDue]

theorem exec_commandWaitSatisfied_of_held (h : freeHead s tile = none) : exec (.commandWaitSatisfied tile) s = .next s := by
  show execCommandWaitSatisfied tile s = _
  simp only [execCommandWaitSatisfied, h, notDue]

/-! The start (R332, R338, R340, R341, R458). -/

theorem exec_commandStart_of_active (hf : freeHead s tile = some (st, c)) (h : c.active = true) :
    exec (.commandStart tile) s = .next s := by
  show execCommandStart tile s = _
  simp only [execCommandStart, hf, h, if_true, notDue]

theorem exec_commandStart_of_fault {x : FaultCode} (hf : freeHead s tile = some (st, c)) (idle : c.active = false)
    (ho : pline true s tile st c.part c.view (c.handle.setWidth 64) = .error (.fault x)) :
    exec (.commandStart tile) s = .next (asyncFault s tile x) := by
  show execCommandStart tile s = _
  simp only [execCommandStart, hf, idle, ho, Bool.false_eq_true, if_false]

theorem exec_commandStart_of_wait {w : Wait} (hf : freeHead s tile = some (st, c)) (idle : c.active = false)
    (ho : pline true s tile st c.part c.view (c.handle.setWidth 64) = .error (.wait w)) :
    exec (.commandStart tile) s = .next (waitHead s tile w) := by
  show execCommandStart tile s = _
  simp only [execCommandStart, hf, idle, ho, Bool.false_eq_true, if_false]

/-- The command once it has started under a binding (R326, R332). -/
def XCmd.startedAs (c : XCmd) (v : View) (p : Pline) : XCmd :=
  { c with active := true, held := false, ticks := 0, gen := p.gen, own := p.own, ftag := p.ftag, view := v
           mask := if c.kind = 3 then c.mask else p.mask
           tmo := if c.kind = 0 then cmdField c.body 351 320 else if c.kind = 3 then p.btmo else cmdField c.body 383 352 }

/-- The mask that XBIND hands to the fabric (R340). -/
def XCmd.bindMessage (c : XCmd) (p : Pline) : FabricMsg :=
  { ftag := p.ftag, gen := p.gen, rank := p.own, round := bindRoundNo, op := 0, rop := 0, peer := 0, count := 0, leaves := [], eloc := none
    data := true, bind := some c.mask }

section
variable {s0 s1 : State} {v : View} {p : Pline} {n : Nat}
variable (hf : freeHead s tile = some (st, c)) (idle : c.active = false)
  (ho : pline true s tile st c.part c.view (c.handle.setWidth 64) = .ok (s0, v, p))
include hf idle ho

theorem exec_commandStart_of_bind_lost (kind : c.kind = 3) (ports : s.card.ports = 0) :
    exec (.commandStart tile) s = .next (setHead s0 tile (c.startedAs v p)) := by
  show execCommandStart tile s = _
  simp only [execCommandStart, hf, idle, ho, Bool.false_eq_true, if_false, if_pos kind, ports, beq_self_eq_true, if_true,
    XCmd.startedAs]

theorem exec_commandStart_of_bind_held (kind : c.kind = 3) (ports : s.card.ports ≠ 0) (chain : s.chainFree (dieOf tile) = false) :
    exec (.commandStart tile) s = .next s := by
  show execCommandStart tile s = _
  simp only [execCommandStart, hf, idle, ho, Bool.false_eq_true, if_false, if_pos kind, beq_false_of_ne ports, chain, Bool.not_false,
    if_true, notDue]

theorem exec_commandStart_of_bind (kind : c.kind = 3) (ports : s.card.ports ≠ 0) (chain : s.chainFree (dieOf tile) = true) :
    exec (.commandStart tile) s = .next (updRound (setHead s0 tile (c.startedAs v p)) p.ftag p.gen bindRoundNo fun r =>
      r.take s.psc (c.bindMessage p)) := by
  show execCommandStart tile s = _
  simp only [execCommandStart, hf, idle, ho, Bool.false_eq_true, if_false, if_pos kind, beq_false_of_ne ports, chain, Bool.not_true,
    XCmd.startedAs, XCmd.bindMessage]

theorem exec_commandStart_of_dead (kind : c.kind ≠ 3) (dead : st.dead.contains (c.handle, p.gen) = true) :
    exec (.commandStart tile) s = .next (finishCmd s0 tile c 4) := by
  show execCommandStart tile s = _
  simp only [execCommandStart, hf, idle, ho, Bool.false_eq_true, if_false, if_neg kind, dead, if_true]

/-- A transfer's start, by its peer (log 75). -/
theorem exec_commandStart_of_transfer (kind : c.kind ≠ 3) (transfer : c.kind ≠ 0)
    (alive : st.dead.contains (c.handle, p.gen) = false) : exec (.commandStart tile) s =
    if sizeOf' (c.startedAs v p) ≤ bits c.body.toNat 287 276 ∨ bits c.body.toNat 287 276 = boundRank p.mask p.own then
      .next (finishCmd s0 tile c 6)
    else .next (setHead s0 tile (c.startedAs v p)) := by
  show execCommandStart tile s = _
  simp only [execCommandStart, hf, idle, ho, Bool.false_eq_true, if_false, if_neg kind, alive, bne_iff_ne.mpr transfer, if_true,
    XCmd.startedAs, ge_iff_le]

/-! A collective takes its round (R332, log 14). -/

/-- What a started collective whose wait semaphore has met its threshold at the start acquires; none where it has not (R332). -/
def metAtStart (s : State) (tile : Core) (st : Strand) (c : XCmd) (now : DWord) : Option (DWord × View) :=
  if cmdField c.body 200 200 == 1 && waitMet s tile st c then
    some (now, semView s tile st (cmdField c.body 211 211 == 1) (cmdField c.body 210 201))
  else none

/-- A started command that has taken a round. -/
def XCmd.inRound (c : XCmd) (n : Nat) (met : Option (DWord × View)) : XCmd := { c with round := n, met := met }

section
variable (kind : c.kind = 0) (alive : st.dead.contains (c.handle, p.gen) = false) (round : nextRound s0 st (c.startedAs v p) = (s1, n))
include kind alive round

theorem exec_commandStart_of_collective : exec (.commandStart tile) s =
    let c2 := (c.startedAs v p).inRound n (metAtStart s1 tile st (c.startedAs v p) s.psc)
    let s2 := setHead s1 tile c2
    let r := findRound s2 p.ftag p.gen n
    if r.any (·.aborted) then .next (finishCmd s2 tile c2 5)
    else if r.any (·.mismatched) then .next (finishCmd s2 tile c2 6)
    else if cmdField c.body 200 200 = 0 then .next (beginCmd s2 tile)
    else .next s2 := by
  have noBind : c.kind ≠ 3 := by rw [kind]; decide
  have collective : ¬ (c.kind != 0) = true := by rw [kind]; decide
  obtain ⟨rfl, rfl⟩ : (nextRound s0 st (c.startedAs v p)).1 = s1 ∧ (nextRound s0 st (c.startedAs v p)).2 = n := by
    rw [round]
    exact ⟨rfl, rfl⟩
  show execCommandStart tile s = _
  simp only [execCommandStart, hf, idle, ho, Bool.false_eq_true, if_false]
  exact (if_neg noBind).trans ((if_neg (ne_true_of_eq_false alive)).trans (if_neg collective))

section
variable {c2 : XCmd} (hc : (c.startedAs v p).inRound n (metAtStart s1 tile st (c.startedAs v p) s.psc) = c2)
include hc

theorem exec_commandStart_of_aborted {r : Round} (found : findRound (setHead s1 tile c2) p.ftag p.gen n = some r)
    (aborted : r.aborted = true) : exec (.commandStart tile) s = .next (finishCmd (setHead s1 tile c2) tile c2 5) := by
  simp only [exec_commandStart_of_collective hf idle ho kind alive round, hc, found, Option.any_some, aborted, if_true]

theorem exec_commandStart_of_mismatched {r : Round} (found : findRound (setHead s1 tile c2) p.ftag p.gen n = some r)
    (live : r.aborted = false) (mismatched : r.mismatched = true) :
    exec (.commandStart tile) s = .next (finishCmd (setHead s1 tile c2) tile c2 6) := by
  simp only [exec_commandStart_of_collective hf idle ho kind alive round, hc, found, Option.any_some, live, mismatched,
    Bool.false_eq_true, if_false, if_true]

/-- A collective whose round nothing has ended begins, unless it waits on a semaphore. -/
theorem exec_commandStart_of_sound
    (sound : ∀ r, findRound (setHead s1 tile c2) p.ftag p.gen n = some r → r.aborted = false ∧ r.mismatched = false) :
    exec (.commandStart tile) s =
      .next (if cmdField c.body 200 200 = 0 then beginCmd (setHead s1 tile c2) tile else setHead s1 tile c2) := by
  have live : (findRound (setHead s1 tile c2) p.ftag p.gen n).any (·.aborted) = false :=
    (Option.any_eq_false _ _).mpr fun r found => (sound r found).1
  have agreed : (findRound (setHead s1 tile c2) p.ftag p.gen n).any (·.mismatched) = false :=
    (Option.any_eq_false _ _).mpr fun r found => (sound r found).2
  simp only [exec_commandStart_of_collective hf idle ho kind alive round, hc, live, agreed, Bool.false_eq_true, if_false]
  exact (apply_ite Host.Outcome.next _ _ _).symm

end

end

end

/-! The wait semaphore, and what held the command's reads or its message (R301, R332, R338). -/

section
variable (hf : freeHead s tile = some (st, c))
include hf

theorem exec_commandWaitSatisfied_of_cut (h : c.cut.isSome = true) : exec (.commandWaitSatisfied tile) s = .next s := by
  show execCommandWaitSatisfied tile s = _
  simp only [execCommandWaitSatisfied, hf, h, Bool.or_true, Bool.true_or, if_true, notDue]

theorem exec_commandWaitSatisfied_of_unmet (waited : c.waited = false) (met : c.met = none) (h : waitMet s tile st c = false) :
    exec (.commandWaitSatisfied tile) s = .next s := by
  show execCommandWaitSatisfied tile s = _
  simp only [execCommandWaitSatisfied, hf, waited, met, h, Option.isSome_none, Bool.or_self, Bool.not_false, Bool.or_true, if_true, notDue]

variable (kind : c.kind = 0) (active : c.active = true) (sent : c.sent = false) (cut : c.cut = none)
include kind active sent cut

/-- A collective that waits on a semaphore begins once it has met its threshold, at some time or now, bound to what it acquires. -/
theorem exec_commandWaitSatisfied_of_met {w : View} (waited : c.waited = false) (sem : cmdField c.body 200 200 = 1)
    (h : c.met.map Prod.snd = some w ∨ c.met = none ∧ waitMet s tile st c = true ∧
      semView s tile st (cmdField c.body 211 211 == 1) (cmdField c.body 210 201) = w) :
    exec (.commandWaitSatisfied tile) s = .next (beginCmd (setHead s tile { c with view := c.view.join w }) tile) := by
  show execCommandWaitSatisfied tile s = _
  rcases h with h | ⟨none_, reached, rfl⟩
  · obtain ⟨x, some_, rfl⟩ := Option.map_eq_some_iff.mp h
    simp [execCommandWaitSatisfied, hf, kind, active, sent, cut, waited, some_, sem]
  · simp [execCommandWaitSatisfied, hf, kind, active, sent, cut, waited, none_, reached, sem]

/-- A collective past its wait goes on once what held it no longer does. -/
theorem exec_commandWaitSatisfied_of_waited (waited : c.waited = true)
    (h : ∀ st2 c2, headCmd (beginCmd (setHead s tile c) tile) tile = some (st2, c2) → c2 ≠ c) :
    exec (.commandWaitSatisfied tile) s = .next (beginCmd (setHead s tile c) tile) := by
  show execCommandWaitSatisfied tile s = _
  simp only [execCommandWaitSatisfied, hf, kind, active, sent, cut, waited, bne_self_eq_false, Bool.not_true, Option.isSome_none,
    Bool.or_self, Bool.true_or, Bool.false_eq_true, if_false, if_true, Bool.true_and]
  cases moved : headCmd (beginCmd (setHead s tile c) tile) tile with
  | none => exact if_neg Bool.false_ne_true
  | some q => exact if_neg (by simpa using h q.1 q.2 moved)

end

end

end Sys2Proof.Machine

namespace Sys2Proof
open Sys2Proof.Machine

/-- Settles O45: the start by the command's kind, its binding and its round; the wait by what the command has met. -/
theorem commandsStart : Obligations.CommandsStart := by
  unfold Obligations.CommandsStart
  intro s tile st c hh
  dsimp only
  refine ⟨fun h => ?held, fun raised free => ?_⟩
  case held =>
    have none_ := freeHead_of_held hh h
    exact ⟨exec_commandStart_of_held none_, exec_commandWaitSatisfied_of_held none_⟩
  have hf := freeHead_of_free hh raised free
  refine ⟨exec_commandStart_of_active hf, fun s0 v p idle ho => ?start, fun h idle ho => ?unread, fun kind active sent cut => ?wait,
    exec_commandWaitSatisfied_of_cut hf⟩
  case start =>
    refine ⟨exec_commandStart_of_bind_lost hf idle ho, exec_commandStart_of_bind_held hf idle ho, exec_commandStart_of_bind hf idle ho,
      exec_commandStart_of_dead hf idle ho, fun kind transfer alive => ?transfer, fun s1 n kind alive round m hmet hnone => ?collective⟩
    case transfer =>
      have start := exec_commandStart_of_transfer hf idle ho kind transfer alive
      exact ⟨fun outside => start.trans (if_pos outside),
        fun inside other => start.trans (if_neg (not_or.mpr ⟨Nat.not_le.mpr inside, other⟩))⟩
    case collective =>
      have met : metAtStart s1 tile st (c.startedAs v p) s.psc = m := by
        by_cases now : cmdField c.body 200 200 = 1 ∧ waitMet s1 tile st (c.startedAs v p) = true
        · exact (if_pos (Bool.and_eq_true_iff.mpr ⟨beq_iff_eq.mpr now.1, now.2⟩)).trans (hmet now).symm
        · refine (if_neg fun both => now ?_).trans (hnone now).symm
          obtain ⟨sem, reached⟩ := Bool.and_eq_true_iff.mp both
          exact ⟨beq_iff_eq.mp sem, reached⟩
      have taken := congrArg ((c.startedAs v p).inRound n) met
      exact ⟨fun r => exec_commandStart_of_aborted hf idle ho kind alive round taken,
        fun r => exec_commandStart_of_mismatched hf idle ho kind alive round taken,
        exec_commandStart_of_sound hf idle ho kind alive round taken⟩
  case unread =>
    exact ⟨fun x hx => exec_commandStart_of_fault hf idle (hx ▸ ho), fun w hw => exec_commandStart_of_wait hf idle (hw ▸ ho)⟩
  case wait =>
    refine ⟨fun waited sem => ⟨fun x met => ?_, fun met reached => ?_⟩, exec_commandWaitSatisfied_of_unmet hf,
      exec_commandWaitSatisfied_of_waited hf kind active sent cut⟩
    · exact exec_commandWaitSatisfied_of_met hf kind active sent cut waited sem (.inl (by rw [met]; rfl))
    · exact exec_commandWaitSatisfied_of_met hf kind active sent cut waited sem (.inr ⟨met, reached, rfl⟩)

end Sys2Proof
end

section
/-! PROOFS. Stops (R309, R312, R367, R368, R402 to R405, R410, R416): who asks for a stop, the guards of the stop events, and the steps from
a stop point to a context saved. -/

namespace Sys2Proof.Machine

section
variable {s s1 s2 : State} {tile : Core} {st : Strand} {r : Stop} {h : Nat}

/-! Who asks for a stop (R367, R368, R402, R459). -/

/-- A fold that keeps one of two ends in one of the values that it has met. -/
theorem foldl_mem {α : Type} {f : α → α → α} (hf : ∀ a b, f a b = a ∨ f a b = b) (x : α) (xs : List α) :
    xs.foldl f x ∈ x :: xs :=
  List.foldlRecOn (motive := (· ∈ x :: xs)) xs f List.mem_cons_self fun b hb a ha => by
    rcases hf b a with eq | eq <;> rw [eq]
    · exact hb
    · exact List.mem_cons_of_mem x ha

/-- The strand that a launch stops is one of a lower class (R368). -/
theorem lower_of_victim {cls : Class} {ts : List Core} {t : Core} (hv : victim s cls ts = some t) :
    ∃ q, s.strand t = some q ∧ cls.bits.toNat < q.cls.bits.toNat := by
  unfold victim at hv
  dsimp only at hv
  split at hv
  · cases hv
  · next x xs list =>
    cases hv
    have mem := foldl_mem (f := fun a b => if worseVictim s b a then b else a)
      (fun a b => (ite_eq_or_eq (worseVictim s b a = true) b a).symm) x xs
    rw [← list] at mem
    obtain ⟨c, -, found⟩ := List.mem_filterMap.mp mem
    split at found
    · next q hq =>
      split at found
      · next lower =>
        rw [← Option.some.inj found]
        exact ⟨q, hq, of_decide_eq_true (Bool.and_eq_true_iff.mp (Bool.and_eq_true_iff.mp lower).1).1⟩
      · cases found
    · cases found

/-- A launch that asks for a tile core has it in its team, is of a higher class than its strand, and goes on. -/
theorem asker_spec (hs : s.strand tile = some st) (ha : asker s tile = some h) : ∃ l ∈ s.launches, l.handle = h ∧
    l.team.getLsbD tile.val = true ∧ l.cls.bits.toNat < st.cls.bits.toNat ∧ l.faulted = false ∧ l.cancelled = false := by
  obtain ⟨l, found, rfl⟩ := Option.map_eq_some_iff.mp ha
  have asks := List.find?_some found
  simp only [Bool.and_eq_true, beq_iff_eq, asksMore, Bool.not_eq_true'] at asks
  obtain ⟨⟨team, ⟨⟨-, live⟩, kept⟩, -⟩, takes⟩ := asks
  obtain ⟨q, hq, lower⟩ := lower_of_victim takes
  cases hs.symm.trans hq
  exact ⟨l, List.mem_of_find?_eq_some found, rfl, team, lower, live, kept⟩

/-- What a request for a strand is for: a fence that no request answers yet, or the launch that asks. -/
def requester (s : State) (tile : Core) (st : Strand) : Option (Option Nat) :=
  if st.stop.isNone && (s.core tile).fenced then some none else (asker s tile).map some

theorem requester_of_fenced (hn : st.stop = none) (fenced : (s.core tile).fenced = true) : requester s tile st = some none := by
  rw [requester, hn, fenced]
  rfl

theorem requester_of_unfenced (other : st.stop = none → (s.core tile).fenced = false) :
    requester s tile st = (asker s tile).map some :=
  if_neg fun both => by
    obtain ⟨stop, fenced⟩ := Bool.and_eq_true_iff.mp both
    exact ne_true_of_eq_false (other (Option.isNone_iff_eq_none.mp stop)) fenced

/-- A request goes to a strand, or to its whole gang, with the mark of what it is for; where no slot is free for one of them, none goes. -/
theorem exec_stopRequest_eq (hs : s.strand tile = some st) (live : st.dead54 = false) : exec (.stopRequest tile) s =
    .next (((requester s tile st).bind fun h => ((stopSet s tile st).foldlM sendStop s).map fun s1 =>
      markStop s1 tile fun r => { r with wanted := h }).getD s) := by
  show execStopRequest tile s = _
  simp only [execStopRequest, hs, live, Bool.false_eq_true, if_false, requester]
  split
  · cases (stopSet s tile st).foldlM sendStop s <;> rfl
  · cases asker s tile with
    | none => rfl
    | some h => cases (stopSet s tile st).foldlM sendStop s <;> rfl

/-! Withdrawal (R367, R368, R403, R405). -/

/-- A strand's context is being written. -/
def savingAt (s : State) (t : Core) : Bool :=
  match s.strand t with
  | some q => (match q.stop with | some x => x.saving | none => false)
  | none => false

theorem savingAt_iff {t : Core} : savingAt s t = true ↔ ∃ q x, s.strand t = some q ∧ q.stop = some x ∧ x.saving = true := by
  unfold savingAt
  cases s.strand t with
  | none => simp
  | some q => cases hq : q.stop <;> simp [hq]

/-- The first context of a strand's gang stands in its launch. -/
def gangSaved (s : State) (st : Strand) : Bool :=
  st.gang && match s.launch? st.handle with | some l => !l.stopped.isEmpty | none => false

theorem gangSaved_iff : gangSaved s st = true ↔ st.gang = true ∧ ∃ l, s.launch? st.handle = some l ∧ l.stopped ≠ [] := by
  unfold gangSaved
  cases s.launch? st.handle <;> simp

/-- The launch that a request is for still needs the tile core. -/
def Stop.needed (r : Stop) (s : State) (t : Core) : Bool :=
  match r.wanted with | some h => stillNeeded s h t | none => false

theorem Stop.needed_iff : r.needed s tile = true ↔ ∃ h, r.wanted = some h ∧ stillNeeded s h tile = true := by
  unfold Stop.needed
  cases r.wanted <;> simp

/-- A request stays: it is a CANCEL's, a context of its gang has begun, or it is needed. -/
def withdrawWaits (s : State) (tile : Core) (st : Strand) (r : Stop) : Bool :=
  r.cancel || (gangSaved s st || (stopSet s tile st).any (savingAt s)) || r.needed s tile ||
    (r.wanted.isNone && (stopSet s tile st).any (reasonHolds s))

theorem withdrawWaits_iff : withdrawWaits s tile st r = true ↔ r.cancel = true ∨
    ((st.gang = true ∧ ∃ l, s.launch? st.handle = some l ∧ l.stopped ≠ []) ∨
      ∃ t ∈ stopSet s tile st, ∃ q x, s.strand t = some q ∧ q.stop = some x ∧ x.saving = true) ∨
    (∃ h, r.wanted = some h ∧ stillNeeded s h tile = true) ∨
    r.wanted = none ∧ ∃ t ∈ stopSet s tile st, reasonHolds s t = true := by
  simp only [withdrawWaits, Bool.or_eq_true, Bool.and_eq_true, gangSaved_iff, List.any_eq_true, savingAt_iff, Stop.needed_iff,
    Option.isNone_iff_eq_none, or_assoc]

theorem exec_stopWithdraw_eq (hs : s.strand tile = some st) (hr : st.stop = some r) : exec (.stopWithdraw tile) s =
    if withdrawWaits s tile st r then .next s
    else
      let s1 := markStop s tile fun r => { r with wanted := none }
      .next (if (stopSet s tile st).any (reasonHolds s1) then s1 else (stopSet s tile st).foldl dropStop s1) := by
  show execStopWithdraw tile s = _
  simp only [execStopWithdraw, hs, hr]
  rfl

/-! The stop point, and the context (R403, R404, R407 to R410). -/

/-- The parts of a stopped strand's context (R408, R409). -/
def stopParts (s : State) (tile : Core) (st : Strand) (r : Stop) : List (Nat × List Byte) :=
  contextParts st.countStop (s.core tile).spad (masksOf r.entry.2 st.c.depth.toNat) r.entry.1 r.entry.2

/-- The write of a stopped strand's context to its slot, once its deltas are added (R403, R410). -/
def writeStopped (s : State) (tile : Core) (st : Strand) (r : Stop) (j : Job) : Partway State :=
  writeContext tile st (slotBase j (r.slot.getD 0)) (stopParts s tile st r) (flushDeltas s tile none)

/-- The record of a stopped strand in its launch (R403, R411). -/
def stoppedAs (s : State) (tile : Core) (st : Strand) (r : Stop) : Stopped :=
  { index := st.index, slot := r.slot.getD 0, die := dieOf tile, back := st.c.pc + 1, view := strandCovers s tile st
    clock := (s.die (dieOf tile)).clock, signals := Eng.all.map fun e => (st.eng e).sig, lastTick := st.lastTick }

/-- What a save answers, by what the write of its context came to (R403, R410, R452). -/
def saveAnswer (s : State) (tile : Core) (r : Stop) : Partway State → Out
  | .error (.wait (.held a), _) => .next (s.hold (.part tile fetchPart) (dieOf tile) a)
  | .error (.wait _, _) => .next s
  | .error (.fault c, s2) => .next (wordFault s2 tile .c 0 c .async)
  | .ok s2 => .next (s2.updStrand tile fun q => { q with stop := some { r with saving := true } })

theorem saveAnswer_of_wait {w : Wait} (other : ∀ a, w ≠ .held a) : saveAnswer s tile r (.error (.wait w, s2)) = .next s := by
  cases w with
  | held a => exact absurd rfl (other a)
  | _ => rfl

section
variable (hs : s.strand tile = some st) (live : st.dead54 = false) (hr : st.stop = some r)
include hs live hr

/-- The stop state is checked, and then a cancelled strand that is quiet is discarded. -/
theorem exec_stopPointReached_eq (stopped : st.stopped = true) (unchecked : r.checked = false) : exec (.stopPointReached tile) s =
    .next (if !st.queuesEmpty || st.pred.length != bits r.entry.2 27 24 then wordFault s tile .c 0 .safeState .atWord
      else if r.cancel && (st.asyncs.isEmpty && st.cmds.isEmpty) then discardStrand s tile
      else s.setStrand tile { st with spdist := 0, stop := some { r with checked := true } }) := by
  show execStopPointReached tile s = _
  simp only [execStopPointReached, hs, hr, stopped, live, unchecked, Bool.not_true, Bool.false_and, Bool.or_self, Bool.false_eq_true,
    if_false]
  split
  · rfl
  · split <;> rfl

/-- A save that is due waits for its deltas' homes, and then answers by its write. -/
theorem exec_contextSave_eq {j : Job} (hj : s.job? st.job = some j) (stopped : st.stopped = true) (checked : r.checked = true)
    (kept : r.cancel = false) (first : r.saving = false) (cut : st.gang = true → r.cut = true) (asyncs : st.asyncs = [])
    (cmds : st.cmds = []) : exec (.contextSave tile) s =
      if deltasHeld s tile st then .next s else saveAnswer s tile r (writeStopped s tile st r j) := by
  have ready : (st.stopped && r.checked && !r.cancel && !r.saving && (!st.gang || r.cut) && st.asyncs.isEmpty && st.cmds.isEmpty &&
      !st.dead54) = true := by
    cases hg : st.gang <;> simp [stopped, checked, kept, first, asyncs, cmds, live, hg, cut]
  show execContextSave tile s = _
  simp only [execContextSave, hs, hr, hj, ready, Bool.not_true, Bool.false_or]
  split
  · rfl
  · unfold writeStopped stopParts
    cases writeContext tile st (slotBase j (r.slot.getD 0))
        (contextParts st.countStop (s.core tile).spad (masksOf r.entry.2 st.c.depth.toNat) r.entry.1 r.entry.2)
        (flushDeltas s tile none) with
    | ok s2 => rfl
    | error x =>
      obtain ⟨x | w, s2⟩ := x
      · rfl
      · cases w <;> rfl

/-! The save's completion (R309, R403, R410, R416). -/

section
variable (saving : r.saving = true)
include saving

theorem exec_contextSaveComplete_of_cancel (cancelled : r.cancel = true) :
    exec (.contextSaveComplete tile) s = .next (discardStrand s tile) := by
  show execContextSaveComplete tile s = _
  simp only [execContextSaveComplete, hs, hr, saving, live, cancelled, Bool.not_true, Bool.or_self, Bool.false_eq_true, if_false, if_true]

variable (kept : r.cancel = false)
include kept

theorem exec_contextSaveComplete_of_held (h : s.canRaise (dieOf tile) = false ∨ s.coversHeld (strandCovers s tile st) = true) :
    exec (.contextSaveComplete tile) s = .next s := by
  have waits (under : Bool) : (under || !s.canRaise (dieOf tile) || s.coversHeld (strandCovers s tile st)) = true := by
    rcases h with h | h <;> simp [h]
  show execContextSaveComplete tile s = _
  simp only [execContextSaveComplete, hs, hr, saving, live, kept, waits, Bool.not_true, Bool.or_self, Bool.false_eq_true, if_false, if_true,
    notDue]

/-- The save is visible: the strand waits in its launch, and its tile core is free. -/
theorem exec_contextSaveComplete_of_visible (raise : s.canRaise (dieOf tile) = true)
    (free : s.coversHeld (strandCovers s tile st) = false)
    (away : ∀ p ∈ s.pending, p.agent.mate (st.agent tile 0) = true → isHost p.addr = false ∧ homeDie p.addr ≠ dieOf tile) :
    exec (.contextSaveComplete tile) s = .next (holdIdle (freeCore ((s.raiseEpoch (dieOf tile)).updLaunch st.handle fun l =>
      { l with stopped := l.stopped ++ [stoppedAs (s.raiseEpoch (dieOf tile)) tile st r] }) tile r.wanted)) := by
  have under : (s.pending.any fun p => p.agent.mate (st.agent tile 0) && (isHost p.addr || homeDie p.addr == dieOf tile)) = false :=
    List.any_eq_false.mpr fun p hp both => by
      obtain ⟨mate, near⟩ := Bool.and_eq_true_iff.mp both
      obtain ⟨remote, other⟩ := away p hp mate
      simp [remote, other] at near
  show execContextSaveComplete tile s = _
  simp only [execContextSaveComplete, hs, hr, saving, live, kept, under, raise, free, Bool.not_true, Bool.or_self, Bool.false_eq_true,
    if_false]
  rfl

end

end

/-! The cut of a gang (R405). -/

theorem mem_strandsOf (hs : s.strand tile = some st) : (tile, st) ∈ s.strandsOf st.handle :=
  List.mem_filterMap.mpr ⟨tile, mem_allCoreIds tile, by simp only [hs, beq_self_eq_true, if_true]⟩

/-- A gang's strand holds at its stop point for the cut. -/
def heldForCut (x : Core × Strand) : Bool :=
  x.2.stopped && match x.2.stop with | some r => r.checked && !r.cancel && !r.cut | none => false

theorem heldForCut_iff {x : Core × Strand} : heldForCut x = true ↔
    x.2.stopped = true ∧ ∃ r, x.2.stop = some r ∧ r.checked = true ∧ r.cancel = false ∧ r.cut = false := by
  unfold heldForCut
  cases x.2.stop <;> simp [and_assoc]

/-- The greatest candidate of some strands (R405). -/
def greatestCandidate (ss : List (Core × Strand)) : Nat := (ss.map fun x => x.2.candidate).foldl max 0

/-- Once every strand of a gang holds, the cut is complete, or the strands behind the greatest candidate go on. -/
theorem exec_gangCut_eq {l : Launch} (hl : s.launch? h = some l) (gang : l.gang = true) (some_ : s.strandsOf h ≠ [])
    (held : ∀ x ∈ s.strandsOf h, heldForCut x = true) : exec (.gangCut h) s =
      let ss := s.strandsOf h
      let q := greatestCandidate ss
      .next (if ss.all fun x => x.2.candidate == q then
          ss.foldl (fun s x => s.updStrand x.1 fun st => { st with stop := st.stop.map fun (r : Stop) => { r with cut := true } }) s
        else ss.foldl (fun s x => if x.2.candidate < q then
            s.updStrand x.1 fun st => { (st.allEngs fun g => { g with holding := false }) with
              stop := st.stop.map fun (r : Stop) => { r with checked := false, atLeast := q } }
          else s) s) := by
  have all : (s.strandsOf h).all heldForCut = true := List.all_eq_true.mpr held
  have due : (!l.gang || (s.strandsOf h).isEmpty || !(s.strandsOf h).all heldForCut) = false := by simp [gang, some_, all]
  show execGangCut h s = _
  simp only [execGangCut, hl]
  refine (if_neg (ne_true_of_eq_false due)).trans ?_
  exact (apply_ite Host.Outcome.next _ _ _).symm

end

end Sys2Proof.Machine

namespace Sys2Proof
open Sys2Proof.Machine

/-- Settles O51: requests by what they are for, withdrawal by what keeps a request, and the stop point, the save, its completion and the cut
by their guards. -/
theorem stopsAndContexts : Obligations.StopsAndContexts := by
  unfold Obligations.StopsAndContexts
  intro s tile st hs live
  dsimp only
  have request := exec_stopRequest_eq hs live
  refine ⟨fun s1 sent => ⟨fun hn fenced => ?_, fun h other asks => ⟨?_, asker_spec hs asks⟩⟩, fun other asks => ?_,
    fun refused => ?_, fun r hr => ⟨fun stays => ?_, fun kept first idle unasked => ?withdraw, fun stopped unchecked => ?point,
      fun j stopped checked kept first cut asyncs cmds hj => ?save, fun saving => ?complete⟩, fun l hl gang held => ?cut⟩
  · rw [completes, request, requester_of_fenced hn fenced, Option.bind_some, sent]
    rfl
  · rw [completes, request, requester_of_unfenced other, asks, Option.map_some, Option.bind_some, sent]
    rfl
  · rw [request, requester_of_unfenced other, asks]
    rfl
  · rw [request, refused]
    cases requester s tile st <;> rfl
  · exact (exec_stopWithdraw_eq hs hr).trans (if_pos (withdrawWaits_iff.mpr stays))
  case withdraw =>
    have goes : ¬withdrawWaits s tile st r = true := by
      rw [withdrawWaits_iff]
      rintro (cancel | begun | needed | ⟨none_, t, ht, reason⟩)
      · exact ne_true_of_eq_false kept cancel
      · exact first begun
      · exact idle needed
      · exact ne_true_of_eq_false (unasked none_ t ht) reason
    have withdraw := (exec_stopWithdraw_eq hs hr).trans (if_neg goes)
    exact ⟨fun joined => withdraw.trans (congrArg _ (if_pos (List.any_eq_true.mpr joined))),
      fun alone => withdraw.trans (congrArg _ (if_neg (ne_true_of_eq_false (by simpa using alone))))⟩
  case point =>
    have point := exec_stopPointReached_eq hs live hr stopped unchecked
    refine ⟨fun amiss => point.trans (congrArg _ (if_pos ?_)), fun empty depth =>
      ⟨fun cancelled asyncs cmds => point.trans (congrArg _ ((if_neg ?_).trans (if_pos ?_))),
        fun waits => point.trans (congrArg _ ((if_neg ?_).trans (if_neg ?_)))⟩⟩
    · simpa using amiss
    · simp [empty, depth]
    · simp [cancelled, asyncs, cmds]
    · simp [empty, depth]
    · rcases waits with h | h | h <;> simp [h]
  case save =>
    have save := exec_contextSave_eq hs live hr hj stopped checked kept first cut asyncs cmds
    refine ⟨fun held => save.trans (if_pos held), fun free => ?_⟩
    have answer {w : Partway State} (written : writeStopped s tile st r j = w) : exec (.contextSave tile) s = saveAnswer s tile r w :=
      written ▸ save.trans (if_neg (ne_true_of_eq_false free))
    exact ⟨fun a s2 written => answer written, fun w s2 other written => (answer written).trans (saveAnswer_of_wait other),
      fun c s2 written => answer written, fun s2 written => answer written⟩
  case complete =>
    exact ⟨exec_contextSaveComplete_of_cancel hs live hr saving, exec_contextSaveComplete_of_held hs live hr saving,
      exec_contextSaveComplete_of_visible hs live hr saving⟩
  case cut =>
    have cut := exec_gangCut_eq hl gang (List.ne_nil_of_mem (mem_strandsOf hs)) fun x hx => heldForCut_iff.mpr (held x hx)
    refine ⟨fun same => cut.trans (congrArg _ (if_pos ?_)), fun ⟨x, hx, behind⟩ => cut.trans (congrArg _ (if_neg fun same => ?_))⟩
    · exact List.all_eq_true.mpr fun x hx => beq_iff_eq.mpr (same x hx)
    · exact absurd (beq_iff_eq.mp (List.all_eq_true.mp same x hx)) (Nat.ne_of_lt behind)

end Sys2Proof
end

section
/-! PROOFS. The card (R461, R462, R465 to R467, R469, R470): which writes the window takes and which it refuses, what a hold in reset and a
loss of power leave, and what each register reads as. -/

namespace Sys2Proof.Machine

section
variable {s : State} {v : DWord}

/-! Writes that the window takes or refuses (R461, R462). -/

theorem capOk_of_range (hlo : 600 ≤ v.toNat) (hhi : v.toNat ≤ 2200) : capOk v = true := by
  rw [capOk, bits_eq_zero_of_lt (show v.toNat < 2 ^ 12 by omega), decide_eq_true hlo, decide_eq_true hhi]
  rfl

theorem capOk_of_outside (h : v.toNat < 600 ∨ 2200 < v.toNat) : capOk v = false := by
  rcases h with h | h
  · rw [capOk, decide_eq_false (Nat.not_le.mpr h), Bool.and_false, Bool.false_and]
  · rw [capOk, decide_eq_false (Nat.not_le.mpr h), Bool.and_false]

theorem exec_registerWriteRefused_of_refused {o : Nat} (hin : o < 0x1000000) (h : writeRefused s o v = true) :
    exec (.registerWriteRefused o v) s = .next (refuseWrite s o) := by
  refine if_pos ?_
  rw [decide_eq_true hin, h]
  rfl

/-- A doorbell before READY is refused (R462). -/
theorem writeRefused_doorbell (hstage : s.card.stage ≠ 7) {n : Nat} (hn : n < 256) : writeRefused s (8 * n) v = true := by
  rw [writeRefused, if_pos ⟨by omega, Nat.mul_mod_right 8 n⟩, bne_iff_ne.mpr hstage, Bool.true_or]

/-! What a stop leaves of the floor and of the spent blocks (R466, R467). -/

theorem floorRaised_eq_or (c : Card) (b : Bool) : floorRaised c b = c.floor ∨
    c.stage = 4 ∧ c.floor.toNat < c.version.toNat ∧ floorRaised c b = c.version := by
  unfold floorRaised
  split
  · next h =>
    simp only [Bool.and_eq_true, beq_iff_eq, decide_eq_true_eq] at h
    exact .inr ⟨h.1.2, h.2, rfl⟩
  · exact .inl rfl

theorem spentAfter_eq_or (s : State) (b : Bool) : spentAfter s b = s.card.spent ∨
    burnPending s = true ∧ spentAfter s b = s.card.spent + 1 := by
  unfold spentAfter
  split
  · next h => exact .inr ⟨(Bool.and_eq_true_iff.mp h).2, rfl⟩
  · exact .inl rfl

/-! The package held in reset (R461, R465, R469). -/

/-- No tile core of a package that starts again holds a strand. -/
theorem State.strand_of_reset_cores {t : State} (h : t.cores = State.reset.cores) (c : Core) : (t.core c).strand = none := by
  rw [State.core_of_cores h, State.core_reset]

theorem packageReset_floor (s : State) : (packageReset s).card.floor = s.card.floor ∨
    s.card.stage = 4 ∧ s.card.floor.toNat < s.card.version.toNat ∧ (packageReset s).card.floor = s.card.version :=
  floorRaised_eq_or s.draw.2.card _

/-- A burn that the hold cuts leaves no block open; else the count of spent blocks is as it was (R467). -/
theorem packageReset_spent (s : State) : (packageReset s).card.spent = s.card.spent ∨
    burnPending s = true ∧ (packageReset s).card.spent = s.card.spent + 1 ∧ (packageReset s).card.block = none := by
  have block : (packageReset s).card.block = if (packageReset s).card.spent = s.card.spent then s.card.block else none := rfl
  rcases spentAfter_eq_or s.draw.2 (s.draw.1.getLsbD 1) with same | ⟨burning, more⟩
  · exact .inl same
  · have raised : (packageReset s).card.spent = s.card.spent + 1 := more
    exact .inr ⟨burning, raised, block.trans (if_neg (by rw [raised]; exact Nat.succ_ne_self _))⟩

/-! Reset control (R461). -/

/-- The state with the trip latch that a write to reset control leaves. -/
def tripWritten (v : DWord) (s : State) : State := { s with card := { s.card with trip := s.card.trip && !v.getLsbD 1 } }

theorem resetControl_of_legal (h : bits v.toNat 63 2 = 0) : resetControl v s =
    if v.getLsbD 0 then packageReset (tripWritten v s)
    else if s.card.hold then { tripWritten v s with psc := 0, card := { (tripWritten v s).card with hold := false, stage := 1 } }
    else tripWritten v s := if_neg (not_not.mpr h)

theorem tripWritten_of_unset (h : v.getLsbD 1 = false) : tripWritten v s = s := by
  rw [tripWritten, h, Bool.not_false, Bool.and_true]

theorem resetControl_hold (h : v = 1 ∨ v = 3) : resetControl v s = packageReset (tripWritten v s) := by
  rcases h with rfl | rfl
  · rfl
  · rfl

/-! Reads of the window (R461, R462, R470). -/

theorem boolsNat_pair (a b : Bool) : boolsNat [a, b] = a.toNat + 2 * b.toNat := by
  cases a with
  | false => cases b <;> rfl
  | true => cases b <;> rfl

theorem registerRead_resetControl (s : State) :
    registerRead s 0x1008 = (BitVec.ofNat 64 (s.card.hold.toNat + 2 * s.card.trip.toNat), s) := by
  rw [← boolsNat_pair]
  rfl

/-- What a 64-bit read of a doorbell gives once it has been written. -/
theorem registerRead_setDoorbell (s : State) (q : BitVec 8) (w : BitVec 40) :
    registerRead (setDoorbell s q w) (8 * q.toNat) = (w.setWidth 64, setDoorbell s q w) := by
  have low : 8 * q.toNat < 0x800 := by have := q.isLt; omega
  have found : (setDoorbell s q w).card.doorbells.find? (fun x => x.1.toNat == 8 * q.toNat / 8) = some (q, w) :=
    List.find?_cons_of_pos (by simp)
  rw [registerRead, if_neg (not_not.mpr (Nat.mul_mod_right 8 _)), if_pos low, found]
  rfl

/-- A word of the sensor block outside the tick of its write (R470). -/
theorem registerRead_sensor {k : Nat} (hk : k < 32) (old : s.card.sensorsAt ≠ some s.psc) :
    registerRead s (0x2000 + 8 * k) = (BitVec.ofNat 64 (natOfBytes ((s.card.sensors.drop (8 * k)).take 8)), s) := by
  have offset : 0x2000 + 8 * k - 0x2000 = 8 * k := by omega
  rw [registerRead, if_neg (by omega), if_neg (by omega), if_neg (by omega), if_neg (by omega), if_neg (by omega), if_neg (by omega),
    if_pos ⟨by omega, by omega⟩, if_neg (by simpa using old), offset]

theorem registerRead_elsewhere {o : Nat} (h : (0x800 ≤ o ∧ o < 0x1000) ∨ (0x1028 ≤ o ∧ o < 0x2000) ∨ 0x2100 ≤ o) :
    registerRead s o = (0, s) := by
  rw [registerRead]
  split
  · rfl
  · rw [if_neg (by omega), if_neg (by omega), if_neg (by omega), if_neg (by omega), if_neg (by omega), if_neg (by omega)]

end

end Sys2Proof.Machine

namespace Sys2Proof

open Sys2Proof.Machine

/-- Settles O57: each write by the register's guard, a hold and a loss of power by what `packageReset` and `floorRaised` leave, and the
reads register by register. -/
theorem cardRegisters : Obligations.CardRegisters := by
  intro s v
  refine ⟨fun hlo hhi => if_pos (capOk_of_range hlo hhi), fun out => ⟨?_, ?_⟩, exec_registerWriteRefused_of_refused (by decide) rfl,
    fun stage n hn => exec_registerWriteRefused_of_refused (by omega) (writeRefused_doorbell stage hn), fun n hn => if_neg ?_,
    fun n => ⟨rfl, rfl⟩, fun bad => congrArg _ (if_pos bad), fun hv hold => ?start, fun hv hold => ?none, fun hv => ?held,
    fun hv hold => ?clear, fun unset => if_neg (ne_true_of_eq_false unset), rfl, fun temps all hot => ?trip, fun temps cool => if_neg ?_,
    fun written => ?loss, rfl, registerRead_resetControl s, rfl, rfl, registerRead_setDoorbell s, fun k hk old => registerRead_sensor hk old,
    fun o ho => registerRead_elsewhere ho⟩
  · exact if_neg (ne_true_of_eq_false (capOk_of_outside out))
  · refine exec_registerWriteRefused_of_refused (by decide) ?_
    show (!capOk v) = true
    rw [capOk_of_outside out]
    rfl
  · rw [decide_eq_false (Nat.not_lt.mpr hn), Bool.false_and]
    exact Bool.false_ne_true
  case start =>
    subst hv
    refine congrArg _ ((resetControl_of_legal rfl).trans ?_)
    rw [tripWritten_of_unset rfl, if_neg (by decide), if_pos hold]
  case none =>
    subst hv
    refine congrArg _ ((resetControl_of_legal rfl).trans ?_)
    rw [tripWritten_of_unset rfl, if_neg (by decide), if_neg (ne_true_of_eq_false hold)]
  case held =>
    have trip : (packageReset (tripWritten v s)).card.trip = (s.card.trip && v != 3) := by
      rcases hv with rfl | rfl
      · rfl
      · rfl
    exact ⟨packageReset (tripWritten v s), congrArg Host.Outcome.next (resetControl_hold hv), rfl, rfl, rfl, rfl, rfl, rfl, trip, rfl, rfl,
      rfl, packageReset_floor (tripWritten v s), packageReset_spent (tripWritten v s), State.strand_of_reset_cores rfl⟩
  case clear =>
    subst hv
    have set : execTripClear 2 s = .next (resetControl 2 s) := if_pos rfl
    refine set.trans (congrArg _ ((resetControl_of_legal rfl).trans ?_))
    rw [if_neg (by decide), if_neg (ne_true_of_eq_false hold), tripWritten, show (2 : DWord).getLsbD 1 = true from rfl, Bool.not_true,
      Bool.and_false]
  case trip =>
    have due : (temps.length == 16 && temps.any fun x => decide (x ≥ 115)) = true := by simpa [all] using hot
    exact ⟨_, if_pos due, rfl, rfl, rfl, State.strand_of_reset_cores rfl⟩
  · simpa using fun _ => cool
  case loss =>
    refine ⟨_, rfl, rfl, rfl, rfl, State.strand_of_reset_cores rfl, ?_, ?_, spentAfter_eq_or s written, rfl⟩
    · rintro rfl
      exact ⟨rfl, rfl⟩
    · exact (floorRaised_eq_or s.card written).imp_right fun ⟨stage, _, raised⟩ => ⟨stage, raised⟩

end Sys2Proof
end

section
/-! PROOFS. The debugger's requests and the leader's reports (R415, R416, R424, R445, R456, R459, R464, R467): what each answers, by its checks
in word order, which `serve_of_good` turns into the step; and what an engine whose word is left unbegun keeps. -/

namespace Sys2Proof.Machine

section
variable {s s1 : State} {b : Block} {tile : Core} {st : Strand} {e : Eng}

/-! The strand that a DEBUG request names (R415, R464). -/

theorem debugStrand_of_reserved (h : bits (b.word 0) 55 8 ≠ 0) : debugStrand s b = .error 0 := if_pos h

/-- Word 0 names a tile core where its low 56 bits are the core's number. -/
theorem tile_of_word {w n : Nat} (h : bits w 55 0 = n) (hn : n < 192) : bits w 55 8 = 0 ∧ bits w 7 0 = n := by
  simp only [bits] at h ⊢
  omega

theorem debugStrand_of_empty (h0 : bits (b.word 0) 55 0 = tile.val) (h1 : bits (b.word 1) 63 32 = 0) (hs : s.strand tile = none) :
    debugStrand s b = .error 1 := by
  obtain ⟨high, low⟩ := tile_of_word h0 tile.isLt
  have core (h : bits (b.word 0) 7 0 < 192) : (⟨bits (b.word 0) 7 0, h⟩ : Core) = tile := Fin.ext low
  rw [debugStrand, if_neg (not_not.mpr high), if_neg (not_not.mpr h1), dif_pos (low ▸ tile.isLt)]
  simp only [core, hs]

theorem debugStrand_of_placed (h0 : bits (b.word 0) 55 0 = tile.val) (h1 : bits (b.word 1) 63 32 = 0) (hs : s.strand tile = some st)
    (hj : st.job = BitVec.ofNat 32 (b.word 1)) : debugStrand s b = .ok (tile, st) := by
  obtain ⟨high, low⟩ := tile_of_word h0 tile.isLt
  have core (h : bits (b.word 0) 7 0 < 192) : (⟨bits (b.word 0) 7 0, h⟩ : Core) = tile := Fin.ext low
  rw [debugStrand, if_neg (not_not.mpr high), if_neg (not_not.mpr h1), dif_pos (low ▸ tile.isLt)]
  simp only [core, hs, hj, beq_self_eq_true, if_true]

/-! What the requests answer (R415, R416). -/

/-- What a DEBUG request answers, `f` being its action's effect on the strand that it names. -/
def debugAnswer (f : State → Block → Core → Strand → Option Answer) (s : State) (b : Block) : Option Answer :=
  if bits (b.word 0) 63 56 > 3 then some (.refused 0)
  else match debugStrand s b with
    | .error i => some (.refused i)
    | .ok (t, st) => f s b t st

theorem debugAnswer_of_reserved {f : State → Block → Core → Strand → Option Answer} (h : 3 < bits (b.word 0) 63 56) :
    debugAnswer f s b = some (.refused 0) := if_pos h

theorem debugAnswer_of_error {f : State → Block → Core → Strand → Option Answer} {i : Nat} (hl : bits (b.word 0) 63 56 ≤ 3)
    (h : debugStrand s b = .error i) : debugAnswer f s b = some (.refused i) := by
  rw [debugAnswer, if_neg (Nat.not_lt.mpr hl), h]

theorem debugAnswer_of_strand {f : State → Block → Core → Strand → Option Answer} (hl : bits (b.word 0) 63 56 ≤ 3)
    (h : debugStrand s b = .ok (tile, st)) : debugAnswer f s b = f s b tile st := by
  rw [debugAnswer, if_neg (Nat.not_lt.mpr hl), h]

/-- A halt: the strand whose engines all stand at a word boundary. -/
def Strand.haltedNow (st : Strand) : Strand := { Eng.all.foldl Strand.unbegin st with halted := true, halting := false }

/-- A halt of the strand. -/
def haltAnswer (s : State) (_ : Block) (t : Core) (st : Strand) : Option Answer :=
  if st.stop.isSome && Eng.all.any fun e => (st.eng e).holding then none
  else if Eng.all.any st.short then some (.begun (s.setStrand t { st with halting := true }))
  else some (.done (s.setStrand t st.haltedNow) 0)

def resumeAnswer (s : State) (_ : Block) (t : Core) (st : Strand) : Option Answer :=
  some (.done (s.setStrand t { st with halted := false }) 0)

/-- A read of the span of the strand's image. -/
def readAnswer (s : State) (b : Block) (t : Core) (st : Strand) : Option Answer :=
  some (checkWords (spanBad b st (drawImage s t st).1.length)
    (.done (hostStore (drawImage s t st).2 (hostPhys (b.word 3)) (((drawImage s t st).1.drop b.span.1).take b.span.2)) b.span.2))

/-- The strand's image with the span replaced by the bytes of host memory. -/
def patched (s1 : State) (b : Block) (img : List Byte) : List Byte :=
  img.take b.span.1 ++ s1.mem.bytes (hostPhys (b.word 3)) b.span.2 ++ img.drop (b.span.1 + b.span.2)

/-- What a patched image comes to (R415, log 60). -/
def patchAnswer (b : Block) : Option State → Answer
  | some s2 => .done s2 b.span.2
  | none => .refused 3

/-- A write of the span of the strand's image. -/
def writeAnswer (s : State) (b : Block) (t : Core) (st : Strand) : Option Answer :=
  some (checkWords (spanBad b st (drawImage s t st).1.length)
    (patchAnswer b (debugApply (drawImage s t st).2 t st (patched (drawImage s t st).2 b (drawImage s t st).1))))

theorem exec_debugHalt (s : State) : exec .debugHalt s =
    serve 8 (fun b => bits (b.word 0) 63 56 == 0 || decide (bits (b.word 0) 63 56 > 3)) (fun _ => 32) (debugAnswer haltAnswer) s := rfl

theorem exec_debugResume (s : State) : exec .debugResume s =
    serve 8 (fun b => bits (b.word 0) 63 56 == 1) (fun _ => 32) (debugAnswer resumeAnswer) s := rfl

theorem exec_debugRead (s : State) : exec .debugRead s =
    serve 8 (fun b => bits (b.word 0) 63 56 == 2) (fun _ => 32) (debugAnswer readAnswer) s := rfl

theorem exec_debugWrite (s : State) : exec .debugWrite s =
    serve 8 (fun b => bits (b.word 0) 63 56 == 3) (fun _ => 32) (debugAnswer writeAnswer) s := by
  show execDebugWrite s = debug (fun a => a == 3) writeAnswer s
  unfold execDebugWrite
  refine congrArg (debug (fun a => a == 3) · s) (funext fun s => funext fun b => funext fun t => funext fun st => ?_)
  unfold writeAnswer
  rcases drawImage s t st with ⟨img, s1⟩
  refine congrArg (fun x => some (checkWords (spanBad b st img.length) x)) ?_
  dsimp only [patched, Block.span]
  generalize debugApply s1 t st _ = made
  cases made with
  | none => rfl
  | some s2 => rfl

/-- A stop whose engines already hold completes first (R416). -/
theorem haltAnswer_of_holding (stop : st.stop.isSome = true) (holding : ∃ e, (st.eng e).holding = true) :
    haltAnswer s b tile st = none := by
  obtain ⟨e, he⟩ := holding
  refine if_pos ?_
  rw [stop, List.any_eq_true.mpr ⟨e, Eng.mem_all e, he⟩]
  rfl

theorem haltAnswer_of_free (free : st.stop = none ∨ ∀ e, (st.eng e).holding = false) : haltAnswer s b tile st =
    if Eng.all.any st.short then some (.begun (s.setStrand tile { st with halting := true }))
    else some (.done (s.setStrand tile st.haltedNow) 0) := by
  refine if_neg ?_
  rcases free with none | none
  · rw [none]
    exact Bool.false_ne_true
  · rw [List.any_eq_false.mpr fun e _ => ne_true_of_eq_false (none e), Bool.and_false]
    exact Bool.false_ne_true

/-! The span of a request (R415, R464). -/

theorem spanBad_eq (b : Block) (st : Strand) (size : Nat) : spanBad b st size =
    [!st.halted, false, decide (b.span.1 + b.span.2 > size), !hostInside (b.word 3) b.span.2] := rfl

theorem spanBad_of_running {size : Nat} (h : st.halted = false) : firstBad (spanBad b st size) = some 0 := by
  rw [spanBad_eq, h]
  rfl

theorem hostInside_of_beyond {h n : Nat} (beyond : 2 ^ 47 < h + n) : hostInside h n = false := decide_eq_false (Nat.not_le.mpr beyond)

theorem hostInside_of_within {h n : Nat} (within : h + n ≤ 2 ^ 47) : hostInside h n = true := decide_eq_true within

theorem spanBad_of_long {size : Nat} (h : st.halted = true) (long : size < b.span.1 + b.span.2) :
    firstBad (spanBad b st size) = some 2 := by
  rw [spanBad_eq, h, decide_eq_true long]
  rfl

theorem spanBad_of_beyond {size : Nat} (h : st.halted = true) (fits : b.span.1 + b.span.2 ≤ size)
    (beyond : 2 ^ 47 < b.word 3 + b.span.2) : firstBad (spanBad b st size) = some 3 := by
  rw [spanBad_eq, h, decide_eq_false (Nat.not_lt.mpr fits), hostInside_of_beyond beyond]
  rfl

theorem spanBad_of_within {size : Nat} (h : st.halted = true) (fits : b.span.1 + b.span.2 ≤ size)
    (within : b.word 3 + b.span.2 ≤ 2 ^ 47) : firstBad (spanBad b st size) = none := by
  rw [spanBad_eq, h, decide_eq_false (Nat.not_lt.mpr fits), hostInside_of_within within]
  rfl

/-! An engine whose word is left unbegun (R415, log 63). -/

theorem Engine.partway_eq_false {g : Engine} (h0 : g.progress = 0) (hl : ∀ l, g.latch = some l → l.moved = false) : g.partway = false := by
  rw [Engine.partway, h0, Bool.or_eq_false_iff]
  refine ⟨rfl, ?_⟩
  cases latch : g.latch with
  | none => rfl
  | some l => exact hl l latch

theorem Engine.partway_eq_true {g : Engine} (h : 0 < g.progress ∨ ∃ l, g.latch = some l ∧ l.moved = true) : g.partway = true := by
  rw [Engine.partway, Bool.or_eq_true]
  rcases h with h | ⟨l, latch, moved⟩
  · exact .inl (decide_eq_true h)
  · exact .inr (by rw [latch]; exact moved)

/-- A word that is not partway gives back what it has popped, and its engine keeps nothing of it. -/
theorem Strand.unbegin_of_whole (h : (st.eng e).partway = false) : st.unbegin e =
    { st.setEng e { st.eng e with wait := none, latch := none, progress := 0 } with
      c2a := ((st.eng e).latch.getD {}).popped.1 ++ st.c2a
      c2m := ((st.eng e).latch.getD {}).popped.2.1 ++ st.c2m
      v2a := ((st.eng e).latch.getD {}).popped.2.2 ++ st.v2a } := if_neg (ne_true_of_eq_false h)

theorem Strand.eng_unbegin_of_whole (h : (st.eng e).partway = false) :
    (st.unbegin e).eng e = { st.eng e with wait := none, latch := none, progress := 0 } := by
  rw [unbegin_of_whole h]
  cases e <;> rfl

theorem Strand.eng_unbegin_of_partway (h : (st.eng e).partway = true) : (st.unbegin e).eng e = { st.eng e with wait := none } := by
  rw [show st.unbegin e = st.setEng e { st.eng e with wait := none } from if_pos h, eng_setEng, if_pos rfl]

theorem Strand.short_of_whole (h : (st.eng e).partway = false) : st.short e = false := by
  rw [short, h, Bool.false_and]

theorem Strand.short_iff_of_partway (h : (st.eng e).partway = true) :
    st.short e = true ↔ ∀ w, (st.eng e).wait = some w → w.internal st.named st.headBlocked = false := by
  rw [short, h, Bool.true_and]
  cases (st.eng e).wait with
  | none => simp
  | some w => simp

/-! Attestation (R467). -/

/-- The state whose card holds the open block and the count of spent ones. -/
def State.leafTaken (s : State) (block i spent : Nat) : State := { s with card := { s.card with spent, block := some (block, i + 1) } }

/-- The bytes that ATTEST writes: the number of the leaf and its signature of the request's first eight words. -/
def attestation (b : Block) (leaf : Nat) : List Byte :=
  bytesOfNat 8 leaf ++ xmssSign leaf ((b.body.take 8).flatMap fun w => bytesOfNat 8 w)

/-- What ATTEST answers with a leaf of an open block, or with none left. -/
def leafAnswer (s : State) (b : Block) : Option (Nat × Nat × Nat) → Answer
  | none => .exhausted
  | some (block, i, spent) =>
    .done (hostStore (s.leafTaken block i spent) (hostPhys (b.word 8)) (attestation b (1024 * block + i))) (1024 * block + i)

/-- What ATTEST answers. -/
def attestAnswer (s : State) (b : Block) : Answer :=
  if !hostInside (b.word 8) 2828 then .refused 8 else leafAnswer s b (attestLeaf s.card)

theorem exec_attest (s : State) :
    exec .attest s = serve 9 (fun _ => true) (fun _ => 72) (fun s b => some (attestAnswer s b)) s := by
  show execAttest s = simple 9 72 attestAnswer s
  unfold execAttest
  refine congrArg (simple 9 72 · s) (funext fun s => funext fun b => ?_)
  unfold attestAnswer
  refine congrArg (ite _ _) ?_
  cases attestLeaf s.card with
  | none => rfl
  | some x => rfl

theorem attestAnswer_of_beyond (h : 2 ^ 47 < b.word 8 + 2828) : attestAnswer s b = .refused 8 := by
  rw [attestAnswer, hostInside_of_beyond h]
  rfl

theorem attestAnswer_of_within {leaf : Option (Nat × Nat × Nat)} (h : b.word 8 + 2828 ≤ 2 ^ 47) (hl : attestLeaf s.card = leaf) :
    attestAnswer s b = leafAnswer s b leaf := by
  rw [attestAnswer, hostInside_of_within h, hl]
  rfl

theorem attestLeaf_of_open {c : Card} {block i : Nat} (h : c.block = some (block, i)) (hi : i < 1024) :
    attestLeaf c = some (block, i, c.spent) := by
  simp only [attestLeaf, h, hi, if_true]

/-- Where no block is open, the next one of those left is (R467). -/
theorem attestLeaf_of_closed {c : Card} (h : c.block = none ∨ ∃ block, c.block = some (block, 1024)) :
    attestLeaf c = if c.spent < 1024 then some (c.spent, 0, c.spent + 1) else none := by
  rcases h with h | ⟨block, h⟩
  · simp only [attestLeaf, h]
  · simp only [attestLeaf, h, lt_irrefl, if_false]

/-! What the leader reports (R424, R445, R456, R459). -/

/-- What READ-EVENTS answers for a die. -/
def eventsAnswer (s : State) (b : Block) : Answer :=
  let k := s.die (Fin.ofNat 4 (b.word 0))
  let rs := k.events.take (b.word 2)
  checkWords [decide (b.word 0 > 3), !hostInside (b.word 1) (16 * rs.length)]
    (.done (hostStore s (hostPhys (b.word 1)) (rs.flatMap EventRec.bytes)) (k.lost.toNat * 2 ^ 32 + rs.length))

theorem exec_readEvents (s : State) :
    exec .readEvents s = serve 11 (fun _ => true) (fun _ => 24) (fun s b => some (eventsAnswer s b)) s := rfl

theorem eventsAnswer_of_die {d : Fin 4} (h : b.word 0 = d.val) : eventsAnswer s b =
    checkWords [false, !hostInside (b.word 1) (16 * ((s.die d).events.take (b.word 2)).length)]
      (.done (hostStore s (hostPhys (b.word 1)) (((s.die d).events.take (b.word 2)).flatMap EventRec.bytes))
        ((s.die d).lost.toNat * 2 ^ 32 + ((s.die d).events.take (b.word 2)).length)) := by
  have die : Fin.ofNat 4 (b.word 0) = d := Fin.ext (by rw [h]; exact Nat.mod_eq_of_lt d.isLt)
  have named : decide (b.word 0 > 3) = false := decide_eq_false (by have := d.isLt; omega)
  rw [eventsAnswer, die, named]

/-- The counts of READ-WINDOWS, row by row of R444. -/
def allWindowCounts (s : State) : List Nat := windowUnits.zipIdx.flatMap fun x => (List.range x.1).map fun u => windowCount s x.2 u

theorem length_allWindowCounts (s : State) : (allWindowCounts s).length = 2990 := by
  rw [allWindowCounts, List.length_flatMap]
  simp only [List.length_map, List.length_range, windowUnits, List.zipIdx_cons, List.zipIdx_nil, List.map_cons, List.map_nil,
    List.sum_cons, List.sum_nil, Nat.reduceAdd]

/-- What READ-WINDOWS answers. -/
def windowsAnswer (s : State) (b : Block) : Answer :=
  checkWords [!hostInside (b.word 0) (4 * (allWindowCounts s).length)]
    (.done (hostStore s (hostPhys (b.word 0)) ((allWindowCounts s).flatMap fun n => bytesOfNat 4 n)) (allWindowCounts s).length)

theorem exec_readWindows (s : State) :
    exec .readWindows s = serve 12 (fun _ => true) (fun _ => 8) (fun s b => some (windowsAnswer s b)) s := rfl

theorem exec_calendarRequest (s : State) :
    exec .calendarRequest s = serve 13 (fun _ => true) (fun _ => 0) (fun s _ => some (.done s (s.calendar.getD 0))) s := rfl

/-- What the request for the fenced tile cores answers. -/
def fencedAnswer (s : State) (b : Block) : Answer :=
  checkWords [!hostInside (b.word 0) 24]
    (.done (hostStore s (hostPhys (b.word 0)) (bytesOfNat 24 (fencedMask s).toNat)) 0)

theorem exec_fencedRequest (s : State) :
    exec .fencedRequest s = serve 14 (fun _ => true) (fun _ => 8) (fun s b => some (fencedAnswer s b)) s := rfl

/-- A mask that bits have been set in, one for each tile core that meets a condition. -/
theorem getLsbD_foldl_or (p : Core → Bool) (t : Core) (l : List Core) (m : BitVec 192) :
    (l.foldl (fun m u => if p u then m ||| BitVec.ofNat 192 (2 ^ u.val) else m) m).getLsbD t.val =
      (m.getLsbD t.val || l.any fun u => p u && u == t) := by
  induction l generalizing m with
  | nil => simp
  | cons u l ih =>
    have bit : (BitVec.ofNat 192 (2 ^ u.val)).getLsbD t.val = (u == t) := by
      rw [BitVec.getLsbD_ofNat, decide_eq_true t.isLt, Bool.true_and, Nat.testBit_two_pow]
      exact decide_eq_decide.mpr (Fin.ext_iff.symm)
    rw [List.foldl_cons, ih, List.any_cons, ← Bool.or_assoc]
    congr 1
    split
    · next h => rw [BitVec.getLsbD_or, bit, h, Bool.true_and]
    · next h => rw [Bool.eq_false_of_not_eq_true h, Bool.false_and, Bool.or_false]

theorem getLsbD_fencedMask (s : State) (t : Core) : (fencedMask s).getLsbD t.val = (s.core t).fenced := by
  refine (getLsbD_foldl_or (fun u => (s.core u).fenced) t allCoreIds 0).trans ?_
  rw [show (0 : BitVec 192).getLsbD t.val = false from BitVec.getLsbD_zero, Bool.false_or, Bool.eq_iff_iff, List.any_eq_true]
  refine ⟨fun ⟨u, _, h⟩ => ?_, fun h => ⟨t, mem_allCoreIds t, by rw [h, beq_self_eq_true]; rfl⟩⟩
  obtain ⟨fenced, same⟩ := Bool.and_eq_true_iff.mp h
  exact beq_iff_eq.mp same ▸ fenced

end

end Sys2Proof.Machine

namespace Sys2Proof

open Sys2Proof.Machine

/-- Settles O60: `serve_of_good`, and each request by what its words answer. -/
theorem debugAndReportRequests : Obligations.DebugAndReportRequests := by
  unfold Obligations.DebugAndReportRequests
  refine ⟨fun s a rest tile st hm hr => ?debug, fun s a rest hm hr => ?reports⟩
  case debug =>
    intro b answers hc hok hl action
    have good {i : Instr} {which : Block → Bool} {f : State → Block → Core → Strand → Option Answer} {x : Option Answer}
        (hi : exec i s = serve 8 which (fun _ => 32) (debugAnswer f) s) (hw : which b = true) (hx : debugAnswer f s b = x) :
        exec i s = b.answered s x := by
      have head : AtHead s a rest 8 which := ⟨hm, hr, rfl, hc, hw⟩
      exact hi.trans ((serve_of_good head hok hl).trans (congrArg (b.answered s) hx))
    have resume (act : action = 1) {x : Option Answer} (hx : debugAnswer resumeAnswer s b = x) : exec .debugResume s = b.answered s x :=
      good (exec_debugResume s) (beq_iff_eq.mpr act) hx
    have known {n : Nat} (act : action = n) (hn : n ≤ 3) : bits (b.word 0) 63 56 ≤ 3 := le_of_eq_of_le act hn
    refine ⟨fun act => good (exec_debugHalt s) ?_ (debugAnswer_of_reserved act),
      fun act high => resume act (debugAnswer_of_error (known act (by decide)) (debugStrand_of_reserved high)),
      fun act h0 h1 empty => resume act (debugAnswer_of_error (known act (by decide)) (debugStrand_of_empty h0 h1 empty)),
      fun h0 h1 hs hj => ?strand, fun e h0 latch => ?idle, fun e l h0 latch still => ?begun, fun e part => ?partway,
      fun e h0 still => Strand.short_of_whole (Engine.partway_eq_false h0 still)⟩
    · rw [decide_eq_true (show bits (b.word 0) 63 56 > 3 from act), Bool.or_true]
    case strand =>
      intro o host
      have named := debugStrand_of_placed h0 h1 hs hj
      have halt (act : action = 0) {x : Option Answer} (hx : haltAnswer s b tile st = x) : exec .debugHalt s = b.answered s x :=
        good (exec_debugHalt s) (by rw [beq_iff_eq.mpr (show bits (b.word 0) 63 56 = 0 from act)]; rfl)
          ((debugAnswer_of_strand (known act (by decide)) named).trans hx)
      have read (act : action = 2) {x : Option Answer} (hx : readAnswer s b tile st = x) : exec .debugRead s = b.answered s x :=
        good (exec_debugRead s) (beq_iff_eq.mpr act) ((debugAnswer_of_strand (known act (by decide)) named).trans hx)
      have write (act : action = 3) {x : Option Answer} (hx : writeAnswer s b tile st = x) : exec .debugWrite s = b.answered s x :=
        good (exec_debugWrite s) (beq_iff_eq.mpr act) ((debugAnswer_of_strand (known act (by decide)) named).trans hx)
      refine ⟨fun act stop holding => halt act (haltAnswer_of_holding stop holding), fun act free => ⟨fun none => ?now, fun some => ?later⟩,
        fun act => resume act (debugAnswer_of_strand (known act (by decide)) named),
        fun act running => read act (congrArg some (checkWords_of_bad (spanBad_of_running running))),
        fun act running => write act (congrArg some (checkWords_of_bad (spanBad_of_running running))),
        fun img s1 halted drawn => ?image⟩
      case now =>
        exact halt act ((haltAnswer_of_free free).trans (if_neg
          (ne_true_of_eq_false (List.any_eq_false.mpr fun e _ => ne_true_of_eq_false (none e)))))
      case later =>
        obtain ⟨e, short⟩ := some
        exact halt act ((haltAnswer_of_free free).trans (if_pos (List.any_eq_true.mpr ⟨e, Eng.mem_all e, short⟩)))
      case image =>
        intro n new
        have reads : readAnswer s b tile st = some (checkWords (spanBad b st img.length)
            (.done (hostStore s1 host ((img.drop o).take n)) n)) := by
          rw [readAnswer, drawn]
          rfl
        have writes : writeAnswer s b tile st = some (checkWords (spanBad b st img.length) (patchAnswer b new)) := by
          rw [writeAnswer, drawn]
          rfl
        have refused {w : Nat} (bad : firstBad (spanBad b st img.length) = some w) :
            (action = 2 → answers .debugRead s .refused w 0) ∧ (action = 3 → answers .debugWrite s .refused w 0) :=
          ⟨fun act => read act (reads.trans (congrArg some (checkWords_of_bad bad))),
            fun act => write act (writes.trans (congrArg some (checkWords_of_bad bad)))⟩
        refine ⟨fun long => refused (spanBad_of_long halted long), fun fits beyond => refused (spanBad_of_beyond halted fits beyond),
          fun fits within => ?_⟩
        have checked := spanBad_of_within (b := b) halted fits within
        have patch (act : action = 3) {x : Option State} (hx : new = x) : exec .debugWrite s = b.answered s (some (patchAnswer b x)) :=
          write act (writes.trans (congrArg some ((checkWords_of_good checked).trans (congrArg (patchAnswer b) hx))))
        exact ⟨fun act => read act (reads.trans (congrArg some (checkWords_of_good checked))), fun s2 act made => patch act made,
          fun act spare => patch act spare⟩
    case idle =>
      have whole : (st.eng e).partway = false := Engine.partway_eq_false h0 fun l hl => by rw [latch] at hl; cases hl
      rw [Strand.eng_unbegin_of_whole whole, ← latch, ← h0]
    case begun =>
      have whole : (st.eng e).partway = false := Engine.partway_eq_false h0 fun k hk => Option.some.inj (latch.symm.trans hk) ▸ still
      refine ⟨?_, ?_, ?_, ?_⟩
      · rw [Strand.eng_unbegin_of_whole whole, ← h0]
      all_goals rw [Strand.unbegin_of_whole whole, latch, Option.getD_some]
    case partway =>
      have partway := Engine.partway_eq_true part
      exact ⟨Strand.eng_unbegin_of_partway partway, Strand.short_iff_of_partway partway⟩
  case reports =>
    intro b served answers
    have good {i : Instr} {code len : Nat} {f : State → Block → Option Answer} {x : Option Answer}
        (hi : exec i s = serve code (fun _ => true) (fun _ => len) f s) (hb : served code len) (hk : knownCode code = true)
        (hx : f s b = x) : exec i s = b.answered s x := by
      obtain ⟨hc, hok, hl⟩ := hb
      have head : AtHead s a rest code fun _ => true := ⟨hm, hr, hk, hc, rfl⟩
      exact hi.trans ((serve_of_good head hok hl).trans (congrArg (b.answered s) hx))
    refine ⟨fun hb => ?attest, fun hb d hd => ?events, fun hb => ?windows, fun hb pa hpa => ?calendar, fun hb => ?fenced⟩
    case attest =>
      intro sign
      have run {x : Answer} (hx : attestAnswer s b = x) : exec .attest s = b.answered s (some x) :=
        good (exec_attest s) hb rfl (congrArg some hx)
      refine ⟨fun beyond => run (attestAnswer_of_beyond beyond), fun within => ?_⟩
      intro attests
      refine ⟨fun block i held hi => run (attestAnswer_of_within within (attestLeaf_of_open held hi)),
        fun closed => ⟨fun left => ?_, fun none => ?_⟩⟩
      · exact run (attestAnswer_of_within within ((attestLeaf_of_closed closed).trans (if_pos left)))
      · exact run (attestAnswer_of_within within ((attestLeaf_of_closed closed).trans (if_neg (Nat.not_lt.mpr none))))
    case events =>
      intro rs
      have run {x : Answer} (hx : eventsAnswer s b = x) : exec .readEvents s = b.answered s (some x) :=
        good (exec_readEvents s) hb rfl (congrArg some hx)
      refine ⟨fun beyond => run ((eventsAnswer_of_die hd).trans (checkWords_of_bad ?_)),
        fun within => run ((eventsAnswer_of_die hd).trans (checkWords_of_good ?_))⟩
      · rw [hostInside_of_beyond beyond]
        rfl
      · rw [hostInside_of_within within]
        rfl
    case windows =>
      intro units counts
      have length : counts.length = 2990 := length_allWindowCounts s
      have run {x : Answer} (hx : windowsAnswer s b = x) : exec .readWindows s = b.answered s (some x) :=
        good (exec_readWindows s) hb rfl (congrArg some hx)
      refine ⟨length, fun beyond => run (checkWords_of_bad ?_), fun within => ?_⟩
      · rw [length_allWindowCounts, hostInside_of_beyond beyond]
        rfl
      · have done : windowsAnswer s b = .done (hostStore s (hostPhys (b.word 0)) (counts.flatMap fun n => bytesOfNat 4 n)) counts.length :=
          checkWords_of_good (by rw [length_allWindowCounts, hostInside_of_within within]; rfl)
        rw [length] at done
        exact run done
    case calendar =>
      exact good (exec_calendarRequest s) hb rfl (by rw [hpa])
    case fenced =>
      have run {x : Answer} (hx : fencedAnswer s b = x) : exec .fencedRequest s = b.answered s (some x) :=
        good (exec_fencedRequest s) hb rfl (congrArg some hx)
      refine ⟨fun beyond => run (checkWords_of_bad ?_), fun within => run (checkWords_of_good ?_), getLsbD_fencedMask s⟩
      · rw [hostInside_of_beyond beyond]
        rfl
      · rw [hostInside_of_within within]
        rfl

end Sys2Proof
end

section
/-! PROOFS. The leader lease (R371, R372, R424, R496) and the boot (R326, R426, R465, R466): the guard of each event, which die takes the lease
over and how it goes on with a queue, and the checks of the image in their order. -/

namespace Sys2Proof.Machine

section
variable {s : State} {d n : Fin 4} {q : BitVec 8} {k : Queue} {j : Job}

/-! The lease (R371). -/

/-- The state in which a die leads and holds a new lease. -/
def leadBy (s : State) (n : Fin 4) : State :=
  { (s.updDie n fun k => { k with lease := Config.leaseTicks, sinceRenew := 0 }) with leader := some n, leaderStopped := false }

/-- The state with the leader's lease renewed. -/
def renewed (s : State) (d : Fin 4) : State :=
  { (s.updDie d fun k => { k with lease := Config.leaseTicks, sinceRenew := 0 }) with leaderStopped := false }

theorem exec_leaseRenew_of_leader (hl : s.leader = some d) : exec .leaseRenew s =
    if (s.die d).alive && decide ((s.die d).lease > 0) && decide ((s.die d).sinceRenew ≥ Config.renewTicks) then
      .next (settle (takeBells (renewed s d))) else .next s := by
  show execLeaseRenew s = _
  rw [execLeaseRenew, hl]
  rfl

theorem exec_leaderStop_of_leader (hl : s.leader = some d) : exec .leaderStop s =
    if decide ((s.die d).lease ≤ Config.stopMargin) && !s.leaderStopped then .next { s with leaderStopped := true } else .next s := by
  show execLeaderStop s = _
  rw [execLeaderStop, hl]
  rfl

/-- The lowest die whose supervisor is alive is the first of the four that is. -/
theorem lowestAlive_eq_some (alive : (s.die n).alive = true) (lower : ∀ m : Fin 4, m.val < n.val → (s.die m).alive = false) :
    lowestAlive s = some n := by
  match n with
  | 0 => simp [lowestAlive, alive]
  | 1 => simp [lowestAlive, alive, lower 0 (by decide)]
  | 2 => simp [lowestAlive, alive, lower 0 (by decide), lower 1 (by decide)]
  | 3 => simp [lowestAlive, alive, lower 0 (by decide), lower 1 (by decide), lower 2 (by decide)]

theorem exec_leaseLapse_of_lowest (hl : s.leader = some d) (hn : lowestAlive s = some n) : exec .leaseLapse s =
    if (s.die d).lease ≠ 0 || !s.agentReady n || !s.queues.all (blockReachable s n) then .next s
    else .next (settle (takeBells ((leadBy s n).queues.foldl (fun s k => takeOver s k.q) (publish (leadBy s n))))) := by
  show execLeaseLapse s = _
  rw [execLeaseLapse, hl, hn]
  rfl

theorem exec_leaseLapse_of_held (hl : s.leader = some d) (held : (s.die d).lease ≠ 0) : exec .leaseLapse s = .next s := by
  cases hn : lowestAlive s with
  | none =>
    show execLeaseLapse s = _
    rw [execLeaseLapse, hl, hn]
    rfl
  | some n =>
    rw [exec_leaseLapse_of_lowest hl hn, decide_eq_true held]
    rfl

/-! A queue that a new leader goes on with (R348, R372, R496). -/

/-- A 64-bit word of a queue's state block. -/
def blockWord (b : List Byte) (o : Nat) : Nat := natOfBytes ((b.drop o).take 8)

/-- A queue of `2 ^ lg` bytes as its state block gives it. -/
def Queue.fromBlock (lg : Nat) (b : List Byte) (k : Queue) : Queue :=
  { k with head := blockWord b 256 % 2 ^ lg
           unread := if blockWord b 256 % 2 ^ lg = k.head then k.unread else (k.tail + 2 ^ k.lg - blockWord b 256 % 2 ^ lg) % 2 ^ k.lg
           shadow := tab 32 fun i => BitVec.ofNat 64 (blockWord b (8 * i))
           lseq := if blockWord b 280 % 2 ^ 24 = k.lseq % 2 ^ 24 then k.lseq else blockWord b 280 % 2 ^ 24
           batch := [], hold := .none, atPhase := false }

/-- A queue of a job that the leader may take over: it goes on, no batch of it has begun, and its state block is within reach. -/
structure TakenOver (s : State) (q : BitVec 8) (k : Queue) (j : Job) : Prop where
  queue : s.queue? q = some k
  job : s.job? k.job = some j
  goesOn : k.halted = false
  kept : k.tearing = false
  uncommitted : k.uncommitted = true
  unheld : s.unheld none s.leaderDie j k.state 512 = true

theorem takeOver_of_read (h : TakenOver s q k j) {b : List Byte} (read : s.agentRead none s.leaderDie j k.state 288 = .ok (b, false)) :
    takeOver s q = frontEnd (s.updQueue q (Queue.fromBlock k.lg b)) q := by
  obtain ⟨hq, hj, halted, tearing, uncommitted, unheld⟩ := h
  simp only [takeOver, hq, hj, halted, tearing, uncommitted, unheld, read, Bool.not_true, Bool.or_self, Bool.false_eq_true, if_false]
  rfl

/-- A state block that is poisoned or has no translation halts the queue. -/
theorem takeOver_of_unread (h : TakenOver s q k j) {r : Except FaultCode (List Byte × Bool)}
    (read : s.agentRead none s.leaderDie j k.state 288 = r)
    (lost : ∀ b, r ≠ .ok (b, false)) : takeOver s q = haltQueue s q errAddress 0 := by
  obtain ⟨hq, hj, halted, tearing, uncommitted, unheld⟩ := h
  simp only [takeOver, hq, hj, halted, tearing, uncommitted, unheld, read, Bool.not_true, Bool.or_self, Bool.false_eq_true, if_false]

/-! The calendar, published (R424). -/

/-- What a line soiled in shared SRAM leaves, any number of them leave. -/
theorem foldl_soil_keeps {α β : Type} {f : State → β} (keeps : ∀ t line, f (t.soil line) = f t) (line : α → Nat) (xs : List α) (s : State) :
    f (xs.foldl (fun t x => t.soil (line x)) s) = f s :=
  List.foldlRecOn (motive := fun t => f t = f s) xs _ rfl fun t h _ _ => (keeps t _).trans h

theorem card_hostStore (s : State) (a : Nat) (bs : List Byte) : (hostStore s a bs).card = s.card :=
  foldl_soil_keeps (f := State.card) (fun _ _ => rfl) _ _ _

theorem calendar_hostStore (s : State) (a : Nat) (bs : List Byte) : (hostStore s a bs).calendar = s.calendar :=
  foldl_soil_keeps (f := State.calendar) (fun _ _ => rfl) _ _ _

/-- Publishing writes memory, and nothing of the card or of where the calendar stands. -/
theorem publish_card_calendar (s : State) : (publish s).card = s.card ∧ (publish s).calendar = s.calendar := by
  rw [publish]
  split
  · exact ⟨rfl, rfl⟩
  · split
    · exact ⟨card_hostStore _ _ _, calendar_hostStore _ _ _⟩
    · exact ⟨rfl, rfl⟩

/-! Boot (R326, R426, R465). -/

/-- The request for the image, in the tick after the Fepel Link has trained (R465). -/
theorem stage_passTicks_of_trained (h : s.card.stage = 2) (dt : Nat) : (passTicks s dt).card.stage = 3 := by
  have stage : (if resetDue s dt then resetWindows s else s).card.stage = 2 := by
    split
    · rw [resetWindows]
      split
      · exact h
      · exact h
    · exact h
  have card : (passTicks s dt).card = if (if resetDue s dt then resetWindows s else s).card.stage == 2
      then { (if resetDue s dt then resetWindows s else s).card with stage := 3 } else (if resetDue s dt then resetWindows s else s).card := rfl
  rw [card, if_pos (beq_iff_eq.mpr stage)]

/-- The four supervisors as they come up. -/
def awakened (alive : BitVec 4) (s : State) : State :=
  { s.draw.2 with dies := tab 4 fun i => { s.draw.2.dies.toList.getD i Die.reset with alive := alive.getLsbD i } }

theorem die_awakened (alive : BitVec 4) (s : State) (d : Fin 4) : (awakened alive s).die d = { s.die d with alive := alive.getLsbD d.val } := by
  show (tab 4 fun i => { s.draw.2.dies.toList.getD i Die.reset with alive := alive.getLsbD i }).get d = _
  rw [Vector.get_tab, State.getD_dies]
  rfl

/-- The state once memories are ready, but for the leader's lease. -/
def memoriesUp (alive : BitVec 4) (s : State) : State :=
  { awakened alive s with
    leader := lowestAlive (awakened alive s), leaderStopped := false
    card := { s.card with stage := 5, edges := 15, floor := floorRaised s.card (s.draw.1.getLsbD 0) } }

theorem exec_memoriesReady_of_image {alive : BitVec 4} (h : s.card.stage = 4) (ha : alive ≠ 0) : exec (.memoriesReady alive) s =
    .next ((memoriesUp alive s).updDie (memoriesUp alive s).leaderDie fun d => { d with lease := Config.leaseTicks, sinceRenew := 0 }) := by
  refine if_neg ?_
  rw [h, beq_eq_false_iff_ne.mpr ha]
  decide

/-- Of four supervisors of which one is alive, one is the lowest alive. -/
theorem exists_lowest_bit : ∀ alive : BitVec 4, alive ≠ 0 →
    ∃ n : Fin 4, alive.getLsbD n.val = true ∧ ∀ m : Fin 4, m.val < n.val → alive.getLsbD m.val = false := by decide

theorem le_floorRaised (c : Card) (b : Bool) : c.floor.toNat ≤ (floorRaised c b).toNat := by
  rcases floorRaised_eq_or c b with same | ⟨_, lower, raised⟩
  · exact Nat.le_of_eq (congrArg BitVec.toNat same.symm)
  · exact Nat.le_of_lt (raised ▸ lower)

/-! The image (R466). -/

section
variable {image : List Byte} {whole : Bool} {hash : BitVec 256} {floor : DWord}

/-- The fixed fields of the image's header. -/
def ImageMagic (image : List Byte) : Prop :=
  imageNum image 0 4 = 0x44314450 ∧ imageNum image 4 4 = 1 ∧ imageNum image 0x5C 4 = 0 ∧ imageNum image 0xB64 28 = 0

/-- The body has a length that is allowed, and is there. -/
def ImageFits (image : List Byte) : Prop := imageNum image 8 8 ≤ 4191360 ∧ 0xB80 + imageNum image 8 8 ≤ image.length

/-- The image's public key is the one whose hash one-time storage holds. -/
def ImageKnown (image : List Byte) (hash : BitVec 256) : Prop := natOfBytes (shake256 ((image.drop 0x18).take 68)) = hash.toNat

/-- The signature holds over the header and the body. -/
def imageSigned (image : List Byte) : Bool :=
  xmssVerify ((image.drop 0x18).take 68) ((image.drop 0x60).take 2820) (image.take 0x60 ++ (image.drop 0xB80).take (imageNum image 8 8))

/-- The checks of the key, of the signature and of the security version. -/
def keyError (image : List Byte) (hash : BitVec 256) (floor : DWord) : BitVec 8 :=
  if natOfBytes (shake256 ((image.drop 0x18).take 68)) ≠ hash.toNat then 4
  else if !imageSigned image then 5
  else if imageNum image 0x10 8 < floor.toNat then 6
  else 0

/-- The check of the body's length, and those after it. -/
def bodyError (image : List Byte) (hash : BitVec 256) (floor : DWord) : BitVec 8 :=
  if imageNum image 8 8 > 4191360 ∨ image.length < 0xB80 + imageNum image 8 8 then 3 else keyError image hash floor

theorem imageError_of_partial (h : whole = false) : imageError image whole hash floor = 1 := if_pos (by rw [h]; rfl)

theorem imageError_of_notMagic (h : whole = true) (hm : ¬ImageMagic image) : imageError image whole hash floor = 2 :=
  (if_neg (by rw [h]; exact Bool.false_ne_true)).trans (if_pos (by simpa only [ImageMagic, not_and_or] using hm))

theorem imageError_of_magic (h : whole = true ∧ ImageMagic image) : imageError image whole hash floor = bodyError image hash floor :=
  (if_neg (by rw [h.1]; exact Bool.false_ne_true)).trans (if_neg (by simpa only [ImageMagic, not_or, not_not] using h.2))

theorem bodyError_of_notFits (h : ¬ImageFits image) : bodyError image hash floor = 3 :=
  if_pos (by simpa only [ImageFits, not_and_or, not_le, gt_iff_lt] using h)

theorem bodyError_of_fits (h : ImageFits image) : bodyError image hash floor = keyError image hash floor :=
  if_neg (by simpa only [ImageFits, not_or, not_lt, gt_iff_lt] using h)

theorem keyError_of_unknown (h : ¬ImageKnown image hash) : keyError image hash floor = 4 := if_pos h

theorem keyError_of_unsigned (hk : ImageKnown image hash) (h : imageSigned image = false) : keyError image hash floor = 5 :=
  (if_neg (not_not.mpr hk)).trans (if_pos (by rw [h]; rfl))

theorem keyError_of_signed (hk : ImageKnown image hash) (h : imageSigned image = true) :
    keyError image hash floor = if imageNum image 0x10 8 < floor.toNat then 6 else 0 :=
  (if_neg (not_not.mpr hk)).trans (if_neg (by rw [h]; exact Bool.false_ne_true))

/-- An image that fails a check ends the boot with its code, and stands in die 0's supervisor. -/
theorem exec_imageDelivered_of_error {e : BitVec 8} (hs : s.card.stage = 3) (h : imageError image whole s.card.keyHash s.card.floor = e)
    (he : e ≠ 0) : exec (.imageDelivered image whole) s = .next ((bootFailed s e).updDie 0 fun d => { d with image }) := by
  show execImageDelivered image whole s = _
  rw [execImageDelivered, hs, h, if_neg (by decide)]
  exact if_pos he

theorem exec_imageDelivered_of_sound (hs : s.card.stage = 3) (h : imageError image whole s.card.keyHash s.card.floor = 0) :
    exec (.imageDelivered image whole) s = .next { s with
      dies := s.dies.map fun (d : Die) => { d with image }
      card := { s.card with stage := 4, svn := BitVec.ofNat 32 (imageNum image 0x10 8), version := BitVec.ofNat 64 (imageNum image 0x10 8) } } := by
  show execImageDelivered image whole s = _
  rw [execImageDelivered, hs, h, if_neg (by decide)]
  exact if_neg (not_not.mpr rfl)

end

/-! The alignment and the end of the boot (R424, R426, R465). -/

theorem exec_pscAlignment_alone {ports : BitVec 12} (hs : s.card.stage = 5) : exec (.pscAlignment ports none) s =
    .next { s.draw.2 with card := { s.card with stage := 6, ports, fabric := s.draw.1.setWidth 12 }, aligned := s.psc } := by
  show execPscAlignment ports none s = _
  rw [execPscAlignment, hs]
  rfl

/-- The least end of the catch-up slot of an alignment (R426). -/
def slotLeft (v : DWord) : Nat := if (slotAt v).1.toNat ≤ v.toNat then (slotAt v).1.toNat + (slotAt v).2.1.toNat else 0

theorem exec_pscAlignment_to {ports : BitVec 12} {v : DWord} (hs : s.card.stage = 5) (hp : ports ≠ 0) (hv : s.psc.toNat ≤ v.toNat) :
    exec (.pscAlignment ports (some v)) s = .next { s.draw.2 with
      card := { s.card with stage := 6, ports, fabric := s.draw.1.setWidth 12 }, psc := v, aligned := v, slot := .outside
      catchUp := max (v.toNat + Config.majorLen) (slotLeft v) } := by
  show execPscAlignment ports (some v) s = _
  have due : (ports == 0 || decide (v.toNat < s.draw.2.psc.toNat)) = false := by
    rw [beq_eq_false_iff_ne.mpr hp, State.draw_psc, decide_eq_false (Nat.not_lt.mpr hv)]
    rfl
  rw [execPscAlignment, hs]
  exact if_neg (ne_true_of_eq_false due)

/-- The state in which the calendar has a place and the package is READY, before the table is written. -/
def calendarPlaced (s : State) : State :=
  { s.draw.2 with calendar := some (s.draw.1.toNat % (Config.dieBytes / 64) * 64), card := { s.card with stage := 7 } }

theorem exec_bootReady_of_aligned (hs : s.card.stage = 6) : exec .bootReady s = .next (publish (calendarPlaced s)) := by
  show execBootReady s = _
  rw [execBootReady, hs]
  rfl

end

end Sys2Proof.Machine

namespace Sys2Proof

open Sys2Proof.Machine

/-- Settles O56: each event by its guard, the takeover by what the state block reads as, and the image by its checks in their order. -/
theorem leaseAndBoot : Obligations.LeaseAndBoot := by
  refine ⟨fun s d hl => ?lease, fun s => ?boot⟩
  case lease =>
    have leads : s.leaderDie = d := by rw [State.leaderDie, hl]; rfl
    refine ⟨fun alive live old => (exec_leaseRenew_of_leader hl).trans (if_pos ?_), fun dead => (exec_leaseRenew_of_leader hl).trans (if_neg ?_),
      fun margin acts => (exec_leaderStop_of_leader hl).trans (if_pos ?_), fun live => (exec_leaderStop_of_leader hl).trans (if_neg ?_),
      exec_leaseLapse_of_held hl, fun n lapsed alive lower => ⟨fun ready reach => ?_, fun held => ?_⟩,
      fun q k j hq hj halted tearing uncommitted unheld => ?_⟩
    · rw [alive, decide_eq_true live, decide_eq_true old]
      rfl
    · rw [dead]
      exact Bool.false_ne_true
    · rw [decide_eq_true margin, acts]
      rfl
    · rw [decide_eq_false (Nat.not_le.mpr live)]
      exact Bool.false_ne_true
    · refine (exec_leaseLapse_of_lowest hl (lowestAlive_eq_some alive lower)).trans (if_neg ?_)
      rw [ready, List.all_eq_true.mpr reach, decide_eq_false (not_not.mpr lapsed)]
      exact Bool.false_ne_true
    · refine (exec_leaseLapse_of_lowest hl (lowestAlive_eq_some alive lower)).trans (if_pos ?_)
      rcases held with gate | ⟨k, hk, far⟩
      · rw [gate, Bool.not_false, Bool.or_true, Bool.true_or]
      · rw [List.all_eq_false.mpr ⟨k, hk, ne_true_of_eq_false far⟩, Bool.not_false, Bool.or_true]
    · subst leads
      have taken : TakenOver s q k j := ⟨hq, hj, halted, tearing, uncommitted, unheld⟩
      exact ⟨fun b read => takeOver_of_read taken read, fun b read => takeOver_of_unread taken read fun c => by simp,
        fun c read => takeOver_of_unread taken read fun b => by simp⟩
  case boot =>
    refine ⟨fun trained => ⟨?_, ?_⟩, stage_passTicks_of_trained, fun image whole stage => ?image, fun image whole stage => if_pos ?_,
      fun alive stage some => ?memories, fun ports stage => ?align, fun stage => ?ready, fun stage => if_pos (bne_iff_ne.mpr stage)⟩
    · show execFepelLinkTrained true s = _
      rw [execFepelLinkTrained, trained]
      rfl
    · show execFepelLinkTrained false s = _
      rw [execFepelLinkTrained, trained]
      rfl
    case image =>
      intro len magic whole1 fits body key known signed fails
      have fail {e : BitVec 8} (h : imageError image whole s.card.keyHash s.card.floor = e) (he : e ≠ 0) : fails e :=
        exec_imageDelivered_of_error stage h he
      have checked (h : whole1) (hf : fits) : imageError image whole s.card.keyHash s.card.floor = keyError image s.card.keyHash s.card.floor :=
        (imageError_of_magic h).trans (bodyError_of_fits hf)
      refine ⟨fun h => fail (imageError_of_partial h) (by decide), fun h hm => fail (imageError_of_notMagic h hm) (by decide),
        fun h hf => fail ((imageError_of_magic h).trans (bodyError_of_notFits hf)) (by decide),
        fun h hf hk => fail ((checked h hf).trans (keyError_of_unknown hk)) (by decide),
        fun h hf hk => ⟨fun unsigned => fail ((checked h hf).trans (keyError_of_unsigned hk (Bool.eq_false_of_not_eq_true unsigned))) (by decide),
          fun sound old => fail ((checked h hf).trans ((keyError_of_signed hk sound).trans (if_pos old))) (by decide),
          fun sound new => exec_imageDelivered_of_sound stage
            ((checked h hf).trans ((keyError_of_signed hk sound).trans (if_neg (Nat.not_lt.mpr new))))⟩⟩
    · exact bne_iff_ne.mpr stage
    case memories =>
      obtain ⟨n, bit, lower⟩ := exists_lowest_bit alive some
      have leader : (memoriesUp alive s).leader = .some n :=
        lowestAlive_eq_some (by rw [die_awakened]; exact bit) fun m hm => by rw [die_awakened]; exact lower m hm
      have leads : (memoriesUp alive s).leaderDie = n := by rw [State.leaderDie, leader]; rfl
      refine ⟨_, exec_memoriesReady_of_image stage some, rfl, rfl, rfl, (floorRaised_eq_or s.card _).imp_right fun raised => raised.2.2,
        le_floorRaised s.card _, fun d => ?_, n, leader, bit, lower, ?_⟩
      · have up : ((memoriesUp alive s).die d).alive = alive.getLsbD d.val := congrArg Die.alive (die_awakened alive s d)
        rw [State.die_updDie]
        split
        · next same => exact same ▸ up
        · exact up
      · rw [leads, State.die_updDie, if_pos rfl]
    case align =>
      exact ⟨⟨_, exec_pscAlignment_alone stage, rfl, rfl, rfl, rfl⟩,
        fun v hp hv => ⟨_, exec_pscAlignment_to stage hp hv, rfl, rfl, rfl, rfl, le_max_left _ _⟩⟩
    case ready =>
      obtain ⟨card, calendar⟩ := publish_card_calendar (calendarPlaced s)
      refine ⟨_, exec_bootReady_of_aligned stage, by rw [card]; rfl, _, calendar, Nat.mul_mod_left _ _, ?_⟩
      have room : s.draw.1.toNat % (Config.dieBytes / 64) < Config.dieBytes / 64 := Nat.mod_lt _ (by decide)
      have size : Config.dieBytes = Config.dieBytes / 64 * 64 := rfl
      omega

end Sys2Proof
end

section
/-! PROOFS. TICK, MSLOT and CTRR (R425, R441, R442, R446, R447): the first slot not ended at a tick, and each counter by its number. -/

namespace Sys2Proof.Machine

/-! The slot of a tick (R417, R425). -/

/-- Ticks that the slot starting at a tick lasts. -/
def slotLength (x : Nat) : Nat := if x % 1048576 = 0 then 12288 else 1280

theorem slotLength_pos (x : Nat) : 1280 ≤ slotLength x := by unfold slotLength; split <;> omega

theorem slotLength_le (x : Nat) : slotLength x ≤ 12288 := by unfold slotLength; split <;> omega

/-- The start of the first slot not ended at a tick. -/
def slotStart (t : Nat) : Nat :=
  if t - t % 16384 + slotLength (t - t % 16384) ≤ t then t - t % 16384 + 16384 else t - t % 16384

theorem slotStart_aligned (t : Nat) : slotStart t % 16384 = 0 := by unfold slotStart; split <;> omega

theorem slotStart_le (t : Nat) : slotStart t ≤ t + 16384 := by unfold slotStart; split <;> omega

theorem lt_slotStart_add (t : Nat) : t < slotStart t + slotLength (slotStart t) := by
  unfold slotStart
  split
  · have long := slotLength_pos (t - t % 16384 + 16384)
    omega
  · omega

/-- No slot that starts before it lasts past the tick. -/
theorem slotStart_le_of_lt {t x : Nat} (aligned : x % 16384 = 0) (h : t < x + slotLength x) : slotStart t ≤ x := by
  have short := slotLength_le x
  unfold slotStart
  split
  · next ended =>
    by_contra before
    have same : x = t - t % 16384 := by omega
    rw [← same] at ended
    omega
  · omega

/-- Start, length and affected mask of the slot that starts at a tick (R425). -/
def slotFrom (b : DWord) : DWord × DWord × DWord :=
  (b, BitVec.ofNat 64 (slotLength b.toNat), if slotLength b.toNat = 12288 then 15 else 1)

/-- The slot that starts at `b`, or the next one where that has ended. -/
def slotSince (t b : DWord) : DWord := if t.toNat ≥ b.toNat + slotLength b.toNat then b + BitVec.ofNat 64 16384 else b

theorem slotAt_eq_slotFrom (t : DWord) : slotAt t = slotFrom (slotSince t (BitVec.ofNat 64 (t.toNat - t.toNat % 16384))) := rfl

theorem slotSince_floor (t : DWord) :
    slotSince t (BitVec.ofNat 64 (t.toNat - t.toNat % 16384)) = BitVec.ofNat 64 (slotStart t.toNat) := by
  have floor : (BitVec.ofNat 64 (t.toNat - t.toNat % 16384)).toNat = t.toNat - t.toNat % 16384 := by
    rw [BitVec.toNat_ofNat, Nat.mod_eq_of_lt (by have := t.isLt; omega)]
  rw [slotSince, floor, slotStart]
  split
  · exact (BitVec.ofNat_add _ _).symm
  · rfl

theorem slotAt_eq (t : DWord) : slotAt t = slotFrom (BitVec.ofNat 64 (slotStart t.toNat)) := by
  rw [slotAt_eq_slotFrom, slotSince_floor]

section
variable {s : State} {st : Strand} {d a : Code} {n : Word}

/-! TICK (R441). -/

/-- A TICK that is the strand's first of the tick gives `psc` (R441). -/
theorem exec_tick_of_first (hr : s.ready .c 2 st) (h : st.lastTick ≠ some s.psc) :
    exec (.tick d) s = .next (s.passedAs .c 2 { st.setX d ⟨s.psc, false⟩ with lastTick := some s.psc }) := by
  show execTick d s = _
  have run := strandWord_ok (f := fun st => .ok { st.setX d ⟨s.psc, false⟩ with lastTick := some s.psc }) hr rfl
  rw [execTick, hr.1]
  exact (if_neg (by simpa using h)).trans run

/-! MSLOT (R425, R442). -/

theorem mslotOp_of_poison (h : (st.x? a).poison = true) : mslotOp d a n st = .error (.fault .poisonSync) := by
  rw [mslotOp, clean_of_poison h]
  rfl

theorem mslotOp_of_beyond (h : (st.x? a).poison = false) (hn : 3 ≤ n.toNat) : mslotOp d a n st = .error (.fault .illegal) := by
  obtain ⟨k, hk⟩ : ∃ k, n.toNat = k + 3 := ⟨n.toNat - 3, by omega⟩
  rw [mslotOp, clean_of_clean h]
  simp only [hk]
  rfl

/-! CTRR (R446, R447). -/

/-- A counter's value put in the register. -/
theorem exec_ctrr_of_value {v : DWord} (hr : s.ready .c 2 st)
    (h : ctrrOp d n s s.focusTile st = .ok (s.updStrand s.focusTile fun q => q.setX d ⟨v, false⟩)) :
    exec (.ctrr d n) s = .next (s.passedAs .c 2 (st.setX d ⟨v, false⟩)) := by
  rw [State.updStrand_of_strand hr.1] at h
  exact checkedWord_ok hr h

theorem ctrrOp_of_low (h : n.toNat < 2 ^ 28) (h11 : n.toNat ≠ 11) (hn : n.toNat < 17) : ctrrOp d n s s.focusTile st =
    .ok (s.updStrand s.focusTile fun q => q.setX d ⟨st.perf.get ⟨n.toNat, hn⟩, false⟩) := by
  have top : bits n.toNat 31 28 = 0 := bits_eq_zero_of_lt h
  simp only [ctrrOp, top]
  rw [if_neg h11, dif_pos hn]

theorem ctrrOp_of_unused (h : n.toNat < 2 ^ 28) (hn : 17 ≤ n.toNat) : ctrrOp d n s s.focusTile st = .error (.fault .illegal) := by
  have top : bits n.toNat 31 28 = 0 := bits_eq_zero_of_lt h
  simp only [ctrrOp, top]
  rw [if_neg (by omega), dif_neg (by omega)]
  rfl

/-- The window counts of the tile core's scratchpad (R444, R447). -/
theorem ctrrOp_of_window {row : Nat} (h : row < 2) : ctrrOp d (BitVec.ofNat 32 (2 ^ 29 + row)) s s.focusTile st =
    .ok (s.updStrand s.focusTile fun q => q.setX d ⟨BitVec.ofNat 64 (spadWindow s s.focusTile row), false⟩) := by
  have number : (BitVec.ofNat 32 (2 ^ 29 + row)).toNat = 2 ^ 29 + row := by rw [BitVec.toNat_ofNat, Nat.mod_eq_of_lt (by omega)]
  have top : bits (2 ^ 29 + row) 31 28 = 2 := by simp only [bits]; omega
  have low : (2 ^ 29 + row) % 2 = row := by omega
  simp only [ctrrOp, number, top, low]
  rw [if_pos (by omega)]

/-- The strand once its count of split accesses has been read (R446, log 32). -/
def Strand.splitsRead (st : Strand) (k : Nat) (d : Code) : Strand :=
  let q : Strand := { st.count 11 k with splits := 0 }
  q.setX d ⟨q.perf.get 11, false⟩

theorem ctrrOp_of_splits (hs : s.strand s.focusTile = some st) : ctrrOp d 11 s s.focusTile st =
    .ok (s.draw.2.setStrand s.focusTile (st.splitsRead (s.draw.1.toNat % (st.splits + 1)) d)) := by
  have drawn : s.draw.2.strand s.focusTile = some st := hs
  show Except.ok ((s.draw.2.updStrand s.focusTile fun q =>
    { q.count 11 (s.draw.1.toNat % (q.splits + 1)) with splits := 0 }).updStrand s.focusTile fun q => q.setX d ⟨q.perf.get 11, false⟩) = _
  rw [State.updStrand_of_strand drawn, State.updStrand_of_strand ((State.strand_setStrand _ _ _ _).trans (if_pos rfl)),
    State.setStrand_setStrand]
  rfl

theorem Strand.perf_count_of_ne {i j : Fin 17} (h : j ≠ i) (st : Strand) (k : Nat) : (st.count i k).perf.get j = st.perf.get j :=
  Vector.getElem_set_ne i.isLt j.isLt (Fin.val_ne_of_ne h.symm)

theorem Strand.perf_setX (st : Strand) (d : Code) (v : PWord) : (st.setX d v).perf = st.perf := by
  rw [setX]
  split
  · rfl
  · rfl

theorem Strand.splits_setX (st : Strand) (d : Code) (v : PWord) : (st.setX d v).splits = st.splits := by
  rw [setX]
  split
  · rfl
  · rfl

theorem Strand.splits_splitsRead (st : Strand) (k : Nat) (d : Code) : (st.splitsRead k d).splits = 0 := splits_setX _ d _

theorem Strand.perf_splitsRead (st : Strand) (k : Nat) (d : Code) : (st.splitsRead k d).perf = (st.count 11 k).perf := perf_setX _ d _

theorem Strand.x?_splitsRead (hd : d ≠ 0) (st : Strand) (k : Nat) : (st.splitsRead k d).x? d = ⟨(st.count 11 k).perf.get 11, false⟩ :=
  x?_setX_same hd

/-! What a passed word leaves of the strand's counters and scalar registers (R446). -/

theorem Strand.splits_passedOn (st : Strand) (e : Eng) (len : Nat) : (st.passedOn e len).splits = st.splits := updEng_splits st e _

theorem Strand.perf_passedOn_of_ne {i : Fin 17} {e : Eng} (h : i ≠ engCounter e) (st : Strand) (len : Nat) :
    (st.passedOn e len).perf.get i = st.perf.get i := by
  rw [passedOn, trimLedger_perf, perf_count_of_ne h, updEng_perf]

theorem Strand.x?_passedOn (st : Strand) (e : Eng) (len : Nat) (c : Code) : (st.passedOn e len).x? c = st.x? c := by
  have regs : (st.passedOn e len).regs = st.regs := updEng_regs st e _
  rw [x?, regs, x?]

theorem exec_ctrr_of_splits (hr : s.ready .c 2 st) :
    exec (.ctrr d 11) s = .next (s.draw.2.passedAs .c 2 (st.splitsRead (s.draw.1.toNat % (st.splits + 1)) d)) :=
  checkedWord_ok hr (ctrrOp_of_splits hr.1)

end

end Sys2Proof.Machine

namespace Sys2Proof

open Sys2Proof.Machine

/-- Settles O19: each word by its operation, and the slot of a tick by `slotStart`. -/
theorem timeAndCounters : Obligations.TimeAndCounters := by
  refine ⟨fun s st d a hr => ?words, fun t ht => ?slots⟩
  case words =>
    intro gives
    refine ⟨exec_tick_of_first hr, fun again => exec_tick_again hr.1 again d, fun poison n => strandWord_fault hr (mslotOp_of_poison poison),
      fun clean => ?mslot, fun n other => ?counter, ?splits, fun n used low => checkedWord_fault hr (ctrrOp_of_unused low used),
      fun row hrow => exec_ctrr_of_value hr (ctrrOp_of_window hrow)⟩
    case mslot =>
      have value {n : Word} {v : DWord} (h : mslotOp d a n st = .ok (st.setX d ⟨v, false⟩)) : gives (.mslot d a n) v := strandWord_ok hr h
      refine ⟨value ?_, value ?_, value ?_, fun n beyond => strandWord_fault hr (mslotOp_of_beyond clean beyond)⟩
      all_goals
        rw [mslotOp, clean_of_clean clean]
        rfl
    case counter =>
      have number : (BitVec.ofNat 32 n.val).toNat = n.val := by
        rw [BitVec.toNat_ofNat, Nat.mod_eq_of_lt (by have := n.isLt; omega)]
      have small : (BitVec.ofNat 32 n.val).toNat < 17 := lt_of_eq_of_lt number n.isLt
      have read := ctrrOp_of_low (s := s) (st := st) (d := d) (by omega) (by rw [number]; exact fun h => other (Fin.ext h)) small
      rw [show (⟨(BitVec.ofNat 32 n.val).toNat, small⟩ : Fin 17) = n from Fin.ext number] at read
      exact exec_ctrr_of_value hr read
    case splits =>
      refine ⟨_, exec_ctrr_of_splits hr, _, s.draw.1.toNat % (st.splits + 1), Nat.le_of_lt_succ (Nat.mod_lt _ (Nat.succ_pos _)),
        State.strand_passedAs s.draw.2 .c 2 _, (Strand.splits_passedOn _ .c 2).trans (Strand.splits_splitsRead st _ d),
        (Strand.perf_passedOn_of_ne (by decide) _ 2).trans ?_, fun hd => (Strand.x?_passedOn _ .c 2 d).trans ?_⟩
      · rw [Strand.perf_splitsRead]
      · refine (Strand.x?_splitsRead hd st _).trans (congrArg (PWord.mk · false) ?_)
        exact (Strand.perf_passedOn_of_ne (e := .c) (by decide) _ 2).trans (by rw [Strand.perf_splitsRead]) |>.symm
  case slots =>
    intro len r
    have slot : r = slotFrom (BitVec.ofNat 64 (slotStart t.toNat)) := slotAt_eq t
    have fits := slotStart_le t.toNat
    have short := slotLength_le (slotStart t.toNat)
    have start : (BitVec.ofNat 64 (slotStart t.toNat)).toNat = slotStart t.toNat := by
      rw [BitVec.toNat_ofNat, Nat.mod_eq_of_lt (by omega)]
    have length : (BitVec.ofNat 64 (slotLength (slotStart t.toNat))).toNat = slotLength (slotStart t.toNat) := by
      rw [BitVec.toNat_ofNat, Nat.mod_eq_of_lt (by omega)]
    rw [slot, slotFrom]
    dsimp only
    rw [start, length]
    refine ⟨slotStart_aligned _, rfl, lt_slotStart_add _, ?_, fun x aligned later => slotStart_le_of_lt aligned later⟩
    unfold slotLength
    split
    · rfl
    · rfl

end Sys2Proof
end

section
/-! PROOFS. The issue of exchange commands (R325, R329, R330, R340, R341, R343): what the checks of XCMD, XPUT, XGET and XBIND leave is a
command placed under the next ticket, whose release it follows. -/

namespace Sys2Proof.Machine

section
variable {s now sa sb sc sd : State} {st st1 st2 : Strand} {a b : Code} {n : BitVec 14} {x y : PWord} {v : Nat} {p : Pline} {c : XCmd}

/-! The next ticket (R301, R306, R325). -/

theorem needSrcX_of_lt (h : a.toNat < 10) : needSrcX a = .ok () := by rw [needSrcX, decide_eq_true h, need_true]

theorem needSlot_of_full (h : 8 ≤ st.cmds.length) : needSlot st = .error (.wait .commandSlot) := if_pos h

theorem needSlot_of_room (h : st.cmds.length < 8) : needSlot st = .ok () := if_neg (Nat.not_le.mpr h)

theorem placeCmd_of_released {s1 : State} {w : View} (h : release now s.focusTile .x .system = .ok (s1, w)) (c : XCmd) :
    placeCmd now s.focusTile c = .ok (s1.updStrand s.focusTile fun q =>
      { q with tickets := q.tickets + 1, cmds := q.cmds ++ [{ c with ticket := q.tickets + 1, view := w }] }) := by
  rw [placeCmd, h, ok_bind]

theorem placeCmd_of_held {w : Wait} (h : release now s.focusTile .x .system = .error (.wait w)) (c : XCmd) :
    placeCmd now s.focusTile c = .error (.wait w) := by
  rw [placeCmd, h, error_bind]

/-! With eight commands outstanding the engine waits (R325). -/

theorem xcmdOp_of_full (ha : a.toNat < 10) (full : 8 ≤ st.cmds.length) : xcmdOp a n s s.focusTile st = .error (.wait .commandSlot) := by
  simp only [xcmdOp, needSrcX_of_lt ha, needSlot_of_full full, ok_bind, error_bind]

theorem transferOp_of_full (kind : BitVec 2) (ha : a.toNat < 10) (full : 8 ≤ st.cmds.length) :
    transferOp kind a n s s.focusTile st = .error (.wait .commandSlot) := by
  simp only [transferOp, needSrcX_of_lt ha, needSlot_of_full full, ok_bind, error_bind]

theorem xbindOp_of_full (ha : a.toNat < 10) (hb : b.toNat < 10) (full : 8 ≤ st.cmds.length) :
    xbindOp a b s s.focusTile st = .error (.wait .commandSlot) := by
  simp only [xbindOp, needSrcX_of_lt ha, needSrcX_of_lt hb, needSlot_of_full full, ok_bind, error_bind]

/-! The checks of each word, passed (R329, R330, R340, R341, R343). -/

section
variable (room : st.cmds.length < 8) (ha : srcX st a = .ok (x, st1))
include room ha

/-- The collective command that a descriptor places. -/
def collectiveOf (st : Strand) (v : Nat) (src dst : Shape) : XCmd :=
  { ticket := 0, kind := 0, body := BitVec.ofNat 512 v, src, dst
    ins := if bits v 194 194 == 1 then st.slots.toList.getD (bits v 193 190) none else none
    outs := if bits v 199 199 == 1 then st.slots.toList.getD (bits v 198 195) none else none
    handle := BitVec.ofNat 16 (bits v 303 288) }

theorem xcmdOp_eq {src dst : Shape} {es ed sv dv : Nat} (read : readCommand (s.setStrand s.focusTile st1) s.focusTile x n = .ok (sa, v))
    (legal : commandIllegal st v = false) (quiet : calm s st (!isLocal (bits v 439 384) || !isLocal (bits v 503 448)) = true)
    (hes : sideSize sa s.focusTile st (bits v 194 194 == 1) (bits v 193 190) = .ok es)
    (hed : sideSize sa s.focusTile st (bits v 199 199 == 1) (bits v 198 195) = .ok ed)
    (bound : plineX true sa s.focusTile st (BitVec.ofNat 64 (bits v 303 288)) = .ok (sb, p))
    (hsv : readShape sb s.focusTile (16 * bits v 252 236) = .ok (sc, sv)) (hdv : readShape sc s.focusTile (16 * bits v 269 253) = .ok (sd, dv))
    (hsrc : needShape sv = .ok src) (hdst : needShape dv = .ok dst) (counts : issueCounts (opOf v) src.count dst.count = true)
    (ts : checkTraversal src (bits v 439 384) es = .ok ()) (td : checkTraversal dst (bits v 503 448) ed = .ok ()) :
    xcmdOp a n s s.focusTile st = placeCmd sd s.focusTile (collectiveOf st v src dst) := by
  simp only [xcmdOp, needSrcX_of_srcX ha, needSlot_of_room room, ha, read, legal, quiet, hes, hed, bound, hsv, hdv, hsrc, hdst, counts, ts,
    td, ok_bind, Bool.not_false, need_true, collectiveOf]

/-- The command that XPUT, of kind 1, and XGET, of kind 2, place. -/
def transferOf (kind : BitVec 2) (v : Nat) : XCmd :=
  { ticket := 0, kind, body := BitVec.ofNat 512 v, src := unitShape, dst := unitShape, handle := BitVec.ofNat 16 (bits v 303 288) }

/-- The fields of a transfer's descriptor are as R341 has them. -/
structure TransferLegal (v : Nat) : Prop where
  high : bits v 511 504 = 0
  local_ : bits v 447 440 = 0
  remote : bits v 351 344 = 0
  low : bits v 247 0 = 0
  sem : bits v 275 275 = 1 → bits v 274 274 = 0 → bits v 273 264 ≤ 31

omit room ha in
theorem TransferLegal.checked (h : TransferLegal v) : (!(bits v 511 504 != 0 || bits v 447 440 != 0 || bits v 351 344 != 0 || bits v 247 0 != 0
    || (bits v 275 275 == 1 && bits v 274 274 == 0 && decide (bits v 273 264 > 31)))) = true := by
  have sem : (bits v 275 275 == 1 && bits v 274 274 == 0 && decide (bits v 273 264 > 31)) = false := by
    rw [Bool.eq_false_iff]
    intro wrong
    simp only [Bool.and_eq_true, beq_iff_eq, decide_eq_true_eq] at wrong
    obtain ⟨⟨used, strand⟩, beyond⟩ := wrong
    exact absurd (h.sem used strand) (Nat.not_le.mpr beyond)
  rw [h.high, h.local_, h.remote, h.low, sem]
  rfl

theorem transferOp_eq (kind : BitVec 2) (read : readCommand (s.setStrand s.focusTile st1) s.focusTile x n = .ok (sa, v))
    (legal : TransferLegal v) (quiet : calm s st true = true)
    (bound : plineX true sa s.focusTile st (BitVec.ofNat 64 (bits v 303 288)) = .ok (sb, p))
    (span : bits v 343 304 ≠ 0 →
      checkSpan (bits v 439 384) (bits v 439 384) ((bits v 439 384 : Int) + (bits v 343 304 : Nat) - 1) = .ok ()) :
    transferOp kind a n s s.focusTile st = placeCmd sb s.focusTile (transferOf kind v) := by
  by_cases empty : bits v 343 304 = 0
  · simp only [transferOp, needSrcX_of_srcX ha, needSlot_of_room room, ha, read, legal.checked, quiet, bound, ok_bind, need_true, empty, ne_eq,
      not_true_eq_false, if_false, transferOf]
  · simp only [transferOp, needSrcX_of_srcX ha, needSlot_of_room room, ha, read, legal.checked, quiet, bound, ok_bind, need_true, ne_eq,
      empty, not_false_eq_true, if_true, span empty, transferOf]

/-- The command that XBIND places. -/
def bindOf (x : PWord) (mask : Nat) : XCmd :=
  { ticket := 0, kind := 3, src := unitShape, dst := unitShape, handle := x.val.setWidth 16, mask := BitVec.ofNat 4096 mask }

theorem xbindOp_eq {mask : Nat} (hb : srcX st1 b = .ok (y, st2)) (cleanX : x.poison = false) (cleanY : y.poison = false)
    (quiet : calm s st false = true) (bound : plineX true (s.setStrand s.focusTile st2) s.focusTile st x.val = .ok (sa, p))
    (aligned : y.val.toNat % 64 = 0) (inside : y.val.toNat + 512 ≤ Config.spadBytes)
    (read : readSpad sa s.focusTile y.val.toNat 512 = .ok (sb, mask)) (ranks : mask < 2 ^ p.nrank) (own : bits mask p.own p.own = 1) :
    xbindOp a b s s.focusTile st = placeCmd sb s.focusTile (bindOf x mask) := by
  have local_ : isLocal y.val.toNat = true := isLocal_of_lt (by omega)
  simp only [xbindOp, needSrcX_of_srcX ha, needSrcX_of_srcX hb, needSlot_of_room room, ha, hb, clean_of_clean cleanX, clean_of_clean cleanY,
    quiet, bound, local_, beq_iff_eq.mpr aligned, decide_eq_true inside, read, decide_eq_true ranks, beq_iff_eq.mpr own, ok_bind,
    Bool.and_self, need_true, bindOf]

end

end

end Sys2Proof.Machine

namespace Sys2Proof
open Sys2Proof.Machine

/-- Settles O44: each word's checks, passed, leave `placeCmd`, which answers as its release does. -/
theorem commandIssue : Obligations.CommandIssue := by
  unfold Obligations.CommandIssue
  intro s sa sb sc sd st st1 a b n x v p ready
  refine ⟨fun ha full => ⟨checkedWord_wait ready (xcmdOp_of_full ha full), checkedWord_wait ready (transferOp_of_full 1 ha full),
    checkedWord_wait ready (transferOp_of_full 2 ha full), fun hb => checkedWord_wait ready (xbindOp_of_full ha hb full)⟩, fun room ha => ?_⟩
  intro issued
  have placed {i : Instr} {f : State → Core → Strand → Except Halt State} (hi : exec i s = checkedWord .x 1 f s) {now : State} {c : XCmd}
      (h : f s s.focusTile st = placeCmd now s.focusTile c) : issued i now c :=
    ⟨fun s1 w released => hi.trans (checkedWord_ok ready (h.trans (placeCmd_of_released released c))),
      fun w held => hi.trans (checkedWord_wait ready (h.trans (placeCmd_of_held held c)))⟩
  refine ⟨fun src dst es ed sv dv read legal quiet hes hed bound hsv hdv hsrc hdst counts ts td => placed rfl
      (xcmdOp_eq room ha read legal quiet hes hed bound hsv hdv hsrc hdst counts ts td),
    fun read high local_ remote low sem quiet bound span => ?transfer,
    fun st2 y mask hb cleanX cleanY quiet bound aligned inside read ranks own => placed rfl
      (xbindOp_eq room ha hb cleanX cleanY quiet bound aligned inside read ranks own)⟩
  case transfer =>
    have legal : TransferLegal v := ⟨high, local_, remote, low, sem⟩
    exact ⟨placed rfl (transferOp_eq room ha 1 read legal quiet bound span), placed rfl (transferOp_eq room ha 2 read legal quiet bound span)⟩

end Sys2Proof
end

section
/-! PROOFS. How exchange commands end (R331, R332, R335, R338, R341, R343, R345): a collective's finish by its contributions and by how its
result is written, the timeout and what comes after it, and what a peer answers a transfer. -/

namespace Sys2Proof.Machine

section
variable {s : State} {tile : Core} {st : Strand} {c : XCmd}

/-! A collective's finish (R331, R332, R335, R342). -/

/-- The contributions that a collective's result is made of. -/
def finishMsgs (t : State) (c : XCmd) : List FabricMsg :=
  if noTraffic c then ((findRound t c.ftag c.gen c.round).bind fun r => r.msgs.find? fun m => m.rank == c.own).toList
  else (gathered t c true).getD []

def finishResult (t : State) (c : XCmd) : List (Word × Bool) :=
  if countC c = 0 then [] else resultOf c ((finishMsgs t c).map (·.leaves))

/-- The reduction that a command has made counted (R446). -/
def reductionCounted (inSwitch : Bool) (tile : Core) (c : XCmd) (s1 : State) : State :=
  if noTraffic c || decide (opOf c.body.toNat > 1) then s1 else s1.updStrand tile (·.count (if inSwitch then 14 else 15) 1)

/-- What the event answers by how the result is written, in the state `t` that the agreement leaves. -/
def finishedAs (inSwitch : Bool) (s t : State) (tile : Core) (st : Strand) (c : XCmd) : Partway State → Out
  | .error (.fault f, s1) => .next (asyncFault s1 tile f)
  | .error (.wait w, _) => .next (waitHead t tile w)
  | .ok s1 =>
    if waitsHeld (reductionCounted inSwitch tile c s1) tile st c then .next s
    else .next (finishCmd (reductionCounted inSwitch tile c s1) tile c 2)

section
variable {inSwitch : Bool} {t : State} (ht : tryAgree s tile = t) (hf : freeHead t tile = some (st, c))
include ht hf

theorem exec_commandFinish_of_head : exec (.commandFinish tile inSwitch) s =
    if !readyCmd t c || (!noTraffic c && !t.chainFree (dieOf tile)) then .next s
    else if !noTraffic c && !((finishMsgs t c).all (sameRound c)) then .next (finishCmd t tile c 6)
    else finishedAs inSwitch s t tile st c (writeResult t tile st c (finishResult t c)) := by
  subst ht
  show execCommandFinish tile inSwitch s = _
  simp only [execCommandFinish, hf]
  rfl

theorem exec_commandFinish_of_early (h : readyCmd t c = false ∨ noTraffic c = false ∧ t.chainFree (dieOf tile) = false) :
    exec (.commandFinish tile inSwitch) s = .next s := by
  refine (exec_commandFinish_of_head ht hf).trans (if_pos ?_)
  rcases h with h | ⟨traffic, chain⟩
  · rw [h]
    rfl
  · rw [traffic, chain]
    exact Bool.or_true _

section
variable (ready : readyCmd t c = true)
include ready

/-- Members that disagree end the command MISMATCH (R331). -/
theorem exec_commandFinish_of_mismatch (traffic : noTraffic c = false) (chain : t.chainFree (dieOf tile) = true)
    (differ : ∃ m ∈ finishMsgs t c, sameRound c m = false) :
    exec (.commandFinish tile inSwitch) s = .next (finishCmd t tile c 6) := by
  obtain ⟨m, hm, other⟩ := differ
  refine (exec_commandFinish_of_head ht hf).trans ((if_neg ?_).trans (if_pos ?_))
  · rw [ready, traffic, chain]
    exact Bool.false_ne_true
  · rw [traffic, List.all_eq_false.mpr ⟨m, hm, ne_true_of_eq_false other⟩]
    rfl

/-- A command whose members agree writes its result. -/
theorem exec_commandFinish_of_agreed
    (agree : noTraffic c = true ∨ t.chainFree (dieOf tile) = true ∧ ∀ m ∈ finishMsgs t c, sameRound c m = true) :
    exec (.commandFinish tile inSwitch) s = finishedAs inSwitch s t tile st c (writeResult t tile st c (finishResult t c)) := by
  refine (exec_commandFinish_of_head ht hf).trans ((if_neg ?_).trans (if_neg ?_))
  · rcases agree with alone | ⟨chain, -⟩
    · rw [ready, alone]
      exact Bool.false_ne_true
    · rw [ready, chain, Bool.not_true, Bool.and_false]
      exact Bool.false_ne_true
  · rcases agree with alone | ⟨-, same⟩
    · rw [alone]
      exact Bool.false_ne_true
    · rw [List.all_eq_true.mpr same, Bool.not_true, Bool.and_false]
      exact Bool.false_ne_true

end

end

/-! The timeout (R338, R345). -/

theorem exec_commandTimeout_of_head (hf : freeHead s tile = some (st, c)) : exec (.commandTimeout tile) s =
    if c.kind != 3 && c.active && c.cut.isSome && !readyCmd s c then .next (finishCmd s tile c 3) else .next s := by
  show execCommandTimeout tile s = _
  simp only [execCommandTimeout, hf]
  rfl

/-- A command of a strand once `free` ticks outside slots have passed, of which all but the last are `early` ones. -/
def XCmd.ticked (now : DWord) (free early : Nat) (c : XCmd) : XCmd :=
  if c.active then
    { c with ticks := c.ticks + free
             cut := if c.cut.isNone && c.tmo != 0 && decide (c.ticks + early ≥ c.tmo) then some now else c.cut }
  else c

theorem Strand.cmds_tick (live : st.dead54 = false) (now : DWord) (dt free early : Nat) :
    (st.tick now dt free early).cmds = st.cmds.map (XCmd.ticked now free early) := by
  simp only [tick, live, Bool.false_eq_true, if_false, count_cmds]
  rfl

/-- The timeout of a command that is active and not cut yet expires once it has counted its ticks. -/
theorem XCmd.cut_ticked (active : c.active = true) (cut : c.cut = none) (now : DWord) (free early : Nat) :
    (c.ticked now free early).ticks = c.ticks + free ∧
      ((c.ticked now free early).cut = some now ↔ c.tmo ≠ 0 ∧ c.tmo ≤ c.ticks + early) := by
  have ticked : c.ticked now free early = { c with
      ticks := c.ticks + free
      cut := if c.cut.isNone && c.tmo != 0 && decide (c.ticks + early ≥ c.tmo) then some now else c.cut } := if_pos active
  rw [ticked, cut]
  refine ⟨rfl, ?_⟩
  by_cases expired : c.tmo ≠ 0 ∧ c.tmo ≤ c.ticks + early
  · exact ⟨fun _ => expired, fun _ => if_pos (by simpa using expired)⟩
  · have none_ : ¬some now = none := nofun
    exact ⟨fun h => absurd ((if_neg (by simpa using expired)).symm.trans h).symm none_, fun h => absurd h expired⟩

/-- A cut round takes nothing that came later. -/
theorem Round.came_of_within {r : Round} {m : FabricMsg} {t : DWord} (cut : c.cut = some t) (h : m ∈ r.within c.cut) :
    ∃ x ∈ r.came, x.1 = m.rank ∧ x.2.toNat ≤ t.toNat := by
  rw [cut] at h
  obtain ⟨x, hx, here⟩ := List.any_eq_true.mp (List.mem_filter.mp h).2
  obtain ⟨rank, early⟩ := Bool.and_eq_true_iff.mp here
  exact ⟨x, hx, beq_iff_eq.mp rank, of_decide_eq_true early⟩

/-! A contribution that a switch has discarded (R327). -/

theorem exec_switchDiscard_of_contributed {q : Strand} (hq : s.strand tile = some q) (live : q.dead54 = false)
    (chain : s.chainFree (dieOf tile) = true)
    (sent : q.statuses ≠ [] ∨ ∃ x ∈ q.cmds, x.active = true ∧ (x.sent = true ∨ x.kind ≠ 0)) :
    exec (.switchDiscard tile) s = .next (asyncFault s tile .xMembership) := by
  have contributed : (!q.dead54 && (!q.statuses.isEmpty || q.cmds.any fun c => c.active && (c.sent || c.kind != 0))) = true := by
    rw [live, Bool.not_false, Bool.true_and, Bool.or_eq_true]
    rcases sent with final | ⟨x, hx, active, out⟩
    · exact .inl (by simpa using final)
    · exact .inr (List.any_eq_true.mpr ⟨x, hx, by simpa [active] using out⟩)
  show execSwitchDiscard tile s = _
  simp only [execSwitchDiscard, hq, contributed, chain, Bool.and_self, if_true]

/-! One-sided transfers (R341). -/

section
variable {bytes : List (Byte × Bool)} {ok tracked : Bool} (hf : freeHead s tile = some (st, c))
include hf

theorem exec_remoteTransfer_of_stopped (h : s.chainFree (dieOf tile) = false ∨ c.cut.isSome = true) :
    exec (.remoteTransfer tile bytes ok tracked) s = .next s := by
  show execRemoteTransfer tile bytes ok tracked s = _
  simp only [execRemoteTransfer, hf]
  refine if_pos ?_
  rcases h with h | h
  · rw [h, Bool.not_false, Bool.or_true]
  · rw [h, Bool.or_true, Bool.true_or]

/-- What XPUT's source, read for the peer, comes to. -/
def putAs (s : State) (tile : Core) (st : Strand) (c : XCmd) (ok tracked : Bool) : Except Halt (State × View) → Out
  | .error (.fault f) => .next (asyncFault s tile f)
  | .error (.wait w) => .next (waitHead s tile w)
  | .ok (s1, w) =>
    if st.det && tracked then .next (asyncFault s1 tile .detIllegal)
    else .next (finishCmd s1 tile { c with view := w } (if ok then 2 else 7))

/-- What the bytes that XGET's peer has sent, written here, come to. -/
def gotAs (s : State) (tile : Core) (st : Strand) (c : XCmd) (ok : Bool) : Partway State → Out
  | .error (.fault f, s1) => .next (asyncFault s1 tile f)
  | .error (.wait w, _) => .next (waitHead s tile w)
  | .ok s1 => if waitsHeld s1 tile st c then .next s else .next (finishCmd s1 tile c (if ok then 2 else 7))

variable (due : (!c.active || c.cut.isSome || !s.chainFree (dieOf tile)) = false)
include due

theorem exec_remoteTransfer_of_put (kind : c.kind = 1) : exec (.remoteTransfer tile [] ok tracked) s =
    putAs s tile st c ok tracked (sourceBytes s tile st c (bits c.body.toNat 439 384) (bits c.body.toNat 343 304)) := by
  show execRemoteTransfer tile [] ok tracked s = _
  simp only [execRemoteTransfer, hf, due, Bool.false_eq_true, if_false, if_pos kind, List.isEmpty_nil, Bool.not_true]
  rfl

theorem exec_remoteTransfer_of_get (kind : c.kind = 2) (whole : ok = true → bytes.length = bits c.body.toNat 343 304)
    (most : bytes.length ≤ bits c.body.toNat 343 304) : exec (.remoteTransfer tile bytes ok tracked) s =
    gotAs s tile st c ok (getBytes tile st c (bits c.body.toNat 439 384) bytes s) := by
  have get : ¬c.kind = 1 := by rw [kind]; decide
  have sound : ((ok && bytes.length != bits c.body.toNat 343 304) || decide (bytes.length > bits c.body.toNat 343 304)) = false := by
    simpa using ⟨whole, most⟩
  show execRemoteTransfer tile bytes ok tracked s = _
  simp only [execRemoteTransfer, hf, due, Bool.false_eq_true, if_false, if_neg get, if_pos kind, sound]
  rfl

end

end

end Sys2Proof.Machine
end

section
/-! PROOFS. Rebindings (R340, R487), what the fabric brings (R334, R345), and with them the ends of commands: O46. -/

namespace Sys2Proof.Machine

section
variable {s : State} {tile : Core} {st : Strand} {c : XCmd}

/-! The masks of a rebinding (R340, R487). -/

/-- The masks that have come in time in a round, by rank. -/
def cameMasks (r : Round) (c : XCmd) : List (Nat × BitVec 4096) :=
  (r.within c.cut).filterMap fun m => m.bind.map fun b => (m.rank, b)

/-- Every rank that a mask names has sent one. -/
def wholeMask (ms : List (Nat × BitVec 4096)) (b : BitVec 4096) : Bool := (ranksOf b).all fun q => ms.any fun m => m.1 == q

theorem wholeMask_iff {ms : List (Nat × BitVec 4096)} {b : BitVec 4096} :
    wholeMask ms b = true ↔ ∀ q ∈ ranksOf b, ∃ m ∈ ms, m.1 = q := by
  simp only [wholeMask, List.all_eq_true, List.any_eq_true, beq_iff_eq]

/-- What the masks come to for the command (R487). -/
def masksOutcome (ms : List (Nat × BitVec 4096)) (c : XCmd) : Option Bool :=
  if wholeMask ms c.mask then some (ms.all fun m => !c.mask.getLsbD m.1 || m.2 == c.mask)
  else if ms.any fun m => m.2.getLsbD c.own && wholeMask ms m.2 then some false
  else none

theorem bindOutcome_of_round {r : Round} (h : findRound s c.ftag c.gen bindRoundNo = some r) :
    bindOutcome s c = masksOutcome (cameMasks r c) c := by
  simp only [bindOutcome, h]
  rfl

theorem bindOutcome_of_none (h : findRound s c.ftag c.gen bindRoundNo = none) : bindOutcome s c = none := by
  simp only [bindOutcome, h]

section
variable {ms : List (Nat × BitVec 4096)}

theorem masksOutcome_of_same (whole : wholeMask ms c.mask = true) (same : ∀ m ∈ ms, c.mask.getLsbD m.1 = true → m.2 = c.mask) :
    masksOutcome ms c = some true := by
  refine (if_pos whole).trans (congrArg some (List.all_eq_true.mpr fun m hm => ?_))
  cases named : c.mask.getLsbD m.1 with
  | false => rfl
  | true => rw [same m hm named, beq_self_eq_true, Bool.or_true]

theorem masksOutcome_of_differ (whole : wholeMask ms c.mask = true) (differ : ∃ m ∈ ms, c.mask.getLsbD m.1 = true ∧ m.2 ≠ c.mask) :
    masksOutcome ms c = some false := by
  obtain ⟨m, hm, named, other⟩ := differ
  refine (if_pos whole).trans (congrArg some (List.all_eq_false.mpr ⟨m, hm, ?_⟩))
  rw [named, beq_eq_false_iff_ne.mpr other]
  exact Bool.false_ne_true

/-- A rank whose own mask names one that never comes finds so by another's that is whole and names it. -/
theorem masksOutcome_of_other (part : wholeMask ms c.mask ≠ true) (named : ∃ m ∈ ms, m.2.getLsbD c.own = true ∧ wholeMask ms m.2 = true) :
    masksOutcome ms c = some false := by
  obtain ⟨m, hm, own, whole⟩ := named
  exact (if_neg part).trans (if_pos (List.any_eq_true.mpr ⟨m, hm, by rw [own, whole]; rfl⟩))

theorem masksOutcome_of_open (part : wholeMask ms c.mask ≠ true)
    (none_ : ¬∃ m ∈ ms, m.2.getLsbD c.own = true ∧ wholeMask ms m.2 = true) : masksOutcome ms c = none :=
  (if_neg part).trans (if_neg (by simpa only [List.any_eq_true, Bool.and_eq_true] using none_))

end

/-! The outcome of a rebinding (R340). -/

/-- The rebindings of one round that come to an outcome. -/
def bindSame (s : State) (tile : Core) (c : XCmd) (same : Bool) : List (Core × Strand × XCmd) :=
  (bindHeads s tile c).filter fun x => bindOutcome s x.2.2 == some same

/-- One strand's rebinding ends, or waits. -/
def bindStep (same : Bool) (r : State × Option Wait) (x : Core × Strand × XCmd) : State × Option Wait :=
  if !same then (finishCmd r.1 x.1 x.2.2 6, r.2)
  else match rebind r.1 x.1 x.2.1 x.2.2 with
    | .error (.fault f, s1) => (asyncFault s1 x.1 f, r.2)
    | .error (.wait w, _) => (r.1, some w)
    | .ok s1 => (finishCmd s1 x.1 x.2.2 2, r.2)

/-- The masks of the ranks that have taken part are no longer kept. -/
def bindDrop (c : XCmd) (hs : List (Core × Strand × XCmd)) (s1 : State) : State :=
  updRound s1 c.ftag c.gen bindRoundNo fun q =>
    { q with msgs := q.msgs.filter fun m => !((ranksOf c.mask).contains m.rank || hs.any fun x => x.2.2.own == m.rank) }

/-- What the event answers once every strand of the round has had its turn. -/
def bindEnd (s : State) (tile : Core) (c : XCmd) (hs : List (Core × Strand × XCmd)) (r : State × Option Wait) : Out :=
  match r.2 with
  | some w => .next (waitHead s tile w)
  | none => .next (bindDrop c hs r.1)

/-- Masks that differ end every rebinding of the round MISMATCH. -/
theorem foldl_bindStep_of_differ (hs : List (Core × Strand × XCmd)) (s : State) :
    hs.foldl (bindStep false) (s, none) = (hs.foldl (fun s x => finishCmd s x.1 x.2.2 6) s, none) :=
  List.foldl_hom (fun s : State => (s, (none : Option Wait))) fun _ _ => rfl

section
variable (hh : headCmd s tile = some (st, c))
include hh

theorem exec_bindRound_of_open (h : bindOutcome s c = none ∨ s.chainFree (dieOf tile) = false) : exec (.bindRound tile) s = .next s := by
  show execBindRound tile s = _
  simp only [execBindRound, hh]
  by_cases chain : s.chainFree (dieOf tile) = true
  · rw [h.resolve_right (ne_false_of_eq_true chain)]
    exact ite_self _
  · exact if_pos (by rw [Bool.eq_false_of_not_eq_true chain, Bool.not_false, Bool.or_true])

variable (kind : c.kind = 3) (active : c.active = true)
include kind active

theorem exec_bindRound_of_outcome {same : Bool} (h : bindOutcome s c = some same) (chain : s.chainFree (dieOf tile) = true) :
    exec (.bindRound tile) s =
      bindEnd s tile c (bindSame s tile c same) ((bindSame s tile c same).foldl (bindStep same) (s, none)) := by
  have due : (c.kind != 3 || !c.active || !s.chainFree (dieOf tile)) = false := by rw [kind, active, chain]; rfl
  show execBindRound tile s = _
  simp only [execBindRound, hh, due, h, Bool.false_eq_true, if_false]
  rfl

theorem exec_bindTimeout_of_head : exec (.bindTimeout tile) s =
    if c.cut.isSome && (bindOutcome s c).isNone then .next (finishCmd s tile c 3) else .next s := by
  show execBindTimeout tile s = _
  simp only [execBindTimeout, hh, kind, active, beq_self_eq_true, Bool.true_and]
  rfl

end

/-- What the one rebinding of a round comes to where its masks agree. -/
def reboundAs (s : State) (tile : Core) (c : XCmd) (h : Core × Strand × XCmd) : Partway State → Out
  | .error (.fault f, s1) => .next (bindDrop c [h] (asyncFault s1 h.1 f))
  | .error (.wait w, _) => .next (waitHead s tile w)
  | .ok s1 => .next (bindDrop c [h] (finishCmd s1 h.1 h.2.2 2))

theorem bindEnd_of_one (h : Core × Strand × XCmd) :
    bindEnd s tile c [h] ([h].foldl (bindStep true) (s, none)) = reboundAs s tile c h (rebind s h.1 h.2.1 h.2.2) := by
  simp only [List.foldl_cons, List.foldl_nil, bindStep, Bool.not_true, Bool.false_eq_true, if_false]
  rcases rebind s h.1 h.2.1 h.2.2 with ⟨_ | _, _⟩ | _ <;> rfl

/-! What the fabric brings (R331, R334, R338, R343, R345). -/

/-- The tile cores whose head command runs the round that a message belongs to. -/
def messageHeads (s : State) (msg : FabricMsg) : List Core :=
  allCoreIds.filter fun t => match headCmd s t with
    | some (_, c) => c.active && (c.kind == 0 || c.kind == 3) && c.ftag == msg.ftag && c.gen == msg.gen
        && (if c.kind == 3 then bindRoundNo else c.round) == (if msg.bind.isSome then bindRoundNo else msg.round)
    | none => false

theorem exec_contribution_eq (msg : FabricMsg) : exec (.contribution msg) s =
    if (s.slotNow && s.majorSlot) || !s.portFree msg.port.toNat || !(messageHeads s msg).all fun t => s.portTo msg.port.toNat (dieOf t) then
      .next s
    else .next ((messageHeads s msg).foldl tryAgree (updRound s msg.ftag msg.gen (if msg.bind.isSome then bindRoundNo else msg.round) fun r =>
      r.take s.psc msg)) := rfl

/-- A command runs a round. -/
def RunsRound (ftag gen : Word) (round : Nat) (c : XCmd) : Prop :=
  (c.kind = 0 ∨ c.kind = 3) ∧ c.active = true ∧ c.cut = none ∧ c.ftag = ftag ∧ c.gen = gen ∧
    (if c.kind = 3 then bindRoundNo else c.round) = round

/-- The head of a tile core where it runs the round. -/
def roundHead (s : State) (ftag gen : Word) (round : Nat) (t : Core) : Option (Core × XCmd) :=
  match headCmd s t with
  | some (_, c) =>
    let k := if c.kind = 3 then bindRoundNo else c.round
    if (c.kind == 0 || c.kind == 3) && c.active && c.cut.isNone && c.ftag == ftag && c.gen == gen && k == round then some (t, c) else none
  | none => none

theorem roundHeads_eq (s : State) (ftag gen : Word) (round : Nat) :
    roundHeads s ftag gen round = allCoreIds.filterMap (roundHead s ftag gen round) := rfl

theorem roundHead_eq_some {ftag gen : Word} {round : Nat} {t u : Core} :
    roundHead s ftag gen round u = some (t, c) ↔ u = t ∧ (∃ st, headCmd s t = some (st, c)) ∧ RunsRound ftag gen round c := by
  rw [roundHead]
  cases hh : headCmd s u with
  | none =>
    refine ⟨nofun, ?_⟩
    rintro ⟨rfl, ⟨st, h⟩, _⟩
    rw [hh] at h
    cases h
  | some x =>
    obtain ⟨st, k⟩ := x
    simp only [Option.ite_none_right_eq_some, Option.some.injEq, Prod.mk.injEq, Bool.and_eq_true, Bool.or_eq_true, beq_iff_eq,
      Option.isNone_iff_eq_none]
    constructor
    · rintro ⟨⟨⟨⟨⟨⟨kind, active⟩, cut⟩, ftag⟩, gen⟩, round⟩, rfl, rfl⟩
      exact ⟨rfl, ⟨st, hh⟩, kind, active, cut, ftag, gen, round⟩
    · rintro ⟨rfl, ⟨st', h⟩, kind, active, cut, ftag, gen, round⟩
      obtain ⟨rfl, rfl⟩ := Prod.mk.inj (Option.some.inj (hh.symm.trans h))
      exact ⟨⟨⟨⟨⟨⟨kind, active⟩, cut⟩, ftag⟩, gen⟩, round⟩, rfl, rfl⟩

theorem mem_roundHeads {ftag gen : Word} {round : Nat} {t : Core} :
    (t, c) ∈ roundHeads s ftag gen round ↔ (∃ st, headCmd s t = some (st, c)) ∧ RunsRound ftag gen round c := by
  rw [roundHeads_eq, List.mem_filterMap]
  constructor
  · rintro ⟨u, -, h⟩
    exact (roundHead_eq_some.mp h).2
  · exact fun h => ⟨t, mem_allCoreIds t, roundHead_eq_some.mpr ⟨rfl, h⟩⟩

section
variable {ftag gen : Word} {round : Nat} {code : BitVec 4} {note : Round → Round}

/-- No notice comes in a major slot, or where no port is in service (R343, R458). -/
theorem roundNotice_of_closed (h : ¬((s.slotNow && s.majorSlot) = false ∧ s.card.ports ≠ 0)) :
    roundNotice ftag gen round code note s = .next s := by
  have closed : ((s.slotNow && s.majorSlot) || s.card.ports == 0) = true := by
    rw [Bool.or_eq_true, beq_iff_eq]
    by_contra apart
    obtain ⟨noSlot, some_⟩ := not_or.mp apart
    exact h ⟨Bool.eq_false_of_not_eq_true noSlot, some_⟩
  exact if_pos (by rw [closed]; rfl)

variable (noSlot : (s.slotNow && s.majorSlot) = false) (ports : s.card.ports ≠ 0)
include noSlot ports

/-- A notice for a round that no head runs is kept. -/
theorem roundNotice_of_none (hs : roundHeads s ftag gen round = []) :
    roundNotice ftag gen round code note s = .next (updRound s ftag gen round note) := by
  simp only [roundNotice, hs, noSlot, beq_false_of_ne ports, List.any_nil, List.isEmpty_nil, Bool.or_self, Bool.false_eq_true, if_false,
    if_true]

/-- A notice ends every command that runs the round, once each may release. -/
theorem roundNotice_of_heads (hs : roundHeads s ftag gen round ≠ [])
    (free : ∀ x ∈ roundHeads s ftag gen round, s.unraised (dieOf x.1) = true ∧ s.chainFree (dieOf x.1) = true ∧
      ∀ st, s.strand x.1 = some st → waitsHeld s x.1 st x.2 = false) :
    roundNotice ftag gen round code note s = .next ((roundHeads s ftag gen round).foldl (fun s x => finishCmd s x.1 x.2 code) s) := by
  have goes : (roundHeads s ftag gen round).any (fun x => !s.unraised (dieOf x.1) || !s.chainFree (dieOf x.1)
      || (match s.strand x.1 with | some st => waitsHeld s x.1 st x.2 | none => false)) = false := by
    refine List.any_eq_false.mpr fun x hx => ne_true_of_eq_false ?_
    obtain ⟨raised, chain, unheld⟩ := free x hx
    rw [raised, chain]
    cases strand : s.strand x.1 with
    | none => rfl
    | some q => exact unheld q strand
  have some_ : (roundHeads s ftag gen round).isEmpty = false := by simpa using hs
  refine (if_neg ?_).trans (if_neg (ne_true_of_eq_false some_))
  rw [noSlot, beq_false_of_ne ports, Bool.or_self, Bool.false_or]
  exact ne_true_of_eq_false goes

end

end

end Sys2Proof.Machine

namespace Sys2Proof
open Sys2Proof.Machine

/-- Settles O46: each end by its guard; a finish by how the result is written, a transfer by what the peer answers, a rebinding by what its
masks come to (`masksOutcome`). -/
theorem commandsEnd : Obligations.CommandsEnd := by
  unfold Obligations.CommandsEnd
  refine ⟨fun s tile st c => ?ends, fun s tile st c hh kind active => ?rebinds, fun s msg => ?message, fun s ftag gen round => ?notice⟩
  case ends =>
    refine ⟨fun inSwitch hf => ?finish, fun hf => ?timeout, fun now dt free early hc live active cut => ?ticks,
      fun r m t cut hm => Round.came_of_within cut hm, fun q hq live chain sent => exec_switchDiscard_of_contributed hq live chain sent,
      fun bytes ok tracked hf active => ?transfer⟩
    case finish =>
      intro t own ms y agree counted
      have written {r : Partway State} (ready : readyCmd t c = true) (agreed : agree) (h : writeResult t tile st c y = r) :
          exec (.commandFinish tile inSwitch) s = finishedAs inSwitch s t tile st c r :=
        (exec_commandFinish_of_agreed rfl hf ready agreed).trans (congrArg (finishedAs inSwitch s t tile st c) h)
      refine ⟨fun early => exec_commandFinish_of_early rfl hf (.inl early),
        fun traffic chain => exec_commandFinish_of_early rfl hf (.inr ⟨traffic, chain⟩),
        fun ready traffic chain differ => exec_commandFinish_of_mismatch rfl hf ready traffic chain differ,
        fun s1 ready agreed h => ⟨fun held => (written ready agreed h).trans (if_pos held),
          fun free => (written ready agreed h).trans (if_neg (ne_true_of_eq_false free))⟩,
        fun h s1 ready agreed failed => ⟨?_, ?_⟩⟩
      · rintro x rfl
        exact written ready agreed failed
      · rintro w rfl
        exact written ready agreed failed
    case timeout =>
      refine ⟨fun noBind active cut late => (exec_commandTimeout_of_head hf).trans (if_pos ?_),
        fun h => (exec_commandTimeout_of_head hf).trans (if_neg ?_)⟩
      · rw [bne_iff_ne.mpr noBind, active, cut, late]
        rfl
      · rcases h with h | h <;> simp [h]
    case ticks =>
      rw [Strand.cmds_tick live]
      have ticket : (c.ticked now free early).ticket = c.ticket := by
        rw [XCmd.ticked, if_pos active]
      exact ⟨_, List.mem_map_of_mem hc, ticket, XCmd.cut_ticked active cut now free early⟩
    case transfer =>
      intro len a i
      have due (chain : s.chainFree (dieOf tile) = true) (cut : c.cut = none) :
          (!c.active || c.cut.isSome || !s.chainFree (dieOf tile)) = false := by
        rw [active, cut, chain]
        rfl
      refine ⟨fun stopped => exec_remoteTransfer_of_stopped hf stopped, fun kind none_ chain cut => ?put,
        fun kind whole most chain cut => ?get⟩
      case put =>
        subst none_
        have run {r : Except Halt (State × View)} (h : sourceBytes s tile st c a len = r) : exec i s = putAs s tile st c ok tracked r :=
          (exec_remoteTransfer_of_put hf (due chain cut) kind).trans (congrArg (putAs s tile st c ok tracked) h)
        refine ⟨fun x h => run h, fun w h => run h, fun s1 w h => ⟨fun det untracked => (run h).trans (if_pos ?_),
          fun free => (run h).trans (if_neg ?_)⟩⟩
        · rw [det, untracked]
          rfl
        · rcases free with free | free <;> simp [free]
      case get =>
        have run {r : Partway State} (h : getBytes tile st c a bytes s = r) : exec i s = gotAs s tile st c ok r :=
          (exec_remoteTransfer_of_get hf (due chain cut) kind whole most).trans (congrArg (gotAs s tile st c ok) h)
        exact ⟨fun s1 h => ⟨fun held => (run h).trans (if_pos held), fun free => (run h).trans (if_neg (ne_true_of_eq_false free))⟩,
          fun w s1 h => run h, fun x s1 h => run h⟩
  case rebinds =>
    intro mine whole
    refine ⟨fun none_ => bindOutcome_of_none (Option.map_eq_none_iff.mp none_), fun ms some_ => ?masks,
      exec_bindRound_of_open hh, fun same h chain => ?outcome,
      fun cut open_ => (exec_bindTimeout_of_head hh kind active).trans (if_pos ?_),
      fun h => (exec_bindTimeout_of_head hh kind active).trans (if_neg ?_)⟩
    case masks =>
      obtain ⟨r, found, rfl⟩ := Option.map_eq_some_iff.mp some_
      have outcome := bindOutcome_of_round found
      have named : (∃ m ∈ cameMasks r c, m.2.getLsbD c.own = true ∧ wholeMask (cameMasks r c) m.2 = true) ↔
          ∃ m ∈ cameMasks r c, m.2.getLsbD c.own = true ∧ whole (cameMasks r c) m.2 :=
        exists_congr fun m => and_congr_right' (and_congr_right' wholeMask_iff)
      refine ⟨fun all same => outcome.trans (masksOutcome_of_same (wholeMask_iff.mpr all) same),
        fun all differ => outcome.trans (masksOutcome_of_differ (wholeMask_iff.mpr all) differ),
        fun part other => outcome.trans (masksOutcome_of_other (fun all => part (wholeMask_iff.mp all)) (named.mpr other)),
        fun part none_ => outcome.trans (masksOutcome_of_open (fun all => part (wholeMask_iff.mp all)) fun other => none_ (named.mp other))⟩
    case outcome =>
      intro hs drop
      have run := exec_bindRound_of_outcome hh kind active h chain
      refine ⟨?_, ?_⟩
      · rintro rfl
        rw [foldl_bindStep_of_differ] at run
        exact run
      · intro x same_ one
        subst same_
        have ends : exec (.bindRound tile) s = reboundAs s tile c x (rebind s x.1 x.2.1 x.2.2) := by
          rw [show bindSame s tile c true = [x] from one, bindEnd_of_one] at run
          exact run
        have drops (s1 : State) : drop s1 = bindDrop c [x] s1 := by rw [← one]; rfl
        have answer {r : Partway State} (h : rebind s x.1 x.2.1 x.2.2 = r) : exec (.bindRound tile) s = reboundAs s tile c x r :=
          ends.trans (congrArg (reboundAs s tile c x) h)
        exact ⟨fun s1 h => drops _ ▸ answer h, fun f s1 h => drops _ ▸ answer h, fun w s1 h => answer h⟩
    · rw [cut, open_]
      rfl
    · rcases h with h | h
      · rw [h]
        exact Bool.false_ne_true
      · simp [Option.isNone_eq_false_iff.mpr h]
  case message =>
    intro k heads comes
    refine ⟨fun h => ?_, fun h => ?_⟩
    · obtain ⟨noSlot, port, routes⟩ := h
      refine (exec_contribution_eq msg).trans (if_neg ?_)
      have free : ((messageHeads s msg).all fun t => s.portTo msg.port.toNat (dieOf t)) = true := List.all_eq_true.mpr routes
      rw [noSlot, port, free]
      exact Bool.false_ne_true
    · refine (exec_contribution_eq msg).trans (if_pos ?_)
      by_contra open_
      simp only [Bool.not_eq_true, Bool.or_eq_false_iff, Bool.not_eq_false', List.all_eq_true] at open_
      obtain ⟨⟨noSlot, port⟩, routes⟩ := open_
      exact h ⟨noSlot, port, routes⟩
  case notice =>
    intro hs runs comes
    exact ⟨fun t c => mem_roundHeads,
      fun ⟨noSlot, ports⟩ none_ => ⟨roundNotice_of_none noSlot ports none_, roundNotice_of_none noSlot ports none_⟩,
      fun ⟨noSlot, ports⟩ some_ free => ⟨roundNotice_of_heads noSlot ports some_ free, roundNotice_of_heads noSlot ports some_ free⟩,
      fun h => ⟨roundNotice_of_closed h, roundNotice_of_closed h⟩⟩

end Sys2Proof
end
